-- ==== Sys2Proof/Word.lean ====
section
/-! DEFINITION. The word types of the Guham core's ports and registers. -/

namespace Sys2Proof

/-- One byte of a descriptor, command, plan or frame (R4). -/
abbrev Byte := BitVec 8

/-- One 64-bit register location (R432). -/
abbrev Word := BitVec 64

/-- One 64-byte memory line: data byte `k` is bits `[8k+7 : 8k]` (R219). -/
abbrev Line := BitVec 512

/-- A 16-bit generation (R130). -/
abbrev Gen := BitVec 16

end Sys2Proof
end

