-- ==== Sys2Proof/Syntax.lean ====
section
/-! DEFINITION. The commands of the block: one constructor of `Instr` per row of spec/opcode_table.json, with the
operands that arrive at the core's edge with it. Raw bit vectors stand where the spec gives a bit layout; a `Bool` named
`…Ok` is the outcome of a standard cryptographic check whose inputs are not modelled bit by bit. -/

namespace Sys2Proof

/-- Who accesses a register (R437). -/
inductive Requester where
  | mp                    -- management processor, internal path
  | pf                    -- operator, physical function BAR0
  | fabric                -- control fabric on the management port
  | test                  -- integrator test on the management port
  | reserved (src : Fin 2)  -- a reserved MGMT_REQ_SRC on the management port: 0b10 or 0b11 (R49, R50)
  | vf (n : Fin 64)       -- tenant function, its own window only
deriving DecidableEq, Repr

/-- What a read of a location names: its address, and the bytes of the 8 it asks for (R49, R52). -/
structure RegRead where
  addr : Nat
  be : Byte
deriving DecidableEq, Repr

/-- One DMA write-data beat: a 64-byte line and its byte strobes (R41). -/
structure WBeat where
  data : Line
  strb : BitVec 64
deriving DecidableEq, Repr

/-- A line as a memory port returns it: data, side-band, poison marker (R56, R219). -/
structure RawLine where
  data : Line
  sb : BitVec 64
  poison : Bool
deriving DecidableEq, Repr

/-- A link frame as it arrives: its channel, its sealed 1,024-byte payload, byte 0 in bits [7:0], and its tag (R59, R283). -/
structure RxFrame where
  vc : Fin 8
  payload : BitVec 8192
  tag : BitVec 128
deriving DecidableEq, Repr

/-- Where a submitted entry comes from: a function's kernel ring or a user-mode queue (R151, R158). -/
inductive EntrySrc where
  | kring (f : Fin 64)
  | queue (h : Fin 64) (q : Fin 256)
deriving DecidableEq, Repr

/-- What the core's own read returned: a status code of R11 and bytes. -/
structure ReadBytes where
  status : Byte
  bytes : List Byte
deriving DecidableEq, Repr

/-- A descriptor and its wave table as the core read them (R168). -/
structure DescRead where
  descStatus : Byte
  desc : BitVec 2048
  waveStatus : Byte
  waves : List (BitVec 32)
deriving DecidableEq, Repr

/-- One sector of a host read as it came back: its 512 bytes of ciphertext and its 32-byte tag entry, byte 0 in bits [7:0]
(R272, R274). -/
structure Sector where
  cipher : BitVec 4096
  entry : BitVec 256
deriving DecidableEq, Repr

/-- The internal SRAM error, if any, that the step finds in a structure it reads (R141, R247, R372). -/
inductive SramErr where
  | none
  | bitmapUe                        -- uncorrectable written-granule word
  | rootUe                          -- uncorrectable root-store word
  | cacheClean                      -- uncorrectable clean cache entry
  | cacheDirty                      -- uncorrectable dirty cache entry
  | segmentUe                       -- uncorrectable segment-entry word
  | windowUe                        -- uncorrectable window-entry word
  | pipeUe (j : Fin 16)             -- uncorrectable word on the datapath of pipe j of the port's lane
deriving DecidableEq, Repr

/-- The internal error, if any, that a chunk meets on its way through the reduction engine (R353, R376). -/
inductive RedErr where
  | none
  | corrected                       -- correctable tile, FIFO or tree word
  | uncorrectable                   -- uncorrectable tile or FIFO word
  | keyUnit (k : Fin 256)           -- uncorrectable word in a group-key unit
deriving DecidableEq, Repr

/-- A Dritha request message as it stands in a mailbox: its session (0 for a plain message), its 16-byte header and the
payload bytes that this message carries (R405). -/
structure DReq where
  sid : Nat
  hdr : BitVec 128
  payload : List Byte
deriving DecidableEq, Repr

/-- What a withdrawal concerns: a segment entry, a window entry, or the cache entries of one ATS invalidation of a function
(R205, R214). -/
inductive WdRef where
  | segment (k : Fin 8192)
  | window (n : Fin 4096)
  | host (f : Fin 64) (id : Nat)
deriving DecidableEq, Repr

/-- A Vault entry (R253). -/
inductive VaultEntry where
  | rootSeed | epochRoot | identityKey | linkIdentityKey
  | hallSecret (h : Fin 64)
  | memSlot (k : Fin 1024)
  | hostKey (h : Fin 64)
  | linkKey (n : Fin 20) (egress : Bool)
  | groupKey (g : Fin 2048)
  | roundingKey (g : Fin 2048)
deriving DecidableEq, Repr

/-- What the checks of a link offer gave: its certificate verifies to the device-identity authority, and its signature
under that certificate's key (R289). -/
structure OfferCheck where
  certOk : Bool
  sigOk : Bool
deriving DecidableEq, Repr

/-- What the boot port gave (R390 to R393): whether every read was answered, the 512-byte image header, byte 0 in bits
[7:0], the code, whether the header's signature verifies under its key, and of the certificate region whether it is there,
whether its chains verify, and the link identity chain. -/
structure ImageCheck where
  readOk : Bool
  header : BitVec 4096
  code : List Byte
  sigOk : Bool
  certsPresent : Bool
  certsOk : Bool
  linkChain : List Byte
deriving DecidableEq, Repr

/-- One tree level of a fetched counter chain: copy A, and copy B for a node (R237, R247). -/
structure ChainLevel where
  copyA : RawLine
  copyB : Option RawLine
deriving DecidableEq, Repr

/-- The commands and events of the Guham core. -/
inductive Instr where
  -- engine ports
  | fetchRequest (p : Fin 256)
  | tileBegin (p : Fin 256) (index : BitVec 32)
  | tileEnd (p : Fin 256) (status : Byte) (offset : BitVec 32)
  | engOverrun (p : Fin 256)
  | dmaRequest (p : Fin 256) (req : BitVec 128) (beats : List WBeat) (err : SramErr)
  | signal (p : Fin 256) (data : BitVec 96) (fenceUe : Bool)
  | complete (p : Fin 256) (data : BitVec 96)
  | redTransfer (p : Fin 256) (hdr : BitVec 64) (beats : List Line)
  | preemptAck (p : Fin 256)
  | contextSwitchDone (p : Fin 256)
  | preemptRemoteTimeout (p : Fin 256)
  | engNoAck (p : Fin 256)
  -- host, memory and working-memory ports
  | functionLevelReset (f : Fin 64)
  | memoryReadResponse (m : Fin 48) (tag : BitVec 9) (lines : List RawLine)
  | counterChainFetched (k : Fin 8192) (group : Nat) (levels : List ChainLevel)
  | memoryCreditReturn (m : Fin 48) (n : Fin 5)
  | memoryRequestTimeout (m : Fin 48)
  | wmReadResponse (data : BitVec 2048)
  -- links
  | linkCreditReturn (n : Fin 20) (vc : Fin 8)
  | linkFrameSend (n : Fin 20) (pipeUe : Option (Fin 256))
  | linkFrameRelease (n : Fin 20) (vc : Fin 8) (h : Fin 64)
  | linkWidthChange (n : Fin 20) (width : BitVec 2)
  | linkDownTimeout (n : Fin 20)
  | retrainRequest (n : Fin 20)
  | retrainDone (n : Fin 20)
  | retrainTimeout (n : Fin 20)
  | marker (n : Fin 20) (f : RxFrame)
  | mgmt (n : Fin 20) (f : RxFrame)
  | mgmtMessageTimeout (n : Fin 20) (msg : BitVec 32)
  | keyx (n : Fin 20) (f : RxFrame) (check : OfferCheck)
  | keyRotationStart (n : Fin 20)
  | rotationTimeout (n : Fin 20)
  | winReq (n : Fin 20) (f : RxFrame)
  | winRsp (n : Fin 20) (f : RxFrame)
  | windowTimeout (n : Fin 20) (req : Fin 4096)
  | pushData (n : Fin 20) (fs : List RxFrame)
  | ack (n : Fin 20) (f : RxFrame)
  | pullReq (n : Fin 20) (f : RxFrame)
  | pullData (n : Fin 20) (fs : List RxFrame)
  | copyPageTimeout (n : Fin 20) (req : Fin 4096)
  | chunk (n : Fin 20) (f : RxFrame) (pipeUe : Option (Fin 256)) (err : RedErr)
  | grant (n : Fin 20) (f : RxFrame)
  | count (n : Fin 20) (f : RxFrame)
  | endNotice (n : Fin 20) (f : RxFrame)
  | observe (n : Fin 20) (f : RxFrame)
  -- collectives
  | chunkDrain (g : Fin 2048) (op : Fin 3) (flight : Fin 3) (src : ReadBytes) (err : RedErr)
  | collStall (g : Fin 2048)
  | collTimeout (g : Fin 2048)
  | collAccepted (h : Fin 64) (q : Fin 256)
  | groupKeyDelivery (g : Fin 2048) (sender : Word) (wrapped : BitVec 320)
  | groupKeyRetry (g : Fin 2048)
  -- stride timer, scheduler, halls
  | strideSyncEdge (c : Nat) (recognised : Bool)
  | syncLost
  | slotDecision (k : Fin 64) (thermLow : Bool) (fallbacks : List (Fin 64 × DescRead))
      (coreUe : Bool)
  | strideBoundary
  | hallDrainEnd (h : Fin 64)
  | hallScrubComplete (h : Fin 64)
  | guiltyReset (h : Fin 64) (q : Fin 256)
  -- plan and hall commands
  | loadHost (r : Requester)
  | loadFlash (r : Requester)
  | cancel (r : Requester)
  | planVerificationEnd (source : Option (List Byte))
  | teardown (r : Requester) (h : Fin 64)
  | resume (r : Requester) (h : Fin 64)
  -- submission
  | doorbell (f : Fin 64) (q : Fin 256) (data : Word)
  | ringEntry (h : Fin 64) (q : Fin 256) (status : Byte) (entry : BitVec 128) (queueUe : Bool)
  | kringBaseWrite (f : Fin 64) (data : Word)
  | kringEnable (f : Fin 64)
  | kringDisable (f : Fin 64)
  | kringDisableDone (f : Fin 64)
  | kringDoorbell (f : Fin 64) (data : Word)
  | nop (src : EntrySrc) (raw : BitVec 512)
  | queueCreate (f : Fin 64) (raw : BitVec 512)
  | queueDestroy (f : Fin 64) (raw : BitVec 512)
  | queueReset (f : Fin 64) (raw : BitVec 512)
  | queueRetirementDone (f : Fin 64)
  | fenceSet (f : Fin 64) (raw : BitVec 512)
  | invoke (h : Fin 64) (q : Fin 256) (raw : BitVec 512) (d : DescRead)
  | waitFence (h : Fin 64) (q : Fin 256) (raw : BitVec 512)
  | fenceConditionMet (h : Fin 64) (q : Fin 256)
  | signalFence (h : Fin 64) (q : Fin 256) (raw : BitVec 512)
  | condSkip (h : Fin 64) (q : Fin 256) (raw : BitVec 512) (wordStatus : Byte) (word : Word)
      (spanStatus : Byte) (span : List Byte)
  | loopBegin (h : Fin 64) (q : Fin 256) (raw : BitVec 512)
  | loopEnd (h : Fin 64) (q : Fin 256) (raw : BitVec 512)
  | coll (h : Fin 64) (q : Fin 256) (raw : BitVec 512)
  | commitOpen (h : Fin 64) (q : Fin 256) (raw : BitVec 512)
  | commitClose (h : Fin 64) (q : Fin 256) (raw : BitVec 512) (descs : List DescRead)
  | migrate (h : Fin 64) (q : Fin 256) (raw : BitVec 512)
  | reservedOpcode (src : EntrySrc) (raw : BitVec 512) (readStatus : Byte)
  -- host translation
  | atsTranslationCompletion (f : Fin 64) (pasid : BitVec 20) (page : Nat) (sizeLog2 : Nat) (host : Nat)
      (rd : Bool) (wr : Bool)
  | prgResponse (f : Fin 64) (pasid : BitVec 20) (page : Nat) (code : BitVec 4)
  | atsInvalidateRequest (f : Fin 64) (pasid : BitVec 20) (page : Nat) (sizeLog2 : Nat)
  | invalidateCompletion (f : Fin 64)
  | hostReadCompletion (id : Nat) (sectors : List Sector)
  -- withdrawals and held writes
  | withdrawalComplete (w : WdRef)
  | withdrawalDrainTimeout (w : WdRef)
  | backingScrubDone (k : Fin 8192)
  | heldWriteComplete (h : Fin 64) (index : Nat) (ue : Bool)
  -- background
  | patrolScrub (m : Fin 48) (line : RawLine)
  | treePatrol (k : Fin 8192) (level : Nat) (node : Nat) (copies : ChainLevel) (parent : Word)
  -- re-keying and Vault
  | rekeyStart (r : Requester) (data : Word)
  | rekeyGroupMove (c : Fin 16) (lines : List RawLine)
  | rekeyGroupComplete (c : Fin 16)
  | rekeyCancel (c : Fin 16)
  | vaultUe (e : VaultEntry)
  | vaultRederiveDone (e : VaultEntry)
  -- fault unit
  | fence (r : Requester) (unit : BitVec 16)
  | unfence (r : Requester) (unit : BitVec 16)
  | fenceDrainComplete (unit : BitVec 16)
  | unitReturned (unit : BitVec 16)
  | unpin (r : Requester)
  | driveLow (r : Requester) (low : Bool)
  | errPulseExpiry
  -- life cycle
  | lcTransition (r : Requester) (target : BitVec 3)
  | lcOtpCmd (r : Requester) (word : Byte) (data : BitVec 32)
  | otpBitProgrammed
  | otpProgFail
  -- SPDM requests on mailbox m: 0 to 63 the function windows, 64 the MP block
  | getVersion (m : Fin 65) (sid : Nat)
  | getCapabilities (m : Fin 65) (sid : Nat)
  | negotiateAlgorithms (m : Fin 65) (sid : Nat) (supported : Bool)
  | getDigests (m : Fin 65) (sid : Nat)
  | getCertificate (m : Fin 65) (sid : Nat) (slot : Byte)
  | challenge (m : Fin 65) (sid : Nat) (slot : Byte)
  | getMeasurements (m : Fin 65) (sid : Nat)
  | keyExchange (m : Fin 65) (sid : Nat) (slot : Byte)
  | finish (m : Fin 65) (sid : Nat) (hmacOk : Bool)
  | heartbeat (m : Fin 65) (sid : Nat)
  | keyUpdate (m : Fin 65) (sid : Nat)
  | endSession (m : Fin 65) (sid : Nat)
  | chunkSend (m : Fin 65) (sid : Nat) (last : Bool) (bytes : Nat)
  | chunkGet (m : Fin 65) (sid : Nat)
  | sessionTimeout (m : Fin 65) (sid : Nat)
  -- Dritha requests
  | contribute (m : Fin 65) (d : DReq)
  | bind (m : Fin 65) (d : DReq) (macOk : Bool)
  | setTagBase (m : Fin 65) (d : DReq)
  | advanceEpoch (m : Fin 65) (d : DReq)
  | windowInstall (m : Fin 65) (d : DReq)
  | windowRemove (m : Fin 65) (d : DReq)
  | rekey (m : Fin 65) (d : DReq)
  | admitTenant (m : Fin 65) (d : DReq) (sigsOk : Bool)
  | withdraw (m : Fin 65) (d : DReq)
  | getDeliveryKey (m : Fin 65) (d : DReq)
  | commitStage (m : Fin 65) (d : DReq) (src : ReadBytes)
  | commitAbort (m : Fin 65) (d : DReq)
  | commitQuery (m : Fin 65) (d : DReq)
  | restoreWrite (m : Fin 65) (d : DReq)
  | approveTrace (m : Fin 65) (d : DReq)
  | getHostKey (m : Fin 65) (d : DReq)
  | linkOpen (m : Fin 65) (d : DReq)
  | linkDeliver (m : Fin 65) (d : DReq) (n : Fin 20) (check : OfferCheck)
  | debugCert (m : Fin 65) (d : DReq) (sigOk : Bool)
  | debugClear (m : Fin 65) (d : DReq)
  | getIdKeys (m : Fin 65) (d : DReq)
  | debugRightsExpiry
  -- Gallery
  | telemetryWrite
  | tracePacket (type : Byte) (h : Byte) (body : List Byte)
  | drop
  -- registers, resets, power
  | registerWrite (r : Requester) (addr : Nat) (be : Byte) (data : Word)
  | coreReset
  | fabricRelease (present : BitVec 256)
  | mgmtReset
  | boot (otp : List (BitVec 32))
  | imageVerified (check : ImageCheck)
  | powerLoss
  | deniedRead (r : Requester) (read : RegRead)
  | fclkCountWindowEnd (edges : BitVec 16) (hclk : Bool) (lclk : BitVec 20)
  | powerUp
deriving DecidableEq, Repr

end Sys2Proof
end

