-- ==== Sys2Proof/Config.lean ====
section
/-! DEFINITION. What the spec leaves to standards it names without defining (log entry 5), and the free values (log
entry 10). Nothing here has a body: no proof can see a value of it. -/

namespace Sys2Proof.Config

/-- A free value: `freeValue n` is the n-th value that the spec leaves open (log entry 10). -/
opaque freeValue : Nat → BitVec 64

/-- The implementation reads the next group's leaf ahead for a request (R239, log entry 70). -/
opaque prefetches : Nat → Bool

/-- The host controller's programmed Max Read Request Size and Max Payload Size, in bytes (R53). -/
opaque maxReadRequest : Nat
opaque maxPayload : Nat

/-- The ephemeral P-384 public key, x then y, of this chip's own offer for a port, generation and kind (R288). -/
opaque ephemeralKey : Nat → BitVec 16 → Byte → BitVec 768

/-- The P-384 ECDH shared secret of that ephemeral key and a peer's (R260). -/
opaque ecdhSecret : Nat → BitVec 16 → Byte → BitVec 768 → BitVec 384

/-- The ECDSA P-384 signature with SHA-384, r then s, of a private key over a text (R288). -/
opaque ecdsaSign : BitVec 448 → List Byte → BitVec 768

/-- The transport key of the SPDM session between the management processors of two chips, by serial (R261). -/
opaque transportKey : BitVec 64 → BitVec 64 → BitVec 256

/-- The message that asks for the key of a group under an admission digest, from a chip by its serial (R310, log entry
74). -/
opaque keyRequest : Nat → List Byte → BitVec 64 → List Byte

/-- What a message asks for, where it is such a request: group, admission digest and the asking chip's serial. -/
opaque readRequest : List Byte → Option (Nat × List Byte × BitVec 64)

/-- The message that carries a wrapped group key (R261, log entry 74). -/
opaque keyMessage : Nat → List Byte → List Byte

/-- The link port on which a message to a chip that is no neighbour leaves (log entry 74). -/
opaque messageRoute : BitVec 32 → Nat

/-- The public key, x then y, of a P-384 private key (R407). -/
opaque publicKey : BitVec 448 → List Byte

/-- The export master secret of a session on a mailbox (R259). -/
opaque exportSecret : Nat → Nat → List Byte

/-- SHA-384 of the mask ROM (R408). -/
opaque romDigest : BitVec 384

end Sys2Proof.Config
end

