-- ==== Sys2Proof/Machine/Bits.lean ====
section
/-! DEFINITION. Bit fields, bytes and little-endian numbers (R4), and the generation step (R130). -/

namespace Sys2Proof.Machine

/-- Bits [hi:lo] of a vector as a number. -/
def bits {w : Nat} (x : BitVec w) (hi lo : Nat) : Nat := (x.toNat >>> lo) % 2 ^ (hi + 1 - lo)

/-- Bit `i` of a vector. -/
def bit {w : Nat} (x : BitVec w) (i : Nat) : Bool := x.toNat.testBit i

/-- The little-endian number that a byte list spells (R4). -/
def leNat : List Byte → Nat
  | [] => 0
  | b :: t => b.toNat + 256 * leNat t

/-- `n` little-endian bytes of a number. -/
def leBytes : Nat → Nat → List Byte
  | 0, _ => []
  | n + 1, v => BitVec.ofNat 8 v :: leBytes n (v / 256)

/-- Bytes `off` to `off + n − 1` of a list as a little-endian number. -/
def leAt (l : List Byte) (off n : Nat) : Nat := leNat ((l.drop off).take n)

/-- Bytes `off` to `off + n − 1` of a list. -/
def slice (l : List Byte) (off n : Nat) : List Byte := (l.drop off).take n

/-- Every byte of the list is zero. -/
def allZero (l : List Byte) : Bool := l.all (· == 0)

/-- The bytes of a bit vector, byte 0 in bits [7:0]. -/
def bytesOf {w : Nat} (x : BitVec w) : List Byte := leBytes (w / 8) x.toNat

/-- Bytes `hi` down to `lo` of a bit vector as a number, byte 0 in bits [7:0]. -/
def byteField {w : Nat} (x : BitVec w) (hi lo : Nat) : Nat := bits x (8 * hi + 7) (8 * lo)

/-- The number of set bits among the low `w` bits. -/
def popCount (w : Nat) (n : Nat) : Nat := (List.range w).countP (fun i => n.testBit i)

/-- The generation that follows (R130): 0xFFFF steps to 0x0001. -/
def nextGen (g : Gen) : Gen := if g = 0xFFFF then 1 else g + 1

/-- `⌈a / b⌉`. -/
def ceilDiv (a b : Nat) : Nat := (a + b - 1) / b

/-- `a` rounded up to a multiple of `b`. -/
def roundUp (a b : Nat) : Nat := ceilDiv a b * b

/-- Add with saturation at the top of the width. -/
def satAdd {w : Nat} (x : BitVec w) (n : Nat) : BitVec w := BitVec.ofNat w (min (x.toNat + n) (2 ^ w - 1))

/-- Replace entry `i` of a list. -/
def setAt {α : Type} (l : List α) (i : Nat) (v : α) : List α := l.set i v

/-- The entry of an association list, or `d`. -/
def assoc {α : Type} (d : α) (l : List (Nat × α)) (k : Nat) : α :=
  match l.find? (fun e => e.1 == k) with
  | some e => e.2
  | none => d

end Sys2Proof.Machine
end

