-- ==== Sys2Proof/Machine/Tab.lean ====
section
/-! DEFINITION. Sparse tables in one canonical form: keys strictly rising, no entry equal to the table's default. Every
per-hall, per-queue, per-port and per-entry register file of the core is one, keyed by the spec's own register index. -/

namespace Sys2Proof.Machine

/-- A sparse table of `α`, keyed by Nat. -/
abbrev Tab (α : Type) := List (Nat × α)

/-- The entry at `k`, or the table's default `d`. -/
def Tab.get {α : Type} (d : α) : Tab α → Nat → α
  | [], _ => d
  | (j, v) :: t, k => if j = k then v else Tab.get d t k

/-- Remove the entry at `k`. -/
def Tab.erase {α : Type} (t : Tab α) (k : Nat) : Tab α := t.filter (fun e => e.1 != k)

/-- Insert `v` at `k` in key order (no entry at `k` stands in `t`). -/
def Tab.insert {α : Type} : Tab α → Nat → α → Tab α
  | [], k, v => [(k, v)]
  | (j, w) :: t, k, v => if k < j then (k, v) :: (j, w) :: t else (j, w) :: Tab.insert t k v

/-- Write `v` at `k`; writing the default removes the entry. -/
def Tab.set {α : Type} [DecidableEq α] (d : α) (t : Tab α) (k : Nat) (v : α) : Tab α :=
  if v = d then t.erase k else (t.erase k).insert k v

/-- Apply `f` to the entry at `k`. -/
def Tab.mod {α : Type} [DecidableEq α] (d : α) (t : Tab α) (k : Nat) (f : α → α) : Tab α :=
  t.set d k (f (t.get d k))

/-- The canonical form: keys strictly rising, no default listed. -/
abbrev Tab.wf {α : Type} (d : α) (t : Tab α) : Prop :=
  t.Pairwise (fun a b => a.1 < b.1) ∧ ∀ e ∈ t, e.2 ≠ d

/-- Write `v` at `k` in front of a table whose keys are above `k`; anywhere else it is a plain write. -/
def Tab.put {α : Type} [DecidableEq α] (d : α) (t : Tab α) (k : Nat) (v : α) : Tab α :=
  match t with
  | [] => if v = d then [] else [(k, v)]
  | e :: _ => if k < e.1 then (if v = d then t else (k, v) :: t) else t.set d k v

/-- Apply `f` to every listed entry, dropping those that become the default. -/
def Tab.mapAll {α : Type} [DecidableEq α] (d : α) (f : Nat → α → α) (t : Tab α) : Tab α :=
  t.foldr (fun e r => Tab.put d r e.1 (f e.1 e.2)) []

/-- Keep the listed entries whose key and value pass `p`. -/
def Tab.keep {α : Type} (p : Nat → α → Bool) (t : Tab α) : Tab α := t.filter (fun e => p e.1 e.2)

end Sys2Proof.Machine
end

