-- ==== Sys2Proof/Machine/State.lean ====
section
/-! DEFINITION. The state of the Guham core as plain data: every register, table, queue, counter, mode and pin the spec
gives the block, the queue of waiting commands, the outputs at its ports, and the model's own counter of free values.
Per-unit state is held in sparse tables keyed by the spec's register index; a table lists nothing at reset. -/

namespace Sys2Proof.Machine

/-- Why the block stops. No spec behaviour stops the block, so only one reason stands here. -/
inductive Fault where
  /-- Raised by a command whose operands name a register that the spec says does not exist (a management-space address
  beyond 16 MiB, which no requester can drive: MGMT_REQ_ADDR has bits [23:3] only). Safe. -/
  | noSuchAddress (addr : Nat)
deriving DecidableEq, Repr

/-- Why a command has no outcome. -/
inductive Refusal where
  /-- The command's row has no meaning yet; used in the dispatch only. Safe. -/
  | notModelled (mnemonic : String)
deriving DecidableEq, Repr

/-- Completion status codes (R11). -/
inductive Status where
  | ok | refused | faultedTile | guiltyReset | preempted | fallbackUsed | pausedRestore | retired
  | integrity | poison | timeoutRemote | abortedCommit | stalled
deriving DecidableEq, Repr

/-- Fault classes (R371). -/
inductive FClass where
  | corrected | contained | degraded | fatal
deriving DecidableEq, Repr

/-- Hall states (R127). -/
inductive HallState where
  | absent | awaitingTenant | active | paused | draining | scrubbing | tornDown
deriving DecidableEq, Repr

/-- Hall classes (R102, R124). -/
inductive HallClass where
  | isolated | shared | deadline | operator
deriving DecidableEq, Repr

/-- Segment modes (R107). -/
inductive SegMode where
  | sealed | veiled | wm
deriving DecidableEq, Repr

/-! ### The Hall Plan's tables (R96 to R110, R304, R305) -/

/-- The CORE record (R101). -/
structure CoreRec where
  strideCode : BitVec 2 := 1
  syncRole : Nat := 0
  syncDelay : Nat := 32
  throttleEighths : Nat := 1
  rekeyUnits : Nat := 0
  hangStrides : Nat := 64
  quietStrides : Nat := 16
  sharedBase : Nat := 0
  sharedCount : Nat := 0
  wmUnits : Nat := 0
deriving DecidableEq, Repr

/-- A HALLS record (R102). -/
structure HallRec where
  hall : Nat
  cls : HallClass
  memUnits : Nat := 0
  linkUnits : Nat := 0
  weight : Nat := 0
  colourBase : Nat := 0
  colourCount : Nat := 0
  clusterSlots : Nat := 0
  keyQuota : Nat := 0
  queueQuota : Nat := 0
  htcQuota : Nat := 0
  winQuota : Nat := 0
  heldKib : Nat := 0
deriving DecidableEq, Repr

/-- The owner of an engine port (R104). -/
inductive Owner where
  | none | hall (h : Nat) | pool (p : Nat)
deriving DecidableEq, Repr

/-- An ENGINES record (R104); `nearStack` 255 means none. -/
structure EngRec where
  owner : Owner
  nearStack : Nat
deriving DecidableEq, Repr

/-- A POOLS record (R105). -/
structure PoolRec where
  pool : Nat
  sliceSlots : Nat
  hallMask : BitVec 64
deriving DecidableEq, Repr

/-- A MEMORY record: one interleave set (R106). -/
structure SetRec where
  set : Nat
  portMask : BitVec 48
  metaBase : Nat
  metaSize : Nat
deriving DecidableEq, Repr

/-- A SEGMENTS record (R107). -/
structure SegRec where
  hall : Nat
  context : Nat
  index : Nat
  mode : SegMode
  set : Nat
  rd : Bool
  wr : Bool
  va : Nat
  base : Nat
  size : Nat
deriving DecidableEq, Repr

/-- A LINKS record (R108). -/
structure LinkRec where
  used : Bool
  weights : List Nat
deriving DecidableEq, Repr

/-- A DEADLINE record (R109). -/
structure DlRec where
  hall : Nat
  marginStrides : Nat
  fallbackContext : Nat
  primaryWcet : Nat
  fallbackWcet : Nat
  deadlineStrides : Nat
  fallbackVa : Nat
deriving DecidableEq, Repr

/-- A GROUPS record (R304); `raw` is the record as loaded (R326). -/
structure GroupRec where
  raw : BitVec 256
  group : Nat
  hall : Nat
  reduces : Bool
  partialMode : Bool
  compensated : Bool
  memberBase : Nat
  memberCount : Nat
  myIndex : Nat
  f0 : Nat
  f1 : Nat
  f2 : Nat
  fmt1 : Nat
  fmt2 : Nat
  ports : List Nat          -- next0, prev0, next1, prev1, next2, prev2
  window : Nat
deriving DecidableEq, Repr

/-- A MEMBERS entry (R305). -/
structure MemberRec where
  serialLo : BitVec 32
  hall : Nat
  chip : Nat
deriving DecidableEq, Repr

/-- A verified plan: its tables, its identity, and the section table index of each section type (R448). -/
structure Plan where
  formatMinor : Nat := 0
  planId : Word := 0
  digest : List Byte := []
  sections : List (Nat × Nat) := []     -- (type, section table index)
  core : CoreRec := {}
  halls : List HallRec := []
  engines : List EngRec := []
  pools : List PoolRec := []
  sets : List SetRec := []
  segs : List SegRec := []
  links : List LinkRec := []
  deadlines : List DlRec := []
  groups : List GroupRec := []
  members : List MemberRec := []
deriving DecidableEq, Repr

/-- States of the plan loader (R113). -/
inductive PlanState where
  | idle | loading | pending | applied | refused | cancelled
deriving DecidableEq, Repr

/-- The PLAN block (R113 to R119). -/
structure PlanUnit where
  srcAddr : Word := 0
  srcLen : Word := 0
  target : Word := 0
  state : PlanState := .idle
  code : Byte := 0
  section_ : Byte := 0
  record : BitVec 32 := 0
  latchedAddr : Word := 0              -- latched by the load in progress (R114)
  latchedLen : Word := 0
  latchedTarget : Word := 0
  fromFlash : Bool := false
  pending : Option Plan := none        -- shadow tables
  due : Bool := false                  -- the swap decision taken at the decision point (R116)
  bound : Option Nat := none           -- commit group of hall 0 that holds the PLAN_SWAP (R360)
  active : Option Plan := none
  appliedStride : Word := 0
deriving DecidableEq, Repr

/-- Stride timer, synchronisation and throttle (R70 to R82). -/
structure Timer where
  strideNum : Word := 0
  fclk : BitVec 32 := 0                -- FCLK since the stride's boundary
  slot : Nat := 0                      -- last slot decided in this stride
  strideCode : BitVec 2 := 1
  syncRole : BitVec 2 := 0
  throttle : Bool := false
  syncLost : Bool := false
  syncClamped : Bool := false
  ignoredEdges : BitVec 16 := 0
  missedStrides : BitVec 8 := 0
  lastError : BitVec 32 := 0
  carry : Int := 0                     -- remainder carried into the next correction (R77)
  correction : Int := 0                -- correction of slot 63 of the first stride whose slot 63 is not yet decided
  taken : Int := 0                     -- correction that slot 63 of this stride has, once decided
  clampRun : Nat := 0                  -- consecutive clamped strides (R78)
  clampedThis : Bool := false
  lastEdge : Option Int := none        -- FCLK of the last accepted edge, counted from this stride's boundary
  lastEdgeAge : Nat := 0               -- stride boundaries since it
  firstAfterLength : Bool := false     -- no edge yet since a swap that changed the length (R76)
  noCorrection : Bool := false         -- the swap of this stride changed the length (R79)
  swapStride : Bool := false           -- this stride carries a plan swap (R72)
  slot63Decided : Bool := false
  decided : Bool := false              -- the coming boundary's decision point has passed (R449)
  thermLow : Bool := false             -- THERM_ALERT_N as sampled at the decision point (R67)
deriving DecidableEq, Repr

/-! ### Halls (R127 to R147) -/

/-- What a pause left to restore (R384). -/
inductive RestoreObj where
  | lost (seg : Nat) | marker (seg : Nat) | vault (e : VaultEntry) | queue (q : Nat) | fence (n : Nat)
deriving DecidableEq, Repr

/-- The ten coarse counters, in the order of R144. -/
structure Counters where
  invocations : Nat := 0
  tiles : Nat := 0
  slots : Nat := 0
  linesRead : Nat := 0
  linesWritten : Nat := 0
  counterMisses : Nat := 0
  framesSent : Nat := 0
  htcMisses : Nat := 0
  wmZeroReads : Nat := 0
  faults : Nat := 0
deriving DecidableEq, Repr

/-- One hall slot. -/
structure Hall where
  state : HallState := .absent
  gen : Gen := 0
  cmdResult : BitVec 4 := 0
  cls : BitVec 2 := 0
  drained : Bool := false              -- the drain steps have ended; SCRUBBING follows (R134)
  teardown : Bool := false             -- TEARDOWN accepted (R133)
  teardownLate : Bool := false         -- … after the coming boundary's decision point
  resume : Bool := false               -- RESUME accepted (R137)
  pauseCause : Bool := false           -- a pause takes effect at the next boundary (R132)
  pauseFatal : Bool := false           -- R387
  pauseBitmap : Bool := false          -- R141
  keysReady : Bool := false            -- keys installed; ACTIVE at the next boundary (R129)
  restore : List RestoreObj := []
  rr : Nat := 0                        -- the queue at which the next round starts (R183)
  live : Counters := {}                -- exact, since creation
  shown : Counters := {}               -- exact, as last published (R413)
  publishedStride : Word := 0
  throttledShown : Bool := false
  degradedShown : Byte := 0
  rec0 : Word := 0
  rec1 : Word := 0
  rec2 : Word := 0
  adderOps : Nat := 0                  -- this stride (R331)
  adderOpsShown : Nat := 0             -- last stride
deriving DecidableEq, Repr

/-- Kernel ring states (R149). -/
inductive KringState where
  | disabled | enabled | enablePending | disabling
deriving DecidableEq, Repr

/-- One function: kernel ring, generation, page-request state (R149, R217). -/
structure Func where
  gen : Gen := 0
  baseAddr : BitVec 52 := 0
  size : BitVec 3 := 0
  kstate : KringState := .disabled
  writeIndex : BitVec 16 := 0
  readIndex : BitVec 16 := 0
  completed : BitVec 16 := 0
  lastStatus : Byte := 0
  entryDue : Bool := false                 -- the ring was disabled with the read of its next entry in progress
  retiring : Option (Bool × Nat) := none   -- QUEUE_DESTROY (true) or QUEUE_RESET of local queue q awaits retirement
  priDisabled : Bool := false
  priOutstanding : Nat := 0
  invals : List (Nat × List Nat) := []     -- outstanding ATS invalidations: id, host reads still to complete
  nextInval : Nat := 0                     -- the identity of the next one
deriving DecidableEq, Repr

/-! ### Queues, commands and invocations (R148 to R179) -/

/-- User-mode queue states (R157). -/
inductive QState where
  | absent | active | waiting | guilty | destroying
deriving DecidableEq, Repr

/-- A command's header (R159). -/
structure CmdHdr where
  opcode : Byte := 0
  count : Bool := false
  tag : BitVec 32 := 0
  record : BitVec 48 := 0
deriving DecidableEq, Repr

/-- An open loop: position of its first body command, count, current iteration (R164). -/
structure Loop where
  start : Nat
  count : Nat
  iter : Nat
deriving DecidableEq, Repr

/-- The command buffer that a queue runs (R153). -/
structure Buffer where
  base : Nat
  count : Nat
  pos : Nat
  loops : List Loop                    -- innermost first
deriving DecidableEq, Repr

/-- The fields of an invocation descriptor that the core uses (R168). -/
structure Desc where
  remote : Bool := false
  reduce : Bool := false
  deadline : Bool := false
  retries : Nat := 0
  enginesMin : Nat := 1
  clusterSlots : Nat := 0
  tileCount : Nat := 1
  tileBudget : Nat := 1
  segments : Byte := 0
  affinity : Option Nat := none
  windows : Nat := 0
  waveCount : Nat := 1
  waveTable : Nat := 0
  args : Nat := 0
  argsStride : Nat := 0
  params : BitVec 288 := 0
deriving DecidableEq, Repr

/-- Where a tile stands (R170, R171). -/
inductive TilePhase where
  | ready | granted (p : Nat) | begun (p : Nat) | done | failed | ended
deriving DecidableEq, Repr

/-- A tile of an invocation. -/
structure Tile where
  phase : TilePhase := .ready
  faults : Nat := 0
  complete : Bool := false             -- its COMPLETE transfer has been counted
deriving DecidableEq, Repr

/-- A running invocation (R168 to R172). -/
structure Invocation where
  seq : BitVec 32 := 0
  hdr : CmdHdr := {}
  context : Nat := 0
  desc : Desc := {}
  waves : List Nat := []               -- tile counts of the waves
  wave : Nat := 0                      -- current wave
  tiles : Tab Tile := []
  done : Nat := 0
  failure : Option (Nat × BitVec 32) := none   -- first failure seen: tile, offset
  failTime : Word × BitVec 32 := (0, 0)        -- stride and FCLK in which the core saw it (R172)
  failed : Bool := false
  stopped : Bool := false              -- R121
  torn : Bool := false                 -- its context is torn down (R195)
  fallback : Bool := false             -- FALLBACK_USED (R172)
  old : Tab Tile := []                 -- of a fall-back: the tiles of its primary (R192)
  oldRetries : Nat := 0                -- and the primary's retries
  reason : Byte := 0
  paused : Bool := false
  commit : Option Nat := none          -- commit group that released it
deriving DecidableEq, Repr

/-- An operation a queue's command waits on (R158). -/
inductive CmdWait where
  | none
  | fence (n : Nat) (value : Word) (hdr : CmdHdr)
  | invocation
  | deadline (hdr : CmdHdr) (d : Desc) (waves : List Nat) (seq : BitVec 32)
  | coll (hdr : CmdHdr) (raw : BitVec 512)
  | close (g : Nat) (hdr : CmdHdr)
  | migrate
deriving DecidableEq, Repr

/-- A user-mode queue (R152 to R157, R174). -/
structure Queue where
  state : QState := .absent
  gen : Gen := 0
  global : BitVec 12 := 0
  firstStatus : Byte := 0
  badDoorbell : Bool := false
  readIndex : BitVec 16 := 0
  writeIndex : BitVec 16 := 0          -- latched
  doorbell : BitVec 16 := 0            -- the doorbell register
  armed : Bool := false
  completion : Word := 0
  invSeq : BitVec 32 := 0
  context : Nat := 0
  ringLog2 : Nat := 0
  ringAddr : Nat := 0
  buffer : Option Buffer := none
  wait : CmdWait := .none
  hang : Nat := 0
  fenceChanged : Bool := false         -- the awaited fence changed this stride (R176)
  openGroup : Option (Nat × Nat) := none   -- commit group, loop depth at its open (R167)
  openAborted : Bool := false          -- that group has aborted; its COMMIT_CLOSE is still to come (R369)
  inv : Option Invocation := none
  backlog : List Invocation := []      -- INVOKEs accepted by a commit, still to run in command order (R366)
deriving DecidableEq, Repr

/-- A pool's rotation (R184). -/
structure Pool where
  hall : Nat := 0
  left : Nat := 0
deriving DecidableEq, Repr

/-- Deadline monitor states (R193). -/
inductive DlState where
  | idle | watching | fallingBack
deriving DecidableEq, Repr

/-- The deadline monitor of one hall with its CORE_DL_STATUS fields (R190 to R194). -/
structure Deadline where
  state : DlState := .idle
  watch : Option DlRec := none         -- the record in force at acceptance
  queue : Nat := 0                     -- local queue of the watched invocation
  seq : BitVec 32 := 0                 -- and its sequence number
  t0 : Word := 0                       -- stride of acceptance
  failSeen : Bool := false             -- a switch cause 0x3 since the previous decision
  switchDue : Option (BitVec 4) := none    -- the decision before the coming boundary switches, for this cause
  fallbackRead : Option DescRead := none   -- the fall-back descriptor that the switch reads (R192)
  missed : BitVec 16 := 0
  fallbacks : BitVec 16 := 0
  slack : BitVec 16 := 0
  cause : BitVec 4 := 0
deriving DecidableEq, Repr

/-- A context's own state (R195). -/
structure Context where
  gen : Gen := 0
  torn : Bool := false                 -- its running work is being torn down
deriving DecidableEq, Repr

/-! ### Engine ports (R34 to R48) -/

/-- A TILE entry (R35). -/
structure TileEntry where
  hall : Nat
  hallGen : Gen
  context : Nat
  remote : Bool
  reduce : Bool
  local_ : Nat                         -- local queue
  global : BitVec 12
  seq : BitVec 32
  tile : Nat
  budget : Nat
  args : Nat
  params : BitVec 288
deriving DecidableEq, Repr

/-- An engine queue entry (R173). -/
inductive EngEntry where
  | tile (t : TileEntry)
  | park
deriving DecidableEq, Repr

/-- The tags of a request inside the core, each with its generation: the hall, the context, and the segment or window entry
that it references (R17). -/
structure ReqTags where
  hall : Nat := 0
  hallGen : Gen := 0
  context : Nat := 0
  ctxGen : Gen := 0
  ref : Nat := 0
  refGen : Gen := 0
deriving DecidableEq, Repr

/-- A line of a partial write as its read found it: the line's old data, the status that its writer gets, and whether the
line stays as it is (R243). -/
structure OldLine where
  line : Nat
  data : Line
  status : Status
  stays : Bool
deriving DecidableEq, Repr

/-- What a stalled or issued DMA request waits for. -/
inductive DmaWait where
  | chain                              -- the counter chain of its leaf (R237)
  | lines                              -- memory port responses
  | rekey                              -- its group is in a re-key band (R267)
  | lock                               -- an earlier access holds a line, or an overflow the group (R225, R244)
  | wm                                 -- working-memory responses
  | host                               -- host port completion
  | translation                        -- ATS or page request (R203)
  | link                               -- a window reply (R211)
  | held                               -- a held write or an applying commit group (R366, R367)
deriving DecidableEq, Repr

/-- An outstanding DMA request of an engine port (R39 to R43). -/
structure Dma where
  tag : Nat
  kind : Nat                           -- 0 segment, 1 host page, 2 remote window
  write : Bool
  hall : Nat
  hallGen : Gen
  context : Nat
  index : Nat
  address : Nat
  length : Nat
  beats : List WBeat
  wait : DmaWait
  seg : Nat := 0                       -- segment entry resolved to
  ctxGen : Gen := 0                    -- generations of its context and of its segment or window entry (R17)
  refGen : Gen := 0
  arrival : Nat := 0                   -- its place in the order in which segment requests reach the unit (R244)
  segBase : Nat := 0                   -- backing at translation (R18, R216)
  keySlot : Nat := 0
  pages : List (Nat × Nat) := []       -- host pages translated for it: page, translated address (R200, R272)
  left : Nat := 0                      -- lines or blocks still to arrive
  lines : Tab Line := []               -- plaintext lines that have arrived, by line index within the request
  todo : List Nat := []                -- of a write: line indices within the request not yet written
  asked : List Nat := []               -- of those, the ones whose old data is being read (R243)
  old : List OldLine := []             -- of those, the ones whose old data has come
  status : Status := .ok               -- first non-OK status seen
deriving DecidableEq, Repr

/-- A baton or partial transfer that waits at ENG_RED_READY (R339). -/
structure RedWait where
  hdr : BitVec 64
  beats : List Line
deriving DecidableEq, Repr

/-- The last tile of an engine, for placement (R185): its hall's life, context, queue's life and invocation; a fall-back is an
invocation of its own. -/
structure LastTile where
  hall : Nat
  hallGen : Gen
  context : Nat
  queue : Nat
  queueGen : Gen
  seq : BitVec 32
  fallback : Bool
deriving DecidableEq, Repr

/-- A fence transfer that waits for the responses of the writes issued before it (R44). -/
structure FenceWait where
  data : BitVec 96
  fenceUe : Bool
  tags : List Nat                      -- those writes
deriving DecidableEq, Repr

/-- An engine port. -/
structure Engine where
  present : Bool := false
  hall : Option (Nat × Gen) := none    -- current assignment (R40)
  queue : List EngEntry := []
  fetched : Option TileEntry := none   -- fetched, not yet begun
  begun : Option TileEntry := none
  preemptReq : Bool := false
  switching : Bool := false            -- acknowledged; context switch not complete (R187)
  nextHall : Option Nat := none        -- the hall it serves after the switch
  last : Option LastTile := none
  dmas : List Dma := []
  fences : List FenceWait := []        -- oldest first
  redWait : Option RedWait := none
  overstay : Bool := false             -- the begun tile was begun before the last slot decision (R203)
  counted : Nat := 0                   -- last slot of this stride that the begun tile has counted (R144)
deriving DecidableEq, Repr

/-! ### Memory ports and protection (R55 to R58, R218 to R252) -/

/-- Why a memory request was issued. -/
inductive MemWhy where
  | dma (port tag : Nat)               -- read for an engine DMA request
  | partialWrite (port tag : Nat)      -- read of a partial write
  | overflow (seg line : Nat)          -- read of an overflow re-encryption; line of the segment
  | node (set metaLine : Nat) (copyB : Bool)   -- a leaf block or tree node, named by its copy A (R236, R237)
  | write                              -- posted write
  | discard                            -- its requester has retired (R40)
deriving DecidableEq, Repr

/-- A line that a memory write carries: its place in the 256-byte block, its data and side-band, its poison marker. -/
structure WLine where
  lane : Nat
  data : Line
  sb : BitVec 64
  poison : Bool
deriving DecidableEq, Repr

/-- An outstanding request on a memory port. -/
structure MemReq where
  tag : Nat
  payer : Nat                          -- the hall whose memory time it takes, or a background share (R89, R90)
  tags : ReqTags := {}
  write : Bool
  block : Nat                          -- 256-byte block address within the port
  mask : BitVec 4
  why : MemWhy
  seg : Nat
  keySlot : Nat
  age : Nat                            -- stride boundaries since acceptance
  ctrs : List Nat := []                -- 63-bit counters of the lines at issue, in mask order (sealed data)
  payload : List WLine := []           -- lines of a write
deriving DecidableEq, Repr

/-- A memory port. -/
structure MemPort where
  credits : Nat := 512
  outstanding : List MemReq := []
  waiting : List MemReq := []          -- accepted by the core, no credit or share yet
  ues : List Nat := []                 -- ages in strides of the last MPX_DATA_UE (R376)
  used : Tab Nat := []                 -- lines used this stride by hall or background share (R89, R90)
  patrol : Nat := 0                    -- next line of patrol scrubbing (R249)
deriving DecidableEq, Repr

/-- A cached leaf block or tree node with its tag (R236). -/
structure CacheEnt where
  set : Nat
  metaLine : Nat
  level : Nat
  hall : Nat
  hallGen : Gen
  index : Nat                          -- leaf group or node number within its level
  dirty : Bool
  block : Line
deriving DecidableEq, Repr

/-- A leaf or node to be marked lost in its parent (R230, R247). -/
structure Marker where
  set : Nat
  metaLine : Nat
  level : Nat
  index : Nat
deriving DecidableEq, Repr

/-- A segment's metadata extent (R232, R234, R252). -/
structure SegMeta where
  base : Nat := 0
  units : Nat := 0
  topLevel : Nat := 0
  topCount : Nat := 0
deriving DecidableEq, Repr

/-- MPX event counters (R252). -/
structure MpxCnt where
  corrected : Word := 0
  integrity : Word := 0
  poisoned : Word := 0
  nodeRepairs : Word := 0
  subtreesLost : Word := 0
  overflows : Word := 0
deriving DecidableEq, Repr

/-- A group overflow in progress (R225). -/
structure Overflow where
  seg : Nat
  group : Nat
  left : List Nat                      -- lines still to re-encrypt
  port : Nat                           -- the triggering engine port and tag
  tag : Nat
  old : Line                           -- the leaf before the overflow
deriving DecidableEq, Repr

/-- An outstanding working-memory block read (R58). -/
structure WmRead where
  port : Nat
  tag : Nat
  first : Nat
deriving DecidableEq, Repr

/-- The memory protection unit and the working-memory guard. -/
structure Protect where
  cnt : MpxCnt := {}
  roots : Tab Line := []               -- root store, by segment entry (R231)
  segMeta : Tab SegMeta := []
  cache : Tab (List CacheEnt) := []    -- by colour × 1024 + set, most recently used first (R236)
  lost : List Marker := []             -- lost markers whose parent is not yet on die (R247)
  evicting : List CacheEnt := []       -- dirty entries whose write-back waits for their parent (R238)
  arrivals : Nat := 0                  -- segment requests that have reached the unit (R244)
  overflows : List Overflow := []
  written : List Nat := []             -- written granules, ascending (R138)
  wmReads : List WmRead := []
deriving DecidableEq, Repr

/-! ### Translation (R196 to R217) -/

/-- Segment entry states (R198). -/
inductive SegState where
  | invalid | valid | withdrawing | lost
deriving DecidableEq, Repr

/-- A live segment entry (R198). -/
structure Segment where
  state : SegState := .invalid
  gen : Gen := 0
  size : Nat := 0
  base : Nat := 0
  va : Nat := 0
  keySlot : Nat := 0
  keyed : Bool := false                -- a key slot is installed for it (R264)
  wr : Bool := false
  rd : Bool := false
  set : Nat := 0
  mode : SegMode := .sealed
deriving DecidableEq, Repr

/-- Window entry states and kinds (R209). -/
inductive WinState where
  | invalid | valid | withdrawing
deriving DecidableEq, Repr

/-- A remote window entry (R209). -/
structure Window where
  state : WinState := .invalid
  gen : Gen := 0
  kind : BitVec 2 := 0                 -- 1 OUTBOUND, 2 INBOUND
  segOffset : Nat := 0
  size : Nat := 0
  wr : Bool := false
  rd : Bool := false
  ownerHall : Nat := 0
  ownerContext : Nat := 0
  segment : Nat := 0
  linkPort : Nat := 0
  peerHall : Nat := 0
  remoteIndex : Nat := 0
deriving DecidableEq, Repr

/-- A withdrawal in progress (R214). -/
structure Withdrawal where
  ref : WdRef
  age : Nat := 0
deriving DecidableEq, Repr

/-- Backing of a withdrawn segment that is not free yet: still to be scrubbed after a withdrawal (R215), or of a hall in
teardown (R135, R450). -/
structure Scrub where
  entry : Nat                          -- the segment entry that held it
  set : Nat
  base : Nat
  units : Nat
  mode : SegMode
  teardown : Bool                      -- its hall's teardown frees it
  lost : Bool                          -- it was LOST when the teardown began, so it is not scrubbed
  done : Tab Nat := []                 -- lines written so far, by memory port
deriving DecidableEq, Repr

/-- A host translation cache entry (R200); the cache lists the most recently used first. -/
structure Htc where
  func : Nat
  pasid : Nat
  page : Nat                           -- virtual address of its first byte
  sizeLog2 : Nat
  host : Nat
  rd : Bool
  wr : Bool
  funcGen : Gen
deriving DecidableEq, Repr

/-- A translation that requests wait on (R201, R202). -/
structure XlatWait where
  func : Nat
  pasid : Nat
  page : Nat
  needRead : Bool                      -- the page request asks for these
  needWrite : Bool
  tag : Option Nat                     -- the Translation Request's tag; none while it waits for a slot (R86)
  pri : Bool                           -- a page request is outstanding
  held : Bool := false                 -- waits for one of the function's 512 page requests (R86)
  tries : Nat                          -- unsuccessful page requests
  waiters : List (Nat × Nat)           -- engine port, tag
deriving DecidableEq, Repr

/-- An outstanding host read: sectors and their tag entries (R274). -/
structure HostRead where
  id : Nat
  func : Nat
  funcGen : Gen
  port : Nat
  tag : Nat
  pasid : Nat
  addr : Nat                           -- host virtual address of the request
  tags : List Nat                      -- tags of its non-posted requests on the port (R53)
  partialWrite : Bool                  -- the read of a sector that a write covers in part (R275)
deriving DecidableEq, Repr

/-- A MIGRATE in progress (R206, R208). -/
structure Migration where
  hall : Nat
  queue : Nat
  hdr : CmdHdr
  direction : Nat
  window : Nat
  src : Nat
  dst : Nat
  pages : Nat
  next : Nat                           -- next page to issue
  out : List (Nat × Nat)               -- outstanding pages: page number, link request id or host read id
  fail : Option (Nat × Status)         -- lowest failing page and its status
  seg : Nat
deriving DecidableEq, Repr

/-- A write of the core's own at a context address: a completion record, whose count follows it (R175), or a part of a
collective's result. The records of one queue are written one after another. -/
structure CoreWrite where
  id : Nat := 0
  port : Nat                           -- the pseudo port on which it runs
  hall : Nat
  context : Nat
  va : Nat
  bytes : List Byte                    -- within one 4 KiB page; empty where only the count is still to come
  started : Bool := false
  counts : Option Nat := none          -- the queue whose counter it steps (R174)
deriving DecidableEq, Repr

/-- The translation unit. -/
structure Xlat where
  segs : Tab Segment := []
  windows : Tab Window := []
  withdrawals : List Withdrawal := []
  completed : BitVec 16 := 0
  scrubs : List Scrub := []             -- oldest first
  htc : List Htc := []
  waits : List XlatWait := []
  hostReads : List HostRead := []
  nextRead : Nat := 0
  stale : List (Nat × Nat × Nat × Option Nat) := []   -- of before a function's reset: function, PASID and page of a page
                                                      -- request, or of a Translation Request with its tag (R54)
  migrations : List Migration := []
  nextWrite : Nat := 0
  writes : List CoreWrite := []         -- the core's own writes still to be made, oldest first
  served : List (Nat × Nat × Bool × Status × List Line) := []   -- inner accesses just completed: pseudo port, tag, write
deriving DecidableEq, Repr

/-! ### The Vault and the re-key engine (R253 to R279) -/

/-- Memory key slot states (R263). -/
inductive SlotState where
  | free | inUse | rekeySource | rekeyTarget
deriving DecidableEq, Repr

/-- A memory key slot (R221, R263). -/
structure Slot where
  state : SlotState := .free
  gen : Gen := 0
  hall : Nat := 0
  context : Nat := 0
  index : Nat := 0
  mode : SegMode := .sealed
  inst : Word := 0                     -- the hall's installation number of its keys (R263)
  k1 : BitVec 256 := 0
  k2 : BitVec 256 := 0
deriving DecidableEq, Repr

/-- A hall's key state (R258, R259, R263, R272, R276, R277). -/
structure HallKey where
  secret : Option (BitVec 384) := none
  hostKey : Option (BitVec 256) := none
  installs : Word := 0                 -- installation number
  epoch : BitVec 32 := 0               -- bounce epoch
  epochReq : Nat := 0                  -- advances asked for, in force from the next boundary
  iv : Word := 0
  bases : Tab Word := []               -- tag table bases by context; 16 for accesses without a PASID; base + 1
  basesReq : Tab Word := []            -- requested, in force from the next boundary
deriving DecidableEq, Repr

/-- Re-key channel states (R279). -/
inductive ChanState where
  | free | moving | switchPending | cancelling
deriving DecidableEq, Repr

/-- A re-key channel (R266 to R271). -/
structure Channel where
  state : ChanState := .free
  hall : Nat := 0
  context : Nat := 0
  index : Nat := 0
  source : Nat := 0
  target : Nat := 0
  landing : Nat := 0
  poisoned : Nat := 0
  band : List Nat := []
  root : Line := 0
  ext : SegMeta := {}
deriving DecidableEq, Repr

/-- The Vault and the re-key engine. -/
structure Vault where
  rootSeed : Option (BitVec 256) := none
  epochRoot : Option (BitVec 256) := none
  identity : Option (BitVec 448) := none
  linkIdentity : Option (BitVec 448) := none
  epoch : BitVec 16 := 0
  epochShown : BitVec 16 := 0          -- KEY_STATUS.epoch and .root_present, loaded at boot (R279)
  rootShown : Bool := false
  slots : Tab Slot := []
  halls : Tab HallKey := []
  channels : Tab Channel := []
  rekeyHall : BitVec 6 := 0            -- KEY_REKEY_CMD fields
  rekeyContext : BitVec 4 := 0
  rekeyIndex : BitVec 3 := 0
  rekeyOp : BitVec 2 := 0              -- START that the management processor has not yet taken
  resultChannel : BitVec 4 := 0
  resultReason : BitVec 4 := 0
  nextChannel : Nat := 0               -- round robin of R269
  rederiving : List VaultEntry := []   -- R255
deriving DecidableEq, Repr

/-! ### Links (R59 to R61, R280 to R303) -/

/-- Link port states (R303). -/
inductive LinkState where
  | unused | keying | up | rotating | retraining | down | fenced
deriving DecidableEq, Repr

/-- An egress frame that waits on a port (R294). -/
structure TxFrame where
  hall : Nat
  vc : Nat
  hdr : BitVec 512
  body : List Byte
deriving DecidableEq, Repr

/-- One virtual channel of one port (R283, R285, R291). -/
structure Chan where
  credits : Nat := 64
  egress : BitVec 32 := 0
  ingress : BitVec 32 := 0
  verified : Bool := false             -- a frame of the current link generation has verified
  fails : Nat := 0                     -- consecutive tag failures
  switchedOut : Bool := false          -- this channel sends under the new key (in-band rotation)
  switchedIn : Bool := false
  held : List (BitVec 512 × List Byte) := []   -- ingress frames not yet taken: header, body (R286)
  inFlight : List Nat := []            -- halls whose frames hold the channel's credits, oldest first; 64 for no hall (R287)
  mid : Option Nat := none             -- hall whose fragments are being sent back to back (R295, R297)
deriving DecidableEq, Repr

/-- An outstanding remote window request or copy page (R295, R297). -/
structure WinReqOut where
  id : Nat
  hall : Nat
  hallGen : Gen
  port : Nat                           -- engine port, for a window request
  tag : Nat
  entry : Nat
  entryGen : Gen
  write : Bool
  length : Nat
  age : Nat := 0
  copy : Bool := false                 -- a page of a MIGRATE
  page : Nat := 0
  queue : Nat := 0
  frags : List (List Byte) := []       -- fragments received so far
  started : Bool := false              -- its first frame has been sent
  remoteIndex : Nat := 0
  offset : Nat := 0                    -- byte offset in the window
  data : List Byte := []               -- what it writes
deriving DecidableEq, Repr

/-- A fragment sequence being received from the far chip (R296). -/
structure WinReqIn where
  hdr : BitVec 512
  frags : List (List Byte)
deriving DecidableEq, Repr

/-- A link port. -/
structure Link where
  state : LinkState := .unused
  gen : Gen := 0
  lastGen : Gen := 0
  width : BitVec 2 := 0
  lanes : Nat := 0                     -- the lanes that F uses this stride (R300)
  peer : Word := 0
  tagFails : BitVec 16 := 0
  desyncs : BitVec 16 := 0
  protocol : BitVec 16 := 0
  rotations : BitVec 16 := 0
  egressKey : Option (BitVec 256) := none
  ingressKey : Option (BitVec 256) := none
  oldEgress : Option (BitVec 256) := none    -- keys being rotated out
  oldIngress : Option (BitVec 256) := none
  confirmed : Bool := true             -- the answering chip has verified a MARKER on VC0 (R290)
  chans : Tab Chan := []
  txq : List TxFrame := []
  urgent : List TxFrame := []          -- KEYX and MARKER frames, ahead of every other frame (R292)
  lastHall : Nat := 0
  spent : Tab Nat := []                -- frames charged this stride by hall (64: unreserved capacity)
  sent : Tab Nat := []                 -- frames sent this stride by 8 × hall + channel
  recv : Tab Nat := []                 -- frames received this stride by hall
  offerOut : Option (BitVec 16 × Bool) := none   -- own outstanding OPEN: generation, in band
  offerAge : Nat := 0
  downAge : Nat := 0
  retrainAge : Option Nat := none
  retrainDue : Bool := false           -- this is the port's retrain stride, not yet requested
  reqs : List WinReqOut := []
  pendingReqs : List WinReqOut := []   -- wait for a request number
  nextReq : Nat := 0                   -- the number after the last one given
  late : List (Bool × Nat) := []       -- numbers of copy pages and window requests that ended before their reply (R213)
  messages : List (BitVec 32 × List Byte) := []   -- MGMT messages not yet sent whole, by identifier (R290, R409)
  inbound : List WinReqIn := []
deriving DecidableEq, Repr

/-! ### Collectives and the reduction engine (R304 to R356) -/

/-- Group states (R326). -/
inductive GroupState where
  | idle | admitting | admitted | stalled | faulted
deriving DecidableEq, Repr

/-- Progress of an operation on one ring (R316 to R320). -/
structure Ring where
  granted : Nat := 0                   -- chunks the next member lets this member send
  offered : Nat := 0                   -- value of the last GRANT this member sent
  sent : Nat := 0                      -- work items done: chunks sent, then the results kept (R317, R319)
  received : Nat := 0                  -- chunks received whole
  frags : List (List Byte) := []       -- frames of the chunk arriving
  waited : Nat := 0                    -- strides waited (R322)
  progress : Bool := false             -- a chunk or grant arrived this stride
deriving DecidableEq, Repr

/-- A chunk held in an accumulator tile: its elements as FP32 words (error words beside them in compensated relay). -/
structure Chunk where
  flight : Nat
  seqNo : Nat                          -- number in the receive sequence, or in the send sequence at step 0
  first : Nat                          -- first element in the whole array
  step : Nat                           -- ring step s of R317
  sums : List (BitVec 32)              -- the baton as FP32 words
  errs : List (BitVec 32)              -- error words in compensated relay
  raw : List Byte                      -- the body as it arrived (all-gather)
deriving DecidableEq, Repr

/-- An operation in flight (R312 to R324). -/
structure CollOp where
  kind : Nat                           -- 0 REDUCE_SCATTER, 1 ALL_GATHER, 2 COUNT_LAP
  hall : Nat
  queue : Nat
  queueGen : Gen
  hdr : CmdHdr
  context : Nat
  inFmt : Nat
  outFmt : Nat
  rounding : Nat
  src : Nat
  dst : Nat
  elements : Nat
  chunkFence : Nat
  doneFence : Nat
  step : Word
  accepted : Bool                      -- holds its tiles (R313)
  tiles : List Nat := []
  rings : List Ring := []              -- by flight
  chunks : List Chunk := []
  completed : Nat := 0                 -- chunks completed (R320)
  contributors : Option Nat := none    -- P of R337, fixed by the first accepted transfer
  counts : Tab Nat := []               -- COUNT_LAP counts received, by member index, plus one
  partials : List (Nat × Nat × Nat × List (BitVec 32)) := []   -- item, contributor, element, the 16 values of a beat
deriving DecidableEq, Repr

/-- A collective group on this chip. -/
structure Group where
  state : GroupState := .idle
  gen : Gen := 0
  lastStatus : Byte := 0
  digest : List Byte := []             -- admission digest
  admHall : Nat := 0
  admAge : Nat := 0                    -- strides since GK was requested
  pendingGen : Gen := 0
  seed : BitVec 256 := 0
  key : Option (BitVec 256) := none
  delivery : Option (BitVec 256) := none
  rounding : Option (BitVec 256) := none
  innerCtr : Tab Word := []            -- by flight (R298)
  ops : List CollOp := []
  lastCounts : Option (Word × List Nat) := none   -- step and counts of the last COUNT_LAP (R314)
  grants : List (Nat × Nat × Word × Nat) := []    -- GRANTs for operations not yet accepted here: flight, op, step, value
deriving DecidableEq, Repr

/-- Accumulator tile states (R356). -/
inductive AccState where
  | free | filling | draining
deriving DecidableEq, Repr

/-- The owner of an accumulator tile (R350). -/
structure AccTile where
  state : AccState := .free
  flight : Nat := 0
  op : Nat := 0
  group : Nat := 0
  hall : Nat := 0
  hallGen : Gen := 0
deriving DecidableEq, Repr

/-- The reduction engine's shared registers (R327 to R331, R356). -/
structure Reduce where
  adderOps : Word := 0
  dropped : Word := 0
  late : Word := 0
  corrected : Word := 0
  tiles : Tab AccTile := []
  slots : Tab Nat := []                -- cluster-slots by 16 × hall + cluster in the current stride (R330)
  ues : Tab (List Nat) := []           -- ages of RED_UE by cluster (R376)
deriving DecidableEq, Repr

/-! ### Commit groups (R357 to R370) -/

/-- Commit group states (R357). -/
inductive CmtState where
  | idle | staging | open_ | closed
deriving DecidableEq, Repr

/-- An action of a commit group (R359). -/
inductive Action where
  | invoke (hdr : CmdHdr) (va : Nat) (fieldsOk : Bool) (d : Desc) (waves : List Nat) (seq : BitVec 32)
  | signal (hdr : CmdHdr) (fence : Nat) (value : Word)
  | exchange (a b : Nat)
  | withdraw (a : Nat)
  | heldWrite (context dst length : Nat) (data : List Byte)
  | epoch
  | planSwap (planId : Word)
deriving DecidableEq, Repr

/-- A commit group (R357, R370). -/
structure CmtGroup where
  state : CmtState := .idle
  queue : Nat := 0                     -- local queue that opened it
  staged : List Action := []
  recorded : List Action := []
  held : Nat := 0
  cause : BitVec 4 := 0
  late : Bool := false                 -- closed after the coming boundary's decision point (R364)
  closeSeq : Nat := 0                  -- its place in the close order (R365)
  closeHdr : CmdHdr := {}
deriving DecidableEq, Repr

/-- A held write whose line writes are not yet complete (R367). -/
structure HeldLine where
  hall : Nat
  seg : Nat
  line : Nat                           -- line index within the segment
  data : List Byte
  arrival : Nat := 0                   -- segment requests that reached the unit before it (R244)
deriving DecidableEq, Repr

/-- The commit unit. -/
structure Commit where
  groups : Tab CmtGroup := []
  applied : Tab Nat := []              -- by hall, modulo 65,536
  aborted : Tab Nat := []
  lines : List HeldLine := []
  actionsApplied : Nat := 0
deriving DecidableEq, Repr

/-! ### Faults (R371 to R389) -/

/-- An event record (R373). -/
structure Event where
  seq : BitVec 32
  cls : FClass
  code : Byte
  unit : BitVec 16
  hall : Byte
  hallGen : Gen
  status : Byte
  cause : Byte
  object : BitVec 16
  stride : Word
  offset : BitVec 32
  repeats : BitVec 32
deriving DecidableEq, Repr

/-- Unit states (R389). -/
inductive UnitState where
  | inService | fencing | fenced | permanent | enablePending
deriving DecidableEq, Repr

/-- A fenceable unit (R377, R381, R382). -/
structure FUnit where
  state : UnitState := .inService
  gen : Gen := 0
  cause : BitVec 4 := 0
  quietLeft : BitVec 16 := 0
  triggered : Bool := false            -- not quiet in this stride
  returns : List Nat := []             -- ages in strides of its returns within 4,096
  started : Bool := false              -- a boundary has passed since it reached FENCED
deriving DecidableEq, Repr

/-- The fault unit. -/
structure Faults where
  nextSeq : BitVec 32 := 1
  pinned : Option Event := none
  ring : List Event := []              -- newest first, at most 63
  fatal : Bool := false
  cmdResult : BitVec 2 := 0
  units : Tab FUnit := []              -- by 4096 × type + index, the unit identifier
  changes : List (Nat × Nat) := []     -- units that left or took up service in this stride, and the FCLK of it, oldest first (R146)
  unitCmd : BitVec 16 := 0
  recoveries : Word := 0
  driveLow : Bool := false
  pulse : Bool := false
deriving DecidableEq, Repr

/-! ### Life cycle, mailboxes, Gallery (R390 to R420) -/

/-- Life-cycle states (R398). -/
inductive LcState where
  | blank | test | provisioned | fielded | returned | scrap
deriving DecidableEq, Repr

/-- Where the management processor stands. -/
inductive MpState where
  | reset                              -- MGMT_RST_N is low
  | rom                                -- boot ROM, header read; image not yet verified, or held in ROM
  | firmware
deriving DecidableEq, Repr

/-- A life-cycle transition or OTP command being programmed: the bits still to program, as (word, bit). -/
structure OtpJob where
  bits : List (Nat × Nat)
  target : Option LcState              -- none for LC_OTP_CMD
deriving DecidableEq, Repr

/-- The life-cycle block (R395 to R402, R418). -/
structure LifeCycle where
  otp : Tab (BitVec 32) := []
  mp : MpState := .reset
  state : LcState := .blank
  torn : Bool := false
  tornTarget : BitVec 3 := 0
  epoch : Bool := false
  certsOk : Bool := false
  bootError : BitVec 4 := 0
  result : BitVec 4 := 0
  pending : Bool := false
  job : Option OtpJob := none
  nonce : List Word := [0, 0, 0, 0]
  serial : Word := 0
  rights : BitVec 4 := 0
  limitLeft : BitVec 32 := 0
  contentAsked : Word := 0             -- content_halls of the certificate in force
  contentActive : Word := 0            -- LC_DEBUG_HALLS
  certDigest : List Byte := []
  otpClosed : Bool := false            -- TEST_SCAN closed the OTP read path (R412)
  scanOpen : Bool := false
  linkChain : List Byte := []          -- certificate slot 1 of the boot flash: the link identity chain (R393)
  planOffset : Word := 0               -- plan that the image header names (R394)
  planLength : Word := 0
  image : List Byte := []              -- code_digest, image major and minor of the running image (R408)
  noKeys : Bool := false               -- RETURNED completed: no key installation until MGMT_RST_N (R402)
deriving DecidableEq, Repr

/-- Progress of an SPDM connection on a mailbox (R404). -/
inductive SpdmState where
  | idle | versioned | capable | negotiated
deriving DecidableEq, Repr

/-- An SPDM session. -/
structure Session where
  sid : Nat
  established : Bool                   -- FINISH verified
  dritha : Bool := false               -- it has sent a Dritha request (R406)
deriving DecidableEq, Repr

/-- A mailbox page (R403, R420). -/
structure Mailbox where
  done : Bool := false
  busy : Bool := false
  go : Bool := false
  rspLen : BitVec 12 := 0
  kind : BitVec 2 := 0
  reqLen : BitVec 11 := 0
  req : Tab Byte := []                 -- request buffer bytes
  rsp : List Byte := []                -- response buffer bytes, from its first on; zero beyond the list
  spdm : SpdmState := .idle
  sessions : List Session := []
  bound : Option Nat := none
  gather : List Byte := []             -- payload fragments of a request with `more` set (R405)
  gatherOf : Nat × Nat := (0, 0)       -- their session and request code
  large : Nat := 0                     -- bytes of a large SPDM message received by CHUNK_SEND
deriving DecidableEq, Repr

/-- A trace packet in the buffer (R414). -/
structure Packet where
  type : Byte
  hall : Byte
  hallGen : Gen
  seq : BitVec 32
  stride : Word
  offset : BitVec 32
  body : List Byte
deriving DecidableEq, Repr

/-- The Gallery (R413 to R419). -/
structure Gallery where
  types : BitVec 10 := 0
  linkPort : BitVec 5 := 0
  route : Bool := false
  drops : BitVec 32 := 0
  dropsPending : BitVec 32 := 0        -- since the last DROP packet
  nextSeq : BitVec 32 := 0
  buffer : List Packet := []
  foreign : List (List Byte) := []     -- packets received in OBSERVE frames, ahead of its own
  watts : BitVec 16 := 0
  slotSixteenths : BitVec 16 := 0
  depth : BitVec 16 := 0
  unitOffset : BitVec 32 := 0
  enable : Bool := false
  segment : BitVec 3 := 0
  context : BitVec 4 := 0
  telemDropped : BitVec 32 := 0
  telemWritten : BitVec 32 := 0
  telemStride : Word := 0              -- stride that the records to be written report (R417)
  telemRecords : List (Nat × List Byte) := []   -- hall and record, as the stride left them
deriving DecidableEq, Repr

/-- A fragment of a message between management processors (R409). -/
structure MgmtMsg where
  port : Nat
  id : BitVec 32
  total : Nat
  bytes : List Byte                    -- those of its first fragments
  age : Nat := 0
deriving DecidableEq, Repr

/-! ### Resets, pins and identification (R421 to R444) -/

/-- Pins, resets and the rest of the CORE block. -/
structure CoreBlk where
  pwrGood : Bool := false
  coreRstLow : Bool := true
  mgmtRstLow : Bool := true
  released : Bool := false             -- the fabric is out of reset
  fwRelease : Bool := false            -- the firmware has released the fabric (R423)
  coreResets : BitVec 16 := 0
  engPresent : BitVec 256 := 0
  fclkCount : BitVec 16 := 0
  hclkRun : List Bool := []            -- last four windows, newest first
  lclkRun : List (BitVec 20) := []
  fclkInRange : Bool := false
  deniedCount : BitVec 16 := 0
  deniedReq : BitVec 2 := 0
  deniedWrite : Bool := false
  deniedOffset : BitVec 21 := 0        -- address bits [23:3]
deriving DecidableEq, Repr

/-! ### Outputs at the core's edge (R2, R28) -/

/-- What the core presents at a port. -/
inductive Out where
  | fetchRsp (p : Nat) (data : BitVec 512)   -- ENG_FETCH_RSP_DATA, byte 0 in bits [7:0] (R35)
  | beginReady (p : Nat) (tile : Nat)
  | endReady (p : Nat)
  | preempt (p : Nat) (level : Bool)
  | dmaRead (p tag : Nat) (status : Status) (data : List Line)
  | dmaWrite (p tag : Nat) (status : Status)
  | fenceRefused (p : Nat)
  | memRead (m tag block : Nat) (mask : BitVec 4)
  | memWrite (m block : Nat) (lane : Nat) (data : Line) (sb : BitVec 64) (poison : Bool)
  | memScrub (m : Nat) (line count : Nat)    -- scrub lines (R135): zero data and side-band
  | wmRead (block owner : Nat) (gen : Gen)
  | wmWrite (block owner : Nat) (gen : Gen) (data : BitVec 2048) (strb : BitVec 256)
  | hostRead (f tag addr length : Nat) (relaxed : Bool)    -- translated (R53)
  | hostWrite (f addr : Nat) (bytes : List Byte) (relaxed : Bool)
  | ats (f pasid page tag : Nat)
  | pri (f pasid page : Nat) (read write : Bool)
  | invalidateDone (f : Nat)
  | ringFetch (h q : Nat) (first last : BitVec 16)
  | kringFetch (f : Nat) (first last : BitVec 16)
  | linkFrame (n vc : Nat) (payload : BitVec 8192) (tag : BitVec 128)   -- sealed (R283)
  | linkCredit (n vc : Nat)
  | retrain (n : Nat) (level : Bool)
  | trace (bytes : List Byte)
  | strideOut (level : Bool)
  | errN (low : Bool)
  | mgmtRsp (r : Requester) (data : Word) (err : BitVec 2)
  | planRead (addr len : Nat)                -- over the physical function, without a PASID (R114)
  | bootSfdp                                 -- Read SFDP, 0x5A (R63)
  | bootRead (addr len : Nat)                -- a read command of R63, as SFDP allows it
  | otpProgram (word bit : Nat)
  | mailbox (m : Nat) (code result reason : Byte) (payload : List Byte)
  | spdm (m : Nat) (code : Byte) (ok : Bool)
  | measurements (m : Nat) (blocks : List (List Byte))
deriving DecidableEq, Repr

/-! ### The whole machine -/

/-- The state of the core. -/
structure State where
  core : CoreBlk := {}
  timer : Timer := {}
  plan : PlanUnit := {}
  halls : Tab Hall := []               -- by hall
  funcs : Tab Func := []               -- by function
  queues : Tab Queue := []             -- by 256 × hall + local queue
  fences : Tab Word := []              -- by 4096 × hall + fence
  contexts : Tab Context := []         -- by 16 × hall + context
  pools : Tab Pool := []
  deadlines : Tab Deadline := []       -- by hall
  engines : Tab Engine := []           -- by engine port
  ports : Tab MemPort := []            -- by memory port
  protect : Protect := {}
  xlat : Xlat := {}
  vault : Vault := {}
  links : Tab Link := []               -- by link port
  groups : Tab Group := []
  reduce : Reduce := {}
  commit : Commit := {}
  faults : Faults := {}
  lc : LifeCycle := {}
  mailboxes : Tab Mailbox := []        -- by mailbox: 0 to 63 halls, 64 the MP block
  mgmtMsgs : List MgmtMsg := []
  gallery : Gallery := {}
  out : List Out := []                 -- what the ports have presented, oldest first
  freeCtr : Nat := 0                   -- the model's own: free values used so far
  pending : List Instr := []           -- commands that wait, first in first out
deriving DecidableEq, Repr

/-- The machine right after reset: every register at the value of R446, no plan, nothing listed in any table, both reset
pins low (R422, R446), the queue of commands empty. -/
def State.reset : State := {}

end Sys2Proof.Machine
end

