-- ==== Sys2Proof/Machine/Flags.lean ====
section
/-! DEFINITION. The codes of the spec's tables: statuses (R11), hall states (R127), classes (R102), events and their
classes (R372), fence causes (R376), unit types (R375), and the register codes of each unit's state. -/

namespace Sys2Proof.Machine

/-- Completion status codes (R11). -/
def Status.code : Status → Byte
  | .ok => 0x00 | .refused => 0x01 | .faultedTile => 0x02 | .guiltyReset => 0x03 | .preempted => 0x04
  | .fallbackUsed => 0x05 | .pausedRestore => 0x06 | .retired => 0x07 | .integrity => 0x08 | .poison => 0x09
  | .timeoutRemote => 0x0A | .abortedCommit => 0x0B | .stalled => 0x0C

/-- The status that a code names; a reserved code is none (R11). -/
def Status.ofCode (c : Byte) : Option Status :=
  [Status.ok, .refused, .faultedTile, .guiltyReset, .preempted, .fallbackUsed, .pausedRestore, .retired, .integrity,
   .poison, .timeoutRemote, .abortedCommit, .stalled].find? (fun s => s.code == c)

/-- Statuses that FW_CNT_FAULTS counts (R144). -/
def Status.countsAsFault : Status → Bool
  | .integrity | .poison | .faultedTile | .preempted | .fallbackUsed => true
  | _ => false

/-- Hall state codes (R127). -/
def HallState.code : HallState → Nat
  | .absent => 0 | .awaitingTenant => 1 | .active => 2 | .paused => 3 | .draining => 4 | .scrubbing => 5 | .tornDown => 6

/-- Live in the sense of The Hall Plan (R127). -/
def HallState.live : HallState → Bool
  | .absent | .tornDown => false
  | _ => true

/-- Class codes (R102). -/
def HallClass.code : HallClass → Nat
  | .isolated => 0 | .shared => 1 | .deadline => 2 | .operator => 3

/-- Segment mode codes (R107). -/
def SegMode.code : SegMode → Nat
  | .sealed => 0 | .veiled => 1 | .wm => 2

/-- Segment state codes (R198). -/
def SegState.code : SegState → Nat
  | .invalid => 0 | .valid => 1 | .withdrawing => 2 | .lost => 3

/-- Window state codes (R209). -/
def WinState.code : WinState → Nat
  | .invalid => 0 | .valid => 1 | .withdrawing => 2

/-- Queue state codes (R157). -/
def QState.code : QState → Nat
  | .absent => 0 | .active => 1 | .waiting => 2 | .guilty => 3 | .destroying => 4

/-- Kernel ring state codes (R149). -/
def KringState.code : KringState → Nat
  | .disabled => 0 | .enabled => 1 | .enablePending => 2 | .disabling => 3

/-- Plan loader state codes (R113). -/
def PlanState.code : PlanState → Nat
  | .idle => 0 | .loading => 1 | .pending => 2 | .applied => 3 | .refused => 4 | .cancelled => 5

/-- Deadline monitor state codes (R194). -/
def DlState.code : DlState → Nat
  | .idle => 0 | .watching => 1 | .fallingBack => 2

/-- Key slot state codes (R263). -/
def SlotState.code : SlotState → Nat
  | .free => 0 | .inUse => 1 | .rekeySource => 2 | .rekeyTarget => 3

/-- Re-key channel state codes (R279). -/
def ChanState.code : ChanState → Nat
  | .free => 0 | .moving => 1 | .switchPending => 2 | .cancelling => 3

/-- Link port state codes (R303). -/
def LinkState.code : LinkState → Nat
  | .unused => 0 | .keying => 1 | .up => 2 | .rotating => 3 | .retraining => 4 | .down => 5 | .fenced => 6

/-- Group state codes (R326). -/
def GroupState.code : GroupState → Nat
  | .idle => 0 | .admitting => 1 | .admitted => 2 | .stalled => 3 | .faulted => 4

/-- Accumulator tile state codes (R356). -/
def AccState.code : AccState → Nat
  | .free => 0 | .filling => 1 | .draining => 2

/-- Commit group state codes (R357). -/
def CmtState.code : CmtState → Nat
  | .idle => 0 | .staging => 1 | .open_ => 2 | .closed => 3

/-- Fault class codes (R371). -/
def FClass.code : FClass → Nat
  | .corrected => 0 | .contained => 1 | .degraded => 2 | .fatal => 3

/-- Unit state codes (R389). -/
def UnitState.code : UnitState → Nat
  | .inService => 0 | .fencing => 1 | .fenced => 2 | .permanent => 3 | .enablePending => 4

/-- Life-cycle state codes (R398). -/
def LcState.code : LcState → Nat
  | .blank => 0 | .test => 1 | .provisioned => 2 | .fielded => 3 | .returned => 4 | .scrap => 5

/-- The life-cycle state of a code; 0b110 and 0b111 are reserved (R398). -/
def LcState.ofCode (c : BitVec 3) : Option LcState :=
  [LcState.blank, .test, .provisioned, .fielded, .returned, .scrap].find? (fun s => s.code == c.toNat)

/-! Event codes (R372). -/
namespace Ev
abbrev mpxCorrected : Byte := 0x01
abbrev mpxDataUe : Byte := 0x02
abbrev mpxMacFail : Byte := 0x03
abbrev mpxPoisoned : Byte := 0x04
abbrev mpxNodeRepair : Byte := 0x05
abbrev mpxSubtreeLost : Byte := 0x06
abbrev mpxRootLost : Byte := 0x07
abbrev mpxCounterLimit : Byte := 0x08
abbrev memPortFence : Byte := 0x09
abbrev lnkTagFail : Byte := 0x10
abbrev lnkDesync : Byte := 0x11
abbrev lnkProtocol : Byte := 0x12
abbrev lnkNarrow : Byte := 0x13
abbrev lnkPortFence : Byte := 0x14
abbrev pipeFence : Byte := 0x18
abbrev redClusterFence : Byte := 0x19
abbrev redUe : Byte := 0x1A
abbrev engOverrun : Byte := 0x20
abbrev engNoAck : Byte := 0x21
abbrev engProtocol : Byte := 0x22
abbrev hallViolation : Byte := 0x28
abbrev contextFault : Byte := 0x29
abbrev windowRefused : Byte := 0x2A
abbrev hostAccess : Byte := 0x2B
abbrev hostTagFail : Byte := 0x2C
abbrev priFailure : Byte := 0x2D
abbrev regDenied : Byte := 0x2E
abbrev guiltyReset : Byte := 0x30
abbrev collStall : Byte := 0x31
abbrev collFault : Byte := 0x32
abbrev unitReturned : Byte := 0x36
abbrev sramCorrected : Byte := 0x37
abbrev syncLost : Byte := 0x38
abbrev bitmapUe : Byte := 0x39
abbrev vaultRederived : Byte := 0x3A
abbrev vaultZeroised : Byte := 0x3B
abbrev sramUeHall : Byte := 0x3C
abbrev sramUeCore : Byte := 0x3D
abbrev otpProgFail : Byte := 0x3E
abbrev unitFenced : Byte := 0x3F
end Ev

/-- The one class of each event source (R12, R372). -/
def eventClass (c : Byte) : FClass :=
  if c ∈ [Ev.mpxCorrected, Ev.mpxNodeRepair, Ev.unitReturned, Ev.sramCorrected, Ev.vaultRederived] then .corrected
  else if c ∈ [Ev.memPortFence, Ev.lnkDesync, Ev.lnkProtocol, Ev.lnkNarrow, Ev.lnkPortFence, Ev.pipeFence,
    Ev.redClusterFence, Ev.engOverrun, Ev.engNoAck, Ev.syncLost, Ev.unitFenced] then .degraded
  else if c ∈ [Ev.sramUeCore, Ev.otpProgFail] then .fatal
  else .contained

/-! Fence causes (R376). -/
namespace Cause
abbrev none : BitVec 4 := 0
abbrev errors : BitVec 4 := 1
abbrev protocol : BitVec 4 := 2
abbrev timeout : BitVec 4 := 3
abbrev overrun : BitVec 4 := 4
abbrev noAck : BitVec 4 := 5
abbrev lanePipes : BitVec 4 := 6
abbrev operator : BitVec 4 := 7
abbrev narrow : BitVec 4 := 8
end Cause

/-- How many units of each type stand in the unit table (R375). -/
def unitCount : Nat → Nat
  | 1 => 768 | 2 => 48 | 3 => 256 | 4 => 20 | 5 => 20 | 6 => 256 | 7 => 256 | 8 => 16 | 9 => 256 | 10 => 256
  | _ => 0

/-- A unit identifier of the unit table: type in [15:12], index in [11:0] (R375). -/
def unitId (type index : Nat) : BitVec 16 := BitVec.ofNat 16 (4096 * type + index)

/-- The type of a unit identifier. -/
def unitType (u : BitVec 16) : Nat := bits u 15 12

/-- The index of a unit identifier. -/
def unitIndex (u : BitVec 16) : Nat := bits u 11 0

/-- The identifier names a unit of the table (R375, R380). -/
def unitExists (u : BitVec 16) : Bool := unitIndex u < unitCount (unitType u)

/-- The event that the fence of a unit of a type records (R372); link ports differ by cause. -/
def fenceEvent (type : Nat) (cause : BitVec 4) : Byte :=
  if cause = Cause.operator then Ev.unitFenced
  else match type with
    | 2 => Ev.memPortFence
    | 3 => if cause = Cause.overrun then Ev.engOverrun else Ev.engNoAck
    | 4 => if cause = Cause.protocol then Ev.lnkProtocol else Ev.lnkPortFence
    | 5 => Ev.lnkNarrow
    | 8 => Ev.redClusterFence
    | _ => Ev.pipeFence

end Sys2Proof.Machine
end

