-- ==== Sys2Proof/Machine/Ops.lean ====
section
/-! DEFINITION. The named operations over the state: access to each table by the spec's register index, the ports'
outputs, free values, event records (R372 to R374, R388), pause causes (R384), fences (R163) and the completion of a
command (R174, R175). -/

namespace Sys2Proof.Machine

/-! ### Tables -/

def State.hall (s : State) (h : Nat) : Hall := Tab.get {} s.halls h
def State.modHall (s : State) (h : Nat) (f : Hall → Hall) : State := { s with halls := s.halls.mod {} h f }
def State.func (s : State) (f : Nat) : Func := Tab.get {} s.funcs f
def State.modFunc (s : State) (f : Nat) (g : Func → Func) : State := { s with funcs := s.funcs.mod {} f g }
def State.queue (s : State) (h q : Nat) : Queue := Tab.get {} s.queues (256 * h + q)
def State.modQueue (s : State) (h q : Nat) (f : Queue → Queue) : State :=
  { s with queues := s.queues.mod {} (256 * h + q) f }
def State.fence (s : State) (h n : Nat) : Word := Tab.get 0 s.fences (4096 * h + n)
def State.ctx (s : State) (h c : Nat) : Context := Tab.get {} s.contexts (16 * h + c)
def State.modCtx (s : State) (h c : Nat) (f : Context → Context) : State :=
  { s with contexts := s.contexts.mod {} (16 * h + c) f }
def State.pool (s : State) (p : Nat) : Pool := Tab.get {} s.pools p
def State.deadline (s : State) (h : Nat) : Deadline := Tab.get {} s.deadlines h
def State.modDeadline (s : State) (h : Nat) (f : Deadline → Deadline) : State :=
  { s with deadlines := s.deadlines.mod {} h f }
def State.engine (s : State) (p : Nat) : Engine := Tab.get {} s.engines p
def State.modEngine (s : State) (p : Nat) (f : Engine → Engine) : State := { s with engines := s.engines.mod {} p f }
def State.memPort (s : State) (m : Nat) : MemPort := Tab.get {} s.ports m
def State.modMemPort (s : State) (m : Nat) (f : MemPort → MemPort) : State := { s with ports := s.ports.mod {} m f }
def State.seg (s : State) (k : Nat) : Segment := Tab.get {} s.xlat.segs k
def State.modSeg (s : State) (k : Nat) (f : Segment → Segment) : State :=
  { s with xlat := { s.xlat with segs := s.xlat.segs.mod {} k f } }
def State.win (s : State) (n : Nat) : Window := Tab.get {} s.xlat.windows n
def State.modWin (s : State) (n : Nat) (f : Window → Window) : State :=
  { s with xlat := { s.xlat with windows := s.xlat.windows.mod {} n f } }
def State.slot (s : State) (k : Nat) : Slot := Tab.get {} s.vault.slots k
def State.modSlot (s : State) (k : Nat) (f : Slot → Slot) : State :=
  { s with vault := { s.vault with slots := s.vault.slots.mod {} k f } }
def State.hallKey (s : State) (h : Nat) : HallKey := Tab.get {} s.vault.halls h
def State.modHallKey (s : State) (h : Nat) (f : HallKey → HallKey) : State :=
  { s with vault := { s.vault with halls := s.vault.halls.mod {} h f } }
def State.channel (s : State) (c : Nat) : Channel := Tab.get {} s.vault.channels c
def State.modChannel (s : State) (c : Nat) (f : Channel → Channel) : State :=
  { s with vault := { s.vault with channels := s.vault.channels.mod {} c f } }
def State.link (s : State) (n : Nat) : Link := Tab.get {} s.links n
def State.modLink (s : State) (n : Nat) (f : Link → Link) : State := { s with links := s.links.mod {} n f }
def Link.chan (l : Link) (vc : Nat) : Chan := Tab.get {} l.chans vc
def State.modChan (s : State) (n vc : Nat) (f : Chan → Chan) : State :=
  s.modLink n fun l => { l with chans := l.chans.mod {} vc f }
def State.group (s : State) (g : Nat) : Group := Tab.get {} s.groups g
def State.modGroup (s : State) (g : Nat) (f : Group → Group) : State := { s with groups := s.groups.mod {} g f }
def State.cmt (s : State) (h g : Nat) : CmtGroup := Tab.get {} s.commit.groups (64 * h + g)
def State.modCmt (s : State) (h g : Nat) (f : CmtGroup → CmtGroup) : State :=
  { s with commit := { s.commit with groups := s.commit.groups.mod {} (64 * h + g) f } }
def State.unit (s : State) (u : BitVec 16) : FUnit := Tab.get {} s.faults.units u.toNat
def State.modUnit (s : State) (u : BitVec 16) (f : FUnit → FUnit) : State :=
  { s with faults := { s.faults with units := s.faults.units.mod {} u.toNat f } }
def State.mailbox (s : State) (m : Nat) : Mailbox := Tab.get {} s.mailboxes m
def State.modMailbox (s : State) (m : Nat) (f : Mailbox → Mailbox) : State :=
  { s with mailboxes := s.mailboxes.mod {} m f }

/-- The unit is IN_SERVICE (R377). -/
def State.inService (s : State) (type index : Nat) : Bool := (s.unit (unitId type index)).state = .inService

/-- A unit leaves service or takes it up: the moment is noted for the stride's degraded_pct (R146). -/
def State.noteChange (s : State) (u : BitVec 16) : State :=
  { s with faults := { s.faults with changes := s.faults.changes ++ [(u.toNat, s.timer.fclk.toNat)] } }

/-- Apply `f` to each number below `n`, in ascending order. -/
def forAll (n : Nat) (f : Nat → State → State) (s : State) : State := (List.range n).foldl (fun t k => f k t) s

/-- Apply `f` to each element of a list, in order. -/
def forEach {α : Type} (l : List α) (f : α → State → State) (s : State) : State := l.foldl (fun t x => f x t) s

/-! ### The active plan -/

/-- The active plan, or an empty one when none is active. -/
def State.act (s : State) : Plan := s.plan.active.getD {}

/-- The HALLS record of a hall in the active plan. -/
def Plan.hallRec (p : Plan) (h : Nat) : Option HallRec := p.halls.find? (fun r => r.hall == h)

/-- The record of a hall, or one of class ISOLATED that grants nothing. -/
def State.rec_ (s : State) (h : Nat) : HallRec := (s.act.hallRec h).getD { hall := h, cls := .isolated }

/-- The owner of an engine port under a plan (R104). -/
def Plan.owner (p : Plan) (n : Nat) : Owner := ((p.engines[n]?).map EngRec.owner).getD .none

/-- The interleave set of a number in a plan (R106). -/
def Plan.setRec (p : Plan) (n : Nat) : Option SetRec := p.sets.find? (fun r => r.set == n)

/-- The stride length of a code in FCLK (R70). -/
def strideFclk (code : BitVec 2) : Nat := 51200 * 2 ^ code.toNat

/-- FCLK of one slot: a sixty-fourth of the stride (R70). -/
def slotFclk (code : BitVec 2) : Nat := strideFclk code / 64

/-- The tile limit of a stride code in FCLK: a slot, at most 1,600 (R70). -/
def tileLimit (code : BitVec 2) : Nat := min (slotFclk code) 1600

/-! ### Ports and free values -/

/-- Present something at a port (R2). -/
def State.emit (s : State) (o : Out) : State := { s with out := s.out ++ [o] }

/-- The next free value (log entry 10). -/
def State.freeValue (s : State) : BitVec 64 := Config.freeValue s.freeCtr

/-- Use up one free value. -/
def State.useFree (s : State) : State := { s with freeCtr := s.freeCtr + 1 }

/-- The management processor's firmware runs (R390, R424). -/
def State.fwRuns (s : State) : Bool := s.lc.mp = .firmware

/-- The management processor may install a new hall, group or host session key (R387, R402). -/
def State.mayInstall (s : State) : Bool := !s.faults.fatal ∧ !s.lc.noKeys

/-! ### Events (R372 to R374, R387, R388) -/

/-- What an event names (R373). -/
structure EvInfo where
  unit : BitVec 16 := 0xFFFF
  hall : Option Nat := none
  status : Byte := 0
  cause : BitVec 4 := 0
  object : BitVec 16 := 0xFFFF
deriving DecidableEq, Repr

/-- The record of an event that arises now. -/
def State.eventOf (s : State) (code : Byte) (i : EvInfo) : Event where
  seq := s.faults.nextSeq
  cls := eventClass code
  code := code
  unit := i.unit
  hall := (i.hall.map (BitVec.ofNat 8)).getD 0xFF
  hallGen := (i.hall.map fun h => (s.hall h).gen).getD 0
  status := i.status
  cause := BitVec.ofNat 8 i.cause.toNat
  object := i.object
  stride := s.timer.strideNum
  offset := s.timer.fclk
  repeats := 0

/-- Two events merge into one record (R374). -/
def Event.same (a b : Event) : Bool :=
  a.stride = b.stride ∧ a.code = b.code ∧ a.cls = b.cls ∧ a.unit = b.unit ∧ a.hall = b.hall ∧ a.object = b.object

/-- The pinned entry after an event: the first that is not CORRECTED (R374). -/
def Faults.pin (f : Faults) (e : Event) : Option Event :=
  match f.pinned with
  | some p => some p
  | none => if e.cls = .corrected then none else some e

/-- Enter an event into the history: merged into the newest ring record, or as a new record (R374). -/
def Faults.enter (f : Faults) (e : Event) : Faults :=
  match f.ring with
  | [] => { f with ring := [e], nextSeq := f.nextSeq + 1, pinned := f.pin e }
  | n :: rest =>
    if n.same e then
      { f with ring := { n with repeats := satAdd n.repeats 1 } :: rest, pinned := f.pin { e with seq := n.seq } }
    else { f with ring := (e :: n :: rest).take 63, nextSeq := f.nextSeq + 1, pinned := f.pin e }

/-- Latch FLT_STATUS.fatal for a FATAL event (R387). -/
def Faults.latch (f : Faults) (c : FClass) : Faults := if c = .fatal then { f with fatal := true } else f

/-- ERR_N is pulled low by the pulse timer or by drive_low (R388). -/
def Faults.errLow (f : Faults) : Bool := f.pulse || f.driveLow

/-- Raise an event: latch FATAL, record it and start the ERR_N pulse; while MGMT_RST_N is low only the latch (R388). -/
def State.raise (s : State) (code : Byte) (i : EvInfo) : State :=
  let c := eventClass code
  if s.core.mgmtRstLow then { s with faults := s.faults.latch c }
  else
    let f := (s.faults.latch c).enter (s.eventOf code i)
    if c = .degraded ∨ c = .fatal then ({ s with faults := { f with pulse := true } }).emit (.errN true)
    else { s with faults := f }

/-- A HALL_VIOLATION against a hall (R25, R372). -/
def State.violation (s : State) (h : Nat) (object : BitVec 16 := 0xFFFF) : State :=
  s.raise Ev.hallViolation { hall := some h, status := Status.refused.code, object := object }

/-! ### Pause causes (R132, R136, R384) -/

/-- Add an object to restore once. -/
def addRestore (o : Option RestoreObj) (l : List RestoreObj) : List RestoreObj :=
  match o with
  | none => l
  | some x => if x ∈ l then l else l ++ [x]

/-- A pause cause against a hall: it takes effect at the next boundary, unless the hall is being torn down (R136). -/
def State.pauseCause (s : State) (h : Nat) (o : Option RestoreObj) : State :=
  match (s.hall h).state with
  | .awaitingTenant | .active | .paused =>
    s.modHall h fun x => { x with pauseCause := true, restore := addRestore o x.restore }
  | _ => s

/-- An uncorrectable word of a structure of one hall: SRAM_UE_HALL, and the hall is paused with the object to restore
(R372, R384). -/
def State.sramUeHall (s : State) (h : Nat) (object : BitVec 16) (o : Option RestoreObj) : State :=
  (s.raise Ev.sramUeHall { hall := some h, object := object }).pauseCause h o

/-- An object has been restored (R384). -/
def State.restored (s : State) (h : Nat) (o : RestoreObj) : State :=
  s.modHall h fun x => { x with restore := x.restore.filter (· ≠ o) }

/-! ### Counters (R143, R144) -/

/-- Count events of a live hall. -/
def State.countHall (s : State) (h : Nat) (f : Counters → Counters) : State :=
  if (s.hall h).state.live then s.modHall h fun x => { x with live := f x.live } else s

/-! ### Fences (R163) -/

/-- Write a fence of a hall; queues that wait on it see whether the value changed (R176). -/
def State.setFence (s : State) (h n : Nat) (v : Word) : State :=
  let changed := s.fence h n != v
  let t := { s with fences := s.fences.set 0 (4096 * h + n) v }
  if changed then
    { t with queues := t.queues.mapAll {} fun k x =>
        match x.wait with
        | .fence m _ _ => if k / 256 = h ∧ m = n then { x with fenceChanged := true } else x
        | _ => x }
  else t

/-! ### Context addresses of the core's own accesses (R196) -/

/-- The segment entry whose range holds a context virtual address (R196); INVALID entries have no range. -/
def State.segAt (s : State) (h c va : Nat) : Option Nat :=
  ((List.range 8).map (fun i => 128 * h + 8 * c + i)).find? fun k =>
    (s.seg k).state ≠ .invalid ∧ (s.seg k).va ≤ va ∧ va < (s.seg k).va + (s.seg k).size * 2 ^ 21

/-- HOST_TAG_FAIL against a hall (R274). -/
def State.hostTagFail (s : State) (h : Nat) : State :=
  s.raise Ev.hostTagFail { hall := some h, status := Status.integrity.code }

/-- The hall holds what a host-page access of a context needs: an htc_quota (R200), a host session key and a tag table
base (R272, R276). -/
def State.hostReach (s : State) (h c : Nat) : Bool :=
  0 < (s.rec_ h).htcQuota ∧ ((s.hallKey h).hostKey).isSome ∧ Tab.get 0 (s.hallKey h).bases c ≠ 0

/-! ### The core's own writes (R175, R196) -/

/-- The pseudo port on which a queue's completion records are written, and that of a hall's collective results. -/
def recordPort (h q : Nat) : Nat := 32768 + 256 * h + q
def resultPort (h : Nat) : Nat := 65536 + h

/-- A write of the core joins those still to be made. -/
def State.addWrite (s : State) (w : CoreWrite) : State :=
  { s with xlat := { s.xlat with nextWrite := s.xlat.nextWrite + 1,
                                 writes := s.xlat.writes ++ [{ w with id := s.xlat.nextWrite }] } }

/-- The core writes bytes at a context address, page by page. -/
def State.coreWrite (s : State) (p h c va : Nat) (bytes : List Byte) : State :=
  let first := va / 4096
  forEach (List.range ((va % 4096 + bytes.length + 4095) / 4096)) (fun i t =>
    let a := max va (4096 * (first + i))
    let b := min (va + bytes.length) (4096 * (first + i + 1))
    t.addWrite { port := p, hall := h, context := c, va := a, bytes := slice bytes (a - va) (b - a) }) s

/-! ### Completion of a command (R174, R175) -/

/-- What a completion record says beside the header's tag (R175). -/
structure Completion where
  status : Byte
  reason : Byte := 0
  invocation : BitVec 32 := 0
  tile : Nat := 0
  offset : BitVec 32 := 0
deriving DecidableEq, Repr

/-- The 32 bytes of a completion record (R175). -/
def recordBytes (c : Completion) (tag : BitVec 32) (stride : Word) : List Byte :=
  [c.status, c.reason, 0, 0] ++ leBytes 4 tag.toNat ++ leBytes 4 c.invocation.toNat ++ leBytes 4 c.tile ++
    leBytes 4 c.offset.toNat ++ [0, 0, 0, 0] ++ leBytes 8 stride.toNat

/-- A record is still to be written for a queue, so what it counts comes first. -/
def State.recordsDue (s : State) (h q : Nat) : Bool := s.xlat.writes.any fun w => w.port == recordPort h q

/-- The record and the count of a completed command: where the header names a record, the record is written, and the count
steps once it has been (R159, R175). -/
def State.writeRecord (s : State) (h q : Nat) (hdr : CmdHdr) (x : Completion) : State :=
  let va := hdr.record.toNat
  let y := s.queue h q
  let due : Bool := va ≠ 0 ∧ va % 32 = 0
  if due ∨ (hdr.count ∧ s.recordsDue h q) then
    s.addWrite { port := recordPort h q, hall := h, context := y.context, va := va,
                 bytes := if due then recordBytes x hdr.tag s.timer.strideNum else [],
                 counts := if hdr.count then some q else none }
  else if hdr.count then s.modQueue h q fun x => { x with completion := x.completion + 1 }
  else s

/-- A queue's first status and its hall's fault counter after a completion (R144, R157, R174). -/
def State.noteStatus (s : State) (h q : Nat) (st : Byte) : State :=
  let t := s.modQueue h q fun x => { x with firstStatus := if x.firstStatus = 0 then st else x.firstStatus }
  if ((Status.ofCode st).map Status.countsAsFault).getD false then
    t.countHall h fun c => { c with faults := c.faults + 1 }
  else t

/-- FW_CNT_INVOCATIONS counts the completed INVOKEs, with any status (R144). -/
def State.countInvocation (s : State) (h : Nat) (hdr : CmdHdr) : State :=
  if hdr.opcode = 1 then s.countHall h fun c => { c with invocations := c.invocations + 1 } else s

/-- Complete a command of a queue: the record, then the counter (R175). -/
def State.complete (s : State) (h q : Nat) (hdr : CmdHdr) (x : Completion) : State :=
  ((s.writeRecord h q hdr x).noteStatus h q x.status).countInvocation h hdr

/-- Complete a command with a status and nothing else to report. -/
def State.completeWith (s : State) (h q : Nat) (hdr : CmdHdr) (st : Status) : State :=
  s.complete h q hdr { status := st.code }

/-- A queue's first status without a command to carry it (R153, R164). -/
def State.noteFirst (s : State) (h q : Nat) (st : Status) : State :=
  s.modQueue h q fun x => { x with firstStatus := if x.firstStatus = 0 then st.code else x.firstStatus }

/-- REFUSED as a queue's first status, without a command to carry it. -/
def State.noteRefused (s : State) (h q : Nat) : State := s.noteFirst h q .refused

end Sys2Proof.Machine
end

