-- ==== Sys2Proof/Machine/Operands.lean ====
section
/-! DEFINITION. The operand forms: command headers and loop levels (R159, R164), invocation descriptors (R168), engine
requests (R39, R44, R45), kernel-ring and queue-ring entries (R151, R153), with the reserved-field checks of each. -/

namespace Sys2Proof.Machine

/-- Bytes `hi` down to `lo` are all zero. -/
def zeroBytes {w : Nat} (x : BitVec w) (hi lo : Nat) : Bool := byteField x hi lo == 0

/-! ### Command headers (R159) -/

/-- The header of a 64-byte command, its record address as written. -/
def cmdHdr (raw : BitVec 512) : CmdHdr where
  opcode := BitVec.ofNat 8 (byteField raw 0 0)
  count := bit raw 8
  tag := BitVec.ofNat 32 (byteField raw 7 4)
  record := BitVec.ofNat 48 (bits raw 111 64)

/-- The reserved bits of the header are zero (R159). -/
def hdrReservedOk (raw : BitVec 512) : Bool := bits raw 15 9 == 0 ∧ zeroBytes raw 3 2 ∧ bits raw 127 112 == 0

/-- The record address of a header is 0 or 32-byte aligned (R159). -/
def CmdHdr.recordOk (h : CmdHdr) : Bool := h.record.toNat % 32 == 0

/-- A header that keeps R159. -/
def hdrOk (raw : BitVec 512) : Bool := hdrReservedOk raw ∧ (cmdHdr raw).recordOk

/-! ### Loop levels (R164) -/

/-- The iteration index at a nesting level, level 1 the outermost (R164); level 0 is no level. -/
def Buffer.iterAt (b : Buffer) (lvl : Nat) : Option Nat :=
  if lvl = 0 then some 0
  else if lvl ≤ b.loops.length then (b.loops[b.loops.length - lvl]?).map Loop.iter else none

/-- The iteration index that an iter_level names, or none where the level is 9 or more or names no open loop. -/
def levelIter (b : Buffer) (lvl : Nat) : Option Nat := if lvl ≤ 8 then b.iterAt lvl else none

/-! ### Invocation descriptors (R168) -/

/-- The fields of an invocation descriptor. -/
def parseDesc (d : BitVec 2048) : Desc where
  remote := bit d 8
  reduce := bit d 9
  deadline := bit d 10
  retries := bits d 18 16
  enginesMin := byteField d 5 4
  clusterSlots := byteField d 7 6
  tileCount := byteField d 11 8
  tileBudget := byteField d 15 12
  segments := BitVec.ofNat 8 (byteField d 16 16)
  affinity := if bit d 143 then some (bits d 138 136) else none
  windows := byteField d 19 18
  waveCount := byteField d 21 20
  waveTable := byteField d 29 24
  args := byteField d 37 32
  argsStride := byteField d 43 40
  params := BitVec.ofNat 288 (byteField d 83 48)

/-- DESC_FIELD: reserved fields are zero, fields in range, addresses aligned (R168, R169). The upper bound of
tile_budget is the check TILE_BUDGET. -/
def descFieldsOk (d : BitVec 2048) : Bool :=
  let x := parseDesc d
  byteField d 0 0 == 1 ∧ bits d 15 11 == 0 ∧ bits d 23 19 == 0 ∧ zeroBytes d 3 3 ∧
  1 ≤ x.enginesMin ∧ x.enginesMin ≤ 256 ∧ x.clusterSlots ≤ 1024 ∧
  1 ≤ x.tileCount ∧ x.tileCount ≤ 16777216 ∧ 1 ≤ x.tileBudget ∧
  bits d 142 139 == 0 ∧ x.windows ≤ 4096 ∧ 1 ≤ x.waveCount ∧ x.waveCount ≤ 4096 ∧ zeroBytes d 23 22 ∧
  x.waveTable % 4 == 0 ∧ zeroBytes d 31 30 ∧ (x.waveTable ≠ 0 ∨ x.waveCount = 1) ∧
  x.args % 64 == 0 ∧ zeroBytes d 39 38 ∧ x.argsStride % 64 == 0 ∧ x.argsStride ≤ 1048576 ∧
  zeroBytes d 47 44 ∧ zeroBytes d 255 84

/-! ### Engine transfers -/

/-- The fields of ENG_DMA_REQ_DATA (R39). -/
structure DmaReq where
  hallGen : Gen
  tag : Nat
  kind : Nat
  op : Nat
  context : Nat
  index : Nat
  length : Nat
  reserved : Nat
  address : Nat
deriving DecidableEq, Repr

/-- Read ENG_DMA_REQ_DATA. -/
def parseDma (r : BitVec 128) : DmaReq where
  hallGen := BitVec.ofNat 16 (bits r 127 112)
  tag := bits r 111 102
  kind := bits r 101 100
  op := bits r 99 98
  context := bits r 97 94
  index := bits r 93 82
  length := bits r 81 70 + 1
  reserved := bits r 69 57
  address := bits r 56 0

/-- The request crosses no 4 KiB boundary and carries no reserved encoding or bit (R39). -/
def DmaReq.formOk (d : DmaReq) : Bool :=
  d.address % 4096 + d.length ≤ 4096 ∧ d.kind ≤ 2 ∧ d.op ≤ 1 ∧ d.reserved == 0 ∧
  (d.kind ≠ 0 ∨ d.index < 8) ∧ (d.kind ≠ 1 ∨ d.index = 0)

/-- The fields of ENG_FENCE_DATA (R44). -/
structure FenceXfer where
  hallGen : Gen
  kind : Nat
  fence : Nat
  reserved : Nat
  value : Word
deriving DecidableEq, Repr

/-- Read ENG_FENCE_DATA. -/
def parseFence (r : BitVec 96) : FenceXfer where
  hallGen := BitVec.ofNat 16 (bits r 95 80)
  kind := bits r 79 77
  fence := bits r 75 64
  reserved := bits r 76 76
  value := BitVec.ofNat 64 (bits r 63 0)

/-- The fields of ENG_RED_HDR (R45). -/
structure RedXfer where
  handle : Nat
  hallGen : Gen
  format : Nat
  element : Nat
deriving DecidableEq, Repr

/-- Read ENG_RED_HDR. -/
def parseRed (r : BitVec 64) : RedXfer where
  handle := bits r 63 48
  hallGen := BitVec.ofNat 16 (bits r 47 32)
  format := bits r 31 28
  element := 16 * bits r 27 0

/-! ### Kernel-ring and queue-ring entries (R151, R153) -/

/-- The fields of a kernel-ring entry. -/
structure KEntry where
  op : Nat
  queue : Nat
  context : Nat
  ringLog2 : Nat
  fence : Nat
  address : Nat
deriving DecidableEq, Repr

/-- Read a kernel-ring entry. -/
def parseKEntry (r : BitVec 512) : KEntry where
  op := byteField r 0 0
  queue := byteField r 8 8
  context := bits r 75 72
  ringLog2 := byteField r 10 10
  fence := bits r 107 96
  address := byteField r 23 16

/-- The reserved bytes of a kernel-ring entry are zero, for a NOP: every byte but op and tag (R151, R152). DESIGN CHOICE (log
entry 93), here and in the three that follow: R151 gives a field that it marks for one op (queue, context, ring_log2, fence,
address) no meaning for another op, and the model holds it reserved-zero there. -/
def kNopOk (r : BitVec 512) : Bool := zeroBytes r 3 1 ∧ zeroBytes r 63 8

/-- The reserved fields of a QUEUE_CREATE entry are zero, bits of fence with them (log entry 93). -/
def kCreateOk (r : BitVec 512) : Bool :=
  zeroBytes r 3 1 ∧ bits r 79 76 == 0 ∧ zeroBytes r 15 11 ∧ zeroBytes r 23 22 ∧ zeroBytes r 63 24

/-- The reserved fields of a QUEUE_DESTROY or QUEUE_RESET entry are zero: every byte but op, tag and queue (log entry 93). -/
def kQueueOk (r : BitVec 512) : Bool := zeroBytes r 3 1 ∧ zeroBytes r 63 9

/-- The reserved fields of a FENCE_SET entry are zero, queue, context and ring_log2 with them (log entry 93). -/
def kFenceOk (r : BitVec 512) : Bool :=
  zeroBytes r 3 1 ∧ zeroBytes r 11 8 ∧ bits r 111 108 == 0 ∧ zeroBytes r 15 14 ∧ zeroBytes r 63 24

/-- The command buffer that a queue-ring entry names, or none where the entry breaks R153. -/
def parseRingEntry (e : BitVec 128) : Option Buffer :=
  let base := bits e 47 0
  let count := byteField e 11 8
  if base % 64 = 0 ∧ bits e 63 48 = 0 ∧ 1 ≤ count ∧ count ≤ 1048576 ∧ byteField e 15 12 = 0 then
    some { base := base, count := count, pos := 0, loops := [] }
  else none

end Sys2Proof.Machine
end

