-- ==== Sys2Proof/Machine/CoreRead.lean ====
section
/-! DEFINITION. The core's own reads at context addresses: ring entries, command buffers, descriptors, wave tables and words
(R153, R165, R169). The bytes of a read, and what the memory or the host answered, arrive with the command that uses them;
here stands what the core makes of them: where the address resolves (R196), what it is refused with (R197, R199, R200,
R272), and what the read counts (R144, R200, log entry 79). -/

namespace Sys2Proof.Machine

/-! ### What an access meets -/

/-- What R197 makes of a request of kind segment. -/
inductive SegCheck where
  | pass | poison | refuse
deriving DecidableEq, Repr

/-- Bounds and access bits of a segment request (R197, R199). -/
def Segment.check (g : Segment) (address length : Nat) (write : Bool) : SegCheck :=
  if g.state ≠ .valid ∧ g.state ≠ .lost then .refuse
  else if g.size * 2 ^ 21 < address + length then .refuse
  else if (if write then !g.wr else !g.rd) then .refuse
  else if g.state = .lost then .poison
  else .pass

/-- The 4 KiB page of an address. -/
def pageOf (va : Nat) : Nat := va / 4096 * 4096

/-- The 4 KiB pieces of a range of addresses: the start and length of each. -/
def pagesOf (va len : Nat) : List (Nat × Nat) :=
  (List.range (ceilDiv (va % 4096 + len) 4096)).map fun i =>
    let a := max va (pageOf va + 4096 * i)
    (a, min (va + len) (pageOf va + 4096 * (i + 1)) - a)

/-- The entry translates an address of a function and PASID, under the function's generation. -/
def Htc.holds (e : Htc) (f pasid va : Nat) (gen : Gen) : Bool :=
  e.func = f ∧ e.pasid = pasid ∧ e.page ≤ va ∧ va < e.page + 2 ^ e.sizeLog2 ∧ e.funcGen = gen

/-- An entry that is hit becomes the hall's most recently used. -/
def State.touchHtc (s : State) (e : Htc) : State :=
  { s with xlat := { s.xlat with htc := e :: s.xlat.htc.filter (· ≠ e) } }

/-! ### The status of a read -/

/-- The status of a read that memory or the host has answered: a read ends with no other (R42, R169). -/
def Status.ofRead (c : Byte) : Status :=
  match Status.ofCode c with
  | some .ok => .ok
  | some .retired => .retired
  | some .integrity => .integrity
  | some .poison => .poison
  | _ => .refused

/-- What a read of a context within one page ends with before memory or the host is asked: REFUSED or POISON at a segment
that R197 or R199 bars, REFUSED at a host page that the hall cannot reach (R196, R200, R272). -/
def State.barred (s : State) (h c va : Nat) : Option Status :=
  match s.segAt h c va with
  | some k =>
    match (s.seg k).check (va - (s.seg k).va) 1 false with
    | .pass => none
    | .poison => some .poison
    | .refuse => some .refused
  | none => if s.hostReach h c then none else some .refused

/-- What bars a read of a range, at its first page that is barred. -/
def State.bars (s : State) (h c va len : Nat) : Option Status := (pagesOf va len).findSome? fun x => s.barred h c x.1

/-- The status of a read of a range that was answered with a code. -/
def State.readStatus (s : State) (h c va len : Nat) (answer : Byte) : Status :=
  (s.bars h c va len).getD (Status.ofRead answer)

/-! ### What a read leaves behind -/

/-- A read of the core within one page: lines of a sealed or veiled segment count as read for the hall (R144); a host page goes
through the translation cache (R200). -/
def State.readPage (s : State) (h c va len : Nat) : State :=
  match s.segAt h c va with
  | some k =>
    if (s.seg k).mode = .wm then s
    else s.countHall h fun n => { n with linesRead := n.linesRead + ((va + len - 1) / 64 + 1 - va / 64) }
  | none =>
    match s.xlat.htc.find? fun e => e.holds h c va (s.func h).gen ∧ e.rd with
    | some e => s.touchHtc e
    | none => s.countHall h fun n => { n with htcMisses := n.htcMisses + 1 }

/-- The core has read a range of a context. INTEGRITY outside the segments is a sector that did not open: HOST_TAG_FAIL
(R274). -/
def State.noteRead (s : State) (h c va len : Nat) (answer : Byte) : State :=
  if (s.bars h c va len).isSome then s
  else
    let t := forEach (pagesOf va len) (fun x u => u.readPage h c x.1 x.2) s
    if Status.ofRead answer = .integrity ∧ s.segAt h c va = none then t.hostTagFail h else t

/-! ### The kernel ring's reads -/

/-- The number under which a function's accesses without a PASID stand among its tag table bases (R272). -/
abbrev noPasid : Nat := 16

/-- The status of the read of a kernel-ring entry: REFUSED where the function has no tag table base of its own or the hall no
host session key (R272). -/
def State.kringStatus (s : State) (f : Nat) (answer : Byte) : Status :=
  if ((s.hallKey f).hostKey).isSome ∧ Tab.get 0 (s.hallKey f).bases noPasid ≠ 0 then Status.ofRead answer else .refused

end Sys2Proof.Machine
end

