-- ==== Sys2Proof/Machine/Cmd.lean ====
section
/-! DEFINITION. The command processor's shared operations: the abort of a commit group (R369), the end of a command
buffer (R161, R164), and the run of an invocation: its acceptance, its waves, the end of a tile and its completion
(R169 to R172, R190 to R193). -/

namespace Sys2Proof.Machine

/-! ### Commit group aborts (R369) -/

/-- A recorded command of an aborted group completes ABORTED_COMMIT. -/
def abortAction (h q : Nat) (a : Action) (s : State) : State :=
  match a with
  | .invoke hdr _ _ _ _ seq => s.complete h q hdr { status := Status.abortedCommit.code, invocation := seq }
  | .signal hdr _ _ => s.completeWith h q hdr .abortedCommit
  | _ => s

/-- The action is a PLAN_SWAP. -/
def Action.isSwap : Action → Bool
  | .planSwap _ => true
  | _ => false

/-- The pending plan becomes CANCELLED (R117, R369). -/
def State.cancelPending (s : State) : State :=
  { s with plan := { s.plan with state := .cancelled, pending := none, bound := none, due := false } }

/-- The queue that opened an aborted group: an open one meets the abort at its COMMIT_CLOSE; a closed one completes it
now and abandons its buffer. -/
def State.abortOpener (s : State) (h g : Nat) (c : CmtGroup) : State :=
  match c.state with
  | .open_ =>
    s.modQueue h c.queue fun x =>
      if (x.openGroup.map Prod.fst) = some g then { x with openAborted := true } else x
  | .closed =>
    if (s.queue h c.queue).wait = .close g c.closeHdr then
      (s.completeWith h c.queue c.closeHdr .abortedCommit).modQueue h c.queue fun x =>
        { x with wait := .none, buffer := none }
    else s
  | _ => s

/-- Abort a commit group of a hall with a cause (R369). -/
def State.abortGroup (s : State) (h g : Nat) (cause : BitVec 4) : State :=
  let c := s.cmt h g
  if c.state = .idle then s
  else
    let t := forEach c.recorded (abortAction h c.queue) s
    let t := if c.staged.any Action.isSwap then t.cancelPending else t
    let t := t.modCmt h g fun _ => { cause := cause }
    let t := { t with commit := { t.commit with
      aborted := t.commit.aborted.mod 0 h (fun n => (n + 1) % 65536) } }
    t.abortOpener h g c

/-- The abort causes (R369). -/
abbrev acOpcode : BitVec 4 := 1
abbrev acSpan : BitVec 4 := 2
abbrev acActions : BitVec 4 := 3
abbrev acInvokeCheck : BitVec 4 := 4
abbrev acQueue : BitVec 4 := 5
abbrev acTeardown : BitVec 4 := 6
abbrev acTenant : BitVec 4 := 7
abbrev acSegment : BitVec 4 := 8
abbrev acPlan : BitVec 4 := 9

/-- A queue's open group aborts, and the queue holds none open any more. -/
def State.abortOpen (s : State) (h q : Nat) (cause : BitVec 4) : State :=
  match (s.queue h q).openGroup with
  | none => s
  | some (g, _) =>
    let t := if (s.queue h q).openAborted then s else s.abortGroup h g cause
    t.modQueue h q fun x => { x with openGroup := none, openAborted := false }

/-! ### The command buffer (R153, R161, R164) -/

/-- Leave the buffer: no later command of it is evaluated (R161). A group still open aborts with SPAN (R167). -/
def State.leaveBuffer (s : State) (h q : Nat) : State :=
  (s.abortOpen h q acSpan).modQueue h q fun x => { x with buffer := none }

/-- The end of a buffer: refused without a command where a loop is open (R164). -/
def State.endBuffer (s : State) (h q : Nat) (b : Buffer) : State :=
  let t := if b.loops = [] then s else s.noteRefused h q
  t.leaveBuffer h q

/-- Move to the buffer's command `n` places on, or leave the buffer at its end. -/
def State.nextCommand (s : State) (h q : Nat) (n : Nat := 1) : State :=
  match (s.queue h q).buffer with
  | none => s
  | some b =>
    if b.pos + n < b.count then s.modQueue h q fun x => { x with buffer := some { b with pos := b.pos + n } }
    else s.endBuffer h q b

/-- A command completes OK and the next one follows. -/
def State.commandDone (s : State) (h q : Nat) (hdr : CmdHdr) : State := (s.completeWith h q hdr .ok).nextCommand h q

/-- A command completes with a status and abandons its buffer (R161, R165). -/
def State.abandon (s : State) (h q : Nat) (hdr : CmdHdr) (st : Byte) : State :=
  (s.complete h q hdr { status := st }).leaveBuffer h q

/-- The command processor of a queue stands at a command: the hall is ACTIVE, the queue ACTIVE, a buffer is open and no
earlier command is in progress (R127, R158). -/
def State.atCommand (s : State) (h q : Nat) : Option Buffer :=
  let x := s.queue h q
  if (s.hall h).state = .active ∧ x.state = .active ∧ x.wait = .none ∧ x.inv = none ∧ x.backlog = [] then x.buffer
  else none

/-- A command other than INVOKE, SIGNAL_FENCE and COMMIT_CLOSE between COMMIT_OPEN and COMMIT_CLOSE: REFUSED, the group
aborts with OPCODE, the buffer is abandoned (R167, R361). -/
def State.refuseInGroup (s : State) (h q : Nat) (hdr : CmdHdr) : State :=
  ((s.completeWith h q hdr .refused).abortOpen h q acOpcode).leaveBuffer h q

/-! ### Invocations -/

/-- The tiles of an invocation before its wave `w`. -/
def Invocation.waveStart (v : Invocation) (w : Nat) : Nat := (v.waves.take w).sum

/-- The number of tiles in the current wave. -/
def Invocation.waveSize (v : Invocation) : Nat := (v.waves[v.wave]?).getD 0

/-- A tile of an invocation. -/
def Invocation.tile (v : Invocation) (i : Nat) : Tile := Tab.get {} v.tiles i

/-- Change a tile. -/
def Invocation.modTile (v : Invocation) (i : Nat) (f : Tile → Tile) : Invocation :=
  { v with tiles := v.tiles.mod {} i f }

/-- A tile is begun. -/
def TilePhase.isBegun : TilePhase → Bool
  | .begun _ => true
  | _ => false

/-- A tile is granted and not yet begun. -/
def TilePhase.isGranted : TilePhase → Bool
  | .granted _ => true
  | _ => false

/-- The invocation starts no further tile (R172, R195). -/
def Invocation.stopping (v : Invocation) : Bool := v.failed || v.stopped || v.torn || v.paused

/-- The lowest ready tile of the current wave (R170). -/
def Invocation.readyTile (v : Invocation) : Option Nat :=
  if v.stopping then none
  else ((List.range v.waveSize).map (· + v.waveStart v.wave)).find? fun i => (v.tile i).phase = .ready

/-- Every tile of the current wave is done. -/
def Invocation.waveDone (v : Invocation) : Bool :=
  v.done = v.waveStart v.wave + v.waveSize

/-- A tile of the invocation is begun on some engine. -/
def Invocation.anyBegun (v : Invocation) : Bool := v.tiles.any fun e => e.2.phase.isBegun

/-- An engine queue entry belongs to a queue's invocation. -/
def TileEntry.of (t : TileEntry) (h q : Nat) (seq : BitVec 32) : Bool := t.hall = h ∧ t.local_ = q ∧ t.seq = seq

/-- Remove every entry and fetched entry of a queue's invocation from the engine queues (R173). -/
def State.dropGrants (s : State) (h q : Nat) (seq : BitVec 32) : State :=
  { s with engines := s.engines.mapAll {} fun _ e =>
      { e with queue := e.queue.filter (fun x => match x with | .tile t => !t.of h q seq | .park => true),
               fetched := e.fetched.bind fun t => if t.of h q seq then none else some t } }

/-- Granted tiles that are not begun return to ready. -/
def Invocation.ungrant (v : Invocation) : Invocation :=
  { v with tiles := v.tiles.mapAll {} fun _ t => if t.phase.isGranted then { t with phase := .ready } else t }

/-- The invocation `seq` of queue `q` is the one that its hall's deadline monitor watches (R190). -/
def State.watchedSeq (s : State) (h q : Nat) (seq : BitVec 32) : Bool :=
  (s.deadline h).state ≠ .idle ∧ (s.deadline h).queue = q ∧ (s.deadline h).seq = seq

/-- The running invocation of queue `q` is the watched one. -/
def State.watched (s : State) (h q : Nat) : Bool := (s.queue h q).inv.any fun v => s.watchedSeq h q v.seq

/-- The deadline monitor starts to watch an invocation of queue `q` (R190). -/
def State.startWatch (s : State) (h q : Nat) (seq : BitVec 32) : State :=
  s.modDeadline h fun d =>
    { d with state := .watching, watch := s.act.deadlines.find? (fun r => r.hall == h), queue := q, seq := seq,
             t0 := s.timer.strideNum, failSeen := false, switchDue := none, slack := 0 }

/-- Completed after the deadline (R190, R193): the stride is t0 + 1 + deadline_strides or later. -/
def Deadline.late (d : Deadline) (now : Word) : Bool :=
  match d.watch with
  | some r => d.t0.toNat + 1 + r.deadlineStrides ≤ now.toNat
  | none => false

/-- The deadline monitor returns to IDLE; `count` says whether a late completion counts as missed (R193). -/
def State.endWatch (s : State) (h : Nat) (count : Bool) : State :=
  s.modDeadline h fun d =>
    { d with state := .idle, watch := none, queue := 0, seq := 0, t0 := 0, failSeen := false, switchDue := none,
             fallbackRead := none, slack := 0,
             missed := if count && d.late s.timer.strideNum then satAdd d.missed 1 else d.missed }

/-- The hall's watch takes up an invocation that it is to watch, where it is idle (R190). -/
def State.watchInvocation (s : State) (h q : Nat) (v : Invocation) : State :=
  if v.desc.deadline ∧ !v.fallback ∧ (s.deadline h).state = .idle then s.startWatch h q v.seq else s

/-- An accepted invocation starts in its queue. -/
def State.startInvocation (s : State) (h q : Nat) (v : Invocation) : State :=
  (s.modQueue h q fun x => { x with inv := some v, wait := .invocation }).watchInvocation h q v

/-- The deadline flag must wait while the hall's watch is busy (R190). -/
def State.watchBusy (s : State) (h : Nat) (d : Desc) : Bool := d.deadline ∧ (s.deadline h).state ≠ .idle

/-- Accept an invocation: it starts, or waits at its command for the hall's watch (R190). -/
def State.acceptInvocation (s : State) (h q : Nat) (v : Invocation) : State :=
  if s.watchBusy h v.desc then s.modQueue h q fun x => { x with wait := .deadline v.hdr v.desc v.waves v.seq }
  else s.startInvocation h q v

/-- An invocation of a commit's backlog waits for the hall's watch: it is to be watched, and the watch is on another (R190).
One that is to start no tile waits for nothing. -/
def State.backlogWaits (s : State) (h q : Nat) (v : Invocation) : Bool :=
  !v.stopping && !v.fallback && s.watchBusy h v.desc && !s.watchedSeq h q v.seq

/-- The next invocation of a commit's backlog starts, in command order (R366), unless it waits for the watch. -/
def State.startBacklog (s : State) (h q : Nat) : State :=
  match (s.queue h q).inv, (s.queue h q).backlog with
  | none, v :: rest =>
    if s.backlogWaits h q v then s
    else (s.modQueue h q fun x => { x with backlog := rest }).startInvocation h q v
  | _, _ => s

/-- One queue that waits for the hall's watch starts, the lowest local queue first; a hall that is not ACTIVE starts none
(R127). -/
def State.releaseWatch (s : State) (h : Nat) : State :=
  if (s.deadline h).state ≠ .idle ∨ (s.hall h).state ≠ .active then s
  else
    match (List.range 256).find? (fun q =>
        match (s.queue h q).wait with
        | .deadline .. => true
        | .invocation => (s.queue h q).inv.isNone ∧ (s.queue h q).backlog ≠ []
        | _ => false) with
    | none => s
    | some q =>
      match (s.queue h q).wait with
      | .deadline hdr d waves seq =>
        s.startInvocation h q { seq := seq, hdr := hdr, context := (s.queue h q).context, desc := d, waves := waves }
      | _ => s.startBacklog h q

/-- What follows an invocation's completion in its queue: the next of the backlog, or the next command. -/
def State.afterInvocation (s : State) (h q : Nat) : State :=
  let t := s.modQueue h q fun x => { x with inv := none }
  if (t.queue h q).backlog = [] then (t.modQueue h q fun x => { x with wait := .none }).nextCommand h q
  else t.startBacklog h q

/-- A torn-down context serves again once none of its torn invocations is left (R195). -/
def State.contextSettled (s : State) (h c : Nat) : State :=
  if (s.ctx h c).torn ∧
      (s.queues.any fun e => e.1 / 256 = h ∧ (e.2.inv.map fun v => v.torn && v.context == c) = some true) = false then
    s.modCtx h c fun x => { x with torn := false }
  else s

/-- What the completion record of an invocation says (R172, R175, R192). -/
def Invocation.completion (v : Invocation) (st : Status) : Completion :=
  let f := if st = .faultedTile ∨ st = .fallbackUsed then v.failure else none
  { status := st.code, reason := if st = .refused ∨ st = .fallbackUsed then v.reason else 0, invocation := v.seq,
    tile := (f.map Prod.fst).getD 0, offset := (f.map Prod.snd).getD 0 }

/-- The INVOKE of a queue completes with a status (R172, R175, R193). -/
def State.finishInvocation (s : State) (h q : Nat) (st : Status) : State :=
  match (s.queue h q).inv with
  | none => s
  | some v =>
    let t := s.complete h q v.hdr (v.completion st)
    let t := t.dropGrants h q v.seq
    let t := if t.watched h q then t.endWatch h (st ≠ .pausedRestore ∧ st ≠ .retired) else t
    ((t.afterInvocation h q).contextSettled h v.context).releaseWatch h

/-- The status of an invocation that starts no further tile and has none begun (R172). -/
def Invocation.stopStatus (v : Invocation) : Status :=
  if v.paused then .pausedRestore
  else if v.fallback then .fallbackUsed
  else if v.stopped then .refused
  else .faultedTile

/-- The relative stride of the boundary that the monitor's next decision stands before (R190, R191). -/
def State.nextDecision (s : State) (d : Deadline) : Nat :=
  (s.timer.strideNum - d.t0).toNat + if s.timer.decided then 1 else 0

/-- The switch point S of a DEADLINE record (R191). -/
def DlRec.switchPoint (r : DlRec) : Nat := r.deadlineStrides - r.marginStrides - ceilDiv r.fallbackWcet 64

/-- The watched primary has failed and a decision can still switch to its fall-back: it waits for the monitor (R191). -/
def State.awaitsSwitch (s : State) (h q : Nat) (v : Invocation) : Bool :=
  let d := s.deadline h
  s.watchedSeq h q v.seq ∧ d.state = .watching ∧ !v.fallback ∧ !v.paused ∧
    (d.switchDue.isSome ∨ d.watch.any fun r => s.nextDecision d ≤ r.switchPoint)

/-- Complete the invocation of a queue, or move it to its next wave, where that is due (R170, R172). -/
def State.settleOne (s : State) (h q : Nat) : State :=
  match (s.queue h q).inv with
  | none => s
  | some v =>
    if v.stopping then
      if v.anyBegun || s.awaitsSwitch h q v then s else s.finishInvocation h q v.stopStatus
    else if v.waveDone then
      if v.wave + 1 < v.waves.length then
        s.modQueue h q fun x => { x with inv := some { v with wave := v.wave + 1 } }
      else s.finishInvocation h q (if v.fallback then .fallbackUsed else .ok)
    else s

/-- Settle a queue's invocation, and those of its backlog that start to no effect. -/
def State.settle (s : State) (h q : Nat) : State :=
  forAll ((s.queue h q).backlog.length + 1) (fun _ t => t.settleOne h q) s

/-- A failure of the invocation is seen now: the first one counts, and of two in one FCLK that of the lower tile (R172). -/
def Invocation.fail (v : Invocation) (now : Word × BitVec 32) (i : Nat) (o : BitVec 32) : Invocation :=
  match v.failure with
  | some (j, _) => if v.failTime = now ∧ i < j then { v with failure := some (i, o) } else v
  | none => { v with failure := some (i, o), failTime := now }

/-- The stride and the FCLK of now. -/
def State.now (s : State) : Word × BitVec 32 := (s.timer.strideNum, s.timer.fclk)

/-- The invocation after a tile has ended with a status (R171, R172, R195). -/
def Invocation.tileEnded (v : Invocation) (now : Word × BitVec 32) (i : Nat) (st : Status) (offset : BitVec 32) :
    Invocation :=
  let t := v.tile i
  let fault (o : BitVec 32) : Invocation :=
    if t.faults < v.desc.retries ∧ !v.torn then
      v.modTile i fun t => { t with phase := .ready, complete := false, faults := t.faults + 1 }
    else
      { (v.modTile i (fun t => { t with phase := .failed, complete := false })).fail now i o with failed := true }
  match st with
  | .ok => if t.complete then { v.modTile i (fun t => { t with phase := .done }) with done := v.done + 1 } else fault 0
  | .preempted => v.modTile i fun t => { t with phase := .ready, complete := false }
  | _ => fault offset

/-- The queue's running invocation to which a TILE entry belongs, begun or granted on port `p`. -/
def State.invOf (s : State) (e : TileEntry) : Option Invocation :=
  if (s.hall e.hall).gen = e.hallGen then
    (s.queue e.hall e.local_).inv.bind fun v => if v.seq = e.seq then some v else none
  else none

/-- The invocation starts no further tile: what was granted and is not begun goes back (R172, R173). -/
def State.stopStarts (s : State) (h q : Nat) (v : Invocation) : State :=
  if v.stopping then (s.modQueue h q fun x => { x with inv := some v.ungrant }).dropGrants h q v.seq
  else s.modQueue h q fun x => { x with inv := some v }

/-- A primary's tile that has run on beside its fall-back ends: it fails where it would have failed (R171, R192). -/
def Invocation.oldEnded (v : Invocation) (now : Word × BitVec 32) (i : Nat) (st : Status) (offset : BitVec 32) :
    Invocation :=
  let t : Tile := Tab.get {} v.old i
  let w := { v with old := v.old.set {} i { t with phase := .ended } }
  match st with
  | .ok => if t.complete ∨ t.faults < v.oldRetries then w else w.fail now i 0
  | .preempted => w
  | _ => if t.faults < v.oldRetries then w else w.fail now i offset

/-- A begun tile of port `p` has ended with a status (R37, R171). -/
def State.tileResult (s : State) (p : Nat) (e : TileEntry) (st : Status) (offset : BitVec 32) : State :=
  let t := s.countHall e.hall fun c => { c with tiles := c.tiles + 1 }
  match t.invOf e with
  | none => t
  | some v =>
    if (v.tile e.tile).phase = .begun p then
      let v' := v.tileEnded t.now e.tile st offset
      let t := t.stopStarts e.hall e.local_ v'
      let t := if v'.failed ∧ !v.failed ∧ t.watched e.hall e.local_ then
          t.modDeadline e.hall fun d => { d with failSeen := true } else t
      t.settle e.hall e.local_
    else if (Tab.get {} v.old e.tile).phase = .begun p then
      t.modQueue e.hall e.local_ fun x => { x with inv := some (v.oldEnded t.now e.tile st offset) }
    else t

/-- A granted tile that was not begun returns to ready (log entry 14). -/
def State.ungrantEntry (s : State) (e : TileEntry) : State :=
  match s.invOf e with
  | none => s
  | some v =>
    if (v.tile e.tile).phase.isGranted then
      s.modQueue e.hall e.local_ fun x =>
        { x with inv := some (v.modTile e.tile fun t => { t with phase := .ready }) }
    else s

/-! ### Retiring a queue's work (R152, R177) -/

/-- The header of the command in progress on a queue, and its invocation number. -/
def Queue.inProgress (x : Queue) : Option (CmdHdr × BitVec 32) :=
  match x.wait with
  | .none => none
  | .fence _ _ hdr => some (hdr, 0)
  | .invocation => (x.inv.map fun v => (v.hdr, v.seq))
  | .deadline hdr _ _ seq => some (hdr, seq)
  | .coll hdr _ => some (hdr, 0)
  | .close _ hdr => some (hdr, 0)
  | .migrate => none

/-- The command in progress on a queue ends with a status: its record and count are written, its invocation is gone. -/
def State.endInProgress (s : State) (h q : Nat) (st : Status) : State :=
  let x := s.queue h q
  let t := match x.inProgress with
    | some (hdr, seq) => s.complete h q hdr { status := st.code, invocation := seq }
    | none => s
  let t := match x.inv with
    | some v => t.dropGrants h q v.seq
    | none => t
  -- the backlog's INVOKEs were accepted at the boundary: they complete too (R366)
  let t := forEach x.backlog (fun v u => u.complete h q v.hdr { status := st.code, invocation := v.seq }) t
  let accepted : List (BitVec 32) := (x.inv.map Invocation.seq).toList ++ x.backlog.map Invocation.seq
  let t := if accepted.any fun n => t.watchedSeq h q n then t.endWatch h false else t
  t.modQueue h q fun y => { y with wait := .none, inv := none, backlog := [], buffer := none, hang := 0,
                                   fenceChanged := false }

/-- The MIGRATE of a queue, if one is in progress, ends with a status (R152). -/
def State.endMigration (s : State) (h q : Nat) (st : Status) : State :=
  match s.xlat.migrations.find? (fun m => m.hall == h && m.queue == q) with
  | none => s
  | some m =>
    let t := s.completeWith h q m.hdr st
    { t with
      xlat := { t.xlat with migrations := t.xlat.migrations.filter fun m => !(m.hall == h && m.queue == q) } }

/-- Every commit group that a queue opened and that is OPEN or CLOSED aborts with QUEUE (R369). -/
def State.abortQueueGroups (s : State) (h q : Nat) : State :=
  let t := forAll 64 (fun g t =>
    let c := t.cmt h g
    if (c.state = .open_ ∨ c.state = .closed) ∧ c.queue = q then t.abortGroup h g acQueue else t) s
  t.modQueue h q fun x => { x with openGroup := none, openAborted := false }

/-- Steps 1 to 4 of R177 with a status for the command in progress: it ends, the queue's groups abort, its generation
increments, and the entries up to the write index pass. -/
def State.stopQueue (s : State) (h q : Nat) (st : Status) : State :=
  let t := (s.endInProgress h q st).endMigration h q st
  let t := t.abortQueueGroups h q
  (t.modQueue h q fun x => { x with gen := nextGen x.gen, readIndex := x.doorbell, writeIndex := x.doorbell,
                                    armed := true, buffer := none, hang := 0 }).releaseWatch h

end Sys2Proof.Machine
end

