-- ==== Sys2Proof/Machine/EngOps.lean ====
section
/-! DEFINITION. Shared operations on an engine port's outstanding requests: their responses (R42), their retirement (R40),
and the teardown of a context's running work (R195). -/

namespace Sys2Proof.Machine

/-- The number of 64-byte beats of a request: the lines that its range touches (R41, R42). -/
def Dma.beatCount (d : Dma) : Nat := ceilDiv (d.address % 64 + d.length) 64

/-- The outstanding request of a port and tag. -/
def State.dma (s : State) (p tag : Nat) : Option Dma := (s.engine p).dmas.find? fun d => d.tag == tag

/-- Change the outstanding request of a port and tag. -/
def State.modDma (s : State) (p tag : Nat) (f : Dma → Dma) : State :=
  s.modEngine p fun e => { e with dmas := e.dmas.map fun d => if d.tag = tag then f d else d }

/-- The response to a request: a read with a non-OK status carries zero data (R42). -/
def Dma.response (d : Dma) (p : Nat) (st : Status) : Out :=
  if d.write then .dmaWrite p d.tag st
  else .dmaRead p d.tag st ((List.range d.beatCount).map fun i => if st = .ok then Tab.get 0 d.lines i else 0)

/-- Hand a response to its requester: an engine port's output, or for an inner access of a link port (256 + n) or of a
migration (512 and above) the list of those just completed. -/
def State.deliver (s : State) (p : Nat) (d : Dma) (st : Status) : State :=
  if p < 256 then s.emit (d.response p st)
  else { s with xlat := { s.xlat with served := s.xlat.served ++
    [(p, d.tag, d.write, st, (List.range d.beatCount).map fun i => Tab.get 0 d.lines i)] } }

/-- Respond to a request and remove it. -/
def State.respond (s : State) (p : Nat) (d : Dma) (st : Status) : State :=
  (s.deliver p d st).modEngine p fun e =>
    { e with dmas := e.dmas.filter (fun x => x.tag != d.tag),
             fences := e.fences.map fun w => { w with tags := w.tags.filter (· != d.tag) } }

/-- Respond with the first non-OK status that the request has seen, or OK. -/
def State.respondNow (s : State) (p tag : Nat) : State :=
  match s.dma p tag with
  | some d => s.respond p d d.status
  | none => s

/-- A memory request whose requester has retired keeps its credits and delivers nothing (R40). -/
def MemReq.discardFor (p tag : Nat) (r : MemReq) : MemReq :=
  match r.why with
  | .dma a b | .partialWrite a b => if a = p ∧ b = tag then { r with why := .discard } else r
  | _ => r

/-- No port: the requester has retired. -/
def noPort : Nat := 1000000

/-- Forget a request of a port and tag wherever another unit holds it: late replies are discarded (R40). -/
def State.forget (s : State) (p tag : Nat) : State :=
  { s with
    ports := s.ports.mapAll {} fun _ m =>
      { m with outstanding := m.outstanding.map (MemReq.discardFor p tag),
               waiting := m.waiting.filter fun r => r.why ≠ .dma p tag ∧ r.why ≠ .partialWrite p tag }
    protect := { s.protect with
      wmReads := s.protect.wmReads.map fun w => if w.port = p ∧ w.tag = tag then { w with port := noPort } else w }
    xlat := { s.xlat with
      waits := (s.xlat.waits.map fun w => { w with waiters := w.waiters.filter (· ≠ (p, tag)) }),
      hostReads := s.xlat.hostReads.map fun r => if r.port = p ∧ r.tag = tag then { r with port := noPort } else r }
    links := s.links.mapAll {} fun _ l =>
      { l with reqs := l.reqs.map (fun r => if r.port = p ∧ r.tag = tag ∧ !r.copy then { r with port := noPort } else r),
               pendingReqs := l.pendingReqs.filter fun r => !(r.port == p && r.tag == tag && !r.copy) } }

/-- Complete a request early with a status; late replies are discarded. -/
def State.cut (s : State) (p : Nat) (st : Status) (d : Dma) : State := (s.forget p d.tag).respond p d st

/-- Complete with a status every outstanding request of a port that passes a test. -/
def State.cutWhere (s : State) (p : Nat) (st : Status) (test : Dma → Bool) : State :=
  forEach ((s.engine p).dmas.filter test) (fun d t => t.cut p st d) s

/-- The pseudo port on which a queue's MIGRATE accesses its pages. -/
def migratePort (h q : Nat) : Nat := 512 + 256 * h + q

/-- Drop the inner accesses of a pseudo port: their owner has gone. -/
def State.dropInner (s : State) (p : Nat) : State :=
  (forEach (s.engine p).dmas (fun d t => t.forget p d.tag) s).modEngine p fun e => { e with dmas := [] }

/-- The port's begun tile belongs to a queue of a hall. -/
def Engine.runs (e : Engine) (h q : Nat) : Bool := e.begun.any fun t => t.hall = h ∧ t.local_ = q

/-- Retire the outstanding requests of every port whose begun tile passes a test (R40). -/
def State.retirePorts (s : State) (test : Engine → Bool) : State :=
  forAll 256 (fun p t => if test (t.engine p) then t.cutWhere p .retired (fun _ => true) else t) s

/-! ### Context faults (R195) -/

/-- The lowest tile of the current wave that is neither begun nor done. -/
def Invocation.nextUnbegun (v : Invocation) : Nat :=
  (((List.range v.waveSize).map (· + v.waveStart v.wave)).find? fun i =>
    (v.tile i).phase = .ready ∨ (v.tile i).phase.isGranted).getD (v.waveStart v.wave)

/-- The first failure of an invocation torn down with its context: an earlier one, or the offending transfer's, or the
lowest begun tile, or the next unbegun tile. -/
def Invocation.tornFailure (v : Invocation) (offender : Option (Nat × BitVec 32)) : Nat × BitVec 32 :=
  match v.failure, offender with
  | some f, _ => f
  | none, some f => f
  | none, none =>
    match v.tiles.find? fun e => e.2.phase.isBegun with
    | some (i, _) => (i, 0)
    | none => (v.nextUnbegun, 0)

/-- Tear down one queue's invocation in a context. -/
def State.tearInvocation (s : State) (h q : Nat) (offender : Option (Nat × BitVec 32)) : State :=
  match (s.queue h q).inv with
  | none => s
  | some v =>
    let v' := { v.ungrant with torn := true, failure := some (v.tornFailure offender),
                               failTime := if v.failure.isSome then v.failTime else s.now }
    let t := (s.modQueue h q fun x => { x with inv := some v' }).dropGrants h q v.seq
    let t := if t.watched h q ∧ !v.fallback then t.modDeadline h fun d => { d with failSeen := true } else t
    t.settle h q

/-- A context fault of a tile: CONTEXT_FAULT against the hall, the context's generation increments, its outstanding
requests retire, and its running invocations fail (R195). `offset` is the refused transfer's offset. -/
def State.contextFault (s : State) (h c : Nat) (offender : TileEntry) (offset : BitVec 32) (object : BitVec 16) :
    State :=
  let t := s.raise Ev.contextFault { hall := some h, status := Status.refused.code, object := object }
  let t := t.modCtx h c fun x => { x with gen := nextGen x.gen, torn := true }
  let t := t.retirePorts fun e => e.begun.any fun b => b.hall = h ∧ b.context = c
  let t := forAll 256 (fun q t =>
    match (t.queue h q).inv with
    | some v =>
      if v.context = c then
        t.tearInvocation h q (if offender.local_ = q ∧ offender.seq = v.seq then some (offender.tile, offset) else none)
      else if offender.local_ = q ∧ offender.seq = v.seq then
        -- a primary's tile that runs on beside its fall-back (R192)
        t.modQueue h q fun x => { x with inv := some (v.fail t.now offender.tile offset) }
      else t
    | none => t) t
  t.contextSettled h c

end Sys2Proof.Machine
end

