-- ==== Sys2Proof/Machine/Submit.lean ====
section
/-! DEFINITION. Submitting work: the kernel ring and its entries (R149 to R152), user-mode queues and their fetcher (R153
to R157), and the commands NOP, INVOKE, WAIT_FENCE, SIGNAL_FENCE, COND_SKIP, LOOP_BEGIN and LOOP_END (R158 to R169). -/

namespace Sys2Proof.Machine

/-- A next state. -/
abbrev next (s : State) : Host.Outcome State Fault Refusal := .next s

/-! ### The queue fetcher (R155, R156) -/

/-- Issue the ring fetch from the read index, where entries wait and the hall is ACTIVE (R156, R166). -/
def State.fetchFrom (s : State) (h q : Nat) : State :=
  let x := s.queue h q
  if (s.hall h).state = .active ∧ x.readIndex ≠ x.writeIndex then s.emit (.ringFetch h q x.readIndex x.writeIndex)
  else s

/-- The doorbell monitor of an armed queue fires: it latches the doorbell register and fetches (R156). -/
def State.fireMonitor (s : State) (h q : Nat) : State :=
  (s.modQueue h q fun x => { x with armed := false, writeIndex := x.doorbell }).fetchFrom h q

/-- The fetcher takes an entry; on the last one it arms the monitor and re-reads the doorbell register (R156). -/
def State.takeEntry (s : State) (h q : Nat) : State :=
  let t := s.modQueue h q fun x => { x with readIndex := x.readIndex + 1 }
  let x := t.queue h q
  if x.readIndex = x.writeIndex then
    (t.modQueue h q fun x => { x with armed := true, writeIndex := x.doorbell }).fetchFrom h q
  else t

/-- A write index is accepted when it runs at most the ring's size ahead of the read index (R155). -/
def Queue.acceptsIndex (x : Queue) (v : BitVec 16) : Bool := (v - x.readIndex).toNat ≤ 2 ^ x.ringLog2

/-- A queue exists and takes doorbells: not ABSENT, not DESTROYING. DESIGN CHOICE (log entry 80): the spec does not say what a
doorbell of a queue in DESTROYING does; here it has no effect and leaves bad_doorbell as it is. -/
def Queue.takesDoorbell (x : Queue) : Bool := x.state ≠ .absent ∧ x.state ≠ .destroying

/-- DOORBELL: a write index for a user-mode queue (R155, R156). A PAUSED hall records it (R132). -/
def State.doorbell (s : State) (h q : Nat) (data : Word) : State :=
  let v : BitVec 16 := BitVec.ofNat 16 (bits data 15 0)
  let x := s.queue h q
  let st := (s.hall h).state
  if !((st = .active ∨ st = .paused) ∧ x.takesDoorbell) then s
  else if !x.acceptsIndex v then s.modQueue h q fun x => { x with badDoorbell := true }
  else
    let t := s.modQueue h q fun x => { x with doorbell := v }
    if st = .active ∧ x.armed then t.fireMonitor h q else t

def execDoorbell (f : Fin 64) (q : Fin 256) (data : Word) (s : State) : Host.Outcome State Fault Refusal :=
  next (s.doorbell f q data)

/-- Where a queue's next ring entry stands (R152, R153). -/
def Queue.entryVa (x : Queue) : Nat := x.ringAddr + 16 * (x.readIndex.toNat % 2 ^ x.ringLog2)

/-- RING_ENTRY: the core has read the next ring entry of an idle queue; it names a command buffer (R153). A read that
fails retires the entry with its status (log entry 15). -/
def State.ringEntry (s : State) (h q : Nat) (status : Byte) (entry : BitVec 128) (queueUe : Bool) : State :=
  let x := s.queue h q
  if (s.hall h).state = .active ∧ x.state = .active ∧ x.buffer = none ∧ x.wait = .none ∧ x.inv = none ∧
      x.backlog = [] ∧ x.readIndex ≠ x.writeIndex then
    if queueUe then s.sramUeHall h (BitVec.ofNat 16 x.global.toNat) (some (.queue q))
    else
      let st := s.readStatus h x.context x.entryVa 16 status
      let t := (s.noteRead h x.context x.entryVa 16 status).takeEntry h q
      if st ≠ .ok then t.noteFirst h q st
      else
        match parseRingEntry entry with
        | none => t.noteRefused h q
        | some b => t.modQueue h q fun x => { x with buffer := some b }
  else s

def execRingEntry (h : Fin 64) (q : Fin 256) (status : Byte) (entry : BitVec 128) (queueUe : Bool) (s : State) :
    Host.Outcome State Fault Refusal := next (s.ringEntry h q status entry queueUe)

/-! ### The kernel ring (R149 to R152) -/

/-- The function's generation increments: its requests retire, its cached translations go, and page requests are
enabled again (R54, R130, R202). -/
def State.bumpFunc (s : State) (f : Nat) : State :=
  let t := forEach (s.engines.map Prod.fst) (fun p t => t.cutWhere p .retired fun d => d.kind = 1 ∧ d.hall = f) s
  let t := { t with xlat := { t.xlat with htc := t.xlat.htc.filter (fun e => e.func ≠ f),
                                          waits := t.xlat.waits.filter (fun w => w.func ≠ f) } }
  t.modFunc f fun x => { x with gen := nextGen x.gen, priDisabled := false, priOutstanding := 0 }

def State.kringBase (s : State) (f : Nat) (data : Word) : State :=
  if s.core.released ∧ (s.func f).kstate = .disabled then
    s.modFunc f fun x => { x with baseAddr := BitVec.ofNat 52 (bits data 63 12),
                                  size := if bits data 2 0 = 7 then x.size else BitVec.ofNat 3 (bits data 2 0) }
  else s

def execKringBaseWrite (f : Fin 64) (data : Word) (s : State) : Host.Outcome State Fault Refusal :=
  next (s.kringBase f data)

/-- The hall whose kernel ring runs: ACTIVE, or PAUSED, where R384 restores queues and fences through it. -/
def State.kringRuns (s : State) (f : Nat) : Bool := (s.hall f).state = .active ∨ (s.hall f).state = .paused

/-- The kernel ring stands at an entry that it may run: enabled, or disabled while the entry was already in progress
(R150); an entry waits and none is being carried out (R151). -/
def State.atKEntry (s : State) (f : Nat) : Bool :=
  s.kringRuns f ∧ ((s.func f).kstate = .enabled ∨ (s.func f).entryDue) ∧ (s.func f).retiring = none ∧
    (s.func f).readIndex ≠ (s.func f).writeIndex

/-- The entry is fetched. -/
def State.takeKEntry (s : State) (f : Nat) : State :=
  s.modFunc f fun x => { x with readIndex := x.readIndex + 1, entryDue := false }

def State.kringEnable (s : State) (f : Nat) : State :=
  if !s.core.released then s else
  match (s.func f).kstate with
  | .disabled => s.modFunc f fun x => { x with kstate := .enabled, readIndex := 0, writeIndex := 0 }
  | .disabling => s.modFunc f fun x => { x with kstate := .enablePending }
  | _ => s

def execKringEnable (f : Fin 64) (s : State) : Host.Outcome State Fault Refusal := next (s.kringEnable f)

/-- A disable. DESIGN CHOICE (log entry 83): the entry in progress is the next one that waits and may run; it is still run. -/
def State.kringDisable (s : State) (f : Nat) : State :=
  match (s.func f).kstate with
  | .enabled => s.modFunc f fun x => { x with kstate := .disabling, entryDue := s.atKEntry f }
  | .enablePending => s.modFunc f fun x => { x with kstate := .disabling }
  | _ => s

def execKringDisable (f : Fin 64) (s : State) : Host.Outcome State Fault Refusal := next (s.kringDisable f)

/-- KRING_DISABLE_DONE: no entry is in progress any more; the ring is DISABLED, or ENABLED again under a pending enable
with a new function generation (R150). -/
def State.kringDisableDone (s : State) (f : Nat) : State :=
  if (s.func f).retiring.isSome ∨ (s.func f).entryDue then s
  else
    match (s.func f).kstate with
    | .disabling => s.modFunc f fun x => { x with kstate := .disabled }
    | .enablePending =>
      (s.bumpFunc f).modFunc f fun x => { x with kstate := .enabled, readIndex := 0, writeIndex := 0 }
    | _ => s

def State.kringDoorbell (s : State) (f : Nat) (data : Word) : State :=
  if (s.func f).kstate = .enabled ∧ s.kringRuns f then
    let t := s.modFunc f fun x => { x with writeIndex := BitVec.ofNat 16 (bits data 15 0) }
    if (t.func f).readIndex ≠ (t.func f).writeIndex then
      t.emit (.kringFetch f (t.func f).readIndex (t.func f).writeIndex)
    else t
  else s

def execKringDoorbell (f : Fin 64) (data : Word) (s : State) : Host.Outcome State Fault Refusal :=
  next (s.kringDoorbell f data)

/-- The entry completes with a status: last_status first, then completed (R151). -/
def State.kDone (s : State) (f : Nat) (st : Status) : State :=
  s.modFunc f fun x => { x with lastStatus := st.code, completed := x.completed + 1 }

/-- Run a kernel-ring entry of an op: REFUSED with no other effect where it cannot be read (R272) or `ok` fails, else `run`
(R151, R152). -/
def State.kEntry (s : State) (f : Nat) (raw : BitVec 512) (op : Nat) (ok : Bool) (run : State → State) : State :=
  if s.atKEntry f ∧ byteField raw 0 0 = op then
    let t := s.takeKEntry f
    if s.kringStatus f 0 = .ok ∧ ok then run t else t.kDone f .refused
  else s

/-- NOP on a kernel ring (R152). -/
def State.kNop (s : State) (f : Nat) (raw : BitVec 512) : State :=
  s.kEntry f raw 0 (kNopOk raw) fun t => t.kDone f .ok

/-- Local queues in use by a hall. -/
def State.queuesInUse (s : State) (h : Nat) : Nat :=
  (List.range 256).countP fun q => (s.queue h q).state ≠ .absent

/-- The lowest free global queue number (log entry 16). -/
def State.freeGlobal (s : State) : Option Nat :=
  (List.range 4096).find? fun g => s.queues.all fun e => !(e.2.state ≠ .absent && e.2.global.toNat == g)

/-- A context holds a segment: its entry is VALID or LOST. DEDUCED (log entry 81): one that is WITHDRAWING is no longer held,
for R152 and R169 alike. -/
def State.holdsSegment (s : State) (h c i : Nat) : Bool :=
  (s.seg (128 * h + 8 * c + i)).state = .valid ∨ (s.seg (128 * h + 8 * c + i)).state = .lost

/-- The context holds a segment (R152). -/
def State.hasSegment (s : State) (h c : Nat) : Bool := (List.range 8).any fun i => s.holdsSegment h c i

/-- The queue that QUEUE_CREATE makes (R152). -/
def newQueue (old : Queue) (g : Nat) (e : KEntry) : Queue :=
  { state := .active, gen := nextGen old.gen, global := BitVec.ofNat 12 g, context := e.context,
    ringLog2 := e.ringLog2, ringAddr := e.address, armed := true }

def State.queueCreate (s : State) (f : Nat) (raw : BitVec 512) : State :=
  let e := parseKEntry raw
  s.kEntry f raw 1 (kCreateOk raw) fun t =>
    let ok : Bool := (t.queue f e.queue).state = .absent ∧ t.queuesInUse f < (t.rec_ f).queueQuota ∧ t.hasSegment f e.context ∧
      e.address % 4096 = 0 ∧ 4 ≤ e.ringLog2 ∧ e.ringLog2 ≤ 15
    match t.freeGlobal with
    | some g => if ok then (t.modQueue f e.queue fun x => newQueue x g e).kDone f .ok else t.kDone f .refused
    | none => t.kDone f .refused

def execQueueCreate (f : Fin 64) (raw : BitVec 512) (s : State) : Host.Outcome State Fault Refusal :=
  next (s.queueCreate f raw)

/-- Stop a queue for QUEUE_DESTROY or QUEUE_RESET; the entry completes once its requests have retired (R152). -/
def State.retireQueue (s : State) (h q : Nat) : State :=
  (((s.stopQueue h q .retired).retirePorts fun e => e.runs h q).dropInner (migratePort h q)).restored h (.queue q)

def State.queueDestroy (s : State) (f : Nat) (raw : BitVec 512) : State :=
  let q := (parseKEntry raw).queue
  s.kEntry f raw 2 (kQueueOk raw) fun t =>
    if (t.queue f q).state = .absent then t.kDone f .refused
    else ((t.retireQueue f q).modQueue f q fun x => { x with state := .destroying }).modFunc f fun x =>
      { x with retiring := some (true, q) }

def execQueueDestroy (f : Fin 64) (raw : BitVec 512) (s : State) : Host.Outcome State Fault Refusal :=
  next (s.queueDestroy f raw)

def State.queueReset (s : State) (f : Nat) (raw : BitVec 512) : State :=
  let q := (parseKEntry raw).queue
  s.kEntry f raw 3 (kQueueOk raw) fun t =>
    if (t.queue f q).state = .absent then t.kDone f .refused
    else ((t.retireQueue f q).modQueue f q fun x =>
      { x with state := .active, firstStatus := 0, badDoorbell := false }).modFunc f fun x =>
        { x with retiring := some (false, q) }

def execQueueReset (f : Fin 64) (raw : BitVec 512) (s : State) : Host.Outcome State Fault Refusal :=
  next (s.queueReset f raw)

/-- QUEUE_RETIREMENT_DONE: every request of the queue has retired, its last record included, so QUEUE_DESTROY frees its numbers
and the entry completes OK (R152). DESIGN CHOICE (log entry 82): what FW_QUEUE_STATUSq and FW_COMPLETIONq show of a queue
that has gone is not stated; global reads 0, and the other fields keep their values until QUEUE_CREATE. -/
def State.queueRetired (s : State) (f : Nat) : State :=
  match (s.func f).retiring with
  | none => s
  | some (destroy, q) =>
    if s.recordsDue f q then s else
    let t := if destroy then s.modQueue f q fun x => { x with state := .absent, global := 0 } else s
    (t.modFunc f fun x => { x with retiring := none }).kDone f .ok

def execQueueRetirementDone (f : Fin 64) (s : State) : Host.Outcome State Fault Refusal := next (s.queueRetired f)

def State.fenceSet (s : State) (f : Nat) (raw : BitVec 512) : State :=
  let e := parseKEntry raw
  s.kEntry f raw 4 (kFenceOk raw) fun t =>
    ((t.setFence f e.fence (BitVec.ofNat 64 e.address)).restored f (.fence e.fence)).kDone f .ok

def execFenceSet (f : Fin 64) (raw : BitVec 512) (s : State) : Host.Outcome State Fault Refusal :=
  next (s.fenceSet f raw)

/-! ### Commands of a queue -/

/-- Where the command at which a buffer stands is read. -/
def Buffer.commandVa (b : Buffer) : Nat := b.base + 64 * b.pos

/-- The read of the command at which a queue stands ended with a status other than OK: the buffer retires with it as first
status (R153, R274, log entry 15). -/
def State.commandUnread (s : State) (h q : Nat) (st : Status) : State := (s.noteFirst h q st).leaveBuffer h q

/-- Run a command of an opcode at which the queue's command processor stands; elsewhere nothing happens. The command lies in
memory that the core can read, or its buffer retires (R153, R196). -/
def State.command (s : State) (h q : Nat) (raw : BitVec 512) (op : Nat) (run : State → Buffer → CmdHdr → State) : State :=
  match s.atCommand h q with
  | some b =>
    if byteField raw 0 0 ≠ op then s
    else
      match s.bars h (s.queue h q).context b.commandVa 64 with
      | some st => s.commandUnread h q st
      | none => run (s.noteRead h (s.queue h q).context b.commandVa 64 0) b (cmdHdr raw)
  | none => s

/-- Run a command that no open commit group admits: REFUSED inside one (R167); REFUSED where its own fields are bad
(R161); else `run`. -/
def State.plainCommand (s : State) (h q : Nat) (raw : BitVec 512) (op : Nat) (ok : Bool)
    (run : State → Buffer → CmdHdr → State) : State :=
  s.command h q raw op fun s b hdr =>
    if (s.queue h q).openGroup.isSome then s.refuseInGroup h q hdr
    else if hdrOk raw ∧ ok then run s b hdr
    else s.abandon h q hdr Status.refused.code

/-- NOP on a queue: completes OK at once (R160). -/
def State.qNop (s : State) (h q : Nat) (raw : BitVec 512) : State :=
  s.plainCommand h q raw 0 (zeroBytes raw 63 16) fun s _ hdr => s.commandDone h q hdr

def execNop (src : EntrySrc) (raw : BitVec 512) (s : State) : Host.Outcome State Fault Refusal :=
  match src with
  | .kring f => next (s.kNop f raw)
  | .queue h q => next (s.qNop h q raw)

/-- The read of a kernel-ring entry or of a command ended with a status other than OK: the entry completes with it, or the
buffer retires with it as first status (R151, R153, R274, log entry 15). -/
def State.unreadable (s : State) (src : EntrySrc) (status : Byte) : State :=
  match src with
  | .kring f =>
    let st := s.kringStatus f status
    if s.atKEntry f ∧ st ≠ .ok then
      ((if st = .integrity then s.hostTagFail f else s).takeKEntry f).kDone f st
    else s
  | .queue h q =>
    match s.atCommand h q with
    | some b =>
      let st := s.readStatus h (s.queue h q).context b.commandVa 64 status
      if st = .ok then s
      else (s.noteRead h (s.queue h q).context b.commandVa 64 status).commandUnread h q st
    | none => s

/-- A reserved opcode or op completes REFUSED under R8. -/
def State.reservedOp (s : State) (src : EntrySrc) (raw : BitVec 512) : State :=
  match src with
  | .kring f =>
    if 5 ≤ byteField raw 0 0 then s.kEntry f raw (byteField raw 0 0) false id else s
  | .queue h q =>
    if 0x0B ≤ byteField raw 0 0 then s.plainCommand h q raw (byteField raw 0 0) false fun s _ _ => s else s

def execReservedOpcode (src : EntrySrc) (raw : BitVec 512) (readStatus : Byte) (s : State) :
    Host.Outcome State Fault Refusal :=
  next (if readStatus = 0 then s.reservedOp src raw else s.unreadable src readStatus)

/-! INVOKE (R168, R169) -/

/-- Engine ports owned by a hall, fenced ones included (R378). -/
def Plan.ownedEngines (p : Plan) (h : Nat) : Nat := p.engines.countP fun e => e.owner = .hall h

/-- Engine ports of the pools whose hall_mask includes a hall. -/
def Plan.pooledEngines (p : Plan) (h : Nat) : Nat :=
  p.engines.countP fun e => match e.owner with
    | .pool k => p.pools.any fun r => r.pool == k && bit r.hallMask h
    | _ => false

/-- Invocation check reasons (R169). -/
abbrev rsDescRead : Byte := 0x01
abbrev rsDescField : Byte := 0x02
abbrev rsTileBudget : Byte := 0x03
abbrev rsEngines : Byte := 0x04
abbrev rsSegments : Byte := 0x05
abbrev rsWindows : Byte := 0x06
abbrev rsReduction : Byte := 0x07
abbrev rsWaves : Byte := 0x08
abbrev rsDeadline : Byte := 0x09
abbrev rsLimitChanged : Byte := 0x0A
abbrev rsCmdField : Byte := 0x0B

/-- The tile counts of a descriptor's waves, from the wave_count entries of its wave table or its single wave (R168, R169). -/
def waveList (d : Desc) (table : List (BitVec 32)) : List Nat :=
  if d.waveTable = 0 then [d.tileCount] else (table.take d.waveCount).map BitVec.toNat

/-- The segments field names only segments that the context holds, and affinity one of them (R169). -/
def State.segmentsOk (s : State) (h c : Nat) (d : Desc) : Bool :=
  (List.range 8).all (fun i => !bit d.segments i || s.holdsSegment h c i) &&
  (d.affinity.map fun i => bit d.segments i).getD true

/-- The first check from TILE_BUDGET to DEADLINE that fails (R169). -/
def State.descCheck (s : State) (h c : Nat) (d : Desc) (waves : List Nat) (ignoreDeadline : Bool) : Option Byte :=
  let r := s.rec_ h
  if tileLimit s.act.core.strideCode < d.tileBudget then some rsTileBudget
  else if s.act.ownedEngines h + s.act.pooledEngines h < d.enginesMin then some rsEngines
  else if !s.segmentsOk h c d then some rsSegments
  else if r.winQuota < d.windows ∨ (d.remote ∧ r.winQuota = 0) then some rsWindows
  else if r.clusterSlots < d.clusterSlots ∨ (d.reduce ∧ d.clusterSlots = 0) then some rsReduction
  else if waves.length ≠ d.waveCount ∨ waves.sum ≠ d.tileCount ∨ waves.any (· == 0) then some rsWaves
  else if d.deadline ∧ !ignoreDeadline ∧ r.cls ≠ .deadline then some rsDeadline
  else none

/-- The statuses of the reads of a descriptor and of its wave table (R169, R196). -/
def State.descStatus (s : State) (h c va : Nat) (d : DescRead) : Status := s.readStatus h c va 256 d.descStatus
def State.waveStatus (s : State) (h c : Nat) (x : Desc) (d : DescRead) : Status :=
  s.readStatus h c x.waveTable (4 * x.waveCount) d.waveStatus

/-- The checks of R169 after CMD_FIELD on a descriptor at an address: the reason and status of the first that fails. -/
def State.invokeCheck (s : State) (h c va : Nat) (d : DescRead) (ignoreDeadline : Bool) : Option (Byte × Status) :=
  let x := parseDesc d.desc
  if s.descStatus h c va d ≠ .ok then some (rsDescRead, s.descStatus h c va d)
  else if !descFieldsOk d.desc then some (rsDescField, .refused)
  else if x.waveTable ≠ 0 ∧ s.waveStatus h c x d ≠ .ok then some (rsDescRead, s.waveStatus h c x d)
  else (s.descCheck h c x (waveList x d.waves) ignoreDeadline).map fun r => (r, .refused)

/-- The reads of a descriptor and, once its fields have passed, of its wave table (R169, R274). -/
def State.noteDesc (s : State) (h c va : Nat) (d : DescRead) : State :=
  let t := s.noteRead h c va 256 d.descStatus
  let x := parseDesc d.desc
  if s.descStatus h c va d ≠ .ok ∨ !descFieldsOk d.desc ∨ x.waveTable = 0 then t
  else t.noteRead h c x.waveTable (4 * x.waveCount) d.waveStatus

/-- The descriptor address of an INVOKE in its iteration (R160). -/
def invokeVa (raw : BitVec 512) (b : Buffer) : Nat :=
  (byteField raw 21 16 + 256 * (levelIter b (byteField raw 24 24)).getD 0) % 2 ^ 48

/-- INVOKE's own operands are good: CMD_FIELD does not fail (R169). -/
def invokeFieldsOk (raw : BitVec 512) (b : Buffer) : Bool :=
  hdrOk raw ∧ zeroBytes raw 63 25 ∧ bits raw 191 176 = 0 ∧ byteField raw 21 16 % 256 = 0 ∧
    (levelIter b (byteField raw 24 24)).isSome

/-- The header of an INVOKE with the record address of its iteration (R160's iter_level). -/
def invokeHdr (raw : BitVec 512) (b : Buffer) : CmdHdr :=
  let h := cmdHdr raw
  let i := (levelIter b (byteField raw 24 24)).getD 0
  if h.record = 0 then h else { h with record := h.record + BitVec.ofNat 48 (32 * i) }

/-- The queue's next invocation sequence number is taken. -/
def State.takeSeq (s : State) (h q : Nat) : State := s.modQueue h q fun x => { x with invSeq := x.invSeq + 1 }

/-- Actions that a commit group holds. -/
def CmtGroup.actions (c : CmtGroup) : Nat := c.staged.length + c.recorded.length

/-- Record a command as an action of the queue's open group; past 4,096 actions the group aborts with ACTIONS and the
command completes ABORTED_COMMIT (R362, R369). A group that has aborted completes it ABORTED_COMMIT. -/
def State.recordAction (s : State) (h q g : Nat) (hdr : CmdHdr) (seq : BitVec 32) (a : Action) : State :=
  let aborted : Completion := { status := Status.abortedCommit.code, invocation := seq }
  if (s.queue h q).openAborted then (s.complete h q hdr aborted).nextCommand h q
  else if 4096 ≤ (s.cmt h g).actions then
    ((s.abortOpen h q acActions).complete h q hdr aborted).leaveBuffer h q
  else (s.modCmt h g fun c => { c with recorded := c.recorded ++ [a] }).nextCommand h q

def State.invoke (s : State) (h q : Nat) (raw : BitVec 512) (d : DescRead) : State :=
  s.command h q raw 1 fun s b _ =>
    let hdr := invokeHdr raw b
    let ok := invokeFieldsOk raw b
    let seq := (s.queue h q).invSeq
    let t := s.takeSeq h q
    match (s.queue h q).openGroup with
    | some (g, _) => t.recordAction h q g hdr seq (.invoke hdr (invokeVa raw b) ok {} [] seq)
    | none =>
      let c := (s.queue h q).context
      let va := invokeVa raw b
      let failed := if ok then t.invokeCheck h c va d false else some (rsCmdField, .refused)
      let t := if ok then t.noteDesc h c va d else t
      match failed with
      | some (reason, st) =>
        (t.complete h q hdr { status := st.code, reason := reason, invocation := seq }).nextCommand h q
      | none =>
        let x := parseDesc d.desc
        t.acceptInvocation h q { seq := seq, hdr := hdr, context := c, desc := x, waves := waveList x d.waves }

def execInvoke (h : Fin 64) (q : Fin 256) (raw : BitVec 512) (d : DescRead) (s : State) :
    Host.Outcome State Fault Refusal := next (s.invoke h q raw d)

/-! WAIT_FENCE and SIGNAL_FENCE (R160, R163) -/

/-- The operands of WAIT_FENCE and SIGNAL_FENCE are good (R160, R164). -/
def fenceFieldsOk (raw : BitVec 512) (b : Buffer) : Bool :=
  bits raw 143 140 = 0 ∧ zeroBytes raw 23 19 ∧ zeroBytes raw 63 40 ∧ (levelIter b (byteField raw 18 18)).isSome

/-- The fence that the command names. -/
def fenceNum (raw : BitVec 512) : Nat := bits raw 139 128

/-- The effective value, value + step × i modulo 2^64 (R160). -/
def fenceValue (raw : BitVec 512) (b : Buffer) : Word :=
  let i := (levelIter b (byteField raw 18 18)).getD 0
  let step := if byteField raw 18 18 = 0 then 0 else byteField raw 39 32
  BitVec.ofNat 64 (byteField raw 31 24 + step * i)

def State.waitFence (s : State) (h q : Nat) (raw : BitVec 512) : State :=
  s.command h q raw 2 fun s b hdr =>
    if (s.queue h q).openGroup.isSome then s.refuseInGroup h q hdr
    else if hdrOk raw ∧ fenceFieldsOk raw b then
      let n := fenceNum raw
      let v := fenceValue raw b
      if v ≤ s.fence h n then s.commandDone h q hdr
      else s.modQueue h q fun x => { x with wait := .fence n v hdr, state := .waiting, hang := 0, fenceChanged := false }
    else s.abandon h q hdr Status.refused.code

def execWaitFence (h : Fin 64) (q : Fin 256) (raw : BitVec 512) (s : State) : Host.Outcome State Fault Refusal :=
  next (s.waitFence h q raw)

/-- FENCE_CONDITION_MET: the awaited fence has reached the effective value, so WAIT_FENCE completes OK (R163). -/
def State.fenceMet (s : State) (h q : Nat) : State :=
  match (s.queue h q).wait with
  | .fence n v hdr =>
    if v ≤ s.fence h n ∧ (s.queue h q).state = .waiting then
      (s.modQueue h q fun x => { x with wait := .none, state := .active, hang := 0, fenceChanged := false }).commandDone
        h q hdr
    else s
  | _ => s

def execFenceConditionMet (h : Fin 64) (q : Fin 256) (s : State) : Host.Outcome State Fault Refusal :=
  next (s.fenceMet h q)

def State.signalFence (s : State) (h q : Nat) (raw : BitVec 512) : State :=
  s.command h q raw 3 fun s b hdr =>
    if hdrOk raw ∧ fenceFieldsOk raw b then
      let n := fenceNum raw
      let v := fenceValue raw b
      match (s.queue h q).openGroup with
      | some (g, _) => s.recordAction h q g hdr 0 (.signal hdr n v)
      | none => (s.setFence h n v).commandDone h q hdr
    else s.abandon h q hdr Status.refused.code

def execSignalFence (h : Fin 64) (q : Fin 256) (raw : BitVec 512) (s : State) : Host.Outcome State Fault Refusal :=
  next (s.signalFence h q raw)

/-! COND_SKIP (R160, R165) -/

/-- The operands of COND_SKIP are good (R160). -/
def skipFieldsOk (raw : BitVec 512) : Bool :=
  let source := byteField raw 16 16
  source ≤ 1 ∧ byteField raw 17 17 ≤ 3 ∧ bits raw 159 156 = 0 ∧ 1 ≤ byteField raw 23 20 ∧
    byteField raw 23 20 ≤ 1048576 ∧ zeroBytes raw 63 48 ∧ zeroBytes raw 31 30 ∧
    (source = 0 ∧ zeroBytes raw 31 24 ∨ source = 1 ∧ bits raw 155 144 = 0 ∧ byteField raw 29 24 % 8 = 0)

/-- The comparison of COND_SKIP, all unsigned (R160). -/
def skipCompare (cmp : Nat) (a b : Nat) : Bool :=
  match cmp with
  | 0 => a == b
  | 1 => a != b
  | 2 => a < b
  | _ => b ≤ a

/-- The condition of COND_SKIP on its masked source (R160). -/
def skipCondition (raw : BitVec 512) (source : Word) : Bool :=
  skipCompare (byteField raw 17 17) (source.toNat &&& byteField raw 39 32) (byteField raw 47 40)

/-- A span of opcodes is balanced: as many LOOP_BEGIN as LOOP_END, which never outnumber them (R165). -/
def spanBalanced (depth : Nat) : List Byte → Bool
  | [] => depth == 0
  | o :: rest =>
    if o = 5 then spanBalanced (depth + 1) rest
    else if o = 6 then
      match depth with
      | 0 => false
      | d + 1 => spanBalanced d rest
    else spanBalanced depth rest

/-- The source of COND_SKIP and the status of its read: a fence, or the word at its address (R160, R165). -/
def State.skipWord (s : State) (h q : Nat) (raw : BitVec 512) (answer : Byte) (word : Word) : Status × Word :=
  if byteField raw 16 16 = 0 then (.ok, s.fence h (bits raw 155 144))
  else (s.readStatus h (s.queue h q).context (byteField raw 29 24) 8 answer, word)

/-- The read of COND_SKIP's word. -/
def State.noteWord (s : State) (h q : Nat) (raw : BitVec 512) (answer : Byte) : State :=
  if byteField raw 16 16 = 0 then s else s.noteRead h (s.queue h q).context (byteField raw 29 24) 8 answer

/-- `span` holds the opcodes of the commands to skip, as the core read them. The checks stand in the order: span inside
the buffer, word read, span reads, balance (log entry 17). -/
def State.condSkip (s : State) (h q : Nat) (raw : BitVec 512) (wordStatus : Byte) (word : Word) (spanStatus : Byte)
    (span : List Byte) : State :=
  s.plainCommand h q raw 4 (skipFieldsOk raw) fun s b hdr =>
    let n := byteField raw 23 20
    let c := (s.queue h q).context
    let word := s.skipWord h q raw wordStatus word
    let source := word.2
    if b.count < b.pos + 1 + n then s.abandon h q hdr Status.refused.code
    else
      let t := s.noteWord h q raw wordStatus
      if word.1 ≠ .ok then t.abandon h q hdr word.1.code
      else
        let st := t.readStatus h c (b.commandVa + 64) (64 * n) spanStatus
        let t := t.noteRead h c (b.commandVa + 64) (64 * n) spanStatus
        if st ≠ .ok then t.abandon h q hdr st.code
        else if !spanBalanced 0 (span.take n) then t.abandon h q hdr Status.refused.code
        else if skipCondition raw source then (t.completeWith h q hdr .ok).nextCommand h q (1 + n)
        else t.commandDone h q hdr

def execCondSkip (h : Fin 64) (q : Fin 256) (raw : BitVec 512) (wordStatus : Byte) (word : Word) (spanStatus : Byte)
    (span : List Byte) (s : State) : Host.Outcome State Fault Refusal :=
  next (s.condSkip h q raw wordStatus word spanStatus span)

/-! Loops (R164) -/

def State.loopBegin (s : State) (h q : Nat) (raw : BitVec 512) : State :=
  let n := byteField raw 19 16
  s.plainCommand h q raw 5 (zeroBytes raw 63 20 ∧ 1 ≤ n ∧ n ≤ 16777216) fun s b hdr =>
    if b.loops.length < 8 then
      (s.modQueue h q fun x =>
        { x with buffer := some { b with loops := { start := b.pos + 1, count := n, iter := 0 } :: b.loops } }).commandDone
          h q hdr
    else s.abandon h q hdr Status.refused.code

def execLoopBegin (h : Fin 64) (q : Fin 256) (raw : BitVec 512) (s : State) : Host.Outcome State Fault Refusal :=
  next (s.loopBegin h q raw)

def State.loopEnd (s : State) (h q : Nat) (raw : BitVec 512) : State :=
  s.plainCommand h q raw 6 (zeroBytes raw 63 16) fun s b hdr =>
    match b.loops with
    | [] => s.abandon h q hdr Status.refused.code
    | l :: outer =>
      if l.iter + 1 < l.count then
        (s.completeWith h q hdr .ok).modQueue h q fun x =>
          { x with buffer := some { b with pos := l.start, loops := { l with iter := l.iter + 1 } :: outer } }
      else
        (s.modQueue h q fun x => { x with buffer := some { b with loops := outer } }).commandDone h q hdr

def execLoopEnd (h : Fin 64) (q : Fin 256) (raw : BitVec 512) (s : State) : Host.Outcome State Fault Refusal :=
  next (s.loopEnd h q raw)

end Sys2Proof.Machine
end

