-- ==== Sys2Proof/Machine/FaultOps.lean ====
section
/-! DEFINITION. The fault unit's shared operations: the start of a fence (R377), and what marks a unit's stride as not
quiet (R381). The effects on each kind of unit stand with that unit. -/

namespace Sys2Proof.Machine

/-- A fence trigger (R376): a unit in service moves to FENCING with a new generation and its event is recorded; for any
other unit the stride is not quiet (R381). `hall` is the hall that the event names (R372), `status` what the affected operation gets (R373). -/
def State.beginFence (s : State) (type index : Nat) (cause : BitVec 4) (hall : Option Nat) (status : Byte := 0) :
    State :=
  let u := unitId type index
  if (s.unit u).state = .inService then
    ((s.noteChange u).modUnit u fun x =>
      { x with state := .fencing, gen := nextGen x.gen, cause := cause, quietLeft := 0, triggered := false,
               started := false }).raise
      (fenceEvent type cause) { unit := u, hall := hall, status := status, cause := cause }
  else s.modUnit u fun x => { x with triggered := true }

/-- An uncorrectable word of a structure that halls share: FATAL (R372, R387). -/
def State.sramUeCore (s : State) : State := s.raise Ev.sramUeCore {}

/-- The quiet period in strides of the plan in force, 16 without one (R101, R381). -/
def State.quietStrides (s : State) : Nat := s.act.core.quietStrides

end Sys2Proof.Machine
end

