-- ==== Sys2Proof/Machine/Engine.lean ====
section
/-! DEFINITION. The engine ports: fetch and tile handshakes (R35 to R38), fence transfers (R44) and pre-emption (R46 to
R48). -/

namespace Sys2Proof.Machine

/-- The port answers its engine: present and in service (R34, R377). -/
def State.engineUp (s : State) (p : Nat) : Bool := (s.engine p).present ∧ s.inService 3 p

/-- Return the unbegun tile that an engine fetched to ready (log entry 14). -/
def State.abandonFetched (s : State) (p : Nat) : State :=
  match (s.engine p).fetched with
  | some e => (s.ungrantEntry e).modEngine p fun x => { x with fetched := none }
  | none => s

/-- The tile of an engine queue entry returns to ready. -/
def EngEntry.ungrant (e : EngEntry) (s : State) : State :=
  match e with
  | .tile x => s.ungrantEntry x
  | .park => s

/-- Return every unbegun tile that was granted to an engine to ready, and empty its queue of TILE entries. -/
def State.clearGrants (s : State) (p : Nat) : State :=
  let t := s.abandonFetched p
  let t := forEach (t.engine p).queue EngEntry.ungrant t
  t.modEngine p fun x => { x with queue := x.queue.filter fun e => e = .park }

/-! FETCH_REQUEST (R35): EMPTY while a pre-emption is under way (log entry 18). -/

/-- ENG_FETCH_RSP_DATA for a TILE entry (R35). -/
def TileEntry.bytes (t : TileEntry) : List Byte :=
  [1, BitVec.ofNat 8 t.hall] ++ leBytes 2 t.hallGen.toNat ++
    [BitVec.ofNat 8 t.context, BitVec.ofNat 8 ((if t.remote then 1 else 0) + if t.reduce then 2 else 0)] ++
    leBytes 2 t.global.toNat ++ leBytes 4 t.seq.toNat ++ leBytes 4 t.tile ++ leBytes 4 t.budget ++ leBytes 8 t.args ++
    leBytes 36 t.params.toNat

/-- ENG_FETCH_RSP_DATA for what a fetch finds: a TILE entry, PARK, or EMPTY. -/
def fetchData (e : Option EngEntry) : BitVec 512 :=
  match e with
  | some (.tile t) => BitVec.ofNat 512 (leNat t.bytes)
  | some .park => 2
  | none => 0

/-- ENG_QUEUE_NONEMPTY of a port: high while its engine queue holds an entry (R35). -/
def State.queueNonempty (s : State) (p : Nat) : Bool := (s.engine p).present && !(s.engine p).queue.isEmpty

def State.fetch (s : State) (p : Nat) : State :=
  let e := s.engine p
  if !e.present then s
  else if e.preemptReq ∨ e.switching then s.emit (.fetchRsp p (fetchData none))
  else
    match e.queue with
    | [] => s.emit (.fetchRsp p (fetchData none))
    | .park :: rest => (s.modEngine p fun x => { x with queue := rest }).emit (.fetchRsp p (fetchData (some .park)))
    | .tile t :: rest =>
      ((s.abandonFetched p).modEngine p fun x => { x with queue := rest, fetched := some t }).emit
        (.fetchRsp p (fetchData (some (.tile t))))

def execFetchRequest (p : Fin 256) (s : State) : Host.Outcome State Fault Refusal := next (s.fetch p)

/-! TILE_BEGIN (R36): accepted for the fetched entry, inside its granted slot. -/

/-- The correction of slot 63 of the stride in force: the one it has taken, or is to take (R77, R79). -/
def Timer.fix (t : Timer) : Int := if t.slot63Decided then t.taken else if t.noCorrection then 0 else t.correction

/-- The stride in force, in FCLK: its nominal length and the correction of its slot 63 (R70, R77). -/
def State.strideLen (s : State) : Nat := ((strideFclk s.timer.strideCode : Int) + s.timer.fix).toNat

/-- The slot that the timer is in: slot 63 lasts to the boundary (R72, R77). -/
def State.slotNow (s : State) : Nat := min 63 (s.timer.fclk.toNat / slotFclk s.timer.strideCode)

/-- The end of the boundary work of the stride in force (R72). -/
def Timer.work (t : Timer) : Nat := if t.swapStride then 4096 else 256

/-- The timer is inside the slot decided last, past the boundary work, and a tile of a budget ends before the next boundary
(R20, R36, R72). -/
def State.slotOpen (s : State) (budget : Nat) : Bool :=
  !s.timer.decided ∧ s.slotNow = s.timer.slot ∧ s.timer.work ≤ s.timer.fclk.toNat ∧
    s.timer.fclk.toNat + budget ≤ s.strideLen

/-- The core accepts ENG_TILE_BEGIN with this index. -/
def State.beginOk (s : State) (p : Nat) (index : BitVec 32) : Bool :=
  let e := s.engine p
  s.engineUp p ∧ e.begun = none ∧ !e.preemptReq ∧ !e.switching ∧
    (e.fetched.map fun t => t.tile == index.toNat && s.slotOpen t.budget) = some true

/-- What placement remembers of a tile (R185). -/
def State.lastTile (s : State) (e : TileEntry) : LastTile :=
  { hall := e.hall, hallGen := e.hallGen, context := e.context, queue := e.local_,
    queueGen := (s.queue e.hall e.local_).gen, seq := e.seq, fallback := ((s.invOf e).map Invocation.fallback).getD false }

def State.tileBegin (s : State) (p : Nat) (index : BitVec 32) : State :=
  match (s.engine p).fetched with
  | none => s
  | some e =>
    if s.beginOk p index then
      let t := s.modEngine p fun x =>
        { x with fetched := none, begun := some e, overstay := false, counted := s.slotNow, last := some (s.lastTile e) }
      let t := match t.invOf e with
        | some v => t.modQueue e.hall e.local_ fun x =>
            { x with inv := some (v.modTile e.tile fun y => { y with phase := .begun p, complete := false }) }
        | none => t
      (t.countHall e.hall fun c => { c with slots := c.slots + 1 }).emit (.beginReady p e.tile)
    else s

def execTileBegin (p : Fin 256) (index : BitVec 32) (s : State) : Host.Outcome State Fault Refusal :=
  next (s.tileBegin p index)

/-! TILE_END (R37) -/

/-- The status that a tile-end code means (R37). -/
def tileEndStatus (code : Byte) (offset : BitVec 32) : Status × BitVec 32 :=
  if code = Status.ok.code then (.ok, 0)
  else if code = Status.faultedTile.code then (.faultedTile, offset)
  else if code = Status.preempted.code then (.preempted, 0)
  else (.faultedTile, 0)

/-- The begun tile of a port counts the slots of this stride that it has been in, up to slot `k` (R144). -/
def State.countSlots (s : State) (p k : Nat) : State :=
  match (s.engine p).begun with
  | none => s
  | some e =>
    (s.countHall e.hall fun c => { c with slots := c.slots + (k - (s.engine p).counted) }).modEngine p fun x =>
      { x with counted := max x.counted k }

/-- The begun tile of a port ends with a status, by its engine or by the core. -/
def State.endBegun (s : State) (p : Nat) (st : Status) (offset : BitVec 32) : State :=
  match (s.engine p).begun with
  | none => s
  | some e =>
    let t := s.countSlots p s.slotNow
    (t.modEngine p fun x => { x with begun := none, overstay := false, redWait := none, fences := [] }).tileResult p e st
      offset

def State.tileEnd (s : State) (p : Nat) (status : Byte) (offset : BitVec 32) : State :=
  let e := s.engine p
  if e.begun.isSome ∧ e.dmas = [] ∧ e.fences = [] then
    (s.emit (.endReady p)).endBegun p (tileEndStatus status offset).1 (tileEndStatus status offset).2
  else s

def execTileEnd (p : Fin 256) (status : Byte) (offset : BitVec 32) (s : State) :
    Host.Outcome State Fault Refusal := next (s.tileEnd p status offset)

/-! Fencing an engine port (R38, R48, R377): its requests retire and its tile ends with a status. -/

/-- The hall of a port: that of its begun tile, else its assignment, else its owner in the plan. -/
def State.portHall (s : State) (p : Nat) : Option Nat :=
  let e := s.engine p
  let owner := match s.act.owner p with
    | .hall h => some h
    | _ => none
  ((e.begun.map TileEntry.hall).or (e.hall.map Prod.fst)).or owner

def State.fenceEngine (s : State) (p : Nat) (cause : BitVec 4) (st : Status) : State :=
  if s.inService 3 p then
    let t := s.beginFence 3 p cause (s.portHall p) (if (s.engine p).begun.isSome then st.code else 0)
    let t := t.cutWhere p .retired (fun _ => true)
    let t := (t.clearGrants p).endBegun p st 0
    t.modEngine p fun x => { x with preemptReq := false, switching := false, queue := [] }
  else s.beginFence 3 p cause none

/-- The tile is in a wait that does not count toward its budget: a request stalls on a translation, or a transfer waits at
ENG_RED_READY (R20, R203, R339). -/
def Engine.stalled (e : Engine) : Bool := (e.dmas.any fun d => d.wait = .translation) || e.redWait.isSome

def State.overrun (s : State) (p : Nat) : State :=
  if s.engineUp p ∧ (s.engine p).begun.isSome ∧ !(s.engine p).stalled then
    s.fenceEngine p Cause.overrun .faultedTile
  else s

def execEngOverrun (p : Fin 256) (s : State) : Host.Outcome State Fault Refusal := next (s.overrun p)

/-! Pre-emption (R46 to R48) -/

/-- Raise ENG_PREEMPT_REQ on a port; after the switch it serves `nxt`. Grants not begun return to ready. -/
def State.preempt (s : State) (p : Nat) (nxt : Option Nat) : State :=
  if s.engineUp p then
    let t := s.clearGrants p
    if (t.engine p).preemptReq then t.modEngine p fun x => { x with nextHall := nxt }
    else (t.modEngine p fun x => { x with preemptReq := true, nextHall := nxt }).emit (.preempt p true)
  else s.modEngine p fun x => { x with nextHall := nxt }

/-- PREEMPT_ACK: taken only while ENG_PREEMPT_REQ is high and no tile is begun (R46, log entry 18). -/
def State.preemptAck (s : State) (p : Nat) : State :=
  let e := s.engine p
  if e.preemptReq ∧ e.begun = none then
    ((s.abandonFetched p).modEngine p fun x => { x with preemptReq := false, switching := true }).emit (.preempt p false)
  else s

def execPreemptAck (p : Fin 256) (s : State) : Host.Outcome State Fault Refusal := next (s.preemptAck p)

/-- The port takes up the hall that it serves next. -/
def State.assign (s : State) (p : Nat) (h : Option Nat) : State :=
  s.modEngine p fun x => { x with hall := h.map fun h => (h, (s.hall h).gen), nextHall := none }

def State.switchDone (s : State) (p : Nat) : State :=
  if (s.engine p).switching then
    (s.modEngine p fun x => { x with switching := false }).assign p (s.engine p).nextHall
  else s

def execContextSwitchDone (p : Fin 256) (s : State) : Host.Outcome State Fault Refusal := next (s.switchDone p)

/-- PREEMPT_REMOTE_TIMEOUT: the tile's remote-window requests and stalled host-page requests complete RETIRED, and a
reduction transfer that waits is discarded (R47, R203, R339). -/
def State.remoteTimeout (s : State) (p : Nat) : State :=
  if (s.engine p).preemptReq then
    (s.cutWhere p .retired fun d => d.kind = 2 ∨ (d.kind = 1 ∧ d.wait = .translation)).modEngine p fun x =>
      { x with redWait := none }
  else s

def execPreemptRemoteTimeout (p : Fin 256) (s : State) : Host.Outcome State Fault Refusal := next (s.remoteTimeout p)

def State.noAck (s : State) (p : Nat) : State :=
  if (s.engine p).preemptReq then s.fenceEngine p Cause.noAck .preempted else s

def execEngNoAck (p : Fin 256) (s : State) : Host.Outcome State Fault Refusal := next (s.noAck p)

/-! Fence transfers (R36, R40, R44) -/

/-- What meets an engine transfer before its own checks: RETIRED for an old hall_gen (R40), REFUSED with ENG_PROTOCOL
where no tile is begun (R36). -/
inductive Gate where
  | retired | noTile | tile (e : TileEntry)
deriving DecidableEq, Repr

/-- Test a transfer of a port with a hall_gen. -/
def State.gate (s : State) (p : Nat) (gen : Gen) : Gate :=
  match (s.engine p).begun, (s.engine p).hall with
  | some e, _ => if e.hallGen = gen ∧ (s.hall e.hall).gen = gen then .tile e else .retired
  | none, some (h, g) => if g = gen ∧ (s.hall h).gen = gen then .noTile else .retired
  | none, none => .noTile

/-- ENG_PROTOCOL against a port's hall (R36, R45). -/
def State.engProtocol (s : State) (p : Nat) : State :=
  s.raise Ev.engProtocol { unit := unitId 3 p, hall := s.portHall p, status := Status.refused.code }

/-- A fence transfer waits until every write that the port issued before it has its response (R44). -/
def Engine.writesPending (e : Engine) : Bool := e.dmas.any fun d => d.write

/-- SIGNAL: the named fence of the port's hall takes the value. Reserved kinds and a set reserved bit are REFUSED.
`fenceUe`: the fence's word had an uncorrectable error (R384). -/
def State.signalNow (s : State) (p : Nat) (e : TileEntry) (f : FenceXfer) (fenceUe : Bool) : State :=
  if f.kind = 0 ∧ f.reserved = 0 then
    let t := s.setFence e.hall f.fence f.value
    if fenceUe then t.sramUeHall e.hall 0xFFFF (some (.fence f.fence)) else t
  else s.emit (.fenceRefused p)

/-- A tile of the invocation, of its own or of the primary that its fall-back replaced, is begun on port `p`: its results are
written (R171, R192). -/
def Invocation.completeTile (v : Invocation) (i p : Nat) : Invocation :=
  if (v.tile i).phase = .begun p then v.modTile i fun y => { y with complete := true }
  else if (Tab.get ({} : Tile) v.old i).phase = .begun p then
    { v with old := v.old.mod {} i fun y => { y with complete := true } }
  else v

/-- COMPLETE: the begun tile's results are written (R171). -/
def State.completeNow (s : State) (p : Nat) (e : TileEntry) (f : FenceXfer) : State :=
  if f.reserved = 0 ∧ f.fence = 0 ∧ f.value = 0 then
    match s.invOf e with
    | some v => s.modQueue e.hall e.local_ fun x => { x with inv := some (v.completeTile e.tile p) }
    | none => s
  else s.emit (.fenceRefused p)

/-- A fence transfer takes effect. One has no response, so one that is refused or retired shows only as `fenceRefused`. -/
def State.fenceNow (s : State) (p : Nat) (data : BitVec 96) (fenceUe : Bool) : State :=
  let f := parseFence data
  match s.gate p f.hallGen with
  | .retired => s.emit (.fenceRefused p)
  | .noTile => (s.emit (.fenceRefused p)).engProtocol p
  | .tile e => if f.kind = 1 then s.completeNow p e f else s.signalNow p e f fenceUe

/-- A fence transfer arrives: it takes effect at once, or waits for the responses of the writes that the port issued before
it (R44). -/
def State.fenceTransfer (s : State) (p : Nat) (data : BitVec 96) (kindOk : Nat → Bool) (fenceUe : Bool) : State :=
  let f := parseFence data
  if !s.engineUp p ∨ !kindOk f.kind then s
  else
    match s.gate p f.hallGen with
    | .tile _ =>
      if (s.engine p).writesPending ∨ (s.engine p).fences ≠ [] then
        s.modEngine p fun x => { x with fences := x.fences ++
          [{ data := data, fenceUe := fenceUe, tags := (x.dmas.filter Dma.write).map Dma.tag }] }
      else s.fenceNow p data fenceUe
    | _ => s.fenceNow p data fenceUe

/-- The fence transfers of a port that wait for no write any more take effect, in order. -/
def servePortFences (p : Nat) : List FenceWait → State → State
  | [], s => s
  | w :: rest, s =>
    if w.tags = [] then
      servePortFences p rest (((s.modEngine p fun x => { x with fences := rest })).fenceNow p w.data w.fenceUe)
    else s

/-- The fence transfers whose writes have their responses take effect. -/
def State.serveFences (s : State) : State :=
  forEach (s.engines.filter fun e => e.2.fences ≠ []) (fun e t => servePortFences e.1 e.2.fences t) s

def State.engSignal (s : State) (p : Nat) (data : BitVec 96) (fenceUe : Bool) : State :=
  s.fenceTransfer p data (· ≠ 1) fenceUe

def execSignal (p : Fin 256) (data : BitVec 96) (fenceUe : Bool) (s : State) : Host.Outcome State Fault Refusal :=
  next (s.engSignal p data fenceUe)

def State.engComplete (s : State) (p : Nat) (data : BitVec 96) : State := s.fenceTransfer p data (· = 1) false

def execComplete (p : Fin 256) (data : BitVec 96) (s : State) : Host.Outcome State Fault Refusal :=
  next (s.engComplete p data)

end Sys2Proof.Machine
end

