-- ==== Sys2Proof/Machine/Aes.lean ====
section
/-! DEFINITION. AES-256 as FIPS 197 defines it, which the spec names (R221): the cipher, its state after the AddRoundKey of
round 7 (R223), and its inverse (R227). A block's byte k is bits [8k+7 : 8k], as R221 forms it, and so is a key's. The tables
and the constants are the standard's own (log entry 5). -/

namespace Sys2Proof.Machine

/-! ### Bytes -/

/-- Entry `b` of a byte table whose row of sixteen is one number, its lowest byte first. -/
def tableByte (t : List Nat) (b : Byte) : Byte := BitVec.ofNat 8 (t.getD (b.toNat / 16) 0 >>> (8 * (b.toNat % 16)))

/-- The rows of the S-box. -/
def sboxRows : List Nat :=
  [0x76ABD7FE2B670130C56F6BF27B777C63, 0xC072A49CAFA2D4ADF04759FA7DC982CA,
   0x1531D871F1E5A534CCF73F362693FDB7, 0x75B227EBE28012079A059618C323C704,
   0x842FE329B3D63B52A05A6E1B1A2C8309, 0xCF584C4A39BECB6A5BB1FC20ED00D153,
   0xA89F3C507F02F94585334D43FBAAEFD0, 0xD2F3FF1021DAB6BCF5389D928F40A351,
   0x73195D643D7EA7C41744975FEC130CCD, 0xDB0B5EDE14B8EE4688902A22DC4F8160,
   0x79E4959162ACD3C25C2406490A3A32E0, 0x08AE7A65EAF4566CA94ED58D6D37C8E7,
   0x8A8BBD4B1F74DDE8C6B4A61C2E2578BA, 0x9E1DC186B95735610EF6034866B53E70,
   0xDF2855CEE9871E9B948ED9691198F8E1, 0x16BB54B00F2D99416842E6BF0D89A18C]

/-- The rows of the inverse S-box. -/
def invSboxRows : List Nat :=
  [0xFBD7F3819EA340BF38A53630D56A0952, 0xCBE9DEC444438E3487FF2F9B8239E37C,
   0x4EC3FA420B954CEE3D23C2A632947B54, 0x25D18B6D49A25B76B224D92866A12E08,
   0x92B6655DCC5CA4D41698688664F6F872, 0x849D8DA75746155EDAB9EDFD5048706C,
   0x0645B3B80558E4F70AD3BC8C00ABD890, 0x6B8A130103BDAFC1020F3FCA8F1E2CD0,
   0x73E6B4F0CECFF297EADC674F4111913A, 0x6EDF751CE837F9E28535ADE72274AC96,
   0x1BBE18AA0E62B76F89C5291D711AF147, 0xF45ACD78FEC0DB9A2079D2C64B3E56FC,
   0x5FEC8027591012B131C7078833A8DD1F, 0xEF9CC9939F7AE52D0D4AB519A97F5160,
   0x619953833CBBEBC8B0F52AAE4D3BE0A0, 0x7D0C2155631469E126D677BA7E042B17]

def sbox (b : Byte) : Byte := tableByte sboxRows b

def invSbox (b : Byte) : Byte := tableByte invSboxRows b

/-- Multiplication by x in GF(2^8) with x^8 + x^4 + x^3 + x + 1. -/
def xtime (b : Byte) : Byte := if b.msb then (b <<< 1) ^^^ 0x1B else b <<< 1

/-- Multiplication by the polynomial whose coefficients are the low four bits of `c`. -/
def aesMul (c : Nat) (b : Byte) : Byte :=
  let b2 := xtime b
  let b4 := xtime b2
  (if c.testBit 0 then b else 0) ^^^ (if c.testBit 1 then b2 else 0) ^^^ (if c.testBit 2 then b4 else 0) ^^^
    (if c.testBit 3 then xtime b4 else 0)

/-! ### The round's steps, on the sixteen bytes of the state -/

/-- XOR of two byte lists, as long as the shorter. -/
def xorBytes (a b : List Byte) : List Byte := a.zipWith (· ^^^ ·) b

/-- Byte r + 4c of the state moves r columns to the left. -/
def shiftRows (s : List Byte) : List Byte := (List.range 16).map fun k => s.getD (k % 4 + 4 * ((k / 4 + k % 4) % 4)) 0

def invShiftRows (s : List Byte) : List Byte :=
  (List.range 16).map fun k => s.getD (k % 4 + 4 * ((k / 4 + 4 - k % 4) % 4)) 0

/-- Multiply each column by the circulant matrix whose first row is given. -/
def mixBy (row : List Nat) (s : List Byte) : List Byte :=
  (List.range 16).map fun k =>
    ((List.range 4).map fun i => aesMul (row.getD ((i + 4 - k % 4) % 4) 0) (s.getD (k / 4 * 4 + i) 0)).foldl (· ^^^ ·) 0

def mixColumns (s : List Byte) : List Byte := mixBy [2, 3, 1, 1] s

def invMixColumns (s : List Byte) : List Byte := mixBy [14, 11, 13, 9] s

/-! ### The key schedule -/

/-- The words of the schedule that follow eight of them, with the round constant. -/
def nextWords (rc : Byte) (w : List (List Byte)) : List (List Byte) :=
  let at_ (i : Nat) : List Byte := w.getD i []
  let rot (x : List Byte) : List Byte := x.drop 1 ++ x.take 1
  let a := xorBytes (at_ 0) (xorBytes ((rot (at_ 7)).map sbox) [rc, 0, 0, 0])
  let b := xorBytes (at_ 1) a
  let c := xorBytes (at_ 2) b
  let d := xorBytes (at_ 3) c
  let e := xorBytes (at_ 4) (d.map sbox)
  let f := xorBytes (at_ 5) e
  let g := xorBytes (at_ 6) f
  [a, b, c, d, e, f, g, xorBytes (at_ 7) g]

/-- The words of `n` further steps of the schedule. -/
def scheduleFrom : Nat → Byte → List (List Byte) → List (List Byte)
  | 0, _, w => w
  | n + 1, rc, w => w ++ scheduleFrom n (xtime rc) (nextWords rc w)

/-- The fifteen round keys. -/
def roundKeys (key : BitVec 256) : List (List Byte) :=
  let words := scheduleFrom 7 1 ((List.range 8).map fun i => slice (bytesOf key) (4 * i) 4)
  (List.range 15).map fun r => (slice' words (4 * r) 4).flatten
where
  slice' (l : List (List Byte)) (off n : Nat) : List (List Byte) := (l.drop off).take n

/-! ### The cipher -/

/-- One full round: SubBytes, ShiftRows, MixColumns, AddRoundKey. -/
def aesRound (s k : List Byte) : List Byte := xorBytes (mixColumns (shiftRows (s.map sbox))) k

/-- The state after the AddRoundKey of round `n`, of the full rounds. -/
def aesAfter (ks : List (List Byte)) (n : Nat) (s : List Byte) : List Byte :=
  ((ks.drop 1).take n).foldl aesRound (xorBytes s (ks.getD 0 []))

/-- The AES-256 cipher on the sixteen bytes of a block. -/
def aesBytes (key : BitVec 256) (s : List Byte) : List Byte :=
  let ks := roundKeys key
  xorBytes (shiftRows ((aesAfter ks 13 s).map sbox)) (ks.getD 14 [])

/-- One full round undone. -/
def aesUnround (s k : List Byte) : List Byte := (invShiftRows (invMixColumns (xorBytes s k))).map invSbox

/-- The inverse cipher. -/
def aesInvBytes (key : BitVec 256) (s : List Byte) : List Byte :=
  let ks := roundKeys key
  let last := (invShiftRows (xorBytes s (ks.getD 14 []))).map invSbox
  xorBytes (((ks.drop 1).take 13).reverse.foldl aesUnround last) (ks.getD 0 [])

/-- A block of sixteen bytes as a number's bits. -/
def blockOfBytes (b : List Byte) : BitVec 128 := BitVec.ofNat 128 (leNat b)

/-- AES-256 of one block (R221). -/
def aes256 (key : BitVec 256) (x : BitVec 128) : BitVec 128 := blockOfBytes (aesBytes key (bytesOf x))

/-- The state after the AddRoundKey of round 7, while the block is encrypted (R223). -/
def aesRound7 (key : BitVec 256) (x : BitVec 128) : BitVec 128 := blockOfBytes (aesAfter (roundKeys key) 7 (bytesOf x))

/-- The inverse of AES-256 for the same key, which opens a veiled line (R227). -/
def aes256Inv (key : BitVec 256) (x : BitVec 128) : BitVec 128 := blockOfBytes (aesInvBytes key (bytesOf x))

end Sys2Proof.Machine
end

