-- ==== Sys2Proof/Machine/RedArith.lean ====
section
/-! DEFINITION. Reduction arithmetic: binary32 addition (R341), the formats and their conversion to FP32 (R332 to R335),
compensated relay (R344), the tree of partial mode (R338) and narrowing (R346 to R349). A finite FP32 magnitude is held
as a number of units of 2^−149. -/

namespace Sys2Proof.Machine

abbrev F32 := BitVec 32

/-- The canonical NaN. -/
def nan32 : F32 := 0x7FC00000

/-- Positive infinity. -/
def inf32 : F32 := 0x7F800000

/-- −0. -/
def negZero : F32 := 0x80000000

def fSign (x : F32) : Bool := bit x 31
def fExp (x : F32) : Nat := bits x 30 23
def fMan (x : F32) : Nat := bits x 22 0
def fIsNaN (x : F32) : Bool := fExp x = 255 ∧ fMan x ≠ 0
def fIsInf (x : F32) : Bool := fExp x = 255 ∧ fMan x = 0
def fFinite (x : F32) : Bool := fExp x ≠ 255

/-- The magnitude of a finite value in units of 2^−149. -/
def fMag (x : F32) : Nat := if fExp x = 0 then fMan x else (fMan x + 2 ^ 23) * 2 ^ (fExp x - 1)

/-- The value of a finite FP32 in units of 2^−149. -/
def fVal (x : F32) : Int := if fSign x then -(fMag x : Int) else fMag x

/-- A sign on a magnitude's bits. -/
def withSign (neg : Bool) (m : Nat) : F32 := BitVec.ofNat 32 (m + if neg then 2 ^ 31 else 0)

/-- `n / 2^sh` rounded to nearest, ties to even. -/
def rneShift (n sh : Nat) : Nat :=
  let q := n / 2 ^ sh
  let r := n % 2 ^ sh
  if 2 ^ sh < 2 * r ∨ (2 * r = 2 ^ sh ∧ q % 2 = 1) then q + 1 else q

/-- A magnitude in units of 2^−149 rounded to binary32, nearest-even; beyond the range it is infinite. -/
def roundMag (neg : Bool) (n : Nat) : F32 :=
  let sh := Nat.log2 n - 23
  withSign neg (min (sh * 2 ^ 23 + rneShift n sh) inf32.toNat)

/-- Any NaN becomes the canonical one. -/
def canon (x : F32) : F32 := if fIsNaN x then nan32 else x

/-- Binary32 addition, round to nearest even (R341). -/
def fAdd (a b : F32) : F32 :=
  if fIsNaN a ∨ fIsNaN b then nan32
  else if fIsInf a then (if fIsInf b ∧ fSign a ≠ fSign b then nan32 else a)
  else if fIsInf b then b
  else
    let v := fVal a + fVal b
    if v = 0 then (if fSign a ∧ fSign b then negZero else 0)
    else roundMag (v < 0) v.natAbs

/-- Binary32 subtraction: the addition of the negated value. -/
def fSub (a b : F32) : F32 := fAdd a (b ^^^ negZero)

/-! ### Compensated relay and the tree (R338, R344) -/

/-- One element, one hop of compensated relay. -/
def twoSum (s e x : F32) : F32 × F32 :=
  let s1 := fAdd s x
  let bb := fSub s1 s
  let t := fAdd (fSub s (fSub s1 bb)) (fSub x bb)
  (s1, fAdd e (if fFinite s1 then t else 0))

/-- The eight leaves of one element in the tree's order. -/
def treeSum (l : Nat → F32) : F32 :=
  fAdd (fAdd (fAdd (l 0) (l 1)) (fAdd (l 2) (l 3))) (fAdd (fAdd (l 4) (l 5)) (fAdd (l 6) (l 7)))

/-! ### Formats (R332) -/

/-- What an element code of a format means. -/
structure ElemFmt where
  width : Nat                          -- bits of an element
  man : Nat                            -- mantissa bits
  bias : Nat
  top : Nat                            -- largest finite magnitude code
  infCode : Option Nat                 -- code of infinity
  nanCode : Option Nat                 -- code that a NaN narrows to
deriving DecidableEq, Repr

/-- The element format of a code. -/
def elemFmt : Nat → ElemFmt
  | 1 => ⟨16, 7, 127, 0x7F7F, some 0x7F80, some 0x7FC0⟩
  | 2 => ⟨16, 10, 15, 0x7BFF, some 0x7C00, some 0x7E00⟩
  | 3 | 5 => ⟨8, 3, 7, 0x7E, none, some 0x7F⟩
  | 4 | 6 => ⟨8, 2, 15, 0x7B, some 0x7C, some 0x7E⟩
  | 7 => ⟨6, 2, 3, 0x1F, none, none⟩
  | 8 => ⟨6, 3, 1, 0x1F, none, none⟩
  | 9 => ⟨4, 1, 1, 0x7, none, none⟩
  | _ => ⟨32, 23, 127, 0x7F7FFFFF, some 0x7F800000, some 0x7FC00000⟩

/-- A Microscaling format. -/
def isMx (c : Nat) : Bool := 5 ≤ c && c ≤ 9

/-- Bytes of a block image. -/
def imageBytes (c : Nat) : Nat := 1 + 4 * (elemFmt c).width

/-- Bytes of a region of `n` elements (R335). -/
def regionBytes (c n : Nat) : Nat :=
  if c = 0xA then 8 * n else if isMx c then ceilDiv n 32 * imageBytes c else n * (elemFmt c).width / 8

/-- The formats that a COLL may name. -/
def collFormat (c : Nat) : Bool := c ≤ 9

/-- The formats of upper flights. -/
def upperFormat (c : Nat) : Bool := c == 1 || (5 ≤ c && c ≤ 8)

/-! ### Conversion to FP32 (R334) -/

/-- An element code at a scale exponent as FP32. -/
def decodeCode (f : ElemFmt) (scale : Int) (code : Nat) : F32 :=
  let neg := code.testBit (f.width - 1)
  let m := code % 2 ^ (f.width - 1)
  if f.top < m then
    if f.infCode = some m then withSign neg inf32.toNat else nan32
  else
    let e := m / 2 ^ f.man
    let k := if e = 0 then m % 2 ^ f.man else m % 2 ^ f.man + 2 ^ f.man
    let x : Int := (max e 1 : Int) - f.bias - f.man + scale + 149
    if k = 0 then withSign neg 0
    else roundMag neg (if 0 ≤ x then k * 2 ^ x.toNat else k / 2 ^ (-x).toNat)

/-- Element `i` of a region's bytes as FP32. -/
def elemAt (c : Nat) (b : List Byte) (i : Nat) : F32 :=
  let f := elemFmt c
  if isMx c then
    let at_ := i / 32 * imageBytes c
    let scale := leAt b at_ 1
    if scale = 255 then nan32
    else decodeCode f (scale - 127) (leAt b (at_ + 1) (4 * f.width) / 2 ^ (f.width * (i % 32)) % 2 ^ f.width)
  else if c = 0 then canon (BitVec.ofNat 32 (leAt b (4 * i) 4))
  else decodeCode f 0 (leAt b (i * f.width / 8) (f.width / 8))

/-- Elements `first` to `first + n − 1` of a region's bytes. -/
def decodeElems (c : Nat) (b : List Byte) (first n : Nat) : List F32 := (List.range n).map fun i => elemAt c b (first + i)

/-! ### Narrowing (R345 to R349) -/

/-- A random number for the element at an offset, or none for nearest-even. -/
abbrev Rounder := Nat → Option Nat

/-- `n / 2^sh` rounded nearest-even, or with a 16-bit random number (R348). -/
def roundShift (n sh : Nat) (r : Option Nat) : Nat :=
  match r with
  | none => rneShift n sh
  | some x => if 65536 ≤ n % 2 ^ sh * 65536 / 2 ^ sh + x then n / 2 ^ sh + 1 else n / 2 ^ sh

/-- The magnitude code of a finite magnitude (units of 2^−149) at a scale exponent, unbounded above. -/
def magCode (f : ElemFmt) (scale : Int) (n : Nat) (r : Option Nat) : Nat :=
  let q : Int := 1 - f.bias - f.man + 149 + scale
  let m := n * 2 ^ (-q).toNat
  let low := q.toNat
  let sh := max (Nat.log2 m - f.man) low
  (sh - low) * 2 ^ f.man + roundShift m sh r

/-- Narrow one FP32 value into a format that is not an MX one (R346). -/
def narrow (f : ElemFmt) (x : F32) (r : Option Nat) : Nat :=
  let s := if fSign x then 2 ^ (f.width - 1) else 0
  if fIsNaN x then f.nanCode.getD 0
  else if fIsInf x then
    match f.infCode with
    | some c => s + c
    | none => f.nanCode.getD 0
  else
    let c := magCode f 0 (fMag x) r
    if c ≤ f.top then s + c else s + f.infCode.getD f.top

/-- The exponent of an element format's largest magnitude, m of R347. -/
def mxEmax (c : Nat) : Int := if c = 5 then 8 else if c = 6 then 15 else if c = 7 then 4 else 2

/-- The image of a block of at most 32 values (R335, R347). -/
def mxImage (c : Nat) (xs : List F32) (r : Nat → Option Nat) : List Byte :=
  let f := elemFmt c
  if xs.any fun x => !fFinite x then 0xFF :: List.replicate (4 * f.width) 0
  else
    let a := (xs.map fMag).foldl max 0
    let e : Int := if a = 0 then -127 else max (-127) (min 127 ((Nat.log2 a : Int) - 149 - mxEmax c))
    let code (x : F32) (i : Nat) : Nat :=
      min f.top (magCode f e (fMag x) (r i)) + if fSign x then 2 ^ (f.width - 1) else 0
    let packed := ((xs.zip (List.range xs.length)).map fun z => code z.1 z.2 * 2 ^ (f.width * z.2)).sum
    BitVec.ofNat 8 (e + 127).toNat :: leBytes (4 * f.width) packed

/-- The bytes of a list of values in a format, blocked from its first element. -/
def encodeElems (c : Nat) (xs : List F32) (r : Rounder) : List Byte :=
  if c = 0 then xs.flatMap fun x => leBytes 4 x.toNat
  else if isMx c then
    (List.range (ceilDiv xs.length 32)).flatMap fun j => mxImage c ((xs.drop (32 * j)).take 32) fun i => r (32 * j + i)
  else (xs.zip (List.range xs.length)).flatMap fun z => leBytes ((elemFmt c).width / 8) (narrow (elemFmt c) z.1 (r z.2))

/-- The bytes of FP32 pairs: sum word, then error word. -/
def encodePairs (s e : List F32) : List Byte := (s.zip e).flatMap fun z => leBytes 4 z.1.toNat ++ leBytes 4 z.2.toNat

/-- Nearest-even at every element. -/
def nearest : Rounder := fun _ => none

/-- The random numbers of a rounding event (R349). -/
def stochastic (key : BitVec 256) (hop : Nat) (final : Bool) (flight first : Nat) (step : Word) : Rounder := fun o =>
  let ctr := step.toNat + first % 2 ^ 40 * 2 ^ 64 + o / 16 % 256 * 2 ^ 104 + o % 16 / 8 * 2 ^ 112 + flight % 4 * 2 ^ 113 +
    (if final then 2 ^ 115 else 0) + hop % 64 * 2 ^ 116
  some (bits (aes256 key (BitVec.ofNat 128 ctr)) (16 * (o % 8) + 15) (16 * (o % 8)))

end Sys2Proof.Machine
end

