-- ==== Sys2Proof/Machine/Gcm.lean ====
section
/-! DEFINITION. AES-256-GCM as NIST SP 800-38D defines it for a 96-bit IV and a 128-bit tag, and AES-256 key wrap as NIST SP
800-38F does (KW), which the spec names (R261, R272, R283, R298). Byte strings stand in the standards' own order (R4). -/

namespace Sys2Proof.Machine

/-- One doubling of GHASH's field, whose blocks are read with their first bit as the coefficient of x^0. -/
def ghashHalf (v : Nat) : Nat := if v.testBit 0 then (v / 2) ^^^ (0xE1 * 2 ^ 120) else v / 2

/-- The product of two blocks, given as big-endian numbers. -/
def ghashMul (x y : Nat) : Nat :=
  ((List.range 128).foldl (fun (a : Nat × Nat) i => (if x.testBit (127 - i) then a.1 ^^^ a.2 else a.1, ghashHalf a.2)) (0, y)).1

/-- Bytes filled with zeros to a whole number of sixteens. -/
def padBlocks (b : List Byte) : List Byte := b ++ List.replicate ((16 - b.length % 16) % 16) 0

/-- GHASH of a byte string of whole blocks. -/
def ghash (h : Nat) (b : List Byte) : Nat :=
  (List.range (b.length / 16)).foldl (fun y i => ghashMul (y ^^^ beNat (slice b (16 * i) 16)) h) 0

/-- The counter block of an IV. -/
def gcmCounter (iv : List Byte) (n : Nat) : List Byte := iv ++ beBytes 4 n

/-- The key stream of GCM's counter mode over `n` bytes, from counter 2 on. -/
def gcmStream (key : BitVec 256) (iv : List Byte) (n : Nat) : List Byte :=
  ((List.range (ceilDiv n 16)).flatMap fun i => aesBytes key (gcmCounter iv (i + 2))).take n

/-- Counter mode on a text: its own inverse. -/
def gcmCtr (key : BitVec 256) (iv text : List Byte) : List Byte := xorBytes text (gcmStream key iv text.length)

/-- The tag of a ciphertext and its additional data. -/
def gcmTag (key : BitVec 256) (iv aad cipher : List Byte) : List Byte :=
  let h := beNat (aesBytes key (List.replicate 16 0))
  let s := ghash h (padBlocks aad ++ padBlocks cipher ++ beBytes 8 (8 * aad.length) ++ beBytes 8 (8 * cipher.length))
  xorBytes (aesBytes key (gcmCounter iv 1)) (beBytes 16 s)

/-- Seal a text: its ciphertext and its 16-byte tag. -/
def gcmSeal (key : BitVec 256) (iv aad text : List Byte) : List Byte × List Byte :=
  (gcmCtr key iv text, gcmTag key iv aad (gcmCtr key iv text))

/-- Open a ciphertext: its text where the tag verifies. -/
def gcmOpen (key : BitVec 256) (iv aad cipher tag : List Byte) : Option (List Byte) :=
  if gcmTag key iv aad cipher = tag then some (gcmCtr key iv cipher) else none

/-! ### Key wrap -/

/-- One step of the wrap: the integrity register, the semiblocks, and the step's number and place. -/
def kwStep (key : BitVec 256) (a : List Byte × List (List Byte)) (t : Nat) (i : Nat) : List Byte × List (List Byte) :=
  let b := aesBytes key (a.1 ++ a.2.getD i [])
  (xorBytes (b.take 8) (beBytes 8 t), a.2.set i (b.drop 8))

/-- AES-256 key wrap of a 256-bit key: 40 bytes. -/
def keyWrap (key : BitVec 256) (k : BitVec 256) : List Byte :=
  let start : List Byte × List (List Byte) :=
    (List.replicate 8 0xA6, (List.range 4).map fun i => slice (bytesOf k) (8 * i) 8)
  let r := (List.range 24).foldl (fun a n => kwStep key a (n + 1) (n % 4)) start
  r.1 ++ r.2.flatten

/-- One step of the unwrap. -/
def kwUnstep (key : BitVec 256) (a : List Byte × List (List Byte)) (t : Nat) (i : Nat) : List Byte × List (List Byte) :=
  let b := aesInvBytes key (xorBytes a.1 (beBytes 8 t) ++ a.2.getD i [])
  (b.take 8, a.2.set i (b.drop 8))

/-- Unwrap 40 bytes: the key, where the integrity register comes out right. -/
def keyUnwrap (key : BitVec 256) (w : List Byte) : Option (BitVec 256) :=
  let start : List Byte × List (List Byte) := (w.take 8, (List.range 4).map fun i => slice w (8 * (i + 1)) 8)
  let r := ((List.range 24).reverse).foldl (fun a n => kwUnstep key a (n + 1) (n % 4)) start
  if r.1 = List.replicate 8 0xA6 then some (BitVec.ofNat 256 (leNat r.2.flatten)) else none

end Sys2Proof.Machine
end

