-- ==== Sys2Proof/Machine/LineCode.lean ====
section
/-! DEFINITION. The formats of a memory line: the 256-bit code (R219, R220), slot key material (R221), sealed lines (R222,
R223), veiled lines (R227), counter blocks and nodes (R228, R229) and poison lines (R245). -/

namespace Sys2Proof.Machine

/-! ### The 256-bit code (R220) -/

/-- Multiplication by α = 0x02 in GF(2^8) with x^8 + x^4 + x^3 + x^2 + 1. -/
def gf8Double (b : Byte) : Byte := if b.msb then (b <<< 1) ^^^ 0x1D else b <<< 1

/-- Multiplication by α^j. -/
def gf8Alpha : Nat → Byte → Byte
  | 0, b => b
  | j + 1, b => gf8Alpha j (gf8Double b)

/-- Check symbols (r1, r0): the remainder of m(x)·x^2 by g(x) = x^2 + 0x03·x + 0x02, first symbol highest. -/
def rsCheck : List Byte → Byte × Byte → Byte × Byte
  | [], r => r
  | m :: rest, (r1, r0) =>
    let f := m ^^^ r1
    rsCheck rest (r0 ^^^ (gf8Double f ^^^ f), gf8Double f)

/-- The syndromes of a code word's symbols, first symbol highest: its values at 1 and at α. -/
def rsSyndromes (l : List Byte) : Byte × Byte :=
  l.foldl (fun a b => (a.1 ^^^ b, gf8Double a.2 ^^^ b)) (0, 0)

/-- The decoder: the corrected symbols and whether any was wrong, or none for an uncorrectable word. -/
def rsDecode (l : List Byte) : Option (List Byte × Bool) :=
  let (s0, s1) := rsSyndromes l
  if s0 = 0 ∧ s1 = 0 then some (l, false)
  else if s0 = 0 then none
  else
    match (List.range 36).find? fun j => gf8Alpha j s0 = s1 with
    | none => none
    | some j => some (l.set (35 - j) (l.getD (35 - j) 0 ^^^ s0), true)

/-- Byte `k` of a line. -/
def lineByte (d : Line) (k : Nat) : Byte := BitVec.ofNat 8 (byteField d k k)

/-- The message symbols of code word `w` (0 or 1) of a line with MAC halves in the side-band (R220). -/
def rsMessage (d : Line) (mac : BitVec 32) (w : Nat) : List Byte :=
  (List.range 32).map (fun k => lineByte d (32 * w + k)) ++
    [BitVec.ofNat 8 (bits mac (16 * w + 7) (16 * w)), BitVec.ofNat 8 (bits mac (16 * w + 15) (16 * w + 8))]

/-- The side-band of a line with its MAC field (R219): mac_hi, mac_lo, check1, check0. -/
def sideBand (d : Line) (mac : BitVec 32) : BitVec 64 :=
  let c0 := rsCheck (rsMessage d mac 0) (0, 0)
  let c1 := rsCheck (rsMessage d mac 1) (0, 0)
  BitVec.ofNat 64 (mac.toNat * 2 ^ 32 + c1.1.toNat * 2 ^ 24 + c1.2.toNat * 2 ^ 16 + c0.1.toNat * 2 ^ 8 + c0.2.toNat)

/-- A line after the decoder. -/
structure Decoded where
  data : Line
  mac : BitVec 32
  corrected : Bool
deriving DecidableEq, Repr

/-- Decode both code words of a raw line; none where a word is uncorrectable or the controller marks the line (R56,
R220). -/
def decodeLine (r : RawLine) : Option Decoded :=
  let mac : BitVec 32 := BitVec.ofNat 32 (bits r.sb 63 32)
  let chk (w : Nat) : List Byte :=
    [BitVec.ofNat 8 (bits r.sb (16 * w + 15) (16 * w + 8)), BitVec.ofNat 8 (bits r.sb (16 * w + 7) (16 * w))]
  if r.poison then none
  else
    match rsDecode (rsMessage r.data mac 0 ++ chk 0), rsDecode (rsMessage r.data mac 1 ++ chk 1) with
    | some (a, ca), some (b, cb) =>
      some { data := BitVec.ofNat 512 (leNat (a.take 32 ++ b.take 32)),
             mac := BitVec.ofNat 32 (leNat (slice a 32 2 ++ slice b 32 2)), corrected := ca || cb }
    | _, _ => none

/-! ### Key material (R221) -/

/-- The hash key H of a slot. -/
def hashKey (k2 : BitVec 256) : BitVec 64 :=
  BitVec.ofNat 64 (aes256 k2 (BitVec.ofNat 128 (0x05 * 2 ^ 120))).toNat ||| 1

/-- The tweak base L_s of a slot for set `s`. -/
def tweakBase (k2 : BitVec 256) (s : Nat) : BitVec 128 :=
  aes256 k2 (BitVec.ofNat 128 (0x06 * 2 ^ 120 + s * 2 ^ 112))

/-! ### Sealed lines (R222, R223) -/

/-- An AES input block of R222: type code, set, set line index, block number and low 64 bits. -/
def aesBlock (type set n b low : Nat) : BitVec 128 :=
  BitVec.ofNat 128 (type * 2 ^ 120 + set * 2 ^ 116 + n * 2 ^ 82 + b * 2 ^ 80 + low)

/-- Multiplication in GF(2^64) with x^64 + x^4 + x^3 + x + 1. -/
def gf64Mul (a b : BitVec 64) : BitVec 64 :=
  (List.range 64).foldr (fun i acc =>
    let d := if acc.msb then (acc <<< 1) ^^^ 0x1B else acc <<< 1
    if bit b i then d ^^^ a else d) 0

/-- The 64-bit word `i` of a line. -/
def lineWord (d : Line) (i : Nat) : BitVec 64 := BitVec.ofNat 64 (bits d (64 * i + 63) (64 * i))

/-- The hash h of R223 over a line's eight words. -/
def lineHash (hk : BitVec 64) (d : Line) : BitVec 64 :=
  (List.range 8).foldl (fun h i => gf64Mul (h ^^^ lineWord d i) hk) 0

/-- A MAC from a hash and a pad. -/
def macOf (h p : BitVec 64) : BitVec 32 := BitVec.ofNat 32 (h ^^^ p).toNat

/-- The keystream of a sealed line under a 63-bit counter. -/
def keystream (k1 : BitVec 256) (set n ctr : Nat) : Line :=
  BitVec.ofNat 512 (((List.range 4).map fun b =>
    (aes256 k1 (aesBlock 0x01 set n b ctr)).toNat * 2 ^ (128 * b)).sum)

/-- The MAC pad of a sealed line: bytes 7:0 of the round-7 state of keystream block 0. -/
def macPad (k1 : BitVec 256) (set n ctr : Nat) : BitVec 64 :=
  BitVec.ofNat 64 (aesRound7 k1 (aesBlock 0x01 set n 0 ctr)).toNat

/-- The MAC of a sealed line's ciphertext. -/
def sealedMac (k : Slot) (set n ctr : Nat) (c : Line) : BitVec 32 :=
  macOf (lineHash (hashKey k.k2) c) (macPad k.k1 set n ctr)

/-! ### Poison lines (R245) -/

/-- The data of a poison line. -/
def poisonData : Line := BitVec.ofNat 512 (((List.range 8).map fun i => 0xA5A5A5A5A5A5A5A5 * 2 ^ (64 * i)).sum)

/-- The MAC of a sealed poison line. -/
def poisonMac (k : Slot) (set n ctr : Nat) : BitVec 32 :=
  macOf (lineHash (hashKey k.k2) poisonData)
    (BitVec.ofNat 64 (aes256 k.k1 (aesBlock 0x04 set n 0 ctr)).toNat)

/-! ### Veiled lines (R227): XTS over the conventions of IEEE 1619 -/

/-- Multiplication by α in GF(2^128), little-endian, with x^128 + x^7 + x^2 + x + 1. -/
def xtsDouble (t : BitVec 128) : BitVec 128 := if t.msb then (t <<< 1) ^^^ 0x87 else t <<< 1

/-- Multiplication in GF(2^128). -/
def xtsMul (a b : BitVec 128) : BitVec 128 :=
  (List.range 128).foldr (fun i acc => if bit b i then xtsDouble acc ^^^ a else xtsDouble acc) 0

/-- α to a power, by squaring over the exponent's low 40 bits. -/
def xtsAlphaPow (e : Nat) : BitVec 128 :=
  (List.range 40).foldr (fun i acc =>
    let q := xtsMul acc acc
    if e.testBit i then xtsDouble q else q) 1

/-- The tweak T of block `b` of line `n`. -/
def xtsTweak (k : Slot) (set n b : Nat) : BitVec 128 := xtsMul (tweakBase k.k2 set) (xtsAlphaPow (4 * n + b))

/-- A veiled line with each block passed through `f`. -/
def veiledMap (f : BitVec 128 → BitVec 128) (k : Slot) (set n : Nat) (d : Line) : Line :=
  BitVec.ofNat 512 (((List.range 4).map fun b =>
    let t := xtsTweak k set n b
    (f (BitVec.ofNat 128 (bits d (128 * b + 127) (128 * b)) ^^^ t) ^^^ t).toNat * 2 ^ (128 * b)).sum)

/-- Encrypt a veiled line. -/
def veil (k : Slot) (set n : Nat) (d : Line) : Line := veiledMap (aes256 k.k1) k set n d

/-- Decrypt a veiled line. -/
def unveil (k : Slot) (set n : Nat) (d : Line) : Line := veiledMap (aes256Inv k.k1) k set n d

/-! ### Whole lines -/

/-- A data line as it goes to memory: sealed under a counter (R242), or veiled with the MAC field at zero. -/
def sealLine (k : Slot) (mode : SegMode) (set n ctr : Nat) (d : Line) : Line × BitVec 64 :=
  match mode with
  | .sealed =>
    let c := d ^^^ keystream k.k1 set n ctr
    (c, sideBand c (sealedMac k set n ctr c))
  | _ =>
    let c := veil k set n d
    (c, sideBand c 0)

/-- A poison line as it goes to memory (R245). -/
def poisonLine (k : Slot) (mode : SegMode) (set n ctr : Nat) : Line × BitVec 64 :=
  match mode with
  | .sealed => (poisonData, sideBand poisonData (poisonMac k set n ctr))
  | _ => (poisonData, sideBand poisonData 0xFFFFFFFF)

/-- What a read line holds (R241, R245, R247). -/
inductive LineRead where
  | plain (d : Line) (corrected : Bool)
  | poisoned                           -- a poison line
  | macFail                            -- sealed: the MAC does not verify
  | uncorrectable
deriving DecidableEq, Repr

/-- Open a line as read from memory. Poison data under any MAC but the poison MAC does not verify (R245). -/
def openLine (k : Slot) (mode : SegMode) (set n ctr : Nat) (r : RawLine) : LineRead :=
  match decodeLine r with
  | none => .uncorrectable
  | some x =>
    match mode with
    | .sealed =>
      if x.data = poisonData then if x.mac = poisonMac k set n ctr then .poisoned else .macFail
      else if x.mac = sealedMac k set n ctr x.data then .plain (x.data ^^^ keystream k.k1 set n ctr) x.corrected
      else .macFail
    | _ =>
      if x.data = poisonData ∧ x.mac = 0xFFFFFFFF then .poisoned
      else .plain (unveil k set n x.data) x.corrected

/-! ### Counter blocks and nodes (R228, R229) -/

/-- The major of a leaf counter block. -/
def leafMajor (b : Line) : Nat := bits b 55 0

/-- The minor of line `j` of a leaf counter block. -/
def leafMinor (b : Line) (j : Nat) : Nat := bits b (62 + 7 * j) (56 + 7 * j)

/-- The 63-bit counter of line `j`: major and minor (R224). -/
def leafCtr (b : Line) (j : Nat) : Nat := leafMajor b * 128 + leafMinor b j

/-- Replace bits [hi:lo] of a line. -/
def setBits (b : Line) (hi lo v : Nat) : Line :=
  BitVec.ofNat 512 (b.toNat - bits b hi lo * 2 ^ lo + (v % 2 ^ (hi + 1 - lo)) * 2 ^ lo)

/-- Set the minor of line `j`. -/
def setMinor (b : Line) (j m : Nat) : Line := setBits b (62 + 7 * j) (56 + 7 * j) m

/-- A leaf block after an overflow for line `j`: the next major, minor 1 for the line and 0 for every other (R225). -/
def overflowLeaf (b : Line) (j : Nat) : Line :=
  setMinor (BitVec.ofNat 512 ((leafMajor b + 1) % 2 ^ 56)) j 1

/-- The counter of child `i` of a node. -/
def nodeCtr (b : Line) (i : Nat) : Nat := bits b (64 * i + 63) (64 * i)

/-- Set the counter of child `i` of a node. -/
def setNodeCtr (b : Line) (i v : Nat) : Line := setBits b (64 * i + 63) (64 * i) v

/-- The counter value that marks a child as lost (R230). -/
def lostCtr : Nat := 0xFFFFFFFFFFFFFFFF

/-- The counter value that no write-back may reach (R226). -/
def ctrLimit : Nat := 0xFFFFFFFFFFFFFFF0

/-- The MAC of a leaf block or node at copy A's set line index under its parent's counter (R229). -/
def nodeMac (k : Slot) (set n parent : Nat) (b : Line) : BitVec 32 :=
  macOf (lineHash (hashKey k.k2) b) (BitVec.ofNat 64 (aes256 k.k1 (aesBlock 0x03 set n 0 parent)).toNat)

end Sys2Proof.Machine
end

