-- ==== Sys2Proof/Machine/Tree.lean ====
section
/-! DEFINITION. Memory port time (R89 to R93, R103, R250), interleave sets (R218), memory requests and credits (R55), the
geometry of a sealed segment's counter tree (R228 to R234) and the counter and tag cache (R236 to R240). -/

namespace Sys2Proof.Machine

/-! ### Shares of a resource (R89 to R93, R103, R124) -/

/-- One SHARED hall's part of a resource in the present stride: what it may take while every SHARED hall demands its part,
its weight, what it has used, and whether it asks for more now. -/
structure Share where
  own : Nat
  weight : Nat
  used : Nat
  demands : Bool
deriving DecidableEq, Repr

/-- What a hall that asks for nothing has left unused of its part by FCLK `f` of a stride of `len` FCLK (R91). -/
def Share.idle (x : Share) (f len : Nat) : Nat := if x.demands then 0 else x.own * f / len - x.used

/-- What a hall has taken or may still take. -/
def Share.claim (x : Share) (f len : Nat) : Nat := max x.used (x.own - x.idle f len)

/-- What a SHARED hall may take of a pool: its own part, and by weight what the other SHARED halls leave unused, within
what their claims leave of the pool (R91, R103, log entry 9). -/
def sharedBudget (pool f len : Nat) (me : Share) (others : List Share) : Nat :=
  let total := me.weight + (others.map Share.weight).sum
  let extra := (others.map fun o => o.idle f len * me.weight / (total - o.weight)).sum
  min (me.own + extra) (pool - (others.map fun o => o.claim f len).sum)

/-! ### Memory port time (R89 to R93, R103) -/

/-- Scale a share by the remaining fraction of a throttled stride (R93). -/
def State.throttled (s : State) (n : Nat) : Nat :=
  if s.timer.throttle then n * (8 - s.act.core.throttleEighths) / 8 else n

/-- Fenced pipes of a memory port's lane (R250). -/
def State.fencedPipes (s : State) (m : Nat) : Nat := (List.range 16).countP fun j => !s.inService 1 (16 * m + j)

/-- The hall has a sealed or veiled segment on a port under a plan (R122). -/
def Plan.onPort (p : Plan) (h m : Nat) : Bool :=
  p.segs.any fun g => g.hall == h && g.mode ≠ .wm && ((p.setRec g.set).map fun r => bit r.portMask m).getD false

/-- The SHARED halls with a share of a port. -/
def State.sharedOn (s : State) (m : Nat) : List HallRec := s.act.halls.filter fun r => r.cls = .shared ∧ s.act.onPort r.hall m

/-- Units of a port that no background share or fixed reservation takes: the unreserved capacity and the SHARED floors
(R89, R103). -/
def State.sharedUnits (s : State) (m : Nat) : Nat :=
  1000 - 15 - s.act.core.rekeyUnits -
    ((s.act.halls.filter fun r => r.cls ≠ .shared ∧ s.act.onPort r.hall m).map HallRec.memUnits).sum

/-- Lines of a port in a stride for a number of units (R89, R93, R250). -/
def State.unitLines (s : State) (m units : Nat) : Nat :=
  s.throttled (4 * strideFclk s.timer.strideCode * units / 1000) * (16 - s.fencedPipes m) / 16

/-- The payer of re-key moves: the re-key share (R269). -/
abbrev rekeyPayer : Nat := 64

/-- The payer of patrol scrubbing (R89). -/
abbrev patrolPayer : Nat := 65

/-- The payer of the counter-tree patrol (R89). -/
abbrev treePayer : Nat := 66

/-- Units that a payer holds by itself: a background share (R89), or a hall's mem_units. -/
def State.ownUnits (s : State) (h : Nat) : Nat :=
  if h = rekeyPayer then s.act.core.rekeyUnits
  else if h = patrolPayer then 10
  else if h = treePayer then 5
  else (s.rec_ h).memUnits

/-- A SHARED hall's part of a port: its floor, and by weight its part of the unreserved capacity (R103). -/
def State.memShare (s : State) (m : Nat) (demand : List Nat) (r : HallRec) : Share :=
  let l := s.sharedOn m
  let free := s.unitLines m (s.sharedUnits m - (l.map HallRec.memUnits).sum)
  { own := s.unitLines m r.memUnits + free * r.weight / (l.map HallRec.weight).sum, weight := r.weight,
    used := Tab.get 0 (s.memPort m).used r.hall, demands := r.hall ∈ demand }

/-- Lines that a payer may use on a port this stride: its reservation, or for a SHARED hall its share (R91, R124);
`demand` lists the payers that wait for the port. -/
def State.memBudget (s : State) (h m : Nat) (demand : List Nat) : Nat :=
  let r := s.rec_ h
  if r.cls = .shared then
    sharedBudget (s.unitLines m (s.sharedUnits m)) s.timer.fclk.toNat (strideFclk s.timer.strideCode)
      (s.memShare m demand r) (((s.sharedOn m).filter fun x => x.hall ≠ h).map (s.memShare m demand))
  else s.unitLines m (s.ownUnits h)

/-! ### Interleave sets (R218) -/

/-- The ports of a set in ascending order. -/
def SetRec.ports (r : SetRec) : List Nat := (List.range 48).filter fun m => bit r.portMask m

/-- Ports per stack that a set spans (R232). -/
def SetRec.perStack (r : SetRec) : Nat := (r.ports.filter fun m => m / 4 = (r.ports.headD 0) / 4).length

/-- The port of a set line index and its line address within the port (R218). -/
def SetRec.place (r : SetRec) (n : Nat) : Nat × Nat :=
  let p := r.ports.length
  let b := n / 64
  ((r.ports[b % p]?).getD 0, b / p * 64 + n % 64)

/-- The set record of a number in the active plan. -/
def State.set_ (s : State) (n : Nat) : SetRec := (s.act.setRec n).getD { set := n, portMask := 0, metaBase := 0, metaSize := 0 }

/-! ### Memory requests (R55, R57) -/

/-- The hall of a segment entry. -/
def segHall (k : Nat) : Nat := k / 128

/-- The tags of a request on a segment entry (R17). -/
def State.segTags (s : State) (k : Nat) : ReqTags :=
  { hall := segHall k, hallGen := (s.hall (segHall k)).gen, context := k / 8 % 16,
    ctxGen := (s.ctx (segHall k) (k / 8 % 16)).gen, ref := k, refGen := (s.seg k).gen }

/-- The tags that an engine's request took when it passed translation (R17, R18). -/
def Dma.tags (d : Dma) : ReqTags :=
  { hall := d.hall, hallGen := d.hallGen, context := d.context, ctxGen := d.ctxGen, ref := d.seg, refGen := d.refGen }

/-- Lines that take part in a request. -/
def MemReq.lines (r : MemReq) : Nat := popCount 4 r.mask.toNat

/-- The lowest request tag that is not outstanding on a port. -/
def MemPort.freeTag (m : MemPort) : Nat :=
  ((List.range 512).find? fun t => m.outstanding.all fun r => r.tag != t).getD 0

/-- The signals of a request (R55). -/
def MemReq.signals (r : MemReq) (m : Nat) (s : State) : State :=
  if r.write then forEach r.payload (fun w t => t.emit (.memWrite m r.block w.lane w.data w.sb w.poison)) s
  else s.emit (.memRead m r.tag r.block r.mask)

/-- `n` lines of a payer cross a port: credits, time and the hall's counters (R55, R90, R144). -/
def State.spendLines (s : State) (m payer n : Nat) (write : Bool) : State :=
  (s.modMemPort m fun x => { x with credits := x.credits - n, used := x.used.mod 0 payer (· + n) }).countHall payer fun c =>
    if write then { c with linesWritten := c.linesWritten + n } else { c with linesRead := c.linesRead + n }

/-- Issue a request on a port: each line spends a credit and the payer's time, and counts. -/
def State.issueMem (s : State) (m : Nat) (r : MemReq) : State :=
  let r := { r with tag := if r.write then 0 else (s.memPort m).freeTag }
  let t := (s.spendLines m r.payer r.lines r.write).modMemPort m fun x =>
    { x with outstanding := if r.write then x.outstanding else x.outstanding ++ [r] }
  r.signals m t

/-- The port can take `n` lines of a payer now: in service, with credits, and within the payer's time (R55, R90, R377). -/
def State.canSpend (s : State) (m payer n : Nat) (demand : List Nat) : Bool :=
  s.inService 2 m ∧ n ≤ (s.memPort m).credits ∧
    Tab.get 0 (s.memPort m).used payer + n ≤ s.memBudget payer m demand

/-- Issue the waiting requests of a port in order, each payer's first that does not fit holding its later ones. -/
def issueWaiting (m : Nat) (demand : List Nat) : List MemReq → List Nat → State → State
  | [], _, s => s
  | r :: rest, held, s =>
    if r.payer ∈ held ∨ !s.canSpend m r.payer r.lines demand then
      issueWaiting m demand rest (r.payer :: held) (s.modMemPort m fun x => { x with waiting := x.waiting ++ [r] })
    else issueWaiting m demand rest held (s.issueMem m r)

/-- The lines of a backing that lie on a port: the first, as a line of the port, and how many; they follow one another
there (R218). -/
def SetRec.spanOn (r : SetRec) (m base units : Nat) : Nat × Nat :=
  let p := max 1 r.ports.length
  let b0 := base * 512
  let skip := (r.ports.idxOf m + p - b0 % p) % p
  ((b0 + skip) / p * 64, ceilDiv (units * 512 - skip) p * 64)

/-- A scrub is under way: after a withdrawal at once, in a teardown in SCRUBBING, where segments already lost are skipped
(R135, R215). -/
def State.scrubs (s : State) (x : Scrub) : Bool :=
  x.mode ≠ .wm ∧ (!x.teardown ∨ ((s.hall (segHall x.entry)).state = .scrubbing ∧ !x.lost))

/-- Lines of a scrub still to write on a port. -/
def State.scrubLeft (s : State) (m : Nat) (x : Scrub) : Nat :=
  if m ∈ (s.set_ x.set).ports then ((s.set_ x.set).spanOn m x.base x.units).2 - Tab.get 0 x.done m else 0

/-- Lines of a scrub still to write, on the ports in service: a fenced port's lines are skipped (R135, R136). -/
def State.scrubLines (s : State) (x : Scrub) : Nat :=
  ((List.range 48).map fun m => if s.inService 2 m then s.scrubLeft m x else 0).sum

/-- Units of 2 MiB of a scrub still to write. -/
def State.scrubUnits (s : State) (x : Scrub) : Nat := ceilDiv (s.scrubLines x) (2 ^ 15)

/-- Write `n` scrub lines of a backing on a port, for its hall (R135). -/
def State.writeScrub (s : State) (m n : Nat) (x : Scrub) : State :=
  let first := ((s.set_ x.set).spanOn m x.base x.units).1 + Tab.get 0 x.done m
  let t := (s.spendLines m (segHall x.entry) n true).emit (.memScrub m first n)
  { t with xlat := { t.xlat with scrubs := t.xlat.scrubs.map fun y =>
      if y = x then { y with done := y.done.mod 0 m (· + n) } else y } }

/-- A scrub writes on a port as many lines as credits and its hall's time allow now, the hall counting as one that demands
all of its time (R55, R90, R135). -/
def State.runScrub (s : State) (m : Nat) (demand : List Nat) (x : Scrub) : State :=
  let h := segHall x.entry
  let n := min (s.scrubLeft m x)
    (min (s.memPort m).credits (s.memBudget h m (h :: demand) - Tab.get 0 (s.memPort m).used h))
  if s.inService 2 m ∧ s.scrubs x ∧ 0 < n then s.writeScrub m n x else s

/-- Let a port's waiting requests go on, and then the scrubs. -/
def State.pumpPort (s : State) (m : Nat) : State :=
  let l := (s.memPort m).waiting
  let t := issueWaiting m (l.map MemReq.payer) l [] (s.modMemPort m fun x => { x with waiting := [] })
  forEach t.xlat.scrubs (fun x u => u.runScrub m (l.map MemReq.payer) x) t

/-- Hand a request to a port: it is issued in its payer's order as credits and time allow; a fenced port takes nothing. -/
def State.sendMem (s : State) (m : Nat) (r : MemReq) : State :=
  if s.inService 2 m then (s.modMemPort m fun x => { x with waiting := x.waiting ++ [r] }).pumpPort m else s

/-- A write of one line of a set for a segment entry. -/
def State.writeLine (s : State) (payer set n : Nat) (d : Line × BitVec 64) (poison : Bool) (seg : Nat) : State :=
  let (m, a) := (s.set_ set).place n
  s.sendMem m { tag := 0, payer := payer, tags := s.segTags seg, write := true, block := a / 4,
                mask := BitVec.ofNat 4 (2 ^ (a % 4)), why := .write, seg := seg, keySlot := 0, age := 0,
                payload := [{ lane := a % 4, data := d.1, sb := d.2, poison := poison }] }

/-- A read of one line of a set for a segment entry, with the key slot and counter under which its answer opens. -/
def State.readLine (s : State) (payer set n : Nat) (why : MemWhy) (seg : Nat) (slot : Nat := 0) (ctr : Nat := 0) : State :=
  let (m, a) := (s.set_ set).place n
  s.sendMem m { tag := 0, payer := payer, tags := s.segTags seg, write := false, block := a / 4,
                mask := BitVec.ofNat 4 (2 ^ (a % 4)), why := why, seg := seg, keySlot := slot, age := 0, ctrs := [ctr] }

/-- A read of one line of a port whose answer comes with the command that makes it: it spends a credit and the payer's
time, and nothing stays outstanding. -/
def State.readNow (s : State) (m payer a : Nat) : State :=
  (s.spendLines m payer 1 false).emit (.memRead m (s.memPort m).freeTag (a / 4) (BitVec.ofNat 4 (2 ^ (a % 4))))

/-- `readNow` of a line of a set. -/
def State.readSetNow (s : State) (payer set n : Nat) : State :=
  s.readNow ((s.set_ set).place n).1 payer ((s.set_ set).place n).2

/-! ### Geometry (R232) -/

/-- Nodes of level `k` of a tree over `g` leaf blocks; level 0 counts the leaves. -/
def levelCount (g k : Nat) : Nat := ceilDiv g (8 ^ k)

/-- The top level: the lowest k ≥ 1 whose node count is at most 8. -/
def topLevelOf (g : Nat) : Nat := ((List.range 12).find? fun k => 1 ≤ k ∧ levelCount g k ≤ 8).getD 1

/-- Nodes of levels 1 to k. -/
def nodesBelow (g k : Nat) : Nat := ((List.range k).map fun i => levelCount g (i + 1)).sum

/-- Bytes of one node area, U, for a set of p ports. -/
def nodeArea (g p : Nat) : Nat := roundUp (64 * nodesBelow g (topLevelOf g)) (p * 4096)

/-- Bytes from a node's copy A to its copy B: U and the gap of q × 4 KiB. -/
def copyDistance (g p q : Nat) : Nat := nodeArea g p + q * 4096

/-- Units of 2 MiB of a metadata extent for a segment of `n` units in a set of p ports with q per stack (R232). -/
def extentUnits (n p q : Nat) : Nat := ceilDiv (512 * n * 64 + 2 * nodeArea (512 * n) p + q * 4096) (2 ^ 21)

/-- The extent of a segment of `n` units at a base (R232, R252). -/
def extentAt (base n p q : Nat) : SegMeta :=
  { base := base, units := extentUnits n p q, topLevel := topLevelOf (512 * n),
    topCount := levelCount (512 * n) (topLevelOf (512 * n)) }

/-- Byte offset within the extent of copy A of node `i` of level `k`; level 0 is the leaf area. -/
def nodeOffset (g k i : Nat) : Nat := if k = 0 then 64 * i else 64 * g + 64 * (nodesBelow g (k - 1) + i)

/-- The lowest free run of `n` units in a set's metadata region, given the extents in use (R234). -/
def freeRun (r : SetRec) (used : List SegMeta) (n : Nat) : Option Nat :=
  ((List.range (r.metaSize + 1 - n)).map (· + r.metaBase)).find? fun b =>
    n ≤ r.metaSize ∧ used.all fun e => b + n ≤ e.base ∨ e.base + e.units ≤ b

/-- Every metadata extent in use in a set: those of live segments and of re-key channels. -/
def State.extentsIn (s : State) (set : Nat) : List SegMeta :=
  ((s.protect.segMeta.filter fun e => (s.seg e.1).set = set ∧ 0 < e.2.units).map Prod.snd) ++
    ((s.vault.channels.filter fun e =>
      (s.seg (segNo' e.2.hall e.2.context e.2.index)).set = set ∧ 0 < e.2.ext.units).map fun e => e.2.ext)
where
  /-- Segment entry number. -/
  segNo' (h c i : Nat) : Nat := 128 * h + 8 * c + i

/-! ### Trees (R229 to R231, R267) -/

/-- Which tree of a segment: its own, or the new one of the re-key channel that moves it. -/
structure TreeRef where
  seg : Nat
  chan : Option Nat
deriving DecidableEq, Repr

/-- The channel that moves a segment. -/
def State.channelOf (s : State) (k : Nat) : Option Nat :=
  (List.range 16).find? fun c =>
    let x := s.channel c
    x.state ≠ .free ∧ 128 * x.hall + 8 * x.context + x.index = k

/-- The tree that serves group `g` of a segment: the new one below the landing (R267). -/
def State.treeFor (s : State) (k g : Nat) : TreeRef :=
  match s.channelOf k with
  | some c => if g < (s.channel c).landing then ⟨k, some c⟩ else ⟨k, none⟩
  | none => ⟨k, none⟩

def State.treeExt (s : State) (r : TreeRef) : SegMeta :=
  match r.chan with
  | some c => (s.channel c).ext
  | none => Tab.get {} s.protect.segMeta r.seg

def State.treeRoot (s : State) (r : TreeRef) : Line :=
  match r.chan with
  | some c => (s.channel c).root
  | none => Tab.get 0 s.protect.roots r.seg

def State.setTreeRoot (s : State) (r : TreeRef) (b : Line) : State :=
  match r.chan with
  | some c => s.modChannel c fun x => { x with root := b }
  | none => { s with protect := { s.protect with roots := s.protect.roots.set 0 r.seg b } }

/-- The key slot number that a tree's lines use. -/
def State.treeSlotNo (s : State) (r : TreeRef) : Nat :=
  match r.chan with
  | some c => (s.channel c).target
  | none => (s.seg r.seg).keySlot

def State.treeSlot (s : State) (r : TreeRef) : Slot := s.slot (s.treeSlotNo r)

/-- The interleave set of a tree. -/
def State.treeSet (s : State) (r : TreeRef) : Nat := (s.seg r.seg).set

/-- Leaf blocks of a segment. -/
def State.leaves (s : State) (k : Nat) : Nat := 512 * (s.seg k).size

/-- Set line index of copy A of a leaf or node (R232). -/
def State.metaLine (s : State) (r : TreeRef) (level i : Nat) : Nat :=
  ((s.treeExt r).base * 2 ^ 21 + nodeOffset (s.leaves r.seg) level i) / 64

/-- Set line index of copy B of a node. -/
def State.metaLineB (s : State) (r : TreeRef) (level i : Nat) : Nat :=
  let x := s.set_ (s.treeSet r)
  s.metaLine r level i + copyDistance (s.leaves r.seg) x.ports.length x.perStack / 64

/-- A set line index lies in an extent. -/
def SegMeta.holds (x : SegMeta) (m : Nat) : Bool := x.base * 2 ^ 15 ≤ m ∧ m < (x.base + x.units) * 2 ^ 15

/-- Every tree: the segments' own and those of the re-key channels. -/
def State.trees (s : State) : List TreeRef :=
  (s.protect.segMeta.map fun e => ⟨e.1, none⟩) ++
    ((s.vault.channels.filter fun e => 0 < e.2.ext.units).map fun e =>
      ⟨128 * e.2.hall + 8 * e.2.context + e.2.index, some e.1⟩)

/-- The tree whose extent holds a metadata line of a set. -/
def State.treeAt (s : State) (set m : Nat) : Option TreeRef :=
  s.trees.find? fun r => s.treeSet r = set ∧ (s.treeExt r).holds m

/-- The levels of a tree, leaf first. -/
def State.levels (s : State) (r : TreeRef) : List Nat := List.range ((s.treeExt r).topLevel + 1)

/-! ### The cache (R126, R236) -/

/-- The colour range of a hall: base and count. -/
def State.colours (s : State) (h : Nat) : Nat × Nat :=
  let r := s.rec_ h
  if r.cls = .shared then (s.act.core.sharedBase, s.act.core.sharedCount) else (r.colourBase, r.colourCount)

/-- The cache set of a metadata line of a hall: colour × 1,024 + set. -/
def State.cacheKey (s : State) (h m : Nat) : Nat :=
  let (base, count) := s.colours h
  (base + m % count) * 1024 + m / count % 1024

/-- An entry of a metadata line of a set. -/
def CacheEnt.names (e : CacheEnt) (set m : Nat) : Bool := e.set == set && e.metaLine == m

/-- The entry of a metadata line, in the cache or waiting for its write-back. -/
def State.cached (s : State) (h set m : Nat) : Option CacheEnt :=
  ((Tab.get [] s.protect.cache (s.cacheKey h m)).find? fun e => e.names set m).or
    (s.protect.evicting.find? fun e => e.names set m)

/-- The cached leaf or node of a tree. -/
def State.cachedNode (s : State) (r : TreeRef) (level i : Nat) : Option CacheEnt :=
  s.cached (segHall r.seg) (s.treeSet r) (s.metaLine r level i)

/-- Change a cache set. -/
def State.modCache (s : State) (key : Nat) (f : List CacheEnt → List CacheEnt) : State :=
  { s with protect := { s.protect with cache := s.protect.cache.mod [] key f } }

/-- Put a new block and dirty bit into a held entry; in its set it becomes the most recently used. -/
def State.updateCached (s : State) (e : CacheEnt) (b : Line) (dirty : Bool := true) : State :=
  let key := s.cacheKey e.hall e.metaLine
  let same (x : CacheEnt) : Bool := x.names e.set e.metaLine
  if (Tab.get [] s.protect.cache key).any same then
    s.modCache key fun l => { e with block := b, dirty := dirty } :: l.filter fun x => !same x
  else { s with protect := { s.protect with
    evicting := s.protect.evicting.map fun x => if same x then { x with block := b, dirty := dirty } else x } }

/-- A cached entry becomes the most recently used of its set (R236). -/
def State.touch (s : State) (e : CacheEnt) : State :=
  s.modCache (s.cacheKey e.hall e.metaLine) fun l =>
    if e ∈ l then e :: l.filter (· ≠ e) else l

/-- A request uses the leaf of a group and every ancestor that the core holds (R236, R237). -/
def State.touchPath (s : State) (r : TreeRef) (g : Nat) : State :=
  forEach (s.levels r).reverse (fun k t =>
    match t.cachedNode r k (g / 8 ^ k) with
    | some e => t.touch e
    | none => t) s

/-! ### Counters of a chain (R230, R237) -/

/-- A leaf or node is to be marked lost, and its parent is not yet on die. -/
def State.isLost (s : State) (r : TreeRef) (level i : Nat) : Bool :=
  s.protect.lost.any fun x => x.set = s.treeSet r ∧ x.metaLine = s.metaLine r level i

/-- The counter that guards a leaf (level 0) or node, as far as the core holds it: none while its parent must be fetched.
Below a zero or lost counter the answer is 0 or lost. `fuel` bounds the climb to the root. -/
def State.guard (s : State) (r : TreeRef) : Nat → Nat → Nat → Option Nat
  | 0, _, _ => none
  | fuel + 1, level, i =>
    if s.isLost r level i then some lostCtr
    else if level = (s.treeExt r).topLevel then some (nodeCtr (s.treeRoot r) (i % 8))
    else
      match s.cachedNode r (level + 1) (i / 8) with
      | some e =>
        if s.guard r fuel (level + 1) (i / 8) = some lostCtr then some lostCtr else some (nodeCtr e.block (i % 8))
      | none =>
        match s.guard r fuel (level + 1) (i / 8) with
        | some c => if c = 0 ∨ c = lostCtr then some c else none
        | none => none

/-- The counter that guards a leaf or node of a tree. -/
def State.guardOf (s : State) (r : TreeRef) (level i : Nat) : Option Nat := s.guard r 12 level i

/-- What the core knows of a group's leaf block. -/
inductive ChainRes where
  | leaf (b : Line)
  | zero                               -- below a zero counter
  | lost                               -- below a lost marker
  | missing
deriving DecidableEq, Repr

/-- Look a group's chain up (R237). -/
def State.resolve (s : State) (r : TreeRef) (g : Nat) : ChainRes :=
  let guard := s.guardOf r 0 g
  if guard = some lostCtr then .lost
  else
    match s.cachedNode r 0 g with
    | some e => .leaf e.block
    | none => if guard = some 0 then .zero else .missing

/-- The levels from `level` up that a fetch must read: those below the lowest cached ancestor (R237). -/
def State.missingLevels (s : State) (r : TreeRef) (level g : Nat) : List Nat :=
  ((s.levels r).drop level).takeWhile fun k => (s.cachedNode r k (g / 8 ^ k)).isNone

/-- Every level of a group's path that is not on die and not below a zero counter: a write needs the counters of its whole
path (R226). -/
def State.absentLevels (s : State) (r : TreeRef) (g : Nat) : List Nat :=
  (s.levels r).filter fun k => (s.cachedNode r k (g / 8 ^ k)).isNone ∧ s.guardOf r k (g / 8 ^ k) ≠ some 0

/-- A read of a leaf or node that is under way or waits for its port. -/
def State.nodeReads (s : State) (set m : Nat) : List MemReq :=
  let (p, _) := (s.set_ set).place m
  ((s.memPort p).outstanding ++ (s.memPort p).waiting).filter fun q =>
    match q.why with
    | .node a b _ => a == set && b == m
    | _ => false

/-- Fetch levels of a group's path, each node once for all that wait for it (R237). -/
def State.fetchLevels (s : State) (r : TreeRef) (g payer : Nat) (levels : List Nat) : State :=
  let new := levels.filter fun k => s.nodeReads (s.treeSet r) (s.metaLine r k (g / 8 ^ k)) = []
  if new = [] then s
  else
    forEach new (fun k u =>
      u.readLine payer (u.treeSet r) (u.metaLine r k (g / 8 ^ k)) (.node (u.treeSet r) (u.metaLine r k (g / 8 ^ k)) false)
        r.seg) (s.countHall payer fun c => { c with counterMisses := c.counterMisses + 1 })

/-- Fetch the missing levels of a group's chain. -/
def State.fetchChain (s : State) (r : TreeRef) (g : Nat) (payer : Nat := segHall r.seg) : State :=
  s.fetchLevels r g payer (s.missingLevels r 0 g)

/-! ### Fills and write-back (R230, R236, R238) -/

/-- Who pays for a tree's metadata write: the re-key share for a node of a new tree whose groups have not all been moved
(R269), the hall otherwise (R90, R238). -/
def State.metaPayer (s : State) (r : TreeRef) (level i : Nat) : Nat :=
  match r.chan with
  | some c =>
    if (s.channel c).landing + (s.channel c).band.length < (i + 1) * 8 ^ level then rekeyPayer else segHall r.seg
  | none => segHall r.seg

/-- Write a leaf or node to memory under its parent counter; a node goes to both copies (R229, R238). -/
def State.writeMeta (s : State) (r : TreeRef) (level i parent payer : Nat) (b : Line) : State :=
  let set := s.treeSet r
  let n := s.metaLine r level i
  let line := (b, sideBand b (nodeMac (s.treeSlot r) set n parent b))
  let t := s.writeLine payer set n line false r.seg
  if level = 0 then t else t.writeLine payer set (s.metaLineB r level i) line false r.seg

/-- The parent of a leaf or node is on die: the root, or a cached node. -/
def State.parentHeld (s : State) (r : TreeRef) (level i : Nat) : Bool :=
  level = (s.treeExt r).topLevel ∨ (s.cachedNode r (level + 1) (i / 8)).isSome

/-- Set the counter of a child in its parent, where the core holds the parent; that makes the parent dirty. -/
def State.setGuard (s : State) (r : TreeRef) (level i v : Nat) : State :=
  if level = (s.treeExt r).topLevel then s.setTreeRoot r (setNodeCtr (s.treeRoot r) (i % 8) v)
  else
    match s.cachedNode r (level + 1) (i / 8) with
    | some e => s.updateCached e (setNodeCtr e.block (i % 8) v)
    | none => s

/-- The metadata lines that accesses in progress hold, by set and line: the paths of the requests on sealed segments and
of the groups in overflow (R236). -/
def State.heldNodes (s : State) : List (Nat × Nat) :=
  let path (k g : Nat) : List (Nat × Nat) :=
    let r := s.treeFor k g
    (s.levels r).map fun l => (s.treeSet r, s.metaLine r l (g / 8 ^ l))
  (s.engines.flatMap fun e => e.2.dmas.flatMap fun d =>
    if d.kind = 0 ∧ (s.seg d.seg).mode = .sealed then path d.seg (d.address / 4096) else []) ++
    s.protect.overflows.flatMap fun o => path o.seg o.group

/-- Enter a block into its cache set. A seventeenth entry sends the least recently used that no access holds away, a dirty
one to wait for its write-back; a block that finds every entry held does not stay. -/
def State.fill (s : State) (r : TreeRef) (level i : Nat) (b : Line) (dirty : Bool) : State :=
  let h := segHall r.seg
  let m := s.metaLine r level i
  let e : CacheEnt := { set := s.treeSet r, metaLine := m, level := level, hall := h, hallGen := (s.hall h).gen,
                        index := i, dirty := dirty, block := b }
  let l := Tab.get [] s.protect.cache (s.cacheKey h m)
  if l.length < 16 then s.modCache (s.cacheKey h m) fun l => e :: l
  else
    let held := s.heldNodes
    let out := (l.reverse.find? fun x => (x.set, x.metaLine) ∉ held).getD e
    let t := s.modCache (s.cacheKey h m) fun l => (e :: l).filter (· ≠ out)
    if out.dirty then { t with protect := { t.protect with evicting := t.protect.evicting ++ [out] } } else t

/-- The parent is brought on die without a read where a zero counter stands above it: it is all-zero (R230). -/
def State.zeroParent (s : State) (r : TreeRef) (level i : Nat) : State :=
  if !s.parentHeld r level i ∧ s.guardOf r level i = some 0 then s.fill r (level + 1) (i / 8) 0 true else s

/-- The child's counter is raised in its parent, and the child is written under it (R230, R238). -/
def State.writeChild (s : State) (r : TreeRef) (level i payer : Nat) (b : Line) : State :=
  match s.guardOf r level i with
  | some c => if c = lostCtr then s else (s.setGuard r level i (c + 1)).writeMeta r level i (c + 1) payer b
  | none => s

/-- Write back one entry that waits; where its parent must be read, fetch it (R238). -/
def State.writeBack (s : State) (e : CacheEnt) : State :=
  match s.treeAt e.set e.metaLine with
  | none => { s with protect := { s.protect with evicting := s.protect.evicting.filter (· ≠ e) } }
  | some r =>
    let s := s.zeroParent r e.level e.index
    if s.parentHeld r e.level e.index then
      ({ s with protect := { s.protect with evicting := s.protect.evicting.filter (· ≠ e) } }).writeChild r e.level e.index
        (s.metaPayer r e.level e.index) e.block
    else
      let g := e.index * 8 ^ e.level
      s.fetchLevels r g (segHall r.seg) (s.missingLevels r (e.level + 1) g)

/-- Set one waiting lost marker; where its parent must be read, fetch it. -/
def State.setMarker (s : State) (x : Marker) : State :=
  match s.treeAt x.set x.metaLine with
  | none => { s with protect := { s.protect with lost := s.protect.lost.filter (· ≠ x) } }
  | some r =>
    if s.parentHeld r x.level x.index then
      ({ s with protect := { s.protect with lost := s.protect.lost.filter (· ≠ x) } }).setGuard r x.level x.index lostCtr
    else
      let g := x.index * 8 ^ x.level
      s.fetchLevels r g (segHall r.seg) (s.missingLevels r (x.level + 1) g)

/-- Write back what waits and set the waiting markers, as far as parents are on die. -/
def drainEvicting : Nat → State → State
  | 0, s => s
  | fuel + 1, s =>
    let ready (set m level i : Nat) : Bool :=
      match s.treeAt set m with
      | some r => s.parentHeld r level i || s.guardOf r level i == some 0
      | none => true
    match s.protect.lost.find? fun x => ready x.set x.metaLine x.level x.index with
    | some x => drainEvicting fuel (s.setMarker x)
    | none =>
      match s.protect.evicting.find? fun e => ready e.set e.metaLine e.level e.index with
      | some e => drainEvicting fuel (s.writeBack e)
      | none => forEach s.protect.evicting (fun e t => t.writeBack e) (forEach s.protect.lost (fun x t => t.setMarker x) s)

/-- Enter a block and write back what that evicts. -/
def State.enter (s : State) (r : TreeRef) (level i : Nat) (b : Line) (dirty : Bool) : State :=
  drainEvicting 64 (s.fill r level i b dirty)

/-- Store a changed leaf block: the cached one is updated, a new one enters dirty (R238). -/
def State.setLeaf (s : State) (r : TreeRef) (g : Nat) (b : Line) : State :=
  match s.cachedNode r 0 g with
  | some e => s.updateCached e b
  | none => s.enter r 0 g b true

/-- The entries of a tree that the core holds. -/
def State.treeEnts (s : State) (r : TreeRef) : List CacheEnt :=
  (s.protect.cache.flatMap Prod.snd ++ s.protect.evicting).filter fun e =>
    e.set == s.treeSet r && (s.treeExt r).holds e.metaLine

/-- The entry lies at or below node `i` of a level. -/
def CacheEnt.below (e : CacheEnt) (level i : Nat) : Bool := e.level ≤ level ∧ e.index / 8 ^ (level - e.level) = i

/-- The write-backs that the dirty entries at or below a node of the path of group `g` make necessary once `g` is dirty. -/
def State.backsBelow (s : State) (r : TreeRef) (level g : Nat) : Nat :=
  ((s.treeEnts r).countP fun e => e.dirty ∧ e.below level (g / 8 ^ level)) +
    if (s.cachedNode r 0 g).any CacheEnt.dirty then 0 else 1

/-- The write-backs that a write to a group makes necessary would raise a tree counter on its path to the limit (R226). -/
def State.atLimit (s : State) (r : TreeRef) (g : Nat) : Bool :=
  (s.levels r).any fun k =>
    match s.guardOf r k (g / 8 ^ k) with
    | some c => ctrLimit ≤ c + s.backsBelow r k g ∧ c ≠ lostCtr
    | none => false

/-! ### Lost markers and events (R230, R247) -/

/-- Count and record an MPX event against a segment's hall. -/
def State.mpx (s : State) (code : Byte) (k : Nat) (st : Status) : State :=
  let c := s.protect.cnt
  let c := if code = Ev.mpxCorrected then { c with corrected := satAdd c.corrected 1 }
    else if code = Ev.mpxMacFail then { c with integrity := satAdd c.integrity 1 }
    else if code = Ev.mpxNodeRepair then { c with nodeRepairs := satAdd c.nodeRepairs 1 }
    else if code = Ev.mpxSubtreeLost then { c with subtreesLost := satAdd c.subtreesLost 1 }
    else c
  ({ s with protect := { s.protect with cnt := c } }).raise code
    { hall := some (segHall k), status := if st = Status.ok then 0 else st.code, object := BitVec.ofNat 16 k }

/-- A poison line is written (R252). -/
def State.countPoison (s : State) : State :=
  { s with protect := { s.protect with cnt := { s.protect.cnt with poisoned := satAdd s.protect.cnt.poisoned 1 } } }

/-- Mark a leaf or node as lost: the marker goes into its parent, which is fetched where it is not on die; the event and
the pause follow (R247). -/
def State.loseSubtree (s : State) (r : TreeRef) (level i : Nat) : State :=
  let x : Marker := { set := s.treeSet r, metaLine := s.metaLine r level i, level := level, index := i }
  let t := ({ s with protect := { s.protect with lost := s.protect.lost ++ [x] } }).setMarker x
  (t.mpx Ev.mpxSubtreeLost r.seg .poison).pauseCause (segHall r.seg) (some (.marker r.seg))

/-- A segment's data is destroyed: it becomes LOST and its hall is paused (R199, R384). -/
def State.loseSegment (s : State) (k : Nat) : State :=
  (s.modSeg k fun g => { g with state := .lost }).pauseCause (segHall k) (some (.lost k))

end Sys2Proof.Machine
end

