-- ==== Sys2Proof/Machine/MemProt.lean ====
section
/-! DEFINITION. The memory protection unit's read and write paths (R241 to R249), the group overflow (R225), the
working-memory guard (R138 to R141) and a memory port's fence (R377, R379). A request is held as plain data (`Dma`) and
run again whenever what it waits for has come. -/

namespace Sys2Proof.Machine

/-! ### Where a request's lines lie -/

/-- Line `i` of a request, counted within its segment. -/
def Dma.segLine (d : Dma) (i : Nat) : Nat := d.address / 64 + i

/-- Set line index of line `l` of a backing at `base` units (R218). -/
def lineOf (base l : Nat) : Nat := base * 2 ^ 15 + l

/-- Set line index of line `i` of a request, under the backing that it was translated to (R18). -/
def Dma.setLine (d : Dma) (i : Nat) : Nat := lineOf d.segBase (d.segLine i)

/-- The 4 KiB group of a request: it never crosses one (R39). -/
def Dma.group (d : Dma) : Nat := d.address / 4096

/-- The set record that a request's segment lies in. -/
def State.dmaSet (s : State) (d : Dma) : SetRec := s.set_ (s.seg d.seg).set

/-- The port of a request's lines: they all lie in one 4 KiB block (R218). -/
def State.dmaPort (s : State) (d : Dma) : Nat := ((s.dmaSet d).place (d.setLine 0)).1

/-! ### The order of the accesses to one line (R244) -/

/-- A request of a port covers a line: block and lane. -/
def MemReq.covers (r : MemReq) (a : Nat) : Bool := r.block = a / 4 ∧ bit r.mask (a % 4)

/-- The requests on a port that cover a line of a set. -/
def State.reqsOf (s : State) (set n : Nat) : List MemReq :=
  let (m, a) := (s.set_ set).place n
  ((s.memPort m).outstanding ++ (s.memPort m).waiting).filter fun r => r.covers a

/-- Lines of a request that it has not finished with, by index: all of a read's, the unwritten ones of a write. -/
def Dma.openLines (d : Dma) : List Nat := if d.write then d.todo else List.range d.beatCount

/-- A request on a sealed or veiled segment still needs a line of a set. -/
def State.needs (s : State) (d : Dma) (set n : Nat) : Bool :=
  d.kind = 0 ∧ (s.seg d.seg).mode ≠ .wm ∧ (s.seg d.seg).set = set ∧ d.openLines.any fun i => d.setLine i = n

/-- An access that reached the unit before number `arrival` still needs a line, so a later access to it waits; two reads
do not wait for each other (R44, R244). -/
def State.earlierOn (s : State) (arrival : Nat) (write : Bool) (set n : Nat) : Bool :=
  s.engines.any fun e => e.2.dmas.any fun d => d.arrival < arrival ∧ (write ∨ d.write) ∧ s.needs d set n

/-- Some access needs a line, or a request for it stands at its port: background work and re-key moves wait (R249, R267). -/
def State.lineInUse (s : State) (set n : Nat) : Bool :=
  (s.engines.any fun e => e.2.dmas.any fun d => s.needs d set n) ∨
    (s.reqsOf set n).any fun r => r.why ≠ .discard

/-- A group is locked by an overflow (R225). -/
def State.groupLocked (s : State) (k g : Nat) : Bool := s.protect.overflows.any fun o => o.seg == k && o.group == g

/-- A group is being moved by a re-key channel (R267). -/
def State.inBand (s : State) (k g : Nat) : Bool :=
  ((s.channelOf k).map fun c => decide (g ∈ (s.channel c).band)).getD false

/-- A data read of a group is under way: an overflow waits for it (R225, R244). -/
def State.groupReading (s : State) (k base g : Nat) : Bool :=
  (List.range 64).any fun j => (s.reqsOf (s.seg k).set (lineOf base (64 * g + j))).any fun r => !r.write ∧ r.why ≠ .discard

/-- A held line of a segment (R367). -/
def State.heldLine (s : State) (k l : Nat) : Option HeldLine := s.commit.lines.find? fun x => x.seg == k && x.line == l

/-- The held line that a request must see before memory does: one that became the line's contents before the request
came. -/
def State.heldFor (s : State) (d : Dma) (i : Nat) : Option HeldLine :=
  (s.heldLine d.seg (d.segLine i)).filter fun x => x.arrival ≤ d.arrival

/-- A byte list as a line. -/
def toLine (b : List Byte) : Line := BitVec.ofNat 512 (leNat (b.take 64))

/-! ### Writing one line (R224 to R226, R242, R245) -/

/-- The leaf block of a group as the core holds it: zero below a zero counter. -/
def State.leafOf (s : State) (r : TreeRef) (g : Nat) : Line :=
  match s.resolve r g with
  | .leaf b => b
  | _ => 0

/-- The counter of a segment's line: 0 for a line never written (R224). -/
def State.ctrOf (s : State) (r : TreeRef) (l : Nat) : Nat := leafCtr (s.leafOf r (l / 64)) (l % 64)

/-- Write a line of a segment under a counter: data, or poison where there is none. -/
def State.storeLine (s : State) (r : TreeRef) (base l ctr : Nat) (d : Option Line)
    (payer : Nat := segHall r.seg) : State :=
  let g := s.seg r.seg
  let n := lineOf base l
  let k := s.treeSlot r
  match d with
  | some x => s.writeLine payer g.set n (sealLine k g.mode g.set n ctr x) false r.seg
  | none => (s.writeLine payer g.set n (poisonLine k g.mode g.set n ctr) true r.seg).countPoison

/-- Begin the overflow of a group for a line: the lock, the next major, and the other lines' re-encryption (R225). Lines
never written are written as zeros; the others are read under their old counters. -/
def State.beginOverflow (s : State) (r : TreeRef) (base l : Nat) (port tag : Nat) : State :=
  let g := l / 64
  let old := s.leafOf r g
  let others := (List.range 64).filter (· ≠ l % 64)
  let reads := others.filter fun j => leafCtr old j ≠ 0
  let t := s.setLeaf r g (overflowLeaf old (l % 64))
  let t := { t with protect := { t.protect with
    cnt := { t.protect.cnt with overflows := satAdd t.protect.cnt.overflows 1 },
    overflows := if reads = [] then t.protect.overflows else
      t.protect.overflows ++ [{ seg := r.seg, group := g, left := reads.map (64 * g + ·), port := port, tag := tag,
                                old := old }] } }
  let t := forEach (others.filter fun j => leafCtr old j = 0) (fun j u =>
    u.storeLine r base (64 * g + j) ((leafMajor old + 1) * 128) (some 0)) t
  forEach reads (fun j u =>
    u.readLine (segHall r.seg) (u.seg r.seg).set (lineOf base (64 * g + j)) (.overflow r.seg (64 * g + j)) r.seg
      (u.treeSlotNo r) (leafCtr old j)) t

/-- The next write of a sealed line overflows its group (R225). -/
def State.overflows (s : State) (r : TreeRef) (l : Nat) : Bool :=
  (s.seg r.seg).mode = .sealed ∧ leafMinor (s.leafOf r (l / 64)) (l % 64) = 127

/-- The write would overflow a group that cannot: its major is at its end, or a tree counter would reach its limit
(R226). -/
def State.counterLimit (s : State) (r : TreeRef) (l : Nat) : Bool :=
  let b := s.leafOf r (l / 64)
  (leafMinor b (l % 64) = 127 ∧ leafMajor b = 2 ^ 56 - 1) ∨ s.atLimit r (l / 64)

/-- Write data or poison to a line of a segment for a request: the counter advances, the line is posted (R242). The
status is INTEGRITY where the counter limit forbids it (R226). -/
def State.putLine (s : State) (r : TreeRef) (base l : Nat) (d : Option Line) (port tag : Nat) : State × Status :=
  if (s.seg r.seg).mode = .sealed then
    if s.counterLimit r l then (s.mpx Ev.mpxCounterLimit r.seg .integrity, .integrity)
    else
      let b := s.leafOf r (l / 64)
      let j := l % 64
      if leafMinor b j < 127 then
        let c := leafCtr b j + 1
        ((s.setLeaf r (l / 64) (setMinor b j (leafMinor b j + 1))).storeLine r base l c d, .ok)
      else
        let c := (leafMajor b + 1) * 128 + 1
        ((s.beginOverflow r base l port tag).storeLine r base l c d, .ok)
  else (s.storeLine r base l 0 d, .ok)

/-- Bytes that a strobe pattern marks, as a mask over the line. -/
def strobeMask (strb : BitVec 64) : Line :=
  BitVec.ofNat 512 (((List.range 64).map fun k => if bit strb k then 0xFF * 2 ^ (8 * k) else 0).sum)

/-- The bytes of a beat merged into a line (R243). -/
def mergeBeat (old : Line) (b : WBeat) : Line := (old &&& ~~~(strobeMask b.strb)) ||| (b.data &&& strobeMask b.strb)

/-- A request's first non-OK status. -/
def Dma.note (d : Dma) (st : Status) : Dma := { d with status := if d.status = .ok then st else d.status }

/-! ### Running a request on a sealed or veiled segment -/

/-- The request waits for something. -/
def State.await (s : State) (p tag : Nat) (w : DmaWait) : State := s.modDma p tag fun d => { d with wait := w }

/-- The reads that fetch some lines of a request, one for each 256-byte block; `need` lists line and counter. -/
def State.dataReads (s : State) (p : Nat) (d : Dma) (slot : Nat) (need : List (Nat × Nat)) : List MemReq :=
  let a0 := ((s.dmaSet d).place (d.setLine 0)).2
  let blocks := (need.map fun x => (a0 + x.1) / 4).eraseDups
  blocks.map fun b =>
    let here := need.filter fun x => (a0 + x.1) / 4 = b
    { tag := 0, payer := d.hall, tags := d.tags, write := false, block := b,
      mask := BitVec.ofNat 4 ((here.map fun x => 2 ^ ((a0 + x.1) % 4)).sum), why := .dma p d.tag, seg := d.seg,
      keySlot := slot, age := 0, ctrs := here.map Prod.snd }

/-- Read the lines of a request: held lines and lines never written at once, the others from memory (R241, R367). -/
def State.readLines (s : State) (p : Nat) (d : Dma) (r : TreeRef) : State :=
  let set := (s.seg d.seg).set
  let sealed := (s.seg d.seg).mode = .sealed
  let lines := List.range d.beatCount
  let ctr (i : Nat) : Nat := if sealed then s.ctrOf r (d.segLine i) else 0
  let held (i : Nat) := s.heldFor d i
  let need := lines.filter fun i => (held i).isNone ∧ (!sealed ∨ ctr i ≠ 0)
  if lines.any fun i => s.earlierOn d.arrival false set (d.setLine i) then s.await p d.tag .lock
  else
    let known : Tab Line := forHeld lines held []
    let t := s.modDma p d.tag fun x => { x with wait := .lines, left := need.length, lines := known }
    if need = [] then t.respondNow p d.tag
    else
      forEach (s.dataReads p d (s.treeSlotNo r) (need.map fun i => (i, ctr i))) (fun q u => u.sendMem (s.dmaPort d) q) t
where
  /-- The held lines of a request as a table of plaintext. -/
  forHeld : List Nat → (Nat → Option HeldLine) → Tab Line → Tab Line
    | [], _, t => t
    | i :: rest, held, t =>
      match held i with
      | some x => forHeld rest held (t.set 0 i (toLine x.data))
      | none => forHeld rest held t

/-- The line of a write has been dealt with, with a status. -/
def Dma.finishLine (d : Dma) (i : Nat) (st : Status) : Dma :=
  { d.note st with todo := d.todo.filter (· ≠ i), old := d.old.filter fun x => x.line ≠ i }

/-- Write one line of a request, with data or as poison, and note what it makes of the request's status. -/
def State.postLine (s : State) (p : Nat) (d : Dma) (i : Nat) (data : Option Line) (st : Status) : State :=
  let (t, limit) := s.putLine (s.treeFor d.seg d.group) d.segBase (d.segLine i) data p d.tag
  t.modDma p d.tag fun x => x.finishLine i (if limit = .ok then st else limit)

/-- Go on with line `i` of a write, as far as nothing holds it: a whole line and a line never written are written, any
other line is read first, and once read is merged, poisoned or left (R242 to R244). -/
def State.runLine (s : State) (p tag i : Nat) : State :=
  match s.dma p tag with
  | none => s
  | some d =>
    let l := d.segLine i
    let r := s.treeFor d.seg d.group
    let g := s.seg d.seg
    let n := d.setLine i
    let beat := (d.beats[i]?).getD { data := 0, strb := 0 }
    let full := beat.strb = BitVec.allOnes 64
    let unwritten := g.mode = .sealed ∧ s.ctrOf r l = 0
    let stop (w : DmaWait) : State := s.await p tag w
    let post (data : Option Line) (st : Status) : State :=
      if s.overflows r l ∧ s.groupReading d.seg d.segBase d.group then stop .lock else s.postLine p d i data st
    if i ∈ d.asked then s
    else if (s.heldFor d i).isSome then stop .held
    else if s.groupLocked d.seg d.group ∨ s.earlierOn d.arrival true g.set n then stop .lock
    else
      match d.old.find? fun x => x.line = i with
      | some x =>
        if x.stays then s.modDma p tag fun y => y.finishLine i x.status
        else post (if x.status = .ok then some (mergeBeat x.data beat) else none) x.status
      | none =>
        if full then post (some beat.data) .ok
        else if unwritten then post (some (mergeBeat 0 beat)) .ok
        else
          (s.readLine d.hall g.set n (.partialWrite p tag) d.seg (s.treeSlotNo r) (s.ctrOf r l)).modDma p tag fun y =>
            { y with asked := y.asked ++ [i], wait := .lines }

/-- An overflow that a request has triggered is under way (R225). -/
def State.overflowing (s : State) (p tag : Nat) : Bool := s.protect.overflows.any fun o => o.port == p && o.tag == tag

/-- A write responds once all its lines have been dealt with, and the last write of an overflow that it triggered. -/
def State.finishWrite (s : State) (p tag : Nat) : State :=
  match s.dma p tag with
  | some d => if d.write ∧ d.todo = [] then if s.overflowing p tag then s.await p tag .lock else s.respondNow p tag else s
  | none => s

/-- Go on with the lines of a write. -/
def State.writeLines (s : State) (p : Nat) (d : Dma) : State :=
  (forEach d.todo (fun i t => t.runLine p d.tag i) s).finishWrite p d.tag

/-- The keys of a slot are being derived again: accesses that need them wait (R255). -/
def State.slotRederiving (s : State) (slot : Nat) : Bool :=
  s.vault.rederiving.any fun e => match e with
    | .memSlot k => k.val == slot
    | _ => false

/-- The leaf of the next group is read ahead where a request reaches the last 256 bytes of a group, that leaf is absent
and its parent counter, on die, is neither 0 nor lost (R239); whether the core does so is the implementation's (log entry
70). -/
def State.prefetch (s : State) (d : Dma) : State :=
  let g := d.group + 1
  let r := s.treeFor d.seg g
  if Config.prefetches d.arrival ∧ 4096 < d.address % 4096 + d.length + 256 ∧ g < s.leaves d.seg ∧ !s.inBand d.seg g ∧
      s.resolve r g = .missing ∧ s.missingLevels r 0 g = [0] then
    s.fetchChain r g
  else s

/-- Go on with a request whose slot, tree and counters are at hand. -/
def State.goLines (s : State) (p : Nat) (d : Dma) (r : TreeRef) : State :=
  if d.write then s.writeLines p d else s.readLines p d r

/-- Run a request on a sealed or veiled segment from where it stands. A write needs every counter of its group's path on
die, for the limit of R226 (log entry 71). -/
def State.runLines (s : State) (p : Nat) (d : Dma) : State :=
  let g := d.group
  let r := s.treeFor d.seg g
  if (s.seg d.seg).state = .lost ∨ !s.inService 2 (s.dmaPort d) then s.respond p d .poison
  else if s.inBand d.seg g ∨ s.slotRederiving (s.treeSlotNo r) then s.await p d.tag .rekey
  else if s.groupLocked d.seg g then s.await p d.tag .lock
  else if (s.seg d.seg).mode = .sealed then
    let levels := if d.write then s.absentLevels r g else s.missingLevels r 0 g
    match s.resolve r g with
    | .lost => s.respond p d .poison
    | .missing => (s.await p d.tag .chain).fetchLevels r g (segHall d.seg) levels
    | .zero => if d.write ∧ levels ≠ [] then (s.await p d.tag .chain).fetchLevels r g (segHall d.seg) levels else s.goLines p d r
    | .leaf _ =>
      if d.write ∧ levels ≠ [] then (s.await p d.tag .chain).fetchLevels r g (segHall d.seg) levels
      else ((s.touchPath r g).prefetch d).goLines p d r
  else s.goLines p d r

/-! ### The working-memory guard (R58, R138 to R140) -/

/-- The granule of a request. -/
def Dma.granule (d : Dma) : Nat := (d.segBase * 2 ^ 21 + d.address) / 4096

/-- Insert a number into an ascending list once. -/
def insertNat (n : Nat) : List Nat → List Nat
  | [] => [n]
  | m :: rest => if n < m then n :: m :: rest else if n = m then m :: rest else m :: insertNat n rest

/-- The bytes of a write's beats over one 256-byte block, with their strobes; `first` is the request's line index of the
block's first line, which may lie before the request. -/
def wmBlock (d : Dma) (blockLine : Nat) : BitVec 2048 × BitVec 256 :=
  let beat (lane : Nat) : WBeat :=
    if d.address / 64 ≤ blockLine + lane then
      (d.beats[blockLine + lane - d.address / 64]?).getD { data := 0, strb := 0 } else { data := 0, strb := 0 }
  (BitVec.ofNat 2048 (((List.range 4).map fun i => (mergeBeat 0 (beat i)).toNat * 2 ^ (512 * i)).sum),
   BitVec.ofNat 256 (((List.range 4).map fun i => (beat i).strb.toNat * 2 ^ (64 * i)).sum))

/-- The 256-byte blocks that a request touches, by their first line within the segment. -/
def Dma.blocks (d : Dma) : List Nat :=
  ((List.range d.beatCount).map fun i => d.segLine i / 4 * 4).eraseDups

/-- Every block of the granule of a request, by its first line within the segment. -/
def Dma.granuleBlocks (d : Dma) : List Nat := (List.range 16).map fun i => d.address / 4096 * 64 + 4 * i

/-- Run a request on a working-memory segment: reads of a clear granule return zero (R139), the first write fills the
whole granule (R140). -/
def State.runWm (s : State) (p : Nat) (d : Dma) : State :=
  let gen := (s.hall d.hall).gen
  let block (l : Nat) : Nat := d.segBase * 2 ^ 13 + l / 4
  let clear := d.granule ∉ s.protect.written
  if d.write then
    let t := forEach (if clear then d.granuleBlocks else d.blocks) (fun l u =>
      let (x, strb) := wmBlock d l
      u.emit (.wmWrite (block l) d.hall gen x (if clear then BitVec.allOnes 256 else strb))) s
    let t := { t with protect := { t.protect with written := insertNat d.granule t.protect.written } }
    t.respond p d .ok
  else if clear then
    ((s.countHall d.hall fun c => { c with wmZeroReads := c.wmZeroReads + 1 }).modDma p d.tag fun x =>
      { x with lines := [] }).respondNow p d.tag
  else if 256 < s.protect.wmReads.length + d.blocks.length then s.await p d.tag .wm
  else
    let t := s.modDma p d.tag fun x => { x with wait := .lines, left := d.blocks.length }
    forEach d.blocks (fun l u =>
      { u.emit (.wmRead (block l) d.hall gen) with
        protect := { u.protect with wmReads := u.protect.wmReads ++ [{ port := p, tag := d.tag, first := l }] } }) t

/-- Run a request on a segment from where it stands. -/
def State.runSeg (s : State) (p tag : Nat) : State :=
  match s.dma p tag with
  | none => s
  | some d => if (s.seg d.seg).mode = .wm then s.runWm p d else s.runLines p d

/-- Insert a waiting request by its arrival: number, port, tag. -/
def insertArrival (x : Nat × Nat × Nat) : List (Nat × Nat × Nat) → List (Nat × Nat × Nat)
  | [] => [x]
  | y :: l => if x.1 < y.1 then x :: y :: l else y :: insertArrival x l

/-- Run again every request that waits for one of these, in the order in which they reached the unit (R244). -/
def State.wake (s : State) (ws : List DmaWait) : State :=
  let l := s.engines.flatMap fun e => (e.2.dmas.filter fun d => d.wait ∈ ws ∧ d.kind = 0).map fun d => (d.arrival, e.1, d.tag)
  forEach (l.foldr insertArrival []) (fun x t => t.runSeg x.2.1 x.2.2) s

/-! ### Entering a segment request (R197, R199) -/

/-- A request as it passes translation: its backing, its key slot, its generations and its place in the order of arrival
(R17, R18, R244). -/
def State.translated (s : State) (d : Dma) : Dma :=
  let g := s.seg d.seg
  { d with segBase := g.base, keySlot := g.keySlot, refGen := g.gen, ctxGen := (s.ctx d.hall d.context).gen,
           arrival := s.protect.arrivals, wait := .lines, todo := if d.write then List.range d.beatCount else [] }

/-- Start an inner or engine request on a segment that has passed its checks. -/
def State.startSeg (s : State) (p : Nat) (d : Dma) : State :=
  let t := s.modEngine p fun e => { e with dmas := e.dmas ++ [s.translated d] }
  ({ t with protect := { t.protect with arrivals := t.protect.arrivals + 1 } }).runSeg p d.tag

/-! ### Responses of a memory port (R57, R241 to R247) -/

/-- The controller's uncorrectable line counts toward the port's fence: true at the 64th within 16 strides (R376). -/
def State.noteUe (s : State) (m : Nat) : State × Bool :=
  let l := 0 :: (s.memPort m).ues
  (s.modMemPort m fun x => { x with ues := l }, 64 ≤ l.length)

/-- MPX_DATA_UE against a segment's hall; the record names the memory port toward whose fence the line counts (log entry
53). -/
def State.dataUe (s : State) (m k : Nat) : State :=
  s.raise Ev.mpxDataUe
    { unit := unitId 2 m, hall := some (segHall k), status := Status.poison.code, object := BitVec.ofNat 16 k }

/-- Status of a line read from a port and its data, with the events of R247. -/
def State.readOutcome (s : State) (m k : Nat) (x : LineRead) : State × Status × Line :=
  match x with
  | .plain d c => (if c then s.mpx Ev.mpxCorrected k .ok else s, .ok, d)
  | .poisoned => (s, .poison, 0)
  | .macFail => (s.mpx Ev.mpxMacFail k .integrity, .integrity, 0)
  | .uncorrectable => (s.dataUe m k, .poison, 0)

/-- Rewrite a line's stored bits as corrected; a poison line goes back with its marker (R57, R247). -/
def State.rewriteCorrected (s : State) (h set n k : Nat) (raw : RawLine) : State :=
  match decodeLine raw with
  | some x => if x.corrected then s.writeLine h set n (x.data, sideBand x.data x.mac) (x.data == poisonData) k else s
  | none => s

/-- One line of a data read arrives for a request. -/
def State.lineArrives (s : State) (p tag : Nat) (r : MemReq) (a ctr : Nat) (raw : RawLine) : State :=
  match s.dma p tag with
  | none => s
  | some d =>
    let g := s.seg d.seg
    let (m, a0) := (s.dmaSet d).place (d.setLine 0)
    let i := a - a0
    let x := openLine (s.slot r.keySlot) g.mode g.set (d.setLine i) ctr raw
    let (t, st, line) := s.readOutcome m d.seg x
    let t := t.rewriteCorrected d.hall g.set (d.setLine i) d.seg raw
    t.modDma p tag fun d => { d.note st with left := d.left - 1, lines := d.lines.set 0 i line }

/-- What the read of a partial write's line makes of it, with the events of R247. -/
def State.oldOutcome (s : State) (k i : Nat) (x : LineRead) : State × OldLine :=
  match x with
  | .plain d c => (if c then s.mpx Ev.mpxCorrected k .ok else s, { line := i, data := d, status := .ok, stays := false })
  | .poisoned => (s, { line := i, data := 0, status := .poison, stays := true })
  | .macFail => (s.mpx Ev.mpxPoisoned k .integrity, { line := i, data := 0, status := .integrity, stays := false })
  | .uncorrectable => (s.mpx Ev.mpxPoisoned k .poison, { line := i, data := 0, status := .poison, stays := false })

/-- The line of a partial write arrives; the write goes on from it (R243, R247). -/
def State.partialArrives (s : State) (p tag : Nat) (r : MemReq) (a ctr : Nat) (raw : RawLine) : State :=
  match s.dma p tag with
  | none => s
  | some d =>
    let g := s.seg d.seg
    let i := a - ((s.dmaSet d).place (d.setLine 0)).2
    let (t, x) := s.oldOutcome d.seg i (openLine (s.slot r.keySlot) g.mode g.set (d.setLine i) ctr raw)
    t.modDma p tag fun d => { d with asked := d.asked.filter (· ≠ i), old := d.old ++ [x] }

/-- A line of an overflow arrives: written back under its new counter, or as poison (R225, R247). -/
def State.overflowArrives (s : State) (r : MemReq) (k l ctr : Nat) (raw : RawLine) : State :=
  let g := s.seg k
  let tree := s.treeFor k (l / 64)
  let n := lineOf g.base l
  let x := openLine (s.slot r.keySlot) .sealed g.set n ctr raw
  let t := match x with
    | .plain d fixed =>
      (if fixed then s.mpx Ev.mpxCorrected k .ok else s).storeLine tree g.base l (s.ctrOf tree l) (some d)
    | .poisoned => s.storeLine tree g.base l (s.ctrOf tree l) none
    | _ => (s.mpx Ev.mpxPoisoned k .poison).storeLine tree g.base l (s.ctrOf tree l) none
  let o := t.protect.overflows.map fun o => if o.seg = k ∧ o.group = l / 64 then { o with left := o.left.filter (· ≠ l) } else o
  let done := o.filter fun o => o.left = []
  forEach done (fun o u => u.finishWrite o.port o.tag)
    { t with protect := { t.protect with overflows := o.filter fun o => o.left ≠ [] } }

/-- The lanes that a mask selects, ascending. -/
def lanes (mask : BitVec 4) : List Nat := (List.range 4).filter fun i => bit mask i

/-- A read whose lines have all come responds. -/
def State.finishRead (s : State) (p tag : Nat) : State :=
  match s.dma p tag with
  | some d => if !d.write ∧ d.left = 0 then s.respondNow p tag else s
  | none => s

/-- Deliver the lines of a response to what asked for them. -/
def State.deliverLines (s : State) (r : MemReq) (lines : List RawLine) : State :=
  let items := ((lanes r.mask).zip (lines.zip (r.ctrs ++ [0, 0, 0, 0])))
  match r.why with
  | .dma p tag =>
    (forEach items (fun x t => t.lineArrives p tag r (4 * r.block + x.1) x.2.2 x.2.1) s).finishRead p tag
  | .partialWrite p tag =>
    (forEach items (fun x t => t.partialArrives p tag r (4 * r.block + x.1) x.2.2 x.2.1) s).runSeg p tag
  | .overflow k l => forEach items (fun x t => t.overflowArrives r k l x.2.2 x.2.1) s
  | _ => s

/-- Uncorrectable lines of a data response, which count toward the port's fence. -/
def ueCount (lines : List RawLine) : Nat := lines.countP fun l => (decodeLine l).isNone

/-! ### The fence of a memory port (R377, R379) -/

/-- Complete POISON every request that has a read outstanding or waiting on a port. -/
def State.poisonPort (s : State) (m : Nat) : State :=
  let reqs := (s.memPort m).outstanding ++ (s.memPort m).waiting
  let t := s.modMemPort m fun x => { x with outstanding := [], waiting := [] }
  forEach reqs (fun r u =>
    match r.why with
    | .dma p tag | .partialWrite p tag => ((u.dma p tag).map fun d => u.cut p .poison d).getD u
    | _ => u) t

/-- Fence a memory port (R376, R377). -/
def State.fenceMemPort (s : State) (m : Nat) (cause : BitVec 4) : State :=
  if s.inService 2 m then ((s.beginFence 2 m cause none).poisonPort m).wake [.lock, .chain]
  else s.beginFence 2 m cause none

/-- Note `n` uncorrectable lines of a port: whether any of them calls for the port's fence. -/
def State.noteUes (s : State) (m : Nat) : Nat → State × Bool
  | 0 => (s, false)
  | n + 1 => (((s.noteUe m).1.noteUes m n).1, (s.noteUe m).2 || ((s.noteUe m).1.noteUes m n).2)

/-- Note `n` uncorrectable lines of a port, and fence it where they call for it (R376). -/
def State.countUes (s : State) (m n : Nat) : State :=
  if (s.noteUes m n).2 then (s.noteUes m n).1.fenceMemPort m Cause.errors else (s.noteUes m n).1

/-- The memory ports take what their controllers send: the fabric is out of reset, so nothing of before it is left (R40,
R421). -/
def State.memResponse (s : State) (m : Nat) (tag : BitVec 9) (lines : List RawLine) : State :=
  if !s.core.released then s
  else if !s.inService 2 m then s.modUnit (unitId 2 m) fun u => { u with triggered := true }
  else
    match (s.memPort m).outstanding.find? fun r => r.tag == tag.toNat with
    | none => s.fenceMemPort m Cause.protocol
    | some r =>
      match r.why with
      | .node .. => s                  -- the chain's own event takes it (R237)
      | _ =>
        let t := s.modMemPort m fun x => { x with outstanding := x.outstanding.filter fun q => q.tag != r.tag }
        ((t.deliverLines r lines).countUes m (ueCount lines)).wake [.lock]

/-- MEMORY_CREDIT_RETURN: beyond 512 credits the port is fenced (R55, R376). -/
def State.creditReturn (s : State) (m n : Nat) : State :=
  if !s.core.released then s
  else if !s.inService 2 m then
    if n = 0 then s else s.modUnit (unitId 2 m) fun u => { u with triggered := true }
  else if 512 < (s.memPort m).credits + n then s.fenceMemPort m Cause.protocol
  else (s.modMemPort m fun x => { x with credits := x.credits + n }).pumpPort m

/-- MEMORY_REQUEST_TIMEOUT: a request is outstanding one stride after its acceptance (R376). DESIGN CHOICE (log entry 95): of
writes and of the core's own background reads the model holds only the credits that they occupy; where nothing else is
outstanding and credits are missing, the event is taken to concern one of them. -/
def State.memTimeout (s : State) (m : Nat) : State :=
  let x := s.memPort m
  if s.inService 2 m ∧ x.credits < 512 ∧ (x.outstanding = [] ∨ x.outstanding.any fun r => 1 ≤ r.age) then
    s.fenceMemPort m Cause.timeout
  else s

/-- WM_READ_RESPONSE: the oldest block read returns (R58). -/
def State.wmResponse (s : State) (data : BitVec 2048) : State :=
  match s.protect.wmReads with
  | [] => s
  | w :: rest =>
    let t := { s with protect := { s.protect with wmReads := rest } }
    let t := match t.dma w.port w.tag with
      | some d =>
        let put (l : Tab Line) (lane : Nat) : Tab Line :=
          if d.address / 64 ≤ w.first + lane ∧ w.first + lane < d.address / 64 + d.beatCount then
            l.set 0 (w.first + lane - d.address / 64) (BitVec.ofNat 512 (bits data (512 * lane + 511) (512 * lane)))
          else l
        (t.modDma w.port w.tag fun x =>
          { x with left := x.left - 1, lines := (List.range 4).foldl put x.lines }).finishRead w.port w.tag
      | none => t
    t.wake [.wm]

/-! ### Chains from memory (R237, R247) -/

/-- The block of a copy that opens under a parent counter: its code is correctable and its MAC matches. -/
def copyOk (k : Slot) (set n parent : Nat) (raw : RawLine) : Option (Line × Bool) :=
  match decodeLine raw with
  | some x => if x.mac = nodeMac k set n parent x.data then some (x.data, x.corrected) else none
  | none => none

/-- What a fetched leaf or node turned out to be. -/
inductive NodeCheck where
  | good (b : Line) (fixA fixB repair usedB : Bool)   -- copy A or B is rewritten; copy A was repaired; B was read
  | bad (usedB : Bool)
  | needB                              -- copy A failed, and copy B has not been read
deriving DecidableEq, Repr

/-- Check the copies of a leaf or node against its parent's counter: copy A, and copy B of a node where A fails (R237,
R247). -/
def State.checkNode (s : State) (r : TreeRef) (level i parent : Nat) (c : ChainLevel) : NodeCheck :=
  let ok (raw : RawLine) := copyOk (s.treeSlot r) (s.treeSet r) (s.metaLine r level i) parent raw
  match ok c.copyA with
  | some (b, fixed) => .good b fixed false false false
  | none =>
    if level = 0 then .bad false
    else
      match c.copyB with
      | none => .needB
      | some raw =>
        match ok raw with
        | some (b, fixed) => .good b true fixed true true
        | none => .bad true

/-- Follow the path of a group from the root down through the levels that have been fetched: the check of each, highest
first, as far as the path stands. `ctr` is the counter that guards the level, where it is known; below a zero counter only
what the core holds counts (R230). -/
def State.checkPath (s : State) (r : TreeRef) (g : Nat) (got : Nat → Option ChainLevel) :
    List Nat → Option Nat → List (Nat × Nat × NodeCheck)
  | [], _ => []
  | level :: below, ctr =>
    let i := g / 8 ^ level
    let next (b : Line) : Option Nat := some (nodeCtr b (g / 8 ^ (level - 1) % 8))
    if ctr = some lostCtr ∨ s.isLost r level i then []
    else
      match s.cachedNode r level i with
      | some e => s.checkPath r g got below (next e.block)
      | none =>
        match got level, ctr with
        | _, some 0 => s.checkPath r g got below (some 0)
        | some c, some parent =>
          match s.checkNode r level i parent c with
          | .good b fa fb rep ub => (level, parent, .good b fa fb rep ub) :: s.checkPath r g got below (next b)
          | x => [(level, parent, x)]
        | _, _ => s.checkPath r g got below none

/-- Rewrite the copies of a checked node that need it, with the event of R247. -/
def State.fixNode (s : State) (r : TreeRef) (level i parent payer : Nat) (b : Line) (fixA fixB repair : Bool) : State :=
  let set := s.treeSet r
  let n := s.metaLine r level i
  let line := (b, sideBand b (nodeMac (s.treeSlot r) set n parent b))
  let t := if repair then s.mpx Ev.mpxNodeRepair r.seg .ok else s
  let t := if fixA then (if repair then t else t.mpx Ev.mpxCorrected r.seg .ok).writeLine payer set n line false r.seg else t
  if fixB then (t.mpx Ev.mpxCorrected r.seg .ok).writeLine payer set (s.metaLineB r level i) line false r.seg else t

/-- The read is of a node's copy B. -/
def MemWhy.isCopyB : MemWhy → Bool
  | .node _ _ b => b
  | _ => false

/-- Take one checked level: a good block enters the cache, a bad one's child is marked lost. -/
def State.takeNode (s : State) (r : TreeRef) (g : Nat) (x : Nat × Nat × NodeCheck) : State :=
  let i := g / 8 ^ x.1
  let readB (t : State) (used : Bool) : State :=
    if used ∧ !(t.nodeReads (t.treeSet r) (t.metaLine r x.1 i)).any fun q => q.why.isCopyB then
      t.readSetNow (segHall r.seg) (t.treeSet r) (t.metaLineB r x.1 i) else t
  match x.2.2 with
  | .good b fixA fixB repair usedB =>
    ((readB s usedB).fixNode r x.1 i x.2.1 (segHall r.seg) b fixA fixB repair).fill r x.1 i b false
  | .bad usedB => (readB s usedB).loseSubtree r x.1 i
  | .needB => s

/-- The reads of a group's path that are under way, by level. -/
def State.pathReads (s : State) (r : TreeRef) (g : Nat) : List Nat :=
  (s.levels r).filter fun k =>
    let (p, _) := (s.set_ (s.treeSet r)).place (s.metaLine r k (g / 8 ^ k))
    (s.memPort p).outstanding.any fun q =>
      match q.why with
      | .node a b _ => a == s.treeSet r && b == s.metaLine r k (g / 8 ^ k)
      | _ => false

/-- The reads of a group's path leave their ports: they have been answered. -/
def State.closeReads (s : State) (r : TreeRef) (g : Nat) : State :=
  let lines := (s.levels r).map fun k => s.metaLine r k (g / 8 ^ k)
  { s with ports := s.ports.mapAll {} fun _ m =>
      { m with outstanding := m.outstanding.filter fun q =>
          match q.why with
          | .node a b _ => !(a == s.treeSet r && b ∈ lines)
          | _ => true } }

/-- The tree whose reads of a group's path are under way: the one that serves the group now, or else another of the segment,
since a re-key moves a group with reads of both (R267, R269). -/
def State.fetchedTree (s : State) (k g : Nat) : TreeRef :=
  (([s.treeFor k g, ⟨k, none⟩, ⟨k, s.channelOf k⟩].find? fun r => s.pathReads r g ≠ [])).getD (s.treeFor k g)

/-- COUNTER_CHAIN_FETCHED: the metadata reads of a group's path have returned; `levels` holds what came for each fetched
level, leaf first. The whole path is checked before any of it enters the cache (R237). Where copy A of a node fails and
copy B is not at hand, B is read first. -/
def State.chainFetched (s : State) (k g : Nat) (levels : List ChainLevel) : State :=
  let r := s.fetchedTree k g
  let reads := s.pathReads r g
  if !s.core.released ∨ reads = [] then s
  else
    let got (level : Nat) : Option ChainLevel := ((reads.zip levels).find? fun x => x.1 == level).map Prod.snd
    let top := (s.treeExt r).topLevel
    let checks := s.checkPath r g got (s.levels r).reverse (some (nodeCtr (s.treeRoot r) (g / 8 ^ top % 8)))
    match checks.find? fun x => x.2.2 = .needB with
    | some x =>
      let set := s.treeSet r
      let n := s.metaLine r x.1 (g / 8 ^ x.1)
      if (s.nodeReads set n).any fun q => q.why.isCopyB then s
      else s.readLine (segHall k) set (s.metaLineB r x.1 (g / 8 ^ x.1)) (.node set n true) k
    | none =>
      let t := forEach checks (fun x u => u.takeNode r g x) s
      ((drainEvicting 64 (t.closeReads r g)).wake [.chain]).wake [.lock]

end Sys2Proof.Machine
end

