-- ==== Sys2Proof/Machine/Keys.lean ====
section
/-! DEFINITION. The Vault: derivation (R256 to R262), memory key slots (R263 to R265), the life of a segment entry (R128,
R198, R214, R215, R234), live re-keying (R266 to R271) and Vault errors (R255). -/

namespace Sys2Proof.Machine

/-! ### Derivation (R256, R257) -/

/-- A label's ASCII bytes. -/
def ascii (l : String) : List Byte := l.toList.map fun c => BitVec.ofNat 8 c.toNat

/-- KDF(K_I, label, context, L) of R256, L in bits; the first output byte first. -/
def kdf (key : List Byte) (label : String) (context : List Byte) (l : Nat) : List Byte :=
  (((List.range (ceilDiv l 384)).flatMap fun i =>
    hmacSha384 key (beBytes 4 (i + 1) ++ ascii label ++ [0] ++ context ++ beBytes 4 l))).take (l / 8)

/-- A symmetric key from derived bytes. -/
def keyOf (b : List Byte) : BitVec 256 := BitVec.ofNat 256 (leNat (b.take 32))

/-- The order of the P-384 group (PRESUMED, log entry 5: FIPS 186-5). -/
def p384Order : Nat :=
  0xFFFFFFFFFFFFFFFFFFFFFFFFFFFFFFFFFFFFFFFFFFFFFFFFC7634D81F4372DDF581A0DB248B0A77AECEC196ACCC52973

/-- A P-384 private key from 448 derived bits (R257). -/
def p384Key (b : List Byte) : BitVec 448 := BitVec.ofNat 448 (leNat b.reverse % (p384Order - 1) + 1)

/-- The epoch root of a root seed and epoch. -/
def epochRoot (seed : BitVec 256) (epoch : BitVec 16) : BitVec 256 :=
  keyOf (kdf (bytesOf seed) "GUHAM EPOCH" (leBytes 2 epoch.toNat) 256)

def identityKey (seed : BitVec 256) : BitVec 448 := p384Key (kdf (bytesOf seed) "GUHAM IDENTITY" [] 448)

def linkIdentityKey (seed : BitVec 256) : BitVec 448 := p384Key (kdf (bytesOf seed) "GUHAM LINK IDENTITY" [] 448)

/-- Hall secret HS_h from the epoch root, the hall, its generation and the contribution. -/
def hallSecret (er : BitVec 256) (h : Nat) (gen : Gen) (c : List Byte) : BitVec 384 :=
  BitVec.ofNat 384 (leNat (kdf (bytesOf er) "GUHAM HALL" (leBytes 1 h ++ leBytes 2 gen.toNat ++ c) 384))

/-- K1 ‖ K2 of a memory slot. -/
def slotKeys (hs : BitVec 384) (slot : Nat) (gen : Gen) (inst : Word) : BitVec 256 × BitVec 256 :=
  let b := kdf (bytesOf hs) "GUHAM MEMORY" (leBytes 2 slot ++ leBytes 2 gen.toNat ++ leBytes 8 inst.toNat) 512
  (keyOf b, keyOf (b.drop 32))

/-- Host session key of a tenant hall (R257, R259). -/
def tenantHostKey (secret : List Byte) (h : Nat) (gen : Gen) (epoch : BitVec 16) : BitVec 256 :=
  keyOf (kdf secret "GUHAM HOST" (leBytes 1 h ++ leBytes 2 gen.toNat ++ leBytes 2 epoch.toNat) 256)

/-- Host session key of hall 0. -/
def operatorHostKey (er : BitVec 256) (gen : Gen) : BitVec 256 :=
  keyOf (kdf (bytesOf er) "GUHAM HOST ZERO" (leBytes 2 gen.toNat) 256)

/-- Link key of one direction (R257). -/
def linkKey (z : BitVec 384) (sSerial rSerial : Word) (sPort rPort : Nat) (gen : Gen) : BitVec 256 :=
  keyOf (kdf (bytesOf z) "GUHAM LINK" (leBytes 8 sSerial.toNat ++ leBytes 8 rSerial.toNat ++ leBytes 1 sPort ++
    leBytes 1 rPort ++ leBytes 2 gen.toNat) 256)

/-- Group key GK (R257, R261). -/
def groupKey (er : BitVec 256) (g : Nat) (gen : Gen) (digest : List Byte) : BitVec 256 :=
  keyOf (kdf (bytesOf er) "GUHAM GROUP" (leBytes 2 g ++ leBytes 2 gen.toNat ++ digest) 256)

def deliveryKey (gk : BitVec 256) (g : Nat) : BitVec 256 := keyOf (kdf (bytesOf gk) "GUHAM DELIVERY" (leBytes 2 g) 256)

def roundingKey (seed : BitVec 256) : BitVec 256 := keyOf (kdf (bytesOf seed) "GUHAM ROUNDING" [] 256)

/-! ### Memory key slots (R263 to R265) -/

/-- Slots that a hall holds. -/
def State.slotsHeld (s : State) (h : Nat) : Nat := s.vault.slots.countP fun e => e.2.state ≠ .free ∧ e.2.hall = h

/-- The lowest FREE slot. -/
def State.freeSlot (s : State) : Option Nat := (List.range 1024).find? fun k => (s.slot k).state = .free

/-- The management processor may derive keys that descend from a hall's secret: the Vault holds it, and no transition to
RETURNED awaits its reset (R258, R262, R402). -/
def State.derives (s : State) (h : Nat) : Bool := ((s.hallKey h).secret).isSome ∧ !s.lc.noKeys

/-- The keys of a slot at its generation and installation number; none without the hall's secret (R258). -/
def State.keysFor (s : State) (x : Slot) (slot : Nat) : Option (BitVec 256 × BitVec 256) :=
  ((s.hallKey x.hall).secret).map fun hs => slotKeys hs slot x.gen x.inst

/-- A slot with the keys that its generation and installation number give. -/
def State.keyed (s : State) (slot : Nat) (x : Slot) : Slot :=
  match s.keysFor x slot with
  | some k => { x with k1 := k.1, k2 := k.2 }
  | none => x

/-- Install a slot for a segment (R263): the generation and the installation number step, the keys are derived. -/
def State.installSlot (s : State) (slot k : Nat) (st : SlotState) : State :=
  let h := segHall k
  let t := s.modHallKey h fun x => { x with installs := x.installs + 1 }
  t.modSlot slot fun x =>
    t.keyed slot { x with state := st, gen := nextGen x.gen, hall := h, context := k / 8 % 16, index := k % 8,
                          mode := (s.seg k).mode, inst := (t.hallKey h).installs }

/-- Release a slot: its keys are overwritten, its generation stays (R265). -/
def State.releaseSlot (s : State) (slot : Nat) : State := s.modSlot slot fun x => { gen := x.gen }

/-- Give a sealed or veiled segment that has none the lowest FREE slot (R264). -/
def State.giveSlot (s : State) (k : Nat) : State :=
  if (s.seg k).state = .invalid ∨ (s.seg k).mode = .wm ∨ (s.seg k).keyed ∨ !s.derives (segHall k) then s
  else
    match s.freeSlot with
    | some slot => (s.installSlot slot k .inUse).modSeg k fun g => { g with keySlot := slot, keyed := true }
    | none => s

/-- The segment entries of a hall, in ascending order of context and index. -/
def hallSegs (h : Nat) : List Nat := (List.range 128).map (128 * h + ·)

/-! ### Teardown of keys (R134) -/

/-- Zeroise a hall's key slots and host session key (R134 step 6). -/
def State.zeroiseHall (s : State) (h : Nat) : State :=
  let t := forAll 1024 (fun k u => if (u.slot k).state ≠ .free ∧ (u.slot k).hall = h then u.releaseSlot k else u) s
  let t := forEach (hallSegs h) (fun k u => u.modSeg k fun g => { g with keySlot := 0, keyed := false }) t
  t.modHallKey h fun _ => ({} : HallKey)

/-! ### Segment entries (R128, R198, R214, R215, R230, R234) -/

/-- The extent that a SEGMENTS record's new entry takes, where it is sealed (R234). -/
def State.newExtent (s : State) (r : SegRec) : Option SegMeta :=
  let x := s.set_ r.set
  if r.mode = .sealed then
    (freeRun x (s.extentsIn r.set) (extentUnits r.size x.ports.length x.perStack)).map fun b =>
      extentAt b r.size x.ports.length x.perStack
  else none

/-- Give a segment entry its extent and a zero root. -/
def State.putExtent (s : State) (k : Nat) (e : Option SegMeta) : State :=
  match e with
  | some x => { s with protect := { s.protect with
      segMeta := s.protect.segMeta.set {} k x, roots := s.protect.roots.set 0 k 0 } }
  | none => s

/-- The entry of a SEGMENTS record, one generation on. -/
def newSegment (r : SegRec) (g : Segment) : Segment :=
  { state := .valid, gen := nextGen g.gen, size := r.size, base := r.base, va := r.va, wr := r.wr, rd := r.rd,
    set := if r.mode = .wm then 0 else r.set, mode := r.mode }

/-- Create the entry of a SEGMENTS record: a new generation, an extent and a zero root where it is sealed (R198, R234). -/
def State.createSeg (s : State) (r : SegRec) : State :=
  let k := 128 * r.hall + 8 * r.context + r.index
  (s.modSeg k (newSegment r)).putExtent k (s.newExtent r)

/-- Discard the cache entries and waiting markers of an extent of a set (R240, R270). -/
def State.dropExtent (s : State) (set : Nat) (x : SegMeta) : State :=
  let keep (e : CacheEnt) : Bool := !(e.set == set && x.holds e.metaLine)
  { s with protect := { s.protect with
      cache := s.protect.cache.mapAll [] (fun _ l => l.filter keep),
      evicting := s.protect.evicting.filter keep,
      lost := s.protect.lost.filter fun y => !(y.set == set && x.holds y.metaLine) } }

/-- Discard a segment's cache entries, root, extent and lost markers (R240). -/
def State.dropTree (s : State) (k : Nat) : State :=
  let t := s.dropExtent (s.seg k).set (Tab.get {} s.protect.segMeta k)
  { t with protect := { t.protect with
      roots := t.protect.roots.set 0 k 0, segMeta := t.protect.segMeta.set {} k {},
      overflows := t.protect.overflows.filter (fun o => o.seg != k) } }

/-- The written-granule numbers of a working-memory backing: its first and one past its last. -/
def granules (g : Segment) : Nat × Nat := (g.base * 512, (g.base + g.size) * 512)

/-- Clear the written-granule bits of a backing, except where another live segment of the hall backs them (R138). -/
def State.clearGranules (s : State) (k : Nat) : State :=
  let (a, b) := granules (s.seg k)
  let others := (hallSegs (segHall k)).filter fun j => j ≠ k ∧ (s.seg j).state ≠ .invalid ∧ (s.seg j).mode = .wm
  let keep (n : Nat) : Bool := others.any fun j => (granules (s.seg j)).1 ≤ n ∧ n < (granules (s.seg j)).2
  { s with protect := { s.protect with written := s.protect.written.filter fun n => !(a ≤ n && n < b) || keep n } }

/-- The segment is withdrawn: INVALID with a new generation, its slot released, its tree discarded (R214, R240, R265). -/
def State.endSegment (s : State) (k : Nat) : State :=
  let g := s.seg k
  let t := if g.mode = .wm then s.clearGranules k
    else (if g.keyed then s.releaseSlot g.keySlot else s).dropTree k
  let t := ((t.restored (segHall k) (.lost k)).restored (segHall k) (.marker k))
  t.modSeg k fun x => { gen := nextGen x.gen }

/-- The withdrawal of a segment starts; its re-key is cancelled (R214, R271). -/
def State.startWithdrawSeg (s : State) (k : Nat) (hk : Fin 8192) : State :=
  let t := s.modSeg k fun g => { g with state := .withdrawing }
  let t := { t with xlat := { t.xlat with withdrawals := t.xlat.withdrawals ++ [({ ref := .segment hk } : Withdrawal)] } }
  match t.channelOf k with
  | some c => t.modChannel c fun x => { x with state := .cancelling }
  | none => t

/-- Outstanding requests that use a segment. -/
def State.segUsers (s : State) (k : Nat) : List (Nat × Dma) :=
  s.engines.flatMap fun e => (e.2.dmas.filter fun d => d.kind = 0 ∧ d.seg = k).map fun d => (e.1, d)

/-- The backing of a segment entry as something to free. -/
def State.scrubOf (s : State) (k : Nat) (teardown : Bool) : Scrub :=
  let g := s.seg k
  { entry := k, set := g.set, base := g.base, units := g.size, mode := g.mode, teardown := teardown,
    lost := g.state = .lost }

/-- A withdrawal completes: the entry becomes INVALID and its quota is free; the backing of a sealed or veiled segment is
to be scrubbed (R214, R215), where the hall's teardown does not hold it already. -/
def State.finishWithdrawSeg (s : State) (k : Nat) : State :=
  let t := s.endSegment k
  if (s.seg k).mode = .wm ∨ s.xlat.scrubs.any (fun x => x.teardown && x.entry == k) then t
  else { t with xlat := { t.xlat with scrubs := t.xlat.scrubs ++ [s.scrubOf k false] } }

/-! ### Re-keying (R266 to R271) -/

/-- The first failing check of a START, by its reason code (R266). -/
def State.rekeyCheck (s : State) (h c i : Nat) : BitVec 4 :=
  let k := 128 * h + 8 * c + i
  let g := s.seg k
  let x := s.set_ g.set
  if (g.state ≠ .valid ∧ g.state ≠ .lost) ∨ g.mode = .wm then 1
  else if (s.hall h).state ≠ .active ∧ (s.hall h).state ≠ .paused then 2
  else if (s.channelOf k).isSome then 3
  else if (List.range 16).all fun c => (s.channel c).state ≠ .free then 4
  else if (s.rec_ h).keyQuota ≤ s.slotsHeld h then 5
  else if g.mode = .sealed ∧
      freeRun x (s.extentsIn g.set) (extentUnits g.size x.ports.length x.perStack) = none then 6
  else if s.act.core.rekeyUnits = 0 then 7
  else 0

/-- Give a re-key a channel and a target slot; the segment has passed the checks (R266). -/
def State.startChannel (s : State) (c slot k : Nat) : State :=
  let g := s.seg k
  let x := s.set_ g.set
  let p := x.ports.length
  let base := (freeRun x (s.extentsIn g.set) (extentUnits g.size p x.perStack)).getD 0
  let t := (s.installSlot slot k .rekeyTarget).modSlot g.keySlot fun y => { y with state := .rekeySource }
  t.modChannel c fun _ =>
    { state := .moving, hall := segHall k, context := k / 8 % 16, index := k % 8, source := g.keySlot, target := slot,
      ext := if g.mode = .sealed then extentAt base g.size p x.perStack else {} }

/-- The management processor takes a START for a hall, context and index: accepted, or refused with a reason (R266). -/
def State.rekeyBegin (s : State) (h c i : Nat) : State :=
  let reason := s.rekeyCheck h c i
  let t := { s with vault := { s.vault with resultReason := reason, rekeyOp := 0 } }
  if reason = 0 then
    match (List.range 16).find? (fun c => (s.channel c).state = .free), s.freeSlot with
    | some ch, some slot =>
      let u := t.startChannel ch slot (128 * h + 8 * c + i)
      { u with vault := { u.vault with resultChannel := BitVec.ofNat 4 ch } }
    | _, _ => t
  else t

/-- The START that stands in KEY_REKEY_CMD is taken; one that would be accepted waits while the hall's secret is zeroised,
since its target slot's keys descend from that secret (R255, R258, log entry 72). -/
def State.takeRekey (s : State) : State :=
  let h := s.vault.rekeyHall.toNat
  let c := s.vault.rekeyContext.toNat
  let i := s.vault.rekeyIndex.toNat
  if s.vault.rekeyOp = 1 ∧ (s.rekeyCheck h c i ≠ 0 ∨ s.derives h) then s.rekeyBegin h c i else s

/-- A write of KEY_REKEY_CMD: the fields take the data; op START starts a re-key (R266, R279). -/
def State.rekeyStart (s : State) (data : Word) : State :=
  ({ s with vault := { s.vault with
      rekeyHall := BitVec.ofNat 6 (bits data 13 8), rekeyContext := BitVec.ofNat 4 (bits data 19 16),
      rekeyIndex := BitVec.ofNat 3 (bits data 26 24),
      rekeyOp := if bits data 1 0 ≤ 1 then BitVec.ofNat 2 (bits data 1 0) else s.vault.rekeyOp } }).takeRekey

/-! ### Installing a hall's keys (R129, R258, R259, R264, R276, R277) -/

/-- Install a hall's secret and host session key. -/
def State.installHall (s : State) (h : Nat) (secret : BitVec 384) (host : BitVec 256) : State :=
  s.modHallKey h fun _ => { secret := some secret, hostKey := some host }

/-- Re-establish those of a hall's secret and host session key that were zeroised; a new host session key starts its IV
counter at 0 (R255, R276). -/
def HallKey.refill (x : HallKey) (secret : BitVec 384) (host : BitVec 256) : HallKey :=
  { x with secret := some (x.secret.getD secret), hostKey := some (x.hostKey.getD host),
           iv := if x.hostKey.isSome then x.iv else 0 }

/-- Give the segments of a hall whose keys are installed their slots (R264). -/
def State.giveSlots (s : State) (h : Nat) : State := forEach (hallSegs h) (fun k u => u.giveSlot k) s

/-- A hall's zeroised secret and host session key are restored (R384); a re-key START that waited for the secret is
taken. -/
def State.keysRestored (s : State) (h : Nat) : State :=
  ((((s.restored h (.vault (.hallSecret (Fin.ofNat 64 h)))).restored h (.vault (.hostKey (Fin.ofNat 64 h)))).giveSlots
    h).takeRekey).wake [.rekey]

/-- Hall 0's keys: from the epoch root and its generation alone, with a contribution of 32 zero bytes (R129, R258); where
one of them was zeroised, that one again (R255). -/
def State.installOperator (s : State) : State :=
  match s.vault.epochRoot with
  | some er =>
    if s.mayInstall then
      (s.modHallKey 0 fun x =>
        x.refill (hallSecret er 0 (s.hall 0).gen (List.replicate 32 0)) (operatorHostKey er (s.hall 0).gen)).keysRestored 0
    else s
  | none => s

/-! ### Moving groups (R267 to R271) -/

/-- The segment that a channel moves. -/
def Channel.seg (x : Channel) : Nat := 128 * x.hall + 8 * x.context + x.index

/-- The group that a channel admits next. -/
def Channel.next (x : Channel) : Nat := x.landing + x.band.length

/-- The segment of a channel is LOST (R268). -/
def State.movesLost (s : State) (c : Nat) : Bool := (s.seg (s.channel c).seg).state = .lost

/-- A channel moves a sealed segment. -/
def State.movesSealed (s : State) (c : Nat) : Bool := (s.seg (s.channel c).seg).mode = .sealed

/-- The old and the new tree of a channel. -/
def State.oldTree (s : State) (c : Nat) : TreeRef := ⟨(s.channel c).seg, none⟩

def State.newTree (s : State) (c : Nat) : TreeRef := ⟨(s.channel c).seg, some c⟩

/-- The group stays zero in the new tree: it lies below a zero counter of the old one (R268). -/
def State.passesOver (s : State) (c g : Nat) : Bool := s.movesSealed c ∧ !s.movesLost c ∧ s.resolve (s.oldTree c) g = .zero

/-- The lines of a group that a move reads: every line of a veiled group, the written lines of a sealed one; none of a
LOST segment or below a zero or lost counter (R268). -/
def State.moveReads (s : State) (c : Nat) (g : Nat) : List Nat :=
  if s.movesLost c then []
  else if s.movesSealed c then
    match s.resolve (s.oldTree c) g with
    | .leaf b => (List.range 64).filter fun j => leafCtr b j ≠ 0
    | _ => []
  else List.range 64

/-- The lines of a group that a move writes as poison whatever a read gives (R268). -/
def State.moveAllPoison (s : State) (c g : Nat) : Bool :=
  s.movesLost c ∨ (s.movesSealed c ∧ s.resolve (s.oldTree c) g = .lost)

/-- The lines of a group that a move writes. -/
def State.moveWrites (s : State) (c g : Nat) : List Nat :=
  if s.moveAllPoison c g then List.range 64 else s.moveReads c g

/-- Move one line: opened under the source, written under the target with the counter (0, 1), as poison where its read
fails or where there is none (R268). -/
def State.moveLine (s : State) (c l : Nat) (raw : Option RawLine) : State :=
  let x := s.channel c
  let k := x.seg
  let g := s.seg k
  let n := lineOf g.base l
  let (t, d) := match raw with
    | some y =>
      let s := s.readSetNow rekeyPayer g.set n
      match openLine (s.slot x.source) g.mode g.set n (s.ctrOf (s.oldTree c) l) y with
      | .plain d fixed => (if fixed then s.mpx Ev.mpxCorrected k .ok else s, some d)
      | .poisoned => (s, none)
      | .macFail => (s.mpx Ev.mpxMacFail k .integrity, none)
      | .uncorrectable => ((s.dataUe ((s.set_ g.set).place n).1 k).countUes ((s.set_ g.set).place n).1 1, none)
    | none => (s, none)
  let t := t.storeLine (s.newTree c) g.base l 1 d rekeyPayer
  if d.isNone then t.modChannel c fun y => { y with poisoned := y.poisoned + 1 } else t

/-- The leaf block of a moved group: minor 1 for each moved line (R268). -/
def movedLeaf (js : List Nat) : Line := js.foldl (fun b j => setMinor b j 1) 0

/-- Nothing at or below a node is held as an entry of a tree: a zero counter above it says all there is. -/
def State.nothingBelow (s : State) (r : TreeRef) (level i : Nat) : Bool := !(s.treeEnts r).any fun e => e.below level i

/-- Groups that a zero counter above level 1 lets the channel pass over at once: one past the last (R268). -/
def State.zeroSpan (s : State) (r : TreeRef) (g : Nat) : Nat :=
  match ((s.levels r).reverse.find? fun k =>
      s.guardOf r k (g / 8 ^ k) = some 0 ∧ s.nothingBelow r k (g / 8 ^ k)) with
  | some k => (g / 8 ^ k + 1) * 8 ^ k
  | none => g + 1

/-- The levels of the new tree that end with a group: its leaf, and every node whose last group it is; these are written as
the group moves, so that each new node is written once (R269). -/
def State.endedLevels (s : State) (c g : Nat) : List Nat :=
  (s.levels (s.newTree c)).takeWhile fun k => (g + 1) % 8 ^ k = 0 ∨ g + 1 = s.leaves (s.channel c).seg

/-- The memory port of a line of a set. -/
def State.portAt (s : State) (set n : Nat) : Nat := ((s.set_ set).place n).1

/-- The lines that a group's move puts on each port: reads and writes of data, and the metadata writes that follow. -/
def State.moveCost (s : State) (c g : Nat) : List (Nat × Nat) :=
  let k := (s.channel c).seg
  let set := (s.seg k).set
  let r := s.newTree c
  let data := (s.portAt set (lineOf (s.seg k).base (64 * g)), (s.moveReads c g).length + (s.moveWrites c g).length)
  data :: if s.movesSealed c then (s.endedLevels c g).flatMap fun l =>
      (s.portAt set (s.metaLine r l (g / 8 ^ l)), 1) ::
        if l = 0 then [] else [(s.portAt set (s.metaLineB r l (g / 8 ^ l)), 1)]
    else []

/-- What remains of the share in the stride covers a group's whole traffic (R269). -/
def State.rekeyShareLeft (s : State) (c g : Nat) : Bool :=
  let cost := s.moveCost c g
  cost.all fun x => s.canSpend x.1 rekeyPayer (((cost.filter fun y => y.1 = x.1).map Prod.snd).sum) []

/-- Any access holds a line of the group (R267): the move waits. -/
def State.groupBusy (s : State) (k g : Nat) : Bool :=
  s.groupLocked k g ∨ (List.range 64).any fun j => s.lineInUse (s.seg k).set (lineOf (s.seg k).base (64 * g + j)) ∨
    (s.heldLine k (64 * g + j)).isSome

/-- Every port of a segment's set is in service: while one is fenced, no group moves (R271, R386). -/
def State.setUp (s : State) (k : Nat) : Bool := (s.set_ (s.seg k).set).ports.all fun m => s.inService 2 m

/-- A channel has a group to admit, and nothing but its counters and the share can keep it from doing so (R267, R269,
R271). -/
def State.mayAdmit (s : State) (c : Nat) : Bool :=
  let x := s.channel c
  x.state = .moving ∧ x.next < s.leaves x.seg ∧ x.band.length < 256 ∧ !s.groupBusy x.seg x.next ∧ s.setUp x.seg ∧
    s.timer.fclk.toNat + 4096 < strideFclk s.timer.strideCode

/-- The counters that a move of a channel's next group needs and that are not on die: of the old tree the group's chain,
of the new one the parent of its leaf. -/
def State.moveMissing (s : State) (c : Nat) : List (TreeRef × Nat) :=
  let g := (s.channel c).next
  if !s.movesSealed c ∨ s.movesLost c then []
  else
    (if s.resolve (s.oldTree c) g = .missing then [(s.oldTree c, 0)] else []) ++
      if s.resolve (s.newTree c) g = .missing then [(s.newTree c, 1)] else []

/-- A channel can admit its next group now. -/
def State.canAdmit (s : State) (c : Nat) : Bool :=
  s.mayAdmit c ∧ s.moveMissing c = [] ∧ (s.passesOver c (s.channel c).next ∨ s.rekeyShareLeft c (s.channel c).next)

/-- The channel whose turn it is: the first that can admit a group, from the round robin on (R269). -/
def State.rekeyTurn (s : State) : Option Nat :=
  ((List.range 16).map fun i => (s.vault.nextChannel + i) % 16).find? fun c => s.canAdmit c

/-- Write a dirty leaf or node of a new tree through to memory, as far as its parent is on die. -/
def State.writeThrough (s : State) (r : TreeRef) (level i : Nat) : State :=
  let t := s.zeroParent r level i
  match t.cachedNode r level i with
  | some e =>
    if e.dirty ∧ t.parentHeld r level i then
      (t.writeChild r level i rekeyPayer e.block).updateCached e e.block false
    else t
  | none => t

/-- Move the lines of a group and write its new leaf and the nodes that end with it. -/
def State.moveGroup (s : State) (c g : Nat) (lines : List RawLine) : State :=
  let reads := s.moveReads c g
  let writes := s.moveWrites c g
  let r := s.newTree c
  let ended := s.endedLevels c g
  let t := s.modChannel c fun y => { y with band := y.band ++ [g] }
  let t := if s.moveAllPoison c g then forEach writes (fun j u => u.moveLine c (64 * g + j) none) t
    else forEach (reads.zip lines) (fun z u => u.moveLine c (64 * g + z.1) (some z.2)) t
  if s.movesSealed c then forEach ended (fun l u => u.writeThrough r l (g / 8 ^ l)) (t.setLeaf r g (movedLeaf writes)) else t

/-- A group below a zero counter: nothing moves, and the landing passes over the whole subtree where no group is in the
band (R268). -/
def State.passGroup (s : State) (c g : Nat) : State :=
  if (s.channel c).band = [] then
    s.modChannel c fun y => { y with landing := min (s.zeroSpan (s.oldTree c) g) (s.leaves y.seg) }
  else s.modChannel c fun y => { y with band := y.band ++ [g] }

/-- REKEY_GROUP_MOVE: the channel whose turn it is admits its next group and makes its move (R268, R269); where counters
of the group are not on die they are fetched first, at the re-key share's cost. `lines` are the group's read lines in
ascending order. -/
def State.groupMove (s : State) (c : Nat) (lines : List RawLine) : State :=
  let g := (s.channel c).next
  if s.mayAdmit c ∧ s.moveMissing c ≠ [] then
    forEach (s.moveMissing c) (fun x u => u.fetchLevels x.1 g rekeyPayer (u.missingLevels x.1 x.2 g)) s
  else if s.rekeyTurn ≠ some c then s
  else
    let t := { s with vault := { s.vault with nextChannel := (c + 1) % 16 } }
    if s.passesOver c g then t.passGroup c g
    else if lines.length < (s.moveReads c g).length then s
    else t.moveGroup c g lines

/-- The landing has reached the end of the segment: the switch waits for the boundary (R270). -/
def State.landed (s : State) (c : Nat) : State :=
  let x := s.channel c
  if x.state = .moving ∧ x.band = [] ∧ s.leaves x.seg ≤ x.landing then
    s.modChannel c fun y => { y with state := .switchPending }
  else s

/-- REKEY_GROUP_COMPLETE: the first group of the band has moved, and the landing advances (R268). -/
def State.groupComplete (s : State) (c : Nat) : State :=
  let x := s.channel c
  match x.band with
  | [] => s.landed c
  | _ :: rest =>
    ((s.modChannel c fun y => { y with landing := y.landing + 1, band := rest }).landed c).wake [.rekey]

/-- A channel becomes free; the entries of an extent that goes with it are discarded. -/
def State.freeChannel (s : State) (c set : Nat) (old : SegMeta) : State :=
  let t := s.dropExtent set old
  { t with vault := { t.vault with channels := t.vault.channels.set {} c {} } }

/-- REKEY_CANCEL: the band of a stopped re-key is empty, so the channel, the target slot and the new extent are released
(R271). -/
def State.cancelRekey (s : State) (c : Nat) : State :=
  let x := s.channel c
  if x.state = .cancelling ∧ x.band = [] then
    let t := if (s.slot x.target).state = .rekeyTarget then s.releaseSlot x.target else s
    let t := if (t.slot x.source).state = .rekeySource then t.modSlot x.source fun y => { y with state := .inUse } else t
    t.freeChannel c (s.seg x.seg).set x.ext
  else s

/-- The switch of a channel whose landing has reached the end, at a boundary (R270). -/
def State.switchRekey (s : State) (c : Nat) : State :=
  let x := s.channel c
  if x.state = .switchPending then
    let k := x.seg
    let old := Tab.get {} s.protect.segMeta k
    let t := { s with protect := { s.protect with
      roots := s.protect.roots.set 0 k x.root, segMeta := s.protect.segMeta.set {} k x.ext } }
    let t := (t.releaseSlot x.source).modSlot x.target fun y => { y with state := .inUse }
    let t := t.modSeg k fun g => { g with keySlot := x.target, state := if g.state = .lost then .valid else g.state }
    let t := t.freeChannel c (s.seg k).set old
    (t.restored (segHall k) (.lost k)).restored (segHall k) (.marker k)
  else s

/-- A segment's re-key is cancelled (R271). -/
def State.stopRekey (s : State) (k : Nat) : State :=
  match s.channelOf k with
  | some c => s.modChannel c fun x => { x with state := .cancelling }
  | none => s

/-! ### Vault errors (R255) -/

/-- The chip holds the first member entry of a group: it issues the group's key (R261). -/
def State.issues (s : State) (g : Nat) : Bool :=
  match s.act.groups.find? fun r => r.group == g with
  | some r => r.myIndex = 0
  | none => false

/-- An entry that can be derived again (R255). -/
def State.derivable (s : State) : VaultEntry → Bool
  | .rootSeed | .epochRoot | .identityKey | .linkIdentityKey | .memSlot _ => true
  | .groupKey g => s.issues g
  | _ => false

/-- The hall that holds a Vault entry, if one does. -/
def State.holder (s : State) : VaultEntry → Option Nat
  | .hallSecret h | .hostKey h => some h
  | .memSlot k => if (s.slot k).state = SlotState.free then none else some (s.slot k).hall
  | .groupKey g | .roundingKey g => (s.act.groups.find? fun r => r.group == g.val).map GroupRec.hall
  | _ => none

/-- Zeroise an entry that cannot be derived again. -/
def State.zeroiseEntry (s : State) : VaultEntry → State
  | .hallSecret h => s.modHallKey h fun x => { x with secret := none }
  | .hostKey h => s.modHallKey h fun x => { x with hostKey := none }
  | .linkKey n egress => s.modLink n fun l => if egress then { l with egressKey := none } else { l with ingressKey := none }
  | .groupKey g => s.modGroup g fun x => { x with key := none, delivery := none }
  | .roundingKey g => s.modGroup g fun x => { x with rounding := none }
  | _ => s

/-- The management processor can derive an entry again now: its firmware runs, and a memory key needs the hall's secret
(R255, R258, R262). -/
def State.canRederive (s : State) : VaultEntry → Bool
  | .memSlot k => s.fwRuns ∧ s.derives (s.slot k).hall
  | .groupKey _ => s.fwRuns ∧ !s.lc.noKeys
  | _ => s.fwRuns

/-- VAULT_REDERIVE_DONE: the entry is derived again and VAULT_REDERIVED recorded (R255). A derivation repeats its inputs, so
an entry takes the value that it held. -/
def State.rederived (s : State) (e : VaultEntry) : State :=
  if e ∈ s.vault.rederiving ∧ s.canRederive e then
    let t := { s with vault := { s.vault with rederiving := s.vault.rederiving.filter (· ≠ e) } }
    let t := match e with
      | .memSlot k => t.modSlot k fun (x : Slot) => if x.state = SlotState.free then x else t.keyed k x
      | _ => t
    (t.raise Ev.vaultRederived { hall := s.holder e }).wake [.rekey]
  else s

/-- An operation needs a Vault entry: one that is being derived again is derived first (R255). -/
def State.need (s : State) (e : VaultEntry) : State := if e ∈ s.vault.rederiving then s.rederived e else s

end Sys2Proof.Machine
end

