-- ==== Sys2Proof/Machine/Xlat.lean ====
section
/-! DEFINITION. The host path: the host translation cache, ATS and page requests (R200 to R205), sectors read and sealed
in host pages (R272 to R276), and function-level reset (R54). -/

namespace Sys2Proof.Machine

/-! ### The host translation cache (R200, R201) -/

/-- Keep a function's first `n` entries, most recently used first. -/
def trimHtc (f : Nat) : Nat → List Htc → List Htc
  | _, [] => []
  | n, e :: rest =>
    if e.func = f then
      match n with
      | 0 => trimHtc f 0 rest
      | m + 1 => e :: trimHtc f m rest
    else e :: trimHtc f n rest

/-- Two page ranges share an address. -/
def overlaps (a n b m : Nat) : Bool := a < b + m ∧ b < a + n

/-- Remove the entries of a function and PASID that meet a range. -/
def dropHtc (f pasid page size : Nat) (l : List Htc) : List Htc :=
  l.filter fun e => !(e.func == f && e.pasid == pasid && overlaps e.page (2 ^ e.sizeLog2) page size)

/-- Fill the cache: within the hall's quota its least recently used entry goes (R200). -/
def State.fillHtc (s : State) (e : Htc) : State :=
  { s with xlat := { s.xlat with
      htc := trimHtc e.func (s.rec_ e.func).htcQuota (e :: dropHtc e.func e.pasid e.page (2 ^ e.sizeLog2) s.xlat.htc) } }

/-- The size, as a power of two, at which a translation of a size is stored (R201). -/
def storedSize (sizeLog2 : Nat) : Nat := if 21 ≤ sizeLog2 then 21 else if 16 ≤ sizeLog2 then 16 else 12

/-! ### Sectors (R272 to R276) -/

/-- First sector of a request. -/
def Dma.sector0 (d : Dma) : Nat := d.address / 512

/-- Number of sectors that a request touches. -/
def Dma.sectors (d : Dma) : Nat := (d.address + d.length - 1) / 512 + 1 - d.sector0

/-- The beat that a write brings for a line of its address space, if it brings one. -/
def Dma.beatAt (d : Dma) (line : Nat) : Option WBeat :=
  if d.address / 64 ≤ line ∧ line < d.address / 64 + d.beatCount then d.beats[line - d.address / 64]? else none

/-- The write covers the whole of its sector `j`. -/
def Dma.wholeSector (d : Dma) (j : Nat) : Bool :=
  (List.range 8).all fun k => ((d.beatAt (8 * (d.sector0 + j) + k)).map fun b => b.strb == BitVec.allOnes 64) = some true

/-- The sectors that a write covers in part. -/
def Dma.partials (d : Dma) : List Nat := (List.range d.sectors).filter fun j => !d.wholeSector j

/-- The bytes of sector `j` after a write over its old bytes. -/
def Dma.mergedSector (d : Dma) (j : Nat) (old : List Byte) : List Byte :=
  (List.range 512).map fun i =>
    match d.beatAt (8 * (d.sector0 + j) + i / 64) with
    | some b => if bit b.strb (i % 64) then BitVec.ofNat 8 (bits b.data (8 * (i % 64) + 7) (8 * (i % 64))) else (old[i]?).getD 0
    | none => (old[i]?).getD 0

/-- The 12 IV bytes of a sector that the core seals: writer 0x01 and the hall's counter (R272, R276). -/
def sectorIv (ctr : Word) : List Byte := [1] ++ leBytes 11 ctr.toNat

/-- The tag entry's key field for the hall's host session key. -/
abbrev hostKeyField : Nat := 0xFFFF

/-- The additional authenticated data of a sector (R273). -/
def sectorAad (v pasid hall : Nat) (gen : Gen) (epoch : BitVec 32) (key : Nat) : List Byte :=
  leBytes 8 v ++ leBytes 4 pasid ++ leBytes 1 hall ++ [0] ++ leBytes 2 gen.toNat ++ leBytes 4 epoch.toNat ++ leBytes 2 key ++
    List.replicate 10 0

/-- The data that binds a sector of a hall now: its address, PASID, hall, generation and bounce epoch. -/
def State.aadOf (s : State) (h pasid v key : Nat) : List Byte :=
  sectorAad v pasid h (s.hall h).gen (s.hallKey h).epoch key

/-- Seal one sector under a host session key: its ciphertext and its tag entry, with writer 0x01 (R272, R275). -/
def sealedSector (key : BitVec 256) (ctr : Word) (aad data : List Byte) : List Byte × List Byte :=
  let x := gcmSeal key (sectorIv ctr) aad data
  (x.1, x.2 ++ sectorIv ctr ++ leBytes 2 hostKeyField ++ [0, 0])

/-- A group's delivery key serves a hall that is admitted to it on this chip (R274, R278). -/
def State.admittedTo (s : State) (h g : Nat) : Bool := (s.group g).delivery.isSome ∧ (s.group g).admHall = h

/-- The key that a tag entry's key field names for a hall: its host session key, or the delivery key of a group to which it
is admitted (R272, R274, R278). -/
def State.sectorKey (s : State) (h field : Nat) : Option (BitVec 256) :=
  if field = hostKeyField then (s.hallKey h).hostKey
  else if field < 2048 ∧ s.admittedTo h field then (s.group field).delivery
  else none

/-- Open a sector of a hall at an address of a PASID: its bytes, unless writer or the reserved bytes carry a reserved value,
the key is not the hall's to use, or the tag does not verify (R274). -/
def State.openSector (s : State) (h pasid v : Nat) (x : Sector) : Option (List Byte) :=
  let field := byteField x.entry 29 28
  if 1 < byteField x.entry 16 16 ∨ byteField x.entry 31 30 ≠ 0 then none
  else
    (s.sectorKey h field).bind fun k =>
      gcmOpen k (slice (bytesOf x.entry) 16 12) (s.aadOf h pasid v field) (bytesOf x.cipher) ((bytesOf x.entry).take 16)

/-! ### The pages of a request (R196, R272) -/

/-- Where the tag entry of sector `j` of a request stands, as a host virtual address: TB + 32 × (v >> 9) (R272). -/
def State.tagAt (s : State) (d : Dma) (j : Nat) : Nat :=
  (Tab.get 0 (s.hallKey d.hall).bases d.context).toNat - 1 + 32 * (d.sector0 + j)

/-- The pages that a request touches: that of its sectors, then those of their tag entries. -/
def State.hostPages (s : State) (d : Dma) : List Nat :=
  (pageOf d.address :: (List.range d.sectors).map fun j => pageOf (s.tagAt d j)).eraseDups

/-- The request reads: it is a read, or a write that covers a sector in part. -/
def Dma.reads (d : Dma) : Bool := !d.write || d.partials ≠ []

/-- The cached translation of a page that permits what a request does there. -/
def State.hitFor (s : State) (d : Dma) (page : Nat) : Option Htc :=
  s.xlat.htc.find? fun e => e.holds d.hall d.context page (s.func d.hall).gen ∧ (!d.reads ∨ e.rd) ∧ (!d.write ∨ e.wr)

/-- The translated address of a page for a request, where there is one. -/
def State.pageFor (s : State) (d : Dma) (page : Nat) : Option Nat :=
  match d.pages.find? fun x => x.1 == page with
  | some x => some x.2
  | none => (s.hitFor d page).map fun e => e.host + (page - e.page)

/-- The translated address of a byte for a request whose pages are translated. -/
def Dma.hostAddr (d : Dma) (a : Nat) : Nat := assoc 0 d.pages (pageOf a) + a % 4096

/-! ### Issue on the host port (R53, R86, R274, R275) -/

/-- Bytes of one read and of one write on the host port at most. -/
def maxRead : Nat := min 4096 (max 128 Config.maxReadRequest)
def maxWrite : Nat := min 512 (max 128 Config.maxPayload)

/-- Cut a range into pieces of a size: the start and length of each. -/
def cutRange (addr len size : Nat) : List (Nat × Nat) :=
  (List.range (ceilDiv len size)).map fun i => (addr + i * size, min size (len - i * size))

/-- Write bytes on the host port: posted writes, never relaxed (R53, R275). -/
def State.hostSend (s : State) (h addr : Nat) (bytes : List Byte) : State :=
  forEach (cutRange 0 bytes.length maxWrite) (fun x t => t.emit (.hostWrite h (addr + x.1) (slice bytes x.1 x.2) false)) s

/-- Seal sector `j` of a request under the hall's host session key and send it, the data before its tag entry; refused once
the IV counter is at its end, or without a key (R275, R276). -/
def State.sealSector (s : State) (d : Dma) (j : Nat) (data : List Byte) : State × Status :=
  let k := s.hallKey d.hall
  match k.hostKey with
  | none => (s, .refused)
  | some key =>
    if k.iv = BitVec.allOnes 64 then (s, .refused)
    else
      let v := 512 * (d.sector0 + j)
      let x := sealedSector key k.iv (s.aadOf d.hall d.context v hostKeyField) data
      (((s.modHallKey d.hall fun x => { x with iv := x.iv + 1 }).hostSend d.hall (d.hostAddr v) x.1).hostSend d.hall
        (d.hostAddr (s.tagAt d j)) x.2, .ok)

/-- Seal sectors in order until one is refused. -/
def sealSectors (d : Dma) : List (Nat × List Byte) → State → State × Status
  | [], s => (s, .ok)
  | (j, data) :: rest, s =>
    match s.sealSector d j data with
    | (t, .ok) => sealSectors d rest t
    | (t, st) => (t, st)

/-- A partial write holds its sectors against the core's other writes to them (R275). -/
def State.sectorsHeld (s : State) (d : Dma) : Bool :=
  d.write ∧ s.xlat.hostReads.any fun r =>
    r.partialWrite ∧ r.func = d.hall ∧ r.pasid = d.context ∧
      (((s.engine r.port).dmas.find? fun x => x.tag == r.tag).map fun x =>
        overlaps d.sector0 d.sectors x.sector0 x.sectors) = some true

/-- The sectors that a request reads. -/
def Dma.readSectors (d : Dma) : List Nat := if d.write then d.partials else List.range d.sectors

/-- The reads of a request on the host port: its sectors' data, as one range where all are read, and their tag entries, each
as translated addresses and lengths (R274). -/
def State.hostRanges (s : State) (d : Dma) : List (Nat × Nat) :=
  let js := d.readSectors
  let data := if js.length = d.sectors then cutRange (d.hostAddr (512 * d.sector0)) (512 * d.sectors) maxRead
    else js.flatMap fun j => cutRange (d.hostAddr (512 * (d.sector0 + j))) 512 maxRead
  let first := s.tagAt d 0
  let here := min (32 * d.sectors) (4096 - first % 4096)
  let entries := if js.length = d.sectors then
      (cutRange first here 256 ++ cutRange (first + here) (32 * d.sectors - here) 256).map fun x => (d.hostAddr x.1, x.2)
    else js.map fun j => (d.hostAddr (s.tagAt d j), 32)
  data ++ entries

/-- Tags in use on the host port: those of host reads, and those of Translation Requests. -/
def State.hostTags (s : State) : List Nat :=
  s.xlat.hostReads.flatMap HostRead.tags ++ s.xlat.waits.filterMap (fun w => if w.pri then none else w.tag) ++
    s.xlat.stale.filterMap fun x => x.2.2.2

/-- The lowest `n` free tags. -/
def State.freeTags (s : State) (n : Nat) : List Nat := ((List.range 2048).filter fun t => t ∉ s.hostTags).take n

/-- There is room for `n` more among the 1,024 non-posted host requests (R53, R86). -/
def State.hostRoom (s : State) (n : Nat) : Bool := s.hostTags.length + n ≤ 1024

/-- Issue the reads of a request whose pages are translated. -/
def State.issueReads (s : State) (p : Nat) (d : Dma) : State :=
  let l := s.hostRanges d
  let tags := s.freeTags l.length
  let r : HostRead := { id := s.xlat.nextRead, func := d.hall, funcGen := (s.func d.hall).gen, port := p, tag := d.tag,
                        pasid := d.context, addr := d.address, tags := tags, partialWrite := d.write }
  let t := { s with xlat := { s.xlat with nextRead := s.xlat.nextRead + 1, hostReads := s.xlat.hostReads ++ [r] } }
  forEach (tags.zip l) (fun x u => u.emit (.hostRead d.hall x.1 x.2.1 x.2.2 true))
    (t.modDma p d.tag fun x => { x with wait := .host, pages := d.pages })

/-- Issue a request whose pages are translated: a write of whole sectors is sealed at once, any other first reads. -/
def State.issueHost (s : State) (p : Nat) (d : Dma) : State :=
  if d.reads then s.issueReads p d
  else
    let l := (List.range d.sectors).map fun j => (j, d.mergedSector j [])
    (sealSectors d l s).1.respond p d (sealSectors d l s).2

/-- Send the Translation Request of a wait that has no tag yet, where there is room (R86, R201). -/
def State.askAts (s : State) (w : XlatWait) : State :=
  match (if s.hostRoom 1 then s.freeTags 1 else []) with
  | [] => s
  | t :: _ =>
    ({ s with xlat := { s.xlat with waits := s.xlat.waits.map fun x => if x = w then { w with tag := some t } else x } }).emit
      (.ats w.func w.pasid w.page t)

/-- The wait on a page of a function and PASID. -/
def XlatWait.at_ (w : XlatWait) (f pasid page : Nat) : Bool := w.func == f && w.pasid == pasid && w.page == page

/-- A request waits on the translation of a page; the first one sends the Translation Request (R201). -/
def State.missHost (s : State) (p : Nat) (d : Dma) (page : Nat) : State :=
  let t := s.countHall d.hall fun c => { c with htcMisses := c.htcMisses + 1 }
  let t := t.modDma p d.tag fun x => { x with wait := .translation, pages := d.pages }
  if t.xlat.waits.any fun w => w.at_ d.hall d.context page then
    { t with xlat := { t.xlat with
      waits := t.xlat.waits.map fun w =>
        if w.at_ d.hall d.context page then { w with waiters := w.waiters ++ [(p, d.tag)] } else w } }
  else
    let w : XlatWait := { func := d.hall, pasid := d.context, page := page, needRead := d.reads, needWrite := d.write,
                          tag := none, pri := false, tries := 0, waiters := [(p, d.tag)] }
    ({ t with xlat := { t.xlat with waits := t.xlat.waits ++ [w] } }).askAts w

/-- The cached translations that a request uses become the hall's most recently used, and it keeps what they gave. -/
def State.takePages (s : State) (d : Dma) : State × Dma :=
  (forEach ((s.hostPages d).filterMap fun page => if d.pages.any fun x => x.1 == page then none else s.hitFor d page)
      (fun e t => t.touchHtc e) s,
 { d with pages := (s.hostPages d).map fun page => (page, (s.pageFor d page).getD 0) })

/-- Run a request of kind host page from where it stands: each of its pages needs a translation (R200, R201). -/
def State.runHost (s : State) (p tag : Nat) : State :=
  match s.dma p tag with
  | none => s
  | some d =>
    if s.sectorsHeld d then s.await p tag .lock
    else
      match (s.hostPages d).find? fun page => (s.pageFor d page).isNone with
      | some page => s.missHost p d page
      | none =>
        let (t, d) := s.takePages d
        if d.reads ∧ !t.hostRoom (t.hostRanges d).length then t.await p tag .lock else t.issueHost p d

/-- Send the Translation Requests that wait for a slot, and run again the host requests that wait for a sector or a slot. -/
def State.wakeHost (s : State) : State :=
  let t := forEach (s.xlat.waits.filter fun w => w.tag.isNone ∧ !w.pri ∧ !w.held) (fun w t => t.askAts w) s
  let l := t.engines.flatMap fun e => (e.2.dmas.filter fun d => d.wait = .lock ∧ d.kind = 1).map fun d => (e.1, d.tag)
  forEach l (fun x t => t.runHost x.1 x.2) t

/-- Start a request of kind host page: REFUSED with no event where the hall cannot reach host pages (R200, R272). -/
def State.startHost (s : State) (p : Nat) (d : Dma) : State :=
  if s.hostReach d.hall d.context then (s.modEngine p fun e => { e with dmas := e.dmas ++ [d] }).runHost p d.tag
  else s.deliver p d .refused

/-! ### ATS and page requests (R201 to R203) -/

/-- Complete REFUSED every request that waits on a translation. -/
def State.refuseWaiters (s : State) (ws : List (Nat × Nat)) : State :=
  forEach ws (fun x t => ((t.dma x.1 x.2).map fun d => t.respond x.1 d .refused).getD t) s

/-- Send a page request for a wait, or hold it while 512 are outstanding; REFUSED where the function has page requests
disabled or two have not helped (R202, R86). -/
def State.askPage (s : State) (w : XlatWait) : State :=
  if (s.func w.func).priDisabled ∨ 2 ≤ w.tries then s.refuseWaiters w.waiters
  else if 512 ≤ (s.func w.func).priOutstanding then
    { s with xlat := { s.xlat with waits := s.xlat.waits ++ [{ w with held := true }] } }
  else
    ((s.modFunc w.func fun x => { x with priOutstanding := x.priOutstanding + 1 }).emit
      (.pri w.func w.pasid w.page w.needRead w.needWrite)) |> fun t =>
    { t with xlat := { t.xlat with waits := t.xlat.waits ++ [{ w with pri := true, held := false, tries := w.tries + 1 }] } }

/-- What a waiting request does on the page: read, write. -/
def State.needsOf (s : State) (x : Nat × Nat) : Bool × Bool :=
  match s.dma x.1 x.2 with
  | some d => (d.reads, d.write)
  | none => (false, false)

/-- A translation serves a waiting request: it goes on from the page. -/
def State.pageReady (s : State) (x : Nat × Nat) (page host : Nat) : State :=
  (s.modDma x.1 x.2 fun d => { d with pages := (page, host) :: d.pages.filter fun y => y.1 != page }).runHost x.1 x.2

/-- A Translation Completion: the translation is stored, the requests that it serves go on, and the others need a page
request (R201, R202). `host` is the translated address of the page that the core asked for. -/
def State.translationCame (s : State) (w : XlatWait) (sizeLog2 host : Nat) (rd wr : Bool) : State :=
  let n := 2 ^ storedSize sizeLog2
  let t := { s with xlat := { s.xlat with waits := s.xlat.waits.filter (· ≠ w) } }
  let t := if rd ∨ wr then
      t.fillHtc { func := w.func, pasid := w.pasid, page := w.page / n * n, sizeLog2 := storedSize sizeLog2,
                  host := host / n * n, rd := rd, wr := wr, funcGen := (t.func w.func).gen }
    else t
  let lacks := w.waiters.filter fun x => ((s.needsOf x).1 ∧ !rd) ∨ ((s.needsOf x).2 ∧ !wr)
  let t := if lacks = [] then t
    else t.askPage { w with waiters := lacks, tag := none, needRead := lacks.any fun x => (s.needsOf x).1,
                            needWrite := lacks.any fun x => (s.needsOf x).2 }
  forEach (w.waiters.filter fun x => x ∉ lacks) (fun x u => u.pageReady x w.page host) t

/-- ATS_TRANSLATION_COMPLETION: one of before the function's reset is discarded first (R54, log entry 78). -/
def State.atsCompletion (s : State) (f pasid page sizeLog2 host : Nat) (rd wr : Bool) : State :=
  match s.xlat.stale.find? fun x => x.1 = f ∧ x.2.1 = pasid ∧ x.2.2.1 = page ∧ x.2.2.2.isSome with
  | some x => ({ s with xlat := { s.xlat with stale := s.xlat.stale.erase x } }).wakeHost
  | none =>
    match s.xlat.waits.find? fun w => w.at_ f pasid page ∧ w.tag.isSome ∧ !w.pri ∧ !w.held with
    | none => s
    | some w => (s.translationCame w sizeLog2 host rd wr).wakeHost

/-- A page request has ended: a held one of the function takes its place. -/
def State.pageRequestEnded (s : State) (f : Nat) : State :=
  let t := s.modFunc f fun x => { x with priOutstanding := x.priOutstanding - 1 }
  match t.xlat.waits.find? fun w => w.func = f ∧ w.held with
  | some w => ({ t with xlat := { t.xlat with waits := t.xlat.waits.filter (· ≠ w) } }).askPage { w with held := false }
  | none => t

/-- A Response Failure: every request of the function that waits on a page request is REFUSED, page requests are disabled,
and PRI_FAILURE is raised against the hall (R202). -/
def State.pageFailure (s : State) (f : Nat) : State :=
  let ws := s.xlat.waits.filter fun w => w.func = f ∧ (w.pri ∨ w.held)
  let t := { s with xlat := { s.xlat with waits := s.xlat.waits.filter fun w => !(w.func == f && (w.pri || w.held)) } }
  let t := t.modFunc f fun x => { x with priDisabled := true, priOutstanding := x.priOutstanding - (ws.filter XlatWait.pri).length }
  (forEach ws (fun w u => u.refuseWaiters w.waiters) t).raise Ev.priFailure { hall := some f, status := Status.refused.code }

/-- PRG_RESPONSE: Success asks for the translation again, Invalid Request refuses the waiting requests, every other code
is a Response Failure (R202). A response of before the function's reset is discarded first. -/
def State.prgResponse (s : State) (f pasid page : Nat) (code : BitVec 4) : State :=
  if s.xlat.stale.contains (f, pasid, page, none) then
    { s with xlat := { s.xlat with stale := s.xlat.stale.erase (f, pasid, page, none) } }
  else
    match s.xlat.waits.find? fun w => w.at_ f pasid page ∧ w.pri with
    | none => s
    | some w =>
      if code = 0 then
        let again : XlatWait := { w with pri := false, tag := none }
        (({ s with xlat := { s.xlat with waits := s.xlat.waits.map fun x => if x = w then again else x } }).askAts
          again).pageRequestEnded f
      else if code = 1 then
        (({ s with xlat := { s.xlat with waits := s.xlat.waits.filter (· ≠ w) } }).refuseWaiters w.waiters).pageRequestEnded f
      else s.pageFailure f

/-! ### Host read completions (R274, R275) -/

/-- The line `i` of a read request in the opened bytes of its sectors. -/
def Dma.lineFrom (d : Dma) (bytes : List Byte) (i : Nat) : Line :=
  toLine (slice bytes (64 * (d.address / 64 + i) - 512 * d.sector0) 64)

/-- The read is no longer outstanding, and an invalidation that waits for it waits no more (R205). -/
def State.dropHostRead (s : State) (r : HostRead) : State :=
  let t := { s with xlat := { s.xlat with hostReads := s.xlat.hostReads.filter fun x => x.id != r.id } }
  t.modFunc r.func fun f => { f with invals := f.invals.map fun v => (v.1, v.2.filter (· ≠ r.id)) }

/-- The sectors of a read are opened (R274) and handed to its request, or merged into the sectors that a partial write seals
again (R275). -/
def State.takeSectors (s : State) (r : HostRead) (d : Dma) (xs : List Sector) : State :=
  let js := d.readSectors
  let opened := (js.zip xs).map fun x => (x.1, s.openSector d.hall d.context (512 * (d.sector0 + x.1)) x.2)
  let bad := js.length - opened.countP fun x => x.2.isSome
  if 0 < bad then (forAll bad (fun _ u => u.hostTagFail d.hall) s).respond r.port d .integrity
  else if d.write then
    let old (j : Nat) : List Byte := (assoc none opened j).getD []
    let l := (List.range d.sectors).map fun j => (j, d.mergedSector j (old j))
    (sealSectors d l s).1.respond r.port d (sealSectors d l s).2
  else
    let bytes := opened.flatMap fun x => x.2.getD []
    let lines : Tab Line := (List.range d.beatCount).foldl (fun l i => l.set 0 i (d.lineFrom bytes i)) []
    (s.modDma r.port r.tag fun x => { x with lines := lines }).respondNow r.port r.tag

/-- HOST_READ_COMPLETION: every sector opens, or the request gets INTEGRITY and HOST_TAG_FAIL is raised for each sector
that fails; a completion of an old function generation or of a retired request is discarded (R54, R274, R275). -/
def State.hostReadDone (s : State) (id : Nat) (xs : List Sector) : State :=
  match s.xlat.hostReads.find? fun r => r.id == id with
  | none => s
  | some r =>
    let t := s.dropHostRead r
    match t.dma r.port r.tag with
    | none => t.wakeHost
    | some d => if r.funcGen ≠ (t.func r.func).gen then t.wakeHost else (t.takeSectors r d xs).wakeHost

/-! ### Invalidation (R205) -/

/-- Outstanding host reads of a function and PASID that lie in a range. -/
def State.readsIn (s : State) (f pasid page size : Nat) : List Nat :=
  (s.xlat.hostReads.filter fun r => r.func = f ∧ r.pasid = pasid ∧ overlaps (pageOf r.addr) 4096 page size).map HostRead.id

/-- A request that has not been issued yet drops what it holds of a range: it translates anew (R205). -/
def Dma.dropPages (d : Dma) (f pasid page size : Nat) : Dma :=
  if d.kind = 1 ∧ d.hall = f ∧ d.context = pasid ∧ d.wait ≠ .host then
    { d with pages := d.pages.filter fun x => !overlaps x.1 4096 page size }
  else d

/-- ATS_INVALIDATE_REQUEST: the matching entries go at once, and the host reads issued under them are noted; 32 can be
outstanding per function (R205). -/
def State.atsInvalidate (s : State) (f : Fin 64) (pasid page sizeLog2 : Nat) : State :=
  if 32 ≤ (s.func f).invals.length then s
  else
    let id := (s.func f).nextInval
    let t := { s with
      xlat := { s.xlat with htc := dropHtc f pasid page (2 ^ sizeLog2) s.xlat.htc,
                            withdrawals := s.xlat.withdrawals ++ [({ ref := .host f id } : Withdrawal)] },
      engines := s.engines.mapAll {} fun _ e => { e with dmas := e.dmas.map fun d => Dma.dropPages d f pasid page (2 ^ sizeLog2) } }
    t.modFunc f fun x => { x with invals := x.invals ++ [(id, s.readsIn f pasid page (2 ^ sizeLog2))], nextInval := id + 1 }

def execAtsInvalidateRequest (f : Fin 64) (pasid : BitVec 20) (page sizeLog2 : Nat) (s : State) :
    Host.Outcome State Fault Refusal := next (s.atsInvalidate f pasid.toNat page sizeLog2)

/-- INVALIDATE_COMPLETION: the oldest invalidation whose reads have drained is answered (R205). -/
def State.invalidateDone (s : State) (f : Nat) : State :=
  match (s.func f).invals.find? fun v => v.2 == [] with
  | some v => (s.modFunc f fun x => { x with invals := x.invals.erase v }).emit (.invalidateDone f)
  | none => s

def execInvalidateCompletion (f : Fin 64) (s : State) : Host.Outcome State Fault Refusal := next (s.invalidateDone f)

/-! ### Function-level reset (R54) -/

/-- The requests of a function that the host has still to answer at its reset: their answers are discarded (R54). -/
def State.staleOf (s : State) (f : Nat) : List (Nat × Nat × Nat × Option Nat) :=
  (s.xlat.waits.filter fun w => w.func = f ∧ (w.pri ∨ w.tag.isSome)).map fun w =>
    (f, w.pasid, w.page, if w.pri then none else w.tag)

/-- The reference is to an invalidation of a function. -/
def refOfFunc (f : Nat) : WdRef → Bool
  | .host g _ => g.val == f
  | _ => false

/-- FUNCTION_LEVEL_RESET: the function's host requests retire, its translations, page requests and invalidations go, its
kernel ring is reset and its generation increments (R40, R54, R149). A queue whose QUEUE_DESTROY was in progress is
gone. -/
def State.functionReset (s : State) (f : Fin 64) : State :=
  let t := match (s.func f).retiring with
    | some (true, q) => s.modQueue f q fun x => { x with state := .absent, global := 0 }
    | _ => s
  let t := t.bumpFunc f
  let n := t.xlat.withdrawals.countP fun w => refOfFunc f w.ref
  let t := { t with xlat := { t.xlat with
    stale := t.xlat.stale ++ s.staleOf f,
    withdrawals := t.xlat.withdrawals.filter fun w => !refOfFunc f w.ref,
    completed := t.xlat.completed + BitVec.ofNat 16 n } }
  t.modFunc f fun x => { gen := x.gen, nextInval := x.nextInval }

end Sys2Proof.Machine
end

