-- ==== Sys2Proof/Machine/LinkOps.lean ====
section
/-! DEFINITION. Link ports, shared operations: frames and their seal (R280 to R283), the frames of a stride and their
division (R284, R287, R293), queueing and sending (R292, R294), and the requests outstanding on a port (R295, R297). -/

namespace Sys2Proof.Machine

/-! ### Frames (R280, R281) -/

/-- Frame kinds. -/
abbrev fkMarker : Nat := 0
abbrev fkMgmt : Nat := 1
abbrev fkKeyx : Nat := 2
abbrev fkSignal : Nat := 3
abbrev fkChunk : Nat := 4
abbrev fkWinReq : Nat := 5
abbrev fkWinRsp : Nat := 6
abbrev fkCopy : Nat := 7
abbrev fkObserve : Nat := 8

/-- A frame header: the common fields of R280, then bytes 63:8. -/
def frameHdr (kind flags srcHall frag bodyLen : Nat) (gen : Gen) (rest : List Byte) : BitVec 512 :=
  BitVec.ofNat 512 (leNat (leBytes 1 kind ++ leBytes 1 flags ++ leBytes 1 srcHall ++ leBytes 1 frag ++ leBytes 2 bodyLen ++
    leBytes 2 gen.toNat ++ rest.take 56))

/-- A header's kind, flags and length. -/
def hdrKind (h : BitVec 512) : Nat := byteField h 0 0
def hdrLast (h : BitVec 512) : Bool := bit h 9
def hdrLastOfKey (h : BitVec 512) : Bool := bit h 8
def hdrSrcHall (h : BitVec 512) : Nat := bits h 21 16
def hdrFrag (h : BitVec 512) : Nat := byteField h 3 3
def hdrBodyLen (h : BitVec 512) : Nat := byteField h 5 4
def hdrSrcGen (h : BitVec 512) : Gen := BitVec.ofNat 16 (byteField h 7 6)

/-- The channels on which a kind may travel. -/
def kindOnChannel (kind vc : Nat) : Bool :=
  match kind with
  | 0 => true
  | 1 | 2 => vc == 0
  | 3 => vc == 1
  | 4 => vc == 2 || vc == 3
  | 5 => vc == 4
  | 6 => vc == 5
  | 7 => vc == 6
  | 8 => vc == 7
  | _ => false

/-- The reserved bits of bytes 63:8 are zero, by kind (R280, R295 to R298, R316, R409). -/
def kindReservedOk (h : BitVec 512) : Bool :=
  match hdrKind h with
  | 1 => zeroBytes h 63 20
  | 3 => bits h 79 75 == 0 && (byteField h 12 12 == 1 || byteField h 12 12 == 2 || byteField h 12 12 == 3) &&
      byteField h 13 13 ≤ 2 && byteField h 14 14 ≤ 2 && zeroBytes h 15 15 && zeroBytes h 63 30 &&
      (byteField h 12 12 ≠ 3 || (zeroBytes h 14 14 && zeroBytes h 27 16)) && (byteField h 12 12 == 2 || zeroBytes h 29 28) &&
      (byteField h 12 12 ≠ 2 || (1 ≤ byteField h 27 24 && byteField h 27 24 ≤ 120))
  | 4 => bits h 79 75 == 0 && byteField h 12 12 ≤ 2 && byteField h 13 13 ≤ 0xA && bits h 127 127 == 0 &&
      bits h 255 232 == 0 && zeroBytes h 47 36
  | 5 => bits h 79 76 == 0 && bits h 111 108 == 0 && byteField h 14 14 ≤ 1 && zeroBytes h 15 15 && bits h 191 166 == 0 &&
      bits h 207 204 == 0 && zeroBytes h 63 26
  | 6 => zeroBytes h 9 8 && bits h 111 108 == 0 && bits h 127 126 == 0 && zeroBytes h 63 18
  | 7 => bits h 79 76 == 0 && bits h 111 108 == 0 && byteField h 14 14 ≤ 3 && bits h 191 166 == 0 && bits h 215 214 == 0 &&
      zeroBytes h 63 27 && (byteField h 14 14 % 2 == 1 || (zeroBytes h 15 15 && zeroBytes h 26 24))
  | _ => zeroBytes h 63 8

/-- The header is malformed (R282). -/
def malformed (vc : Nat) (h : BitVec 512) : Bool :=
  !kindOnChannel (hdrKind h) vc || 960 < hdrBodyLen h || bits h 15 10 ≠ 0 || bits h 23 22 ≠ 0 || !kindReservedOk h

/-! ### Sealing and opening (R283) -/

/-- The 12-byte IV of a frame: channel, zeros, counter. -/
def frameIv (vc : Nat) (ctr : BitVec 32) : List Byte := leBytes 1 vc ++ List.replicate 7 0 ++ leBytes 4 ctr.toNat

/-- The 1,024 bytes of a frame: header, body, and zeros in the bytes that the body leaves (R280). -/
def frameText (hdr : BitVec 512) (body : List Byte) : List Byte := (bytesOf hdr ++ body ++ List.replicate 960 0).take 1024

/-- The key under which a channel sends: the old one until the channel's last marker (R291). -/
def Link.txKey (l : Link) (vc : Nat) : Option (BitVec 256) :=
  if (l.chan vc).switchedOut then l.egressKey else l.oldEgress.or l.egressKey

/-- The key under which a channel's frames open. -/
def Link.rxKey (l : Link) (vc : Nat) : Option (BitVec 256) :=
  if (l.chan vc).switchedIn then l.ingressKey else l.oldIngress.or l.ingressKey

/-- Seal a frame under a key and counter: its payload as it leaves, and its tag. -/
def sealedFrame (key : BitVec 256) (vc : Nat) (ctr : BitVec 32) (hdr : BitVec 512) (body : List Byte) : BitVec 8192 × BitVec 128 :=
  let x := gcmSeal key (frameIv vc ctr) [] (frameText hdr body)
  (BitVec.ofNat 8192 (leNat x.1), BitVec.ofNat 128 (leNat x.2))

/-- Open a frame under the key and counter that its channel expects: its header and its body bytes in use, where the tag
verifies. -/
def Link.openFrame (l : Link) (f : RxFrame) : Option (BitVec 512 × List Byte) :=
  match l.rxKey f.vc with
  | none => none
  | some k =>
    (gcmOpen k (frameIv f.vc (l.chan f.vc).ingress) [] (bytesOf f.payload) (bytesOf f.tag)).map fun b =>
      let h := BitVec.ofNat 512 (leNat (b.take 64))
      (h, slice b 64 (hdrBodyLen h))

/-! ### A port's capacity (R284, R293, R300) -/

/-- The active plan marks a port used. -/
def State.linkUsed (s : State) (n : Nat) : Bool := ((s.act.links[n]?).map LinkRec.used).getD false

/-- Lanes on which a port carries frames this stride (R300). -/
def State.lanesInForce (s : State) (n : Nat) : Nat := (s.link n).lanes

/-- AES passes per second that the used ports need of a pipe pool. -/
def State.pipeNeed (s : State) : Nat :=
  ((List.range 20).map fun n => if s.linkUsed n then 25390625000 * s.lanesInForce n / 16 else 0).sum

/-- AES passes per second of the egress pool, less its fenced pipes. -/
def State.egressCapacity (s : State) : Nat := ((List.range 256).countP fun k => s.inService 6 k) * 2000000000

/-- Frames that a used port carries in the stride: F, scaled for throttling and for fenced pipes (R284, R293). -/
def State.linkFrames (s : State) (n : Nat) : Nat :=
  let f := s.throttled (625 * s.lanesInForce n * 2 ^ s.timer.strideCode.toNat)
  if s.egressCapacity < s.pipeNeed then f * s.egressCapacity / s.pipeNeed else f

/-- The payer of frames beyond hall 0's share: capacity that no hall reserved (R293). -/
abbrev freePayer : Nat := 64

/-- Frames of a port that no hall's link_units reserve (R103, R293). -/
def State.freeFrames (s : State) (n : Nat) : Nat := (1000 - (s.act.halls.map HallRec.linkUnits).sum) * s.linkFrames n / 1000

/-- A SHARED hall's part of a port: its floor, and by weight its part of the unreserved frames (R103). -/
def State.linkShare (s : State) (n : Nat) (r : HallRec) : Share :=
  let weights := ((s.act.halls.filter fun x => x.cls = .shared).map HallRec.weight).sum
  { own := r.linkUnits * s.linkFrames n / 1000 + s.freeFrames n * r.weight / weights, weight := r.weight,
    used := Tab.get 0 (s.link n).spent r.hall, demands := (s.link n).txq.any fun f => f.hall == r.hall }

/-- Frames that a hall may send on a port this stride (R91, R103, R293); hall 0's frames beyond its share count as a part of
their own. -/
def State.hallFrames (s : State) (n h : Nat) : Nat :=
  let shared := s.act.halls.filter fun r => r.cls = .shared
  let spent (x : Nat) := Tab.get 0 (s.link n).spent x
  let floor (r : HallRec) := r.linkUnits * s.linkFrames n / 1000
  if h = freePayer then s.freeFrames n - (shared.map fun r => spent r.hall - floor r).sum
  else
    let r := s.rec_ h
    if r.cls = .shared then
      sharedBudget (s.freeFrames n + (shared.map floor).sum) s.timer.fclk.toNat (strideFclk s.timer.strideCode)
        (s.linkShare n r)
        ({ own := 0, weight := 0, used := spent freePayer, demands := false } ::
          (shared.filter fun x => x.hall ≠ h).map (s.linkShare n))
    else floor r

/-- Frames that a hall has left on a port. -/
def State.framesLeft (s : State) (n h : Nat) : Nat := s.hallFrames n h - Tab.get 0 (s.link n).spent h

/-- CHUNK frames that a port admits in the stride, scaled by the group-key units in service (R329). -/
def State.chunkFrames (s : State) (n : Nat) : Nat :=
  let up (type : Nat) := (List.range 256).countP fun k => s.inService type k
  s.linkFrames n * min (up 9) (up 0xA) / 256

/-- Frames sent this stride on a port by a hall on a channel. -/
def Link.sentOn (l : Link) (h vc : Nat) : Nat := Tab.get 0 l.sent (8 * h + vc)

/-- CHUNK frames sent this stride on a port. -/
def Link.chunksSent (l : Link) : Nat := (l.sent.map fun e => if e.1 % 8 = 2 ∨ e.1 % 8 = 3 then e.2 else 0).sum

/-- Dedicated credits of a hall on a channel (R287). -/
def State.dedicated (s : State) (h : Nat) : Nat :=
  match s.act.hallRec h with
  | some r => if r.cls = .shared then 0 else 64 * r.linkUnits / 1000
  | none => 0

/-- The hall has no dedicated credits, so it draws on the common pool (R287). -/
def State.drawsPool (s : State) (h : Nat) : Bool := s.dedicated h = 0

/-- A hall is under its cap on a channel: within its dedicated credits, or without any, while the common pool has some
(R287, log entry 31). -/
def State.underCap (s : State) (n vc h : Nat) : Bool :=
  if vc < 2 ∨ vc = 7 then true
  else
    let inFlight := ((s.link n).chan vc).inFlight
    let held (x : Nat) := inFlight.countP (· == x)
    let halls := List.range 64
    let pool := 64 - (halls.map s.dedicated).sum
    let drawn := ((halls.filter s.drawsPool).map held).sum
    if s.drawsPool h then drawn < pool else held h < s.dedicated h

/-! ### Queueing frames -/

/-- The port is fenced. -/
def State.portFenced (s : State) (n : Nat) : Bool := !s.inService 4 n

/-- Queue a frame for egress, charged to a hall; a fenced port queues nothing (R302). -/
def State.queueFrame (s : State) (n h vc : Nat) (hdr : BitVec 512) (body : List Byte) : State :=
  if s.portFenced n ∨ !s.linkUsed n then s
  else s.modLink n fun l => { l with txq := l.txq ++ [{ hall := h, vc := vc, hdr := hdr, body := body }] }

/-- No hall: KEYX and MARKER frames are charged to none (R292). -/
abbrev noHall : Nat := 64

/-- Queue a KEYX or MARKER frame, ahead of every other frame (R292). -/
def State.queueUrgent (s : State) (n vc : Nat) (hdr : BitVec 512) (body : List Byte) : State :=
  if s.portFenced n then s
  else s.modLink n fun l => { l with urgent := l.urgent ++ [{ hall := noHall, vc := vc, hdr := hdr, body := body }] }

/-- The hall generation that a frame of a hall carries. -/
def State.srcGen (s : State) (h : Nat) : Gen := (s.hall h).gen

/-- Split a body over frames of 960 bytes; an empty body takes one frame. -/
def fragments (body : List Byte) : List (List Byte) :=
  (List.range (max 1 (ceilDiv body.length 960))).map fun i => slice body (960 * i) 960

/-- Queue a body over frames with frag counting from 0 and last on the final one. -/
def State.queueRun (s : State) (n h vc kind : Nat) (rest body : List Byte) : State :=
  let fs := fragments body
  forEach (fs.zip (List.range fs.length)) (fun x t =>
    t.queueFrame n h vc (frameHdr kind (if x.2 + 1 = fs.length then 2 else 0) h x.2 x.1.length (t.srcGen h) rest) x.1) s

/-- Return the credit of an ingress frame (R60, R87). -/
def State.frameCredit (s : State) (n vc : Nat) : State := s.emit (.linkCredit n vc)

/-! ### Messages between management processors (R290, R409) -/

/-- Bytes 63:8 of a MGMT frame. -/
def mgmtRest (id : BitVec 32) (total offset : Nat) : List Byte := leBytes 4 id.toNat ++ leBytes 4 total ++ leBytes 4 offset

/-- Queue the frames of a message in offset order. -/
def State.queueMessage (s : State) (n : Nat) (id : BitVec 32) (bytes : List Byte) : State :=
  let fs := fragments bytes
  forEach (fs.zip (List.range fs.length)) (fun x t =>
    t.queueFrame n 0 0 (frameHdr fkMgmt 0 0 0 x.1.length (t.srcGen 0) (mgmtRest id bytes.length (960 * x.2))) x.1) s

/-- Send a message of the management processor: its identifier is a free value (log entry 74). -/
def State.sendMessage (s : State) (n : Nat) (bytes : List Byte) : State :=
  let id := BitVec.ofNat 32 s.freeValue.toNat
  (s.useFree.modLink n fun l => { l with messages := l.messages ++ [(id, bytes)] }).queueMessage n id bytes

/-- A port has keys again: the messages that it has not sent whole are sent again (R290). -/
def State.resendMessages (s : State) (n : Nat) : State :=
  forEach (s.link n).messages (fun m t => t.queueMessage n m.1 m.2) s

/-- The last fragment of a message has left. -/
def Link.messageSent (l : Link) (hdr : BitVec 512) : Link :=
  if hdrKind hdr = fkMgmt ∧ byteField hdr 15 12 ≤ byteField hdr 19 16 + hdrBodyLen hdr then
    { l with messages := l.messages.filter fun m => m.1.toNat != byteField hdr 11 8 }
  else l

/-! ### Requests outstanding on a port (R213, R290, R295, R297, R302) -/

/-- Bytes 63:8 of a WIN_REQ frame. -/
def winReqRest (r : WinReqOut) : List Byte :=
  leBytes 2 r.remoteIndex ++ leBytes 2 r.entryGen.toNat ++ leBytes 2 r.id ++ [if r.write then 1 else 0, 0] ++
    leBytes 8 r.offset ++ leBytes 2 (r.length - 1)

/-- The operations of a COPY frame. -/
abbrev cpPush : Nat := 0
abbrev cpAck : Nat := 1
abbrev cpPull : Nat := 2
abbrev cpData : Nat := 3

/-- Bytes 63:8 of a COPY frame. -/
def copyRest (remoteIndex : Nat) (gen : Gen) (id op : Nat) (status : Byte) (offset : Nat) (reqGen : Gen) (reqHall : Nat) :
    List Byte :=
  leBytes 2 remoteIndex ++ leBytes 2 gen.toNat ++ leBytes 2 id ++ leBytes 1 op ++ [status] ++ leBytes 8 offset ++
    leBytes 2 reqGen.toNat ++ leBytes 1 reqHall

/-- Queue the frames of a request. -/
def State.queueReq (s : State) (n : Nat) (r : WinReqOut) : State :=
  if r.copy then
    s.queueRun n r.hall 6 fkCopy
      (copyRest r.remoteIndex r.entryGen r.id (if r.write then cpPush else cpPull) 0 r.offset 0 0) r.data
  else s.queueRun n r.hall 4 fkWinReq (winReqRest r) r.data

/-- A number for a request: the next in turn that no request of its kind holds, and one whose reply is still to come only
where there is no other (R213, log entry 75). -/
def Link.freeReq (l : Link) (copy : Bool) : Option Nat :=
  let turn := (List.range 4096).map fun i => (l.nextReq + i) % 4096
  let free := turn.filter fun i => l.reqs.all fun x => !(x.copy == copy && x.id == i)
  (free.find? fun i => (copy, i) ∉ l.late).or free.head?

/-- Give a request a number and queue its frames, or let it wait while 4,096 of its kind are outstanding. -/
def State.numberReq (s : State) (n : Nat) (r : WinReqOut) : State :=
  match (s.link n).freeReq r.copy with
  | some i =>
    (s.modLink n fun l =>
      { l with reqs := l.reqs ++ [{ r with id := i }], nextReq := (i + 1) % 4096, late := l.late.erase (r.copy, i) }).queueReq n
        { r with id := i }
  | none => s.modLink n fun l => { l with pendingReqs := l.pendingReqs ++ [r] }

/-- A request of a port has ended: the oldest that waits takes its place. -/
def State.endReq (s : State) (n : Nat) (r : WinReqOut) : State :=
  let t := s.modLink n fun l => { l with reqs := l.reqs.erase r }
  match (t.link n).pendingReqs.find? fun x => x.copy == r.copy with
  | some x => (t.modLink n fun l => { l with pendingReqs := l.pendingReqs.erase x }).numberReq n x
  | none => t

/-- A request ends before its reply: its number is not given again while another is free (R213). -/
def State.endEarly (s : State) (n : Nat) (r : WinReqOut) : State :=
  (s.modLink n fun l => { l with late := l.late ++ [(r.copy, r.id)] }).endReq n r

/-- Complete TIMEOUT_REMOTE one window request or copy page of a port. -/
def State.failReq (s : State) (r : WinReqOut) : State :=
  if r.copy then
    { s with xlat := { s.xlat with served := s.xlat.served ++ [(migratePort r.hall r.queue, r.page, true, .timeoutRemote, [])] } }
  else ((s.dma r.port r.tag).map fun d => s.respond r.port d .timeoutRemote).getD s

/-- Complete TIMEOUT_REMOTE every window request and copy page outstanding on a port; fragment sequences of the far chip
that are cut short are dropped. -/
def State.failReqs (s : State) (n : Nat) : State :=
  let l := s.link n
  let t := s.modLink n fun x =>
    { x with reqs := [], late := [], inbound := x.inbound.filter fun i => hdrLast i.hdr }
  forEach l.reqs (fun r u => u.failReq r) t

/-- The requests that wait in the core end TIMEOUT_REMOTE too: their port is fenced (R213). -/
def State.failPending (s : State) (n : Nat) : State :=
  let l := s.link n
  forEach l.pendingReqs (fun r u => u.failReq r) (s.modLink n fun x => { x with pendingReqs := [] })

/-- The requests that wait in the core become outstanding, as far as there are numbers (R295, R297). -/
def State.numberPending (s : State) (n : Nat) : State :=
  let l := s.link n
  forEach l.pendingReqs (fun r u => u.numberReq n r) (s.modLink n fun x => { x with pendingReqs := [] })

/-! ### Link states (R303) -/

/-- The state that LNK_STATUS reports. -/
def State.linkState (s : State) (n : Nat) : LinkState :=
  let l := s.link n
  if s.portFenced n then .fenced
  else if !s.linkUsed n then .unused
  else if l.width = 0 then .down
  else if l.retrainAge.isSome then .retraining
  else l.state

/-- The core sends on the port: keys confirmed, width not down, no retrain, in service (R61, R280, R290, R301). -/
def State.canSend (s : State) (n : Nat) : Bool :=
  (s.linkState n = .up ∨ s.linkState n = .rotating) ∧ (s.link n).egressKey.isSome ∧ (s.link n).confirmed

/-! ### Choosing a frame (R292, R294) -/

/-- A channel that can still seal a frame and has a credit. -/
def Link.channelReady (l : Link) (vc : Nat) : Bool :=
  (l.chan vc).egress ≠ BitVec.allOnes 32 ∧ 0 < (l.chan vc).credits

/-- The first frame of a hall on a channel that can be sent now. -/
def State.readyFrame (s : State) (n h vc : Nat) : Option TxFrame :=
  let l := s.link n
  let fits : Bool := (l.chan vc).mid.isNone || (l.chan vc).mid == some h
  let admitted : Bool := !(vc == 2 || vc == 3) || l.chunksSent < s.chunkFrames n
  let paid : Bool := 0 < s.framesLeft n h || ((vc == 0 || vc == 7) && h == 0 && 0 < s.framesLeft n freePayer)
  if l.channelReady vc && s.underCap n vc h && fits && admitted && paid then l.txq.find? fun f => f.hall == h && f.vc == vc
  else none

/-- The hall's channel with the smallest (sent + 1) / weight; weight 0 last, ties to the lower channel. -/
def State.pickChannel (s : State) (n h : Nat) : Option TxFrame :=
  let l := s.link n
  let w (vc : Nat) : Nat := (((s.act.links[n]?).map LinkRec.weights).getD []).getD vc 0
  let less (c v : Nat) : Bool :=
    if w c = 0 then false else if w v = 0 then true else (l.sentOn h c + 1) * w v < (l.sentOn h v + 1) * w c
  (List.range 8).foldl (fun best c =>
    match s.readyFrame n h c with
    | none => best
    | some f =>
      match best with
      | none => some f
      | some b => if less c b.vc then some f else best) none

/-- The frame that the port sends next: round robin over the halls (R294). -/
def State.pickFrame (s : State) (n : Nat) : Option TxFrame :=
  ((List.range 64).map fun i => ((s.link n).lastHall + 1 + i) % 64).findSome? fun h => s.pickChannel n h

/-- The KEYX or MARKER frame that goes first: the oldest whose channel is ready. -/
def Link.pickUrgent (l : Link) : Option TxFrame := l.urgent.find? fun f => l.channelReady f.vc

/-- The marker that opens a new key's use waits: no other frame goes before it (R290). -/
def Link.mustMark (l : Link) : Bool := l.urgent.any fun f => hdrKind f.hdr = fkMarker ∧ !hdrLastOfKey f.hdr

/-- A frame leaves, sealed under its channel's key and counter: it spends a credit and a counter value (R283). -/
def State.sealFrame (s : State) (n : Nat) (f : TxFrame) : State :=
  let c := (s.link n).chan f.vc
  let x := sealedFrame (((s.link n).txKey f.vc).getD 0) f.vc c.egress f.hdr f.body
  let t := s.modChan n f.vc fun x =>
    { x with credits := x.credits - 1, egress := x.egress + 1, inFlight := x.inFlight ++ [f.hall] }
  t.emit (.linkFrame n f.vc x.1 x.2)

/-- A key is zeroised once all eight of its channels have switched; the rotation is over once both are (R291). -/
def State.finishRotation (s : State) (n : Nat) : State :=
  let l := s.link n
  let out := (List.range 8).all fun v => (l.chan v).switchedOut
  let in_ := (List.range 8).all fun v => (l.chan v).switchedIn
  if l.state ≠ .rotating ∨ (l.oldEgress = none ∧ l.oldIngress = none) then s
  else if out ∧ in_ then
    s.modLink n fun x => { x with state := .up, oldEgress := none, oldIngress := none, rotations := x.rotations + 1,
                                  chans := x.chans.mapAll {} fun _ c => { c with switchedOut := false, switchedIn := false } }
  else s.modLink n fun x => { x with oldEgress := if out then none else x.oldEgress,
                                     oldIngress := if in_ then none else x.oldIngress }

/-- Send a KEYX or MARKER frame; a marker with last_of_key ends the old key on its channel (R291). -/
def State.sendUrgent (s : State) (n : Nat) (f : TxFrame) : State :=
  let t := (s.modLink n fun l => { l with urgent := l.urgent.erase f }).sealFrame n f
  if hdrKind f.hdr = fkMarker ∧ hdrLastOfKey f.hdr then
    (t.modChan n f.vc fun c => { c with egress := 0, switchedOut := true }).finishRotation n
  else t

/-- A request's time-out counts from its first frame (R208, R213). -/
def State.startClock (s : State) (n : Nat) (hdr : BitVec 512) : State :=
  let id := bits hdr 107 96
  let mine (r : WinReqOut) : Bool :=
    r.id == id && ((hdrKind hdr == fkWinReq && !r.copy) || (hdrKind hdr == fkCopy && r.copy && byteField hdr 14 14 % 2 == 0))
  s.modLink n fun l => { l with reqs := l.reqs.map fun r => if mine r then { r with started := true } else r }

/-- Send an ordinary frame and charge it (R293). -/
def State.sendFrame (s : State) (n : Nat) (f : TxFrame) : State :=
  let payer := if s.framesLeft n f.hall = 0 then freePayer else f.hall
  let t := (s.modLink n fun l =>
    { l with txq := l.txq.erase f, lastHall := f.hall, spent := l.spent.mod 0 payer (· + 1),
             sent := l.sent.mod 0 (8 * f.hall + f.vc) (· + 1) }.messageSent f.hdr).sealFrame n f
  let t := (t.modChan n f.vc fun c =>
    { c with mid := if 4 ≤ f.vc ∧ f.vc ≤ 6 ∧ !hdrLast f.hdr ∧ 0 < f.body.length then some f.hall else none }).startClock n f.hdr
  t.countHall f.hall fun c => { c with framesSent := c.framesSent + 1 }

/-- LINK_FRAME_SEND: one frame time of a port (R292, R294). -/
def State.frameTime (s : State) (n : Nat) : State :=
  if !s.canSend n then s
  else
    match (s.link n).pickUrgent with
    | some f => s.sendUrgent n f
    | none =>
      if (s.link n).mustMark then s
      else
        match s.pickFrame n with
        | some f => s.sendFrame n f
        | none => s

def execLinkFrameSend (n : Fin 20) (pipeUe : Option (Fin 256)) (s : State) : Host.Outcome State Fault Refusal :=
  next ((match pipeUe with
    | some k => s.beginFence 6 k Cause.errors none
    | none => s).frameTime n)

/-- LINK_CREDIT_RETURN: one credit of a channel returns, at most 64 in all; it frees the oldest frame's place (R59, R287,
log entry 31). -/
def State.linkCreditReturn (s : State) (n vc : Nat) : State :=
  s.modChan n vc fun c => { c with credits := min 64 (c.credits + 1), inFlight := c.inFlight.drop 1 }

def execLinkCreditReturn (n : Fin 20) (vc : Fin 8) (s : State) : Host.Outcome State Fault Refusal :=
  next (s.linkCreditReturn n vc)

end Sys2Proof.Machine
end

