-- ==== Sys2Proof/Machine/CollOps.lean ====
section
/-! DEFINITION. Groups and their rings (R304 to R306, R314, R315), signals (R316), and the end of an operation (R320, R323,
R352). -/

namespace Sys2Proof.Machine

/-! ### Structure (R304 to R306) -/

/-- The GROUPS record of a group in the active plan. -/
def State.groupRec (s : State) (g : Nat) : Option GroupRec := s.act.groups.find? fun r => r.group == g

/-- Ring size of a flight. -/
def GroupRec.size (r : GroupRec) : Nat → Nat
  | 0 => r.f0
  | 1 => r.f1
  | _ => r.f2

/-- The flights that the group has. -/
def GroupRec.flights (r : GroupRec) : List Nat := (List.range 3).filter fun k => k = 0 ∨ 2 ≤ r.size k

/-- The highest flight. -/
def GroupRec.top (r : GroupRec) : Nat := (r.flights.getLast?).getD 0

/-- Coordinate of a member index in a flight (R306). -/
def GroupRec.coordOf (r : GroupRec) (m : Nat) : Nat → Nat
  | 0 => m % r.f0
  | 1 => m / r.f0 % r.f1
  | _ => m / (r.f0 * r.f1)

/-- This chip's coordinate in a flight. -/
def GroupRec.coord (r : GroupRec) (k : Nat) : Nat := r.coordOf r.myIndex k

/-- Link port to the next and to the previous member of a flight's ring. -/
def GroupRec.nextPort (r : GroupRec) (k : Nat) : Nat := (r.ports[2 * k]?).getD 0
def GroupRec.prevPort (r : GroupRec) (k : Nat) : Nat := (r.ports[2 * k + 1]?).getD 0

/-- Every ring port of the group, once. -/
def GroupRec.ringPorts (r : GroupRec) : List Nat :=
  (r.flights.flatMap fun k => [r.nextPort k, r.prevPort k]).eraseDups

/-- Members N. -/
def GroupRec.members (r : GroupRec) : Nat := r.f0 * r.f1 * r.f2

/-- The member index with a coordinate of a flight replaced. -/
def GroupRec.withCoord (r : GroupRec) (k i : Nat) : Nat :=
  let c (j : Nat) := if j = k then i else r.coord j
  c 0 + r.f0 * (c 1 + r.f1 * c 2)

/-- The previous member in a flight's ring. -/
def GroupRec.prevMember (r : GroupRec) (k : Nat) : Nat := r.withCoord k ((r.coord k + r.size k - 1) % r.size k)

/-! ### Pieces (R314) -/

/-- The member that owns the piece at position p. -/
def GroupRec.ownerAt (r : GroupRec) (p : Nat) : Nat :=
  p / (r.f1 * r.f2) + r.f0 * (p / r.f2 % r.f1 + r.f1 * (p % r.f2))

/-- A share of n over k, rounded up to a multiple of 16. -/
def share16 (n k : Nat) : Nat := roundUp (ceilDiv n k) 16

/-- Start and end of the piece at position p of an array of E elements, by nested division. -/
def GroupRec.dividedPiece (r : GroupRec) (e p : Nat) : Nat × Nat :=
  let s0 := share16 e r.f0
  let s1 := share16 s0 r.f1
  let s2 := share16 s1 r.f2
  let i0 := p / (r.f1 * r.f2)
  let i1 := p / r.f2 % r.f1
  let i2 := p % r.f2
  let a0 := min (i0 * s0) e
  let b0 := min ((i0 + 1) * s0) e
  let a1 := min (a0 + i1 * s1) b0
  let b1 := min (a0 + (i1 + 1) * s1) b0
  (min (a1 + i2 * s2) b1, min (a1 + (i2 + 1) * s2) b1)

/-- Start and end of the piece at position p where the pieces follow counts by member index. -/
def GroupRec.countedPiece (r : GroupRec) (counts : List Nat) (p : Nat) : Nat × Nat :=
  let a := ((List.range p).map fun q => (counts[r.ownerAt q]?).getD 0).sum
  (a, a + (counts[r.ownerAt p]?).getD 0)

/-- Start and end of the piece at position p of an operation. -/
def pieceAt (r : GroupRec) (e : Nat) (counts : List Nat) (p : Nat) : Nat × Nat :=
  if e = 0 then r.countedPiece counts p else r.dividedPiece e p

/-- Positions of the pieces that make up part j of a flight: a slice, a sub-slice of the own slice, or a piece. -/
def GroupRec.partPos (r : GroupRec) (k j : Nat) : Nat × Nat :=
  match k with
  | 0 => (j * (r.f1 * r.f2), r.f1 * r.f2)
  | 1 => (r.coord 0 * (r.f1 * r.f2) + j * r.f2, r.f2)
  | _ => (r.coord 0 * (r.f1 * r.f2) + r.coord 1 * r.f2 + j, 1)

/-- Start and end of part j of a flight in the whole array. -/
def partAt (r : GroupRec) (e : Nat) (counts : List Nat) (k j : Nat) : Nat × Nat :=
  let (p, n) := r.partPos k j
  ((pieceAt r e counts p).1, (pieceAt r e counts (p + n - 1)).2)

/-! ### Signals (R316) -/

abbrev sigGrant : Nat := 1
abbrev sigCount : Nat := 2
abbrev sigEnd : Nat := 3

/-- Bytes 63:8 of a SIGNAL frame. -/
def signalRest (g : Nat) (gen : Gen) (signal flight op : Nat) (step : Word) (value first : Nat) : List Byte :=
  leBytes 2 g ++ leBytes 2 gen.toNat ++ leBytes 1 signal ++ leBytes 1 flight ++ leBytes 1 op ++ [0] ++ leBytes 8 step.toNat ++
    leBytes 4 value ++ leBytes 2 first

/-- Queue a SIGNAL frame of a group on a port. -/
def State.signalFrame (s : State) (n h : Nat) (rest body : List Byte) : State :=
  s.queueFrame n h 1 (frameHdr fkSignal 2 h 0 body.length (s.srcGen h) rest) body

/-- A queued GRANT of the same group, flight, operation and step: only the latest value is sent (R316). -/
def sameGrant (a b : BitVec 512) : Bool :=
  hdrKind a == fkSignal && hdrKind b == fkSignal && byteField a 12 12 == sigGrant && byteField b 12 12 == sigGrant &&
    byteField a 23 8 == byteField b 23 8

/-- Send a GRANT to the previous member of a flight. -/
def State.sendGrant (s : State) (r : GroupRec) (o : CollOp) (k value : Nat) : State :=
  let n := r.prevPort k
  let rest := signalRest r.group (s.group r.group).gen sigGrant k o.kind o.step value 0
  let hdr := frameHdr fkSignal 2 o.hall 0 0 (s.srcGen o.hall) rest
  (s.modLink n fun l => { l with txq := l.txq.filter fun f => !sameGrant f.hdr hdr }).signalFrame n o.hall rest []

/-! ### Ending an operation (R162, R320, R323, R352) -/

/-- An operation of a group owns an accumulator tile (R350). -/
def State.ownsTile (s : State) (g : Nat) (o : CollOp) (i : Nat) : Bool :=
  let x := Tab.get {} s.reduce.tiles i
  i ∈ o.tiles ∧ x.state ≠ .free ∧ x.group = g ∧ x.op = o.kind

/-- Release some accumulator tiles that an operation owns, cleared (R352). -/
def State.releaseTiles (s : State) (g : Nat) (o : CollOp) (l : List Nat) : State :=
  { s with reduce := { s.reduce with
      tiles := (l.filter (s.ownsTile g o)).foldl (fun t i => t.set {} i {}) s.reduce.tiles } }

/-- An operation ends: its tiles are released, done_fence is set, and its COLL's record and count follow unless its queue
has been reset (R162, R320, R324). -/
def State.endOp (s : State) (g : Nat) (o : CollOp) (st : Status) : State :=
  let t := (s.releaseTiles g o o.tiles).modGroup g fun x =>
    { x with ops := x.ops.filter (· ≠ o), lastStatus := if st = .ok then x.lastStatus else st.code }
  let t := t.setFence o.hall o.doneFence (BitVec.ofNat 64 (o.step.toNat * 2 ^ 24 + 0xFFFFFF))
  if (t.queue o.hall o.queue).gen = o.queueGen then t.completeWith o.hall o.queue o.hdr st else t

/-- End every operation of a group with a status, set it FAULTED and record COLL_FAULT (R323). -/
def State.faultGroup (s : State) (r : GroupRec) (st : Status) : State :=
  let t := forEach (s.group r.group).ops (fun o u => u.endOp r.group o st) s
  (t.modGroup r.group fun x => { x with state := .faulted }).raise Ev.collFault
    { hall := some r.hall, status := st.code, object := BitVec.ofNat 16 r.group }

/-- Send END on the ring ports of a group that pass a test. -/
def State.sendEnd (s : State) (r : GroupRec) (ports : List Nat) : State :=
  forEach ports (fun n t => t.signalFrame n r.hall (signalRest r.group (t.group r.group).gen sigEnd 0 0 0 0 0) []) s

/-- An operation of a group ends with a status other than OK: so do the others, the group is FAULTED and END goes out on
every ring port (R323). -/
def State.failGroup (s : State) (g : Nat) (st : Status) : State :=
  match s.groupRec g with
  | none => s
  | some r => (s.faultGroup r st).sendEnd r r.ringPorts

/-- Operations of every group whose ring uses a port end TIMEOUT_REMOTE (R290, R302, R324). -/
def State.ringLost (s : State) (n : Nat) : State :=
  forEach (s.act.groups.filter fun r => n ∈ r.ringPorts) (fun r t =>
    if (t.group r.group).ops = [] then t else t.failGroup r.group .timeoutRemote) s

/-- A hall leaves a group: its operations end RETIRED, the keys are zeroised and the group is IDLE (R311). -/
def State.leaveGroup (s : State) (g : Nat) : State :=
  let t := if (s.group g).ops = [] then s else s.failGroup g .retired
  t.modGroup g fun x => { gen := x.gen, lastStatus := x.lastStatus }

/-- A group has a record for a hall. -/
def State.groupsOf (s : State) (h : Nat) : List GroupRec := s.act.groups.filter fun r => r.hall == h

/-! ### Cluster-slots (R92, R330, R331) -/

/-- Clusters in service, ascending. -/
def State.clusters (s : State) : List Nat := (List.range 16).filter fun c => s.inService 8 c

/-- Cluster-slots of a hall, scaled for fenced clusters. -/
def State.hallSlots (s : State) (h : Nat) : Nat :=
  ((s.act.hallRec h).map HallRec.clusterSlots).getD 0 * s.clusters.length / 16

/-- Slots of a hall in the i-th of m clusters in service before throttling: an even share, and one more in each of the
a mod m clusters from o_h on, wrapping round. -/
def slotsIn (a o m i : Nat) : Nat := a / m + if (i + m - o % m) % m < a % m then 1 else 0

/-- Spread the halls' slots over the clusters, as at a boundary (R330). -/
def State.spreadSlots (s : State) : State :=
  let cs := s.clusters
  let m := cs.length
  let halls := (List.range 64).filter fun h => 0 < s.hallSlots h
  let (tab, _) := halls.foldl (fun (acc : Tab Nat × Nat) h =>
    let a := s.hallSlots h
    let t := (List.range m).foldl (fun (t : Tab Nat) i =>
      t.set 0 (16 * h + (cs[i]?).getD 0) (s.throttled (slotsIn a acc.2 m i))) acc.1
    (t, acc.2 + a % m)) (([] : Tab Nat), 0)
  { s with reduce := { s.reduce with slots := tab } }

/-- Slots in force of a hall in a cluster. -/
def State.slotsOf (s : State) (h c : Nat) : Nat := Tab.get 0 s.reduce.slots (16 * h + c)

/-- Slots in force of a hall over the clusters in service: a fenced one works no more (R353). -/
def State.slotsInForce (s : State) (h : Nat) : Nat := (s.clusters.map (s.slotsOf h)).sum

/-- Adder operations that a hall may perform in the stride (R331). -/
def State.adderBudget (s : State) (h : Nat) : Nat := 256 * slotFclk s.timer.strideCode * s.slotsInForce h

/-- Adder operations left to a hall in the stride. -/
def State.adderLeft (s : State) (h : Nat) : Nat := s.adderBudget h - (s.hall h).adderOps

/-- Spend adder operations. -/
def State.spendAdders (s : State) (h n : Nat) : State :=
  { s with reduce := { s.reduce with adderOps := satAdd s.reduce.adderOps n } }.modHall h fun x => { x with adderOps := x.adderOps + n }

/-! ### Accumulator tiles (R313, R330, R350) -/

/-- Free tiles for a hall, in rotation over the clusters where it holds slots. DESIGN CHOICE (log entry 88): a hall that holds
no slots, which can still gather (R319), takes them over every cluster in service. -/
def State.freeTiles (s : State) (h : Nat) : List Nat :=
  let held := s.clusters.filter fun c => 0 < s.slotsOf h c
  let cs := if held = [] then s.clusters else held
  (List.range 64).flatMap fun j => (cs.map fun c => 64 * c + j).filter fun t => (Tab.get {} s.reduce.tiles t).state = .free

/-- Give tiles to an operation, flight by flight. -/
def State.claimTiles (s : State) (g : Nat) (o : CollOp) (window : Nat) (flights tiles : List Nat) : State :=
  { s with reduce := { s.reduce with
      tiles := ((tiles.zip (List.range tiles.length)).foldl (fun t x =>
        t.set {} x.1 { state := .filling, flight := (flights[x.2 / window]?).getD 0, op := o.kind, group := g, hall := o.hall,
                       hallGen := (s.hall o.hall).gen }) s.reduce.tiles) } }

end Sys2Proof.Machine
end

