-- ==== Sys2Proof/Machine/Links.lean ====
section
/-! DEFINITION. Link ports: fencing (R302), out-of-band establishment and in-band rotation (R288 to R292), ingress (R282,
R285), width and retraining (R61, R300, R301), and the MARKER, MGMT and KEYX frames. -/

namespace Sys2Proof.Machine

/-! ### Losing a port (R290, R302) -/

/-- What an out-of-band establishment and a fence share: the keys are zeroised, the egress queue is discarded (its VC7
frames count as Gallery drops), outstanding window requests and copy pages end TIMEOUT_REMOTE, and so do the collectives
whose ring uses the port. -/
def State.loseLink (s : State) (n : Nat) : State :=
  let drops := (s.link n).txq.countP fun f => f.vc == 7
  let t := { s with gallery := { s.gallery with drops := satAdd s.gallery.drops (15 * drops),
                                                dropsPending := satAdd s.gallery.dropsPending (15 * drops) } }
  let t := t.modLink n fun l =>
    { l with egressKey := none, ingressKey := none, oldEgress := none, oldIngress := none, confirmed := false, peer := 0,
             txq := [], urgent := [], offerOut := none, offerAge := 0,
             chans := l.chans.mapAll {} fun _ c =>
               { c with verified := false, fails := 0, switchedOut := false, switchedIn := false, mid := none } }
  (t.failReqs n).ringLost n

/-- An out-of-band establishment starts: the port is KEYING until both sides have keys; requests that wait in the core go
on waiting (R290, R295, R297). -/
def State.startEstablish (s : State) (n : Nat) : State :=
  ((s.loseLink n).modLink n fun l => { l with state := .keying }).numberPending n

/-- Fence a link port (R302, R376). -/
def State.fenceLink (s : State) (n : Nat) (cause : BitVec 4) : State :=
  if s.inService 4 n then
    (((s.beginFence 4 n cause none).loseLink n).failPending n).modLink n fun l => { l with retrainAge := none, retrainDue := false }
  else s.beginFence 4 n cause none

/-- LNK_PROTOCOL: the event and the port's fence (R282, R376). -/
def State.linkProtocol (s : State) (n : Nat) : State :=
  (s.modLink n fun l => { l with protocol := satAdd l.protocol 1 }).fenceLink n Cause.protocol

/-! ### Ingress (R282, R285) -/

/-- A frame fails its tag: it is dropped, its credit returns, the expected counter stays; the fourth in a row desyncs the
channel unless nothing has verified there under the current key (R285). -/
def State.tagFail (s : State) (n vc : Nat) : State :=
  let counts : Bool := (s.link n).ingressKey.isSome ∧ ((s.link n).chan vc).verified
  let t := (s.frameCredit n vc).modLink n fun l => { l with tagFails := satAdd l.tagFails 1 }
  let t := t.raise Ev.lnkTagFail { unit := unitId 4 n }
  let t := if counts then t.modChan n vc fun c => { c with fails := c.fails + 1 } else t
  if 4 ≤ ((t.link n).chan vc).fails then
    ((t.modLink n fun l => { l with desyncs := satAdd l.desyncs 1 }).raise Ev.lnkDesync { unit := unitId 4 n }).startEstablish n
  else t

/-- The hall for which a frame is received: that of the group, the window or the request it names, hall 0 for the others
(R417). -/
def State.rxHall (s : State) (h : BitVec 512) : Nat :=
  let k := hdrKind h
  if k = fkSignal ∨ k = fkChunk then ((s.groupRec (bits h 74 64)).map GroupRec.hall).getD 0
  else if k = fkWinReq ∨ (k = fkCopy ∧ byteField h 14 14 % 2 = 0) then (s.win (bits h 75 64)).ownerHall
  else if k = fkWinRsp then bits h 125 120
  else if k = fkCopy then bits h 213 208
  else 0

/-- Take an ingress frame of a kind: `use` runs on the header and body of one that verifies and is well formed, with its
credit still to return. A frame of another kind is no event of this row. -/
def State.ingress (s : State) (n kind : Nat) (f : RxFrame) (use : BitVec 512 → List Byte → State → State) : State :=
  if !s.core.released then s
  else if s.portFenced n then s.frameCredit n f.vc
  else
    match (s.link n).openFrame f with
    | none => s.tagFail n f.vc
    | some (h, body) =>
      let bad := malformed f.vc h
      if !bad ∧ hdrKind h ≠ kind then s
      else
        let t := s.modChan n f.vc fun c => { c with ingress := c.ingress + 1, verified := true, fails := 0 }
        let t := t.modLink n fun l => { l with recv := l.recv.mod 0 (s.rxHall h) (· + 1) }
        if bad then (t.frameCredit n f.vc).linkProtocol n else use h body t

/-- Take a frame whose consumer is always ready: its credit returns at once (R87). -/
def State.ingressNow (s : State) (n kind : Nat) (f : RxFrame) (use : BitVec 512 → List Byte → State → State) : State :=
  s.ingress n kind f fun h body t => use h body (t.frameCredit n f.vc)

/-! ### Keys (R283, R288 to R291) -/

/-- The fields of a link offer (R288). -/
structure OfferFields where
  serial : Word
  port : Nat
  kind : Nat
  generation : Gen
  publicKey : BitVec 768
  peerSerial : Word
  peerPort : Nat
  reservedOk : Bool
deriving DecidableEq, Repr

/-- Read a link offer. -/
def parseOffer (b : List Byte) : OfferFields where
  serial := BitVec.ofNat 64 (leAt b 0 8)
  port := leAt b 8 1
  kind := leAt b 9 1
  generation := BitVec.ofNat 16 (leAt b 10 2)
  publicKey := BitVec.ofNat 768 (leAt b 16 96)
  peerSerial := BitVec.ofNat 64 (leAt b 112 8)
  peerPort := leAt b 120 1
  reservedOk := leAt b 12 4 = 0 ∧ leAt b 121 7 = 0 ∧ leAt b 8 1 < 20 ∧ (leAt b 9 1 = 2 ∨ (leAt b 9 1 = 1 ∧ leAt b 112 9 = 0))

/-- The part of an offer that its signature covers (R288). -/
def offerBody (serial : Word) (n : Nat) (kind : Byte) (gen : Gen) (public_ : BitVec 768) (peer : Word) (peerPort : Nat) :
    List Byte :=
  leBytes 8 serial.toNat ++ leBytes 1 n ++ [kind] ++ leBytes 2 gen.toNat ++ leBytes 4 0 ++ bytesOf public_ ++
    leBytes 8 peer.toNat ++ leBytes 1 peerPort ++ leBytes 7 0

/-- The 224 bytes of this chip's own signed offer (R288). -/
def State.ownOffer (s : State) (n : Nat) (gen : Gen) (kind : Byte) (peer : Word) (peerPort : Nat) : List Byte :=
  let b := offerBody s.lc.serial n kind gen (Config.ephemeralKey n gen kind) peer peerPort
  b ++ bytesOf (Config.ecdsaSign (s.vault.linkIdentity.getD 0) b)

/-- The link keys of a port from the ephemeral key of its own offer of a generation and kind, and the peer's offer: egress
and ingress under the link generation (R257, R260). -/
def State.agreedKeys (s : State) (n : Nat) (own : Gen) (kind : Byte) (gen : Gen) (p : OfferFields) : BitVec 256 × BitVec 256 :=
  let z := Config.ecdhSecret n own kind p.publicKey
  (linkKey z s.lc.serial p.serial n p.port gen, linkKey z p.serial s.lc.serial p.port n gen)

/-- Install keys out of band: all sixteen counters start at 0 (R283, R290). -/
def State.installLink (s : State) (n : Nat) (own : Gen) (kind : Byte) (gen : Gen) (p : OfferFields) : State :=
  let (eg, ig) := s.agreedKeys n own kind gen p
  s.modLink n fun l =>
    { l with egressKey := some eg, ingressKey := some ig, oldEgress := none, oldIngress := none, urgent := [], gen := gen,
             lastGen := gen, peer := p.serial, offerOut := none, offerAge := 0,
             chans := l.chans.mapAll {} fun _ c =>
               { c with egress := 0, ingress := 0, verified := false, fails := 0, switchedOut := false, switchedIn := false } }

/-- The header of a MARKER. -/
def State.markerHdr (s : State) (last : Bool) : BitVec 512 := frameHdr fkMarker (if last then 1 else 0) 0 0 0 (s.srcGen 0) []

/-- Install keys in band: each channel sends a last marker under the old key, and switches with it (R291). -/
def State.rotateLink (s : State) (n : Nat) (own : Gen) (kind : Byte) (gen : Gen) (p : OfferFields) : State :=
  let (eg, ig) := s.agreedKeys n own kind gen p
  let t := s.modLink n fun l =>
    { l with state := .rotating, oldEgress := l.egressKey, oldIngress := l.ingressKey, egressKey := some eg,
             ingressKey := some ig, gen := gen, lastGen := gen, offerOut := none, offerAge := 0 }
  forAll 8 (fun v u => u.queueUrgent n v (u.markerHdr true) []) t

/-- Send an offer in band, as a KEYX frame. -/
def State.sendOffer (s : State) (n : Nat) (gen : Gen) (kind : Byte) (peer : Word) (peerPort : Nat) : State :=
  s.queueUrgent n 0 (frameHdr fkKeyx 2 0 0 224 (s.srcGen 0) []) (s.ownOffer n gen kind peer peerPort)

/-- The generation of an ANSWER: the larger of the OPEN's and this chip's last on the port plus 1 (R289). -/
def State.answerGen (s : State) (n : Nat) (open_ : Gen) : Gen :=
  let own := nextGen (s.link n).lastGen
  if own.toNat ≤ open_.toNat then open_ else own

/-- The checks of R289 that every offer must pass. -/
def offerOk (c : OfferCheck) (p : OfferFields) : Bool := c.certOk ∧ c.sigOk ∧ p.reservedOk

/-- An ANSWER names this port's own outstanding OPEN; the generation of that OPEN. -/
def State.answersMine (s : State) (n : Nat) (p : OfferFields) (inBand : Bool) : Option Gen :=
  match (s.link n).offerOut with
  | some (own, band) =>
    if p.kind = 2 ∧ p.peerSerial = s.lc.serial ∧ p.peerPort = n ∧ band = inBand then some own else none
  | none => none

/-- An OPEN stands against this chip's own outstanding OPEN: the lower serial's does (R289). -/
def State.openStands (s : State) (n : Nat) (p : OfferFields) : Bool :=
  (s.link n).offerOut = none ∨ p.serial.toNat < s.lc.serial.toNat

/-- An in-band offer (R291): an OPEN is answered and an ANSWER accepted, and the channels switch; others are ignored. -/
def State.inBandOffer (s : State) (n : Nat) (c : OfferCheck) (p : OfferFields) : State :=
  if !offerOk c p ∨ !s.fwRuns then s
  else if p.kind = 1 then
    if s.openStands n p ∧ (s.link n).oldEgress = none ∧ (s.link n).oldIngress = none then
      let gen := s.answerGen n p.generation
      (s.sendOffer n gen 2 p.serial p.port).rotateLink n gen 2 gen p
    else s
  else
    match s.answersMine n p true with
    | some own => s.rotateLink n own 1 p.generation p
    | none => s

/-- KEYX: one link offer in band, the frame's body. -/
def State.keyx (s : State) (n : Nat) (f : RxFrame) (c : OfferCheck) : State :=
  s.ingressNow n fkKeyx f fun _ body t => if body.length = 224 then t.inBandOffer n c (parseOffer body) else t

/-- KEY_ROTATION_START: an egress counter has reached 0xF000_0000, so an OPEN goes out in band (R291). -/
def State.rotationStart (s : State) (n : Nat) : State :=
  let l := s.link n
  if s.fwRuns ∧ s.linkState n = .up ∧ l.offerOut = none ∧ (List.range 8).any (fun v => 0xF0000000 ≤ ((l.chan v).egress).toNat) then
    let gen := nextGen l.lastGen
    (s.modLink n fun x => { x with state := .rotating, offerOut := some (gen, true), offerAge := 0 }).sendOffer n gen 1 0 0
  else s

def execKeyRotationStart (n : Fin 20) (s : State) : Host.Outcome State Fault Refusal := next (s.rotationStart n)

/-- ROTATION_TIMEOUT: no ANSWER within 64 strides of the OPEN (R291). -/
def State.rotationTimeout (s : State) (n : Nat) : State :=
  let l := s.link n
  if (l.offerOut.map Prod.snd) = some true ∧ 64 ≤ l.offerAge ∧ !s.portFenced n then s.startEstablish n else s

/-- Both chips have the new keys: the port is UP, and the messages that were lost go out again (R290). -/
def State.linkUp (s : State) (n : Nat) : State :=
  (s.modLink n fun l => { l with confirmed := true, state := .up, rotations := l.rotations + 1 }).resendMessages n

/-- A verified MARKER: with last_of_key the channel's ingress switches to the new key; otherwise, on VC0 of the answering
chip, it confirms the new keys (R290, R291). -/
def State.markerSeen (s : State) (n vc : Nat) (last : Bool) : State :=
  if last then
    if (s.link n).state = .rotating then
      (s.modChan n vc fun c => { c with ingress := 0, switchedIn := true, verified := false }).finishRotation n
    else s
  else if vc = 0 ∧ !(s.link n).confirmed then s.linkUp n
  else s

def State.marker (s : State) (n : Nat) (f : RxFrame) : State :=
  s.ingressNow n fkMarker f fun h _ t => t.markerSeen n f.vc (hdrLastOfKey h)

/-! ### Out of band (R289, R290): what the mailbox requests LINK_OPEN and LINK_DELIVER do on a port -/

/-- The operator asks for an OPEN: it is the port's outstanding one from now on. What the port has stays until an
establishment starts (R290). -/
def State.openLink (s : State) (n : Nat) : State × List Byte :=
  let gen := nextGen (s.link n).lastGen
  (s.modLink n fun l => { l with offerOut := some (gen, false), offerAge := 0 }, s.ownOffer n gen 1 0 0)

/-- A relayed offer: an OPEN is answered, with an establishment and new keys; an ANSWER to the own OPEN installs the keys,
and a MARKER goes out first on VC0. The second part is the ANSWER to return, if there is one. An OPEN whose generation is
not above the port's is answered too, with the generation that R289 gives (log entry 76). -/
def State.relayedOffer (s : State) (n : Nat) (c : OfferCheck) (p : OfferFields) : State × Option (List Byte) :=
  if !offerOk c p then (s, none)
  else if p.kind = 1 then
    if s.openStands n p then
      let gen := s.answerGen n p.generation
      ((s.startEstablish n).installLink n gen 2 gen p, some (s.ownOffer n gen 2 p.serial p.port))
    else (s, none)
  else
    match s.answersMine n p false with
    | some own => (((s.installLink n own 1 p.generation p).linkUp n).queueUrgent n 0 (s.markerHdr false) [], none)
    | none => (s, none)

/-! ### Messages between management processors (R261, R310, R409) -/

/-- The member entries of a group (R305). -/
def State.membersOf (s : State) (r : GroupRec) : List MemberRec := (s.act.members.drop r.memberBase).take r.memberCount

/-- The port towards a chip: the one whose peer it is (log entry 74). -/
def State.portTo (s : State) (serialLo : BitVec 32) : Nat :=
  ((List.range 20).find? fun n => s.linkUsed n && (s.link n).peer != 0 && BitVec.ofNat 32 (s.link n).peer.toNat == serialLo).getD
    (Config.messageRoute serialLo % 20)

/-- Ask the issuing chip for a group's key (R310). -/
def State.askKey (s : State) (g : Nat) : State :=
  match s.groupRec g with
  | some r =>
    let first := (((s.membersOf r)[0]?).map MemberRec.serialLo).getD 0
    s.sendMessage (s.portTo first) (Config.keyRequest g (s.group g).digest s.lc.serial)
  | none => s

/-- Send a group's key, wrapped under the transport key, to a member chip that asks for it while the own hall is admitted
under the same admission digest (R254, R261, R310). -/
def State.sendKey (s : State) (g : Nat) (digest : List Byte) (serial : Word) : State :=
  let lo := BitVec.ofNat 32 serial.toNat
  match s.groupRec g, (s.group g).key with
  | some r, some k =>
    if s.issues g ∧ (s.group g).state ≠ .admitting ∧ (s.group g).digest = digest ∧
        (s.membersOf r).any (fun m => m.serialLo == lo) then
      s.sendMessage (s.portTo lo) (Config.keyMessage g (keyWrap (Config.transportKey s.lc.serial serial) k))
    else s
  | _, _ => s

/-- A whole message has arrived: the management processor answers a request for a group key (log entry 74). -/
def State.messageArrives (s : State) (bytes : List Byte) : State :=
  match Config.readRequest bytes with
  | some (g, digest, serial) => if s.fwRuns then (s.need (.groupKey (Fin.ofNat 2048 g))).sendKey (g % 2048) digest serial else s
  | none => s

/-- A MGMT fragment: in offset order it extends its message, and a whole message is handed on. -/
def State.mgmtFragment (s : State) (n : Nat) (h : BitVec 512) (body : List Byte) : State :=
  let id := BitVec.ofNat 32 (byteField h 11 8)
  let total := byteField h 15 12
  let off := byteField h 19 16
  let mine (m : MgmtMsg) : Bool := m.port == n && m.id == id
  let got := ((s.mgmtMsgs.find? mine).map MgmtMsg.bytes).getD []
  let age := ((s.mgmtMsgs.find? mine).map MgmtMsg.age).getD 0
  let t := { s with mgmtMsgs := s.mgmtMsgs.filter fun m => !mine m }
  let bytes := (if off = 0 then [] else got) ++ body
  if total = 0 ∨ 16777216 < total ∨ bytes.length ≠ off + body.length ∨ total < bytes.length then t
  else if bytes.length = total then t.messageArrives bytes
  else { t with mgmtMsgs := t.mgmtMsgs ++ [{ port := n, id := id, total := total, bytes := bytes, age := if off = 0 then 0 else age }] }

def State.mgmt (s : State) (n : Nat) (f : RxFrame) : State :=
  s.ingressNow n fkMgmt f fun h body t => t.mgmtFragment n h body

/-- MGMT_MESSAGE_TIMEOUT: a message not complete within 64 strides is discarded. -/
def State.mgmtTimeout (s : State) (n : Nat) (msg : BitVec 32) : State :=
  { s with mgmtMsgs := s.mgmtMsgs.filter fun m => !(m.port == n && m.id == msg && 64 ≤ m.age) }

def execMgmtMessageTimeout (n : Fin 20) (msg : BitVec 32) (s : State) : Host.Outcome State Fault Refusal :=
  next (s.mgmtTimeout n msg)

/-! ### Width and retraining (R61, R300, R301) -/

/-- A lane group that NARROW fenced returns with the upper lanes. -/
def State.lanesBack (s : State) (n : Nat) : State :=
  let u := s.unit (unitId 5 n)
  if u.state ≠ .inService ∧ u.cause = Cause.narrow then
    (s.noteChange (unitId 5 n)).modUnit (unitId 5 n) fun x => { x with state := .inService, gen := nextGen x.gen }
  else s

/-- LINK_WIDTH_CHANGE: down stops the port's sending, 8 lanes fences the lane group and raises LNK_NARROW, 16 lanes restores
it; 0b11 is treated as down (R61, R300). -/
def State.widthChange (s : State) (n : Nat) (lanes : BitVec 2) : State :=
  let width := if lanes = 3 then 0 else lanes
  if width = (s.link n).width then s
  else
    let t := s.modLink n fun l => { l with width := width, downAge := 0 }
    if width = 1 then
      if t.inService 5 n then t.beginFence 5 n Cause.narrow none else t.raise Ev.lnkNarrow { unit := unitId 5 n, cause := Cause.narrow }
    else if width = 2 then t.lanesBack n
    else if (t.unit (unitId 4 n)).state = .inService then t
    else t.modUnit (unitId 4 n) fun x => { x with triggered := true }

def execLinkWidthChange (n : Fin 20) (width : BitVec 2) (s : State) : Host.Outcome State Fault Refusal :=
  next (s.widthChange n width)

/-- LINK_DOWN_TIMEOUT: down for 16 strides (R61, R376). -/
def State.downTimeout (s : State) (n : Nat) : State :=
  let l := s.link n
  if s.linkUsed n ∧ !s.portFenced n ∧ l.width = 0 ∧ 16 ≤ l.downAge then s.fenceLink n Cause.timeout else s

/-- RETRAIN_REQUEST: in the port's stride, with no VC0 frame queued (R301). -/
def State.retrainRequest (s : State) (n : Nat) : State :=
  let l := s.link n
  let idle : Bool := (l.txq ++ l.urgent).all fun f => f.vc != 0
  if s.linkUsed n ∧ !s.portFenced n ∧ l.retrainDue ∧ l.retrainAge = none ∧ idle then
    (s.modLink n fun x => { x with retrainDue := false, retrainAge := some 0 }).emit (.retrain n true)
  else s

def execRetrainRequest (n : Fin 20) (s : State) : Host.Outcome State Fault Refusal := next (s.retrainRequest n)

def State.retrainDone (s : State) (n : Nat) : State :=
  if (s.link n).retrainAge.isSome then (s.modLink n fun x => { x with retrainAge := none }).emit (.retrain n false) else s

def execRetrainDone (n : Fin 20) (s : State) : Host.Outcome State Fault Refusal := next (s.retrainDone n)

/-- RETRAIN_TIMEOUT: not done 16 strides after its request (R301, R376). -/
def State.retrainTimeout (s : State) (n : Nat) : State :=
  match (s.link n).retrainAge with
  | some a => if 16 ≤ a then (s.fenceLink n Cause.timeout).emit (.retrain n false) else s
  | none => s

end Sys2Proof.Machine
end

