-- ==== Sys2Proof/Machine/Windows.lean ====
section
/-! DEFINITION. Remote windows on both sides of a link (R209 to R213, R295, R296), page copies on the wire (R297) and the
MIGRATE command (R206 to R208). -/

namespace Sys2Proof.Machine

/-! ### Requests of this chip (R211, R295) -/

/-- The bytes of a write request's beats over its range. -/
def Dma.bytes (d : Dma) : List Byte :=
  slice (d.beats.flatMap fun b => bytesOf b.data) (d.address % 64) d.length

/-- Start a request of kind window that has passed R211: it leaves on the entry's port, or ends TIMEOUT_REMOTE at once
where the port is fenced (R213). -/
def State.startWindow (s : State) (p : Nat) (d : Dma) : State :=
  let w := s.win d.index
  if s.portFenced w.linkPort ∨ !s.linkUsed w.linkPort then s.deliver p d .timeoutRemote
  else
    (s.modEngine p fun e => { e with dmas := e.dmas ++ [{ d with wait := .link }] }).numberReq w.linkPort
      { id := 0, hall := d.hall, hallGen := d.hallGen, port := p, tag := d.tag, entry := d.index, entryGen := w.gen,
        write := d.write, length := d.length, remoteIndex := w.remoteIndex, offset := d.address,
        data := if d.write then d.bytes else [] }

/-- The checks of R211 on a request of kind window. -/
def Window.serves (w : Window) (h c address length : Nat) (write : Bool) : Bool :=
  w.state = .valid ∧ w.kind = 1 ∧ w.ownerHall = h ∧ w.ownerContext = c ∧ address + length ≤ w.size * 4096 ∧
    (if write then w.wr else w.rd)

/-! ### Accesses for the far chip (R212, R296, R297) -/

/-- The pseudo port on which a link port's inner accesses run. -/
def innerPort (n : Nat) : Nat := 256 + n

/-- Bytes as write beats from an address on. -/
def beatsOf (address : Nat) (b : List Byte) : List WBeat :=
  (List.range (ceilDiv (address % 64 + b.length) 64)).map fun i =>
    let at_ (k : Nat) : Option Byte := if 64 * i + k < address % 64 then none else b[64 * i + k - address % 64]?
    { data := BitVec.ofNat 512 (leNat ((List.range 64).map fun k => (at_ k).getD 0)),
      strb := BitVec.ofNat 64 (((List.range 64).map fun k => if (at_ k).isSome then 2 ^ k else 0).sum) }

/-- The bytes of a range out of its lines. -/
def bytesFrom (address length : Nat) (lines : List Line) : List Byte :=
  slice (lines.flatMap fun l => bytesOf l) (address % 64) length

/-- What R212 makes of an access. -/
inductive InCheck where
  | refused | retired | access (seg address : Nat)
deriving DecidableEq, Repr

/-- The checks of R212 on an inbound access; an access that crosses a 4 KiB boundary is out of range. -/
def State.checkInbound (s : State) (n srcHall index offset length : Nat) (write : Bool) : InCheck :=
  let w := s.win index
  if w.state ≠ .valid ∨ w.kind ≠ 2 ∨ w.linkPort ≠ n ∨ w.peerHall ≠ srcHall ∨ w.size * 4096 < offset + length ∨
      4096 < offset % 4096 + length ∨ !(if write then w.wr else w.rd) then .refused
  else if (s.hall w.ownerHall).state ≠ .active then .retired
  else .access (128 * w.ownerHall + 8 * w.ownerContext + w.segment) (w.segOffset + offset)

/-- The fields that an inbound request carries, from a WIN_REQ or a COPY header. -/
structure InReq where
  copy : Bool
  index : Nat
  id : Nat
  write : Bool
  offset : Nat
  length : Nat
  srcHall : Nat
deriving DecidableEq, Repr

/-- Read an inbound request's header. -/
def parseInReq (h : BitVec 512) : InReq :=
  let copy := hdrKind h == fkCopy
  { copy := copy, index := bits h 75 64, id := bits h 107 96,
    write := if copy then byteField h 14 14 = cpPush else byteField h 14 14 = 1, offset := bits h 165 128,
    length := if copy then 4096 else bits h 203 192 + 1, srcHall := hdrSrcHall h }

/-- The tag of an inner access on its pseudo port. -/
def InReq.tag (r : InReq) : Nat := if r.copy then 4096 + r.id else r.id

/-- Answer an inbound request (R296, R297). -/
def State.answer (s : State) (n : Nat) (h : BitVec 512) (st : Status) (data : List Byte) : State :=
  let r := parseInReq h
  let owner := (s.win r.index).ownerHall
  let gen := BitVec.ofNat 16 (byteField h 11 10)
  if r.copy then
    s.queueRun n owner 6 fkCopy (copyRest r.index gen r.id (if r.write then cpAck else cpData) st.code r.offset (hdrSrcGen h) r.srcHall)
      (if st = .ok then data else [])
  else
    s.queueRun n owner 5 fkWinRsp ([0, 0] ++ leBytes 2 gen.toNat ++ leBytes 2 r.id ++ [st.code] ++ leBytes 1 r.srcHall ++
      leBytes 2 (hdrSrcGen h).toNat) (if st = .ok then data else [])

/-- Perform an inbound request whose fragments have all arrived; `h` is its last header (R212). -/
def State.performIn (s : State) (n : Nat) (h : BitVec 512) (data : List Byte) : State :=
  let r := parseInReq h
  let w := s.win r.index
  match s.checkInbound n r.srcHall r.index r.offset r.length r.write with
  | .refused =>
    (s.raise Ev.windowRefused { unit := unitId 4 n, status := Status.refused.code, object := BitVec.ofNat 16 r.index }).answer
      n h .refused []
  | .retired => s.answer n h .retired []
  | .access k a =>
    match (s.seg k).check a r.length r.write with
    | .refuse => s.answer n h .refused []
    | .poison => s.answer n h .poison []
    | .pass =>
      let t := s.modLink n fun l => { l with inbound := l.inbound ++ [{ hdr := h, frags := [] }] }
      (t.modEngine (innerPort n) fun e => { e with dmas := e.dmas.filter fun d => d.tag != r.tag }).startSeg (innerPort n)
        { tag := r.tag, kind := 0, write := r.write, hall := w.ownerHall, hallGen := (s.hall w.ownerHall).gen,
          context := w.ownerContext, index := r.index, address := a, length := r.length,
          beats := if r.write then beatsOf a data else [], wait := .lines, seg := k }

/-- A fragment of an inbound request: a read runs at once, a write once all its fragments have arrived (R296, R297). -/
def State.inFragment (s : State) (n : Nat) (h : BitVec 512) (body : List Byte) : State :=
  let r := parseInReq h
  if !r.write then s.performIn n h []
  else
    let mine (i : WinReqIn) : Bool :=
      !hdrLast i.hdr && (parseInReq i.hdr).tag == r.tag && (parseInReq i.hdr).copy == r.copy
    let sofar := ((((s.link n).inbound.find? mine).map WinReqIn.frags).getD [])
    let t := s.modLink n fun l => { l with inbound := l.inbound.filter fun i => !mine i }
    if hdrFrag h ≠ (if hdrFrag h = 0 then 0 else sofar.length) then t
    else
      let frags := (if hdrFrag h = 0 then [] else sofar) ++ [body]
      if hdrLast h then
        if frags.flatten.length = r.length then t.performIn n h frags.flatten else t
      else t.modLink n fun l => { l with inbound := l.inbound ++ [{ hdr := h, frags := frags }] }

/-- An inner access of a link port has completed: it is answered. -/
def State.innerDone (s : State) (n tag : Nat) (st : Status) (lines : List Line) : State :=
  match (s.link n).inbound.find? fun i => hdrLast i.hdr && (parseInReq i.hdr).tag == tag with
  | none => s
  | some i =>
    let r := parseInReq i.hdr
    let t := s.modLink n fun l => { l with inbound := l.inbound.erase i }
    t.answer n i.hdr st (if r.write then [] else bytesFrom ((s.win r.index).segOffset + r.offset) r.length lines)

/-! ### Replies (R213, R296, R297) -/

/-- The outstanding request that a reply answers: its number, and its echoed generations and hall. A number whose earlier
request's reply is still to come answers that one (R213). -/
def State.reqOf (s : State) (n : Nat) (copy write : Bool) (id : Nat) (gen hallGen : Gen) (hall : Nat) : Option WinReqOut :=
  if (copy, id) ∈ (s.link n).late then none
  else (s.link n).reqs.find? fun r => r.copy == copy && (!copy || r.write == write) && r.id == id && r.entryGen == gen &&
    r.hallGen == hallGen && r.hall == hall

/-- The last frame of a reply whose request has ended before it: its number is free of it (R213). -/
def State.lateReply (s : State) (n : Nat) (copy : Bool) (h : BitVec 512) : State :=
  if hdrLast h then s.modLink n fun l => { l with late := l.late.erase (copy, bits h 107 96) } else s

/-- WINDOW_REFUSED against the requesting hall, where a reply says REFUSED (R212). -/
def State.noteRefusal (s : State) (r : WinReqOut) (st : Status) : State :=
  if st = .refused then
    s.raise Ev.windowRefused { hall := some r.hall, status := st.code, object := BitVec.ofNat 16 r.entry }
  else s

/-- The status that a reply carries; a reserved code counts as REFUSED. -/
def replyStatus (c : Byte) : Status := (Status.ofCode c).getD .refused

/-- A fragment of a reply to a read collects in its request. -/
def State.collect (s : State) (n : Nat) (r : WinReqOut) (body : List Byte) : State × WinReqOut :=
  let x := { r with frags := r.frags ++ [body] }
  (s.modLink n fun l => { l with reqs := l.reqs.map fun y => if y = r then x else y }, x)

/-- Deliver bytes to an engine's read. -/
def State.deliverBytes (s : State) (p tag : Nat) (b : List Byte) (st : Status) : State :=
  match s.dma p tag with
  | none => s
  | some d =>
    let lines := (beatsOf d.address (b.take d.length)).map WBeat.data
    let tab : Tab Line := (lines.zip (List.range lines.length)).foldl (fun t x => t.set 0 x.2 x.1) []
    (s.modDma p tag fun y => { y with lines := tab }).respond p { d with lines := tab } st

/-- A WIN_RSP frame: the reply is delivered once its last fragment has arrived, or discarded. -/
def State.winReply (s : State) (n : Nat) (h : BitVec 512) (body : List Byte) : State :=
  match s.reqOf n false false (bits h 107 96) (BitVec.ofNat 16 (byteField h 11 10)) (BitVec.ofNat 16 (byteField h 17 16))
      (bits h 125 120) with
  | none => s.lateReply n false h
  | some r =>
    let st := replyStatus (BitVec.ofNat 8 (byteField h 14 14))
    let (t, x) := s.collect n r body
    if !hdrLast h then t
    else ((t.endReq n x).noteRefusal r st).deliverBytes r.port r.tag x.frags.flatten st

/-- What completes a copy page goes to its MIGRATE. -/
def State.pageServed (s : State) (r : WinReqOut) (st : Status) (lines : List Line) : State :=
  { s with xlat := { s.xlat with served := s.xlat.served ++ [(migratePort r.hall r.queue, r.page, r.write, st, lines)] } }

/-- An ACK frame. -/
def State.copyAck (s : State) (n : Nat) (h : BitVec 512) : State :=
  match s.reqOf n true true (bits h 107 96) (BitVec.ofNat 16 (byteField h 11 10)) (BitVec.ofNat 16 (byteField h 25 24))
      (bits h 213 208) with
  | none => s.lateReply n true h
  | some r =>
    let st := replyStatus (BitVec.ofNat 8 (byteField h 15 15))
    ((s.endReq n r).noteRefusal r st).pageServed r st []

/-- A PULL_DATA frame: the page is whole with its fifth fragment, or refused with one. -/
def State.copyData (s : State) (n : Nat) (h : BitVec 512) (body : List Byte) : State :=
  match s.reqOf n true false (bits h 107 96) (BitVec.ofNat 16 (byteField h 11 10)) (BitVec.ofNat 16 (byteField h 25 24))
      (bits h 213 208) with
  | none => s.lateReply n true h
  | some r =>
    let st := replyStatus (BitVec.ofNat 8 (byteField h 15 15))
    let (t, x) := s.collect n r body
    if !hdrLast h then t
    else ((t.endReq n x).noteRefusal r st).pageServed r st ((beatsOf 0 x.frags.flatten).map WBeat.data)

/-! ### MIGRATE (R206, R208) -/

/-- A read or write of a page by a MIGRATE, of kind segment (0) or host page (1). -/
def pageDma (s : State) (m : Migration) (page kind address : Nat) (write : Bool) (lines : List Line) : Dma :=
  { tag := page, kind := kind, write := write, hall := m.hall, hallGen := (s.hall m.hall).gen,
    context := (s.queue m.hall m.queue).context, index := m.seg % 8, address := address, length := 4096,
    beats := if write then lines.map fun l => { data := l, strb := BitVec.allOnes 64 } else [], wait := .lines, seg := m.seg }

/-- Access a page of the local segment of a MIGRATE at a context address. -/
def State.migrateSeg (s : State) (m : Migration) (page va : Nat) (write : Bool) (lines : List Line) : State :=
  let p := migratePort m.hall m.queue
  let d := pageDma s m page 0 (va - (s.seg m.seg).va) write lines
  match (s.seg m.seg).check d.address 4096 write with
  | .refuse => s.deliver p d .refused
  | .poison => s.deliver p d .poison
  | .pass => s.startSeg p d

/-- Access a host page of a MIGRATE. -/
def State.migrateHost (s : State) (m : Migration) (page va : Nat) (write : Bool) (lines : List Line) : State :=
  s.startHost (migratePort m.hall m.queue) (pageDma s m page 1 va write lines)

/-- A copy page of a MIGRATE leaves for the far chip. -/
def State.migrateLink (s : State) (m : Migration) (page offset : Nat) (write : Bool) (lines : List Line) : State :=
  let w := s.win m.window
  let r : WinReqOut :=
    { id := 0, hall := m.hall, hallGen := (s.hall m.hall).gen, port := noPort, tag := 0, entry := m.window, entryGen := w.gen,
      write := write, length := 4096, copy := true, page := page, queue := m.queue, remoteIndex := w.remoteIndex,
      offset := offset, data := lines.flatMap fun l => bytesOf l }
  if s.portFenced w.linkPort ∨ !s.linkUsed w.linkPort then s.failReq r else s.numberReq w.linkPort r

/-- Begin a page: its read. -/
def State.beginPage (s : State) (m : Migration) (page : Nat) : State :=
  match m.direction with
  | 0 => s.migrateHost m page (m.src + 4096 * page) false []
  | 3 => s.migrateLink m page (m.src + 4096 * page) false []
  | _ => s.migrateSeg m page (m.src + 4096 * page) false []

/-- The page has been read: its write. A host page that direction 0 has read leaves the host translation cache (R206). -/
def State.writePage (s : State) (m : Migration) (page : Nat) (lines : List Line) : State :=
  match m.direction with
  | 0 =>
    let t := { s with xlat := { s.xlat with
      htc := dropHtc m.hall (s.queue m.hall m.queue).context (m.src + 4096 * page) 4096 s.xlat.htc } }
    t.migrateSeg m page (m.dst + 4096 * page) true lines
  | 1 => s.migrateHost m page (m.dst + 4096 * page) true lines
  | 2 => s.migrateLink m page (m.dst + 4096 * page) true lines
  | _ => s.migrateSeg m page (m.dst + 4096 * page) true lines

/-- The MIGRATE of a queue. -/
def State.migration (s : State) (h q : Nat) : Option Migration := s.xlat.migrations.find? fun m => m.hall == h && m.queue == q

/-- Change the MIGRATE of a queue. -/
def State.modMigration (s : State) (h q : Nat) (f : Migration → Migration) : State :=
  { s with xlat := { s.xlat with
    migrations := s.xlat.migrations.map fun m => if m.hall = h ∧ m.queue = q then f m else m } }

/-- The MIGRATE of a queue completes, and the next command follows. -/
def State.finishMigrate (s : State) (m : Migration) (st : Status) : State :=
  (((s.completeWith m.hall m.queue m.hdr st).modQueue m.hall m.queue fun x => { x with wait := .none }).nextCommand m.hall m.queue)
    |> fun t => { t with xlat := { t.xlat with
      migrations := t.xlat.migrations.filter fun y => !(y.hall == m.hall && y.queue == m.queue) } }

/-- Pages that a MIGRATE keeps outstanding (R206, R208). -/
def Migration.depth (m : Migration) : Nat := if m.direction ≤ 1 then 1 else 16

/-- Issue pages as far as the MIGRATE may, or complete it. -/
def pumpMigrate (h q : Nat) : Nat → State → State
  | 0, s => s
  | fuel + 1, s =>
    match s.migration h q with
    | none => s
    | some m =>
      match m.fail with
      | some (_, st) => if m.out = [] then s.finishMigrate m st else s
      | none =>
        if m.next < m.pages ∧ m.out.length < m.depth then
          pumpMigrate h q fuel ((s.modMigration h q fun x => { x with next := x.next + 1, out := x.out ++ [(x.next, 0)] }).beginPage
            m m.next)
        else if m.out = [] then s.finishMigrate m .ok
        else s

/-- A page of a MIGRATE has failed: the lowest failing page counts (R208). -/
def Migration.failAt (m : Migration) (page : Nat) (st : Status) : Migration :=
  { m with fail := match m.fail with
    | some (p, x) => if page < p then some (page, st) else some (p, x)
    | none => some (page, st) }

/-- An access of a MIGRATE has completed. -/
def State.migrateServed (s : State) (h q page : Nat) (write : Bool) (st : Status) (lines : List Line) : State :=
  match s.migration h q with
  | none => s
  | some m =>
    if m.out.all fun x => x.1 != page then s
    else if st ≠ .ok then
      pumpMigrate h q 17 (s.modMigration h q fun x =>
        { x.failAt page st with out := x.out.filter fun y => y.1 != page })
    else if write then
      pumpMigrate h q 17 (s.modMigration h q fun x => { x with out := x.out.filter fun y => y.1 != page })
    else s.writePage m page lines

/-! ### The core's own writes (R175, R196) -/

/-- A write of the core has been made, or dropped: the count that follows it is stepped (R175). -/
def State.writeMade (s : State) (id : Nat) : State :=
  match s.xlat.writes.find? fun w => w.id == id with
  | none => s
  | some w =>
    let t := { s with xlat := { s.xlat with writes := s.xlat.writes.filter fun x => x.id != id } }
    match w.counts with
    | some q => t.modQueue w.hall q fun x => { x with completion := x.completion + 1 }
    | none => t

/-- Make a write: where it resolves to a segment, through its path with the checks of R196, else to a host page. -/
def State.makeWrite (s : State) (w : CoreWrite) : State :=
  let d (kind k address : Nat) : Dma :=
    { tag := w.id, kind := kind, write := true, hall := w.hall, hallGen := (s.hall w.hall).gen, context := w.context,
      index := k % 8, address := address, length := w.bytes.length, beats := beatsOf address w.bytes, wait := .lines, seg := k }
  match s.segAt w.hall w.context w.va with
  | some k =>
    let x := d 0 k (w.va - (s.seg k).va)
    match (s.seg k).check x.address x.length true with
    | .pass => s.startSeg w.port x
    | .poison => s.deliver w.port x .poison
    | .refuse => s.deliver w.port x .refused
  | none => s.startHost w.port (d 1 0 w.va)

/-- A write can start: it has not, and no earlier record of its queue is still to be written. -/
def State.writeReady (s : State) (w : CoreWrite) : Bool :=
  !w.started && (resultPort 0 ≤ w.port || (s.xlat.writes.find? fun x => x.port == w.port) == some w)

/-- Start a write; one without bytes is made at once. -/
def State.startWrite (s : State) (w : CoreWrite) : State :=
  if w.bytes = [] then s.writeMade w.id
  else
    ({ s with xlat := { s.xlat with
      writes := s.xlat.writes.map fun (x : CoreWrite) => if x.id = w.id then { w with started := true } else x } }).makeWrite w

/-- Start the writes that can start. -/
def State.startWrites (s : State) : State := forEach (s.xlat.writes.filter s.writeReady) (fun w t => t.startWrite w) s

/-! ### Completed inner accesses -/

/-- Hand one completed inner access on. -/
def State.handOn (s : State) (p tag : Nat) (write : Bool) (st : Status) (lines : List Line) : State :=
  if p < 512 then s.innerDone (p - 256) tag st lines
  else if p < recordPort 0 0 then s.migrateServed ((p - 512) / 256) ((p - 512) % 256) tag write st lines
  else (s.writeMade tag).startWrites

/-- Hand the completed inner accesses on until none is left. -/
def drainLoop : Nat → State → State
  | 0, s => s
  | fuel + 1, s =>
    match s.xlat.served with
    | [] => s
    | (p, tag, write, st, lines) :: rest =>
      drainLoop fuel (({ s with xlat := { s.xlat with served := rest } }).handOn p tag write st lines)

/-- More inner accesses than can complete before the core's own work comes to rest: two to a page that a MIGRATE has still
to move or that is under way, one to a write of the core, and one to each request of a pseudo port. -/
def State.innerBound (s : State) : Nat :=
  s.xlat.served.length + 2 * ((s.xlat.migrations.map fun m => m.pages + m.out.length).sum + 1) + 2 * s.xlat.writes.length +
    2 * (s.engines.map fun e => e.2.dmas.length).sum

/-- What follows a command: requests that have ended let go of the lines that they held, the core's own writes start, and
completed inner accesses are handed on until none is left, and fence transfers take effect whose writes have their
responses. No command leaves one of them to the next. -/
def State.drainServed (s : State) : State :=
  let t := (s.wake [.lock]).startWrites
  let u := drainLoop t.innerBound t
  State.serveFences { u with xlat := { u.xlat with served := [] } }

/-- The fields of a MIGRATE command (R160). -/
structure MigrateOp where
  direction : Nat
  window : Nat
  src : Nat
  dst : Nat
  pages : Nat
  reservedOk : Bool
deriving DecidableEq, Repr

/-- Read a MIGRATE command: addresses of 48 bits, window offsets of 38. -/
def parseMigrate (r : BitVec 512) : MigrateOp :=
  let dir := byteField r 16 16
  let src := if dir = 3 then 38 else 48
  let dst := if dir = 2 then 38 else 48
  { direction := dir, window := bits r 147 136, src := byteField r 31 24, dst := byteField r 39 32,
    pages := byteField r 43 40,
    reservedOk := dir ≤ 3 ∧ bits r 151 148 = 0 ∧ (2 ≤ dir ∨ zeroBytes r 18 17) ∧ zeroBytes r 23 19 ∧
      byteField r 31 24 < 2 ^ src ∧ byteField r 39 32 < 2 ^ dst ∧ byteField r 31 24 % 4096 = 0 ∧
      byteField r 39 32 % 4096 = 0 ∧ 1 ≤ byteField r 43 40 ∧ byteField r 43 40 ≤ 524288 ∧ zeroBytes r 63 44 }

/-- The segment of a context that holds a whole range, in one of some states and with the access. -/
def State.rangeWith (s : State) (states : List SegState) (h c va len : Nat) (write : Bool) : Option Nat :=
  match s.segAt h c va with
  | some k =>
    let g := s.seg k
    if g.state ∈ states ∧ va + len ≤ g.va + g.size * 2 ^ 21 ∧ (if write then g.wr else g.rd) then some k else none
  | none => none

/-- The VALID segment that holds a whole range of a context, with the access. -/
def State.rangeIn (s : State) (h c va len : Nat) (write : Bool) : Option Nat := s.rangeWith [.valid] h c va len write

/-- The segment that holds a whole range of a context, with the access: one that is LOST passes the check, and its accesses
complete POISON (R196, R199). -/
def State.segRange (s : State) (h c va len : Nat) (write : Bool) : Option Nat :=
  s.rangeWith [.valid, .lost] h c va len write

/-- A range of a context meets no segment's range, so it is of host pages (R196). -/
def State.hostRange (s : State) (h c va len : Nat) : Bool :=
  va + len ≤ 2 ^ 48 ∧ (List.range 8).all fun i =>
    let g := s.seg (128 * h + 8 * c + i)
    g.state = .invalid ∨ !overlaps va len g.va (g.size * 2 ^ 21)

/-- The segment of an accepted MIGRATE (R206, R208). -/
def State.migrateCheck (s : State) (h c : Nat) (m : MigrateOp) : Option Nat :=
  let len := m.pages * 4096
  let w := s.win m.window
  let win (off : Nat) (write : Bool) : Bool := w.serves h c off len write
  if !m.reservedOk then none
  else
    match m.direction with
    | 0 => if s.hostRange h c m.src len then s.segRange h c m.dst len true else none
    | 1 => if s.hostRange h c m.dst len then s.segRange h c m.src len false else none
    | 2 => if win m.dst true then s.segRange h c m.src len false else none
    | _ => if win m.src false then s.segRange h c m.dst len true else none

/-- A MIGRATE names a window of another hall: a HALL_VIOLATION (R25). -/
def State.windowViolation (s : State) (h : Nat) (m : MigrateOp) : State :=
  if m.reservedOk ∧ 2 ≤ m.direction ∧ (s.win m.window).state ≠ .invalid ∧ (s.win m.window).ownerHall ≠ h then
    s.violation h (BitVec.ofNat 16 m.window)
  else s

/-- MIGRATE: refused under R8, or its pages begin to move. -/
def State.migrate (s : State) (h q : Nat) (raw : BitVec 512) : State :=
  s.plainCommand h q raw 0x0A true fun s _ hdr =>
    let m := parseMigrate raw
    match s.migrateCheck h (s.queue h q).context m with
    | none => (s.windowViolation h m).abandon h q hdr Status.refused.code
    | some k =>
      let t := s.modQueue h q fun x => { x with wait := .migrate }
      let t := { t with xlat := { t.xlat with migrations := t.xlat.migrations ++
        [{ hall := h, queue := q, hdr := hdr, direction := m.direction, window := m.window, src := m.src, dst := m.dst,
           pages := m.pages, next := 0, out := [], fail := none, seg := k }] } }
      pumpMigrate h q 17 t

def execMigrate (h : Fin 64) (q : Fin 256) (raw : BitVec 512) (s : State) : Host.Outcome State Fault Refusal :=
  next (s.migrate h q raw).drainServed

end Sys2Proof.Machine
end

