-- ==== Sys2Proof/Machine/Coll.lean ====
section
/-! DEFINITION. The collective engine: the schedule of an operation's chunks (R315 to R320), its COLL command (R312, R313),
the chunks that pass a member (R299, R336, R351), count laps (R321), signals (R316, R323), engine partials (R337 to R339)
and the wait counts (R322). -/

namespace Sys2Proof.Machine

/-! ### The schedule (R315, R317 to R320) -/

/-- The counts of an operation whose pieces follow a COUNT_LAP. -/
def CollOp.countList (o : CollOp) (r : GroupRec) : List Nat := (List.range r.members).map fun m => Tab.get 0 o.counts m - 1

/-- The baton of a flight is an FP32 pair: flight 0 of a compensated group's reduce-scatter (R344). -/
def pairs (r : GroupRec) (o : CollOp) (k : Nat) : Bool := o.kind == 0 && k == 0 && r.compensated

/-- Elements of a full chunk, K (R315). -/
def chunkElems (r : GroupRec) (o : CollOp) (k : Nat) : Nat := if pairs r o k then 1920 else 3840

/-- The wire format of a flight (R317 to R319). -/
def wireFmt (r : GroupRec) (o : CollOp) (k : Nat) : Nat :=
  if o.kind ≠ 0 then o.outFmt
  else if k = 1 then r.fmt1
  else if k = 2 then r.fmt2
  else if r.compensated then 0xA
  else if o.rounding = 2 then o.outFmt
  else 0

/-- Start and end of part j of a flight. -/
def CollOp.part (o : CollOp) (r : GroupRec) (k j : Nat) : Nat × Nat := partAt r o.elements (o.countList r) k j

/-- Chunks of part j of a flight. -/
def CollOp.partChunks (o : CollOp) (r : GroupRec) (k j : Nat) : Nat :=
  let (a, b) := o.part r k j
  ceilDiv (b - a) (chunkElems r o k)

/-- A chunk's work at this member. -/
structure WorkItem where
  step : Nat
  send : Bool                          -- it leaves for the next member; otherwise it stays here
  copy : Bool                          -- a copy of the own piece into dst (R319)
  part_ : Nat
  chunk : Nat                          -- index within its part
  first : Nat                          -- first element in the whole array
  len : Nat
  recv : Option Nat                    -- its number among the chunks received
deriving DecidableEq, Repr

/-- Which of some runs a number falls into, and its place there. -/
def locate : List Nat → Nat → Option (Nat × Nat)
  | [], _ => none
  | n :: rest, v => if v < n then some (0, v) else (locate rest (v - n)).map fun x => (x.1 + 1, x.2)

/-- The part that step s handles at coordinate c of a ring of n, counted back from c − d. -/
def backPart (n c d s : Nat) : Nat := (c + 2 * n - d - s) % n

/-- The parts of a ring in the order of its steps: for reduce-scatter those handled, for all-gather those sent. -/
def stepParts (r : GroupRec) (o : CollOp) (k : Nat) : List Nat :=
  let n := r.size k
  if o.kind = 0 then (List.range n).map (backPart n (r.coord k) 1) else (List.range (n - 1)).map (backPart n (r.coord k) 0)

/-- Chunks per step of a ring. -/
def stepSizes (r : GroupRec) (o : CollOp) (k : Nat) : List Nat := (stepParts r o k).map (o.partChunks r k)

/-- Copies of the own piece, at the top flight of an all-gather. -/
def copies (r : GroupRec) (o : CollOp) (k : Nat) : Nat :=
  if o.kind = 1 ∧ k = r.top then o.partChunks r k (r.coord k) else 0

/-- Work items of a ring: copies, then the chunks of each step. -/
def workItems (r : GroupRec) (o : CollOp) (k : Nat) : Nat := copies r o k + (stepSizes r o k).sum

/-- The chunks received on a ring: their parts in order. -/
def recvParts (r : GroupRec) (o : CollOp) (k : Nat) : List Nat :=
  let n := r.size k
  (List.range (n - 1)).map (backPart n (r.coord k) (if o.kind = 0 then 2 else 1))

/-- Chunks to receive on a ring. -/
def recvCount (r : GroupRec) (o : CollOp) (k : Nat) : Nat := ((recvParts r o k).map (o.partChunks r k)).sum

/-- Chunk i of part j of a flight: first element and length. -/
def CollOp.chunkAt (o : CollOp) (r : GroupRec) (k j i : Nat) : Nat × Nat :=
  let (a, b) := o.part r k j
  let first := a + i * chunkElems r o k
  (first, min (chunkElems r o k) (b - first))

/-- Work item v of a ring. -/
def workItem (r : GroupRec) (o : CollOp) (k v : Nat) : Option WorkItem :=
  let c := copies r o k
  let sizes := stepSizes r o k
  if v < c then
    let (first, len) := o.chunkAt r k (r.coord k) v
    some { step := 0, send := false, copy := true, part_ := r.coord k, chunk := v, first := first, len := len, recv := none }
  else
    (locate sizes (v - c)).map fun (step, i) =>
      let j := ((stepParts r o k)[step]?).getD 0
      let (first, len) := o.chunkAt r k j i
      { step := step, send := o.kind ≠ 0 || step + 1 < r.size k, copy := false, part_ := j, chunk := i, first := first,
        len := len, recv := if step = 0 then none else some (v - c - (sizes[0]?).getD 0) }

/-- Chunk number u that a ring receives: its step's part, its index there, first element and length. -/
def recvItem (r : GroupRec) (o : CollOp) (k u : Nat) : Option (Nat × Nat × Nat × Nat) :=
  let parts := recvParts r o k
  (locate (parts.map (o.partChunks r k)) u).map fun (step, i) =>
    let (first, len) := o.chunkAt r k ((parts[step]?).getD 0) i
    (step, i, first, len)

/-- The progress of a ring. -/
def CollOp.ring (o : CollOp) (k : Nat) : Ring := (o.rings[k]?).getD {}

/-- Change the progress of a ring. -/
def CollOp.modRing (o : CollOp) (k : Nat) (f : Ring → Ring) : CollOp :=
  { o with rings := (o.rings.zip (List.range o.rings.length)).map fun x => if x.2 = k then f x.1 else x.1 }

/-- Received chunks of a ring that this member has finished with. -/
def finished (r : GroupRec) (o : CollOp) (k : Nat) : Nat :=
  let x := o.ring k
  let own := copies r o k + ((stepSizes r o k)[0]?).getD 0
  if o.kind = 2 then x.received
  else if o.kind = 0 then x.sent - own
  else
    let forwards := recvCount r o k - o.partChunks r k (((recvParts r o k).getLast?).getD 0)
    (x.sent - own) + (x.received - forwards)

/-! ### Operations of a group -/

/-- The operation of a kind that a group has in flight. -/
def State.opOf (s : State) (g kind : Nat) : Option CollOp := (s.group g).ops.find? fun o => o.kind == kind

/-- Replace an operation of a group. -/
def State.putOp (s : State) (g : Nat) (o : CollOp) : State :=
  s.modGroup g fun x => { x with ops := x.ops.map fun y => if y.kind = o.kind then o else y }

/-- Every wait count of the group is below 8 (R322). -/
def Group.calm (x : Group) : Bool := x.ops.all fun o => o.rings.all fun y => y.waited < 8

/-- A STALLED group whose counts are below 8 is ADMITTED again. -/
def State.unstall (s : State) (g : Nat) : State :=
  s.modGroup g fun x => if x.state = .stalled ∧ x.calm then { x with state := .admitted } else x

/-- A chunk or grant has arrived on a ring: its wait count returns to 0. -/
def State.ringProgress (s : State) (g : Nat) (o : CollOp) (k : Nat) : State :=
  (s.putOp g (o.modRing k fun y => { y with waited := 0, progress := true })).unstall g

/-- Send the GRANT that the finished chunks of a ring allow, unless the hall is PAUSED (R316, R324). -/
def State.grantMore (s : State) (r : GroupRec) (kind k : Nat) : State :=
  match s.opOf r.group kind with
  | none => s
  | some o =>
    let v := r.window + finished r o k
    if (s.hall o.hall).state = .active ∧ (o.ring k).offered < v then
      (s.putOp r.group (o.modRing k fun y => { y with offered := v })).sendGrant r o k v
    else s

/-- Write bytes at a context address of the hall, through its segment's write path (R317, R345). -/
def State.collWrite (s : State) (o : CollOp) (va : Nat) (b : List Byte) : State :=
  if b = [] then s else s.coreWrite (resultPort o.hall) o.hall o.context va b

/-- A chunk completes: chunk_fence takes step × 2^24 + k (R162, R320). -/
def State.chunkDone (s : State) (g kind : Nat) : State :=
  match s.opOf g kind with
  | none => s
  | some o =>
    let n := o.completed + 1
    (s.putOp g { o with completed := n }).setFence o.hall o.chunkFence (BitVec.ofNat 64 (o.step.toNat * 2 ^ 24 + n))

/-- Every chunk of the operation has completed and every chunk it must send has left (R320). -/
def CollOp.over (o : CollOp) (r : GroupRec) : Bool :=
  r.flights.all fun k => (o.ring k).sent = workItems r o k ∧ (o.ring k).received = recvCount r o k

/-- End an operation that is over. -/
def State.tryFinish (s : State) (r : GroupRec) (kind : Nat) : State :=
  match s.opOf r.group kind with
  | some o => if kind ≠ 2 ∧ o.accepted ∧ o.over r then s.endOp r.group o .ok else s
  | none => s

/-! ### Regions of dst (R314, R335) -/

/-- Positions of this member's piece. -/
def GroupRec.myPos (r : GroupRec) : Nat := r.coord 2 + r.f2 * (r.coord 1 + r.f1 * r.coord 0)

/-- Start and end of the piece of this member. -/
def CollOp.piece (o : CollOp) (r : GroupRec) : Nat × Nat := pieceAt r o.elements (o.countList r) r.myPos

/-- Elements of the whole array. -/
def CollOp.total (o : CollOp) (r : GroupRec) : Nat := if o.elements = 0 then (o.countList r).sum else o.elements

/-- Address, first element and format of the region that receives the result of a flight: dst at the top, else the next
flight's staging. -/
def CollOp.resultRegion (o : CollOp) (r : GroupRec) (k : Nat) : Nat × Nat × Nat :=
  let (p0, p1) := o.piece r
  let st1 := roundUp (o.dst + regionBytes o.outFmt (p1 - p0)) 4096
  let (a, b) := o.part r 0 (r.coord 0)
  if k = r.top then (o.dst, p0, o.outFmt)
  else if k = 0 then (st1, a, r.fmt1)
  else (roundUp (st1 + regionBytes r.fmt1 (b - a)) 4096, (o.part r 1 (r.coord 1)).1, r.fmt2)

/-- Bytes of src and of dst with its staging (R314). -/
def CollOp.spans (o : CollOp) (r : GroupRec) : Nat × Nat :=
  let (p0, p1) := o.piece r
  let piece := regionBytes o.outFmt (p1 - p0)
  if o.kind = 2 then (8, 8 * r.members)
  else if o.kind = 1 then
    (piece, ((List.range r.members).map fun p =>
      let (a, b) := pieceAt r o.elements (o.countList r) p
      regionBytes o.outFmt (b - a)).sum)
  else
    let len (k : Nat) : Nat := (o.part r k (r.coord k)).2 - (o.part r k (r.coord k)).1
    let end0 := o.dst + piece
    let end1 := if 1 ∈ r.flights then roundUp end0 4096 + regionBytes r.fmt1 (len 0) else end0
    let end2 := if 2 ∈ r.flights then roundUp end1 4096 + regionBytes r.fmt2 (len 1) else end1
    (regionBytes o.inFmt (o.total r), end2 - o.dst)

/-- Where the elements of a chunk lie in an all-gather's dst: byte offset and length in each piece that it meets, whole
block images in an MX format (R335, log entry 32). -/
def gatherParts (r : GroupRec) (o : CollOp) (first len : Nat) : List (Nat × Nat) :=
  let c := o.outFmt
  ((List.range r.members).foldl (fun (acc : List (Nat × Nat) × Nat) p =>
    let (a, b) := pieceAt r o.elements (o.countList r) p
    let lo := max a first
    let hi := min b (first + len)
    let next := acc.2 + regionBytes c (b - a)
    if lo < hi then
      let x := if isMx c then (acc.2 + (lo - a) / 32 * imageBytes c, (ceilDiv (hi - a) 32 - (lo - a) / 32) * imageBytes c)
        else (acc.2 + regionBytes c (lo - a), regionBytes c (hi - lo))
      (acc.1 ++ [x], next)
    else (acc.1, next)) (([], 0) : List (Nat × Nat) × Nat)).1

/-- Bytes of a chunk's body on the wire (R315, R335). -/
def bodyBytes (r : GroupRec) (o : CollOp) (k first len : Nat) : Nat :=
  if o.kind = 1 then ((gatherParts r o first len).map Prod.snd).sum else regionBytes (wireFmt r o k) len

/-- Write an all-gather chunk's body into dst. -/
def State.gatherWrite (s : State) (r : GroupRec) (o : CollOp) (first len : Nat) (body : List Byte) : State :=
  ((gatherParts r o first len).foldl (fun (acc : State × Nat) x =>
    (acc.1.collWrite o (o.dst + x.1) (slice body acc.2 x.2), acc.2 + x.2)) (s, 0)).1

/-! ### The COLL command (R312, R313) -/

/-- The fields of a COLL by the byte offsets of R160. -/
def collOp (h q : Nat) (x : Queue) (raw : BitVec 512) : CollOp :=
  { kind := byteField raw 18 18, hall := h, queue := q, queueGen := x.gen, hdr := cmdHdr raw, context := x.context,
    inFmt := byteField raw 19 19 % 16, outFmt := byteField raw 19 19 / 16, rounding := byteField raw 20 20 % 4,
    src := byteField raw 29 24, dst := byteField raw 37 32, elements := byteField raw 44 40,
    chunkFence := byteField raw 49 48 % 4096, doneFence := byteField raw 51 50 % 4096,
    step := BitVec.ofNat 64 (byteField raw 63 56), accepted := false }

/-- The reserved fields and encodings of a COLL are as R8 and R332 ask. DESIGN CHOICE (log entry 89): R160 gives bits [11:0]
of chunk_fence and done_fence and says nothing of [15:12]; the model takes them as reserved. -/
def collFieldsOk (raw : BitVec 512) : Bool :=
  hdrOk raw ∧ bits raw 143 139 = 0 ∧ byteField raw 18 18 ≤ 2 ∧ collFormat (byteField raw 19 19 % 16) ∧
    collFormat (byteField raw 19 19 / 16) ∧ byteField raw 20 20 ≤ 2 ∧ zeroBytes raw 23 21 ∧ zeroBytes raw 31 30 ∧
    zeroBytes raw 39 38 ∧ zeroBytes raw 47 45 ∧ byteField raw 49 48 < 4096 ∧ byteField raw 51 50 < 4096 ∧ zeroBytes raw 55 52

/-- The operation with the counts of the group's last COUNT_LAP where its pieces follow them (R314). -/
def withCounts (x : Group) (o : CollOp) : CollOp :=
  match x.lastCounts with
  | some (step, l) =>
    if o.kind ≠ 2 ∧ o.elements = 0 ∧ step = o.step then
      { o with counts := (l.zip (List.range l.length)).map fun z => (z.2, z.1 + 1) }
    else o
  | none => o

/-- The conditions of R312 from the second bullet on, R314 and R333. -/
def State.collOk (s : State) (r : GroupRec) (o : CollOp) : Bool :=
  let (srcLen, dstLen) := o.spans r
  let lap : Bool := o.kind == 2
  let counted : Bool := o.elements ≠ 0 || (o.counts.length == r.members && (o.countList r).sum < 2 ^ 40)
  let chunks := if lap then 0 else if o.kind = 0 then o.partChunks r r.top (r.coord r.top) else
    copies r o r.top + (r.flights.map (recvCount r o)).sum
  (o.kind ≠ 0 || r.reduces) && !(r.compensated && o.rounding == 2) && !(r.partialMode && o.kind == 0 && o.elements == 0) &&
    (o.kind ≠ 1 || o.inFmt == o.outFmt) &&
    (!lap || (o.inFmt == 0 && o.outFmt == 0 && o.rounding == 0 && o.elements == 0)) && (lap || counted) &&
    (s.segRange o.hall o.context o.src srcLen false).isSome && (s.segRange o.hall o.context o.dst dstLen true).isSome &&
    chunks < 2 ^ 24

/-- The accumulator tiles that an operation takes, if enough are free (R313). -/
def State.tilesFor (s : State) (r : GroupRec) (o : CollOp) : Option (List Nat) :=
  if o.kind = 2 then some []
  else
    let n := r.window * r.flights.length
    let free := s.freeTiles o.hall
    if n ≤ free.length then some (free.take n) else none

/-- The rings of a fresh operation: GRANTs that arrived before it count (R316). -/
def freshRings (r : GroupRec) (x : Group) (o : CollOp) : List Ring :=
  (List.range 3).map fun k =>
    { granted := ((x.grants.find? fun y => y.1 == k && y.2.1 == o.kind && y.2.2.1 == o.step).map fun y => y.2.2.2).getD 0,
      offered := if k ∈ r.flights then r.window else 0 }

/-- Accept an operation: it takes its tiles, its command completes toward its queue, and its first GRANTs go out. -/
def State.acceptColl (s : State) (r : GroupRec) (o : CollOp) (tiles : List Nat) : State :=
  let x := s.group r.group
  let o := { o with accepted := true, tiles := tiles, rings := freshRings r x o }
  let t := s.claimTiles r.group o r.window r.flights tiles
  let t := t.modGroup r.group fun y => { y with
    ops := y.ops ++ [o], grants := y.grants.filter fun z => !(z.2.1 == o.kind && z.2.2.1 == o.step) }
  let t := forEach r.flights (fun k u => u.sendGrant r o k r.window) t
  (t.modQueue o.hall o.queue fun y => { y with wait := .none }).nextCommand o.hall o.queue |>.tryFinish r o.kind

/-- A COLL that has passed the field checks: refused, accepted, or waiting at its command (R312, R313). -/
def State.offerColl (s : State) (h q g : Nat) (o : CollOp) (raw : BitVec 512) : State :=
  let x := s.group g
  let refuse (t : State) : State :=
    (t.modQueue h q fun y => { y with wait := .none }).abandon h q o.hdr Status.refused.code
  if x.state = .idle ∨ x.admHall ≠ h then refuse (s.violation h (BitVec.ofNat 16 g))
  else
    match s.groupRec g with
    | none => refuse (s.violation h (BitVec.ofNat 16 g))
    | some r =>
      let o := withCounts x o
      if x.state ≠ .admitted ∨ !s.collOk r o then refuse s
      else
        match (if (s.opOf g o.kind).isSome then none else s.tilesFor r o) with
        | some tiles => s.acceptColl r o tiles
        | none => s.modQueue h q fun y => { y with wait := .coll o.hdr raw }

/-- COLL. -/
def State.coll (s : State) (h q : Nat) (raw : BitVec 512) : State :=
  s.plainCommand h q raw 7 (collFieldsOk raw) fun s _ _ =>
    s.offerColl h q (byteField raw 17 16 % 2048) (collOp h q (s.queue h q) raw) raw

def execColl (h : Fin 64) (q : Fin 256) (raw : BitVec 512) (s : State) : Host.Outcome State Fault Refusal :=
  next (s.coll h q raw)

/-- COLL_ACCEPTED: a waiting COLL is offered again (R313). -/
def State.collAccepted (s : State) (h q : Nat) : State :=
  match (s.queue h q).wait with
  | .coll _ raw =>
    if (s.hall h).state = .active then s.offerColl h q (byteField raw 17 16 % 2048) (collOp h q (s.queue h q) raw) raw else s
  | _ => s

def execCollAccepted (h : Fin 64) (q : Fin 256) (s : State) : Host.Outcome State Fault Refusal :=
  next (s.collAccepted h q)

/-! ### Engine partials (R337 to R339) -/

/-- Contributors that a count code names. -/
def contributorCount (code : Nat) : Nat := match code with
  | 0 => 1
  | 1 => 2
  | 2 => 4
  | _ => 7

/-- The baton of a work item is at hand: step 0 has none, a later step's chunk has been received whole. -/
def batonHere (o : CollOp) (k : Nat) (w : WorkItem) : Bool :=
  match w.recv with
  | none => true
  | some u => o.chunks.any fun c => c.flight == k && c.seqNo == u

/-- A contributor has supplied the 16 elements at `e` of item `v`. -/
def supplied (o : CollOp) (v c e : Nat) : Bool := o.partials.any fun x => x.1 == v && x.2.1 == c && x.2.2.1 == e

/-- A block of item `v` has been consumed by the tree: every leaf from 0 to P holds it (R338). -/
def consumed (r : GroupRec) (o : CollOp) (v e : Nat) : Bool :=
  ((workItem r o 0 v).map (batonHere o 0)).getD false &&
    (List.range (o.contributors.getD 0)).all fun c => supplied o v (c + 1) e

/-- The cluster of the tile of work item v in a flight (R350). -/
def tileCluster (r : GroupRec) (o : CollOp) (k v : Nat) : Nat :=
  ((o.tiles[r.flights.idxOf k * r.window + v % r.window]?).getD 0) / 64

/-- The cluster of the tile of work item v in flight 0 (R350). -/
def itemCluster (r : GroupRec) (o : CollOp) (v : Nat) : Nat := tileCluster r o 0 v

/-- Beats of a contributor that a cluster's FIFO holds. -/
def fifoShare (r : GroupRec) (o : CollOp) (cluster c : Nat) : Nat :=
  o.partials.countP fun x => x.2.1 == c && itemCluster r o x.1 == cluster && !consumed r o x.1 x.2.2.1

/-- Beats that a cluster's input FIFO holds. A baton goes on to its tile at once: its grant stands for that tile (R316). -/
def State.fifoBeats (s : State) (c : Nat) : Nat :=
  (s.groups.map fun e =>
    match s.groupRec e.1 with
    | some r => (e.2.ops.map fun o => o.partials.countP fun x =>
        itemCluster r o x.1 == c && !consumed r o x.1 x.2.2.1).sum
    | none => 0).sum

/-- A contributor's beat of an item has no room: its share of 64 beats is full, or the cluster's 512 are (R86, R339). -/
def State.fifoFull (s : State) (r : GroupRec) (o : CollOp) (v c : Nat) : Bool :=
  let cluster := itemCluster r o v
  64 ≤ fifoShare r o cluster c ∨ 512 ≤ s.fifoBeats cluster

/-- Where the chunk of the elements of a transfer stands. -/
inductive PartialAt where
  | none | drained | open_ (v e : Nat) | future
deriving DecidableEq, Repr

/-- The work item of flight 0 that holds an element. -/
def itemOf (r : GroupRec) (o : CollOp) (e : Nat) : Option Nat :=
  let sizes := stepSizes r o 0
  ((stepParts r o 0).zip (List.range (r.size 0))).findSome? fun (j, step) =>
    let (a, b) := o.part r 0 j
    if a ≤ e ∧ e < b then some ((sizes.take step).sum + (e - a) / chunkElems r o 0) else none

/-- Resolve a transfer's first element, given modulo 2^32, against the operation's chunks (R337). -/
def resolvePartial (r : GroupRec) (o : CollOp) (e32 beats : Nat) : PartialAt :=
  let sent := (o.ring 0).sent
  let cands := ((List.range (ceilDiv (o.total r) (2 ^ 32))).map fun i => e32 + i * 2 ^ 32).filterMap fun e =>
    match itemOf r o e with
    | some v => match workItem r o 0 v with
      | some w => if e + 16 * beats ≤ w.first + roundUp w.len 16 then some (v, e) else .none
      | .none => .none
    | .none => .none
  match cands.find? (fun x => sent ≤ x.1 && x.1 < sent + r.window) with
  | some x => .open_ x.1 x.2
  | .none => if cands = [] then .none else if cands.any (fun x => x.1 < sent) then .drained else .future

/-- The 16 values of a beat. -/
def beatValues (l : Line) : List F32 := (List.range 16).map fun i => canon (BitVec.ofNat 32 (bits l (32 * i + 31) (32 * i)))

/-- Count discarded beats as late (R339). -/
def State.countLate (s : State) (n : Nat) : State :=
  { s with reduce := { s.reduce with late := satAdd s.reduce.late n } }

/-- Take the beats of a transfer as far as the FIFO has room (R339). -/
def feedBeats (r : GroupRec) (p c v : Nat) (hdr : BitVec 64) : List Line → Nat → State → State
  | [], _, s => s.modEngine p fun x => { x with redWait := none }
  | l :: rest, e, s =>
    match s.opOf r.group 0 with
    | none => s.modEngine p fun x => { x with redWait := none }
    | some o =>
      if supplied o v c e then feedBeats r p c v (hdr + 1) rest (e + 16) (s.countLate 1)
      else if s.fifoFull r o v c then
        s.modEngine p fun x => { x with redWait := some { hdr := hdr, beats := l :: rest } }
      else feedBeats r p c v (hdr + 1) rest (e + 16) (s.putOp r.group { o with partials := o.partials ++ [(v, c, e, beatValues l)] })

/-- A transfer is dropped: counted, with ENG_PROTOCOL against the port's hall (R339). -/
def State.dropRed (s : State) (p : Nat) : State :=
  ({ s with reduce := { s.reduce with dropped := satAdd s.reduce.dropped 1 } }.engProtocol p).modEngine p fun x =>
    { x with redWait := none }

/-- Offer a transfer of a begun tile to its operation (R339). -/
def State.offerRed (s : State) (p : Nat) (e : TileEntry) (hdr : BitVec 64) (beats : List Line) : State :=
  let f := parseRed hdr
  let g := f.handle % 2048
  let c := f.handle / 2048 % 8
  let n := contributorCount (f.handle / 16384)
  match s.groupRec g, s.opOf g 0 with
  | some r, some o =>
    if f.format ≠ 0 ∨ !r.partialMode ∨ !o.accepted ∨ o.hall ≠ e.hall ∨ c = 0 ∨ n < c ∨ beats = [] ∨
        (o.contributors.isSome ∧ o.contributors ≠ some n) then s.dropRed p
    else
      match resolvePartial r o f.element beats.length with
      | .none => s.dropRed p
      | .drained => (s.countLate beats.length).modEngine p fun x => { x with redWait := none }
      | .future => s.modEngine p fun x => { x with redWait := some { hdr := hdr, beats := beats } }
      | .open_ v el => feedBeats r p c v hdr beats el (s.putOp g { o with contributors := some n })
  | _, _ => s.dropRed p

/-- RED_TRANSFER: gated as every transfer of the port (R36, R40), then offered. -/
def State.redTransfer (s : State) (p : Nat) (hdr : BitVec 64) (beats : List Line) : State :=
  if !s.engineUp p ∨ (s.engine p).redWait.isSome then s
  else
    match s.gate p (parseRed hdr).hallGen with
    | .retired => s
    | .noTile => s.engProtocol p
    | .tile e => s.offerRed p e hdr beats

def execRedTransfer (p : Fin 256) (hdr : BitVec 64) (beats : List Line) (s : State) :
    Host.Outcome State Fault Refusal := next (s.redTransfer p hdr beats)

/-- Offer again the transfers that wait. -/
def State.retryRed (s : State) : State :=
  forAll 256 (fun p t =>
    match (t.engine p).redWait, (t.engine p).begun with
    | some w, some e => t.offerRed p e w.hdr w.beats
    | _, _ => t) s

/-! ### Draining chunks (R336, R345, R351) -/

/-- The values of a partial-mode item: the tree over the baton and every contributor's partials (R338). -/
def treeValues (o : CollOp) (v : Nat) (w : WorkItem) (baton : List F32) : List F32 :=
  (List.range w.len).map fun i =>
    let e := w.first + i / 16 * 16
    let leaf (c : Nat) : F32 :=
      if c = 0 then (baton[i]?).getD negZero
      else if o.contributors.getD 0 < c then negZero
      else match o.partials.find? fun x => x.1 == v && x.2.1 == c && x.2.2.1 == e with
        | some x => (x.2.2.2[i % 16]?).getD negZero
        | none => negZero
    treeSum leaf

/-- Every block of an item has all its partials (R338, R351). -/
def partialsHere (o : CollOp) (v : Nat) (w : WorkItem) : Bool :=
  match o.contributors with
  | none => false
  | some n => (List.range (ceilDiv w.len 16)).all fun b => (List.range n).all fun c => supplied o v (c + 1) (w.first + 16 * b)

/-- The item's contribution is this member's own data, read from src or staging. -/
def readsData (r : GroupRec) (o : CollOp) (k : Nat) (w : WorkItem) : Bool :=
  if o.kind = 0 then !(r.partialMode && k == 0) else w.recv.isNone

/-- Adder operations of an item (R331). -/
def itemCost (r : GroupRec) (o : CollOp) (k : Nat) (w : WorkItem) : Nat :=
  if o.kind ≠ 0 then 0
  else if r.partialMode ∧ k = 0 then 8 * w.len
  else if w.step = 0 then 0
  else if pairs r o k then 8 * w.len
  else w.len

/-- The contribution of an item, from the bytes read: a chunk that starts inside an MX block is read from that block on. -/
def contribution (r : GroupRec) (o : CollOp) (k : Nat) (w : WorkItem) (b : List Byte) : List F32 :=
  let (c, start) := if k = 0 then (o.inFmt, 0) else if k = 1 then (r.fmt1, (o.part r 0 (r.coord 0)).1) else
    (r.fmt2, (o.part r 1 (r.coord 1)).1)
  decodeElems c b (if isMx c then (w.first - start) % 32 else 0) w.len

/-- The result of an item: sum words and error words. -/
def itemSums (r : GroupRec) (o : CollOp) (k v : Nat) (w : WorkItem) (b : List Byte) : List F32 × List F32 :=
  let got := o.chunks.find? fun c => c.flight == k && some c.seqNo == w.recv
  let x := contribution r o k w b
  let zeros := List.replicate w.len negZero
  if r.partialMode ∧ k = 0 then (treeValues o v w ((got.map Chunk.sums).getD []), zeros)
  else
    match got with
    | none => (x, zeros)
    | some c =>
      if pairs r o k then
        let l := (c.sums.zip (c.errs.zip x)).map fun z => twoSum z.1 z.2.1 z.2.2
        (l.map Prod.fst, l.map Prod.snd)
      else ((c.sums.zip x).map fun z => fAdd z.1 z.2, zeros)

/-- The rounding of a hop, and of a result that stays (R345). -/
def hopRounder (s : State) (g : Nat) (o : CollOp) (k : Nat) (w : WorkItem) (final : Bool) : Rounder :=
  if o.rounding = 0 ∨ (o.rounding = 1 ∧ k = 0 ∧ !final) then nearest
  else stochastic (((s.group g).rounding).getD 0) (if final then 0 else w.step) final k w.first o.step

/-- The body of a hop in the flight's wire format. -/
def hopBody (s : State) (r : GroupRec) (o : CollOp) (k : Nat) (w : WorkItem) (v : List F32 × List F32) : List Byte :=
  if pairs r o k then encodePairs v.1 v.2 else encodeElems (wireFmt r o k) v.1 (hopRounder s r.group o k w false)

/-! ### The inner seal (R298, R299) -/

/-- The 12-byte IV of a chunk frame: the sender's member index, the flight, zero, the inner counter. -/
def chunkIv (member flight ctr : Nat) : List Byte := leBytes 2 member ++ leBytes 1 flight ++ [0] ++ leBytes 8 ctr

/-- Bytes 47:8 of a CHUNK frame. -/
def chunkRest (r : GroupRec) (gen : Gen) (o : CollOp) (k : Nat) (w : WorkItem) (ctr : Nat) : List Byte :=
  leBytes 2 r.group ++ leBytes 2 gen.toNat ++ leBytes 1 k ++ leBytes 1 (wireFmt r o k) ++ leBytes 2 r.myIndex ++
    leBytes 8 ctr ++ leBytes 8 (w.first / 16) ++ leBytes 4 w.chunk ++ List.replicate 12 0

/-- Seal the body of a chunk frame under GK: its header with the inner tag, and its ciphertext. The bytes in use are
sealed, so the others stay zero (log entry 77). -/
def sealChunk (key : BitVec 256) (member flight ctr : Nat) (hdr : BitVec 512) (body : List Byte) : BitVec 512 × List Byte :=
  let x := gcmSeal key (chunkIv member flight ctr) ((bytesOf hdr).take 48) body
  (BitVec.ofNat 512 (leNat ((bytesOf hdr).take 48 ++ x.2)), x.1)

/-- Open the body of a chunk frame under GK: its bytes, where the inner tag verifies. -/
def openChunk (key : BitVec 256) (h : BitVec 512) (body : List Byte) : Option (List Byte) :=
  gcmOpen key (chunkIv (bits h 126 112) (byteField h 12 12) (byteField h 23 16)) ((bytesOf h).take 48) body
    ((bytesOf h).drop 48)

/-- Seal the frames of a chunk under GK and queue them, each under the group's next inner counter of the flight; false where
the counter comes to its end, with the frames before it queued (R298). -/
def sealFrames (r : GroupRec) (o : CollOp) (k : Nat) (w : WorkItem) (total : Nat) : List (List Byte × Nat) → State → State × Bool
  | [], s => (s, true)
  | (body, i) :: rest, s =>
    let x := s.group r.group
    let ctr := Tab.get 0 x.innerCtr k
    if ctr = BitVec.allOnes 64 then (s, false)
    else
      let hdr := frameHdr fkChunk (if i + 1 = total then 2 else 0) o.hall i body.length (s.srcGen o.hall)
        (chunkRest r x.gen o k w ctr.toNat)
      let z := sealChunk (x.key.getD 0) r.myIndex k ctr.toNat hdr body
      sealFrames r o k w total rest
        ((s.modGroup r.group fun y => { y with innerCtr := y.innerCtr.set 0 k (ctr + 1) }).queueFrame (r.nextPort k) o.hall
          (if o.kind = 0 then 2 else 3) z.1 z.2)

/-- Send a chunk to the next member of a flight. -/
def State.sendChunk (s : State) (r : GroupRec) (o : CollOp) (k : Nat) (w : WorkItem) (body : List Byte) : State × Bool :=
  let fs := fragments body
  sealFrames r o k w fs.length (fs.zip (List.range fs.length)) (s.need (.groupKey (Fin.ofNat 2048 r.group)))

/-- The lower flight's chunks that cover an upper flight's item have completed at this member (R318). -/
def lowerDone (r : GroupRec) (o : CollOp) (k : Nat) (w : WorkItem) : Bool :=
  if k = 0 then true
  else
    let a := (o.part r (k - 1) (r.coord (k - 1))).1
    let kept := (o.ring (k - 1)).sent - ((stepSizes r o (k - 1)).take (r.size (k - 1) - 1)).sum
    w.first + w.len ≤ a + kept * chunkElems r o (k - 1) ∨ (o.ring (k - 1)).sent = workItems r o (k - 1)

/-- The upper flights of an all-gather are complete, so the lower flight's own block is (R319). -/
def upperDone (r : GroupRec) (o : CollOp) (k : Nat) : Bool :=
  copies r o r.top ≤ (o.ring r.top).sent ∧
    r.flights.all fun j => j ≤ k ∨ (o.ring j).received = recvCount r o j

/-- An item may drain now: its inputs are there, the next member has granted it, and its adder operations are left. -/
def State.mayDrain (s : State) (r : GroupRec) (o : CollOp) (k v : Nat) (w : WorkItem) : Bool :=
  (s.hall o.hall).state = .active ∧ (!w.send ∨ v - copies r o k < (o.ring k).granted) ∧ batonHere o k w ∧
    itemCost r o k w ≤ s.adderLeft o.hall ∧
    (if o.kind = 0 then lowerDone r o k w ∧ (!(r.partialMode && k == 0) ∨ partialsHere o v w)
     else w.copy ∨ w.recv.isSome ∨ upperDone r o k)

/-- Where a member's own data for an item lies: its place in src or staging in a reduce-scatter (R317, R318), in src or dst
in an all-gather (R319). -/
def dataRanges (r : GroupRec) (o : CollOp) (k : Nat) (w : WorkItem) : List (Nat × Nat) :=
  if !readsData r o k w then []
  else if o.kind = 0 then
    let (va, start, c) := if k = 0 then (o.src, 0, o.inFmt) else o.resultRegion r (k - 1)
    let skip := w.first - start
    if isMx c then [(va + skip / 32 * imageBytes c, ceilDiv (skip % 32 + w.len) 32 * imageBytes c)]
    else [(va + regionBytes c skip, regionBytes c w.len)]
  else if w.copy then [(o.src + regionBytes o.outFmt (w.first - (o.piece r).1), regionBytes o.outFmt w.len)]
  else (gatherParts r o w.first w.len).map fun x => (o.dst + x.1, x.2)

/-- The status of the reads of some ranges that were answered with a code (R196, R324). -/
def State.rangesStatus (s : State) (o : CollOp) (l : List (Nat × Nat)) (answer : Byte) : Status :=
  if l = [] then .ok
  else (l.findSome? fun x => s.bars o.hall o.context x.1 x.2).getD (Status.ofRead answer)

/-- The reads of some ranges count as the hall's (R144). -/
def State.noteRanges (s : State) (o : CollOp) (l : List (Nat × Nat)) (answer : Byte) : State :=
  forEach l (fun x t => t.noteRead o.hall o.context x.1 x.2 answer) s

/-- The tile of item v of a ring is released once the last chunk that uses it has drained (R350, R352). -/
def State.freeTile (s : State) (r : GroupRec) (o : CollOp) (k v : Nat) : State :=
  if workItems r o k ≤ v + r.window then
    s.releaseTiles r.group o ((o.tiles[r.flights.idxOf k * r.window + v % r.window]?).toList)
  else s

/-- The item has been taken from the tile: its chunk and partials go, and the work moves on. -/
def CollOp.drained (o : CollOp) (k v : Nat) (w : WorkItem) : CollOp :=
  { o.modRing k (fun y => { y with sent := v + 1 }) with
    chunks := o.chunks.filter fun c => !(c.flight == k && some c.seqNo == w.recv),
    partials := if k = 0 then o.partials.filter fun x => x.1 != v else o.partials }

/-- Keep a result: narrowed into dst at the top flight, else into the next flight's staging (R317, R318, R345). -/
def State.keepResult (s : State) (r : GroupRec) (o : CollOp) (k : Nat) (w : WorkItem) (v : List F32 × List F32) : State :=
  let x := if pairs r o k then (v.1.zip v.2).map fun z => fAdd z.1 z.2 else v.1
  let (va, start, c) := o.resultRegion r k
  let off := if isMx c then (w.first - start) / 32 * imageBytes c else regionBytes c (w.first - start)
  let t := s.collWrite o (va + off) (encodeElems c x (hopRounder s r.group o k w true))
  if k = r.top then t.chunkDone r.group o.kind else t

/-- Drain a reduce-scatter item. -/
def State.drainReduce (s : State) (r : GroupRec) (o : CollOp) (k v : Nat) (w : WorkItem) (b : List Byte) : State :=
  let x := itemSums r o k v w b
  let t := ((s.spendAdders o.hall (itemCost r o k w)).freeTile r o k v).putOp r.group (o.drained k v w)
  if w.send then
    let (u, ok) := t.sendChunk r o k w (hopBody s r o k w x)
    if ok then u else t.failGroup r.group .refused
  else t.keepResult r o k w x

/-- Drain an all-gather item: a copy of the own piece into dst, or a chunk to the next member. -/
def State.drainGather (s : State) (r : GroupRec) (o : CollOp) (k v : Nat) (w : WorkItem) (b : List Byte) : State :=
  let t := (s.freeTile r o k v).putOp r.group (o.drained k v w)
  if w.copy then (t.gatherWrite r o w.first w.len b).chunkDone r.group 1
  else
    let body := match o.chunks.find? fun c => c.flight == k && some c.seqNo == w.recv with
      | some c => c.raw
      | none => b
    let (u, ok) := t.sendChunk r o k w body
    if ok then u else t.failGroup r.group .refused

/-! ### Count laps (R321) -/

/-- Counts in one block of a flight. -/
def GroupRec.blockLen (r : GroupRec) : Nat → Nat
  | 0 => 1
  | 1 => r.f0
  | _ => r.f0 * r.f1

/-- First member index of the block of coordinate j in a flight's ring. -/
def GroupRec.blockBase (r : GroupRec) (k j : Nat) : Nat :=
  match k with
  | 0 => r.withCoord 0 j
  | 1 => r.f0 * (j + r.f1 * r.coord 2)
  | _ => r.f0 * r.f1 * j

/-- Signals per block of a flight: at most 120 counts each. -/
def GroupRec.blockSignals (r : GroupRec) (k : Nat) : Nat := ceilDiv (r.blockLen k) 120

/-- Signals that a member sends, and receives, on a flight's ring. -/
def GroupRec.lapSignals (r : GroupRec) (k : Nat) : Nat := (r.size k - 1) * r.blockSignals k

/-- First member index and number of counts of the v-th signal that a member sends on a flight. -/
def GroupRec.lapItem (r : GroupRec) (k v : Nat) : Nat × Nat :=
  let m := r.blockSignals k
  let base := r.blockBase k (backPart (r.size k) (r.coord k) 0 (v / m))
  (base + v % m * 120, min 120 (r.blockLen k - v % m * 120))

/-- The counts of a range of members are known. -/
def CollOp.knows (o : CollOp) (first n : Nat) : Bool := (List.range n).all fun i => Tab.get 0 o.counts (first + i) ≠ 0

/-- Send the next granted COUNT of a flight, while there is one. -/
def pumpLap (r : GroupRec) (k : Nat) : Nat → State → State
  | 0, s => s
  | fuel + 1, s =>
    match s.opOf r.group 2 with
    | none => s
    | some o =>
      let v := (o.ring k).sent
      let (first, n) := r.lapItem k v
      if v < r.lapSignals k ∧ v < (o.ring k).granted ∧ o.knows first n ∧ (s.hall o.hall).state = .active then
        let body := (List.range n).flatMap fun i => leBytes 8 (Tab.get 0 o.counts (first + i) - 1)
        pumpLap r k fuel ((s.putOp r.group (o.modRing k fun y => { y with sent := v + 1 })).signalFrame (r.nextPort k) o.hall
          (signalRest r.group (s.group r.group).gen sigCount k 2 o.step n first) body)
      else s

/-- Send what COUNT_LAP may send, and end it once all N counts are here and every signal has left. -/
def State.pumpCounts (s : State) (r : GroupRec) : State :=
  let t := forEach r.flights (fun k u => pumpLap r k (r.lapSignals k + 1) u) s
  match t.opOf r.group 2 with
  | none => t
  | some o =>
    if o.knows 0 r.members ∧ r.flights.all (fun k => (o.ring k).sent = r.lapSignals k) then
      let l := o.countList r
      ((t.collWrite o o.dst (l.flatMap fun c => leBytes 8 c)).modGroup r.group fun y =>
        { y with lastCounts := some (o.step, l) }).endOp r.group o .ok
    else t

/-- The word at src has been read: this member's own count. -/
def State.ownCount (s : State) (r : GroupRec) (o : CollOp) (b : List Byte) : State :=
  if Tab.get 0 o.counts r.myIndex ≠ 0 then s
  else (s.putOp r.group { o with counts := o.counts.set 0 r.myIndex (leAt b 0 8 + 1) }).pumpCounts r

/-- CHUNK_DRAIN: the next item of a ring drains where it may; `src` is what the core read for it. For a COUNT_LAP it is
the word at src. -/
def State.chunkDrain (s : State) (g kind k : Nat) (src : ReadBytes) : State :=
  match s.groupRec g, s.opOf g kind with
  | some r, some o =>
    if k ∉ r.flights ∨ !o.accepted then s
    else if kind = 2 then
      let t := s.noteRanges o [(o.src, 8)] src.status
      match s.rangesStatus o [(o.src, 8)] src.status with
      | .ok => t.ownCount r o src.bytes
      | st => t.failGroup g st
    else
      let v := (o.ring k).sent
      match workItem r o k v with
      | none => s
      | some w =>
        if !s.mayDrain r o k v w then s
        else
          let l := dataRanges r o k w
          let t := s.noteRanges o l src.status
          match s.rangesStatus o l src.status with
          | .ok =>
            let u := if kind = 0 then t.drainReduce r o k v w src.bytes else t.drainGather r o k v w src.bytes
            ((u.grantMore r kind k).tryFinish r kind).retryRed
          | st => t.failGroup g st
  | _, _ => s

/-! ### Arriving chunks (R299, R315, R319) -/

/-- A whole chunk of a ring has arrived. -/
def State.chunkWhole (s : State) (r : GroupRec) (o : CollOp) (k u step first len : Nat) (body : List Byte) : State :=
  let o := o.modRing k fun y => { y with received := u + 1, frags := [] }
  if o.kind = 0 then
    let c : Chunk := { flight := k, seqNo := u, first := first, step := step + 1, raw := [],
                       sums := if pairs r o k then (List.range len).map fun i => elemAt 0 body (2 * i) else
                         decodeElems (wireFmt r o k) body 0 len,
                       errs := if pairs r o k then (List.range len).map fun i => elemAt 0 body (2 * i + 1) else [] }
    s.putOp r.group { o with chunks := o.chunks ++ [c] }
  else
    let forward : Bool := step + 2 < r.size k
    let c : Chunk := { flight := k, seqNo := u, first := first, step := step + 1, raw := body, sums := [], errs := [] }
    ((s.putOp r.group { o with chunks := if forward then o.chunks ++ [c] else o.chunks }).gatherWrite r o first len body).chunkDone
      r.group 1

/-- A CHUNK frame of the next chunk of a ring: it must be the one expected (R315). -/
def State.chunkFrame (s : State) (r : GroupRec) (o : CollOp) (k : Nat) (h : BitVec 512) (body : List Byte) : State :=
  let x := o.ring k
  match recvItem r o k x.received with
  | none => s.failGroup r.group .integrity
  | some (step, i, first, len) =>
    let total := bodyBytes r o k first len
    let frags := x.frags ++ [body]
    let last : Bool := frags.flatten.length = total
    if byteField h 15 14 = r.prevMember k ∧ byteField h 28 24 = first / 16 % 2 ^ 40 ∧ byteField h 35 32 = i ∧
        byteField h 13 13 = wireFmt r o k ∧ hdrFrag h = x.frags.length ∧ hdrLast h = last ∧
        (last ∨ body.length = 960) ∧ frags.flatten.length ≤ total then
      let t := s.ringProgress r.group o k
      let o := o.modRing k fun y => { y with waited := 0, progress := true, frags := frags }
      if last then ((t.chunkWhole r o k x.received step first len frags.flatten).grantMore r o.kind k).tryFinish r o.kind
      else t.putOp r.group o
    else s.failGroup r.group .integrity

/-- A CHUNK frame is opened under GK: of another generation it is discarded, without its inner tag its chunk has failed
(R299, R311, R324). -/
def State.chunkArrives (s : State) (n vc : Nat) (h : BitVec 512) (body : List Byte) : State :=
  let g := bits h 74 64
  let k := byteField h 12 12
  let kind := if vc = 2 then 0 else 1
  let s := s.need (.groupKey (Fin.ofNat 2048 g))
  match s.groupRec g, s.opOf g kind with
  | some r, some o =>
    if (s.group g).gen ≠ BitVec.ofNat 16 (byteField h 11 10) ∨ !o.accepted then s
    else
      match ((s.group g).key).bind fun key => openChunk key h body with
      | some plain =>
        if k ∉ r.flights ∨ r.prevPort k ≠ n then s.failGroup g .integrity else (s.chunkFrame r o k h plain).retryRed
      | none => s.failGroup g .integrity
  | _, _ => s

/-! ### Signals (R316, R321, R323) -/

/-- A GRANT: for an operation in flight its ring may send more; for one not yet accepted here it is kept. -/
def State.grantArrives (s : State) (n : Nat) (h : BitVec 512) : State :=
  let g := bits h 74 64
  let k := byteField h 13 13
  let kind := byteField h 14 14
  let step := BitVec.ofNat 64 (byteField h 23 16)
  let value := byteField h 27 24
  match s.groupRec g with
  | none => s
  | some r =>
    if (s.group g).gen ≠ BitVec.ofNat 16 (byteField h 11 10) ∨ k ∉ r.flights ∨ r.nextPort k ≠ n then s
    else
      match (s.opOf g kind).filter fun o => o.accepted ∧ o.step = step with
      | some o =>
        let t := s.ringProgress g (o.modRing k fun y => { y with granted := max y.granted value }) k
        if kind = 2 then t.pumpCounts r else t
      | none => s.modGroup g fun x => { x with
          grants := (x.grants.filter fun y => !(y.1 == k && y.2.1 == kind && y.2.2.1 == step)) ++ [(k, kind, step, value)] }

/-- A COUNT: its counts are stored and forwarded. -/
def State.countArrives (s : State) (n : Nat) (h : BitVec 512) (body : List Byte) : State :=
  let g := bits h 74 64
  let k := byteField h 13 13
  let m := byteField h 27 24
  let first := byteField h 29 28
  match s.groupRec g, s.opOf g 2 with
  | some r, some o =>
    if (s.group g).gen ≠ BitVec.ofNat 16 (byteField h 11 10) ∨ k ∉ r.flights ∨ r.prevPort k ≠ n ∨ !o.accepted ∨
        byteField h 14 14 ≠ 2 ∨ o.step ≠ BitVec.ofNat 64 (byteField h 23 16) ∨ r.members < first + m then s
    else
      let counts := (List.range m).foldl (fun t i => t.set 0 (first + i) (leAt body (8 * i) 8 + 1)) o.counts
      let t := s.ringProgress g ({ o with counts := counts }.modRing k fun y => { y with received := y.received + 1 }) k
      (t.grantMore r 2 k).pumpCounts r
  | _, _ => s

/-- An END: the group's operations end RETIRED, the group is FAULTED, and the END is forwarded once (R323). -/
def State.endArrives (s : State) (n : Nat) (h : BitVec 512) : State :=
  let g := bits h 74 64
  match s.groupRec g with
  | none => s
  | some r =>
    let x := s.group g
    if x.gen ≠ BitVec.ofNat 16 (byteField h 11 10) ∨ x.gen = 0 ∨ x.state = .faulted ∨ x.state = .idle then s
    else (s.faultGroup r .retired).sendEnd r (r.ringPorts.filter (· ≠ n))

/-! ### Wait counts (R322) -/

/-- The operation waits on a chunk or a grant of a ring. -/
def waitsOn (r : GroupRec) (o : CollOp) (k : Nat) : Bool :=
  let x := o.ring k
  if o.kind = 2 then x.received < r.lapSignals k ∨ (x.sent < r.lapSignals k ∧ x.granted ≤ x.sent)
  else
    decide (x.received < recvCount r o k) ||
      (match workItem r o k x.sent with
      | some w => (w.send && decide (x.granted ≤ x.sent - copies r o k)) || !batonHere o k w
      | none => false)

/-- Count a stride that has ended (R322). -/
def CollOp.countWaits (o : CollOp) (r : GroupRec) : CollOp :=
  { o with rings := (o.rings.zip (List.range o.rings.length)).map fun x =>
    if x.2 ∈ r.flights ∧ waitsOn r o x.2 ∧ !x.1.progress then { x.1 with waited := x.1.waited + 1 }
    else { x.1 with progress := false } }

/-- COLL_STALL: a count has reached 8. -/
def State.collStall (s : State) (g : Nat) : State :=
  let x := s.group g
  if x.state = .admitted ∧ !x.calm then
    (s.modGroup g fun y => { y with state := .stalled }).raise Ev.collStall
      { hall := some x.admHall, object := BitVec.ofNat 16 g }
  else s

def execCollStall (g : Fin 2048) (s : State) : Host.Outcome State Fault Refusal := next (s.collStall g)

/-- COLL_TIMEOUT: a count has reached 1,024. -/
def State.collTimeout (s : State) (g : Nat) : State :=
  if (s.group g).ops.any fun o => o.rings.any fun y => 1024 ≤ y.waited then s.failGroup g .timeoutRemote else s

def execCollTimeout (g : Fin 2048) (s : State) : Host.Outcome State Fault Refusal := next (s.collTimeout g)

/-- A cluster's fence: each operation that holds a tile in it ends RETIRED (R353). -/
def State.clusterLost (s : State) (c : Nat) : State :=
  forEach (s.groups.map Prod.fst) (fun g t =>
    if (t.group g).ops.any fun o => o.tiles.any fun i => i / 64 == c && t.ownsTile g o i then t.failGroup g .retired else t) s

/-! ### Internal errors of the reduction engine (R353, R376) -/

/-- A cluster of the reduction engine is fenced. -/
def State.fenceCluster (s : State) (c : Nat) (cause : BitVec 4) : State :=
  if s.inService 8 c then (s.beginFence 8 c cause none).clusterLost c else s.beginFence 8 c cause none

/-- RED_UE in a cluster: the fourth within 16 strides fences it (R376). -/
def State.redUe (s : State) (g c : Nat) (h : Nat) : State :=
  let ages := 0 :: Tab.get [] s.reduce.ues c
  let t := { s with reduce := { s.reduce with ues := s.reduce.ues.set [] c ages } }
  let t := t.raise Ev.redUe { unit := unitId 8 c, hall := some h, status := Status.poison.code, object := BitVec.ofNat 16 g }
  let t := t.failGroup g .poison
  if 4 ≤ ages.length then t.fenceCluster c Cause.errors else t

/-- The error that a chunk of an operation meets; `decrypt` says on which side of the engine a group-key unit stands. -/
def State.redError (s : State) (g kind k : Nat) (decrypt : Bool) (e : RedErr) : State :=
  match e with
  | .none => s
  | .keyUnit u => s.beginFence (if decrypt then 9 else 10) u Cause.errors none
  | .corrected =>
    match s.groupRec g, s.opOf g kind with
    | some r, some _ =>
      ({ s with reduce := { s.reduce with corrected := satAdd s.reduce.corrected 1 } }).raise Ev.sramCorrected
        { hall := some r.hall, object := BitVec.ofNat 16 g }
    | _, _ => s
  | .uncorrectable =>
    match s.groupRec g, s.opOf g kind with
    | some r, some o => if o.accepted then s.redUe g (tileCluster r o k (o.ring k).sent) r.hall else s
    | _, _ => s

end Sys2Proof.Machine
end

