-- ==== Sys2Proof/Machine/Sched.lean ====
section
/-! DEFINITION. The slot decision (R180 to R188), the deadline monitor's decision (R190, R191) and the decision point of a
boundary (R67, R116, R449). -/

namespace Sys2Proof.Machine

/-! ### What the coming boundary brings -/

/-- The pending plan's swap is decided for the coming boundary (R116). -/
def State.planDue (s : State) : Bool :=
  s.plan.state = .pending ∧ s.plan.bound = none ∧
    (s.plan.latchedTarget = 0 ∨ s.plan.latchedTarget = s.timer.strideNum + 1)

/-- The group of hall 0 that holds the PLAN_SWAP is closed and its hall ACTIVE (R360, R364). -/
def State.boundSwapDue (s : State) : Bool :=
  match s.plan.bound with
  | some g => (s.cmt 0 g).state = .closed ∧ !(s.cmt 0 g).late ∧ (s.hall 0).state = .active
  | none => false

/-- A swap is expected to apply at the coming boundary. -/
def State.swapComing (s : State) : Bool := s.planDue || s.boundSwapDue

/-- The hall stops at the coming boundary: paused, torn down, or paused by a FATAL event (R132, R133, R387). -/
def State.stopsNext (s : State) (h : Nat) : Bool :=
  let x := s.hall h
  x.pauseCause ∨ x.teardown ∨ (s.faults.fatal ∧ h ≠ 0)

/-! ### Ready tiles (R183) -/

/-- The queue's next ready tile: its hall ACTIVE and not stopping, its context not being torn down, its watch not
switching. -/
def State.readyOf (s : State) (h q : Nat) : Option Nat :=
  match (s.queue h q).inv with
  | none => none
  | some v =>
    if (s.hall h).state = .active ∧ !(s.ctx h v.context).torn ∧ !(s.watched h q ∧ (s.deadline h).switchDue.isSome) then
      v.readyTile
    else none

/-- A hall has a ready tile, unless it stops before the slot that is decided. -/
def State.hasReady (s : State) (k h : Nat) : Bool :=
  !(k = 0 ∧ s.stopsNext h) ∧ (List.range 256).any fun q => (s.readyOf h q).isSome

/-- The queue whose tile is next: the watched queue first, then round robin from queue `q` (R183). -/
def State.nextQueue (s : State) (h q : Nat) : Option Nat :=
  let w := (s.deadline h).queue
  if (s.deadline h).state ≠ .idle ∧ (s.readyOf h w).isSome then some w
  else ((List.range 256).map fun i => (q + i) % 256).find? fun i => (s.readyOf h i).isSome

/-! ### Rooms and scores (R181, R185) -/

/-- What a decision knows of its slot: its number, its first and last FCLK, and the end of the boundary work. -/
structure SlotInfo where
  k : Nat
  start : Nat
  stop : Nat
  work : Nat
deriving DecidableEq, Repr

/-- The slot that decision `k` decides; slot 0 is that of the coming stride (R70, R72, R77). -/
def State.slotInfo (s : State) (k : Nat) : SlotInfo :=
  let swap := if k = 0 then s.swapComing else s.timer.swapStride
  let code := if k = 0 ∧ swap then (s.plan.pending.map fun p => p.core.strideCode).getD s.timer.strideCode
    else s.timer.strideCode
  let len := slotFclk code
  let stop := if k = 63 then ((len * 64 : Nat) + s.timer.fix).toNat else len * (k + 1)
  { k := k, start := len * k, stop := stop, work := if swap then 4096 else 256 }

/-- The hall that a port serves at this decision. -/
def Engine.serving (e : Engine) : Option Nat := e.hall.map Prod.fst

/-- The port changes hall when it takes a tile of hall `h`. -/
def Engine.changes (e : Engine) (h : Nat) : Bool := (e.serving.map (· != h)).getD false

/-- The room of an engine for a tile of hall `h` (R181). -/
def SlotInfo.room (i : SlotInfo) (e : Engine) (h : Nat) : Nat :=
  let change := if e.changes h then i.start + 136 else 0
  i.stop - max (max i.start i.work) change

/-- Memory ports of a set that lie in a stack (R185). -/
def SetRec.portsIn (r : SetRec) (stack : Nat) : Nat :=
  (List.range 48).countP fun m => bit r.portMask m ∧ m / 4 = stack

/-- The affinity part p of the score (R185). -/
def State.affinity (s : State) (p h : Nat) (v : Invocation) : Nat :=
  let near := ((s.act.engines[p]?).map EngRec.nearStack).getD 255
  match v.desc.affinity with
  | none => 0
  | some i =>
    let g := s.seg (128 * h + 8 * v.context + i)
    if near = 255 then 0
    else if g.mode = .wm then 4
    else ((s.act.setRec g.set).map fun r => r.portsIn near).getD 0

/-- The placement part w of the score: the engine's last tile was of the same invocation, or of the same context (R185). -/
def State.warmth (s : State) (p h q : Nat) (v : Invocation) : Nat :=
  match (s.engine p).last with
  | some l =>
    if l.hall ≠ h ∨ l.hallGen ≠ (s.hall h).gen then 0
    else if l.queue = q ∧ l.queueGen = (s.queue h q).gen ∧ l.seq = v.seq ∧ l.fallback = v.fallback then 4
    else if l.context = v.context then 2
    else 0
  | none => 0

/-- The score 2p + w of an engine for a tile of a queue's invocation (R185). -/
def State.score (s : State) (p h q : Nat) (v : Invocation) : Nat := 2 * s.affinity p h v + s.warmth p h q v

/-- The best of a list of ports: highest score, then lowest port (the list is ascending). -/
def bestOf (score : Nat → Nat) : List Nat → Option Nat
  | [] => none
  | p :: rest =>
    match bestOf score rest with
    | none => some p
    | some b => if score p < score b then some b else some p

/-! ### Granting (R173, R180, R186) -/

/-- The TILE entry of a tile (R35). -/
def State.tileEntry (s : State) (h q : Nat) (v : Invocation) (i : Nat) : TileEntry :=
  { hall := h, hallGen := (s.hall h).gen, context := v.context, remote := v.desc.remote, reduce := v.desc.reduce,
    local_ := q, global := (s.queue h q).global, seq := v.seq, tile := i, budget := v.desc.tileBudget,
    args := v.desc.args + i * v.desc.argsStride, params := v.desc.params }

/-- Let a port change to a hall: pre-empted when it serves another, with a PARK entry ahead of the new hall's (R123, R173);
assigned at once when it serves none. -/
def State.serve (s : State) (p h : Nat) : State :=
  match (s.engine p).serving with
  | none => s.assign p (some h)
  | some h' =>
    if h' = h then s
    else (s.preempt p (some h)).modEngine p fun e =>
      { e with queue := if .park ∈ e.queue then e.queue else e.queue ++ [.park] }

/-- Grant a tile to a port: the TILE entry enters its engine queue (R173, R180). -/
def State.grant (s : State) (p h q : Nat) (v : Invocation) (i : Nat) : State :=
  let t := s.serve p h
  let t := t.modEngine p fun e => { e with queue := e.queue ++ [.tile (t.tileEntry h q v i)] }
  t.modQueue h q fun x => { x with inv := some (v.modTile i fun y => { y with phase := .granted p }) }

/-- The invocation's tile budget exceeds the tile limit in force: it stops (R121). -/
def State.limitChanged (s : State) (h q : Nat) : State :=
  let t := match (s.queue h q).inv with
    | some v => s.stopStarts h q { v with stopped := true, reason := rsLimitChanged }
    | none => s
  let t := if t.watched h q then t.modDeadline h fun d => { d with failSeen := true } else t
  t.settle h q

/-- No free engine has room for the hall's next tile: free engines of another hall change hall without a grant, as many
as there are ready tiles (R186, R188, log entry 27). -/
def State.changeUnfed (s : State) (h n : Nat) (free : List Nat) : State :=
  forEach ((free.filter fun p => (s.engine p).changes h).take n) (fun p t => t.serve p h) s

/-- Ready tiles of a hall. -/
def State.readyCount (s : State) (h : Nat) : Nat :=
  ((List.range 256).map fun q => match (s.queue h q).inv with
    | some v => if (s.readyOf h q).isSome then
        ((List.range v.waveSize).countP fun i => (v.tile (i + v.waveStart v.wave)).phase = .ready) else 0
    | none => 0).sum

/-- The queue whose turn follows a tile of queue `n`: the watched invocation takes its tiles outside the turns (R183). -/
def State.turnAfter (s : State) (h q n : Nat) : Nat := if s.watched h n then q else (n + 1) % 256

/-- Serve a hall's queues on its free engines, one tile per turn from queue `q` (R183). -/
def State.serveHall (i : SlotInfo) (h : Nat) : Nat → List Nat → Nat → State → State
  | 0, _, q, s => s.modHall h fun x => { x with rr := q }
  | fuel + 1, free, q, s =>
    match free, s.nextQueue h q with
    | [], _ | _, none => s.modHall h fun x => { x with rr := q }
    | _, some n =>
      match (s.queue h n).inv, s.readyOf h n with
      | some v, some tile =>
        if tileLimit s.timer.strideCode < v.desc.tileBudget then
          State.serveHall i h fuel free (s.turnAfter h q n) (s.limitChanged h n)
        else
          match bestOf (fun p => s.score p h n v)
              (free.filter fun p => v.desc.tileBudget ≤ i.room (s.engine p) h) with
          | none => (s.changeUnfed h (s.readyCount h) free).modHall h fun x =>
              { x with rr := if s.watched h n then q else n }
          | some p => State.serveHall i h fuel (free.filter (· ≠ p)) (s.turnAfter h q n) (s.grant p h n v tile)
      | _, _ => s.modHall h fun x => { x with rr := q }

/-- A port can be granted: present, in service, no switch under way, and no tile that outstays its slot or is in a wait of R20
(R180, R187, R203). -/
def State.usable (s : State) (p : Nat) : Bool :=
  let e := s.engine p
  s.engineUp p ∧ !e.preemptReq ∧ !e.switching ∧ !(e.begun.isSome ∧ (e.overstay ∨ e.stalled))

/-- The plan lets a port serve a hall now: the hall owns it, or its pool serves the hall (R123, R184). -/
def State.mayServe (s : State) (p h : Nat) : Bool :=
  match s.act.owner p with
  | .hall k => k == h
  | .pool k => (s.pool k).hall == h && s.act.pools.any (fun r => r.pool == k && bit r.hallMask h)
  | .none => false

/-- The ports among `ready` that may serve a hall at this decision and change hall on none. -/
def State.freePorts (s : State) (h : Nat) (ready : List Nat) : List Nat :=
  ready.filter fun p => s.mayServe p h && s.engineUp p && !(s.engine p).preemptReq && !(s.engine p).switching

/-! ### The pools' rotation (R184) -/

/-- The next hall of a pool's mask after `h`, in ascending order wrapping round, that has a ready tile; or `h`. -/
def State.nextInMask (s : State) (k : Nat) (r : PoolRec) (h : Nat) : Nat :=
  (((List.range 64).map fun i => (h + 1 + i) % 64).find? fun x => bit r.hallMask x ∧ s.hasReady k x).getD h

/-- One pool at one decision. -/
def State.rotate (s : State) (k : Nat) (r : PoolRec) : State :=
  let x := s.pool r.pool
  let y : Pool := if x.left = 0 ∨ !s.hasReady k x.hall then
      { hall := s.nextInMask k r x.hall, left := r.sliceSlots } else x
  { s with pools := s.pools.set {} r.pool { y with left := y.left - 1 } }

/-! ### The decision -/

/-- Unbegun grants of the passing slot lapse, and a tile that is still begun is marked (R203). -/
def State.passSlot (s : State) : State :=
  forAll 256 (fun p t => (t.clearGrants p).modEngine p fun x => { x with overstay := x.begun.isSome }) s

/-- The ports that can be granted, found before the passing slot's tiles are marked (R203). -/
def State.usablePorts (s : State) : List Nat := (List.range 256).filter fun p => s.usable p

/-- The slot is one of the last 8 × throttle_eighths of a throttled stride (R182). -/
def State.throttledSlot (s : State) (k : Nat) : Bool :=
  s.timer.throttle ∧ 64 - 8 * s.act.core.throttleEighths ≤ k ∧ k ≠ 0

/-- Grant slot `k`: `ready` lists the ports that no earlier tile holds. -/
def State.grantSlot (s : State) (k : Nat) (ready : List Nat) : State :=
  if s.plan.active = none ∨ s.throttledSlot k then s
  else
    let t := forEach s.act.pools (fun r u => u.rotate k r) s
    let i := t.slotInfo k
    forAll 64 (fun h u =>
      if u.hasReady k h then
        State.serveHall i h 512 (u.freePorts h ready) (u.hall h).rr u
      else u) t

/-! ### The deadline monitor (R190, R191) -/

/-- The projection of R191 in slots at relative stride n with d of T tiles done. -/
def DlRec.projection (r : DlRec) (n d total : Nat) : Nat := 64 * n + ceilDiv (r.primaryWcet * (total - d)) total

/-- The cause of a switch at the boundary that begins relative stride n, or none (R191, R194). -/
def DlRec.switchCause (r : DlRec) (n d total : Nat) (failed : Bool) : Option (BitVec 4) :=
  if n = r.switchPoint then some 1
  else if 64 * r.switchPoint < r.projection n d total then some 2
  else if failed then some 3
  else none

/-- The invocation that a hall's monitor watches: it runs, or waits in its commit's backlog (R190, R366). -/
def State.watchedInv (s : State) (h : Nat) : Option Invocation :=
  let x := s.queue h (s.deadline h).queue
  (x.inv.toList ++ x.backlog).find? fun v => v.seq == (s.deadline h).seq

/-- The deadline monitor of a hall at the decision point of a boundary. -/
def State.decideDeadline (s : State) (fallbacks : List (Fin 64 × DescRead)) (h : Nat) : State :=
  let m := s.deadline h
  match m.state, m.watch, s.watchedInv h with
  | .watching, some r, some v =>
    let n := (s.timer.strideNum - m.t0).toNat
    if r.switchPoint < n then s
    else
      match r.switchCause n v.done v.desc.tileCount m.failSeen with
      | some c =>
        s.modDeadline h fun d =>
          { d with switchDue := some c, failSeen := false,
                   fallbackRead := (fallbacks.find? fun f => f.1.val == h).map Prod.snd }
      | none =>
        s.modDeadline h fun d =>
          { d with failSeen := false,
                   slack := BitVec.ofNat 16
                     (min 0xFFFF (64 * r.switchPoint - r.projection n v.done v.desc.tileCount)) }
  | _, _, _ => s

/-! ### Pre-emptions raised at a decision point (R186) -/

/-- Ports that a hall owns. -/
def State.portsOf (s : State) (h : Nat) : List Nat := (List.range 256).filter fun p => s.act.owner p = .hall h

/-- An owned engine of a hall that stops gives way, unless it already serves nothing or is about to. -/
def State.stopEngine (s : State) (h p : Nat) : State :=
  let e := s.engine p
  if e.switching then (s.clearGrants p).modEngine p fun x => { x with nextHall := none }
  else if e.serving = some h then s.preempt p none
  else s.clearGrants p

/-- The engines that a hall owns give way, and no pool serves it any longer (R132, R134, R186). -/
def State.stopEngines (s : State) (h : Nat) : State :=
  let t := forEach (s.portsOf h) (fun p u => u.stopEngine h p) s
  { t with pools := t.pools.mapAll {} fun _ x => if x.hall = h then { x with left := 0 } else x }

/-- Pre-empt every engine whose owner the swap changes (R119, R186). -/
def State.preemptOwners (s : State) (new : Plan) : State :=
  forAll 256 (fun p t =>
    if s.act.owner p ≠ .none ∧ s.act.owner p ≠ new.owner p then t.preempt p none else t) s

/-- The throttle pin is sampled and the swap decision taken (R67, R116). -/
def State.sampleDecision (s : State) (thermLow : Bool) : State :=
  { s with timer := { s.timer with decided := true, thermLow := thermLow }, plan := { s.plan with due := s.planDue } }

/-- The decision point of the coming boundary: the throttle sample, the swap decision, the monitors' decisions and the
pre-emptions (R67, R116, R186, R191). -/
def State.decisionPoint (s : State) (thermLow : Bool) (fallbacks : List (Fin 64 × DescRead)) : State :=
  let t := forAll 64 (fun h u => u.decideDeadline fallbacks h) (s.sampleDecision thermLow)
  let t := forAll 64 (fun h u => if (u.hall h).state.live ∧ u.stopsNext h then u.stopEngines h else u) t
  match t.plan.pending with
  | some new => if t.swapComing then t.preemptOwners new else t
  | none => t

/-- The slot is entered: slot 0 by the decision point of the coming boundary, the others within the stride. -/
def State.enterSlot (s : State) (k : Nat) (thermLow : Bool) (fallbacks : List (Fin 64 × DescRead)) : State :=
  if k = 0 then s.decisionPoint thermLow fallbacks
  else { s with timer := { s.timer with slot := k, slot63Decided := k == 63 } }

/-- Core power over the slot that ended, a free value (R413). -/
def State.samplePower (s : State) : State :=
  { s.useFree with gallery := { s.gallery with slotSixteenths := BitVec.ofNat 16 s.freeValue.toNat } }

/-- A correction clamped to ±C (R77). -/
def clampTo (c x : Int) : Int := max (-c) (min c x)

/-- The clamp C: 1/400 of the stride (R77). -/
def syncClamp (code : BitVec 2) : Int := (strideFclk code / 400 : Nat)

/-- The correction in force is taken once slot 63 is decided, and the remainder is carried into the next one (R77); the stride
counts as clamped where a remainder is left (R78). -/
def State.endCorrection (s : State) (k : Nat) : State :=
  let t := s.timer
  let more := clampTo (syncClamp t.strideCode) t.carry
  if k = 63 ∧ !t.noCorrection then
    { s with timer := { t with taken := t.correction, correction := more, carry := t.carry - more,
                               clampedThis := t.carry ≠ 0 } }
  else s

/-- SLOT_DECISION of slot `k`: slot 0 is decided once before each boundary, slots 1 to 63 in order within the stride. -/
def State.slotDecision (s : State) (k : Nat) (thermLow : Bool) (fallbacks : List (Fin 64 × DescRead)) : State :=
  if !s.core.released ∨ s.timer.decided ∨ (k ≠ 0 ∧ k ≤ s.timer.slot) then s
  else (((s.passSlot.endCorrection k).enterSlot k thermLow fallbacks).grantSlot k s.usablePorts).samplePower

def execSlotDecision (k : Fin 64) (thermLow : Bool) (fallbacks : List (Fin 64 × DescRead)) (coreUe : Bool) (s : State) :
    Host.Outcome State Fault Refusal :=
  next ((if coreUe ∧ s.core.released then s.sramUeCore else s).slotDecision k thermLow fallbacks)

end Sys2Proof.Machine
end

