-- ==== Sys2Proof/Machine/Commit.lean ====
section
/-! DEFINITION. Commit groups: opening and closing by a queue (R361, R363), the descriptor of a staged action (R360) and
the limits of staging (R358, R362). What a boundary applies stands in CommitApply. -/

namespace Sys2Proof.Machine

/-- The group that COMMIT_OPEN or COMMIT_CLOSE names. -/
def commitGroupOf (raw : BitVec 512) : Nat := bits raw 133 128

/-- The reserved fields of COMMIT_OPEN and COMMIT_CLOSE are zero (R160). -/
def commitFieldsOk (raw : BitVec 512) : Bool := bits raw 135 134 = 0 ∧ zeroBytes raw 63 17

def State.commitOpen (s : State) (h q : Nat) (raw : BitVec 512) : State :=
  let g := commitGroupOf raw
  s.plainCommand h q raw 8 (commitFieldsOk raw) fun s b hdr =>
    match (s.cmt h g).state with
    | .idle | .staging =>
      ((s.modCmt h g fun c => { c with state := .open_, queue := q }).modQueue h q fun x =>
        { x with openGroup := some (g, b.loops.length), openAborted := false }).commandDone h q hdr
    | _ => s.abandon h q hdr Status.refused.code

def execCommitOpen (h : Fin 64) (q : Fin 256) (raw : BitVec 512) (s : State) : Host.Outcome State Fault Refusal :=
  next (s.commitOpen h q raw)

/-- Give each recorded INVOKE its descriptor as read at COMMIT_CLOSE and check it (R363); none where a check fails. -/
def State.closeActions (s : State) (h c : Nat) : List Action → List DescRead → Option (List Action)
  | [], _ => some []
  | .invoke hdr va ok _ _ seq :: rest, d :: ds =>
    if ok ∧ s.invokeCheck h c va d false = none then
      (s.closeActions h c rest ds).map fun l =>
        .invoke hdr va ok (parseDesc d.desc) (waveList (parseDesc d.desc) d.waves) seq :: l
    else none
  | .invoke .. :: _, [] => none
  | a :: rest, ds => (s.closeActions h c rest ds).map (a :: ·)

/-- The reads of descriptors and wave tables at COMMIT_CLOSE (R363), as far as the first check that fails. -/
def State.noteDescs (s : State) (h c : Nat) : List Action → List DescRead → State
  | .invoke _ va ok .. :: rest, d :: ds =>
    if !ok then s
    else if s.invokeCheck h c va d false = none then (s.noteDesc h c va d).noteDescs h c rest ds
    else s.noteDesc h c va d
  | .invoke .. :: _, [] => s
  | _ :: rest, ds => s.noteDescs h c rest ds
  | [], _ => s

/-- COMMIT_CLOSE completes ABORTED_COMMIT and abandons its buffer; the queue holds no group open (R369). -/
def State.closeAborted (s : State) (h q : Nat) (hdr : CmdHdr) : State :=
  ((s.completeWith h q hdr .abortedCommit).modQueue h q fun x =>
    { x with openGroup := none, openAborted := false }).leaveBuffer h q

/-- The place of a group that closes now in the close order: by the FCLK of the close, then by hall and group (R365). -/
def State.closeOrder (s : State) (h g : Nat) : Nat :=
  (s.timer.strideNum.toNat * 2 ^ 32 + s.timer.fclk.toNat) * 4096 + (64 * h + g)

/-- The group closes and waits for its boundary (R363, R364). -/
def State.closeGroup (s : State) (h q g : Nat) (hdr : CmdHdr) (recorded : List Action) : State :=
  let t := s.modCmt h g fun c =>
    { c with state := .closed, recorded := recorded, late := s.timer.decided, closeSeq := s.closeOrder h g,
             closeHdr := hdr }
  t.modQueue h q fun x => { x with wait := .close g hdr, openGroup := none }

def State.commitClose (s : State) (h q : Nat) (raw : BitVec 512) (descs : List DescRead) : State :=
  s.command h q raw 9 fun s b hdr =>
    if !(hdrOk raw ∧ commitFieldsOk raw) then s.abandon h q hdr Status.refused.code
    else
      match (s.queue h q).openGroup with
      | none => s.abandon h q hdr Status.refused.code
      | some (g, depth) =>
        if g ≠ commitGroupOf raw then s.refuseInGroup h q hdr
        else if (s.queue h q).openAborted then s.closeAborted h q hdr
        else if depth ≠ b.loops.length then s.abandon h q hdr Status.refused.code
        else
          let c := (s.queue h q).context
          let t := s.noteDescs h c (s.cmt h g).recorded descs
          match s.closeActions h c (s.cmt h g).recorded descs with
          | some l => t.closeGroup h q g hdr l
          | none => (t.abortGroup h g acInvokeCheck).closeAborted h q hdr

def execCommitClose (h : Fin 64) (q : Fin 256) (raw : BitVec 512) (descs : List DescRead) (s : State) :
    Host.Outcome State Fault Refusal := next (s.commitClose h q raw descs)

/-! ### Staging (R358, R360, R362) -/

/-- Held bytes of a hall: its groups' and the held lines not yet written (R362, R367). -/
def State.hallHeld (s : State) (h : Nat) : Nat :=
  ((List.range 64).map fun g => (s.cmt h g).held).sum + 64 * (s.commit.lines.countP fun l => l.hall == h)

/-- Held bytes of the core. -/
def State.coreHeld (s : State) : Nat := ((List.range 64).map s.hallHeld).sum

/-- The segment entry number of a context and index of a hall. -/
def segNo (h c i : Nat) : Nat := 128 * h + 8 * c + i

/-- The action that a staged descriptor of 32 bytes describes, or none where it breaks R360. A HELD_WRITE takes the bytes
that the core read at src. -/
def stagedAction (h : Nat) (b : List Byte) (src : List Byte) : Option Action :=
  let f := leAt b
  let ctxA := f 2 1
  let idxA := f 3 1
  let pad := f 24 8 = 0
  match f 0 1 with
  | 0x03 =>
    if ctxA < 16 ∧ idxA < 8 ∧ f 4 1 < 16 ∧ f 5 1 < 8 ∧ f 6 2 = 0 ∧ f 8 16 = 0 ∧ pad then
      some (.exchange (segNo h ctxA idxA) (segNo h (f 4 1) (f 5 1))) else none
  | 0x04 =>
    if ctxA < 16 ∧ idxA < 8 ∧ f 4 4 = 0 ∧ f 8 16 = 0 ∧ pad then some (.withdraw (segNo h ctxA idxA)) else none
  | 0x05 =>
    let len := f 6 2
    let dst := f 8 8
    if ctxA < 16 ∧ f 3 3 = 0 ∧ 64 ≤ len ∧ len ≤ 4096 ∧ len % 64 = 0 ∧ dst % 64 = 0 ∧ dst < 2 ^ 48 ∧
        dst % 4096 + len ≤ 4096 ∧ f 16 8 < 2 ^ 48 ∧ pad then
      some (.heldWrite ctxA dst len src) else none
  | 0x06 => if f 2 22 = 0 ∧ pad then some .epoch else none
  | 0x07 => if f 2 6 = 0 ∧ f 16 8 = 0 ∧ pad ∧ h = 0 then some (.planSwap (BitVec.ofNat 64 (f 8 8))) else none
  | _ => none

/-- The group that a staged descriptor names, or none where its reserved bits are set. -/
def stagedGroup (b : List Byte) : Option Nat := if leAt b 1 1 < 64 then some (leAt b 1 1) else none

/-- Bytes that an action holds (R362). -/
def Action.heldBytes : Action → Nat
  | .heldWrite _ _ n _ => n
  | _ => 0

/-- The kind's own conditions at staging: a HELD_WRITE's dst lies in a writable segment and its source read is OK; a
PLAN_SWAP names the pending plan, which no group holds (R358, R360). -/
def State.stageOk (s : State) (h : Nat) (a : Action) (st : Status) (src : ReadBytes) : Bool :=
  match a with
  | .heldWrite c dst n _ =>
    st == .ok && src.bytes.length == n &&
    match s.segAt h c dst with
    | some k => (s.seg k).state = .valid ∧ (s.seg k).wr ∧ dst + n ≤ (s.seg k).va + (s.seg k).size * 2 ^ 21
    | none => false
  | .planSwap id => s.plan.state = .pending ∧ s.plan.bound = none ∧ (s.plan.pending.map Plan.planId) = some id
  | _ => true

/-- The limits of R362 allow one more action. -/
def State.stageFits (s : State) (h g : Nat) (a : Action) : Bool :=
  (s.cmt h g).actions < 4096 ∧ s.hallHeld h + a.heldBytes ≤ min ((s.rec_ h).heldKib * 1024) 262144 ∧
    s.coreHeld + a.heldBytes ≤ 1048576

/-- Stage an action in a group (R358); a PLAN_SWAP binds the pending plan (R360). -/
def State.stage (s : State) (h g : Nat) (a : Action) : State :=
  let t := s.modCmt h g fun c =>
    { c with state := if c.state = .idle then .staging else c.state, staged := c.staged ++ [a],
             held := c.held + a.heldBytes }
  if a.isSwap then { t with plan := { t.plan with bound := some g, due := false } } else t

end Sys2Proof.Machine
end

