-- ==== Sys2Proof/Machine/LinkRows.lean ====
section
/-! DEFINITION. Ingress frames of VC1 to VC6 and their consumers (R281, R286, R296, R297, R299), the time-outs of requests
outstanding on a port (R208, R213), the rows of the host and memory ports that hand completed inner accesses on, and the
delivery of group keys (R310). -/

namespace Sys2Proof.Machine

/-! ### Consumers of VC2 to VC6 (R281, R286) -/

/-- The consumer of a frame on VC2 to VC6 takes it now: a baton waits while its hall has no adder share or is paused
(R315, R331), an inbound request while 4,096 of the port are in progress. -/
def State.consumerReady (s : State) (n vc : Nat) (h : BitVec 512) : Bool :=
  let k := hdrKind h
  if k = fkChunk then
    match s.groupRec (bits h 74 64) with
    | some r => vc ≠ 2 ∨ (0 < s.adderLeft r.hall ∧ (s.hall r.hall).state ≠ .paused)
    | none => true
  else if k = fkWinReq ∨ (k = fkCopy ∧ byteField h 14 14 % 2 = 0) then (s.engine (innerPort n)).dmas.length < 4096
  else true

/-- The consumer takes a frame of VC2 to VC6. -/
def State.consume (s : State) (n vc : Nat) (h : BitVec 512) (body : List Byte) : State :=
  let k := hdrKind h
  if k = fkChunk then s.chunkArrives n vc h body
  else if k = fkWinReq then s.inFragment n h body
  else if k = fkWinRsp then s.winReply n h body
  else if k = fkCopy then
    if byteField h 14 14 = cpAck then s.copyAck n h
    else if byteField h 14 14 = cpData then s.copyData n h body
    else s.inFragment n h body
  else s

/-- A frame of VC2 to VC6 has verified: it is taken with its credit returned, or held behind earlier frames of its sending
hall or its own consumer (R286). -/
def State.takeOrHold (s : State) (n vc : Nat) (h : BitVec 512) (body : List Byte) : State :=
  let behind := ((s.link n).chan vc).held.any fun x => hdrSrcHall x.1 == hdrSrcHall h
  if behind ∨ !s.consumerReady n vc h then s.modChan n vc fun c => { c with held := c.held ++ [(h, body)] }
  else (s.frameCredit n vc).consume n vc h body

/-- A frame of a kind on VC2 to VC6 arrives. -/
def State.dataFrame (s : State) (n kind : Nat) (f : RxFrame) : State :=
  s.ingress n kind f fun h body t => t.takeOrHold n f.vc h body

/-- A COPY frame of an operation arrives; a well-formed one of another operation is no event of the row. -/
def State.copyFrame (s : State) (n op : Nat) (f : RxFrame) : State :=
  match (s.link n).openFrame f with
  | some (h, _) => if !malformed f.vc h ∧ byteField h 14 14 ≠ op then s else s.dataFrame n fkCopy f
  | none => s.dataFrame n fkCopy f

/-- LINK_FRAME_RELEASE: the oldest held frame of a sending hall goes to its consumer once that is ready (R286). -/
def State.frameRelease (s : State) (n vc h : Nat) : State :=
  match ((s.link n).chan vc).held.find? fun x => hdrSrcHall x.1 == h with
  | none => s
  | some x =>
    if s.consumerReady n vc x.1 then
      ((s.modChan n vc fun c => { c with held := c.held.erase x }).frameCredit n vc).consume n vc x.1 x.2
    else s

def execLinkFrameRelease (n : Fin 20) (vc : Fin 8) (h : Fin 64) (s : State) : Host.Outcome State Fault Refusal :=
  next (s.frameRelease n vc h).drainServed

def execWinReq (n : Fin 20) (f : RxFrame) (s : State) : Host.Outcome State Fault Refusal :=
  next (s.dataFrame n fkWinReq f).drainServed

def execWinRsp (n : Fin 20) (f : RxFrame) (s : State) : Host.Outcome State Fault Refusal :=
  next (s.dataFrame n fkWinRsp f).drainServed

def execPushData (n : Fin 20) (fs : List RxFrame) (s : State) : Host.Outcome State Fault Refusal :=
  next (forEach fs (fun f t => t.copyFrame n cpPush f) s).drainServed

def execAck (n : Fin 20) (f : RxFrame) (s : State) : Host.Outcome State Fault Refusal :=
  next (s.copyFrame n cpAck f).drainServed

def execPullReq (n : Fin 20) (f : RxFrame) (s : State) : Host.Outcome State Fault Refusal :=
  next (s.copyFrame n cpPull f).drainServed

def execPullData (n : Fin 20) (fs : List RxFrame) (s : State) : Host.Outcome State Fault Refusal :=
  next (forEach fs (fun f t => t.copyFrame n cpData f) s).drainServed

/-- The chunk of a frame that arrived in state `s` meets an error in the decrypt stage or a tile (R353). -/
def State.chunkErrorOf (t s : State) (n : Nat) (f : RxFrame) (err : RedErr) : State :=
  match (s.link n).openFrame f with
  | some (h, _) => t.redError (bits h 74 64) (if f.vc = 2 then 0 else 1) (byteField h 12 12) true err
  | none => t

/-- CHUNK: an uncorrectable word fences its link ingress pipe (R376), the frame arrives, and then the error that its chunk
meets takes effect (R353). -/
def execChunk (n : Fin 20) (f : RxFrame) (pipeUe : Option (Fin 256)) (err : RedErr) (s : State) :
    Host.Outcome State Fault Refusal :=
  let t := match pipeUe with
    | some k => s.beginFence 7 k Cause.errors none
    | none => s
  next ((t.dataFrame n fkChunk f).chunkErrorOf s n f err).drainServed

/-- CHUNK_DRAIN: an uncorrectable word ends the operation before anything of its chunk leaves; any other error stops
nothing. -/
def execChunkDrain (g : Fin 2048) (op flight : Fin 3) (src : ReadBytes) (err : RedErr) (s : State) :
    Host.Outcome State Fault Refusal := next ((s.redError g op flight false err).chunkDrain g op flight src).drainServed

/-! ### Signals (R281, R316, R321, R323) -/

/-- A SIGNAL frame of a signal code arrives; a well-formed one of another code is no event of the row. -/
def State.signalIn (s : State) (n code : Nat) (f : RxFrame) (use : BitVec 512 → List Byte → State → State) : State :=
  match (s.link n).openFrame f with
  | some (h, _) => if !malformed f.vc h ∧ byteField h 12 12 ≠ code then s else s.ingressNow n fkSignal f use
  | none => s.ingressNow n fkSignal f use

def execGrant (n : Fin 20) (f : RxFrame) (s : State) : Host.Outcome State Fault Refusal :=
  next (s.signalIn n sigGrant f fun h _ t => t.grantArrives n h).drainServed

def execCount (n : Fin 20) (f : RxFrame) (s : State) : Host.Outcome State Fault Refusal :=
  next (s.signalIn n sigCount f fun h body t => t.countArrives n h body).drainServed

def execEndNotice (n : Fin 20) (f : RxFrame) (s : State) : Host.Outcome State Fault Refusal :=
  next (s.signalIn n sigEnd f fun h _ t => t.endArrives n h).drainServed

/-! ### Link keys, width and retraining: rows that can end window requests -/

def execKeyx (n : Fin 20) (f : RxFrame) (check : OfferCheck) (s : State) : Host.Outcome State Fault Refusal :=
  next (s.keyx n f check).drainServed

def execRotationTimeout (n : Fin 20) (s : State) : Host.Outcome State Fault Refusal :=
  next (s.rotationTimeout n).drainServed

def execMarker (n : Fin 20) (f : RxFrame) (s : State) : Host.Outcome State Fault Refusal :=
  next (s.marker n f).drainServed

def execMgmt (n : Fin 20) (f : RxFrame) (s : State) : Host.Outcome State Fault Refusal := next (s.mgmt n f).drainServed

def execLinkDownTimeout (n : Fin 20) (s : State) : Host.Outcome State Fault Refusal :=
  next (s.downTimeout n).drainServed

def execRetrainTimeout (n : Fin 20) (s : State) : Host.Outcome State Fault Refusal :=
  next (s.retrainTimeout n).drainServed

/-! ### Requests without a reply (R208, R213) -/

/-- A request of a port whose first frame left 4 strides ago ends TIMEOUT_REMOTE. -/
def State.requestTimeout (s : State) (n : Nat) (copy : Bool) (id : Nat) : State :=
  match (s.link n).reqs.find? fun r => r.copy == copy && r.id == id && r.started && decide (4 ≤ r.age) with
  | some r => (s.endEarly n r).failReq r
  | none => s

def execWindowTimeout (n : Fin 20) (req : Fin 4096) (s : State) : Host.Outcome State Fault Refusal :=
  next (s.requestTimeout n false req).drainServed

def execCopyPageTimeout (n : Fin 20) (req : Fin 4096) (s : State) : Host.Outcome State Fault Refusal :=
  next (s.requestTimeout n true req).drainServed

/-! ### Host, memory and working-memory ports -/

def execAtsTranslationCompletion (f : Fin 64) (pasid : BitVec 20) (page sizeLog2 host : Nat) (rd wr : Bool) (s : State) :
    Host.Outcome State Fault Refusal := next (s.atsCompletion f pasid.toNat page sizeLog2 host rd wr).drainServed

def execPrgResponse (f : Fin 64) (pasid : BitVec 20) (page : Nat) (code : BitVec 4) (s : State) :
    Host.Outcome State Fault Refusal := next (s.prgResponse f pasid.toNat page code).drainServed

def execHostReadCompletion (id : Nat) (sectors : List Sector) (s : State) : Host.Outcome State Fault Refusal :=
  next (s.hostReadDone id sectors).drainServed

def execFunctionLevelReset (f : Fin 64) (s : State) : Host.Outcome State Fault Refusal :=
  next (s.functionReset f).drainServed

def execKringDisableDone (f : Fin 64) (s : State) : Host.Outcome State Fault Refusal :=
  next (s.kringDisableDone f).drainServed

def execMemoryReadResponse (m : Fin 48) (tag : BitVec 9) (lines : List RawLine) (s : State) :
    Host.Outcome State Fault Refusal := next (s.memResponse m tag lines).drainServed

def execCounterChainFetched (k : Fin 8192) (group : Nat) (levels : List ChainLevel) (s : State) :
    Host.Outcome State Fault Refusal := next (s.chainFetched k group levels).drainServed

def execMemoryCreditReturn (m : Fin 48) (n : Fin 5) (s : State) : Host.Outcome State Fault Refusal :=
  next (s.creditReturn m n).drainServed

def execMemoryRequestTimeout (m : Fin 48) (s : State) : Host.Outcome State Fault Refusal :=
  next (s.memTimeout m).drainServed

def execWmReadResponse (data : BitVec 2048) (s : State) : Host.Outcome State Fault Refusal :=
  next (s.wmResponse data).drainServed

/-! ### Group keys (R310) -/

/-- The keys of an ADMITTING group are installed, and the group is ADMITTED under the admission's generation (R253, R310). -/
def State.installGroup (s : State) (g : Nat) (key : BitVec 256) : State :=
  let x := s.group g
  let t := s.modGroup g fun y =>
    { y with state := .admitted, gen := y.pendingGen, pendingGen := 0, admAge := 0, key := some key,
             delivery := some (deliveryKey key g), rounding := some (roundingKey y.seed), innerCtr := [], grants := [] }
  (t.restored x.admHall (.vault (.groupKey (Fin.ofNat 2048 g)))).restored x.admHall (.vault (.roundingKey (Fin.ofNat 2048 g)))

/-- The group's key as it reaches this chip: derived here where the chip issues it, else out of the message of the issuing
chip, wrapped under the transport key of the two chips (R261). -/
def State.arrivingKey (s : State) (g : Nat) (sender : Word) (wrapped : BitVec 320) : Option (BitVec 256) :=
  match s.groupRec g with
  | none => none
  | some r =>
    if s.issues g then
      s.vault.epochRoot.map fun er => groupKey er g (s.group g).pendingGen (s.group g).digest
    else if ((s.membersOf r)[0]?).map MemberRec.serialLo = some (BitVec.ofNat 32 sender.toNat) then
      keyUnwrap (Config.transportKey sender s.lc.serial) (bytesOf wrapped)
    else none

/-- GROUP_KEY_DELIVERY: GK of an ADMITTING group is at hand, so its keys are installed. -/
def State.groupKeyArrives (s : State) (g : Nat) (sender : Word) (wrapped : BitVec 320) : State :=
  if (s.group g).state = .admitting ∧ s.fwRuns ∧ s.mayInstall then
    match (s.need .epochRoot).arrivingKey g sender wrapped with
    | some key => (s.need .epochRoot).installGroup g key
    | none => s
  else s

def execGroupKeyDelivery (g : Fin 2048) (sender : Word) (wrapped : BitVec 320) (s : State) :
    Host.Outcome State Fault Refusal := next (s.groupKeyArrives g sender wrapped).drainServed

/-- GROUP_KEY_RETRY: a request not answered within 64 strides goes out again. -/
def State.groupKeyRetry (s : State) (g : Nat) : State :=
  if (s.group g).state = .admitting ∧ 64 ≤ (s.group g).admAge ∧ s.fwRuns ∧ !s.issues g then
    (s.modGroup g fun x => { x with admAge := 0 }).askKey g
  else s

def execGroupKeyRetry (g : Fin 2048) (s : State) : Host.Outcome State Fault Refusal := next (s.groupKeyRetry g)

/-! ### Withdrawals (R205, R214, R215) -/

/-- Requests that use a window entry: on engine ports by port and tag, on link ports the copy pages, and the accesses that
run for the far chip. -/
def State.windowUsers (s : State) (n : Nat) : List (Nat × Dma) :=
  s.engines.flatMap fun e =>
    (e.2.dmas.filter fun d =>
      if e.1 < 256 then d.kind = 2 ∧ d.index = n
      else e.1 < 512 ∧ (s.link (e.1 - 256)).inbound.any fun i =>
        hdrLast i.hdr && (parseInReq i.hdr).tag == d.tag && (parseInReq i.hdr).index == n).map fun d => (e.1, d)

/-- Copy pages that use a window entry, with their ports. -/
def State.windowPages (s : State) (n : Nat) : List (Nat × WinReqOut) :=
  s.links.flatMap fun l => ((l.2.reqs ++ l.2.pendingReqs).filter fun r => r.copy && r.entry == n).map fun r => (l.1, r)

/-- A withdrawal leaves the list: it has completed (R217). -/
def State.dropWithdrawal (s : State) (w : Withdrawal) : State :=
  { s with xlat := { s.xlat with withdrawals := s.xlat.withdrawals.erase w, completed := s.xlat.completed + 1 } }

/-- Every request of a withdrawal has completed. -/
def State.withdrawn (s : State) (w : WdRef) : Bool :=
  match w with
  | .segment k => s.segUsers k = [] ∧ s.channelOf k = none ∧ s.commit.lines.all fun l => l.seg != k.val
  | .window n => s.windowUsers n = [] ∧ s.windowPages n = []
  | .host f id => (s.func f).invals.all fun v => v.1 ≠ id ∨ v.2 = []

/-- What a withdrawal leaves behind: the entry INVALID with a new generation. -/
def State.withdrawEntry (s : State) (w : WdRef) : State :=
  match w with
  | .segment k => s.finishWithdrawSeg k
  | .window n => s.modWin n fun x => { gen := nextGen x.gen }
  | .host _ _ => s

/-- WITHDRAWAL_COMPLETE -/
def State.withdrawalDone (s : State) (w : WdRef) : State :=
  match s.xlat.withdrawals.find? fun x => x.ref = w with
  | some x => if s.withdrawn w then (s.withdrawEntry w).dropWithdrawal x else s
  | none => s

def execWithdrawalComplete (w : WdRef) (s : State) : Host.Outcome State Fault Refusal := next (s.withdrawalDone w)

/-- Retire what still uses a withdrawn mapping (R40, R214). -/
def State.retireUsers (s : State) (w : WdRef) : State :=
  match w with
  | .segment k =>
    let t := forEach (s.segUsers k) (fun u t => t.cut u.1 .retired u.2) s
    match t.channelOf k with
    | some c => (t.modChannel c fun x => { x with state := .cancelling, band := [] }).cancelRekey c
    | none => t
  | .window n =>
    let t := forEach (s.windowUsers n) (fun u t => t.cut u.1 .retired u.2) s
    forEach (t.windowPages n) (fun u v =>
      let v := v.endEarly u.1 u.2
      { v with xlat := { v.xlat with served := v.xlat.served ++
        [(migratePort u.2.hall u.2.queue, u.2.page, true, Status.retired, [])] } }) t
  | .host f id =>
    match (s.func f).invals.find? fun v => v.1 = id with
    | none => s
    | some v =>
      let t := forEach v.2 (fun id t =>
        match t.xlat.hostReads.find? fun r => r.id == id with
        | some r => match t.dma r.port r.tag with
          | some d => t.cut r.port .retired d
          | none => t
        | none => t) s
      t.modFunc f fun x => { x with invals := x.invals.map fun y => if y = v then (y.1, []) else y }

/-- WITHDRAWAL_DRAIN_TIMEOUT: 2 strides after its start the withdrawal retires what is left and completes. -/
def State.drainTimeout (s : State) (w : WdRef) : State :=
  match s.xlat.withdrawals.find? fun x => x.ref = w ∧ 2 ≤ x.age with
  | some x => ((s.retireUsers w).withdrawEntry w).dropWithdrawal x
  | none => s

def execWithdrawalDrainTimeout (w : WdRef) (s : State) : Host.Outcome State Fault Refusal :=
  next (s.drainTimeout w).drainServed

/-- BACKING_SCRUB_DONE: a backing withdrawn from a segment entry has been written whole with the scrub line, the oldest
such first, and is free (R135, R215). -/
def State.scrubDone (s : State) (k : Nat) : State :=
  match s.xlat.scrubs.find? fun x => x.entry == k && !x.teardown && s.scrubLines x == 0 with
  | none => s
  | some x => { s with xlat := { s.xlat with scrubs := s.xlat.scrubs.erase x } }

def execBackingScrubDone (k : Fin 8192) (s : State) : Host.Outcome State Fault Refusal := next (s.scrubDone k)

end Sys2Proof.Machine
end

