-- ==== Sys2Proof/Machine/DmaRow.lean ====
section
/-! DEFINITION. An engine's DMA request (R39 to R44, R195 to R200, R211), and the internal errors that it can meet (R141,
R247, R372, R376). -/

namespace Sys2Proof.Machine

/-! ### Internal errors -/

/-- A memory crypto pipe is fenced; with all 16 of a lane its port is fenced too (R376). -/
def State.fencePipe (s : State) (m j : Nat) (cause : BitVec 4) : State :=
  let t := s.beginFence 1 (16 * m + j) cause none
  if t.fencedPipes m = 16 ∧ t.inService 2 m then t.fenceMemPort m Cause.lanePipes else t

/-- The withdrawal of a window entry starts (R210, R214). -/
def State.startWithdrawWin (s : State) (n : Fin 4096) : State :=
  let t := s.modWin n fun w => { w with state := .withdrawing }
  { t with xlat := { t.xlat with withdrawals := t.xlat.withdrawals ++ [({ ref := .window n } : Withdrawal)] } }

/-- A hall owns working-memory backing in the 256 granules of a bitmap word. -/
def State.ownsWord (s : State) (h word : Nat) : Bool :=
  (hallSegs h).any fun k =>
    let g := s.seg k
    decide (g.state ≠ .invalid) && decide (g.mode = .wm) &&
      overlaps (granules g).1 ((granules g).2 - (granules g).1) (256 * word) 256

/-- BITMAP_UE: the word is rewritten clear and every hall that owns a granule in it is paused (R141). -/
def State.bitmapUe (s : State) (word : Nat) : State :=
  let t := { s with protect := { s.protect with written := s.protect.written.filter fun n => n / 256 != word } }
  let t := t.raise Ev.bitmapUe {}
  forAll 64 (fun h u =>
    if u.ownsWord h word then (u.pauseCause h none).modHall h fun x => { x with pauseBitmap := true } else u) t

/-- The cached leaf of a request's group. -/
def State.cachedLeaf (s : State) (k g : Nat) : Option CacheEnt := s.cachedNode (s.treeFor k g) 0 g

/-- Drop a cache entry. -/
def State.dropEnt (s : State) (e : CacheEnt) : State :=
  { s with protect := { s.protect with cache := s.protect.cache.mapAll [] fun _ l => l.filter (· ≠ e) } }

/-- The error that a request on segment entry `k` meets before it runs; a request on working memory meets bitmap errors,
one on sealed data those of the root store and the cache. -/
def State.segmentError (s : State) (k : Nat) (d : Dma) (err : SramErr) : State :=
  let g := s.seg k
  if g.state ≠ .valid then s
  else
    match err with
    | .bitmapUe => if g.mode = .wm then s.bitmapUe ((g.base * 512 + d.address / 4096) / 256) else s
    | .rootUe => if g.mode = .sealed then (s.mpx Ev.mpxRootLost k .poison).loseSegment k else s
    | .cacheClean =>
      match s.cachedLeaf k d.group with
      | some e => if g.mode = .sealed ∧ !e.dirty then (s.mpx Ev.mpxCorrected k .ok).dropEnt e else s
      | none => s
    | .cacheDirty =>
      match s.cachedLeaf k d.group with
      | some e => if g.mode = .sealed ∧ e.dirty then (s.dropEnt e).loseSubtree (s.treeFor k d.group) 0 d.group else s
      | none => s
    | .segmentUe => (s.sramUeHall (segHall k) (BitVec.ofNat 16 k) none).loseSegment k
    | .pipeUe j =>
      if g.mode = .wm then s else s.fencePipe ((s.set_ g.set).place (lineOf g.base (d.segLine 0))).1 j Cause.errors
    | _ => s

/-! ### The request -/

/-- The offset within a refused request of its first byte that is refused: the first beyond the bounds, where it begins
inside them; else its first (R175, R195, log entry 85). -/
def Dma.refusedAt (d : Dma) (size : Nat) : BitVec 32 :=
  if d.address < size ∧ size < d.address + d.length then BitVec.ofNat 32 (size - d.address) else 0

/-- A request is refused as a context fault of its tile: REFUSED, and R195 follows. `size` is that of what it names, in
bytes. -/
def State.refuseContext (s : State) (p : Nat) (e : TileEntry) (d : Dma) (size : Nat) (object : BitVec 16) : State :=
  (s.deliver p d .refused).contextFault d.hall e.context e (d.refusedAt size) object

/-- A request of kind segment. -/
def State.segmentRequest (s : State) (p : Nat) (e : TileEntry) (d : Dma) (err : SramErr) : State :=
  let t := s.segmentError d.seg d err
  match (t.seg d.seg).check d.address d.length d.write with
  | .refuse => t.refuseContext p e d ((t.seg d.seg).size * 2 ^ 21) (BitVec.ofNat 16 d.seg)
  | .poison => t.deliver p d .poison
  | .pass => t.startSeg p d

/-- A request of kind remote window. -/
def State.windowRequest (s : State) (p : Nat) (e : TileEntry) (d : Dma) (err : SramErr) : State :=
  let n := BitVec.ofNat 12 d.index
  let t := if err = .windowUe ∧ (s.win d.index).state = .valid then
      (s.sramUeHall (s.win d.index).ownerHall 0xFFFF none).startWithdrawWin n.toFin
    else s
  if (t.win d.index).serves d.hall d.context d.address d.length d.write then t.startWindow p d
  else t.refuseContext p e d ((t.win d.index).size * 4096) 0xFFFF

/-- The request record of a transfer by a begun tile. DESIGN CHOICE (log entry 94), here and in `dmaRequest`: R39 gives a
request with a reserved op REFUSED and does not say on which response channel; the model answers it as it answers a read. -/
def dmaOf (e : TileEntry) (r : DmaReq) (beats : List WBeat) : Dma :=
  { tag := r.tag, kind := r.kind, write := r.op = 1, hall := e.hall, hallGen := e.hallGen, context := r.context,
    index := r.index, address := r.address, length := r.length, beats := beats, wait := .lines,
    seg := segNo e.hall r.context (r.index % 8) }

/-- DMA_REQUEST. A port that is absent or fenced takes none, and a tag that is outstanding is no new request (log entry
2). Order: an old hall_gen, no begun tile, the form of R39, a context being torn down, then the kind's own checks. -/
def State.dmaRequest (s : State) (p : Nat) (req : BitVec 128) (beats : List WBeat) (err : SramErr) : State :=
  let r := parseDma req
  let stub : Dma :=
    { tag := r.tag, kind := r.kind, write := r.op = 1, hall := 0, hallGen := r.hallGen, context := r.context,
      index := r.index, address := r.address, length := r.length, beats := beats, wait := .lines }
  if !s.engineUp p ∨ (s.dma p r.tag).isSome then s
  else
    match s.gate p r.hallGen with
    | .retired => s.deliver p stub .retired
    | .noTile => (s.deliver p stub .refused).engProtocol p
    | .tile e =>
      let d := dmaOf e r beats
      if !r.formOk then s.deliver p d .refused
      else if (s.ctx e.hall e.context).torn then s.deliver p d .retired
      else if r.kind = 0 then s.segmentRequest p e d err
      else if r.kind = 1 then s.startHost p d
      else s.windowRequest p e d err

def execDmaRequest (p : Fin 256) (req : BitVec 128) (beats : List WBeat) (err : SramErr) (s : State) :
    Host.Outcome State Fault Refusal := next (s.dmaRequest p req beats err).drainServed

end Sys2Proof.Machine
end

