-- ==== Sys2Proof/Machine/FaultUnit.lean ====
section
/-! DEFINITION. The fault unit: the operator's FENCE and UNFENCE (R380), the drain of each kind of unit (R377, R379), the
return to service (R381, R382), the history's pin (R374) and ERR_N (R388), and the patrols (R249). -/

namespace Sys2Proof.Machine

/-! ### Fencing any unit -/

/-- Fence the named unit with a cause: the effects of its kind (R375). -/
def State.fenceUnit (s : State) (u : BitVec 16) (cause : BitVec 4) : State :=
  let i := unitIndex u
  match unitType u with
  | 1 => s.fencePipe (i / 16) (i % 16) cause
  | 2 => s.fenceMemPort i cause
  | 3 => s.fenceEngine i cause .preempted
  | 4 => s.fenceLink i cause
  | 8 => s.fenceCluster i cause
  | n => s.beginFence n i cause none

/-! ### Return to service -/

/-- A unit returns to IN_SERVICE with a new generation, and takes up its work (R380, R381). `auto` counts the return. -/
def State.returnUnit (s : State) (u : BitVec 16) (auto : Bool) : State :=
  let t := (s.noteChange u).modUnit u fun x =>
    { x with state := .inService, gen := nextGen x.gen, quietLeft := 0, triggered := false, started := false,
             returns := if auto then 0 :: x.returns else [] }
  let t := if auto then
      ({ t with faults := { t.faults with recoveries := satAdd t.faults.recoveries 1 } }).raise Ev.unitReturned { unit := u }
    else t
  match unitType u with
  | 2 => t.modMemPort (unitIndex u) fun x => { x with credits := 512, ues := [] }
  | 4 => if t.linkUsed (unitIndex u) then t.startEstablish (unitIndex u) else t
  | 8 => { t with reduce := { t.reduce with ues := t.reduce.ues.set [] (unitIndex u) [] } }
  | _ => t

/-! ### Commands (R380) -/

/-- FLT_STATUS.cmd_result: 1 ACCEPTED, 2 REJECTED. -/
def State.fltResult (s : State) (r : BitVec 2) : State := { s with faults := { s.faults with cmdResult := r } }

/-- The unit field of FLT_UNIT_CMD takes what was written; a reserved type leaves it as it was (R7, R375). -/
def State.nameUnit (s : State) (u : BitVec 16) : State :=
  if unitType u = 0 ∨ 11 ≤ unitType u then s else { s with faults := { s.faults with unitCmd := u } }

/-- FENCE: accepted in IN_SERVICE; in ENABLE_PENDING it cancels the pending return. -/
def State.cmdFence (s : State) (u : BitVec 16) : State :=
  let t := s.nameUnit u
  if !unitExists u then t.fltResult 2
  else
    match (t.unit u).state with
    | .inService => (t.fltResult 1).fenceUnit u Cause.operator
    | .enablePending => (t.fltResult 1).modUnit u fun x => { x with state := .fencing }
    | _ => t.fltResult 2

/-- UNFENCE: a fenced unit returns at once, a draining one once it has drained. -/
def State.cmdUnfence (s : State) (u : BitVec 16) : State :=
  let t := s.nameUnit u
  if !unitExists u then t.fltResult 2
  else
    match (t.unit u).state with
    | .fenced | .permanent => (t.fltResult 1).returnUnit u false
    | .fencing => (t.fltResult 1).modUnit u fun x => { x with state := .enablePending }
    | _ => t.fltResult 2

/-! ### Drains (R377, R379, R382) -/

/-- A memory port is FENCED: every VALID segment of its set is LOST and its hall paused, and every re-key of a segment of
the set is cancelled (R271, R379). -/
def State.loseSet (s : State) (m : Nat) : State :=
  let sets := (s.act.sets.filter fun r => bit r.portMask m).map SetRec.set
  let here := s.xlat.segs.filter fun e => e.2.mode ≠ .wm ∧ e.2.set ∈ sets
  let t := forEach here (fun e u => (if e.2.state = .valid then u.loseSegment e.1 else u).stopRekey e.1) s
  t.wake [.chain, .lock, .rekey, .held]

/-- The fence's cause lets the unit return by itself (R381). -/
def FUnit.autoReturns (x : FUnit) : Bool := x.cause ≠ Cause.operator ∧ x.cause ≠ Cause.narrow

/-- FENCE_DRAIN_COMPLETE: the unit is FENCED, or PERMANENT after 8 returns, or returns if that is pending. -/
def State.drainDone (s : State) (u : BitVec 16) : State :=
  let x := s.unit u
  let lose (t : State) : State := if unitType u = 2 then t.loseSet (unitIndex u) else t
  match x.state with
  | .enablePending => (lose s).returnUnit u false
  | .fencing =>
    let next : UnitState := if x.autoReturns ∧ 8 ≤ x.returns.length then .permanent else .fenced
    (lose s).modUnit u fun y =>
      { y with state := next, started := false, triggered := false,
               quietLeft := if next = .fenced ∧ y.autoReturns then BitVec.ofNat 16 s.quietStrides else 0 }
  | _ => s

def execFenceDrainComplete (unit : BitVec 16) (s : State) : Host.Outcome State Fault Refusal :=
  next (s.drainDone unit).drainServed

/-- A link port whose width reads down has no quiet stride (R381). -/
def State.notQuiet (s : State) (u : BitVec 16) : Bool :=
  (s.unit u).triggered || (unitType u == 4 && (s.link (unitIndex u)).width == 0)

/-- One stride of every fenced unit's quiet period has ended (R381); the boundary that completes it lets UNIT_RETURNED
follow. -/
def State.countQuiet (s : State) : State :=
  let step (k : Nat) (x : FUnit) : FUnit :=
    let y := { x with triggered := false, returns := (x.returns.map (· + 1)).filter (· < 4096) }
    if x.state = .fenced ∧ x.autoReturns then
      if !x.started ∨ s.notQuiet (BitVec.ofNat 16 k) then
        { y with started := true, quietLeft := BitVec.ofNat 16 s.quietStrides }
      else { y with quietLeft := BitVec.ofNat 16 (x.quietLeft.toNat - 1) }
    else y
  { s with faults := { s.faults with units := s.faults.units.mapAll {} step } }

/-- UNIT_RETURNED: the unit has completed its quiet period. -/
def State.unitReturns (s : State) (u : BitVec 16) : State :=
  let x := s.unit u
  if x.state = .fenced ∧ x.autoReturns ∧ x.started ∧ x.quietLeft = 0 then (s.returnUnit u true).spreadSlots else s

def execUnitReturned (unit : BitVec 16) (s : State) : Host.Outcome State Fault Refusal :=
  next (s.unitReturns unit).drainServed

/-! ### The history's pin and ERR_N (R374, R388) -/

/-- The next event that is not CORRECTED is pinned. -/
def State.unpinned (s : State) : State := { s with faults := { s.faults with pinned := none } }

/-- FLT_PIN_CTL.drive_low is written. -/
def State.setDriveLow (s : State) (low : Bool) : State :=
  let t := { s with faults := { s.faults with driveLow := low } }
  if t.faults.errLow = s.faults.errLow then t else t.emit (.errN t.faults.errLow)

/-- ERR_PULSE_EXPIRY: the pulse timer ends, and ERR_N follows drive_low. -/
def State.pulseEnds (s : State) : State :=
  if s.faults.pulse then
    let t := { s with faults := { s.faults with pulse := false } }
    if t.faults.driveLow then t else t.emit (.errN false)
  else s

def execErrPulseExpiry (s : State) : Host.Outcome State Fault Refusal := next s.pulseEnds

/-! ### Patrols (R89, R249) -/

/-- Lines of a port: 16 GiB (R55). -/
def portLines : Nat := 2 ^ 28

/-- The segment entry that a line of a port backs, if one does (R218). -/
def State.backedBy (s : State) (m n : Nat) : Option Nat :=
  (s.xlat.segs.find? fun e =>
    let r := s.set_ e.2.set
    let l := (n / 64 * r.ports.length + r.ports.idxOf m) * 64 + n % 64
    decide (e.2.state ≠ .invalid) && decide (e.2.mode ≠ .wm) && bit r.portMask m &&
      decide (e.2.base * 2 ^ 15 ≤ l ∧ l < (e.2.base + e.2.size) * 2 ^ 15)).map Prod.fst

/-- Some access holds the line of a port, or a request for it stands there (R244, R249). -/
def State.portLineBusy (s : State) (m n : Nat) : Bool :=
  (((s.memPort m).outstanding ++ (s.memPort m).waiting).any fun r => r.covers n ∧ r.why ≠ .discard) ||
    match s.backedBy m n with
    | some k =>
      let r := s.set_ (s.seg k).set
      let l := (n / 64 * r.ports.length + r.ports.idxOf m) * 64 + n % 64
      s.lineInUse r.set l || s.groupLocked k ((l - (s.seg k).base * 2 ^ 15) / 64)
    | none => false

/-- PATROL_SCRUB: the port's next line is read and checked by its code alone; a correctable line is rewritten, an
uncorrectable one counts toward the port's fence. It takes the line lock, a credit and the patrol's share (R55, R89). -/
def State.patrolScrub (s : State) (m : Nat) (raw : RawLine) : State :=
  let n := (s.memPort m).patrol
  if !s.core.released ∨ !s.canSpend m patrolPayer 2 [] ∨ s.portLineBusy m n then s
  else
    let t := (s.readNow m patrolPayer n).modMemPort m fun x => { x with patrol := (x.patrol + 1) % portLines }
    match decodeLine raw with
    | some x =>
      if x.corrected then
        let u := match t.backedBy m n with
          | some k => t.mpx Ev.mpxCorrected k .ok
          | none => ({ t with protect := { t.protect with cnt := { t.protect.cnt with
              corrected := satAdd t.protect.cnt.corrected 1 } } }).raise Ev.mpxCorrected {}
        (u.spendLines m patrolPayer 1 true).emit
          (.memWrite m (n / 4) (n % 4) x.data (sideBand x.data x.mac) (x.data == poisonData))
      else t
    | none => (t.raise Ev.mpxDataUe { unit := unitId 2 m }).countUes m 1

def execPatrolScrub (m : Fin 48) (line : RawLine) (s : State) : Host.Outcome State Fault Refusal :=
  next (s.patrolScrub m line).drainServed

/-- Copy B of a node that verifies by itself is rewritten where a bit of it was corrected; one that fails is rewritten from
the good copy A (R247, R249). -/
def State.patrolB (s : State) (r : TreeRef) (level i parent : Nat) (b : Line) (c : ChainLevel) : State :=
  match c.copyB with
  | none => s
  | some raw =>
    match copyOk (s.treeSlot r) (s.treeSet r) (s.metaLine r level i) parent raw with
    | some (_, false) => s
    | some (_, true) => s.fixNode r level i parent treePayer b false true false
    | none =>
      (s.mpx Ev.mpxNodeRepair r.seg .ok).writeLine treePayer (s.treeSet r) (s.metaLineB r level i)
        (b, sideBand b (nodeMac (s.treeSlot r) (s.treeSet r) (s.metaLine r level i) parent b)) false r.seg

/-- The patrol reads the copies of a leaf or node at its own share's cost. -/
def State.patrolReads (s : State) (r : TreeRef) (level i : Nat) : State :=
  let t := s.readSetNow treePayer (s.treeSet r) (s.metaLine r level i)
  if level = 0 then t else t.readSetNow treePayer (s.treeSet r) (s.metaLineB r level i)

/-- TREE_PATROL: one leaf block or both copies of one node of a sealed segment are read and verified against their parent
counter; no colour is filled (R249). `parent` is that counter as the patrol has verified it where it is not held. The
patrol takes the line lock, credits and its share (R55, R89). -/
def State.treePatrol (s : State) (k level node : Nat) (copies : ChainLevel) (parent : Word) : State :=
  let g := s.seg k
  let r := s.treeFor k (node * 8 ^ level)
  let a := s.metaLine r level node
  let b := s.metaLineB r level node
  let free (n : Nat) : Bool := (s.reqsOf g.set n).all fun q => q.why = .discard
  if !s.core.released ∨ g.state ≠ .valid ∨ g.mode ≠ .sealed ∨ (s.treeExt r).topLevel < level ∨
      levelCount (s.leaves k) level ≤ node ∨ s.isLost r level node ∨ (s.cachedNode r level node).any CacheEnt.dirty ∨
      !free a ∨ (0 < level ∧ !free b) ∨ !s.canSpend (s.portAt g.set a) treePayer 2 [] ∨
      (0 < level ∧ !s.canSpend (s.portAt g.set b) treePayer 2 []) then s
  else
    let p := (s.guardOf r level node).getD parent.toNat
    if p = 0 ∨ p = lostCtr then s
    else
      let t := s.patrolReads r level node
      match s.checkNode r level node p copies with
      | .good x fixA fixB repair usedB =>
        let u := t.fixNode r level node p treePayer x fixA fixB repair
        if level = 0 ∨ usedB then u else u.patrolB r level node p x copies
      | _ => t.loseSubtree r level node

def execTreePatrol (k : Fin 8192) (level node : Nat) (copies : ChainLevel) (parent : Word) (s : State) :
    Host.Outcome State Fault Refusal := next (s.treePatrol k level node copies parent).drainServed

end Sys2Proof.Machine
end

