-- ==== Sys2Proof/Machine/KeyRows.lean ====
section
/-! DEFINITION. The rows of the re-key engine (R268 to R271) and of the Vault's errors (R255). -/

namespace Sys2Proof.Machine

/-- REKEY_GROUP_MOVE -/
def execRekeyGroupMove (c : Fin 16) (lines : List RawLine) (s : State) : Host.Outcome State Fault Refusal :=
  next (s.groupMove c lines).drainServed

/-- REKEY_GROUP_COMPLETE -/
def execRekeyGroupComplete (c : Fin 16) (s : State) : Host.Outcome State Fault Refusal :=
  next (s.groupComplete c).drainServed

/-- REKEY_CANCEL -/
def execRekeyCancel (c : Fin 16) (s : State) : Host.Outcome State Fault Refusal :=
  next ((s.cancelRekey c).wake [.rekey]).drainServed

/-! ### Vault errors (R255) -/

/-- The Vault holds a value for an entry. -/
def State.entryHeld (s : State) : VaultEntry → Bool
  | .rootSeed => s.vault.rootSeed.isSome
  | .epochRoot => s.vault.epochRoot.isSome
  | .identityKey => s.vault.identity.isSome
  | .linkIdentityKey => s.vault.linkIdentity.isSome
  | .hallSecret h => (s.hallKey h).secret.isSome
  | .memSlot k => (s.slot k).state ≠ SlotState.free
  | .hostKey h => (s.hallKey h).hostKey.isSome
  | .linkKey n egress => if egress then (s.link n).egressKey.isSome else (s.link n).ingressKey.isSome
  | .groupKey g => (s.group g).key.isSome
  | .roundingKey g => (s.group g).rounding.isSome

/-- What follows a zeroised entry: a link establishes new keys, any other entry's holder is paused. -/
def State.afterZeroise (s : State) (e : VaultEntry) : State :=
  match e with
  | .linkKey n _ => s.startEstablish n
  | _ =>
    match s.holder e with
    | some h => s.pauseCause h (some (.vault e))
    | none => s

/-- VAULT_UE: an entry that can be derived again is; any other is zeroised. -/
def State.vaultUe (s : State) (e : VaultEntry) : State :=
  if !s.entryHeld e then s
  else if s.derivable e then { s with vault := { s.vault with rederiving := s.vault.rederiving.filter (· ≠ e) ++ [e] } }
  else ((s.raise Ev.vaultZeroised { hall := s.holder e }).zeroiseEntry e).afterZeroise e

def execVaultUe (e : VaultEntry) (s : State) : Host.Outcome State Fault Refusal := next (s.vaultUe e).drainServed

/-- VAULT_REDERIVE_DONE -/
def execVaultRederiveDone (e : VaultEntry) (s : State) : Host.Outcome State Fault Refusal :=
  next (s.rederived e).drainServed

end Sys2Proof.Machine
end

