-- ==== Sys2Proof/Machine/PlanCheck.lean ====
section
/-! DEFINITION. The Hall Plan's format and its load-time checks (R96 to R112, R233, R304 to R307, R448). -/

namespace Sys2Proof.Machine

/-- Where a refusal is reported (R448). -/
structure PlanFail where
  code : Byte
  section_ : Byte
  record : BitVec 32
deriving DecidableEq, Repr

/-! The refusal codes (R112). -/
namespace Pc
abbrev format : Nat := 0x01
abbrev length : Nat := 0x02
abbrev digest : Nat := 0x03
abbrev table : Nat := 0x04
abbrev reserved : Nat := 0x05
abbrev core : Nat := 0x06
abbrev hallClass : Nat := 0x07
abbrev engine : Nat := 0x08
abbrev pool : Nat := 0x09
abbrev memOver : Nat := 0x0A
abbrev link : Nat := 0x0B
abbrev cluster : Nat := 0x0C
abbrev colour : Nat := 0x0D
abbrev set : Nat := 0x0E
abbrev segment : Nat := 0x0F
abbrev quota : Nat := 0x10
abbrev group : Nat := 0x11
abbrev deadline : Nat := 0x12
abbrev busy : Nat := 0x13
abbrev late : Nat := 0x14
abbrev liveChange : Nat := 0x15
abbrev liveRemove : Nat := 0x16
end Pc

/-- The section and record values of a failure that concerns no single one (R448). -/
abbrev noSection : Nat := 0xFF
abbrev noRecord : Nat := 0xFFFFFFFF

/-- A refusal. -/
def planFail (code sec rec : Nat) : PlanFail :=
  { code := BitVec.ofNat 8 code, section_ := BitVec.ofNat 8 sec, record := BitVec.ofNat 32 rec }

/-- Refuse unless a condition holds. -/
def need (ok : Bool) (code sec rec : Nat) : Option PlanFail := if ok then none else some (planFail code sec rec)

/-- The first refusal of a list of checks. -/
def firstOf (l : List (Option PlanFail)) : Option PlanFail := l.findSome? id

/-- Each element of a list with its index. -/
def indexed {α : Type} (l : List α) : List (Nat × α) := (List.range l.length).zip l

/-- The first byte of `[off, off + n)` at which a test fails, as an offset. -/
def firstByte (p : List Byte) (off n : Nat) (ok : Nat → Byte → Bool) : Option Nat :=
  ((List.range n).map (off + ·)).find? fun k => !ok k ((p[k]?).getD 0)

/-- Refuse at the first byte of a range that is not zero. -/
def zeroAt (p : List Byte) (off n code : Nat) : Option PlanFail :=
  (firstByte p off n fun _ b => b == 0).map fun k => planFail code noSection k

/-- Refuse a field at its first byte that differs from a value's. -/
def bytesAre (p : List Byte) (off n v code : Nat) : Option PlanFail :=
  (firstByte p off n fun k b => b == BitVec.ofNat 8 (v / 256 ^ (k - off))).map fun k => planFail code noSection k

/-! ### Step 1 and 2: header and trailer (R96, R97, R100) -/

/-- The length requested is one that R96 allows. -/
def lengthOk (n : Nat) : Bool := 192 ≤ n ∧ n ≤ 1048576 ∧ n % 64 = 0

def checkHeader (p : List Byte) (requested : Nat) : Option PlanFail :=
  let minor := leAt p 4 2
  let count := leAt p 12 2
  firstOf [
    bytesAre p 0 4 0x4E4C5048 Pc.format,
    need (minor ≤ 1) Pc.format noSection (if 1 < minor % 256 then 4 else 5),
    bytesAre p 6 2 4 Pc.format,
    bytesAre p 8 4 requested Pc.length,
    need (1 ≤ count ∧ count ≤ 16) Pc.table noSection (if count = 0 ∨ 16 < count % 256 then 12 else 13),
    zeroAt p 14 2 Pc.reserved,
    zeroAt p 24 40 Pc.reserved ]

/-- The digest over all bytes before the trailer (R100). -/
def planDigest (p : List Byte) (n : Nat) : List Byte := sha384 (p.take (n - 64))

def checkTrailer (p : List Byte) (n : Nat) : Option PlanFail :=
  firstOf [
    need (slice p (n - 64) 48 == planDigest p n) Pc.digest noSection noRecord,
    zeroAt p (n - 16) 16 Pc.reserved ]

/-! ### Step 3: the section table (R96, R98, R99) -/

/-- A section: its table index and place. -/
structure Sect where
  index : Nat
  type : Nat
  offset : Nat
  length : Nat
  size : Nat
  count : Nat
deriving DecidableEq, Repr

/-- Record size, fewest and most records of a section type; none for a reserved type (R99). -/
def sectInfo : Nat → Option (Nat × Nat × Nat)
  | 1 => some (64, 1, 1) | 2 => some (64, 1, 64) | 3 => some (4, 256, 256) | 4 => some (16, 1, 16)
  | 5 => some (16, 1, 16) | 6 => some (32, 1, 8192) | 7 => some (16, 20, 20) | 8 => some (32, 1, 4)
  | 9 => some (32, 1, 2048) | 10 => some (8, 1, 32768) | _ => none

/-- Section table entry `i`. -/
def sectAt (p : List Byte) (i : Nat) : Sect :=
  let f (o n : Nat) := leAt p (64 + 16 * i + o) n
  { index := i, type := f 0 1, offset := f 4 4, length := f 8 4, size := f 2 2, count := f 12 4 }

/-- Check one entry: `before` are the earlier entries, `n` the plan's length.

DESIGN CHOICE (log entry 86): R98 and R111 order the entries, not the checks within one. The model takes the type, the
reserved byte, the size with the count and the length, and the place. -/
def checkEntry (p : List Byte) (n : Nat) (before : List Sect) (x : Sect) : Option PlanFail :=
  let prev := ((before.getLast?).map fun y => y.offset + y.length).getD (64 + 16 * leAt p 12 2)
  let (size, lo, hi) := (sectInfo x.type).getD (0, 0, 0)
  firstOf [
    need ((sectInfo x.type).isSome ∧ before.all fun y => y.type != x.type) Pc.table noSection x.index,
    need (leAt p (64 + 16 * x.index + 1) 1 = 0) Pc.reserved noSection x.index,
    need (x.size = size ∧ lo ≤ x.count ∧ x.count ≤ hi ∧ x.length = x.count * size) Pc.table noSection x.index,
    need (x.offset % 64 = 0 ∧ prev ≤ x.offset ∧ x.offset + x.length ≤ n - 64) Pc.table noSection x.index ]

/-- The section table of a plan. -/
def sections (p : List Byte) : List Sect := (List.range (leAt p 12 2)).map (sectAt p)

def checkTable (p : List Byte) (n : Nat) : Option PlanFail :=
  let l := sections p
  let has (t : Nat) : Bool := l.any fun x => x.type == t
  firstOf
    (((List.range l.length).map fun i => (l[i]?).bind fun x => checkEntry p n (l.take i) x) ++
     [1, 2, 3, 5, 6, 7].map (fun t => need (has t) Pc.table noSection noRecord) ++
     [need (has 9 == has 10) Pc.table noSection noRecord])

/-- The section of a type. -/
def sectOf (p : List Byte) (t : Nat) : Option Sect := (sections p).find? fun x => x.type == t

/-- The records of a section type, each as its bytes. -/
def recsOf (p : List Byte) (t : Nat) : List (List Byte) :=
  match sectOf p t with
  | some x => (List.range x.count).map fun i => slice p (x.offset + i * x.size) x.size
  | none => []

/-! ### The records (R101 to R109, R304, R305) -/

def classOf (c : Nat) : HallClass := if c = 1 then .shared else if c = 2 then .deadline else if c = 3 then .operator else .isolated

def parseCore (minor : Nat) (b : List Byte) : CoreRec :=
  let f := leAt b
  { strideCode := BitVec.ofNat 2 (f 0 1), syncRole := f 1 1, syncDelay := f 2 2, throttleEighths := f 4 1,
    rekeyUnits := f 5 1, hangStrides := f 6 2, quietStrides := if minor = 0 then 16 else f 8 2, sharedBase := f 10 1,
    sharedCount := f 11 1, wmUnits := f 12 4 }

def parseHall (b : List Byte) : HallRec :=
  let f := leAt b
  { hall := f 0 1, cls := classOf (f 1 1), memUnits := f 2 2, linkUnits := f 4 2, weight := f 6 1, colourBase := f 7 1,
    colourCount := f 8 1, clusterSlots := f 10 2, keyQuota := f 12 2, queueQuota := f 14 2, htcQuota := f 16 2,
    winQuota := f 18 2, heldKib := f 20 2 }

def parseEngine (b : List Byte) : EngRec :=
  let f := leAt b
  { owner := if f 0 1 = 1 then .hall (f 1 1) else if f 0 1 = 2 then .pool (f 1 1) else .none, nearStack := f 2 1 }

def parsePool (b : List Byte) : PoolRec :=
  { pool := leAt b 0 1, sliceSlots := leAt b 1 1, hallMask := BitVec.ofNat 64 (leAt b 8 8) }

def parseSet (b : List Byte) : SetRec :=
  { set := leAt b 0 1, portMask := BitVec.ofNat 48 (leAt b 2 6), metaBase := leAt b 8 4, metaSize := leAt b 12 4 }

def parseSeg (b : List Byte) : SegRec :=
  let f := leAt b
  { hall := f 0 1, context := f 1 1, index := f 2 1, mode := if f 3 1 = 1 then .veiled else if f 3 1 = 2 then .wm else .sealed,
    set := f 4 1, rd := f 5 1 % 2 = 1, wr := f 5 1 / 2 % 2 = 1, va := f 8 8, base := f 16 4, size := f 20 4 }

def parseLink (b : List Byte) : LinkRec :=
  { used := leAt b 1 1 % 2 = 1, weights := (List.range 8).map fun v => leAt b (2 + v) 1 }

def parseDl (b : List Byte) : DlRec :=
  let f := leAt b
  { hall := f 0 1, marginStrides := f 1 1, fallbackContext := f 2 1, primaryWcet := f 4 4, fallbackWcet := f 8 4,
    deadlineStrides := f 12 2, fallbackVa := f 16 8 }

def parseGroup (b : List Byte) : GroupRec :=
  let f := leAt b
  { raw := BitVec.ofNat 256 (leNat b), group := f 0 2, hall := f 2 1, reduces := f 3 1 % 2 = 1,
    partialMode := f 3 1 / 2 % 2 = 1, compensated := f 3 1 / 4 % 2 = 1, memberBase := f 4 4, memberCount := f 8 2,
    myIndex := f 10 2, f0 := f 12 1, f1 := f 13 1, f2 := f 14 1, fmt1 := f 15 1 % 16, fmt2 := f 15 1 / 16,
    ports := (List.range 6).map fun i => f (16 + i) 1, window := f 22 1 }

def parseMember (b : List Byte) : MemberRec :=
  let v := leNat b
  { serialLo := BitVec.ofNat 32 (v / 2 ^ 32), hall := v / 2 ^ 17 % 64, chip := v % 2 ^ 17 }

/-- The tables of a plan. -/
def parsePlan (p : List Byte) (n : Nat) : Plan :=
  let minor := leAt p 4 2
  { formatMinor := minor, planId := BitVec.ofNat 64 (leAt p 16 8), digest := planDigest p n,
    sections := (sections p).map fun x => (x.type, x.index),
    core := parseCore minor ((recsOf p 1).headD []), halls := (recsOf p 2).map parseHall,
    engines := (recsOf p 3).map parseEngine, pools := (recsOf p 4).map parsePool, sets := (recsOf p 5).map parseSet,
    segs := (recsOf p 6).map parseSeg, links := (recsOf p 7).map parseLink, deadlines := (recsOf p 8).map parseDl,
    groups := (recsOf p 9).map parseGroup, members := (recsOf p 10).map parseMember }

/-! ### Step 4: the sections (R112); each check names its record

Within one record the reserved fields come first, then the fields in the order of the code table (DESIGN CHOICE, log
entry 32). -/

/-- The bytes of a list of ranges are zero. -/
def rangesZero (b : List Byte) (l : List (Nat × Nat)) : Bool := l.all fun r => allZero (slice b r.1 r.2)

/-- Two half-open ranges are disjoint; an empty one is disjoint from all. -/
def apart (a n b m : Nat) : Bool := n = 0 ∨ m = 0 ∨ a + n ≤ b ∨ b + m ≤ a

def checkCore (minor sec : Nat) (b : List Byte) : Option PlanFail :=
  let c := parseCore minor b
  firstOf [
    need (leAt b 0 1 < 4 ∧ c.syncRole ≤ 2 ∧ rangesZero b [(16, 48)] ∧ (minor = 1 ∨ leAt b 8 2 = 0)) Pc.reserved sec 0,
    need (c.syncDelay ≤ 1023 ∧ 1 ≤ c.throttleEighths ∧ c.throttleEighths ≤ 7 ∧ c.rekeyUnits ≤ 250 ∧ 1 ≤ c.hangStrides ∧
      1 ≤ c.quietStrides ∧ c.quietStrides ≤ 4096 ∧ c.sharedBase ≤ 63 ∧ c.sharedCount ≤ 64 ∧ c.wmUnits ≤ 8192) Pc.core sec 0,
    need (c.sharedBase + c.sharedCount ≤ 64) Pc.colour sec 0 ]

def checkHall (core : CoreRec) (sec : Nat) (before : List HallRec) (i : Nat) (b : List Byte) : Option PlanFail :=
  let h := parseHall b
  let dedicated := before.filter fun x => 0 < x.colourCount
  firstOf [
    need (leAt b 1 1 ≤ 3 ∧ rangesZero b [(9, 1), (22, 42)]) Pc.reserved sec i,
    need (h.hall ≤ 63 ∧ (before.all fun x => x.hall != h.hall) ∧ ((h.hall = 0) ↔ (h.cls = .operator)) ∧
      (h.cls ≠ .deadline ∨ (before.countP fun x => x.cls = .deadline) < 4) ∧
      (if h.cls = .shared then 1 ≤ h.weight ∧ h.colourBase = 0 ∧ h.colourCount = 0 else h.weight = 0) ∧
      h.memUnits ≤ 1000 ∧ h.linkUnits ≤ 1000 ∧ h.colourBase ≤ 63 ∧ h.colourCount ≤ 64 ∧ h.clusterSlots ≤ 1024 ∧
      h.keyQuota ≤ 1024 ∧ h.queueQuota ≤ 256 ∧ h.htcQuota ≤ 8192 ∧ h.winQuota ≤ 4096 ∧ h.heldKib ≤ 256) Pc.hallClass sec i,
    need (h.colourBase + h.colourCount ≤ 64 ∧ apart h.colourBase h.colourCount core.sharedBase core.sharedCount ∧
      dedicated.all fun x => apart h.colourBase h.colourCount x.colourBase x.colourCount) Pc.colour sec i ]

def checkEngine (present : Nat → Bool) (halls : List HallRec) (sec n : Nat) (b : List Byte) : Option PlanFail :=
  let kind := leAt b 0 1
  let owner := leAt b 1 1
  firstOf [
    need (kind ≤ 2 ∧ (leAt b 2 1 ≤ 11 ∨ leAt b 2 1 = 255) ∧ leAt b 3 1 = 0) Pc.reserved sec n,
    need ((kind = 0 → owner = 0) ∧ (kind ≠ 0 → present n) ∧ (kind = 1 → halls.any fun h => h.hall == owner) ∧
      (kind = 2 → owner ≤ 15)) Pc.engine sec n ]

/-- A POOLS record (R105). DESIGN CHOICE (log entry 87): the code table names no code for a pool number above 15; the model
gives POOL, as for a number that repeats. -/
def checkPool (halls : List HallRec) (engines : List EngRec) (sec : Nat) (before : List PoolRec) (i : Nat)
    (b : List Byte) : Option PlanFail :=
  let x := parsePool b
  firstOf [
    need (rangesZero b [(2, 6)]) Pc.reserved sec i,
    need (x.pool ≤ 15 ∧ (before.all fun y => y.pool != x.pool) ∧ 1 ≤ x.sliceSlots ∧ x.sliceSlots ≤ 64 ∧ x.hallMask ≠ 0 ∧
      ((List.range 64).all fun h => !bit x.hallMask h || halls.any fun r => r.hall == h && decide (r.cls = .shared)) ∧
      engines.any fun e => e.owner = .pool x.pool) Pc.pool sec i ]

/-- A MEMORY record (R106). DESIGN CHOICE (log entry 87): the code table names no code for a set number above 15; the model
gives SET, as for a number that repeats. -/
def checkSet (sec : Nat) (before : List SetRec) (i : Nat) (b : List Byte) : Option PlanFail :=
  let x := parseSet b
  firstOf [
    need (rangesZero b [(1, 1)]) Pc.reserved sec i,
    need (x.set ≤ 15 ∧ (before.all fun y => y.set != x.set) ∧ x.portMask ≠ 0 ∧
      (before.all fun y => y.portMask &&& x.portMask == 0) ∧ x.metaBase + x.metaSize ≤ 8192 * x.ports.length) Pc.set sec i ]

/-- A SEGMENTS record (R107). COLOUR (0x0D) stands before SEGMENT (0x0F), as in the code table (DESIGN CHOICE, log
entry 32); a record that names an absent hall breaks no colour rule. -/
def checkSeg (core : CoreRec) (halls : List HallRec) (sets : List SetRec) (sec : Nat) (before : List SegRec) (i : Nat)
    (b : List Byte) : Option PlanFail :=
  let x := parseSeg b
  let wm : Bool := x.mode = .wm
  let set := sets.find? fun r => r.set == x.set
  let context := before.filter fun y => y.hall == x.hall && y.context == x.context
  let sameSpace := before.filter fun y => decide ((y.mode = .wm) ↔ (x.mode = .wm)) && (wm || y.set == x.set)
  firstOf [
    need (leAt b 1 1 < 16 ∧ leAt b 2 1 < 8 ∧ leAt b 3 1 ≤ 2 ∧ leAt b 5 1 < 4 ∧ rangesZero b [(6, 2), (24, 8)]) Pc.reserved sec i,
    need (x.mode ≠ .sealed ∨ (halls.all fun h => h.hall != x.hall ||
      decide (if h.cls = .shared then 0 < core.sharedCount else 0 < h.colourCount))) Pc.colour sec i,
    need ((!wm ∨ x.set = 0) ∧ x.va % 2 ^ 21 = 0 ∧ x.va < 2 ^ 48 ∧ 1 ≤ x.size ∧ x.size ≤ 131072 ∧
      (halls.any fun h => h.hall == x.hall) ∧ (context.all fun y => y.index != x.index) ∧
      x.va + x.size * 2 ^ 21 ≤ 2 ^ 48 ∧
      (context.all fun y => apart x.va (x.size * 2 ^ 21) y.va (y.size * 2 ^ 21)) ∧
      (if wm then x.base + x.size ≤ core.wmUnits
       else (set.any fun r => x.base + x.size ≤ 8192 * r.ports.length ∧ apart x.base x.size r.metaBase r.metaSize)) ∧
      (sameSpace.all fun y => apart x.base x.size y.base y.size || (y.hall == x.hall && decide (y.mode = x.mode))))
      Pc.segment sec i ]

def checkLink (halls : List HallRec) (sec n : Nat) (b : List Byte) : Option PlanFail :=
  let x := parseLink b
  let w (v : Nat) := (x.weights[v]?).getD 0
  firstOf [
    need (leAt b 1 1 < 2 ∧ rangesZero b [(10, 6)]) Pc.reserved sec n,
    need (leAt b 0 1 = n ∧ (!x.used ∨ (w 0 ≠ 0 ∧ w 1 ≠ 0 ∧ w 7 ≠ 0 ∧ (halls.map HallRec.linkUnits).sum ≤ 1000))) Pc.link sec n ]

def checkDl (halls : List HallRec) (segs : List SegRec) (sec : Nat) (before : List DlRec) (i : Nat) (b : List Byte) :
    Option PlanFail :=
  let x := parseDl b
  firstOf [
    need (leAt b 2 1 < 16 ∧ rangesZero b [(3, 1), (14, 2), (24, 8)] ∧ x.fallbackVa < 2 ^ 48) Pc.reserved sec i,
    need ((halls.any fun h => h.hall == x.hall && decide (h.cls = .deadline)) ∧ (before.all fun y => y.hall != x.hall) ∧
      1 ≤ x.marginStrides ∧ x.marginStrides ≤ 15 ∧ 1 ≤ x.deadlineStrides ∧ x.fallbackVa % 256 = 0 ∧
      x.primaryWcet ≤ 64 * x.deadlineStrides ∧ x.fallbackWcet + 64 * x.marginStrides ≤ 64 * x.deadlineStrides ∧
      segs.any fun g => g.hall == x.hall && g.context == x.fallbackContext && g.rd &&
        decide (g.va ≤ x.fallbackVa ∧ x.fallbackVa < g.va + g.size * 2 ^ 21)) Pc.deadline sec i ]

def checkGroup (halls : List HallRec) (links : List LinkRec) (sec : Nat) (before : List GroupRec) (i : Nat)
    (b : List Byte) : Option PlanFail :=
  let x := parseGroup b
  let hall := halls.find? fun h => h.hall == x.hall
  let sizes := [x.f0, x.f1, x.f2]
  let fmt (k : Nat) := if k = 1 then x.fmt1 else x.fmt2
  let portOk (k j : Nat) : Bool :=
    let port := (x.ports[2 * k + j]?).getD 0
    if 2 ≤ (sizes[k]?).getD 0 then ((links[port]?).map LinkRec.used).getD false else port == 0
  firstOf [
    need (x.group < 2048 ∧ x.hall < 64 ∧ leAt b 3 1 < 8 ∧ rangesZero b [(23, 9)]) Pc.reserved sec i,
    need (!x.reduces ∨ ((hall.map HallRec.clusterSlots).getD 1 ≠ 0)) Pc.cluster sec i,
    need ((before.all fun y => y.group != x.group) ∧ x.hall ≠ 0 ∧ (hall.any fun h => h.cls ≠ .operator) ∧
      x.memberBase < 32768 ∧ 2 ≤ x.memberCount ∧ x.memberCount ≤ 32768 ∧ x.memberCount = x.f0 * x.f1 * x.f2 ∧
      2 ≤ x.f0 ∧ x.f0 ≤ 64 ∧ 1 ≤ x.f1 ∧ x.f1 ≤ 64 ∧ 1 ≤ x.f2 ∧ x.f2 ≤ 32 ∧ (x.f1 ≠ 1 ∨ x.f2 = 1) ∧
      x.myIndex < x.memberCount ∧ (!x.compensated ∨ (!x.partialMode ∧ x.reduces)) ∧
      ([1, 2].all fun k => if 2 ≤ (sizes[k]?).getD 0 then upperFormat (fmt k) else fmt k == 0) ∧
      ([0, 1, 2].all fun k => portOk k 0 && portOk k 1) ∧ 1 ≤ x.window ∧ x.window ≤ 16) Pc.group sec i ]

def checkMember (sec i : Nat) (b : List Byte) : Option PlanFail :=
  firstOf [
    need (leNat b / 2 ^ 23 % 512 = 0) Pc.reserved sec i,
    need ((parseMember b).hall ≠ 0) Pc.group sec i ]

/-- Check the records of one section in order. -/
def checkSection (present : Nat → Bool) (p : List Byte) (t : Plan) (type sec : Nat) : Option PlanFail :=
  let recs := recsOf p type
  let each (f : Nat → List Byte → Option PlanFail) : Option PlanFail := (indexed recs).findSome? fun x => f x.1 x.2
  match type with
  | 1 => each fun _ b => checkCore t.formatMinor sec b
  | 2 => each fun i b => checkHall t.core sec (t.halls.take i) i b
  | 3 => each fun i b => checkEngine present t.halls sec i b
  | 4 => each fun i b => checkPool t.halls t.engines sec (t.pools.take i) i b
  | 5 => each fun i b => checkSet sec (t.sets.take i) i b
  | 6 => each fun i b => checkSeg t.core t.halls t.sets sec (t.segs.take i) i b
  | 7 => each fun i b => checkLink t.halls sec i b
  | 8 => each fun i b => checkDl t.halls t.segs sec (t.deadlines.take i) i b
  | 9 => each fun i b => checkGroup t.halls t.links sec (t.groups.take i) i b
  | _ => each fun i b => checkMember sec i b

/-- The end of what stands before a section: the section table or the section before it. -/
def endBefore (p : List Byte) (x : Sect) : Nat :=
  (((sections p)[x.index - 1]?).bind fun y => if 0 < x.index then some (y.offset + y.length) else none).getD
    (64 + 16 * leAt p 12 2)

/-- Step 4: the sections in ascending type, each after the padding before it; the padding at the end after the last
section (R111). -/
def checkSections (present : Nat → Bool) (p : List Byte) (n : Nat) (t : Plan) : Option PlanFail :=
  let count := (sections p).length
  firstOf (((List.range 10).map (· + 1)).flatMap fun type =>
    match sectOf p type with
    | none => []
    | some x =>
      let start := endBefore p x
      let tail := x.offset + x.length
      [zeroAt p start (x.offset - start) Pc.reserved, checkSection present p t type x.index,
       if x.index + 1 = count then zeroAt p tail (n - 64 - tail) Pc.reserved else none])

/-! ### Step 5: the checks that span sections (R111) -/

/-- The table index of a section type. -/
def Plan.sect (t : Plan) (type : Nat) : Nat := ((t.sections.find? fun x => x.1 == type).map Prod.snd).getD noSection

/-- Units of a port that a plan takes (R89). -/
def Plan.portUnits (t : Plan) (m : Nat) : Nat :=
  15 + t.core.rekeyUnits + ((t.halls.filter fun h => t.onPort h.hall m).map HallRec.memUnits).sum

/-- A set with sealed segments has the geometry of R233 and room for their extents. -/
def Plan.setFits (t : Plan) (r : SetRec) : Bool :=
  let sealedSegs := t.segs.filter fun g => decide (g.mode = .sealed) && g.set == r.set
  let inStack (k : Nat) := (r.ports.filter fun m => m / 4 = k).length
  let used := (List.range 12).filter fun k => 0 < inStack k
  let p := r.ports.length
  sealedSegs.isEmpty || (decide (2 ≤ used.length) && (used.all fun k => inStack k == r.perStack) &&
    decide ((sealedSegs.map fun g => extentUnits g.size p r.perStack).sum ≤ r.metaSize))

/-- Sealed and veiled segments of a hall in a plan. -/
def Plan.keyedSegs (t : Plan) (h : Nat) : Nat := t.segs.countP fun g => g.hall = h ∧ g.mode ≠ .wm

/-- The member list of a group in a plan. -/
def Plan.memberList (t : Plan) (g : GroupRec) : List MemberRec := (t.members.drop g.memberBase).take g.memberCount

/-- The checks of a group that read MEMBERS (R307). -/
def Plan.groupMembersOk (t : Plan) (g : GroupRec) : Bool :=
  let l := t.memberList g
  g.memberBase + g.memberCount ≤ t.members.length ∧ ((l[g.myIndex]?).any fun m => m.hall == g.hall) ∧
    (l.map MemberRec.chip).eraseDups.length = l.length

def checkAcross (t : Plan) : Option PlanFail :=
  let hallSum (f : HallRec → Nat) := (t.halls.map f).sum
  let total (f : HallRec → Nat) (cap : Nat) := need (hallSum f ≤ cap) Pc.quota (t.sect 2) noRecord
  let hasDl : Bool := t.sections.any fun x => x.1 == 8
  firstOf (
    [need (hasDl == t.halls.any fun h => h.cls = .deadline) Pc.table noSection noRecord,
     need (t.halls.any fun h => h.hall == 0) Pc.hallClass (t.sect 2) noRecord] ++
    (indexed t.engines).map (fun e => need (match e.2.owner with
      | .pool k => t.pools.any fun r => r.pool == k
      | _ => true) Pc.pool (t.sect 3) e.1) ++
    (List.range 48).map (fun m => need (t.portUnits m ≤ 1000) Pc.memOver (t.sect 5) m) ++
    [need (hallSum HallRec.clusterSlots ≤ 1024) Pc.cluster (t.sect 2) noRecord] ++
    (indexed t.sets).map (fun r => need (t.setFits r.2) Pc.set (t.sect 5) r.1) ++
    (indexed t.halls).map (fun h => need (t.keyedSegs h.2.hall ≤ h.2.keyQuota) Pc.quota (t.sect 2) h.1) ++
    [total HallRec.keyQuota 1024, total HallRec.queueQuota 4096, total HallRec.htcQuota 8192, total HallRec.winQuota 4096,
     total HallRec.heldKib 1024] ++
    (indexed t.groups).map (fun g => need (t.groupMembersOk g.2) Pc.group (t.sect 9) g.1) ++
    (indexed t.halls).map (fun h => need (h.2.cls ≠ .deadline ∨ t.deadlines.any fun d => d.hall == h.2.hall)
      Pc.deadline (t.sect 2) h.1))

/-! ### The whole check (R111) -/

/-- Verify a plan as read: a refusal, or its tables. `requested` is the length latched, `src` what the source gave. -/
def verifyPlan (present : Nat → Bool) (requested : Nat) (src : Option (List Byte)) : Except PlanFail Plan :=
  if !lengthOk requested then .error (planFail Pc.length noSection noRecord)
  else
    match src with
    | none => .error (planFail Pc.length noSection noRecord)
    | some p =>
      if p.length ≠ requested then .error (planFail Pc.length noSection noRecord)
      else
        match firstOf [checkHeader p requested, checkTrailer p requested, checkTable p requested] with
        | some f => .error f
        | none =>
          let t := parsePlan p requested
          match firstOf [checkSections present p requested t, checkAcross t] with
          | some f => .error f
          | none => .ok t

end Sys2Proof.Machine
end

