-- ==== Sys2Proof/Machine/Plan.lean ====
section
/-! DEFINITION. The plan loader (R113 to R117), the checks of a swap against the live state (R118, R234, R450) and the
swap itself (R119, R128, R142). -/

namespace Sys2Proof.Machine

/-! ### Loading and cancelling (R114 to R117) -/

/-- PLAN_STATUS reports a refusal (R448). -/
def PlanUnit.report (p : PlanUnit) (f : PlanFail) : PlanUnit :=
  { p with code := f.code, section_ := f.section_, record := f.record }

/-- The plan on its way to the active tables is gone: refused or cancelled. -/
def PlanUnit.drop (p : PlanUnit) (st : PlanState) : PlanUnit :=
  { p with state := st, pending := none, bound := none, due := false }

/-- The reads of a load of `len` bytes: through the boot port, or over the physical function without a PASID, at most 4,096
bytes each (R53, R114). -/
def planReads (flash : Bool) (addr len : Nat) : List Out :=
  if flash then [.bootRead addr len]
  else (List.range (ceilDiv len 4096)).map fun i => .planRead (addr + 4096 * i) (min 4096 (len - 4096 * i))

/-- LOAD_HOST and LOAD_FLASH: refused BUSY while a load runs or is pending, else a load starts, and its source is read
(R114). -/
def State.planLoad (s : State) (flash : Bool) : State :=
  if s.plan.state = .loading ∨ s.plan.state = .pending then
    { s with plan := s.plan.report (planFail Pc.busy noSection noRecord) }
  else
    { s with
      plan := { s.plan with
        state := .loading, code := 0, section_ := 0, record := 0, latchedAddr := s.plan.srcAddr,
        latchedLen := s.plan.srcLen, latchedTarget := s.plan.target, fromFlash := flash }
      out := s.out ++ planReads flash s.plan.srcAddr.toNat s.plan.srcLen.toNat }

/-- The decision point of the target stride has passed (R116, R449). -/
def State.planLate (s : State) : Bool :=
  let t := s.plan.latchedTarget
  t ≠ 0 ∧ (t ≤ s.timer.strideNum ∨ (t = s.timer.strideNum + 1 ∧ s.timer.decided))

/-- PLAN_VERIFICATION_END: the loader has read `source` whole, or its read failed; the plan is PENDING or REFUSED (R111,
R115, R116). -/
def State.planVerified (s : State) (source : Option (List Byte)) : State :=
  if s.plan.state ≠ .loading then s
  else
    match verifyPlan (fun n => bit s.core.engPresent n) s.plan.latchedLen.toNat source with
    | .error f => { s with plan := (s.plan.drop .refused).report f }
    | .ok p =>
      if s.planLate then { s with plan := (s.plan.drop .refused).report (planFail Pc.late noSection noRecord) }
      else { s with plan := { s.plan with state := .pending, pending := some p, bound := none, due := false, code := 0,
                                          section_ := 0, record := 0 } }

def execPlanVerificationEnd (source : Option (List Byte)) (s : State) : Host.Outcome State Fault Refusal :=
  next (s.planVerified source)

/-- The decision for the coming boundary to swap has been taken (R116, R117). -/
def State.swapDecided (s : State) : Bool := s.timer.decided ∧ (s.plan.due ∨ s.boundSwapDue)

/-- CANCEL: the pending plan is cancelled, a bound one with its group, unless its swap is decided (R117, R360, R369). -/
def State.planCancel (s : State) : State :=
  if s.plan.state ≠ .pending ∨ s.swapDecided then s
  else
    match s.plan.bound with
    | some g => s.abortGroup 0 g acPlan
    | none => s.cancelPending

/-! ### Checks against the live state (R118, R450) -/

/-- Insert by a number, after those that do not exceed it. -/
def insertBy {α : Type} (f : α → Nat) (x : α) : List α → List α
  | [] => [x]
  | y :: rest => if f x < f y then x :: y :: rest else y :: insertBy f x rest

/-- A list in ascending order of a number. -/
def ascending {α : Type} (f : α → Nat) (l : List α) : List α := l.foldr (insertBy f) []

/-- The segment entry number of a record. -/
def SegRec.no (r : SegRec) : Nat := segNo r.hall r.context r.index

/-- The segment record of an entry in a plan. -/
def Plan.segRec (p : Plan) (k : Nat) : Option SegRec := p.segs.find? fun r => r.no == k

/-- LIVE_CHANGE concerning a record of the pending plan. -/
def Plan.liveChange (p : Plan) (type rec : Nat) : PlanFail := planFail Pc.liveChange (p.sect type) rec

/-- Host translation cache entries of a hall. -/
def State.htcHeld (s : State) (h : Nat) : Nat := s.xlat.htc.countP fun e => e.func == h

/-- Window entries of a hall. -/
def State.windowsHeld (s : State) (h : Nat) : Nat :=
  s.xlat.windows.countP fun e => e.2.state ≠ .invalid ∧ e.2.ownerHall = h

/-- Use of a hall's quotas does not exceed a record's (R118). -/
def State.quotasCover (s : State) (r : HallRec) : Bool :=
  s.slotsHeld r.hall ≤ r.keyQuota ∧ s.queuesInUse r.hall ≤ r.queueQuota ∧ s.htcHeld r.hall ≤ r.htcQuota ∧
    s.windowsHeld r.hall ≤ r.winQuota ∧ s.hallHeld r.hall ≤ r.heldKib * 1024

/-- Step 1 for one hall of the active plan. -/
def State.checkLiveHall (s : State) (new : Plan) (old : HallRec) : Option PlanFail :=
  if !(s.hall old.hall).state.live then none
  else
    match new.hallRec old.hall with
    | none => some (planFail Pc.liveRemove noSection old.hall)
    | some r =>
      if r.cls = old.cls ∧ r.colourBase = old.colourBase ∧ r.colourCount = old.colourCount ∧ s.quotasCover r then none
      else some (new.liveChange 2 (new.halls.findIdx fun x => x.hall == old.hall))

/-- A set holds a live segment. -/
def State.setLive (s : State) (n : Nat) : Bool :=
  s.xlat.segs.any fun e => e.2.state ≠ .invalid ∧ e.2.mode ≠ .wm ∧ e.2.set = n

/-- Step 2 for one set of the active plan. -/
def State.checkLiveSet (s : State) (new : Plan) (old : SetRec) : Option PlanFail :=
  if !s.setLive old.set then none
  else
    match new.setRec old.set with
    | none => some (planFail Pc.liveChange noSection old.set)
    | some r => if r = old then none else some (new.liveChange 5 (new.sets.findIdx fun x => x.set == old.set))

/-- The hall is being torn down: its segment records are neither compared nor created (R450). -/
def State.ending (s : State) (h : Nat) : Bool := (s.hall h).state = .draining ∨ (s.hall h).state = .scrubbing

/-- A record says what the live entry holds; a commit may have exchanged its base (R366). -/
def SegRec.isEntry (r : SegRec) (g : Segment) : Bool :=
  r.mode = g.mode ∧ r.set = g.set ∧ r.rd = g.rd ∧ r.wr = g.wr ∧ r.va = g.va ∧ r.base = g.base ∧ r.size = g.size

/-- The pending plan's segment record indices by record, in ascending order of hall, context and index. -/
def Plan.segsInOrder (p : Plan) : List (Nat × SegRec) := ascending (fun x => x.2.no) (indexed p.segs)

/-- Step 3 for one segment record. -/
def State.checkLiveSeg (s : State) (new : Plan) (i : Nat) (r : SegRec) : Option PlanFail :=
  let g := s.seg r.no
  if s.ending r.hall ∨ g.state = .invalid then none
  else if g.state = .withdrawing ∨ !r.isEntry g then some (new.liveChange 6 i)
  else none

/-- A group has an operation in flight or an admitted hall on this chip. -/
def Group.live (x : Group) : Bool := x.ops ≠ [] ∨ x.delivery.isSome

/-- Step 4 for one group of the active plan. -/
def State.checkLiveGroup (s : State) (new : Plan) (old : GroupRec) : Option PlanFail :=
  if !(s.group old.group).live then none
  else
    match new.groups.find? fun r => r.group == old.group with
    | none => some (planFail Pc.liveChange noSection old.group)
    | some r =>
      if r.raw = old.raw ∧ new.memberList r = s.act.memberList old then none
      else some (new.liveChange 9 (new.groups.findIdx fun x => x.group == old.group))

/-- A record backs a range of another entry's space. -/
def SegRec.meets (r : SegRec) (wm : Bool) (set base units : Nat) : Bool :=
  decide (r.mode = .wm) == wm && (wm || r.set == set) && !apart r.base r.size base units

/-- A segment record's backing is not free at the boundary (R450): that of a segment that is withdrawing, or whose
withdrawal this swap starts (DEDUCED, log entry 90), or of a hall in teardown, or still to be scrubbed. -/
def State.backingTaken (s : State) (new : Plan) (r : SegRec) : Bool :=
  (s.xlat.segs.any fun e =>
    let g := e.2
    decide (g.state ≠ .invalid) &&
      (decide (g.state = .withdrawing) || s.ending (segHall e.1) || (new.segRec e.1).isNone) &&
      r.meets (decide (g.mode = .wm)) g.set g.base g.size) ||
  s.xlat.scrubs.any fun e => r.meets (decide (e.mode = .wm)) e.set e.base e.units

/-- A record creates a segment at the swap. -/
def State.isNew (s : State) (r : SegRec) : Bool := !s.ending r.hall && decide ((s.seg r.no).state = .invalid)

/-- Step 5: the new segments in order, each sealed one's extent after those before it (R234, R450). -/
def State.checkNewSegs (s : State) (new : Plan) : List (Nat × SegRec) → List (Nat × SegMeta) → Option PlanFail
  | [], _ => none
  | (i, r) :: rest, given =>
    if !s.isNew r then s.checkNewSegs new rest given
    else if s.backingTaken new r then some (new.liveChange 6 i)
    else if r.mode ≠ .sealed then s.checkNewSegs new rest given
    else
      match new.setRec r.set with
      | none => some (new.liveChange 6 i)
      | some x =>
        let used := s.extentsIn r.set ++ (given.filter fun e => e.1 == r.set).map Prod.snd
        match freeRun x used (extentUnits r.size x.ports.length x.perStack) with
        | none => some (new.liveChange 6 i)
        | some b => s.checkNewSegs new rest (given ++ [(r.set, extentAt b r.size x.ports.length x.perStack)])

/-- The checks of a swap against the live state, in the order of R118. -/
def State.swapCheck (s : State) (new : Plan) : Option PlanFail :=
  firstOf
    ((ascending HallRec.hall s.act.halls).map (s.checkLiveHall new) ++
     (ascending SetRec.set s.act.sets).map (s.checkLiveSet new) ++
     new.segsInOrder.map (fun x => s.checkLiveSeg new x.1 x.2) ++
     (ascending GroupRec.group s.act.groups).map (s.checkLiveGroup new) ++
     [s.checkNewSegs new new.segsInOrder []])

/-! ### The swap (R119, R128, R142) -/

/-- Install the new plan's tables and identity. -/
def State.installPlan (s : State) (new : Plan) : State :=
  { s with plan := { s.plan.drop .applied with active := some new, appliedStride := s.timer.strideNum } }

/-- A new hall's fences are 0, its deadline monitor IDLE, and no content trace runs for it. -/
def State.clearTables (s : State) (h : Nat) : State :=
  { s with fences := s.fences.keep (fun k _ => k / 4096 ≠ h), deadlines := s.deadlines.set {} h {},
           lc := { s.lc with contentActive := s.lc.contentActive &&& ~~~(1#64 <<< h) } }

/-- Create one hall of the new plan that was ABSENT or TORN_DOWN (R128, steps 1, 2, 4 and 5); its window's registers that name
the creation take their reset values (R445). -/
def State.createHall (s : State) (r : HallRec) : State :=
  let h := r.hall
  let t := s.modHall h fun x =>
    { state := if h = 0 then .active else .awaitingTenant, gen := nextGen x.gen, cmdResult := x.cmdResult,
      cls := BitVec.ofNat 2 r.cls.code }
  let t := forAll 256 (fun q u => u.modQueue h q fun x => { x with gen := nextGen x.gen }) t
  let t := t.modFunc h fun x => { gen := nextGen x.gen }
  let t := (t.clearTables h).modMailbox h fun b => { b with bound := none }
  forAll 16 (fun c u => u.modCtx h c fun x => { x with torn := false }) t

/-- Create the halls that are new in the plan, in ascending hall number. -/
def State.createHalls (s : State) : State :=
  forEach (ascending HallRec.hall s.act.halls) (fun r t => if (t.hall r.hall).state.live then t else t.createHall r) s

/-- A TORN_DOWN hall that the plan omits becomes ABSENT (R127). DESIGN CHOICE (log entry 91): no rule changes the other
registers of its window there, so FW_HALL_RECORD0 to 2, FW_PUBLISHED_STRIDE, FW_CNT_* and FW_HALL_INFO's other fields keep
their values until the hall is created again (R445). -/
def State.dropHalls (s : State) : State :=
  { s with halls := s.halls.mapAll {} fun h x =>
      if x.state = .tornDown ∧ s.act.hallRec h = none then { x with state := .absent } else x }

/-- FW_HALL_RECORD0 to 2 of a hall: bytes 21 to 0 of its record and its owned engine count (R142). -/
def State.loadRecord (s : State) (r : HallRec) : State :=
  s.modHall r.hall fun x =>
    { x with
      rec0 := BitVec.ofNat 64 (leNat (leBytes 1 r.hall ++ leBytes 1 r.cls.code ++ leBytes 2 r.memUnits ++
        leBytes 2 r.linkUnits ++ leBytes 1 r.weight ++ leBytes 1 r.colourBase)),
      rec1 := BitVec.ofNat 64 (leNat (leBytes 1 r.colourCount ++ [0] ++ leBytes 2 r.clusterSlots ++
        leBytes 2 r.keyQuota ++ leBytes 2 r.queueQuota)),
      rec2 := BitVec.ofNat 64 (leNat (leBytes 2 r.htcQuota ++ leBytes 2 r.winQuota ++ leBytes 2 r.heldKib ++
        leBytes 2 (s.act.ownedEngines r.hall))) }

/-- The withdrawal of every segment of a live hall that the plan omits starts (R118, R214). -/
def State.withdrawOmitted (s : State) : State :=
  forEach s.xlat.segs (fun e t =>
    if (e.2.state = .valid ∨ e.2.state = .lost) ∧ !t.ending (segHall e.1) ∧ t.act.segRec e.1 = none then
      t.startWithdrawSeg e.1 (Fin.ofNat 8192 e.1) else t) s

/-- Create the new segments in ascending order; those of a hall that holds its keys get key slots (R128, R234, R264). -/
def State.createSegs (s : State) (l : List SegRec) : State :=
  let t := forEach l (fun r t => t.createSeg r) s
  forEach l (fun r t => if (t.hallKey r.hall).secret.isSome ∧ !(t.hall r.hall).keysReady then t.giveSlot r.no else t) t

/-- Park every engine whose owner changes (R119). -/
def State.parkEngines (s : State) (old : Plan) : State :=
  forAll 256 (fun p t =>
    if old.owner p ≠ .none ∧ old.owner p ≠ t.act.owner p then
      (t.clearGrants p).modEngine p fun e => { e with queue := [.park] }
    else t) s

/-- A pool whose record changed starts its rotation afresh. -/
def State.resetPools (s : State) (old : Plan) : State :=
  { s with pools := s.pools.keep fun k _ =>
      old.pools.find? (fun r => r.pool == k) = s.act.pools.find? (fun r => r.pool == k) }

/-- The timer takes the plan's stride length and sync role (R70, R75, R76, R79). -/
def State.retime (s : State) : State :=
  let c := s.act.core
  let len := c.strideCode ≠ s.timer.strideCode
  let role := BitVec.ofNat 2 c.syncRole
  { s with timer := { s.timer with
      strideCode := c.strideCode, syncRole := role, swapStride := true,
      firstAfterLength := s.timer.firstAfterLength || len, noCorrection := len,
      correction := if len then 0 else s.timer.correction, carry := if len then 0 else s.timer.carry,
      missedStrides := if role = 2 ∧ s.timer.syncRole ≠ 2 then 0 else s.timer.missedStrides } }

/-- Link ports that the plan takes into use establish keys (R290). -/
def State.takeLinks (s : State) (old : Plan) : State :=
  let used (p : Plan) (n : Nat) : Bool := ((p.links[n]?).map LinkRec.used).getD false
  forAll 20 (fun n t =>
    if used t.act n ∧ !used old n ∧ (t.link n).egressKey.isNone then t.startEstablish n else t) s

/-- A swap that moves the shared colour range moves the cached entries of the SHARED halls with it (log entry 46). -/
def State.rehome (s : State) (old : Plan) : State :=
  if old.core.sharedBase = s.act.core.sharedBase ∧ old.core.sharedCount = s.act.core.sharedCount then s
  else
    let shared (e : CacheEnt) : Bool := decide ((s.rec_ e.hall).cls = .shared)
    let moved := (s.protect.cache.flatMap Prod.snd).filter shared
    let t := { s with protect := { s.protect with
      cache := s.protect.cache.mapAll [] fun _ l => l.filter fun e => !shared e } }
    forEach moved (fun e t =>
      let key := t.cacheKey e.hall e.metaLine
      let l := Tab.get [] t.protect.cache key ++ [e]
      let t := t.modCache key fun l => (l ++ [e]).take 16
      { t with protect := { t.protect with evicting := t.protect.evicting ++ (l.drop 16).filter CacheEnt.dirty } }) t

/-- CORE_DL_STATUSk reports the k-th DEADLINE record's hall: its counts start afresh where that hall changes (R194). -/
def State.resetDeadlines (s : State) (old : Plan) : State :=
  forEach (indexed s.act.deadlines) (fun x t =>
    if (old.deadlines[x.1]?).map DlRec.hall = some x.2.hall then t
    else t.modDeadline x.2.hall fun d => { d with missed := 0, fallbacks := 0, cause := 0 }) s

/-- The swap takes effect whole (R119, R128). -/
def State.swapIn (s : State) (new : Plan) : State :=
  let old := s.act
  let newSegs := (new.segsInOrder.map Prod.snd).filter s.isNew
  let t := s.installPlan new
  let t := (t.dropHalls).createHalls
  let t := t.withdrawOmitted
  let t := t.createSegs newSegs
  let t := if (t.hallKey 0).secret.isNone then t.installOperator else t
  let t := forEach t.act.halls (fun r u => u.loadRecord r) t
  let t := (((t.parkEngines old).resetPools old).retime).takeLinks old
  (t.resetDeadlines old).rehome old

/-- The swap of an unbound pending plan, where its decision was taken: it applies, or is refused (R118). -/
def State.swapDue (s : State) : State :=
  match s.plan.pending with
  | some new =>
    if s.plan.due then
      match s.swapCheck new with
      | some f => { s with plan := (s.plan.drop .refused).report f }
      | none => s.swapIn new
    else s
  | none => s

end Sys2Proof.Machine
end

