-- ==== Sys2Proof/Machine/CommitApply.lean ====
section
/-! DEFINITION. What a boundary does with the commit groups that are due (R364 to R368, R216, R235), and the writes of
held lines (R367). A group is tried on a copy of the state, so that a failing one leaves nothing behind. -/

namespace Sys2Proof.Machine

/-! ### SEG_EXCHANGE (R216, R235, R264, R366) -/

/-- The other of two numbers, where a number is one of them. -/
def swapNo (a b x : Nat) : Nat := if x = a then b else if x = b then a else x

/-- The reason of a memory read with its segment renamed. -/
def MemWhy.rename (f : Nat → Nat) : MemWhy → MemWhy
  | .overflow k l => .overflow (f k) l
  | w => w

/-- An object to restore with its segment renamed. -/
def RestoreObj.rename (f : Nat → Nat) : RestoreObj → RestoreObj
  | .lost k => .lost (f k)
  | .marker k => .marker (f k)
  | o => o

/-- A table with its keys exchanged. -/
def swapKeys {α : Type} [DecidableEq α] (d : α) (t : Tab α) (a b : Nat) : Tab α :=
  (t.set d a (t.get d b)).set d b (t.get d a)

/-- What belongs to a backing follows it to the other entry: its tree, its cached blocks, its outstanding requests, its
held lines (R216, R235). -/
def State.renameBacking (s : State) (a b : Nat) : State :=
  let f := swapNo a b
  let req (r : MemReq) : MemReq := { r with seg := f r.seg, why := r.why.rename f }
  { s with
    protect := { s.protect with
      roots := swapKeys 0 s.protect.roots a b, segMeta := swapKeys {} s.protect.segMeta a b,
      overflows := s.protect.overflows.map fun o => { o with seg := f o.seg } }
    ports := s.ports.mapAll {} fun _ m =>
      { m with outstanding := m.outstanding.map req, waiting := m.waiting.map req }
    engines := s.engines.mapAll {} fun _ e =>
      { e with dmas := e.dmas.map fun d => if d.kind = 0 then { d with seg := f d.seg } else d }
    halls := s.halls.mapAll {} fun _ x => { x with restore := x.restore.map (RestoreObj.rename f) }
    commit := { s.commit with lines := s.commit.lines.map fun l => { l with seg := f l.seg } } }

/-- Two segments exchange backing and key slot, each under a new generation. -/
def State.exchange (s : State) (a b : Nat) : State :=
  let x := s.seg a
  let y := s.seg b
  let t := s.renameBacking a b
  let t := t.modSlot x.keySlot fun k => { k with context := b / 8 % 16, index := b % 8 }
  let t := t.modSlot y.keySlot fun k => { k with context := a / 8 % 16, index := a % 8 }
  let t := t.modSeg a fun g => { g with base := y.base, keySlot := y.keySlot, gen := nextGen g.gen }
  t.modSeg b fun g => { g with base := x.base, keySlot := x.keySlot, gen := nextGen g.gen }

/-- The conditions of SEG_EXCHANGE at the boundary (R365). -/
def State.exchangeOk (s : State) (a b : Nat) : Bool :=
  let x := s.seg a
  let y := s.seg b
  a ≠ b ∧ x.state = .valid ∧ y.state = .valid ∧ x.mode = y.mode ∧ x.mode ≠ .wm ∧ x.set = y.set ∧ x.size = y.size ∧
    s.channelOf a = none ∧ s.channelOf b = none

/-! ### HELD_WRITE (R366, R367) -/

/-- The pseudo port on which the commit unit writes working memory. -/
def commitPort : Nat := 20000

/-- A range cut at the 4 KiB boundaries of its addresses: offset of each piece within the range, and its length. -/
def pagePieces (off len : Nat) : List (Nat × Nat) :=
  ((List.range (ceilDiv (off % 4096 + len) 4096)).map fun i =>
    let a := 4096 * i - off % 4096
    (a, min (4096 * (i + 1) - off % 4096) len - a)).filter fun x => 0 < x.2

/-- The held bytes become the contents of their destination: working memory at once, lines of a sealed or veiled segment
as held lines that are still to be written; a later held line takes an earlier one's place. -/
def State.holdWrite (s : State) (h c k off : Nat) (data : List Byte) : State :=
  if (s.seg k).mode = .wm then
    forEach (pagePieces off data.length) (fun x t => t.startSeg commitPort
      { tag := x.1, kind := 0, write := true, hall := h, hallGen := (s.hall h).gen, context := c, index := k % 8,
        address := off + x.1, length := x.2, beats := beatsOf (off + x.1) (slice data x.1 x.2), wait := .lines, seg := k }) s
  else
    let new := (List.range (data.length / 64)).map fun i =>
      ({ hall := h, seg := k, line := off / 64 + i, data := slice data (64 * i) 64,
         arrival := s.protect.arrivals } : HeldLine)
    let kept := s.commit.lines.filter fun l => !(new.any fun n => n.seg == l.seg && n.line == l.line)
    { s with commit := { s.commit with lines := kept ++ new } }

/-! ### Applying a group (R365, R366, R368) -/

/-- The state after a staged action, or the cause of the abort where its check fails. A PLAN_SWAP is applied last. -/
def State.applyStaged (s : State) (h : Nat) (a : Action) : Except (BitVec 4) State :=
  match a with
  | .exchange x y => if s.exchangeOk x y then .ok (s.exchange x y) else .error acSegment
  | .withdraw k =>
    if (s.seg k).state = .withdrawing ∨ (s.channelOf k).isSome then .error acSegment
    else if (s.seg k).state = .invalid then .ok s
    else .ok (s.startWithdrawSeg k (Fin.ofNat 8192 k))
  | .heldWrite c dst n data =>
    match s.rangeIn h c dst n true with
    | some k => .ok (s.holdWrite h c k (dst - (s.seg k).va) data)
    | none => .error acSegment
  | .epoch => .ok (s.modHallKey h fun x => { x with epoch := x.epoch + 1 })
  | _ => .ok s

/-- The state after a recorded command: an INVOKE is accepted into its queue's backlog, a SIGNAL_FENCE sets its fence. -/
def State.applyRecorded (s : State) (h q g : Nat) (a : Action) : Except (BitVec 4) State :=
  match a with
  | .invoke hdr _ _ d waves seq =>
    if tileLimit s.timer.strideCode < d.tileBudget then .error acInvokeCheck
    else
      let v : Invocation :=
        { seq := seq, hdr := hdr, context := (s.queue h q).context, desc := d, waves := waves, commit := some g }
      .ok ((s.modQueue h q fun x => { x with backlog := x.backlog ++ [v] }).watchInvocation h q v)
  | .signal hdr n v => .ok ((s.setFence h n v).completeWith h q hdr .ok)
  | _ => .ok s

/-- Apply actions in order until one fails. -/
def applyAll (f : State → Action → Except (BitVec 4) State) : List Action → State → Except (BitVec 4) State
  | [], s => .ok s
  | a :: rest, s =>
    match f s a with
    | .ok t => applyAll f rest t
    | .error c => .error c

/-- The bound plan's swap, after the group's other actions (R74, R366). -/
def State.applySwap (s : State) (staged : List Action) : Except (BitVec 4 × Option PlanFail) State :=
  if staged.any Action.isSwap then
    match s.plan.pending with
    | some new =>
      match s.swapCheck new with
      | some f => .error (acPlan, some f)
      | none => .ok (s.swapIn new)
    | none => .error (acPlan, none)
  else .ok s

/-- The queue's COMMIT_CLOSE completes OK: its INVOKEs run next, or its next command (R361, R368). -/
def State.closeDone (s : State) (h q : Nat) (hdr : CmdHdr) : State :=
  let t := s.completeWith h q hdr .ok
  if (t.queue h q).backlog = [] then (t.modQueue h q fun x => { x with wait := .none }).nextCommand h q
  else (t.modQueue h q fun x => { x with wait := .invocation }).startBacklog h q

/-- A group's actions, commands and close, all applied; or the cause of its abort. -/
def State.tryGroup (s : State) (h g : Nat) : Except (BitVec 4 × Option PlanFail) State :=
  let c := s.cmt h g
  match applyAll (fun t a => t.applyStaged h a) c.staged s with
  | .error e => .error (e, none)
  | .ok t =>
    match applyAll (fun t a => t.applyRecorded h c.queue g a) c.recorded t with
    | .error e => .error (e, none)
    | .ok u =>
      match u.applySwap c.staged with
      | .error e => .error e
      | .ok v =>
        let v := v.modCmt h g fun x => { cause := x.cause }
        let v := { v with commit := { v.commit with
          applied := v.commit.applied.mod 0 h (fun n => (n + 1) % 65536),
          actionsApplied := v.commit.actionsApplied + c.actions } }
        .ok (v.closeDone h c.queue c.closeHdr)

/-- Apply a group or abort it with the cause of its failing check; a bound plan that fails reports why (R74, R369). -/
def State.applyGroup (s : State) (h g : Nat) : State :=
  match s.tryGroup h g with
  | .ok t => t
  | .error (cause, why) =>
    let t := s.abortGroup h g cause
    match why with
    | some f => { t with plan := t.plan.report f }
    | none => t

/-- The group is due: closed before the decision point, its hall ACTIVE (R364). -/
def State.groupDue (s : State) (k : Nat) (c : CmtGroup) : Bool :=
  c.state = .closed ∧ !c.late ∧ (s.hall (k / 64)).state = .active

/-- The groups due at a boundary, in close order, the one with a PLAN_SWAP last (R365). -/
def State.dueGroups (s : State) : List (Nat × CmtGroup) :=
  let l := ascending (fun e => e.2.closeSeq) (s.commit.groups.filter fun e => s.groupDue e.1 e.2)
  let swap (e : Nat × CmtGroup) : Bool := e.2.staged.any Action.isSwap
  l.filter (fun e => !swap e) ++ l.filter swap

/-- Apply the groups due as far as 16,384 actions reach: a group past the limit and every group closed after it wait
(R362). -/
def applyDue : List (Nat × CmtGroup) → Option Nat → State → State
  | [], _, s => s
  | (k, c) :: rest, stop, s =>
    if (stop.any fun x => x < c.closeSeq) then applyDue rest stop s
    else if 16384 < s.commit.actionsApplied + c.actions then applyDue rest (some c.closeSeq) s
    else applyDue rest stop (s.applyGroup (k / 64) (k % 64))

/-- The commit applications of a boundary (R73). -/
def State.applyCommits (s : State) : State :=
  let t := { s with commit := { s.commit with actionsApplied := 0 } }
  applyDue t.dueGroups none t

/-! ### HELD_WRITE_COMPLETE (R367) -/

/-- A hall's held lines that are still to be written, oldest first. -/
def State.heldLines (s : State) (h : Nat) : List HeldLine := s.commit.lines.filter fun l => l.hall == h

/-- The line's write can be made now: its group is not in a re-key band or locked, no earlier access still needs the
line. -/
def State.heldReady (s : State) (l : HeldLine) : Bool :=
  let g := l.line / 64
  let r := s.treeFor l.seg g
  let x := s.seg l.seg
  !s.inBand l.seg g ∧ !s.groupLocked l.seg g ∧ !s.slotRederiving (s.treeSlotNo r) ∧
    !s.earlierOn l.arrival true x.set (lineOf x.base l.line) ∧ !(s.overflows r l.line ∧ s.groupReading l.seg x.base g)

/-- The held line leaves the unit; accesses that waited for it go on. -/
def State.dropHeld (s : State) (l : HeldLine) : State :=
  ({ s with commit := { s.commit with lines := s.commit.lines.erase l } }).wake [.held]

/-- Write a held line whose leaf is known, as data or, for an uncorrectable held word, as poison (R384). -/
def State.writeHeld (s : State) (l : HeldLine) (ue : Bool) : State :=
  let r := s.treeFor l.seg (l.line / 64)
  ((s.putLine r (s.seg l.seg).base l.line (if ue then none else some (toLine l.data)) commitPort 0).1).dropHeld l

/-- HELD_WRITE_COMPLETE: the write of one held line of a hall is made; a line whose counter chain is not on die has it
fetched first, and a line of a LOST segment or below a lost marker has no contents to take. -/
def State.heldWriteComplete (s : State) (h index : Nat) (ue : Bool) : State :=
  match (s.heldLines h)[index]? with
  | none => s
  | some l =>
    let g := l.line / 64
    let r := s.treeFor l.seg g
    if (s.seg l.seg).state = .lost then s.dropHeld l
    else if !s.heldReady l then s
    else if (s.seg l.seg).mode = .sealed then
      match s.resolve r g with
      | .lost => s.dropHeld l
      | _ =>
        if s.absentLevels r g ≠ [] then s.fetchLevels r g (segHall l.seg) (s.absentLevels r g) else s.writeHeld l ue
    else s.writeHeld l ue

def execHeldWriteComplete (h : Fin 64) (index : Nat) (ue : Bool) (s : State) : Host.Outcome State Fault Refusal :=
  next ((if ue ∧ index < (s.heldLines h).length then s.raise Ev.sramUeHall { hall := some h.val } else s).heldWriteComplete
    h index ue).drainServed

end Sys2Proof.Machine
end

