-- ==== Sys2Proof/Machine/Halls.lean ====
section
/-! DEFINITION. Hall life (R132 to R137): the operator's TEARDOWN and RESUME, pauses, draining and scrubbing, and the
guilty reset of a queue (R177). -/

namespace Sys2Proof.Machine

/-! ### HALL_CMD (R133, R136, R137) -/

/-- HALL_STATE.cmd_result: 1 ACCEPTED, 2 REJECTED. -/
def State.hallResult (s : State) (h : Nat) (r : BitVec 4) : State := s.modHall h fun x => { x with cmdResult := r }

/-- A TEARDOWN of the hall is accepted (R133). -/
def State.teardownOk (s : State) (h : Nat) : Bool :=
  let st := (s.hall h).state
  h ≠ 0 ∧ (st = .awaitingTenant ∨ st = .active ∨ st = .paused)

/-- TEARDOWN: accepted, to begin at the first boundary whose decision point comes after it; a repetition changes nothing;
or rejected. -/
def State.cmdTeardown (s : State) (h : Nat) : State :=
  if s.teardownOk h then
    (s.modHall h fun x =>
      if x.teardown then x else { x with teardown := true, teardownLate := s.timer.decided }).hallResult h 1
  else s.hallResult h 2

/-- A RESUME of the hall is accepted (R137, R387). -/
def State.resumeOk (s : State) (h : Nat) : Bool :=
  let x := s.hall h
  x.state = .paused ∧ !x.teardown ∧ x.restore = [] ∧ !s.faults.fatal

/-- RESUME: the hall becomes ACTIVE at the next boundary, or the command is rejected. -/
def State.cmdResume (s : State) (h : Nat) : State :=
  if s.resumeOk h then (s.modHall h fun x => { x with resume := true }).hallResult h 1 else s.hallResult h 2

/-! ### Pauses (R132, R387) -/

/-- The invocations of a queue, the running one and those that a commit has had accepted, start no further tile and complete
PAUSED_RESTORE. -/
def State.pauseQueue (s : State) (h q : Nat) : State :=
  let paused (v : Invocation) : Invocation := { v.ungrant with paused := true }
  match (s.queue h q).inv with
  | none =>
    if (s.queue h q).backlog = [] then s
    else ((s.modQueue h q fun x => { x with backlog := x.backlog.map paused }).startBacklog h q).settle h q
  | some v =>
    ((s.modQueue h q fun x => { x with inv := some (paused v), backlog := x.backlog.map paused }).dropGrants h q v.seq).settle
      h q

/-- The hall is PAUSED: its engines are parked, its invocations end. -/
def State.enterPaused (s : State) (h : Nat) : State :=
  let t := s.modHall h fun x => { x with state := .paused, pauseCause := false, resume := false }
  forAll 256 (fun q u => u.pauseQueue h q) (t.stopEngines h)

/-- A hall becomes ACTIVE: it fetches what the doorbells recorded (R129, R137, R156). -/
def State.enterActive (s : State) (h : Nat) : State :=
  let t := s.modHall h fun x => { x with state := .active, resume := false, keysReady := false }
  forAll 256 (fun q u =>
    let x := u.queue h q
    if x.takesDoorbell ∧ x.armed ∧ x.doorbell ≠ x.readIndex then u.fireMonitor h q
    else if x.takesDoorbell ∧ x.readIndex ≠ x.writeIndex then u.fetchFrom h q
    else u) (t.releaseWatch h)

/-- A zeroised hall secret or host session key is still to be re-established. -/
def Hall.lostKeys (x : Hall) : Bool := x.restore.any fun o => match o with
  | .vault (.hallSecret _) | .vault (.hostKey _) => true
  | _ => false

/-- The pause, RESUME and activation of a hall that take effect at a boundary: new keys give the hall's segments their
slots (R264), and a pause cause or an object still to restore wins over a RESUME (R132, R137). Hall 0's zeroised keys are derived again (R255). -/
def State.boundaryHall (s : State) (h : Nat) : State :=
  let x := s.hall h
  let s := if x.keysReady then (s.giveSlots h).modHall h fun y => { y with keysReady := false } else s
  let s := if h = 0 ∧ x.lostKeys then s.installOperator else s
  let t :=
    if x.pauseCause then
      let u := if x.resume then s.hallResult h 2 else s
      if x.state = .active ∨ x.state = .awaitingTenant ∨ x.state = .paused then u.enterPaused h else u
    else if x.state = .paused ∧ x.resume then
      if x.restore = [] then s.enterActive h
      else (s.modHall h fun y => { y with resume := false }).hallResult h 2
    else if x.state = .awaitingTenant ∧ x.keysReady then s.enterActive h
    else s
  if t.faults.fatal ∧ h ≠ 0 ∧ (t.hall h).state = .active then
    (t.enterPaused h).modHall h fun y => { y with pauseFatal := true }
  else t

/-! ### DRAINING (R134) -/

/-- Every queue of the hall ends with RETIRED under a new generation (steps 1 and 4). -/
def State.drainQueues (s : State) (h : Nat) : State :=
  forAll 256 (fun q t =>
    if (t.queue h q).state = .absent then t.modQueue h q fun x => { x with gen := nextGen x.gen }
    else (t.stopQueue h q .retired).dropInner (migratePort h q)) s

/-- Every request of the hall that is outstanding retires (R40, step 4). -/
def State.retireHall (s : State) (h : Nat) : State :=
  forEach (s.engines.map Prod.fst) (fun p t => t.cutWhere p .retired fun d => d.hall = h) s

/-- Every commit group of the hall that holds actions aborts with TEARDOWN, and held lines are discarded (R133, R367,
R369). -/
def State.drainCommits (s : State) (h : Nat) : State :=
  let t := forAll 64 (fun g t => t.abortGroup h g acTeardown) s
  { t with commit := { t.commit with lines := t.commit.lines.filter fun l => l.hall != h } }

/-- The function's kernel ring is reset, its requests and translations have gone, under a new generation (R149, step 4). -/
def State.drainFunc (s : State) (h : Nat) : State := (s.bumpFunc h).modFunc h fun x => { gen := x.gen }

/-- The withdrawal of a segment entry starts with its hall's teardown, which keeps its backing (R214, R450). -/
def State.startTeardownSeg (s : State) (k : Nat) : State :=
  if (s.seg k).state = .valid ∨ (s.seg k).state = .lost then
    { s with xlat := { s.xlat with scrubs := s.xlat.scrubs ++ [s.scrubOf k true] } }.startWithdrawSeg k (Fin.ofNat 8192 k)
  else s

/-- Every segment and window entry of the hall begins its withdrawal (R214). -/
def State.drainEntries (s : State) (h : Nat) : State :=
  let t := forEach (hallSegs h) (fun k u => u.startTeardownSeg k) s
  forEach t.xlat.windows (fun e u =>
    if e.2.state = .valid ∧ e.2.ownerHall = h then u.startWithdrawWin (Fin.ofNat 4096 e.1) else u) t

/-- A hall that enters DRAINING: what was asked of it has lapsed. -/
def Hall.toDraining (x : Hall) : Hall :=
  { x with state := .draining, teardown := false, teardownLate := false, resume := false, pauseCause := false,
           pauseFatal := false, pauseBitmap := false, keysReady := false, drained := false, restore := [] }

/-- The hall leaves every group that it has joined (R134, step 3). -/
def State.leaveGroups (s : State) (h : Nat) : State := forEach (s.groupsOf h) (fun r u => u.leaveGroup r.group) s

/-- Content trace of the hall ends with it (R410). -/
def State.endContent (s : State) (h : Nat) : State :=
  { s with lc := { s.lc with contentActive := s.lc.contentActive &&& ~~~(1#64 <<< h) } }

/-- DRAINING begins (R134, steps 1 and 2): the hall takes no new entries, its engines are asked to give way, its open
commit groups abort (R133), and its re-keys admit no further group (R271). -/
def State.beginDrain (s : State) (h : Nat) : State :=
  let t := (((s.modHall h Hall.toDraining).stopEngines h).drainCommits h).endContent h
  forEach (hallSegs h) (fun k u => u.stopRekey k) t

/-- The engines have given way: none is in a tile of the hall, or still to acknowledge for it (R134, step 2). -/
def State.hallIdle (s : State) (h : Nat) : Bool :=
  s.engines.all fun e => (e.2.begun.map TileEntry.hall) != some h && !(e.2.preemptReq && (e.2.hall.map Prod.fst) == some h)

/-- Steps 3 and 4 of R134: the hall leaves its groups; then its queues and its function step their generations, what they
hold ends with RETIRED, every request outstanding retires, and the hall's generation steps. -/
def State.retireAllOf (s : State) (h : Nat) : State :=
  let t := ((((s.leaveGroups h).drainQueues h).drainFunc h).retireHall h).drainEntries h
  t.modHall h fun x => { x with gen := nextGen x.gen }

/-- The metadata and cache entries of a hall's segments go (step 8, R240). -/
def State.dropTrees (s : State) (h : Nat) : State :=
  { s with protect := { s.protect with
      cache := s.protect.cache.mapAll [] (fun _ l => l.filter fun e => e.hall != h),
      evicting := s.protect.evicting.filter (fun e => e.hall != h),
      roots := s.protect.roots.keep (fun k _ => segHall k ≠ h),
      segMeta := s.protect.segMeta.keep (fun k _ => segHall k ≠ h),
      overflows := s.protect.overflows.filter (fun o => segHall o.seg != h) } }

/-- A withdrawal concerns an entry of the hall. -/
def State.withdrawsOf (s : State) (h : Nat) (w : Withdrawal) : Bool :=
  match w.ref with
  | .segment k => segHall k == h
  | .window n => (s.win n).ownerHall == h
  | .host f _ => f.val == h

/-- The hall's re-keys are cancelled with their bands empty (R271). -/
def State.endRekeys (s : State) (h : Nat) : State :=
  forAll 16 (fun c u =>
    if (u.channel c).state ≠ .free ∧ (u.channel c).hall = h then
      (u.modChannel c fun x => { x with state := .cancelling, band := [] }).cancelRekey c
    else u) s

/-- Steps 5 to 8 of R134; every withdrawal of the hall completes (R214). -/
def State.endDrain (s : State) (h : Nat) : State :=
  let t := { s with xlat := { s.xlat with htc := s.xlat.htc.filter (fun e => e.func != h) } }
  let t := forEach (t.xlat.withdrawals.filter fun w => t.withdrawsOf h w)
    (fun w u => (u.withdrawEntry w.ref).dropWithdrawal w) (t.endRekeys h)
  ((t.zeroiseHall h).dropTrees h).modHall h fun x => { x with drained := true }

/-- HALL_DRAIN_END: the engines have left the hall's tiles, and the rest of the drain follows (R134, steps 3 to 8). -/
def State.drainEnd (s : State) (h : Nat) : State :=
  if (s.hall h).state = .draining ∧ !(s.hall h).drained ∧ s.hallIdle h then (s.retireAllOf h).endDrain h else s

def execHallDrainEnd (h : Fin 64) (s : State) : Host.Outcome State Fault Refusal := next (s.drainEnd h).drainServed

/-! ### SCRUBBING (R135) -/

/-- The backing of a hall that its teardown still scrubs. -/
def State.toScrub (s : State) (h : Nat) : List Scrub :=
  s.xlat.scrubs.filter fun x => x.teardown && segHall x.entry == h && s.scrubs x

/-- HALL_SCRUB.units_remaining (R147). -/
def State.unitsRemaining (s : State) (h : Nat) : Nat := ((s.toScrub h).map s.scrubUnits).sum

/-- SCRUBBING begins. -/
def State.beginScrub (s : State) (h : Nat) : State := s.modHall h fun x => { x with state := .scrubbing, drained := false }

/-- The scrub of a torn-down hall is over: no backing of it waits, and its fences are gone. -/
def State.endScrubs (s : State) (h : Nat) : State :=
  { s with
    xlat := { s.xlat with scrubs := s.xlat.scrubs.filter fun x => !(x.teardown && segHall x.entry == h) }
    fences := s.fences.keep (fun k _ => k / 4096 ≠ h) }

/-- HALL_SCRUB_COMPLETE: the last scrub write has completed and the hall is TORN_DOWN; its backing is free, and it holds no
queues or fences (R127, R135; what FW_QUEUE_STATUSq and FW_COMPLETIONq then show: log entry 82). Lines on a fenced port are
skipped. -/
def State.scrubComplete (s : State) (h : Nat) : State :=
  if (s.hall h).state ≠ .scrubbing ∨ (s.toScrub h).any (fun x => s.scrubLines x ≠ 0) then s
  else
    let t := forAll 256 (fun q u => u.modQueue h q fun x => { x with state := .absent, global := 0 }) (s.endScrubs h)
    t.modHall h fun x => { x with state := .tornDown }

def execHallScrubComplete (h : Fin 64) (s : State) : Host.Outcome State Fault Refusal := next (s.scrubComplete h)

/-! ### The guilty reset (R177) -/

/-- GUILTY_RESET: a queue that a boundary found GUILTY is reset; it is ACTIVE again and fetches what is written after. -/
def State.guiltyReset (s : State) (h q : Nat) : State :=
  if (s.queue h q).state ≠ .guilty then s
  else
    let t := (s.stopQueue h q .guiltyReset).retirePorts fun e => e.runs h q
    let t := t.modQueue h q fun x =>
      { x with state := .active,
               firstStatus := if x.firstStatus = 0 then Status.guiltyReset.code else x.firstStatus }
    t.raise Ev.guiltyReset
      { hall := some h, status := Status.guiltyReset.code, object := BitVec.ofNat 16 (s.queue h q).global.toNat }

def execGuiltyReset (h : Fin 64) (q : Fin 256) (s : State) : Host.Outcome State Fault Refusal :=
  next (s.guiltyReset h q).drainServed

end Sys2Proof.Machine
end

