-- ==== Sys2Proof/Machine/Stride.lean ====
section
/-! DEFINITION. The stride: steering by STRIDE_SYNC (R75 to R79), what a boundary does (R73), the publication of the
tenants' counters (R143, R146) and the telemetry records (R417). -/

namespace Sys2Proof.Machine

/-! ### STRIDE_SYNC (R75 to R79) -/

/-- The error e of an edge at local counter value `c` with sync delay `d` (R77). -/
def edgeError (code : BitVec 2) (d c : Nat) : Int :=
  if 2 * c < strideFclk code then (c : Int) - d else (c : Int) - strideFclk code - d

/-- The edge comes at least half a stride after the last accepted one (R76). -/
def Timer.spaced (t : Timer) (c : Nat) : Bool :=
  t.lastEdge.all fun c0 => (strideFclk t.strideCode : Int) ≤ 2 * ((c : Int) - c0)

/-- An accepted edge: its error is corrected within the clamp, and the rest is carried (R77, R78). The error is measured
against the local boundary, so it still holds every remainder not yet corrected; what slot 63 of this stride has taken is
already on its way (log entry 84). -/
def Timer.accept (t : Timer) (d c : Nat) : Timer :=
  let e := edgeError t.strideCode d c
  let left := e - t.taken
  let fix := clampTo (syncClamp t.strideCode) left
  let clamped := fix ≠ left
  { t with lastError := BitVec.ofInt 32 e, correction := fix, carry := left - fix, syncClamped := clamped,
           missedStrides := 0, lastEdge := some c, lastEdgeAge := 0, syncLost := t.syncLost && clamped }

/-- STRIDE_SYNC_EDGE: a follower accepts the edge or counts it as ignored; the other roles ignore it, and it is then no longer
to come as the first edge since a change of the length (R76). `c` is the local
stride counter and `recognised` says that the edge meets the recognition widths of R66. -/
def State.syncEdge (s : State) (c : Nat) (recognised : Bool) : State :=
  if !s.core.released then s
  else if s.timer.syncRole ≠ 2 then { s with timer := { s.timer with firstAfterLength := false } }
  else if recognised ∧ s.timer.spaced c ∧ !s.timer.firstAfterLength then
    { s with timer := s.timer.accept s.act.core.syncDelay c }
  else { s with timer := { s.timer with ignoredEdges := satAdd s.timer.ignoredEdges 1, firstAfterLength := false } }

def execStrideSyncEdge (c : Nat) (recognised : Bool) (s : State) : Host.Outcome State Fault Refusal :=
  next (s.syncEdge c recognised)

/-- A follower has accepted no edge for 4 strides, or has been clamped in 16 (R78). -/
def Timer.losesSync (t : Timer) : Bool := t.syncRole = 2 ∧ !t.syncLost ∧ (4 ≤ t.missedStrides.toNat ∨ 16 ≤ t.clampRun)

/-- SYNC_LOST: sync_lost is set and the DEGRADED event raised. -/
def State.loseSync (s : State) : State :=
  if s.timer.losesSync then ({ s with timer := { s.timer with syncLost := true } }).raise Ev.syncLost {} else s

def execSyncLost (s : State) : Host.Outcome State Fault Refusal := next s.loseSync

/-! ### degraded_pct (R146) -/

/-- The spans of a stride between the changes of its units: the changes that come after each, and its FCLK. -/
def changeSpans (len : Nat) : Nat → List (Nat × Nat) → List (List (Nat × Nat) × Nat)
  | start, [] => [([], len - start)]
  | start, x :: rest => (x :: rest, x.2 - start) :: changeSpans len x.2 rest

/-- A unit was in service before some changes of this stride. -/
def State.upBefore (s : State) (later : List (Nat × Nat)) (type index : Nat) : Bool :=
  s.inService type index != (later.countP (fun x => x.1 = (unitId type index).toNat) % 2 = 1)

/-- Units of a type, of `n`, that were in service before some changes. -/
def State.upCount (s : State) (later : List (Nat × Nat)) (type n : Nat) : Nat :=
  (List.range n).countP fun k => s.upBefore later type k

/-- Sixteenths of a memory port that fenced units removed: its pipes', or all where the port was fenced. -/
def State.portLoss (s : State) (m : Nat) (later : List (Nat × Nat)) : Nat :=
  if s.upBefore later 2 m then (List.range 16).countP fun j => !s.upBefore later 1 (16 * m + j) else 16

/-- What fenced units removed of 16 × need of a used link port: the port itself, or its upper lanes for the stride in force
(R300) and the egress pipes (R284). -/
def State.linkLoss (s : State) (n need : Nat) (later : List (Nat × Nat)) : Nat :=
  let lanes := if (s.link n).lanes = 8 then 8 else 16
  if s.upBefore later 4 n then 16 * need - lanes * min (2000000000 * s.upCount later 6 256) need else 16 * need

/-- Cluster-slots that fenced clusters removed of a hall's plan: those of the clusters in service are left, as the stride
spread them (R330). -/
def State.slotLoss (s : State) (h : Nat) (later : List (Nat × Nat)) : Nat :=
  let slots (x : Nat) := ((s.act.hallRec x).map HallRec.clusterSlots).getD 0
  let cs := (List.range 16).filter (s.upBefore (s.faults.changes.filter fun x => x.2 ≠ 0) 8)
  let m := cs.length
  let first := ((List.range h).map fun x => slots x * m / 16 % m).sum
  slots h - ((List.range m).map fun i =>
    if s.upBefore later 8 ((cs[i]?).getD 0) then slotsIn (slots h * m / 16) first m i else 0).sum

/-- 256ths of the CHUNK frames that fenced group-key units removed (R329). -/
def State.keyLoss (s : State) (later : List (Nat × Nat)) : Nat := 256 - min (s.upCount later 9 256) (s.upCount later 0xA 256)

/-- The fraction of a resource's share that was removed over the stride, as a percentage, rounded up; `f` gives what was
removed of `whole` in each span. -/
def State.lostPct (s : State) (whole : Nat) (f : List (Nat × Nat) → Nat) : Nat :=
  let len := s.strideLen
  ceilDiv (100 * ((changeSpans len 0 s.faults.changes).map fun x => f x.1 * x.2).sum) (whole * len)

/-- degraded_pct of a hall: the largest loss over the resources in which it holds a share. -/
def State.degraded (s : State) (h : Nat) : Nat :=
  let r := s.rec_ h
  let need := max 1 s.pipeNeed
  let mem := (List.range 48).map fun m => if s.act.onPort h m then s.lostPct 16 (s.portLoss m) else 0
  let links := (List.range 20).map fun n =>
    if s.linkUsed n ∧ (0 < r.linkUnits ∨ r.cls = .shared) then s.lostPct (16 * need) (s.linkLoss n need) else 0
  let red := if 0 < r.clusterSlots then s.lostPct r.clusterSlots (s.slotLoss h) else 0
  let keys := if (s.groupsOf h).any GroupRec.reduces then s.lostPct 256 s.keyLoss else 0
  min 100 ((mem ++ links ++ [red, keys]).foldl max 0)

/-! ### Publication (R143) and telemetry (R417) -/

/-- Publish every hall's counters and the state of the stride just ended; `number` is the new stride's. -/
def State.publish (s : State) (number : Word) : State :=
  { s with halls := s.halls.mapAll {} fun h (x : Hall) =>
      if x.state = HallState.absent then x
      else { x with shown := x.live, publishedStride := number, throttledShown := s.timer.throttle,
                    degradedShown := BitVec.ofNat 8 (s.degraded h), adderOpsShown := x.adderOps, adderOps := 0 } }

/-- The ten counters as 8-byte fields, in the order of R144. -/
def Counters.fields (c : Counters) : List Nat :=
  [c.invocations, c.tiles, c.slots, c.linesRead, c.linesWritten, c.counterMisses, c.framesSent, c.htcMisses,
   c.wmZeroReads, c.faults]

/-- The telemetry record of a hall for stride `n`, after its publication. -/
def State.telemRecord (s : State) (n : Word) (h : Nat) : List Byte :=
  let x := s.hall h
  let flags := x.state.code + 16 * x.cls.toNat + (if x.throttledShown then 64 else 0) + if s.faults.fatal then 128 else 0
  leBytes 8 n.toNat ++ leBytes 1 h ++ leBytes 1 flags ++ leBytes 2 x.gen.toNat ++ [x.degradedShown, 0] ++
    leBytes 2 (if h = 0 then s.gallery.watts.toNat else 0) ++ List.replicate 48 0 ++
    (x.shown.fields.flatMap fun v => leBytes 8 v) ++
    ((List.range 48).flatMap fun m => leBytes 8 (Tab.get 0 (s.memPort m).used h)) ++
    ((List.range 20).flatMap fun p => leBytes 4 ((List.range 8).map fun v => (s.link p).sentOn h v).sum) ++
    ((List.range 20).flatMap fun p => leBytes 4 (Tab.get 0 (s.link p).recv h)) ++
    leBytes 8 x.adderOpsShown ++
    leBytes 2 (s.queues.countP fun e => e.1 / 256 = h ∧ e.2.state = QState.active) ++
    leBytes 2 (s.slotsHeld h) ++ leBytes 2 (s.htcHeld h) ++ leBytes 2 (s.windowsHeld h) ++ List.replicate 40 0

/-- Records not written within their stride are dropped, and those of the stride just ended are taken (R417). -/
def State.takeTelemetry (s : State) (ended : Word) : State :=
  let g := s.gallery
  let exist := (List.range 64).filter fun h => (s.hall h).state ≠ .absent
  { s with gallery := { g with
      telemDropped := satAdd g.telemDropped g.telemRecords.length, telemStride := ended,
      telemRecords := if g.enable then exist.map fun h => (h, s.telemRecord ended h) else [] } }

/-- The pseudo port on which telemetry records are written. -/
def telemPort : Nat := 20001

/-- Offset of a hall's record within the telemetry segment. -/
def Gallery.telemOffset (g : Gallery) (h : Nat) : Nat :=
  g.unitOffset.toNat * 2 ^ 21 + (g.telemStride.toNat % max 1 g.depth.toNat * 64 + h) * 1024

/-- The ring lies within a segment that is VALID. -/
def Gallery.ringFits (g : Gallery) (x : Segment) : Bool :=
  x.state = .valid ∧ g.unitOffset.toNat * 2 ^ 21 + max 1 g.depth.toNat * 65536 ≤ x.size * 2 ^ 21

/-- A record fits in the stride: it takes 4 FCLK of a memory port, and hall 0's memory time there still holds its 16 lines
(R20). -/
def State.telemFits (s : State) (h : Nat) : Bool :=
  let g := s.gallery
  let x := s.seg (segNo 0 g.context.toNat g.segment.toNat)
  s.timer.fclk.toNat + 4 ≤ s.strideLen ∧
    (x.mode = .wm ∨ s.canSpend (s.portAt x.set (x.base * 2 ^ 15 + g.telemOffset h / 64)) 0 16 [])

/-- Write one hall's record as full lines under hall 0's key and memory time, or drop it. -/
def State.writeTelemetry (s : State) (h : Nat) (rec : List Byte) : State :=
  let g := s.gallery
  let k := segNo 0 g.context.toNat g.segment.toNat
  if g.ringFits (s.seg k) then
    let t := s.startSeg telemPort
      { tag := 64 * (g.telemStride.toNat % 1024) + h, kind := 0, write := true, hall := 0, hallGen := (s.hall 0).gen,
        context := g.context.toNat, index := g.segment.toNat, address := g.telemOffset h, length := 1024,
        beats := beatsOf (g.telemOffset h) rec, wait := .lines, seg := k }
    { t with gallery := { t.gallery with telemWritten := t.gallery.telemWritten + 1 } }
  else { s with gallery := { g with telemDropped := satAdd g.telemDropped 1 } }

/-- TELEMETRY_WRITE: every record of the last stride that fits in this one is written or dropped; the others stay, and are
dropped at its end (R20, R417). -/
def State.telemetryWrite (s : State) : State :=
  forEach s.gallery.telemRecords (fun x t =>
    if t.gallery.ringFits (t.seg (segNo 0 t.gallery.context.toNat t.gallery.segment.toNat)) ∧ !t.telemFits x.1 then
      { t with gallery := { t.gallery with telemRecords := t.gallery.telemRecords ++ [x] } }
    else t.writeTelemetry x.1 x.2)
    { s with gallery := { s.gallery with telemRecords := [] } }

def execTelemetryWrite (s : State) : Host.Outcome State Fault Refusal := next s.telemetryWrite.drainServed

/-! ### What a boundary counts -/

/-- The timer at the start of the new stride. -/
def Timer.advance (t : Timer) (throttle : Bool) : Timer :=
  let missed := t.lastEdge.isNone ∨ 0 < t.lastEdgeAge
  { t with strideNum := t.strideNum + 1, fclk := 0, slot := 0, throttle := throttle,
           missedStrides := if t.syncRole = 2 ∧ missed then satAdd t.missedStrides 1 else t.missedStrides,
           lastEdgeAge := t.lastEdgeAge + 1, taken := 0,
           lastEdge := t.lastEdge.map fun c => c - ((strideFclk t.strideCode : Int) + t.taken), clampRun := if t.clampedThis then t.clampRun + 1 else 0,
           clampedThis := false, noCorrection := false, swapStride := false, slot63Decided := false, decided := false }

/-- A queue waits on the chunk or done fence of a collective of its hall that is in flight (R176). -/
def State.collFence (s : State) (h n : Nat) : Bool :=
  s.groups.any fun e => e.2.ops.any fun o => o.hall == h && (o.chunkFence == n || o.doneFence == n)

/-- One stride of every queue that waits on a fence (R176). -/
def State.countHangs (s : State) : State :=
  { s with queues := s.queues.mapAll {} fun k (x : Queue) =>
      match x.wait with
      | .fence n _ _ =>
        if x.fenceChanged then { x with hang := 0, fenceChanged := false }
        else if (s.hall (k / 256)).state = HallState.paused ∨ s.collFence (k / 256) n then x
        else { x with hang := x.hang + 1 }
      | _ => x }

/-- Queues whose count has reached hang_strides are GUILTY (R176). -/
def State.findGuilty (s : State) : State :=
  { s with queues := s.queues.mapAll {} fun _ (x : Queue) =>
      match x.wait with
      | .fence _ _ _ =>
        if x.state = QState.waiting ∧ s.act.core.hangStrides ≤ x.hang then { x with state := .guilty } else x
      | _ => x }

/-- A port's ages, and its use of the stride that ended. -/
def MemPort.nextStride (x : MemPort) : MemPort :=
  { x with outstanding := x.outstanding.map (fun r => { r with age := r.age + 1 }),
           ues := (x.ues.map (· + 1)).filter (· < 16), used := [] }

/-- The lanes that a port's F takes up at a boundary: those of its width, and 8 while its lane group is fenced (R300). -/
def lanesOf (width : BitVec 2) (group : Bool) : Nat := if width = 0 then 0 else if width = 2 ∧ group then 16 else 8

/-- A link port's ages, its new lanes and retrain stride, and its use of the stride that ended (R213, R300, R301). -/
def Link.nextStride (n : Nat) (used group : Bool) (number : Word) (l : Link) : Link :=
  let older (r : WinReqOut) : WinReqOut := if r.started then { r with age := r.age + 1 } else r
  { l with spent := [], sent := [], recv := [], lanes := lanesOf l.width group, reqs := l.reqs.map older,
           offerAge := if l.offerOut.isSome then l.offerAge + 1 else 0,
           downAge := if used ∧ l.width = 0 then l.downAge + 1 else 0,
           retrainAge := l.retrainAge.map (· + 1),
           retrainDue := used && number.toNat % 4096 == 200 * n }

/-- One stride of every link port. -/
def State.countLinks (s : State) : State :=
  forAll 20 (fun n u => u.modLink n (Link.nextStride n (s.linkUsed n) (s.inService 5 n) s.timer.strideNum)) s

/-- One stride of a group: its wait for a key, and its operations' waits. -/
def Group.nextStride (r : Option GroupRec) (x : Group) : Group :=
  { x with admAge := if x.state = GroupState.admitting then x.admAge + 1 else x.admAge,
           ops := match r with
             | some r => x.ops.map fun o => o.countWaits r
             | none => x.ops }

/-- One stride of every memory port, withdrawal, group and message. -/
def State.countTables (s : State) : State :=
  { s with
    ports := s.ports.mapAll {} fun _ x => x.nextStride
    faults := { s.faults with changes := [] }
    reduce := { s.reduce with ues := s.reduce.ues.mapAll [] fun _ l => (l.map (· + 1)).filter (· < 16) }
    xlat := { s.xlat with withdrawals := s.xlat.withdrawals.map fun w => { w with age := w.age + 1 } }
    groups := s.groups.mapAll {} fun g (x : Group) => x.nextStride (s.groupRec g)
    mgmtMsgs := s.mgmtMsgs.map fun m => { m with age := m.age + 1 } }

/-- Every count of strides, and every table of what a stride has used. -/
def State.countStride (s : State) : State := s.countLinks.countTables

/-- One stride of the debug rights' limit (R412). -/
def LifeCycle.countStride (l : LifeCycle) : LifeCycle :=
  if l.rights ≠ 0 ∧ l.limitLeft ≠ 0xFFFFFFFF ∧ l.limitLeft ≠ 0 then { l with limitLeft := l.limitLeft - 1 } else l

/-! ### What takes effect at a boundary -/

/-- Bounce epochs and tag table bases that tenants have asked for are in force (R272, R277). -/
def State.takeEpochs (s : State) : State :=
  { s with vault := { s.vault with
      halls := s.vault.halls.mapAll {} fun _ (x : HallKey) =>
        { x with epoch := x.epoch + BitVec.ofNat 32 x.epochReq, epochReq := 0,
                 bases := x.basesReq.foldl (fun t e => t.set 0 e.1 e.2) x.bases, basesReq := [] } } }

/-- The watched invocation goes on as its fall-back; its primary's begun tiles run on beside it (R192). -/
def Invocation.fallBack (v : Invocation) (r : DlRec) (d : DescRead) : Invocation :=
  { v with desc := parseDesc d.desc, waves := waveList (parseDesc d.desc) d.waves, wave := 0, tiles := [], done := 0,
           old := v.tiles.keep (fun _ t => t.phase.isBegun), oldRetries := v.desc.retries,
           context := r.fallbackContext, fallback := true, failed := false, stopped := false, torn := false, reason := 0 }

/-- The fall-back's check failed: no tile of it runs, and the INVOKE completes with that check's reason (R192). -/
def Invocation.noFallback (v : Invocation) (reason : Byte) : Invocation :=
  { v.ungrant with fallback := true, failed := true, reason := reason }

/-- Change the invocation that a hall's monitor watches, in its queue or in its commit's backlog. -/
def State.modWatched (s : State) (h : Nat) (f : Invocation → Invocation) : State :=
  let m := s.deadline h
  let g (v : Invocation) : Invocation := if v.seq = m.seq then f v else v
  s.modQueue h m.queue fun x => { x with inv := x.inv.map g, backlog := x.backlog.map g }

/-- The deadline monitor's switch at a boundary (R191 to R193): the fall-back descriptor passes and its tiles are ready,
or the INVOKE completes FALLBACK_USED with the failing check's reason once its begun tiles have ended. -/
def State.switchFallback (s : State) (h : Nat) : State :=
  let m := s.deadline h
  let q := m.queue
  match m.state, m.watch, s.watchedInv h, m.switchDue with
  | .watching, some r, some v, some cause =>
    if (s.hall h).state ≠ .active ∨ v.paused then s.modDeadline h fun d => { d with switchDue := none, fallbackRead := none }
    else
      let d := m.fallbackRead.getD { descStatus := Status.refused.code, desc := 0, waveStatus := 0, waves := [] }
      let t := s.noteDesc h r.fallbackContext r.fallbackVa d
      let t := (t.modDeadline h fun x =>
        { x with state := .fallingBack, switchDue := none, cause := cause, slack := 0, fallbackRead := none,
                 fallbacks := satAdd x.fallbacks 1 }).dropGrants h q v.seq
      match t.invokeCheck h r.fallbackContext r.fallbackVa d true with
      | none => (t.modWatched h fun x => x.fallBack r d).contextSettled h v.context
      | some (reason, _) => (t.modWatched h fun x => x.noFallback reason).settle h q
  | _, _, _, _ => s

/-- A hall's own step at a boundary, after the commits and the swap (R129, R132 to R135): a drained hall begins to scrub,
an accepted teardown to drain; otherwise its pause, RESUME or activation takes effect. -/
def State.hallBoundary (s : State) (h : Nat) : State :=
  let x := s.hall h
  if x.state = .draining then if x.drained then s.beginScrub h else s
  else if x.teardown ∧ !x.teardownLate then s.beginDrain h
  else s.boundaryHall h

/-- Every begun tile has been in the last slot of the stride that ends (R144). -/
def State.endSlots (s : State) : State := forAll 256 (fun p t => t.countSlots p 63) s

/-- Every tile that is still begun is in slot 0 of the new stride. -/
def State.startSlots (s : State) : State :=
  forAll 256 (fun p t =>
    match (t.engine p).begun with
    | some e => (t.countHall e.hall fun c => { c with slots := c.slots + 1 }).modEngine p fun x => { x with counted := 0 }
    | none => t) s

/-- What arrived after the decision point counts for the next boundary. -/
def State.clearLate (s : State) : State :=
  { s with
    halls := s.halls.mapAll {} fun _ (x : Hall) => { x with teardownLate := false }
    commit := { s.commit with groups := s.commit.groups.mapAll {} fun _ (c : CmtGroup) => { c with late := false } } }

/-- Core power over the stride that ends, a free value (R413). -/
def State.sampleWatts (s : State) : State :=
  { s.useFree with gallery := { s.gallery with watts := BitVec.ofNat 16 s.freeValue.toNat } }

/-- The stride number, the timer and the life cycle's stride counts move on. -/
def State.advance (s : State) (throttle : Bool) : State :=
  { s with timer := s.timer.advance throttle, lc := s.lc.countStride }

/-- The first part of a boundary: the number, STRIDE_OUT, the publication and telemetry of the stride that ended, the
throttle of the new one, and every count of strides. Core power is a free value (log entry 10). -/
def State.openStride (s : State) : State :=
  let ended := s.timer.strideNum
  let throttle : Bool := s.timer.thermLow && s.plan.active.isSome
  let t := ((s.emit (.strideOut true)).endSlots.publish (ended + 1)).startSlots
  ((t.sampleWatts.takeTelemetry ended).advance throttle).countStride.countHangs

/-- The second part: the re-key switches and requested epochs, the commit groups, the plan swap (R73), then what the halls
and the monitors do. -/
def State.applyBoundary (s : State) : State :=
  let t := forAll 16 (fun c u => u.switchRekey c) s
  let t := t.takeEpochs.applyCommits.swapDue
  let t := { t with timer := { t.timer with throttle := t.timer.thermLow && t.plan.active.isSome } }
  let t := forAll 64 (fun h u => u.hallBoundary h) t
  let t := t.findGuilty.clearLate
  forAll 64 (fun h u => u.switchFallback h) t

/-- The third part: the new stride's shares are in force, and what waited for them goes on. -/
def State.serveStride (s : State) : State :=
  let t := s.spreadSlots.countQuiet
  let t := forAll 48 (fun m u => u.pumpPort m) t
  (t.retryRed.wake [.rekey]).drainServed

/-- STRIDE_BOUNDARY. A boundary that no decision for slot 0 preceded takes the decisions itself (log entry 47). -/
def State.strideBoundary (s : State) : State :=
  if !s.core.released then s
  else ((if s.timer.decided then s else s.decisionPoint false []).openStride).applyBoundary.serveStride

def execStrideBoundary (s : State) : Host.Outcome State Fault Refusal := next s.strideBoundary

end Sys2Proof.Machine
end

