-- ==== Sys2Proof/Machine/Life.lean ====
section
/-! DEFINITION. The life cycle: OTP groups (R395, R396), transitions and OTP commands (R397 to R402), debug certificates and
rights (R410 to R412), and the Gallery's trace (R413 to R415). -/

namespace Sys2Proof.Machine

/-! ### OTP (R395, R396) -/

/-- An OTP word as last read or programmed. -/
def LifeCycle.word (l : LifeCycle) (w : Nat) : BitVec 32 := Tab.get 0 l.otp w

/-- Programmed bits of life-cycle group `k`. -/
def LifeCycle.groupBits (l : LifeCycle) (k : Nat) : Nat := popCount 4 (bits (l.word 10) (4 * k + 3) (4 * k))

/-- Programmed bits of the epoch group. -/
def LifeCycle.epochBits (l : LifeCycle) : Nat := popCount 4 (bits (l.word 11) 3 0)

/-- A group reads set, or torn, by its programmed bits. -/
def groupSet (n : Nat) : Bool := 3 ≤ n
def groupTorn (n : Nat) : Bool := n = 1 ∨ n = 2

/-- The life-cycle word holds an encoding that no sequence of transitions leaves. -/
def LifeCycle.illegal (l : LifeCycle) : Bool :=
  ([4, 5, 6].any fun k => l.groupBits k ≠ 0) ||
    (List.range 4).any fun k => groupSet (l.groupBits k) && (List.range k).any fun j => !groupSet (l.groupBits j)

/-- The state that the life-cycle word spells. -/
def LifeCycle.decode (l : LifeCycle) : LcState :=
  if groupSet (l.groupBits 7) ∨ l.illegal then .scrap
  else
    match (List.range 4).reverse.find? fun k => groupSet (l.groupBits k) with
    | some 3 => .returned
    | some 2 => .fielded
    | some 1 => .provisioned
    | some _ => .test
    | none => .blank

/-- The target of an interrupted transition (R401). -/
def LifeCycle.tornState (l : LifeCycle) : Option LcState :=
  if groupTorn (l.groupBits 7) then some .scrap
  else if groupTorn l.epochBits then some .returned
  else
    match (List.range 4).find? fun k => groupTorn (l.groupBits k) with
    | some 3 => some .returned
    | some 2 => some .fielded
    | some 1 => some .provisioned
    | some _ => some .test
    | none => none

/-- The 48 bytes of the authority key hash whose first word is `w` (R395). -/
def LifeCycle.hashAt (l : LifeCycle) (w : Nat) : List Byte := (List.range 12).flatMap fun i => leBytes 4 (l.word (w + i)).toNat

/-- The root seed as OTP holds it. -/
def LifeCycle.seed (l : LifeCycle) : BitVec 256 :=
  BitVec.ofNat 256 (leNat ((List.range 8).flatMap fun i => leBytes 4 (l.word (2 + i)).toNat))

/-- The root seed in use in a state (R398). -/
def LifeCycle.seedInUse (l : LifeCycle) : Option (BitVec 256) :=
  match l.state with
  | .blank | .scrap => none
  | .test => some 0
  | .provisioned | .fielded | .returned => some l.seed

/-- Group 7 is set: the MP accepts no mailbox request (R402). -/
def LifeCycle.scrapped (l : LifeCycle) : Bool := groupSet (l.groupBits 7)

/-! ### Programming (R64, R397, R399, R402) -/

/-- The bits of a group that still read 0, lowest first; `lo` is its lowest bit in word `w`. -/
def LifeCycle.groupZeros (l : LifeCycle) (w lo : Nat) : List (Nat × Nat) :=
  ((List.range 4).map fun i => (w, lo + i)).filter fun b => !bit (l.word b.1) b.2

/-- Every bit of the seed words, in order. -/
def seedBits : List (Nat × Nat) := (List.range 8).flatMap fun i => (List.range 32).map fun j => (2 + i, j)

/-- The seed bits that still read 0. -/
def LifeCycle.seedZeros (l : LifeCycle) : List (Nat × Nat) := seedBits.filter fun b => !bit (l.word b.1) b.2

/-- The bits that a transition programs, in order (R399, R401). `fresh` gives the random words of a new seed. -/
def LifeCycle.transitionBits (l : LifeCycle) (target : LcState) (fresh : Nat → BitVec 64) : List (Nat × Nat) :=
  match target with
  | .blank => []
  | .test => l.groupZeros 10 0
  | .provisioned =>
    (if l.torn then [] else
      l.seedZeros.filter fun b => bit (fresh ((b.1 - 2) / 2)) (32 * ((b.1 - 2) % 2) + b.2)) ++ l.groupZeros 10 4
  | .fielded => l.groupZeros 10 8
  | .returned => l.groupZeros 11 0 ++ l.groupZeros 10 12
  | .scrap => l.groupZeros 10 28 ++ l.seedZeros

/-- Zeroise the key material of every Vault store (R402, R412). -/
def State.zeroiseVault (s : State) : State :=
  { s with
    vault := { s.vault with
      rootSeed := none, rootShown := false, epochRoot := none, identity := none, linkIdentity := none, rederiving := [],
      slots := s.vault.slots.mapAll {} fun _ (x : Slot) => { x with k1 := 0, k2 := 0 },
      halls := s.vault.halls.mapAll {} fun _ (x : HallKey) => { x with secret := none, hostKey := none } }
    links := s.links.mapAll {} fun _ (l : Link) =>
      { l with egressKey := none, ingressKey := none, oldEgress := none, oldIngress := none }
    groups := s.groups.mapAll {} fun _ (g : Group) => { g with key := none, delivery := none, rounding := none } }

/-- The last bit of a job is programmed: a transition awaits MGMT_RST_N (R402). -/
def State.otpJobDone (s : State) (target : Option LcState) : State :=
  { s with lc := { s.lc with job := none, pending := s.lc.pending || target.isSome,
                             noKeys := s.lc.noKeys || target == some .returned } }

/-- Start to program some bits: the first goes to the OTP port. -/
def State.startOtp (s : State) (job : List (Nat × Nat)) (target : Option LcState) : State :=
  match job with
  | [] => s.otpJobDone target
  | (w, b) :: _ => ({ s with lc := { s.lc with job := some { bits := job, target := target } } }).emit (.otpProgram w b)

/-- OTP_BIT_PROGRAMMED: the bit reads 1; once group 7 is set in a transition to SCRAP, the Vault is zeroised. -/
def State.otpBitDone (s : State) : State :=
  match s.lc.job with
  | some { bits := (w, b) :: rest, target := target } =>
    let t := { s with lc := { s.lc with otp := s.lc.otp.mod 0 w fun x => x ||| (1#32 <<< b) } }
    let t := if target = some .scrap ∧ t.lc.scrapped ∧ !s.lc.scrapped then t.zeroiseVault else t
    t.startOtp rest target
  | _ => s

def execOtpBitProgrammed (s : State) : Host.Outcome State Fault Refusal := next s.otpBitDone

/-- OTP_PROG_FAIL: a bit program failed; the transition ends (R64, R400). -/
def State.otpFailed (s : State) : State :=
  match s.lc.job with
  | some _ => ({ s with lc := { s.lc with job := none, result := 6 } }).raise Ev.otpProgFail {}
  | none => s

def execOtpProgFail (s : State) : Host.Outcome State Fault Refusal := next s.otpFailed

/-! ### LC_TRANSITION and LC_OTP_CMD (R397, R399, R400) -/

/-- The target that a state permits besides SCRAP (R399). -/
def LcState.nextState : LcState → Option LcState
  | .blank => some .test
  | .test => some .provisioned
  | .provisioned => some .fielded
  | .fielded => some .returned
  | .returned | .scrap => none

/-- Serial and all three hashes are non-zero. -/
def LifeCycle.provisionable (l : LifeCycle) : Bool :=
  (l.word 0 ≠ 0 ∨ l.word 1 ≠ 0) ∧ [12, 24, 36].all fun w => !allZero (l.hashAt w)

/-- The result of a write of a target: the first code of R400 that applies, in the order of their numbers (log entry 51). -/
def State.transitionResult (s : State) (target : Option LcState) : BitVec 4 :=
  let l := s.lc
  match target with
  | none => 1
  | some t =>
    if l.state = .scrap ∨ (t ≠ .scrap ∧ l.state.nextState ≠ some t) then 1
    else if l.job.isSome ∨ l.pending then 2
    else if l.torn ∧ t ≠ .scrap ∧ l.tornTarget.toNat ≠ t.code then 3
    else if t = .returned ∧ (List.range 64).any (fun h => h ≠ 0 ∧ (s.hall h).state.live) then 4
    else if (t = .provisioned ∧ !l.provisionable) ∨ (t = .fielded ∧ !l.certsOk) then 5
    else 0

/-- LC_TRANSITION: the transition starts, or the write is refused with a result code. -/
def State.transition (s : State) (code : BitVec 3) : State :=
  if s.lc.mp = .reset then s
  else
    let target := LcState.ofCode code
    let r := s.transitionResult target
    let t := { s with lc := { s.lc with result := r } }
    match target with
    | some x =>
      if r = 0 then
        let fresh (i : Nat) : BitVec 64 := Config.freeValue (s.freeCtr + i)
        let u := if x = .provisioned then { t with freeCtr := t.freeCtr + 4 } else t
        u.startOtp (t.lc.transitionBits x fresh) (some x)
      else t
    | none => t

/-- OTP words that LC_OTP_CMD may program (R397). -/
def otpWordOk (w : Nat) : Bool := w ≤ 1 ∨ (12 ≤ w ∧ w ≤ 47)

/-- LC_OTP_CMD: the 1 bits of the data are programmed into the word, or the write is refused. -/
def State.otpCmd (s : State) (w : Nat) (data : BitVec 32) : State :=
  if s.lc.mp = .reset then s
  else if s.lc.state ≠ .test ∨ !otpWordOk w then { s with lc := { s.lc with result := 1 } }
  else if s.lc.job.isSome ∨ s.lc.pending then { s with lc := { s.lc with result := 2 } }
  else
    ({ s with lc := { s.lc with result := 0 } }).startOtp
      (((List.range 32).filter fun b => bit data b).map fun b => (w, b)) none

/-! ### Debug certificates and rights (R410 to R412) -/

/-- The fields of a debug certificate. -/
structure DebugCert where
  magicOk : Bool
  serial : Word
  nonce : List Byte
  rights : Nat
  contentHalls : Word
  limit : BitVec 32
  reserved : Nat
  authKey : List Byte
deriving DecidableEq, Repr

/-- Read a debug certificate. -/
def parseCert (b : List Byte) : DebugCert where
  magicOk := leAt b 0 4 = 0x47424447
  serial := BitVec.ofNat 64 (leAt b 4 8)
  nonce := slice b 12 32
  rights := leAt b 44 4
  contentHalls := BitVec.ofNat 64 (leAt b 48 8)
  limit := BitVec.ofNat 32 (leAt b 56 4)
  reserved := leAt b 60 4
  authKey := slice b 64 96

/-- SHA-384 of a byte string, as bytes. -/
def digestOf (b : List Byte) : List Byte := sha384 b

/-- The first failing check of R411 by its reason: 1 STATE, 2 SIGNATURE, 3 BINDING, 4 FIELD; 0 passes. `sigOk` is the
outcome of the signature's verification under auth_key. -/
def LifeCycle.certCheck (l : LifeCycle) (c : DebugCert) (sigOk : Bool) : Byte :=
  if l.torn ∨ !(l.state = .provisioned ∨ l.state = .fielded ∨ l.state = .returned) then 1
  else if digestOf c.authKey ≠ l.hashAt 36 ∨ !sigOk then 2
  else if c.serial ≠ l.serial ∨ c.nonce ≠ l.nonce.flatMap (fun w => leBytes 8 w.toNat) then 3
  else if !c.magicOk ∨ 16 ≤ c.rights ∨ c.reserved ≠ 0 ∨ (c.rights.testBit 2 ∧ l.state ≠ .returned) ∨
      (c.contentHalls ≠ 0) ≠ c.rights.testBit 3 then 4
  else 0

/-- Every debug right ends (R412). -/
def LifeCycle.endRights (l : LifeCycle) : LifeCycle :=
  { l with rights := 0, limitLeft := 0, contentAsked := 0, contentActive := 0, certDigest := [], scanOpen := false }

/-- Every debug right in force ends. -/
def State.endRights (s : State) : State := { s with lc := s.lc.endRights }

/-- A certificate that passes replaces the one in force; TEST_SCAN zeroises the Vault and closes the OTP read path. -/
def State.takeCert (s : State) (b : List Byte) : State :=
  let c := parseCert b
  let scan := c.rights.testBit 2
  let t := { s with lc := { s.lc.endRights with
    rights := BitVec.ofNat 4 c.rights, limitLeft := if c.limit = 0 then 0xFFFFFFFF else c.limit,
    contentAsked := c.contentHalls, certDigest := digestOf b, scanOpen := scan, otpClosed := s.lc.otpClosed || scan } }
  if scan then t.zeroiseVault else t

/-- DEBUG_RIGHTS_EXPIRY: limit_strides strides have passed. -/
def State.rightsExpire (s : State) : State :=
  if s.lc.rights ≠ 0 ∧ s.lc.limitLeft = 0 then s.endRights else s

def execDebugRightsExpiry (s : State) : Host.Outcome State Fault Refusal := next s.rightsExpire

/-- A right of the operator: granted by the certificate in force, or GAL_FINE and GAL_TRACE_EXT in TEST (R398). -/
def State.debugRight (s : State) (i : Nat) : Bool := bit s.lc.rights i ∨ (s.lc.state = .test ∧ i < 2)

/-! ### Trace packets (R414, R415) -/

/-- The 64 bytes of a trace packet. -/
def Packet.bytes (p : Packet) : List Byte :=
  ([p.type, p.hall] ++ leBytes 2 p.hallGen.toNat ++ leBytes 4 p.seq.toNat ++ leBytes 8 p.stride.toNat ++
    leBytes 4 p.offset.toNat ++ p.body ++ List.replicate 44 0).take 64

/-- The type is enabled, and the rights of R413 allow it. -/
def State.traceAllowed (s : State) (type hall : Nat) : Bool :=
  1 ≤ type ∧ type ≤ 10 ∧ bit s.gallery.types (type - 1) ∧
    (type ≤ 7 ∨ (type ≤ 9 ∧ s.debugRight 1) ∨ (type = 10 ∧ hall < 64 ∧ bit s.lc.contentActive hall))

/-- The buffer has room for one more packet (R86). -/
def Gallery.room (g : Gallery) : Bool := g.buffer.length + g.foreign.length < 256

/-- With route 1, 15 packets leave together as an OBSERVE frame on the Gallery's link port, charged to hall 0 (R415). -/
def State.routeTrace (s : State) : State :=
  let n := s.gallery.linkPort.toNat
  if s.gallery.route ∧ 15 ≤ s.gallery.buffer.length ∧ n < 20 ∧ s.linkUsed n ∧ !s.portFenced n then
    let body := (s.gallery.buffer.take 15).flatMap Packet.bytes
    ({ s with gallery := { s.gallery with buffer := s.gallery.buffer.drop 15 } }).queueFrame n 0 7
      (frameHdr fkObserve 2 0 0 960 (s.srcGen 0) []) body
  else s

/-- Produce a packet: it takes the next seq and a place in the buffer, or is dropped whole and counted. -/
def State.producePacket (s : State) (type hall : Byte) (body : List Byte) : State :=
  let g := s.gallery
  let p : Packet :=
    { type := type, hall := hall, hallGen := if hall.toNat < 64 then (s.hall hall.toNat).gen else 0, seq := g.nextSeq,
      stride := s.timer.strideNum, offset := s.timer.fclk, body := body.take 44 }
  let g := { g with nextSeq := g.nextSeq + 1 }
  if g.room then ({ s with gallery := { g with buffer := g.buffer ++ [p] } }).routeTrace
  else { s with gallery := { g with drops := satAdd g.drops 1, dropsPending := satAdd g.dropsPending 1 } }

/-- TRACE_PACKET: a packet of an enabled type that the rights allow; DROP packets have a row of their own. -/
def State.tracePacket (s : State) (type h : Byte) (body : List Byte) : State :=
  if s.core.released ∧ type ≠ 7 ∧ s.traceAllowed type.toNat h.toNat then s.producePacket type h body else s

def execTracePacket (type : Byte) (h : Byte) (body : List Byte) (s : State) : Host.Outcome State Fault Refusal :=
  next (s.tracePacket type h body)

/-- DROP: packets have been dropped and the buffer has room again. -/
def State.dropPacket (s : State) : State :=
  if s.core.released ∧ s.gallery.dropsPending ≠ 0 ∧ s.gallery.room ∧ s.traceAllowed 7 0xFF then
    ({ s with gallery := { s.gallery with dropsPending := 0 } }).producePacket 7 0xFF
      (leBytes 4 s.gallery.dropsPending.toNat)
  else s

def execDrop (s : State) : Host.Outcome State Fault Refusal := next s.dropPacket

/-- The packets of an OBSERVE frame stand ahead of this core's own; those that no longer fit are dropped and counted, own
packets first, the newest first (R86, R414, R415). -/
def State.takeForeign (s : State) (ps : List (List Byte)) : State :=
  let g := s.gallery
  let all := g.foreign ++ ps
  let foreign := all.take 256
  let own := g.buffer.take (256 - foreign.length)
  let lost := (g.buffer.length - own.length) + (all.length - foreign.length)
  { s with gallery := { g with foreign := foreign, buffer := own, drops := satAdd g.drops lost,
                               dropsPending := satAdd g.dropsPending lost } }

/-- OBSERVE: the frame's packets go to this core's trace port, whatever its route. -/
def State.observe (s : State) (n : Nat) (f : RxFrame) : State :=
  s.ingressNow n fkObserve f fun _ body t =>
    t.takeForeign ((List.range (body.length / 64)).map fun i => slice body (64 * i) 64)

def execObserve (n : Fin 20) (f : RxFrame) (s : State) : Host.Outcome State Fault Refusal :=
  next (s.observe n f).drainServed

end Sys2Proof.Machine
end

