-- ==== Sys2Proof/Machine/RegRead.lean ====
section
/-! DEFINITION. The value of every register: the management space block by block (R431, R439 to R446 and the register
tables of the subject chapters) and a function window (R148, R445). An address that no table defines reads zero (R9). -/

namespace Sys2Proof.Machine

/-- A 64-bit location from its fields, each with the number of its lowest bit. -/
def word64 (l : List (Nat × Nat)) : Word := BitVec.ofNat 64 (l.map fun x => x.2 <<< x.1).sum

/-- The word `w` of a 256-bit register. -/
def wordOf (x : BitVec 256) (w : Nat) : Word := BitVec.ofNat 64 (bits x (64 * w + 63) (64 * w))

/-- A 256-bit entry from its fields. -/
def entry256 (l : List (Nat × Nat)) : BitVec 256 := BitVec.ofNat 256 (l.map fun x => x.2 <<< x.1).sum

/-- Register number of an array of registers `stride` bytes apart that begins at `base` and has `n` elements. -/
def regIndex (off base stride n : Nat) : Option Nat :=
  if base ≤ off ∧ (off - base) % stride = 0 ∧ (off - base) / stride < n then some ((off - base) / stride) else none

/-! ### CORE (R13, R80 to R82, R194, R440 to R444) -/

/-- CORE_VERSION: major 4, minor 1. -/
def coreVersion : Word := 0x00040001

/-- CORE_ID: the vendor and the part. -/
def coreId : Word := 0xD2170047

def State.regCoreStatus (s : State) : Word :=
  word64 [(7, (decide (s.plan.state = .pending)).toNat), (6, s.timer.throttle.toNat), (4, s.timer.syncRole.toNat),
    (2, s.timer.strideCode.toNat), (1, s.timer.syncClamped.toNat), (0, s.timer.syncLost.toNat)]

def State.regSyncErr (s : State) : Word :=
  word64 [(48, s.timer.ignoredEdges.toNat), (32, s.timer.missedStrides.toNat), (0, s.timer.lastError.toNat)]

/-- The clock has made an edge in each of the last four windows (R442). -/
def lastFour (l : List Bool) : Bool := l.length = 4 ∧ l.all id

def State.regClkStatus (s : State) : Word :=
  let lclk (n : Nat) : Bool := lastFour (s.core.lclkRun.map fun w => bit w n)
  word64 [(48, s.core.fclkCount.toNat), (44, (lastFour s.core.hclkRun).toNat),
    (20, ((List.range 20).map fun n => (lclk n).toNat <<< n).sum), (0, s.core.fclkInRange.toNat)]

def State.regRstStatus (s : State) : Word :=
  word64 [(48, s.core.coreResets.toNat), (3, s.core.coreRstLow.toNat), (2, s.core.pwrGood.toNat),
    (1, (!s.core.coreRstLow ∧ !s.core.released : Bool).toNat), (0, s.core.released.toNat)]

def State.regDeniedLog (s : State) : Word :=
  word64 [(48, s.core.deniedCount.toNat), (38, s.core.deniedReq.toNat), (37, s.core.deniedWrite.toNat),
    (3, s.core.deniedOffset.toNat)]

/-- CORE_DL_STATUSk: the hall of the k-th DEADLINE record, or zero. -/
def State.regDlStatus (s : State) (k : Nat) : Word :=
  match s.act.deadlines[k]? with
  | some r =>
    let d := s.deadline r.hall
    word64 [(48, d.missed.toNat), (32, d.fallbacks.toNat), (16, if d.state = .watching then d.slack.toNat else 0),
      (12, d.cause.toNat), (8, d.state.code), (0, r.hall)]
  | none => 0

def State.readCore (s : State) (off : Nat) : Word :=
  match off with
  | 0x00 => coreVersion
  | 0x08 => coreId
  | 0x10 => s.regCoreStatus
  | 0x18 => s.timer.strideNum
  | 0x20 => s.regSyncErr
  | 0x60 => s.regClkStatus
  | 0x68 => s.regRstStatus
  | 0x70 => s.regDeniedLog
  | _ =>
    match regIndex off 0x40 8 4, regIndex off 0x100 8 4 with
    | some k, _ => wordOf s.core.engPresent k
    | _, some k => s.regDlStatus k
    | _, _ => 0

/-! ### PLAN, HALL, QUEUE (R113, R147, R179) -/

def State.regPlanStatus (s : State) : Word :=
  word64 [(32, s.plan.record.toNat), (24, s.plan.code.toNat), (16, s.plan.section_.toNat), (0, s.plan.state.code)]

def State.readPlan (s : State) (off : Nat) : Word :=
  match off with
  | 0x00 => s.plan.srcAddr
  | 0x08 => s.plan.srcLen
  | 0x10 => s.plan.target
  | 0x20 => s.regPlanStatus
  | 0x28 => s.act.planId
  | 0x30 => s.plan.appliedStride
  | _ =>
    match regIndex off 0x40 8 6 with
    | some k => BitVec.ofNat 64 (leAt s.act.digest (8 * k) 8)
    | none => 0

def State.regHallState (s : State) (h : Nat) : Word :=
  let x := s.hall h
  word64 [(16, x.gen.toNat), (12, x.cmdResult.toNat), (8, x.cls.toNat), (0, x.state.code)]

/-- A page per hall: HALL_STATE, HALL_CMD, which reads zero, and HALL_SCRUB. -/
def State.readHall (s : State) (off : Nat) : Word :=
  if 64 * 0x1000 ≤ off then 0
  else
    match off % 0x1000 with
    | 0x00 => s.regHallState (off / 0x1000)
    | 0x10 => BitVec.ofNat 64 (s.unitsRemaining (off / 0x1000))
    | _ => 0

/-- QUEUE_MAPk: the queue that holds global number k. -/
def State.readQueue (s : State) (off : Nat) : Word :=
  match regIndex off 0 8 4096 with
  | none => 0
  | some k =>
    match s.queues.find? fun e => e.2.state ≠ QState.absent ∧ e.2.global.toNat = k with
    | some (n, x) =>
      word64 [(48, x.gen.toNat), (40, n % 256), (32, n / 256), (4, x.firstStatus.toNat % 16), (0, x.state.code)]
    | none => 0

/-! ### XLAT (R198, R209, R217) -/

/-- A segment entry; while INVALID every field but generation reads zero. -/
def State.regSegment (s : State) (k : Nat) : BitVec 256 :=
  let g := s.seg k
  if g.state = .invalid then entry256 [(96, g.gen.toNat)]
  else
    entry256 [(224, g.size), (192, g.base), (128, g.va), (112, g.keySlot), (96, g.gen.toNat), (48, g.state.code),
      (41, g.wr.toNat), (40, g.rd.toNat), (36, g.set), (34, g.mode.code), (7, k / 128), (3, k / 8 % 16), (0, k % 8)]

/-- A window entry. -/
def Window.entry (w : Window) : BitVec 256 :=
  entry256 [(128, w.segOffset), (96, w.size), (64, w.gen.toNat), (60, w.state.code), (56, w.kind.toNat),
    (53, w.wr.toNat), (52, w.rd.toNat), (42, w.ownerHall), (38, w.ownerContext), (35, w.segment), (30, w.linkPort),
    (24, w.peerHall), (12, w.remoteIndex)]

def State.regInvStatus (s : State) : Word :=
  word64 [(32, ((s.xlat.scrubs.filter fun e => !e.teardown).map s.scrubUnits).sum), (16, s.xlat.completed.toNat),
    (0, s.xlat.withdrawals.length)]

def State.regPriStatus (s : State) (f : Nat) : Word :=
  word64 [(32, s.htcHeld f), (16, (s.func f).priDisabled.toNat), (0, (s.func f).priOutstanding)]

def State.readXlat (s : State) (off : Nat) : Word :=
  if off < 0x40000 then wordOf (s.regSegment (off / 32)) (off / 8 % 4)
  else if off < 0x60000 then wordOf (s.win ((off - 0x40000) / 32)).entry (off / 8 % 4)
  else if off = 0x60000 then s.regInvStatus
  else
    match regIndex off 0x60100 8 64 with
    | some f => s.regPriStatus f
    | none => 0

/-! ### MPX (R252) -/

def State.regMpxPort (s : State) (m : Nat) : Word :=
  word64 [(16, 512 - (s.memPort m).credits), (15, (!s.inService 2 m).toNat), (0, s.fencedPipes m)]

def State.regSegMeta (s : State) (k : Nat) : Word :=
  let x := Tab.get {} s.protect.segMeta k
  if (s.seg k).state = .valid ∧ (s.seg k).mode = .sealed then
    word64 [(32, x.base), (16, x.units), (8, x.topLevel), (0, x.topCount)]
  else 0

def State.readMpx (s : State) (off : Nat) : Word :=
  let c := s.protect.cnt
  match off with
  | 0x00 => c.corrected
  | 0x08 => c.integrity
  | 0x10 => c.poisoned
  | 0x18 => c.nodeRepairs
  | 0x20 => c.subtreesLost
  | 0x28 => c.overflows
  | _ =>
    match regIndex off 0x100 8 48, regIndex off 0x10000 8 8192 with
    | some m, _ => s.regMpxPort m
    | _, some k => s.regSegMeta k
    | _, _ => 0

/-! ### KEY (R279) -/

def State.regKeyStatus (s : State) : Word :=
  word64 [(48, s.vault.epochShown.toNat), (32, (List.range 1024).countP fun k => (s.slot k).state = .free),
    (16, (List.range 16).countP fun c => (s.channel c).state ≠ .free), (0, s.vault.rootShown.toNat)]

def State.regRekeyCmd (s : State) : Word :=
  word64 [(24, s.vault.rekeyIndex.toNat), (16, s.vault.rekeyContext.toNat), (8, s.vault.rekeyHall.toNat),
    (0, s.vault.rekeyOp.toNat)]

def State.regRekeyResult (s : State) : Word :=
  word64 [(8, s.vault.resultChannel.toNat), (0, s.vault.resultReason.toNat)]

def State.regRekeyState (s : State) (c : Nat) : Word :=
  let x := s.channel c
  word64 [(54, x.target), (44, x.source), (24, x.index), (16, x.context), (8, x.hall), (0, x.state.code)]

def State.regSlot (s : State) (k : Nat) : Word :=
  let x := s.slot k
  word64 [(48, x.gen.toNat), (18, x.index), (14, x.context), (8, x.hall), (4, x.mode.code), (0, x.state.code)]

def State.regKeyHall (s : State) (h : Nat) : Word :=
  let x := s.hallKey h
  word64 [(32, x.epoch.toNat), (10, s.slotsHeld h), (2, (decide (x.iv = 0xFFFFFFFFFFFFFFFF)).toNat),
    (1, x.hostKey.isSome.toNat), (0, x.secret.isSome.toNat)]

def State.readKey (s : State) (off : Nat) : Word :=
  match off with
  | 0x000 => s.regKeyStatus
  | 0x100 => s.regRekeyCmd
  | 0x108 => s.regRekeyResult
  | _ =>
    match regIndex off 0x200 16 16, regIndex off 0x208 16 16, regIndex off 0x1000 8 1024, regIndex off 0x3000 8 64 with
    | some c, _, _, _ => s.regRekeyState c
    | _, some c, _, _ => word64 [(31, (s.channel c).poisoned), (0, (s.channel c).landing)]
    | _, _, some k, _ => s.regSlot k
    | _, _, _, some h => s.regKeyHall h
    | _, _, _, _ => 0

/-! ### LNK, GRP (R303, R326) -/

def State.regLinkStatus (s : State) (n : Nat) : Word :=
  word64 [(48, (s.link n).gen.toNat), (32, (s.linkState n).code), (8, (s.link n).width.toNat), (0, (s.linkUsed n).toNat)]

def State.regLinkErr (s : State) (n : Nat) : Word :=
  let l := s.link n
  word64 [(48, l.tagFails.toNat), (32, l.desyncs.toNat), (16, l.protocol.toNat), (0, l.rotations.toNat)]

def State.regLinkCtr (s : State) (n v : Nat) : Word :=
  word64 [(32, ((s.link n).chan v).ingress.toNat), (0, ((s.link n).chan v).egress.toNat)]

def State.readLink (s : State) (off : Nat) : Word :=
  let n := off / 0x100
  if 20 ≤ n then 0
  else
    match off % 0x100 with
    | 0x00 => s.regLinkStatus n
    | 0x08 => if (s.link n).egressKey.isSome ∨ (s.link n).ingressKey.isSome then (s.link n).peer else 0
    | 0x10 => s.regLinkErr n
    | x =>
      match regIndex x 0x40 8 8 with
      | some v => s.regLinkCtr n v
      | none => 0

/-- A MEMBERS entry as 64 bits (R305). -/
def MemberRec.word (m : MemberRec) : Word := word64 [(32, m.serialLo.toNat), (17, m.hall), (0, m.chip)]

def State.regGroupStatus (s : State) (g : Nat) : Word :=
  let x := s.group g
  let inFlight (k : Nat) : Nat := (x.ops.any fun o => o.kind == k).toNat
  let waits := x.ops.flatMap fun o => o.rings.map Ring.waited
  word64 [(48, x.gen.toNat), (40, x.lastStatus.toNat), (32, x.state.code), (16, min 0xFFFF (waits.foldl max 0)),
    (2, inFlight 2), (1, inFlight 1), (0, inFlight 0)]

def State.readGroup (s : State) (off : Nat) : Word :=
  match regIndex off 0 8 32768, regIndex off 0x50000 8 2048 with
  | some e, _ => ((s.act.members[e]?).map MemberRec.word).getD 0
  | _, some g => s.regGroupStatus g
  | _, _ =>
    if 0x40000 ≤ off ∧ off < 0x50000 then
      wordOf (((s.groupRec ((off - 0x40000) / 32)).map GroupRec.raw).getD 0) (off / 8 % 4)
    else 0

/-! ### RED, CMT (R356, R370) -/

def State.regRedStatus (s : State) : Word :=
  let free := (s.clusters.map fun c =>
    (List.range 64).countP fun i => (Tab.get {} s.reduce.tiles (64 * c + i)).state = AccState.free).sum
  let gk := ((List.range 256).countP fun k => !s.inService 9 k) + (List.range 256).countP fun k => !s.inService 10 k
  let fenced := ((List.range 16).map fun c => if s.inService 8 c then 0 else 2 ^ c).sum
  word64 [(48, free), (32, gk), (0, fenced)]

def State.regRedCluster (s : State) (c : Nat) : Word :=
  let owned := (List.range 64).countP fun i => (Tab.get {} s.reduce.tiles (64 * c + i)).state ≠ AccState.free
  word64 [(63, (!s.inService 8 c).toNat), (32, s.fifoBeats c), (16, owned),
    (0, ((List.range 64).map fun h => s.slotsOf h c).sum)]

def State.regRedTile (s : State) (t : Nat) : Word :=
  let x := Tab.get {} s.reduce.tiles t
  word64 [(62, x.state.code), (56, x.flight), (48, x.op), (32, x.group), (16, x.hall), (0, x.hallGen.toNat)]

def State.readRed (s : State) (off : Nat) : Word :=
  match off with
  | 0x00 => s.regRedStatus
  | 0x08 => s.reduce.adderOps
  | 0x10 => s.reduce.dropped
  | 0x18 => s.reduce.late
  | 0x20 => s.reduce.corrected
  | _ =>
    match regIndex off 0x100 8 16, regIndex off 0x1000 8 1024, regIndex off 0x3000 8 64 with
    | some c, _, _ => s.regRedCluster c
    | _, some t, _ => s.regRedTile t
    | _, _, some h => word64 [(32, (s.hall h).adderOpsShown / 1024), (0, s.slotsInForce h)]
    | _, _, _ => 0

def State.regCmtGroup (s : State) (h g : Nat) : Word :=
  let c := s.cmt h g
  let q := if c.state = .idle ∨ c.state = .staging then 0 else (s.queue h c.queue).global.toNat
  word64 [(52, q), (36, c.actions), (32, c.state.code), (28, c.cause.toNat), (0, c.held)]

def State.readCmt (s : State) (off : Nat) : Word :=
  match regIndex off 0 8 4096, regIndex off 0x8000 8 64 with
  | some k, _ => s.regCmtGroup (k / 64) (k % 64)
  | _, some h =>
    word64 [(48, Tab.get 0 s.commit.aborted h), (32, Tab.get 0 s.commit.applied h), (0, s.hallHeld h)]
  | _, _ => if off = 0x9000 then word64 [(32, s.commit.actionsApplied), (0, s.coreHeld)] else 0

/-! ### FLT (R373, R389) -/

/-- The 32 bytes of an event record. -/
def Event.record (e : Event) : BitVec 256 :=
  entry256 [(0, e.seq.toNat), (32, e.cls.code), (40, e.code.toNat), (48, e.unit.toNat), (64, e.hall.toNat),
    (80, e.hallGen.toNat), (96, e.status.toNat), (104, e.cause.toNat), (112, e.object.toNat), (128, e.stride.toNat),
    (192, e.offset.toNat), (224, e.repeats.toNat)]

/-- History entry k: the pinned record, or the ring record whose turn it was (R374). -/
def Faults.entryAt (f : Faults) (k : Nat) : BitVec 256 :=
  let e := if k = 0 then f.pinned else f.ring.find? fun e => 1 + (e.seq.toNat - 1) % 63 = k
  (e.map Event.record).getD 0

def State.regFltStatus (s : State) : Word :=
  word64 [(32, s.faults.nextSeq.toNat), (31, s.faults.fatal.toNat), (30, s.faults.pinned.isSome.toNat),
    (28, s.faults.cmdResult.toNat), (16, s.faults.units.countP fun e => e.2.state ≠ UnitState.inService)]

/-- Kinds of objects still to restore. -/
def RestoreObj.isLost : RestoreObj → Bool
  | .lost _ => true
  | _ => false

def RestoreObj.isMarker : RestoreObj → Bool
  | .marker _ => true
  | _ => false

def RestoreObj.isStructure : RestoreObj → Bool
  | .vault _ | .queue _ | .fence _ => true
  | _ => false

def State.regRestore (s : State) (h : Nat) : Word :=
  let x := s.hall h
  word64 [(8, min 255 x.restore.length), (4, x.pauseFatal.toNat), (3, (x.restore.any RestoreObj.isStructure).toNat),
    (2, x.pauseBitmap.toNat), (1, (x.restore.any RestoreObj.isMarker).toNat),
    (0, (x.restore.any RestoreObj.isLost).toNat)]

def State.regUnit (s : State) (u : BitVec 16) : Word :=
  let x := s.unit u
  word64 [(48, x.gen.toNat), (32, if x.state = .fenced then x.quietLeft.toNat else 0), (24, min 8 x.returns.length),
    (16, x.cause.toNat), (0, x.state.code)]

def State.readFlt (s : State) (off : Nat) : Word :=
  match off with
  | 0x00 => s.regFltStatus
  | 0x10 => word64 [(1, s.faults.pulse.toNat), (0, s.faults.driveLow.toNat)]
  | 0x18 => s.faults.recoveries
  | 0x20 => word64 [(0, s.faults.unitCmd.toNat)]
  | _ =>
    match regIndex off 0x100 8 256, regIndex off 0xC00 8 64, regIndex off 0x10000 8 16384 with
    | some k, _, _ => wordOf (s.faults.entryAt (k / 4)) (k % 4)
    | _, some h, _ => s.regRestore h
    | _, _, some n =>
      let u := unitId (n / 1024) (n % 1024)
      if unitExists u then s.regUnit u else 0
    | _, _, _ => 0

/-! ### LC, GAL, MP (R418 to R420) -/

def State.regLcStatus (s : State) : Word :=
  let l := s.lc
  word64 [(20, l.bootError.toNat), (16, l.result.toNat), (12, l.certsOk.toNat), (11, l.epoch.toNat),
    (10, (decide (l.job.map OtpJob.target ≠ none ∧ l.job.map OtpJob.target ≠ some none)).toNat), (9, l.pending.toNat),
    (8, l.torn.toNat), (5, l.tornTarget.toNat), (0, l.state.code)]

def State.readLc (s : State) (off : Nat) : Word :=
  match off with
  | 0x00 => s.regLcStatus
  | 0x30 => s.lc.serial
  | 0x38 => word64 [(32, s.lc.limitLeft.toNat), (0, s.lc.rights.toNat)]
  | 0x40 => s.lc.contentActive
  | _ =>
    match regIndex off 0x10 8 4, regIndex off 0x100 8 48 with
    | some k, _ => (s.lc.nonce[k]?).getD 0
    | _, some k => if s.lc.mp = .reset ∨ (2 ≤ k ∧ k ≤ 9) then 0 else word64 [(0, (Tab.get 0 s.lc.otp k).toNat)]
    | _, _ => 0

def State.regTelem (s : State) : Word :=
  let g := s.gallery
  word64 [(48, g.depth.toNat), (16, g.unitOffset.toNat), (7, g.enable.toNat), (4, g.segment.toNat), (0, g.context.toNat)]

/-- A right of a certificate reaches the operator alone, whose port is the physical function (R412, R413, R437). -/
def State.rightFor (s : State) (r : Requester) (i : Nat) : Bool := r = .pf ∧ s.debugRight i

/-- GAL_HALL_CNTh_i: live under GAL_FINE, as last published otherwise (R413). -/
def State.regHallCnt (s : State) (r : Requester) (h i : Nat) : Word :=
  let c := if s.rightFor r 0 then (s.hall h).live else (s.hall h).shown
  BitVec.ofNat 64 (min (2 ^ 64 - 1) ((c.fields[i]?).getD 0))

def State.readGal (s : State) (r : Requester) (off : Nat) : Word :=
  let g := s.gallery
  match off with
  | 0x00 => word64 [(6, g.types.toNat), (1, g.linkPort.toNat), (0, g.route.toNat)]
  | 0x08 => word64 [(32, g.drops.toNat), (0, g.nextSeq.toNat)]
  | 0x10 => word64 [(16, if s.rightFor r 0 then g.slotSixteenths.toNat else 0), (0, g.watts.toNat)]
  | 0x18 => s.regTelem
  | 0x20 => word64 [(32, g.telemDropped.toNat), (0, g.telemWritten.toNat)]
  | _ =>
    let h := (off - 0x1000) / 0x80
    if 0x1000 ≤ off ∧ h < 64 ∧ off % 0x80 < 80 then s.regHallCnt r h (off % 0x80 / 8) else 0

/-- A mailbox page: MBX_CTL, MBX_LEN, the request buffer and the response buffer. -/
def State.readMailbox (s : State) (m off : Nat) : Word :=
  let b := s.mailbox m
  match off with
  | 0x00 => word64 [(2, b.done.toNat), (1, b.busy.toNat), (0, b.go.toNat)]
  | 0x08 => word64 [(16, b.rspLen.toNat), (11, b.kind.toNat), (0, b.reqLen.toNat)]
  | _ =>
    if 0x100 ≤ off ∧ off < 0x800 then
      BitVec.ofNat 64 (leNat ((List.range 8).map fun i => Tab.get 0 b.req (off - 0x100 + i)))
    else if 0x800 ≤ off ∧ off < 0x1000 then BitVec.ofNat 64 (leAt b.rsp (off - 0x800) 8)
    else 0

/-! ### The management space (R431) -/

/-- The block of a management-space address, by its number in the table of R431. -/
def blockOf (addr : Nat) : Nat :=
  let n := addr / 0x100000
  if n ≤ 3 then n else if n ≤ 5 then 4 else n - 1

/-- The location at a management-space address, a multiple of 8, as a requester sees it (R413, R432). -/
def State.readMgmt (s : State) (r : Requester) (addr : Nat) : Word :=
  let off := addr % 0x100000
  match blockOf addr with
  | 0 => s.readCore off
  | 1 => s.readPlan off
  | 2 => s.readHall off
  | 3 => s.readQueue off
  | 4 => s.readXlat (addr - 0x400000)
  | 5 => s.readMpx off
  | 6 => s.readKey off
  | 7 => s.readLink off
  | 8 => s.readGroup off
  | 9 => s.readRed off
  | 10 => s.readCmt off
  | 11 => s.readFlt off
  | 12 => s.readLc off
  | 13 => s.readGal r off
  | 14 => s.readMailbox 64 off
  | _ => 0

/-! ### A function window (R142 to R144, R148, R149, R155, R157, R174) -/

/-- FW_HALL_INFO; a hall that was never created reads its reset value, hall number included (R130, R142, R445). -/
def State.regHallInfo (s : State) (h : Nat) : Word :=
  let x := s.hall h
  if x.gen = 0 then 0
  else
    word64 [(48, x.gen.toNat), (40, x.degradedShown.toNat), (39, x.throttledShown.toNat), (32, x.state.code),
      (8, x.cls.toNat), (0, h)]

def State.regQueueStatus (s : State) (h q : Nat) : Word :=
  let x := s.queue h q
  word64 [(48, x.gen.toNat), (36, x.global.toNat), (32, x.state.code), (24, x.firstStatus.toNat),
    (23, x.badDoorbell.toNat), (0, x.readIndex.toNat)]

def State.regKringStatus (s : State) (f : Nat) : Word :=
  let x := s.func f
  word64 [(48, x.gen.toNat), (40, x.lastStatus.toNat), (16, x.completed.toNat), (0, x.readIndex.toNat)]

/-- FW_KRING_CTL: state, and enable as the last effective write left it. -/
def State.regKringCtl (s : State) (f : Nat) : Word :=
  let k := (s.func f).kstate
  word64 [(1, k.code), (0, (decide (k = .enabled ∨ k = .enablePending)).toNat)]

/-- The coarse-counter page. -/
def State.readCounters (s : State) (h off : Nat) : Word :=
  let x := s.hall h
  match off with
  | 0x2000 => s.regHallInfo h
  | 0x2008 => x.publishedStride
  | 0x2040 => x.rec0
  | 0x2048 => x.rec1
  | 0x2050 => x.rec2
  | _ =>
    match regIndex off 0x2060 8 10 with
    | some i => BitVec.ofNat 64 (min (2 ^ 64 - 1) ((x.shown.fields[i]?).getD 0 / 1024))
    | none => 0

/-- The location at an offset of hall h's function window. -/
def State.readWindow (s : State) (h off : Nat) : Word :=
  if off < 0x800 then word64 [(0, (s.queue h (off / 8)).doorbell.toNat)]
  else if off < 0x1000 then (s.queue h ((off - 0x800) / 8)).completion
  else if off = 0x1000 then word64 [(12, (s.func h).baseAddr.toNat), (0, (s.func h).size.toNat)]
  else if off = 0x1008 then s.regKringCtl h
  else if off = 0x1010 then word64 [(0, (s.func h).writeIndex.toNat)]
  else if off = 0x1018 then s.regKringStatus h
  else if 0x1800 ≤ off ∧ off < 0x2000 then s.regQueueStatus h ((off - 0x1800) / 8)
  else if 0x2000 ≤ off ∧ off < 0x3000 then s.readCounters h off
  else if 0x3000 ≤ off ∧ off < 0x4000 then s.readMailbox h (off - 0x3000)
  else 0

end Sys2Proof.Machine
end

