-- ==== Sys2Proof/Machine/Mailbox.lean ====
section
/-! DEFINITION. The mailboxes: how a message is served (R403, R404), the SPDM requests (R404, R408), and the path of a
Dritha request through the checks of R405 to R407. A row carries the message that the requester submitted; serving it
takes the request from the buffer and leaves the response (log entry 12). -/

namespace Sys2Proof.Machine

/-- The hall of a mailbox: its window's, or 0 for the MP block's (R403). -/
def mailHall (m : Nat) : Nat := if m = 64 then 0 else m

/-- An operator mailbox: hall 0's and the MP block's. -/
def isOperator (m : Nat) : Bool := m = 0 ∨ m = 64

/-- The firmware serves mailboxes: it runs, and no transition to SCRAP has begun to take effect (R402, R423). -/
def State.servesMail (s : State) : Bool := s.fwRuns ∧ !s.lc.scrapped

/-- A mailbox takes messages: a function's window needs the fabric out of reset, the MP block does not (R425, R436). -/
def State.mailOpen (s : State) (m : Nat) : Bool := s.servesMail ∧ (s.core.released ∨ m = 64)

/-- `n` bytes that the spec leaves open: the contents of a message whose form a standard fixes (log entry 10). -/
def State.freeBytes (s : State) (n : Nat) : List Byte :=
  (List.range n).map fun i => BitVec.ofNat 8 ((Config.freeValue (s.freeCtr + 1 + i / 8)).toNat >>> (8 * (i % 8)))

/-- The response of a kind stands in the buffer: its length, its bytes over what the last message left, done set. -/
def Mailbox.answered (b : Mailbox) (kind : BitVec 2) (bytes : List Byte) : Mailbox :=
  { b with done := true, busy := false, go := false, kind := kind, rspLen := BitVec.ofNat 12 bytes.length,
           rsp := bytes ++ b.rsp.drop bytes.length }

/-- Answer with a message whose bytes a standard fixes: an SPDM message, or a secured one within a session. -/
def State.answerOpaque (s : State) (m : Nat) (kind : BitVec 2) : State :=
  let n := s.freeValue.toNat % 2049
  ({ s with freeCtr := s.freeCtr + 257 }).modMailbox m fun b => b.answered kind (s.freeBytes n)

/-! ### SPDM (R404) -/

/-- Kind of a message of a session, or outside any (R403). -/
def spdmKind (sid : Nat) : BitVec 2 := if sid = 0 then 0 else 1

/-- Answer with an SPDM error. -/
def State.spdmError (s : State) (m sid : Nat) : State := (s.answerOpaque m (spdmKind sid)).emit (.spdm m 0x7F false)

/-- Serve an SPDM request: `f` gives the connection after it, or none where the request is out of order or not
supported, which an SPDM error answers. -/
def State.spdm (s : State) (m sid : Nat) (code : Byte) (f : Mailbox → Option Mailbox) : State :=
  if !s.mailOpen m then s
  else
    match f (s.mailbox m) with
    | some b => ((s.modMailbox m fun _ => b).answerOpaque m (spdmKind sid)).emit (.spdm m code true)
    | none => s.spdmError m sid

/-- The session of a number. -/
def Mailbox.session (b : Mailbox) (sid : Nat) : Option Session := b.sessions.find? fun x => x.sid == sid

/-- A session of this number is established. -/
def Mailbox.secured (b : Mailbox) (sid : Nat) : Bool := ((b.session sid).map Session.established).getD false

/-- The connection has negotiated its algorithms, or the message belongs to an established session. -/
def Mailbox.ready (b : Mailbox) (sid : Nat) : Bool := if sid = 0 then b.spdm == .negotiated else b.secured sid

/-- A session ends: what it had bound or gathered goes with it. -/
def Mailbox.endSession (b : Mailbox) (sid : Nat) : Mailbox :=
  { b with sessions := b.sessions.filter (fun x => x.sid != sid), bound := if b.bound = some sid then none else b.bound,
           gather := if b.gatherOf.1 = sid then [] else b.gather }

/-- Certificate slots are answered from a region that passed its checks (R393). -/
def State.certSlot (s : State) (slot : Byte) : Bool := s.lc.certsOk ∧ slot.toNat ≤ 1

/-- GET_VERSION: begins a connection; outside any session. -/
def execGetVersion (m : Fin 65) (sid : Nat) (s : State) : Host.Outcome State Fault Refusal :=
  next (s.spdm m sid 0x04 fun b => if sid = 0 then some { b with spdm := .versioned, large := 0 } else none)

/-- GET_CAPABILITIES: once, after GET_VERSION. -/
def execGetCapabilities (m : Fin 65) (sid : Nat) (s : State) : Host.Outcome State Fault Refusal :=
  next (s.spdm m sid 0x61 fun b => if sid = 0 ∧ b.spdm = .versioned then some { b with spdm := .capable } else none)

/-- NEGOTIATE_ALGORITHMS: the requester's lists hold the algorithms of R404. -/
def execNegotiateAlgorithms (m : Fin 65) (sid : Nat) (supported : Bool) (s : State) :
    Host.Outcome State Fault Refusal :=
  next (s.spdm m sid 0x63 fun b =>
    if sid = 0 ∧ b.spdm = .capable ∧ supported then some { b with spdm := .negotiated } else none)

/-- GET_DIGESTS -/
def execGetDigests (m : Fin 65) (sid : Nat) (s : State) : Host.Outcome State Fault Refusal :=
  next (s.spdm m sid 0x01 fun b => if b.ready sid ∧ s.lc.certsOk then some b else none)

/-- GET_CERTIFICATE -/
def execGetCertificate (m : Fin 65) (sid : Nat) (slot : Byte) (s : State) : Host.Outcome State Fault Refusal :=
  next (s.spdm m sid 0x02 fun b => if b.ready sid ∧ s.certSlot slot then some b else none)

/-- CHALLENGE: outside any session. -/
def execChallenge (m : Fin 65) (sid : Nat) (slot : Byte) (s : State) : Host.Outcome State Fault Refusal :=
  next (s.spdm m sid 0x03 fun b => if sid = 0 ∧ b.ready 0 ∧ s.certSlot slot then some b else none)

/-- KEY_EXCHANGE: a new session `sid` begins. -/
def execKeyExchange (m : Fin 65) (sid : Nat) (slot : Byte) (s : State) : Host.Outcome State Fault Refusal :=
  next (s.spdm m 0 0x64 fun b =>
    if sid ≠ 0 ∧ b.ready 0 ∧ s.certSlot slot ∧ b.session sid = none then
      some { b with sessions := b.sessions ++ [{ sid := sid, established := false }] }
    else none)

/-- FINISH: the session is established where the requester's HMAC verifies, and ends otherwise. -/
def execFinish (m : Fin 65) (sid : Nat) (hmacOk : Bool) (s : State) : Host.Outcome State Fault Refusal :=
  match (s.mailbox m).session sid with
  | some x =>
    if x.established ∨ hmacOk then
      next (s.spdm m sid 0x65 fun b =>
        if x.established then none
        else some { b with sessions := b.sessions.map fun y => if y.sid = sid then { y with established := true } else y })
    else if s.mailOpen m then next ((s.modMailbox m fun b => b.endSession sid).spdmError m sid)
    else next s
  | none => next (s.spdm m sid 0x65 fun _ => none)

/-- HEARTBEAT -/
def execHeartbeat (m : Fin 65) (sid : Nat) (s : State) : Host.Outcome State Fault Refusal :=
  next (s.spdm m sid 0x68 fun b => if b.secured sid then some b else none)

/-- KEY_UPDATE -/
def execKeyUpdate (m : Fin 65) (sid : Nat) (s : State) : Host.Outcome State Fault Refusal :=
  next (s.spdm m sid 0x69 fun b => if b.secured sid then some b else none)

/-- END_SESSION -/
def execEndSession (m : Fin 65) (sid : Nat) (s : State) : Host.Outcome State Fault Refusal :=
  next (s.spdm m sid 0x6C fun b => if b.secured sid then some (b.endSession sid) else none)

/-- CHUNK_SEND: part of a large message, at most 16 MiB in all; the last part completes it. -/
def execChunkSend (m : Fin 65) (sid : Nat) (last : Bool) (bytes : Nat) (s : State) : Host.Outcome State Fault Refusal :=
  next (s.spdm m sid 0x05 fun b =>
    if b.ready sid ∧ 0 < bytes ∧ bytes ≤ 1792 ∧ b.large + bytes ≤ 16777216 then
      some { b with large := if last then 0 else b.large + bytes }
    else none)

/-- CHUNK_GET: the next part of a large response. -/
def execChunkGet (m : Fin 65) (sid : Nat) (s : State) : Host.Outcome State Fault Refusal :=
  next (s.spdm m sid 0x06 fun b => if b.ready sid then some b else none)

/-- SESSION_TIMEOUT: the session has been without traffic for 64 s. -/
def execSessionTimeout (m : Fin 65) (sid : Nat) (s : State) : Host.Outcome State Fault Refusal :=
  next (if s.servesMail then s.modMailbox m fun b => b.endSession sid else s)

/-! ### Measurements (R408) -/

/-- A HALLS record of 64 bytes. -/
def State.hallRecord (s : State) (h : Nat) : List Byte :=
  let x := s.hall h
  leBytes 8 x.rec0.toNat ++ leBytes 8 x.rec1.toNat ++ leBytes 6 x.rec2.toNat ++ List.replicate 42 0

/-- Engine ports that a pool holds under a plan. -/
def Plan.poolEngines (p : Plan) (n : Nat) : Nat := p.engines.countP fun e => e.owner = .pool n

/-- A SEGMENTS record of 32 bytes. -/
def SegRec.bytes (r : SegRec) : List Byte :=
  leBytes 1 r.hall ++ leBytes 1 r.context ++ leBytes 1 r.index ++ leBytes 1 r.mode.code ++ leBytes 1 r.set ++
    leBytes 1 (r.rd.toNat + 2 * r.wr.toNat) ++ [0, 0] ++ leBytes 8 r.va ++ leBytes 4 r.base ++ leBytes 4 r.size ++
    List.replicate 8 0

/-- The measurement blocks 1 to 8 of hall h's mailbox, in order. -/
def State.measure (s : State) (h : Nat) : List (List Byte) :=
  let x := s.hall h
  let pools := s.act.pools.filter fun p => bit p.hallMask h
  let segs := (s.act.segs.filter fun r => r.hall == h).mergeSort fun a b => a.no ≤ b.no
  let groups := (s.groupsOf h).filter fun r => (s.group r.group).digest ≠ []
  [bytesOf Config.romDigest,
   s.lc.image,
   leBytes 8 coreVersion.toNat ++ leBytes 8 s.lc.serial.toNat ++ leBytes 1 s.lc.state.code ++
     leBytes 1 s.lc.torn.toNat ++ leBytes 1 s.lc.epoch.toNat,
   s.act.digest ++ leBytes 8 s.act.planId.toNat ++ leBytes 8 s.plan.appliedStride.toNat,
   leBytes 1 h ++ leBytes 1 x.cls.toNat ++ leBytes 1 x.state.code ++ leBytes 2 x.gen.toNat ++ s.hallRecord h ++
     leBytes 2 (s.act.ownedEngines h) ++ pools.flatMap fun p =>
       leBytes 1 p.pool ++ leBytes 1 p.sliceSlots ++ leBytes 2 (s.act.poolEngines p.pool) ++
         leBytes 1 (popCount 64 p.hallMask.toNat),
   segs.flatMap SegRec.bytes,
   groups.flatMap fun r =>
     leBytes 2 r.group ++ leBytes 2 (s.group r.group).gen.toNat ++ (s.group r.group).digest,
   leBytes 1 s.lc.rights.toNat ++ leBytes 1 (bit s.lc.contentActive h).toNat]

/-- GET_MEASUREMENTS: the mailbox's hall is measured and the blocks are signed with the identity key. -/
def execGetMeasurements (m : Fin 65) (sid : Nat) (s : State) : Host.Outcome State Fault Refusal :=
  next
    (let ok := (s.mailbox m).ready sid
     let t := s.spdm m sid 0x60 fun b => if ok then some b else none
     if ok ∧ s.mailOpen m then t.emit (.measurements m (s.measure (mailHall m))) else t)

/-! ### Dritha requests (R405 to R407) -/

/-- The fields of a Dritha header. -/
def reqCode (d : DReq) : Nat := byteField d.hdr 0 0
def reqMore (d : DReq) : Bool := bit d.hdr 8
def reqTotal (d : DReq) : Nat := byteField d.hdr 7 4
def reqOffset (d : DReq) : Nat := byteField d.hdr 11 8

/-- The header's reserved fields, result and reason are zero. -/
def reqHdrOk (d : DReq) : Bool := bits d.hdr 15 9 = 0 ∧ byteField d.hdr 3 2 = 0 ∧ byteField d.hdr 15 12 = 0

/-- What a request leaves and answers: a result, the reason of a REFUSED, a payload. -/
structure Answer where
  state : State
  result : Byte := 0
  reason : Byte := 0
  payload : List Byte := []

abbrev drOk : Byte := 0
abbrev drRefused : Byte := 1
abbrev drState : Byte := 2
abbrev drFormat : Byte := 3

/-- Header of a response: the request's code with its top bit set (R405). -/
def rspHeader (code : Nat) (result reason : Byte) (len : Nat) : List Byte :=
  [BitVec.ofNat 8 (code ||| 0x80), 0, result, reason] ++ leBytes 4 len ++ List.replicate 8 0

/-- Answer a Dritha request within its session. -/
def State.reply (s : State) (m : Nat) (code : Nat) (result reason : Byte) (payload : List Byte) : State :=
  (s.answerOpaque m 1).emit (.mailbox m (BitVec.ofNat 8 (code ||| 0x80)) result reason payload)

/-- Answer a plain Dritha message in clear (R405). -/
def State.replyPlain (s : State) (m : Nat) (code : Nat) (result : Byte) (payload : List Byte) : State :=
  (s.modMailbox m fun b => b.answered 2 (rspHeader code result 0 payload.length ++ payload)).emit
    (.mailbox m (BitVec.ofNat 8 (code ||| 0x80)) result 0 payload)

/-- Who may send a request (R406, R407). -/
inductive Sender where
  | contributor                        -- a tenant's session on a hall without a bound session
  | rebinder                           -- a tenant's session that has sent no Dritha request yet
  | tenant                             -- the hall's bound session
  | operator                           -- a session on an operator mailbox
  | owner                              -- the bound session for its own hall, an operator mailbox for hall 0
  | hallZero                           -- hall 0's own mailbox
deriving DecidableEq, Repr

/-- The session may send a request of this kind: a bound session speaks for a hall that lives. -/
def State.mayAsk (s : State) (m : Nat) (d : DReq) (who : Sender) : Bool :=
  let b := s.mailbox m
  let fresh := !(((b.session d.sid).map Session.dritha).getD true)
  let bound := !isOperator m ∧ b.bound = some d.sid ∧ (s.hall m).state.live
  match who with
  | .contributor => !isOperator m
  | .rebinder => !isOperator m ∧ fresh ∧ b.bound ≠ some d.sid
  | .tenant => bound
  | .operator => isOperator m
  | .owner => bound ∨ isOperator m
  | .hallZero => m = 0

/-- The session has sent a Dritha request. -/
def Mailbox.noteDritha (b : Mailbox) (sid : Nat) : Mailbox :=
  { b with sessions := b.sessions.map fun x => if x.sid = sid then { x with dritha := true } else x }

/-- Fragments gathered so far of a request of this session and code; a fragment at offset 0 begins anew. -/
def Mailbox.gathered (b : Mailbox) (d : DReq) : List Byte :=
  if reqOffset d = 0 ∨ b.gatherOf ≠ (d.sid, reqCode d) then [] else b.gather

/-- A payload that fits: a single message of at most 1,024 bytes, or fragments in ascending offset that add up to the
total (R405). -/
def reqInPlace (d : DReq) (got : List Byte) : Bool :=
  let n := got.length + d.payload.length
  reqOffset d = got.length ∧ d.payload.length ≤ 1024 ∧
    (if reqMore d then d.payload ≠ [] ∧ n < reqTotal d else n = reqTotal d)

/-- A complete request of a session is served: its payload has the right size, and `run` gives its effect and answer. -/
def State.serveRequest (s : State) (m code : Nat) (payload : List Byte) (sized : List Byte → Bool)
    (run : State → List Byte → Answer) : State :=
  if !sized payload then s.reply m code drFormat 0 []
  else (run s payload).state.reply m code (run s payload).result (run s payload).reason (run s payload).payload

/-- A request message of a session, with the fragments before it in `got`: refused for its header, its sender or its
place, kept where more follow, or served. -/
def State.takeMessage (s : State) (m : Nat) (d : DReq) (code : Nat) (may : Bool) (got : List Byte)
    (sized : List Byte → Bool) (run : State → List Byte → Answer) : State :=
  if !reqHdrOk d then s.reply m code drFormat 0 []
  else if !may then s.reply m code drState 0 []
  else if !reqInPlace d got then s.reply m code drFormat 0 []
  else if reqMore d then
    (s.modMailbox m fun b => { b with gather := got ++ d.payload, gatherOf := (d.sid, code) }).reply m code drOk 0 []
  else (s.modMailbox m fun b => { b with gather := [] }).serveRequest m code (got ++ d.payload) sized run

/-- Run a Dritha request of a code: who may send it and when, the sizes and reserved fields of its payload, its effect on
the whole payload. The first failing check of R407 decides. -/
def State.dritha (s : State) (m : Nat) (d : DReq) (code : Nat) (who : Sender) (allowed : Bool) (sized : List Byte → Bool)
    (run : State → List Byte → Answer) : State :=
  if !s.servesMail ∨ reqCode d ≠ code then s
  else if !s.mailOpen m then (if isOperator m then s else s.reply m code drState 0 [])
  else if d.sid = 0 then s.replyPlain m code (if reqHdrOk d then drState else drFormat) []
  else if !(s.mailbox m).secured d.sid then s.spdmError m d.sid
  else
    (s.modMailbox m fun b => b.noteDritha d.sid).takeMessage m d code (s.mayAsk m d who ∧ allowed)
      ((s.mailbox m).gathered d) sized run

/-- A request without a payload. -/
def noPayload (p : List Byte) : Bool := p = []

/-- A payload of a fixed size. -/
def sizeIs (n : Nat) (p : List Byte) : Bool := p.length = n

end Sys2Proof.Machine
end

