-- ==== Sys2Proof/Machine/Dritha.lean ====
section
/-! DEFINITION. The Dritha requests of R407, one meaning per request code. -/

namespace Sys2Proof.Machine

/-- A request that leaves the state and answers REFUSED with a reason. -/
def refuse (s : State) (reason : Byte) : Answer := { state := s, result := drRefused, reason := reason }

/-! ### Keys of a hall (R129, R255, R258, R259, R406) -/

/-- The hall may be contributed to: once, in AWAITING_TENANT; or in PAUSED, where a hall secret or a host session key that
was zeroised is to be established again (R255). -/
def State.mayContribute (s : State) (h : Nat) : Bool :=
  let x := s.hall h
  s.mayInstall && s.vault.epochRoot.isSome &&
    (decide (x.state = .awaitingTenant ∧ (s.hallKey h).secret = none) ||
      (decide (x.state = .paused) && x.restore.any fun o => match o with
        | .vault (.hallSecret k) | .vault (.hostKey k) => k.val == h
        | _ => false))

/-- The hall secret that a contribution gives (R257). -/
def State.secretOf (s : State) (m : Nat) (c : List Byte) : BitVec 384 :=
  hallSecret (s.vault.epochRoot.getD 0) m (s.hall m).gen c

/-- A contribution to a hall whose secret was zeroised is the one that the hall was given before: every slot that the hall
holds has the keys which it derives, since HS_h stays fixed for the life of the hall (R258, log entry 73). -/
def State.sameContribution (s : State) (m : Nat) (c : List Byte) : Bool :=
  (s.hallKey m).secret.isSome ∨ s.vault.slots.all fun e =>
    e.2.state = .free ∨ e.2.hall ≠ m ∨ slotKeys (s.secretOf m c) e.1 e.2.gen e.2.inst = (e.2.k1, e.2.k2)

/-- Install what a contribution gives: all of a hall's keys, or only the entries that were lost. -/
def State.contribute (s : State) (m sid : Nat) (c : List Byte) : State :=
  let gen := (s.hall m).gen
  let secret := s.secretOf m c
  let host := tenantHostKey (Config.exportSecret m sid) m gen s.vault.epoch
  let t :=
    if (s.hall m).state = .awaitingTenant then
      (s.installHall m secret host).modHall m fun x => { x with keysReady := true }
    else
      (s.modHallKey m fun k => k.refill secret host).keysRestored m
  t.modMailbox m fun b => { b with bound := some sid }

/-- CONTRIBUTE: keys are derived under the epoch root (R255); a contribution that gives another secret than the hall's is
REFUSED (R258, log entry 73). -/
def execContribute (m : Fin 65) (d : DReq) (s : State) : Host.Outcome State Fault Refusal :=
  next ((s.dritha m d 0x01 .contributor (s.mayContribute m) (sizeIs 32) fun t p =>
    let u := t.need .epochRoot
    if u.sameContribution m p then { state := u.contribute m d.sid p } else refuse u 0).drainServed)

/-- BIND: the HMAC verifies under the hall's host session key, or reason MAC. -/
def execBind (m : Fin 65) (d : DReq) (macOk : Bool) (s : State) : Host.Outcome State Fault Refusal :=
  next (s.dritha m d 0x02 .rebinder ((s.hall m).state = .active ∨ (s.hall m).state = .paused) (sizeIs 48) fun t _ =>
    if macOk ∧ (t.hallKey m).hostKey.isSome then { state := t.modMailbox m fun b => { b with bound := some d.sid } }
    else refuse t 1)

/-- SET_TAG_BASE's payload: a context or 0xFF, reserved bytes zero, a base 32-byte aligned. -/
def tagBaseOk (p : List Byte) : Bool :=
  p.length = 16 ∧ (leAt p 0 1 < 16 ∨ leAt p 0 1 = 0xFF) ∧ leAt p 1 7 = 0 ∧ leAt p 8 8 % 32 = 0

/-- SET_TAG_BASE: in force from the next boundary (R272). -/
def execSetTagBase (m : Fin 65) (d : DReq) (s : State) : Host.Outcome State Fault Refusal :=
  next (s.dritha m d 0x03 .owner true tagBaseOk fun t p =>
    { state := t.modHallKey (mailHall m) fun x =>
        { x with basesReq := x.basesReq.set 0 (min 16 (leAt p 0 1)) (BitVec.ofNat 64 (leAt p 8 8 + 1)) } })

/-- ADVANCE_EPOCH: in force from the next boundary (R277). -/
def execAdvanceEpoch (m : Fin 65) (d : DReq) (s : State) : Host.Outcome State Fault Refusal :=
  next (s.dritha m d 0x04 .tenant true noPayload fun t _ =>
    { state := t.modHallKey m fun x => { x with epochReq := x.epochReq + 1 } })

/-! ### Windows (R209, R210, R214) -/

/-- Read a 256-bit window entry. -/
def parseWindow (e : BitVec 256) : Window where
  state := if bits e 63 60 = 1 then .valid else if bits e 63 60 = 2 then .withdrawing else .invalid
  gen := BitVec.ofNat 16 (bits e 79 64)
  kind := BitVec.ofNat 2 (bits e 57 56)
  segOffset := bits e 165 128
  size := bits e 127 96
  wr := bit e 53
  rd := bit e 52
  ownerHall := bits e 47 42
  ownerContext := bits e 41 38
  segment := bits e 37 35
  linkPort := bits e 34 30
  peerHall := bits e 29 24
  remoteIndex := bits e 23 12

/-- The entry image of WINDOW_INSTALL: state, generation and reserved fields zero, every field within the range that R209
gives it. -/
def windowImageOk (p : List Byte) : Bool :=
  let e : BitVec 256 := BitVec.ofNat 256 (leNat p)
  let w := parseWindow e
  p.length = 32 ∧ bits e 255 166 = 0 ∧ bits e 95 80 = 0 ∧ bits e 79 64 = 0 ∧ bits e 63 58 = 0 ∧ bits e 55 54 = 0 ∧
    bits e 51 48 = 0 ∧ bits e 11 0 = 0 ∧ (w.kind = 1 ∨ w.kind = 2) ∧ 1 ≤ w.size ∧ w.size ≤ 67108864 ∧ w.linkPort < 20 ∧
    w.segOffset % 4096 = 0 ∧ (w.kind = 2 ∨ (w.segOffset = 0 ∧ w.segment = 0 ∧ w.peerHall = 0)) ∧
    (w.kind = 1 ∨ w.remoteIndex = 0)

/-- The checks of R210 before an entry is written. -/
def State.windowOk (s : State) (h : Nat) (w : Window) : Bool :=
  let g := s.seg (segNo h w.ownerContext w.segment)
  w.ownerHall = h ∧ s.windowsHeld h < (s.rec_ h).winQuota ∧ s.linkUsed w.linkPort ∧
    (w.kind = 1 ∨ (g.state = .valid ∧ w.segOffset + w.size * 4096 ≤ g.size * 2 ^ 21 ∧ (w.wr → g.wr) ∧ (w.rd → g.rd)))

/-- WINDOW_INSTALL: the lowest INVALID entry takes the image; the answer carries its number. -/
def State.installWindow (s : State) (h : Nat) (w : Window) : Answer :=
  if !s.windowOk h w then refuse s 0
  else
    match (List.range 4096).find? fun n => (s.win n).state = .invalid with
    | some n =>
      { state := s.modWin n fun x => { w with state := .valid, gen := nextGen x.gen }, payload := leBytes 2 n }
    | none => refuse s 0

/-- WINDOW_INSTALL -/
def execWindowInstall (m : Fin 65) (d : DReq) (s : State) : Host.Outcome State Fault Refusal :=
  next (s.dritha m d 0x05 .tenant true windowImageOk fun t p =>
    t.installWindow m (parseWindow (BitVec.ofNat 256 (leNat p))))

/-- WINDOW_REMOVE: the withdrawal of an own entry starts (R214). -/
def execWindowRemove (m : Fin 65) (d : DReq) (s : State) : Host.Outcome State Fault Refusal :=
  next (s.dritha m d 0x06 .tenant true (sizeIs 2) fun t p =>
    let n := leAt p 0 2
    if n < 4096 ∧ (t.win n).state = .valid ∧ (t.win n).ownerHall = m.val then
      { state := t.startWithdrawWin (Fin.ofNat 4096 n) }
    else refuse t 0)

/-! ### REKEY (R266, R379) -/

/-- REKEY's payload: a hall, a context and an index. -/
def rekeyPayloadOk (p : List Byte) : Bool := p.length = 3 ∧ leAt p 0 1 < 64 ∧ leAt p 1 1 < 16 ∧ leAt p 2 1 < 8

/-- The management processor declines the re-key of a LOST segment while a port of its set is fenced (R379), and one that would
pass its checks while the hall's secret is zeroised (log entry 72); otherwise it writes the START, and the answer carries the
channel. -/
def State.askRekey (s : State) (h c i : Nat) : Answer :=
  let k := segNo h c i
  if ((s.seg k).state = .lost ∧ !s.setUp k) ∨ (s.rekeyCheck h c i = 0 ∧ !s.derives h) then refuse s 0
  else
    let t := s.rekeyStart (word64 [(0, 1), (8, h), (16, c), (24, i)])
    if t.vault.resultReason = 0 then { state := t, payload := leBytes 1 t.vault.resultChannel.toNat }
    else refuse t (BitVec.ofNat 8 t.vault.resultReason.toNat)

/-- REKEY: a tenant its own segments, the operator any. -/
def execRekey (m : Fin 65) (d : DReq) (s : State) : Host.Outcome State Fault Refusal :=
  next (s.dritha m d 0x07 .owner true rekeyPayloadOk fun t p =>
    if isOperator m ∨ leAt p 0 1 = m.val then t.askRekey (leAt p 0 1) (leAt p 1 1) (leAt p 2 1)
    else { state := t, result := drState })

/-! ### Groups (R278, R308 to R311) -/

/-- The fields of an admission record that its checks use. -/
structure AdmRec where
  charter : List Byte
  index : Nat
  gen : Nat
  serial : Nat
  hall : Nat
  reserved : Nat
  hallGen : Nat
  seed : List Byte
  key : List Byte
deriving DecidableEq, Repr

/-- Read an admission record of 384 bytes. -/
def parseAdm (b : List Byte) : AdmRec where
  charter := slice b 0 48
  index := leAt b 48 2
  gen := leAt b 50 2
  serial := leAt b 52 8
  hall := leAt b 60 1
  reserved := leAt b 61 1
  hallGen := leAt b 62 2
  seed := slice b 64 32
  key := slice b 96 96

/-- The records of an ADMIT payload. -/
def admRecords (p : List Byte) : List AdmRec :=
  (List.range ((p.length - 8) / 384)).map fun i => parseAdm (slice p (8 + 384 * i) 384)

/-- The member entries of a group, in order. -/
def State.memberRecs (s : State) (r : GroupRec) : List MemberRec := (s.act.members.drop r.memberBase).take r.memberCount

/-- The charter digest of a group under the members' keys (R308). -/
def State.charterDigest (s : State) (r : GroupRec) (keys : List Byte) : List Byte :=
  let raw := bytesOf r.raw
  let zeroed := (List.range 32).map fun i => if i = 2 ∨ i = 10 ∨ i = 11 ∨ (16 ≤ i ∧ i ≤ 21) then 0 else (raw[i]?).getD 0
  digestOf (zeroed ++ (s.memberRecs r).flatMap (fun x => leBytes 8 x.word.toNat) ++ digestOf keys)

/-- The records agree with the plan and with one another (R309, RECORD). -/
def State.recordsOk (s : State) (r : GroupRec) (l : List AdmRec) (sigsOk : Bool) : Bool :=
  let charter := s.charterDigest r (l.flatMap AdmRec.key)
  let a := l.head?
  l.length = r.memberCount ∧ sigsOk ∧
    (List.range l.length).all fun i =>
      match l[i]? with
      | some x =>
        x.hall < 64 ∧ x.reserved = 0 ∧ x.charter = charter ∧ x.index = i ∧ x.gen ≠ 0 ∧ a.map AdmRec.seed = some x.seed ∧
          a.map AdmRec.gen = some x.gen
      | none => false

/-- The records name this chip, this hall, and the members of the plan (R309, SELF). -/
def State.selfOk (s : State) (r : GroupRec) (h : Nat) (l : List AdmRec) : Bool :=
  (match l[r.myIndex]? with
   | some x => x.serial = s.lc.serial.toNat ∧ x.hall = h ∧ x.hallGen = (s.hall h).gen.toNat
   | none => false) &&
    (l.zip (s.memberRecs r)).all fun x => x.1.serial % 2 ^ 32 = x.2.serialLo.toNat ∧ x.1.hall = x.2.hall

/-- Every ring port is UP and leads to the neighbour that the plan names (R309, NEIGHBOUR). -/
def State.neighboursOk (s : State) (r : GroupRec) : Bool :=
  r.flights.all fun k =>
    let peer (n m : Nat) : Bool :=
      decide (s.linkState n = .up) && (match (s.memberRecs r)[m]? with
        | some x => (s.link n).peer.toNat % 2 ^ 32 = x.serialLo.toNat
        | none => false)
    peer (r.nextPort k) (r.withCoord k ((r.coord k + 1) % r.size k)) && peer (r.prevPort k) (r.prevMember k)

/-- A group key of the hall is to be established again (R255, R384). -/
def State.lostGroup (s : State) (h g : Nat) : Bool :=
  (s.hall h).restore.any fun o => match o with
    | .vault (.groupKey k) | .vault (.roundingKey k) => k.val == g
    | _ => false

/-- The first failing check of an admission by its reason; 0 passes (R309). -/
def State.admitCheck (s : State) (h g : Nat) (l : List AdmRec) (sigsOk : Bool) : Byte :=
  match s.groupRec g with
  | none => 1
  | some r =>
    let x := s.group g
    if r.hall ≠ h ∨ !((s.hall h).state = .active ∨ ((s.hall h).state = .paused ∧ s.lostGroup h g)) then 1
    else if x.ops ≠ [] ∨ x.state = .admitting then 2
    else if !s.recordsOk r l sigsOk then 3
    else if !s.selfOk r h l then 4
    else if ((l.head?).map AdmRec.gen).getD 0 ≤ x.gen.toNat then 5
    else if !s.neighboursOk r then 6
    else 0

/-- ADMIT: after the checks the group is ADMITTING under the digest of the records (R310); a re-admission withdraws
first (R311). A chip that does not issue the group's key asks for it. -/
def State.admitTenant (s : State) (h g : Nat) (p : List Byte) (sigsOk : Bool) : Answer :=
  let l := admRecords p
  let r := s.admitCheck h g l sigsOk
  if r ≠ 0 then refuse s r
  else
    let t := (s.leaveGroup g).modGroup g fun x =>
      { x with state := .admitting, digest := digestOf (p.drop 8), admHall := h, admAge := 0,
               pendingGen := BitVec.ofNat 16 (((l.head?).map AdmRec.gen).getD 0),
               seed := BitVec.ofNat 256 (leNat (((l.head?).map AdmRec.seed).getD [])) }
    { state := if t.issues g then t else t.askKey g }

/-- ADMIT's payload: a group, reserved bytes zero, whole records. -/
def admitPayloadOk (p : List Byte) : Bool :=
  8 < p.length ∧ (p.length - 8) % 384 = 0 ∧ leAt p 0 2 < 2048 ∧ leAt p 2 6 = 0

/-- ADMIT -/
def execAdmit (m : Fin 65) (d : DReq) (sigsOk : Bool) (s : State) : Host.Outcome State Fault Refusal :=
  next (s.dritha m d 0x08 .tenant (!s.faults.fatal) admitPayloadOk fun t p => t.admitTenant m (leAt p 0 2) p sigsOk).drainServed

/-- A group number of 2 bytes. -/
def groupPayloadOk (p : List Byte) : Bool := p.length = 2 ∧ leAt p 0 2 < 2048

/-- The group is one of the hall's in the active plan. -/
def State.ownGroup (s : State) (h g : Nat) : Bool := ((s.groupRec g).map GroupRec.hall) == some h

/-- WITHDRAW (R311) -/
def execWithdraw (m : Fin 65) (d : DReq) (s : State) : Host.Outcome State Fault Refusal :=
  next (s.dritha m d 0x09 .tenant true groupPayloadOk fun t p =>
    if t.ownGroup m (leAt p 0 2) then { state := t.leaveGroup (leAt p 0 2) } else refuse t 0).drainServed

/-- GET_DELIVERY_KEY: of a group to which the tenant's hall is admitted (R278). -/
def execGetDeliveryKey (m : Fin 65) (d : DReq) (s : State) : Host.Outcome State Fault Refusal :=
  next (s.dritha m d 0x0A .tenant true groupPayloadOk fun t p =>
    let g := leAt p 0 2
    match (t.group g).delivery with
    | some k => if t.admittedTo m g then { state := t, payload := bytesOf k } else { state := t, result := drState }
    | none => { state := t, result := drState })

/-! ### Commit groups (R358, R360, R362, R369, R370) -/

/-- Fields of a staged descriptor that its kind does not use are zero (R360). -/
def stagedReservedOk (b : List Byte) : Bool :=
  let z (off n : Nat) : Bool := leAt b off n = 0
  decide (b.length = 32 ∧ leAt b 1 1 < 64) && z 24 8 &&
    match leAt b 0 1 with
    | 0x03 => leAt b 2 1 < 16 ∧ leAt b 3 1 < 8 ∧ leAt b 4 1 < 16 ∧ leAt b 5 1 < 8 ∧ z 6 2 ∧ z 8 16
    | 0x04 => leAt b 2 1 < 16 ∧ leAt b 3 1 < 8 ∧ z 4 4 ∧ z 8 16
    | 0x05 => leAt b 2 1 < 16 ∧ z 3 3 ∧ leAt b 8 8 < 2 ^ 48 ∧ leAt b 16 8 < 2 ^ 48
    | 0x06 => z 2 22
    | 0x07 => z 2 6 ∧ z 16 8
    | _ => true

/-- COMMIT_STAGE: the action enters the group, unless R358 refuses it. `src` is what the core read at a HELD_WRITE's
source. -/
def State.askStage (s : State) (h : Nat) (p : List Byte) (src : ReadBytes) : Answer :=
  let c := leAt p 2 1
  let st := s.readStatus h c (leAt p 16 8) (leAt p 6 2) src.status
  let s := if leAt p 0 1 = 5 then s.noteRead h c (leAt p 16 8) (leAt p 6 2) src.status else s
  match stagedGroup p, stagedAction h p src.bytes with
  | some g, some a =>
    if (s.cmt h g).state ≠ .closed ∧ s.stageOk h a st src ∧ s.stageFits h g a then { state := s.stage h g a } else refuse s 0
  | _, _ => refuse s 0

/-- COMMIT_STAGE -/
def execCommitStage (m : Fin 65) (d : DReq) (src : ReadBytes) (s : State) : Host.Outcome State Fault Refusal :=
  next (s.dritha m d 0x0B .owner true stagedReservedOk fun t p => t.askStage (mailHall m) p src)

/-- A commit group number of one byte. -/
def cmtPayloadOk (p : List Byte) : Bool := p.length = 1 ∧ leAt p 0 1 < 64

/-- COMMIT_ABORT: of a group in STAGING or OPEN, cause TENANT. -/
def execCommitAbort (m : Fin 65) (d : DReq) (s : State) : Host.Outcome State Fault Refusal :=
  next (s.dritha m d 0x0C .owner true cmtPayloadOk fun t p =>
    let g := leAt p 0 1
    let st := (t.cmt (mailHall m) g).state
    if st = .staging ∨ st = .open_ then { state := t.abortGroup (mailHall m) g acTenant } else refuse t 0)

/-- COMMIT_QUERY: the answer is the group's register. -/
def execCommitQuery (m : Fin 65) (d : DReq) (s : State) : Host.Outcome State Fault Refusal :=
  next (s.dritha m d 0x0D .owner true cmtPayloadOk fun t p =>
    { state := t, payload := leBytes 8 (t.regCmtGroup (mailHall m) (leAt p 0 1)).toNat })

/-! ### RESTORE_WRITE (R385) -/

/-- RESTORE_WRITE's payload: context, reserved bytes zero, an aligned address, a length and as many bytes. -/
def restorePayloadOk (p : List Byte) : Bool :=
  let n := leAt p 16 2
  18 ≤ p.length ∧ leAt p 0 1 < 16 ∧ leAt p 1 7 = 0 ∧ leAt p 8 8 % 64 = 0 ∧ 64 ≤ n ∧ n ≤ 1024 ∧ n % 64 = 0 ∧
    p.length = 18 + n

/-- The pseudo port on which restore writes are made. -/
def restorePort : Nat := 20002

/-- The tags 0 to 1023 of the pseudo port that no write uses; a write takes the lowest. -/
def State.restoreTag (s : State) : Nat :=
  ((List.range 1024).find? fun i => (s.dma restorePort i).isNone).getD 1024

/-- Write full lines of a segment for the tenant, under its own memory time. -/
def State.restoreLines (s : State) (h c k off : Nat) (data : List Byte) : State :=
  s.startSeg restorePort
    { tag := s.restoreTag, kind := 0, write := true, hall := h, hallGen := (s.hall h).gen, context := c, index := k % 8,
      address := off, length := data.length, beats := beatsOf off data, wait := .lines, seg := k }

/-- RESTORE_WRITE: of a writable segment; lines are written on each side of a 4 KiB boundary apart. -/
def State.restoreWrite (s : State) (h : Nat) (p : List Byte) : Answer :=
  let c := leAt p 0 1
  let va := leAt p 8 8
  let data := p.drop 18
  match s.rangeIn h c va data.length true with
  | some k =>
    let off := va - (s.seg k).va
    let n := min data.length (4096 - off % 4096)
    let t := s.restoreLines h c k off (data.take n)
    { state := if n < data.length then t.restoreLines h c k (off + n) (data.drop n) else t }
  | none => refuse s 0

/-- RESTORE_WRITE -/
def execRestoreWrite (m : Fin 65) (d : DReq) (s : State) : Host.Outcome State Fault Refusal :=
  next (s.dritha m d 0x0E .tenant ((s.hall m).state = .paused) restorePayloadOk fun t p => t.restoreWrite m p).drainServed

/-! ### The rest (R259, R288, R289, R407, R410 to R412) -/

/-- APPROVE_TRACE: content trace becomes active for the hall where the certificate in force asks for it (R412). -/
def execApproveTrace (m : Fin 65) (d : DReq) (s : State) : Host.Outcome State Fault Refusal :=
  next (s.dritha m d 0x0F .tenant true (sizeIs 48) fun t p =>
    if t.lc.certDigest = p ∧ bit t.lc.contentAsked m then
      { state := { t with lc := { t.lc with contentActive := t.lc.contentActive ||| (1#64 <<< m.val) } } }
    else refuse t 0)

/-- GET_HOST_KEY: hall 0's host session key, on its own mailbox (R259). -/
def execGetHostKey (m : Fin 65) (d : DReq) (s : State) : Host.Outcome State Fault Refusal :=
  next (s.dritha m d 0x20 .hallZero ((s.hallKey 0).hostKey.isSome) noPayload fun t _ =>
    { state := t, payload := bytesOf ((t.hallKey 0).hostKey.getD 0) })

/-- The active plan uses the port and it is in service: an establishment can start on it. -/
def State.canEstablish (s : State) (n : Nat) : Bool := s.linkUsed n ∧ !s.portFenced n

/-- LINK_OPEN: the OPEN offer of a port with the certificate chain of slot 1 (R288, R290). -/
def execLinkOpen (m : Fin 65) (d : DReq) (s : State) : Host.Outcome State Fault Refusal :=
  next (s.dritha m d 0x21 .operator true (fun p => p.length = 1 ∧ leAt p 0 1 < 20) fun t p =>
    if t.canEstablish (leAt p 0 1) then
      let x := (t.need .linkIdentityKey).openLink (leAt p 0 1)
      { state := x.1, payload := x.2 ++ t.lc.linkChain }
    else { state := t, result := drState }).drainServed

/-- LINK_DELIVER: the offer of the far chip, relayed to port `n`; the answer carries the ANSWER with the certificate chain,
if there is one. -/
def execLinkDeliver (m : Fin 65) (d : DReq) (n : Fin 20) (check : OfferCheck) (s : State) :
    Host.Outcome State Fault Refusal :=
  next (s.dritha m d 0x22 .operator true (fun p => 224 ≤ p.length) fun t p =>
    if t.canEstablish n then
      let x := (t.need .linkIdentityKey).relayedOffer n check (parseOffer (p.take 224))
      { state := x.1, payload := ((x.2).map fun a => a ++ t.lc.linkChain).getD [] }
    else { state := t }).drainServed

/-- DEBUG_CERT: the certificate replaces the one in force, or is refused with the reason of R411. -/
def execDebugCert (m : Fin 65) (d : DReq) (sigOk : Bool) (s : State) : Host.Outcome State Fault Refusal :=
  next (s.dritha m d 0x23 .operator true (sizeIs 256) fun t p =>
    let r := t.lc.certCheck (parseCert p) sigOk
    if r = 0 then { state := t.takeCert p } else refuse t r)

/-- DEBUG_CLEAR: every debug right ends. -/
def execDebugClear (m : Fin 65) (d : DReq) (s : State) : Host.Outcome State Fault Refusal :=
  next (s.dritha m d 0x24 .operator true noPayload fun t _ => { state := t.endRights })

/-- The payload of GET_ID_KEYS: serial, identity and link identity public keys. -/
def State.idKeys (s : State) : List Byte :=
  leBytes 8 s.lc.serial.toNat ++ Config.publicKey (s.vault.identity.getD 0) ++
    Config.publicKey (s.vault.linkIdentity.getD 0)

/-- GET_ID_KEYS as a plain message on the MP block mailbox of a PROVISIONED device (R405, R407); within a session it is no
request that the sender may make. -/
def State.getIdKeys (s : State) (m : Nat) (d : DReq) : State :=
  if s.mailOpen m ∧ reqCode d = 0x25 ∧ d.sid = 0 ∧ m = 64 ∧ s.lc.state = .provisioned ∧ reqHdrOk d ∧
      !reqMore d ∧ reqOffset d = 0 ∧ reqTotal d = 0 ∧ d.payload = [] then
    s.replyPlain m 0x25 drOk s.idKeys
  else s.dritha m d 0x25 .operator false noPayload fun t _ => { state := t }

def execGetIdKeys (m : Fin 65) (d : DReq) (s : State) : Host.Outcome State Fault Refusal := next (s.getIdKeys m d)

end Sys2Proof.Machine
end

