-- ==== Sys2Proof/Machine/Reset.lean ====
section
/-! DEFINITION. Power, the two resets, the boot of the management processor, and the release of the fabric (R390 to R394,
R421 to R430), with the clock observation of R442. -/

namespace Sys2Proof.Machine

/-! ### CORE_RST_N (R68, R383, R425 to R427) -/

/-- Every request of an engine port ends RETIRED (R40, R68). -/
def State.retireAll (s : State) : State :=
  forEach (s.engines.filter fun e => e.1 < 256) (fun e t =>
    forEach e.2.dmas (fun d u => u.emit (d.response e.1 .retired)) t) s

/-- What the Vault keeps through CORE_RST_N (R426); every KEY register takes its reset value (R279). -/
def Vault.kept (v : Vault) : Vault :=
  { rootSeed := v.rootSeed, epochRoot := v.epochRoot, identity := v.identity, linkIdentity := v.linkIdentity,
    epoch := v.epoch, rederiving := v.rederiving.filter fun e => match e with
      | .rootSeed | .epochRoot | .identityKey | .linkIdentityKey => true
      | _ => false }

/-- A tenant mailbox whose sessions have ended (R425). -/
def Mailbox.noSessions (b : Mailbox) : Mailbox := { b with sessions := [], bound := none, gather := [], gatherOf := (0, 0) }

/-- The hall fabric and the sealed data path are in reset: every register that CORE_RST_N resets has its reset value. The
life cycle, the fault history, the operator's sessions and the Vault's root entries stay. -/
def State.fabricReset (s : State) : State :=
  let t := s.retireAll
  { t with
    timer := {}, plan := {}, halls := [], funcs := [], queues := [], fences := [], contexts := [], pools := [],
    deadlines := [], engines := [], ports := [], protect := {}, xlat := {}, groups := [], reduce := {}, commit := {},
    gallery := {}, mgmtMsgs := []
    vault := t.vault.kept
    links := t.links.mapAll {} fun _ (l : Link) => { width := l.width }
    faults := { t.faults with fatal := false, cmdResult := 0, units := [], unitCmd := 0, changes := [] }
    lc := { t.lc with contentActive := 0 }
    mailboxes := t.mailboxes.mapAll {} fun m (b : Mailbox) => if isOperator m then b else b.noSessions
    core := { t.core with released := false, engPresent := 0 } }

/-- CORE_RESET: CORE_RST_N is asserted. -/
def State.coreReset (s : State) : State :=
  if s.core.coreRstLow then s
  else
    let t := s.fabricReset
    { t with core := { t.core with coreRstLow := true, coreResets := satAdd t.core.coreResets 1 } }

def execCoreReset (s : State) : Host.Outcome State Fault Refusal := next s.coreReset

/-! ### MGMT_RST_N (R388, R424, R426) -/

/-- A mailbox after MGMT_RST_N: its buffers hold what they held. -/
def Mailbox.reset (b : Mailbox) : Mailbox := { req := b.req, rsp := b.rsp }

/-- MGMT_RESET: MGMT_RST_N is asserted; the halls keep running. -/
def State.mgmtReset (s : State) : State :=
  if s.core.mgmtRstLow then s
  else
    let t := if s.faults.errLow then s.emit (.errN false) else s
    { t with
      lc := { otp := s.lc.otp }
      mailboxes := s.mailboxes.mapAll {} fun _ (b : Mailbox) => b.reset
      mgmtMsgs := []
      vault := { s.vault with
        rootSeed := none, epochRoot := none, identity := none, linkIdentity := none, epoch := 0, epochShown := 0,
        rootShown := false, rekeyOp := 0 }
      faults := { s.faults with
        nextSeq := 1, pinned := none, ring := [], recoveries := 0, driveLow := false, pulse := false }
      core := { s.core with
        mgmtRstLow := true, fwRelease := false, coreResets := 0, fclkCount := 0, hclkRun := [], lclkRun := [],
        fclkInRange := false, deniedCount := 0, deniedReq := 0, deniedWrite := false, deniedOffset := 0 } }

def execMgmtReset (s : State) : Host.Outcome State Fault Refusal := next s.mgmtReset

/-! ### Boot (R390, R396, R401) -/

/-- The firmware authority hash in OTP is not zero. -/
def LifeCycle.fwHash (l : LifeCycle) : Bool := !allZero (l.hashAt 24)

/-- The life-cycle state and OTP let the ROM load an image: not in BLANK and SCRAP (R390, R398). -/
def LifeCycle.loadsImage (l : LifeCycle) : Bool := l.state ≠ .blank ∧ l.state ≠ .scrap ∧ l.fwHash

/-- The life-cycle block as the ROM finds it: OTP read, the state decoded, a nonce drawn (except in SCRAP). -/
def bootLc (otp : List (BitVec 32)) (nonce : List Word) : LifeCycle :=
  let l : LifeCycle := { otp := (List.range 48).foldl (fun t w => t.set 0 w ((otp[w]?).getD 0)) [], mp := .rom }
  let l := { l with state := l.decode, torn := l.tornState.isSome,
                    tornTarget := BitVec.ofNat 3 ((l.tornState.map LcState.code).getD 0),
                    epoch := groupSet l.epochBits, serial := (l.word 1) ++ (l.word 0) }
  if l.state = .scrap then l else { l with nonce := nonce }

/-- The resets are high; the life-cycle block and the root seed in use are loaded. -/
def State.leaveReset (s : State) (l : LifeCycle) : State :=
  { s with
    lc := l
    core := { s.core with mgmtRstLow := false, coreRstLow := false }
    vault := { s.vault with
      epoch := if l.epoch then 1 else 0, epochShown := if l.epoch then 1 else 0, rootSeed := l.seedInUse,
      rootShown := l.seedInUse.isSome } }

/-- The four words of the boot nonce, free values. -/
def State.drawNonce (s : State) : List Word := (List.range 4).map fun i => Config.freeValue (s.freeCtr + i)

/-- What the decoded state asks of the ROM: an illegal encoding is recorded, SCRAP programs the rest of the seed, and a
device that stays in ROM holds the fabric. -/
def State.bootState (s : State) : State :=
  let t := if s.lc.illegal then s.raise Ev.otpProgFail {} else s
  let t := if t.lc.state = .scrap then t.startOtp t.lc.seedZeros none else t
  if !t.lc.loadsImage ∧ t.core.released then t.fabricReset else t

/-- Where the ROM loads an image, it reads SFDP and the image header (R63, R390). -/
def State.readHeader (s : State) : State :=
  if s.lc.loadsImage then (s.emit .bootSfdp).emit (.bootRead 0 512) else s

/-- BOOT: MGMT_RST_N deasserts, with CORE_RST_N if it was low (log entry 6). -/
def State.boot (s : State) (otp : List (BitVec 32)) : State :=
  if !s.core.mgmtRstLow ∨ !s.core.pwrGood then s
  else (({ s with freeCtr := s.freeCtr + 4 }.leaveReset (bootLc otp s.drawNonce)).bootState).readHeader

def execBoot (otp : List (BitVec 32)) (s : State) : Host.Outcome State Fault Refusal := next (s.boot otp)

/-! ### The image (R391 to R394, R423) -/

/-- The image header as bytes. -/
def headerBytes (c : ImageCheck) : List Byte := bytesOf c.header

/-- A little-endian field of the image header. -/
def headerAt (c : ImageCheck) (off n : Nat) : Nat := leAt (headerBytes c) off n

/-- The magic of the image header matches and its reserved fields are zero (R391, R392). -/
def headerOk (c : ImageCheck) : Bool :=
  headerAt c 0 4 = 0x46504D47 ∧ allZero (slice (headerBytes c) 28 4) ∧ allZero (slice (headerBytes c) 272 240)

/-- SHA-384 of fw_key is the firmware authority hash (R391, R392). -/
def keyHashOk (c : ImageCheck) (l : LifeCycle) : Bool := sha384 (slice (headerBytes c) 32 96) = l.hashAt 24

/-- The loaded code has the digest that the header names (R392). -/
def codeOk (c : ImageCheck) : Bool :=
  c.code.length = headerAt c 8 4 ∧ sha384 c.code = slice (headerBytes c) 128 48

/-- LC_STATUS.boot_error: the first failing check, or 0 (R392, R393). -/
def bootError (c : ImageCheck) (l : LifeCycle) : BitVec 4 :=
  if !c.readOk then 1
  else if !headerOk c then 2
  else if !keyHashOk c l then 3
  else if !c.sigOk then 4
  else if !codeOk c then 5
  else if (l.state = .fielded ∨ l.state = .returned) ∧ !(c.certsPresent ∧ c.certsOk) then 6
  else 0

/-- The firmware loads the plan that the image header names: a LOAD_FLASH of it for the first boundary (R394). -/
def State.loadHeaderPlan (s : State) : State :=
  if s.lc.planLength = 0 then s
  else
    ({ s with plan := { s.plan with srcAddr := s.lc.planOffset &&& ~~~(0x3F#64), srcLen := s.lc.planLength &&& 0x1FFFFF#64, target := 0 } }).planLoad true

/-- The firmware runs: epoch root and identity keys are derived, the certificate region has been checked, and the fabric
may be released; where it has stayed released, the header's plan is loaded again. -/
def State.startFirmware (s : State) (c : ImageCheck) : State :=
  let seed := s.vault.rootSeed.getD 0
  let t := { s with
    lc := { s.lc with
      mp := .firmware, certsOk := c.certsPresent && c.certsOk, linkChain := if c.certsPresent && c.certsOk then c.linkChain else [],
      planOffset := BitVec.ofNat 64 (headerAt c 12 4), planLength := BitVec.ofNat 64 (headerAt c 16 4),
      image := slice (headerBytes c) 128 48 ++ slice (headerBytes c) 6 2 ++ slice (headerBytes c) 4 2 }
    vault := { s.vault with
      epochRoot := some (epochRoot seed s.vault.epoch), identity := some (identityKey seed),
      linkIdentity := some (linkIdentityKey seed) }
    core := { s.core with fwRelease := true } }
  if t.core.released then t.loadHeaderPlan else t

/-- The reads of the code and of the certificate region, as far as the checks went (R390, R393). -/
def imageReads (c : ImageCheck) (error : BitVec 4) : List Out :=
  (if error = 0 ∨ 3 ≤ error then [Out.bootRead 512 (headerAt c 8 4)] else []) ++
    if (error = 0 ∨ error = 6) ∧ headerAt c 24 4 ≠ 0 then [.bootRead (headerAt c 20 4) (headerAt c 24 4)] else []

/-- IMAGE_VERIFIED: control passes to the firmware, or boot_error is set and the fabric is held as by CORE_RST_N. -/
def State.imageVerified (s : State) (c : ImageCheck) : State :=
  if s.lc.mp ≠ .rom ∨ s.lc.bootError ≠ 0 ∨ !s.lc.loadsImage then s
  else
    let e := bootError c s.lc
    let u := { s with out := s.out ++ imageReads c e }
    if e = 0 then u.startFirmware c
    else
      let t := { u with lc := { u.lc with bootError := e } }
      if t.core.released then t.fabricReset else t

def execImageVerified (check : ImageCheck) (s : State) : Host.Outcome State Fault Refusal :=
  next (s.imageVerified check)

/-! ### The release of the fabric (R34, R55, R71, R422, R423) -/

/-- The engine ports of a sample of ENG_PRESENT. -/
def presentPorts (present : BitVec 256) : Tab Engine :=
  ((List.range 256).filter fun n => bit present n).map fun n => (n, { present := true })

/-- FABRIC_RELEASE: both moments of R422 have come; ENG_PRESENT is sampled, stride 0 begins, and the firmware loads the
header's plan. -/
def State.fabricRelease (s : State) (present : BitVec 256) : State :=
  if !s.core.fwRelease ∨ s.core.released ∨ !s.core.pwrGood ∨ s.core.mgmtRstLow then s
  else
    ({ s with core := { s.core with released := true, coreRstLow := false, engPresent := present },
              engines := presentPorts present }).loadHeaderPlan

def execFabricRelease (present : BitVec 256) (s : State) : Host.Outcome State Fault Refusal :=
  next (s.fabricRelease present)

/-! ### Power (R421, R426, R430) -/

/-- POWER_LOSS: every volatile bit is lost; OTP stays as it was programmed. The queue of waiting commands, the outputs
already presented and the model's counter of free values are the model's own. -/
def State.powerLoss (s : State) : State :=
  { lc := { otp := s.lc.otp }, pending := s.pending, out := s.out, freeCtr := s.freeCtr }

def execPowerLoss (s : State) : Host.Outcome State Fault Refusal := next s.powerLoss

/-- POWER_UP: PWR_GOOD rises while both resets are low. -/
def State.powerUp (s : State) : State :=
  if s.core.coreRstLow ∧ s.core.mgmtRstLow then { s with core := { s.core with pwrGood := true } } else s

def execPowerUp (s : State) : Host.Outcome State Fault Refusal := next s.powerUp

/-! ### CORE_CLK_STATUS (R442) -/

/-- FCLK_COUNT_WINDOW_END: the window's FCLK edges, and whether HCLK and each LCLKn made an edge in it. -/
def State.clockWindow (s : State) (edges : BitVec 16) (hclk : Bool) (lclk : BitVec 20) : State :=
  if !s.core.pwrGood ∨ s.core.mgmtRstLow then s
  else
    { s with core := { s.core with
        fclkCount := edges, fclkInRange := 4087 ≤ edges.toNat ∧ edges.toNat ≤ 4105,
        hclkRun := (hclk :: s.core.hclkRun).take 4, lclkRun := (lclk :: s.core.lclkRun).take 4 } }

def execFclkCountWindowEnd (edges : BitVec 16) (hclk : Bool) (lclk : BitVec 20) (s : State) :
    Host.Outcome State Fault Refusal := next (s.clockWindow edges hclk lclk)

end Sys2Proof.Machine
end

