-- ==== Sys2Proof/Machine/Regs.lean ====
section
/-! DEFINITION. Register accesses: sizes and halves (R49, R50, R52, R432), who may reach what (R436 to R438), what a write
of each register does, and the register-command rows of the operator and the management processor. -/

namespace Sys2Proof.Machine

/-! ### Halves of a location (R432) -/

/-- The bits of a location that byte enables name. -/
def beMask (be : Byte) : Word := BitVec.ofNat 64 (((List.range 8).map fun i => if bit be i then 0xFF <<< (8 * i) else 0).sum)

/-- A location after a write of its enabled half. -/
def merge (old : Word) (be : Byte) (data : Word) : Word := (old &&& ~~~(beMask be)) ||| (data &&& beMask be)

/-- Every bit of the lower half is enabled, or of the upper half. -/
def lowHalf (be : Byte) : Bool := bits be 3 0 = 0xF
def highHalf (be : Byte) : Bool := bits be 7 4 = 0xF

/-- Byte enables of R49: a half, or both. -/
def beOk (be : Byte) : Bool := be = 0x0F ∨ be = 0xF0 ∨ be = 0xFF

/-! ### Rights (R436 to R438) -/

/-- The rights of the matrix of R437: none, read, or read and write. -/
inductive Right where
  | none | read | write
deriving DecidableEq, Repr

/-- The right of a requester on a block. A tenant function reaches no part of the management space; the management
processor itself answers its mailbox. -/
def rightOf (r : Requester) (block : Nat) : Right :=
  match r, block with
  | .vf _, _ | .reserved _, _ => .none
  | .mp, 1 | .mp, 2 | .mp, 4 | .mp, 6 | .mp, 11 | .mp, 12 | .mp, 13 | .mp, 14 => .write
  | .pf, 1 | .pf, 2 | .pf, 11 | .pf, 12 | .pf, 13 | .pf, 14 => .write
  | .fabric, 11 | .fabric, 12 | .fabric, 13 | .fabric, 14 => .write
  | .test, 12 | .test, 13 | .test, 14 => .write
  | .test, 6 => .none
  | _, _ => .read

/-- CORE_DENIED_LOG.requester (R444). -/
def requesterCode : Requester → BitVec 2
  | .fabric => 0 | .test => 1 | .pf => 2 | .mp => 3 | .vf _ | .reserved _ => 0

/-- A denied access: REG_DENIED, and CORE_DENIED_LOG holds it (R438, R444). -/
def State.deny (s : State) (r : Requester) (write : Bool) (addr : Nat) : State :=
  let t := s.raise Ev.regDenied { hall := if r = .pf then some 0 else none }
  { t with core := { t.core with
      deniedCount := satAdd t.core.deniedCount 1, deniedReq := requesterCode r, deniedWrite := write,
      deniedOffset := BitVec.ofNat 21 (addr / 8) } }

/-- The blocks that answer while the fabric is held: CORE, LC and FLT (R392, R423). -/
def answersHeld (block : Nat) : Bool := block = 0 ∨ block = 11 ∨ block = 12

/-- The requester's port answers accesses to a block now: the management port and the internal path need MGMT_RST_N high,
the host interface a released fabric; the blocks of a reset that is low do not answer, and the MP block answers once the
firmware has released the fabric, through CORE_RST_N too (R68, R425, R436, R447). -/
def State.answers (s : State) (r : Requester) (block : Nat) : Bool :=
  match r with
  | .pf | .vf _ => s.core.released ∧ !(s.core.mgmtRstLow ∧ (block = 12 ∨ block = 14))
  | .mp => s.lc.mp ≠ .reset ∧ (s.core.released ∨ answersHeld block ∨ (s.core.fwRelease ∧ block = 14))
  | .fabric | .test | .reserved _ =>
    !s.core.mgmtRstLow ∧ (s.core.released ∨ answersHeld block ∨ (s.core.fwRelease ∧ block = 14))

/-- A response at the port that asked (R49, R435). -/
def State.respondReg (s : State) (r : Requester) (data : Word) (err : BitVec 2) : State := s.emit (.mgmtRsp r data err)

/-- A write that a requester makes in the management space: refused for its source (R50), held, denied, or made by `f`. -/
def State.writeBy (s : State) (r : Requester) (addr : Nat) (f : State → State) : State :=
  let rsp (t : State) (err : BitVec 2) : State :=
    match r with
    | .fabric | .test => t.respondReg r 0 err
    | _ => t
  match r with
  | .vf _ => s
  | .reserved _ => if s.core.mgmtRstLow then s else s.respondReg r 0 2
  | _ =>
    if !s.answers r (blockOf addr) then
      match r with
      | .fabric | .test => if s.core.mgmtRstLow then s else rsp s 0
      | _ => s
    else if rightOf r (blockOf addr) ≠ .write then rsp (s.deny r true addr) 1
    else rsp (f s) 0

/-! ### Writes, register by register -/

/-- PLAN: the operands of a load, and PLAN_CMD (R113, R114, R117). -/
def State.writePlan (s : State) (off : Nat) (be : Byte) (data : Word) : State :=
  let p := s.plan
  match off with
  | 0x00 => { s with plan := { p with srcAddr := merge p.srcAddr be data &&& ~~~(0x3F#64) } }
  | 0x08 => { s with plan := { p with srcLen := merge p.srcLen be data &&& 0x1FFFFF#64 } }
  | 0x10 => { s with plan := { p with target := merge p.target be data } }
  | 0x18 =>
    if !lowHalf be then s
    else
      match bits data 1 0 with
      | 1 => s.planLoad false
      | 2 => s.planLoad true
      | 3 => s.planCancel
      | _ => s
  | _ => s

/-- HALL_CMD (R147). -/
def State.writeHall (s : State) (off : Nat) (be : Byte) (data : Word) : State :=
  let h := off / 0x1000
  if off % 0x1000 ≠ 0x08 ∨ 64 ≤ h ∨ !lowHalf be then s
  else
    match bits data 1 0 with
    | 1 => s.cmdTeardown h
    | 2 => s.cmdResume h
    | 3 => s.hallResult h 2
    | _ => s

/-- XLAT: the management processor writes the words of a window entry; a reserved state or kind leaves the field
unchanged (R7, R209). -/
def State.writeXlat (s : State) (off : Nat) (be : Byte) (data : Word) : State :=
  if off < 0x40000 ∨ 0x60000 ≤ off then s
  else
    let n := (off - 0x40000) / 32
    let w := off / 8 % 4
    let old := (s.win n).entry
    let new := merge (wordOf old w) be data
    let e : BitVec 256 := BitVec.ofNat 256
      (((List.range 4).map fun i => (if i = w then new else wordOf old i).toNat <<< (64 * i)).sum)
    let x := parseWindow e
    s.modWin n fun y =>
      { x with state := if 3 ≤ bits e 63 60 then y.state else x.state,
               kind := if x.kind = 0 ∨ x.kind = 3 then y.kind else x.kind,
               linkPort := if 20 ≤ x.linkPort then y.linkPort else x.linkPort }

/-- KEY_REKEY_CMD: the management processor's START (R266, R279). -/
def State.writeKey (s : State) (off : Nat) (be : Byte) (data : Word) : State :=
  if off = 0x100 ∧ lowHalf be then s.rekeyStart data else s

/-- FLT (R374, R380, R388, R389): while the fabric is held its units are in reset, and commands to them do nothing. -/
def State.writeFlt (s : State) (off : Nat) (be : Byte) (data : Word) : State :=
  match off with
  | 0x08 => if lowHalf be ∧ bit data 0 ∧ !s.core.mgmtRstLow then s.unpinned else s
  | 0x10 => if lowHalf be ∧ !s.core.mgmtRstLow then s.setDriveLow (bit data 0) else s
  | 0x20 =>
    if !s.core.released then s
    else
      let u := if lowHalf be then BitVec.ofNat 16 (bits data 15 0) else s.faults.unitCmd
      let t := s.nameUnit u
      if !highHalf be then t
      else
        match bits data 33 32 with
        | 1 => t.cmdFence u
        | 2 => t.cmdUnfence u
        | 3 => t.fltResult 2
        | _ => t
  | _ => s

/-- LC_TRANSITION and LC_OTP_CMD (R397, R399). -/
def State.writeLc (s : State) (off : Nat) (be : Byte) (data : Word) : State :=
  match off with
  | 0x08 => if lowHalf be then s.transition (BitVec.ofNat 3 (bits data 2 0)) else s
  | 0x48 => if be = 0xFF then s.otpCmd (bits data 39 32) (BitVec.ofNat 32 (bits data 31 0)) else s
  | _ => s

/-- GAL_CTL and GAL_TELEM (R419); a reserved port number leaves the field unchanged (R7). -/
def State.writeGal (s : State) (off : Nat) (be : Byte) (data : Word) : State :=
  let g := s.gallery
  match off with
  | 0x00 =>
    if !lowHalf be then s
    else
      { s with gallery := { g with
          types := BitVec.ofNat 10 (bits data 15 6), route := bit data 0,
          linkPort := if 20 ≤ bits data 5 1 then g.linkPort else BitVec.ofNat 5 (bits data 5 1) } }
  | 0x18 =>
    let v := merge s.regTelem be data
    { s with gallery := { g with
        depth := BitVec.ofNat 16 (bits v 63 48), unitOffset := BitVec.ofNat 32 (bits v 47 16), enable := bit v 7,
        segment := BitVec.ofNat 3 (bits v 6 4), context := BitVec.ofNat 4 (bits v 3 0) } }
  | _ => s

/-- A mailbox page: MBX_CTL, MBX_LEN and the request buffer (R403, R420). The reserved kind leaves the field as it was (R7;
DEDUCED, log entry 92). -/
def State.writeMailbox (s : State) (m off : Nat) (be : Byte) (data : Word) : State :=
  if s.core.mgmtRstLow then s
  else
    match off with
    | 0x00 =>
      if !lowHalf be then s
      else
        s.modMailbox m fun b => { b with done := b.done ∧ !bit data 2, go := b.go || (bit data 0 && !b.busy) }
    | 0x08 =>
      if !lowHalf be then s
      else
        s.modMailbox m fun b =>
          { b with reqLen := BitVec.ofNat 11 (bits data 10 0), kind := if bits data 12 11 = 3 then b.kind else BitVec.ofNat 2 (bits data 12 11) }
    | _ =>
      if 0x100 ≤ off ∧ off < 0x800 then
        s.modMailbox m fun b =>
          { b with req := (List.range 8).foldl (fun t i =>
              if bit be i then t.set 0 (off - 0x100 + i) (BitVec.ofNat 8 (byteField data i i)) else t) b.req }
      else s

/-- A write of the location at a management-space address. Every other register is read-only. -/
def State.writeMgmt (s : State) (addr : Nat) (be : Byte) (data : Word) : State :=
  let off := addr % 0x100000 / 8 * 8
  match blockOf addr with
  | 1 => s.writePlan off be data
  | 2 => s.writeHall off be data
  | 4 => s.writeXlat ((addr - 0x400000) / 8 * 8) be data
  | 6 => s.writeKey off be data
  | 11 => s.writeFlt off be data
  | 12 => s.writeLc off be data
  | 13 => s.writeGal off be data
  | 14 => s.writeMailbox 64 off be data
  | _ => s

/-- A write of the location at an offset of hall h's function window (R148). -/
def State.writeWindow (s : State) (h off : Nat) (be : Byte) (data : Word) : State :=
  let o := off / 8 * 8
  if o < 0x800 then (if lowHalf be then s.doorbell h (o / 8) data else s)
  else if o = 0x1000 then s.kringBase h (merge (s.readWindow h 0x1000) be data)
  else if o = 0x1008 then (if lowHalf be then (if bit data 0 then s.kringEnable h else s.kringDisable h) else s)
  else if o = 0x1010 then (if lowHalf be then s.kringDoorbell h data else s)
  else if 0x3000 ≤ o ∧ o < 0x4000 then s.writeMailbox h (o - 0x3000) be data
  else s

/-- A write of another size than 4 or 8 bytes has no effect and raises HOST_ACCESS against the function's hall (R52). -/
def State.hostWriteSized (s : State) (h : Nat) (be : Byte) (f : State → State) : State :=
  if beOk be then f s else s.raise Ev.hostAccess { hall := some h }

/-- REGISTER_WRITE: the location at an address, as the requester's port numbers it: the management space for the
management port and the internal path, BAR0 for a function (R51). -/
def State.registerWrite (s : State) (r : Requester) (addr : Nat) (be : Byte) (data : Word) : State :=
  match r with
  | .vf n => if s.core.released then s.hostWriteSized n be fun t => t.writeWindow n addr be data else s
  | .pf =>
    if !s.core.released then s
    else
      s.hostWriteSized 0 be fun t =>
        if addr < 0x1000000 then t.writeBy .pf addr fun u => u.writeMgmt addr be data
        else if addr < 0x1010000 then t.writeWindow 0 (addr - 0x1000000) be data
        else t
  | .mp => s.writeBy .mp addr fun u => u.writeMgmt addr be data
  | _ =>
    if s.core.mgmtRstLow then s
    else if !beOk be then s.respondReg r 0 2
    else s.writeBy r addr fun u => u.writeMgmt addr be data

/-- The requester is a function, which accesses BAR0 on the host port. -/
def onHost : Requester → Bool
  | .pf | .vf _ => true
  | _ => false

/-- REGISTER_WRITE; the management space ends at 16 MiB, and no port but the physical function's can name more. -/
def execRegisterWrite (r : Requester) (addr : Nat) (be : Byte) (data : Word) (s : State) :
    Host.Outcome State Fault Refusal :=
  if !onHost r ∧ 0x1000000 ≤ addr then .fault (.noSuchAddress addr)
  else next (s.registerWrite r addr be data).drainServed

/-! ### Reads (R435, R436, R438) -/

/-- A read in the management space: zero where the block is held or the requester lacks the right, which is logged; else
the half, or both halves, of the location that the read names. -/
def State.readBy (s : State) (r : Requester) (x : RegRead) : State :=
  if !s.answers r (blockOf x.addr) then s.respondReg r 0 0
  else if rightOf r (blockOf x.addr) = .none then (s.deny r false x.addr).respondReg r 0 1
  else s.respondReg r (s.readMgmt r (x.addr / 8 * 8) &&& beMask x.be) 0

/-- A read of a function window: the half, or both halves, that it names (R148, R432). -/
def State.readWin (s : State) (r : Requester) (h off : Nat) (be : Byte) : State :=
  s.respondReg r (s.readWindow h (off / 8 * 8) &&& beMask be) 0

/-- DENIED_READ: the read of one location by a requester; where it has the right, the register's value. On the host port a
read of another size than 4 or 8 bytes returns zero (R52); on the management port a reserved source or other byte enables
get BAD_ACCESS (R50). -/
def State.readAccess (s : State) (r : Requester) (x : RegRead) : State :=
  match r with
  | .vf n => if s.core.released ∧ beOk x.be then s.readWin r n x.addr x.be else s.respondReg r 0 0
  | .pf =>
    if !s.core.released ∨ !beOk x.be then s.respondReg r 0 0
    else if x.addr < 0x1000000 then s.readBy .pf x
    else if x.addr < 0x1010000 then s.readWin r 0 (x.addr - 0x1000000) x.be
    else s.respondReg r 0 0
  | .mp => s.readBy .mp x
  | .reserved _ => if s.core.mgmtRstLow then s else s.respondReg r 0 2
  | _ => if s.core.mgmtRstLow then s else if !beOk x.be then s.respondReg r 0 2 else s.readBy r x

def execDeniedRead (r : Requester) (read : RegRead) (s : State) : Host.Outcome State Fault Refusal :=
  if !onHost r ∧ 0x1000000 ≤ read.addr then .fault (.noSuchAddress read.addr)
  else next (s.readAccess r read)

/-! ### The command registers' rows -/

/-- PLAN_CMD LOAD_HOST -/
def execLoadHost (r : Requester) (s : State) : Host.Outcome State Fault Refusal :=
  next (s.writeBy r 0x100018 fun t => t.planLoad false)

/-- PLAN_CMD LOAD_FLASH -/
def execLoadFlash (r : Requester) (s : State) : Host.Outcome State Fault Refusal :=
  next (s.writeBy r 0x100018 fun t => t.planLoad true)

/-- PLAN_CMD CANCEL -/
def execCancel (r : Requester) (s : State) : Host.Outcome State Fault Refusal :=
  next (s.writeBy r 0x100018 fun t => t.planCancel)

/-- HALL_CMD TEARDOWN -/
def execTeardown (r : Requester) (h : Fin 64) (s : State) : Host.Outcome State Fault Refusal :=
  next (s.writeBy r (0x200008 + 0x1000 * h.val) fun t => t.cmdTeardown h)

/-- HALL_CMD RESUME -/
def execResume (r : Requester) (h : Fin 64) (s : State) : Host.Outcome State Fault Refusal :=
  next (s.writeBy r (0x200008 + 0x1000 * h.val) fun t => t.cmdResume h)

/-- KEY_REKEY_CMD -/
def execRekeyStart (r : Requester) (data : Word) (s : State) : Host.Outcome State Fault Refusal :=
  next (s.writeBy r 0x700100 fun t => t.rekeyStart data)

/-- FLT_UNIT_CMD FENCE; a fabric that is held has its units in reset. -/
def execFence (r : Requester) (unit : BitVec 16) (s : State) : Host.Outcome State Fault Refusal :=
  next (s.writeBy r 0xC00020 fun t => if t.core.released then t.cmdFence unit else t).drainServed

/-- FLT_UNIT_CMD UNFENCE -/
def execUnfence (r : Requester) (unit : BitVec 16) (s : State) : Host.Outcome State Fault Refusal :=
  next (s.writeBy r 0xC00020 fun t => if t.core.released then t.cmdUnfence unit else t).drainServed

/-- FLT_CTL.unpin -/
def execUnpin (r : Requester) (s : State) : Host.Outcome State Fault Refusal :=
  next (s.writeBy r 0xC00008 fun t => if t.core.mgmtRstLow then t else t.unpinned)

/-- FLT_PIN_CTL.drive_low -/
def execDriveLow (r : Requester) (low : Bool) (s : State) : Host.Outcome State Fault Refusal :=
  next (s.writeBy r 0xC00010 fun t => if t.core.mgmtRstLow then t else t.setDriveLow low)

/-- LC_TRANSITION -/
def execLcTransition (r : Requester) (target : BitVec 3) (s : State) : Host.Outcome State Fault Refusal :=
  next (s.writeBy r 0xD00008 fun t => t.transition target)

/-- LC_OTP_CMD -/
def execLcOtpCmd (r : Requester) (word : Byte) (data : BitVec 32) (s : State) : Host.Outcome State Fault Refusal :=
  next (s.writeBy r 0xD00048 fun t => t.otpCmd word.toNat data)

end Sys2Proof.Machine
end

