-- ==== Sys2Proof/Machine/Dispatch.lean ====
section
/-! DEFINITION. The dispatch: one arm per command of the opcode table, each one call of that command's meaning. -/

namespace Sys2Proof.Machine

/-- The effect of a command on everything but the queue of commands. -/
def exec (i : Instr) (s : State) : Host.Outcome State Fault Refusal :=
  match i with
  | .fetchRequest p => Sys2Proof.Machine.execFetchRequest p s
  | .tileBegin p index => Sys2Proof.Machine.execTileBegin p index s
  | .tileEnd p status offset => Sys2Proof.Machine.execTileEnd p status offset s
  | .engOverrun p => Sys2Proof.Machine.execEngOverrun p s
  | .dmaRequest p req beats err => Sys2Proof.Machine.execDmaRequest p req beats err s
  | .signal p data fenceUe => Sys2Proof.Machine.execSignal p data fenceUe s
  | .complete p data => Sys2Proof.Machine.execComplete p data s
  | .redTransfer p hdr beats => Sys2Proof.Machine.execRedTransfer p hdr beats s
  | .preemptAck p => Sys2Proof.Machine.execPreemptAck p s
  | .contextSwitchDone p => Sys2Proof.Machine.execContextSwitchDone p s
  | .preemptRemoteTimeout p => Sys2Proof.Machine.execPreemptRemoteTimeout p s
  | .engNoAck p => Sys2Proof.Machine.execEngNoAck p s
  | .functionLevelReset f => Sys2Proof.Machine.execFunctionLevelReset f s
  | .memoryReadResponse m tag lines => Sys2Proof.Machine.execMemoryReadResponse m tag lines s
  | .counterChainFetched k group levels => Sys2Proof.Machine.execCounterChainFetched k group levels s
  | .memoryCreditReturn m n => Sys2Proof.Machine.execMemoryCreditReturn m n s
  | .memoryRequestTimeout m => Sys2Proof.Machine.execMemoryRequestTimeout m s
  | .wmReadResponse data => Sys2Proof.Machine.execWmReadResponse data s
  | .linkCreditReturn n vc => Sys2Proof.Machine.execLinkCreditReturn n vc s
  | .linkFrameSend n pipeUe => Sys2Proof.Machine.execLinkFrameSend n pipeUe s
  | .linkFrameRelease n vc h => Sys2Proof.Machine.execLinkFrameRelease n vc h s
  | .linkWidthChange n width => Sys2Proof.Machine.execLinkWidthChange n width s
  | .linkDownTimeout n => Sys2Proof.Machine.execLinkDownTimeout n s
  | .retrainRequest n => Sys2Proof.Machine.execRetrainRequest n s
  | .retrainDone n => Sys2Proof.Machine.execRetrainDone n s
  | .retrainTimeout n => Sys2Proof.Machine.execRetrainTimeout n s
  | .marker n f => Sys2Proof.Machine.execMarker n f s
  | .mgmt n f => Sys2Proof.Machine.execMgmt n f s
  | .mgmtMessageTimeout n msg => Sys2Proof.Machine.execMgmtMessageTimeout n msg s
  | .keyx n f offer => Sys2Proof.Machine.execKeyx n f offer s
  | .keyRotationStart n => Sys2Proof.Machine.execKeyRotationStart n s
  | .rotationTimeout n => Sys2Proof.Machine.execRotationTimeout n s
  | .winReq n f => Sys2Proof.Machine.execWinReq n f s
  | .winRsp n f => Sys2Proof.Machine.execWinRsp n f s
  | .windowTimeout n req => Sys2Proof.Machine.execWindowTimeout n req s
  | .pushData n fs => Sys2Proof.Machine.execPushData n fs s
  | .ack n f => Sys2Proof.Machine.execAck n f s
  | .pullReq n f => Sys2Proof.Machine.execPullReq n f s
  | .pullData n fs => Sys2Proof.Machine.execPullData n fs s
  | .copyPageTimeout n req => Sys2Proof.Machine.execCopyPageTimeout n req s
  | .chunk n f innerOk err => Sys2Proof.Machine.execChunk n f innerOk err s
  | .grant n f => Sys2Proof.Machine.execGrant n f s
  | .count n f => Sys2Proof.Machine.execCount n f s
  | .endNotice n f => Sys2Proof.Machine.execEndNotice n f s
  | .observe n f => Sys2Proof.Machine.execObserve n f s
  | .chunkDrain g op flight src err => Sys2Proof.Machine.execChunkDrain g op flight src err s
  | .collStall g => Sys2Proof.Machine.execCollStall g s
  | .collTimeout g => Sys2Proof.Machine.execCollTimeout g s
  | .collAccepted h q => Sys2Proof.Machine.execCollAccepted h q s
  | .groupKeyDelivery g unwrapOk key => Sys2Proof.Machine.execGroupKeyDelivery g unwrapOk key s
  | .groupKeyRetry g => Sys2Proof.Machine.execGroupKeyRetry g s
  | .strideSyncEdge c recognised => Sys2Proof.Machine.execStrideSyncEdge c recognised s
  | .syncLost => Sys2Proof.Machine.execSyncLost s
  | .slotDecision k thermLow fallbacks coreUe => Sys2Proof.Machine.execSlotDecision k thermLow fallbacks coreUe s
  | .strideBoundary => Sys2Proof.Machine.execStrideBoundary s
  | .hallDrainEnd h => Sys2Proof.Machine.execHallDrainEnd h s
  | .hallScrubComplete h => Sys2Proof.Machine.execHallScrubComplete h s
  | .guiltyReset h q => Sys2Proof.Machine.execGuiltyReset h q s
  | .loadHost r => Sys2Proof.Machine.execLoadHost r s
  | .loadFlash r => Sys2Proof.Machine.execLoadFlash r s
  | .cancel r => Sys2Proof.Machine.execCancel r s
  | .planVerificationEnd source => Sys2Proof.Machine.execPlanVerificationEnd source s
  | .teardown r h => Sys2Proof.Machine.execTeardown r h s
  | .resume r h => Sys2Proof.Machine.execResume r h s
  | .doorbell f q data => Sys2Proof.Machine.execDoorbell f q data s
  | .ringEntry h q status entry queueUe => Sys2Proof.Machine.execRingEntry h q status entry queueUe s
  | .kringBaseWrite f data => Sys2Proof.Machine.execKringBaseWrite f data s
  | .kringEnable f => Sys2Proof.Machine.execKringEnable f s
  | .kringDisable f => Sys2Proof.Machine.execKringDisable f s
  | .kringDisableDone f => Sys2Proof.Machine.execKringDisableDone f s
  | .kringDoorbell f data => Sys2Proof.Machine.execKringDoorbell f data s
  | .nop src raw => Sys2Proof.Machine.execNop src raw s
  | .queueCreate f raw => Sys2Proof.Machine.execQueueCreate f raw s
  | .queueDestroy f raw => Sys2Proof.Machine.execQueueDestroy f raw s
  | .queueReset f raw => Sys2Proof.Machine.execQueueReset f raw s
  | .queueRetirementDone f => Sys2Proof.Machine.execQueueRetirementDone f s
  | .fenceSet f raw => Sys2Proof.Machine.execFenceSet f raw s
  | .invoke h q raw d => Sys2Proof.Machine.execInvoke h q raw d s
  | .waitFence h q raw => Sys2Proof.Machine.execWaitFence h q raw s
  | .fenceConditionMet h q => Sys2Proof.Machine.execFenceConditionMet h q s
  | .signalFence h q raw => Sys2Proof.Machine.execSignalFence h q raw s
  | .condSkip h q raw wordStatus word spanStatus span => Sys2Proof.Machine.execCondSkip h q raw wordStatus word spanStatus span s
  | .loopBegin h q raw => Sys2Proof.Machine.execLoopBegin h q raw s
  | .loopEnd h q raw => Sys2Proof.Machine.execLoopEnd h q raw s
  | .coll h q raw => Sys2Proof.Machine.execColl h q raw s
  | .commitOpen h q raw => Sys2Proof.Machine.execCommitOpen h q raw s
  | .commitClose h q raw descs => Sys2Proof.Machine.execCommitClose h q raw descs s
  | .migrate h q raw => Sys2Proof.Machine.execMigrate h q raw s
  | .reservedOpcode src raw readStatus => Sys2Proof.Machine.execReservedOpcode src raw readStatus s
  | .atsTranslationCompletion f pasid page sizeLog2 host rd wr => Sys2Proof.Machine.execAtsTranslationCompletion f pasid page sizeLog2 host rd wr s
  | .prgResponse f pasid page code => Sys2Proof.Machine.execPrgResponse f pasid page code s
  | .atsInvalidateRequest f pasid page sizeLog2 => Sys2Proof.Machine.execAtsInvalidateRequest f pasid page sizeLog2 s
  | .invalidateCompletion f => Sys2Proof.Machine.execInvalidateCompletion f s
  | .hostReadCompletion id sectors => Sys2Proof.Machine.execHostReadCompletion id sectors s
  | .withdrawalComplete w => Sys2Proof.Machine.execWithdrawalComplete w s
  | .withdrawalDrainTimeout w => Sys2Proof.Machine.execWithdrawalDrainTimeout w s
  | .backingScrubDone k => Sys2Proof.Machine.execBackingScrubDone k s
  | .heldWriteComplete h index ue => Sys2Proof.Machine.execHeldWriteComplete h index ue s
  | .patrolScrub m line => Sys2Proof.Machine.execPatrolScrub m line s
  | .treePatrol k level node copies parent => Sys2Proof.Machine.execTreePatrol k level node copies parent s
  | .rekeyStart r data => Sys2Proof.Machine.execRekeyStart r data s
  | .rekeyGroupMove c lines => Sys2Proof.Machine.execRekeyGroupMove c lines s
  | .rekeyGroupComplete c => Sys2Proof.Machine.execRekeyGroupComplete c s
  | .rekeyCancel c => Sys2Proof.Machine.execRekeyCancel c s
  | .vaultUe e => Sys2Proof.Machine.execVaultUe e s
  | .vaultRederiveDone e => Sys2Proof.Machine.execVaultRederiveDone e s
  | .fence r unit => Sys2Proof.Machine.execFence r unit s
  | .unfence r unit => Sys2Proof.Machine.execUnfence r unit s
  | .fenceDrainComplete unit => Sys2Proof.Machine.execFenceDrainComplete unit s
  | .unitReturned unit => Sys2Proof.Machine.execUnitReturned unit s
  | .unpin r => Sys2Proof.Machine.execUnpin r s
  | .driveLow r low => Sys2Proof.Machine.execDriveLow r low s
  | .errPulseExpiry => Sys2Proof.Machine.execErrPulseExpiry s
  | .lcTransition r target => Sys2Proof.Machine.execLcTransition r target s
  | .lcOtpCmd r word data => Sys2Proof.Machine.execLcOtpCmd r word data s
  | .otpBitProgrammed => Sys2Proof.Machine.execOtpBitProgrammed s
  | .otpProgFail => Sys2Proof.Machine.execOtpProgFail s
  | .getVersion m sid => Sys2Proof.Machine.execGetVersion m sid s
  | .getCapabilities m sid => Sys2Proof.Machine.execGetCapabilities m sid s
  | .negotiateAlgorithms m sid supported => Sys2Proof.Machine.execNegotiateAlgorithms m sid supported s
  | .getDigests m sid => Sys2Proof.Machine.execGetDigests m sid s
  | .getCertificate m sid slot => Sys2Proof.Machine.execGetCertificate m sid slot s
  | .challenge m sid slot => Sys2Proof.Machine.execChallenge m sid slot s
  | .getMeasurements m sid => Sys2Proof.Machine.execGetMeasurements m sid s
  | .keyExchange m sid slot => Sys2Proof.Machine.execKeyExchange m sid slot s
  | .finish m sid hmacOk => Sys2Proof.Machine.execFinish m sid hmacOk s
  | .heartbeat m sid => Sys2Proof.Machine.execHeartbeat m sid s
  | .keyUpdate m sid => Sys2Proof.Machine.execKeyUpdate m sid s
  | .endSession m sid => Sys2Proof.Machine.execEndSession m sid s
  | .chunkSend m sid last bytes => Sys2Proof.Machine.execChunkSend m sid last bytes s
  | .chunkGet m sid => Sys2Proof.Machine.execChunkGet m sid s
  | .sessionTimeout m sid => Sys2Proof.Machine.execSessionTimeout m sid s
  | .contribute m d => Sys2Proof.Machine.execContribute m d s
  | .bind m d macOk => Sys2Proof.Machine.execBind m d macOk s
  | .setTagBase m d => Sys2Proof.Machine.execSetTagBase m d s
  | .advanceEpoch m d => Sys2Proof.Machine.execAdvanceEpoch m d s
  | .windowInstall m d => Sys2Proof.Machine.execWindowInstall m d s
  | .windowRemove m d => Sys2Proof.Machine.execWindowRemove m d s
  | .rekey m d => Sys2Proof.Machine.execRekey m d s
  | .admitTenant m d sigsOk => Sys2Proof.Machine.execAdmit m d sigsOk s
  | .withdraw m d => Sys2Proof.Machine.execWithdraw m d s
  | .getDeliveryKey m d => Sys2Proof.Machine.execGetDeliveryKey m d s
  | .commitStage m d src => Sys2Proof.Machine.execCommitStage m d src s
  | .commitAbort m d => Sys2Proof.Machine.execCommitAbort m d s
  | .commitQuery m d => Sys2Proof.Machine.execCommitQuery m d s
  | .restoreWrite m d => Sys2Proof.Machine.execRestoreWrite m d s
  | .approveTrace m d => Sys2Proof.Machine.execApproveTrace m d s
  | .getHostKey m d => Sys2Proof.Machine.execGetHostKey m d s
  | .linkOpen m d => Sys2Proof.Machine.execLinkOpen m d s
  | .linkDeliver m d n offer => Sys2Proof.Machine.execLinkDeliver m d n offer s
  | .debugCert m d sigOk => Sys2Proof.Machine.execDebugCert m d sigOk s
  | .debugClear m d => Sys2Proof.Machine.execDebugClear m d s
  | .getIdKeys m d => Sys2Proof.Machine.execGetIdKeys m d s
  | .debugRightsExpiry => Sys2Proof.Machine.execDebugRightsExpiry s
  | .telemetryWrite => Sys2Proof.Machine.execTelemetryWrite s
  | .tracePacket type h body => Sys2Proof.Machine.execTracePacket type h body s
  | .drop => Sys2Proof.Machine.execDrop s
  | .registerWrite r addr be data => Sys2Proof.Machine.execRegisterWrite r addr be data s
  | .coreReset => Sys2Proof.Machine.execCoreReset s
  | .fabricRelease present => Sys2Proof.Machine.execFabricRelease present s
  | .mgmtReset => Sys2Proof.Machine.execMgmtReset s
  | .boot otp => Sys2Proof.Machine.execBoot otp s
  | .imageVerified check => Sys2Proof.Machine.execImageVerified check s
  | .powerLoss => Sys2Proof.Machine.execPowerLoss s
  | .deniedRead r read => Sys2Proof.Machine.execDeniedRead r read s
  | .fclkCountWindowEnd edges hclk lclk => Sys2Proof.Machine.execFclkCountWindowEnd edges hclk lclk s
  | .powerUp => Sys2Proof.Machine.execPowerUp s

end Sys2Proof.Machine
end

