-- ==== Sys2Proof/Machine/Idle.lean ====
section
/-! DEFINITION. What passes at an empty queue: one FCLK of the stride timer, and with every fourth the trace port's next
packet, the fall of STRIDE_OUT 256 FCLK after its boundary, and what of the core's own accesses and of the fence transfers can go
on (R44, R62, R70, R73, R175, log entry 1). -/

namespace Sys2Proof.Machine

/-- The trace port's next packet leaves: one of another core's first, then this core's own unless they are routed over a
link (R62, R415). -/
def State.tracePort (s : State) : State :=
  match s.gallery.foreign, s.gallery.buffer with
  | b :: rest, _ => ({ s with gallery := { s.gallery with foreign := rest } }).emit (.trace b)
  | [], p :: rest =>
    if s.gallery.route then s else ({ s with gallery := { s.gallery with buffer := rest } }).emit (.trace p.bytes)
  | [], [] => s

/-- One FCLK passes while the fabric is out of reset. -/
def tickFclk (s : State) : State :=
  if s.core.released then
    let t := { s with timer := { s.timer with fclk := s.timer.fclk + 1 } }
    let t := if t.timer.fclk = 256 then t.emit (.strideOut false) else t
    (if t.timer.fclk.toNat % 4 = 0 then t.tracePort else t).drainServed
  else s

end Sys2Proof.Machine
end

