-- ==== Sys2Proof/Safety.lean ====
section
/-! DEFINITION. The terms in which statements speak of a run: what a command answers, which parts of the state two states
share, and the invariant of the resets. -/

namespace Sys2Proof.Safety

open Sys2Proof.Machine

/-- The command answers a next state, and `P` holds of it. -/
def Answers (c : Instr) (s : State) (P : State → Prop) : Prop := ∃ t, exec c s = .next t ∧ P t

/-- The parts of the state that a statement can name. A part called `…Rest` is the rest of its block beside the parts
that have a name of their own. -/
inductive Part where
  | core | strideNum | timerRest | planActive | planRest | halls | funcs | queues | fences | contexts | pools | deadlines
  | engines | ports | protect | segs | windows | xlatRest | slots | hallKeys | vaultRest | links | groups | reduce | commit
  | units | faultsRest | mp | otp | lcRest | mailboxes | mgmtMsgs | gallery | out | freeCtr | pending
deriving DecidableEq, Repr

/-- The state with the parts of `l` blanked. -/
def without (l : List Part) (s : State) : State where
  core := if .core ∈ l then {} else s.core
  timer := { (if .timerRest ∈ l then {} else s.timer) with strideNum := if .strideNum ∈ l then 0 else s.timer.strideNum }
  plan := { (if .planRest ∈ l then {} else s.plan) with active := if .planActive ∈ l then none else s.plan.active }
  halls := if .halls ∈ l then [] else s.halls
  funcs := if .funcs ∈ l then [] else s.funcs
  queues := if .queues ∈ l then [] else s.queues
  fences := if .fences ∈ l then [] else s.fences
  contexts := if .contexts ∈ l then [] else s.contexts
  pools := if .pools ∈ l then [] else s.pools
  deadlines := if .deadlines ∈ l then [] else s.deadlines
  engines := if .engines ∈ l then [] else s.engines
  ports := if .ports ∈ l then [] else s.ports
  protect := if .protect ∈ l then {} else s.protect
  xlat := { (if .xlatRest ∈ l then {} else s.xlat) with
    segs := if .segs ∈ l then [] else s.xlat.segs
    windows := if .windows ∈ l then [] else s.xlat.windows }
  vault := { (if .vaultRest ∈ l then {} else s.vault) with
    slots := if .slots ∈ l then [] else s.vault.slots
    halls := if .hallKeys ∈ l then [] else s.vault.halls }
  links := if .links ∈ l then [] else s.links
  groups := if .groups ∈ l then [] else s.groups
  reduce := if .reduce ∈ l then {} else s.reduce
  commit := if .commit ∈ l then {} else s.commit
  faults := { (if .faultsRest ∈ l then {} else s.faults) with units := if .units ∈ l then [] else s.faults.units }
  lc := { (if .lcRest ∈ l then {} else s.lc) with
    mp := if .mp ∈ l then .reset else s.lc.mp
    otp := if .otp ∈ l then [] else s.lc.otp }
  mailboxes := if .mailboxes ∈ l then [] else s.mailboxes
  mgmtMsgs := if .mgmtMsgs ∈ l then [] else s.mgmtMsgs
  gallery := if .gallery ∈ l then {} else s.gallery
  out := if .out ∈ l then [] else s.out
  freeCtr := if .freeCtr ∈ l then 0 else s.freeCtr
  pending := if .pending ∈ l then [] else s.pending

/-- The two states agree in every part outside `l`. -/
abbrev Frame (l : List Part) (s t : State) : Prop := without l t = without l s

/-- The tables that `read` looks up agree everywhere but at `k`. -/
def SameBut {α : Type} (read : State → Nat → α) (k : Nat) (s t : State) : Prop := ∀ j, j ≠ k → read t j = read s j

/-- Every queue but local queue `q` of hall `h` is as it was; the tables are keyed by 256 × hall + local queue. -/
def SameQueuesBut (h q : Nat) (s t : State) : Prop :=
  ∀ h' q', 256 * h' + q' ≠ 256 * h + q → t.queue h' q' = s.queue h' q'

/-- Every fence but fence `n` of hall `h` is as it was. -/
def SameFencesBut (h n : Nat) (s t : State) : Prop :=
  ∀ h' n', 4096 * h' + n' ≠ 4096 * h + n → t.fence h' n' = s.fence h' n'

/-- Every commit group but group `g` of hall `h` is as it was. -/
def SameCmtBut (h g : Nat) (s t : State) : Prop :=
  ∀ h' g', 64 * h' + g' ≠ 64 * h + g → t.cmt h' g' = s.cmt h' g'

/-- Nothing of the core's own waits between two commands: no inner access has just completed, no write of the core can
start, no request waits for a line that is locked, and no fence transfer waits for write responses. -/
abbrev Settled (s : State) : Prop :=
  s.xlat.served = [] ∧ (∀ w ∈ s.xlat.writes, s.writeReady w = false) ∧
    (∀ e ∈ s.engines, (∀ d ∈ e.2.dmas, d.wait ≠ .lock) ∧ e.2.fences = [])

/-- A DMA_REQUEST that its port takes, is of the form of R39 and belongs to the begun tile `e` of a hall that still has its
generation, and whose context is not being torn down: it reaches the checks of its kind (R36, R39, R40). -/
abbrev DmaTaken (p : Nat) (req : BitVec 128) (e : TileEntry) (s : State) : Prop :=
  (s.engine p).present = true ∧ s.inService 3 p = true ∧ (s.engine p).begun = some e ∧
    e.hallGen = (parseDma req).hallGen ∧ (s.hall e.hall).gen = e.hallGen ∧
    (∀ d ∈ (s.engine p).dmas, d.tag ≠ (parseDma req).tag) ∧
    (parseDma req).formOk = true ∧ (s.ctx e.hall e.context).torn = false ∧ Settled s

/-- A port takes a frame of a kind: the port is in service, the frame opens under its channel's key and counter as header
`h` and body `body`, and the header is well formed (R282, R285, R302). -/
abbrev FrameTaken (n kind : Nat) (f : RxFrame) (h : BitVec 512) (body : List Byte) (s : State) : Prop :=
  s.core.released = true ∧ s.portFenced n = false ∧ (s.link n).openFrame f = some (h, body) ∧
    malformed f.vc h = false ∧ hdrKind h = kind ∧ Settled s

/-- A port's channel after a frame has verified there (R283, R285). -/
def verifiedChan (c : Chan) : Chan := { c with ingress := c.ingress + 1, verified := true, fails := 0 }

/-- A port after a frame on a channel has verified, counted as received for a hall (R283, R285, R417). -/
def verifiedLink (l : Link) (vc hall : Nat) : Link :=
  { l with chans := l.chans.mod {} vc verifiedChan, recv := l.recv.mod 0 hall (· + 1) }

/-- The consumer of VC2 to VC6 takes a frame at once: none of its hall is held before it, and its consumer is ready
(R286). -/
abbrev TakenAtOnce (n vc : Nat) (h : BitVec 512) (s : State) : Prop :=
  (∀ x ∈ ((s.link n).chan vc).held, hdrSrcHall x.1 ≠ hdrSrcHall h) ∧ s.consumerReady n vc h = true

/-- What the loss of a port ends are window requests of engine ports: no page of a MIGRATE is outstanding or waits there, and
no operation runs on a ring that uses the port. -/
abbrev OnlyWindowRequests (n : Nat) (s : State) : Prop :=
  (∀ r ∈ (s.link n).reqs ++ (s.link n).pendingReqs, r.copy = false ∧ r.port < 256) ∧
    ∀ r ∈ s.act.groups, n ∈ r.ringPorts → (s.group r.group).ops = []

/-- A port without keys: nothing is queued or outstanding on it, and each engine's request that was outstanding has its
TIMEOUT_REMOTE response (R290, R302). -/
def KeysLost (n : Nat) (s t : State) : Prop :=
  (t.link n).egressKey = none ∧ (t.link n).ingressKey = none ∧ (t.link n).oldEgress = none ∧
    (t.link n).oldIngress = none ∧ (t.link n).txq = [] ∧ (t.link n).urgent = [] ∧ (t.link n).offerOut = none ∧
    (∀ r ∈ (s.link n).reqs, ∀ d, s.dma r.port r.tag = some d → d.response r.port .timeoutRemote ∈ t.out) ∧
    SameBut State.link n s t

/-- An arriving chunk frame is the one that ring `k` of the operation `o` of a group expects, and its body opens under the
group key (R298, R299, R315). -/
abbrev ChunkExpected (n vc : Nat) (h : BitVec 512) (body plain : List Byte) (r : GroupRec) (o : CollOp)
    (k step i first len : Nat) (s : State) : Prop :=
  s.groupRec (bits h 74 64) = some r ∧ s.opOf (bits h 74 64) (if vc = 2 then 0 else 1) = some o ∧
    (s.group (bits h 74 64)).gen = BitVec.ofNat 16 (byteField h 11 10) ∧ o.accepted = true ∧ k = byteField h 12 12 ∧
    k ∈ r.flights ∧ k < o.rings.length ∧ r.prevPort k = n ∧ recvItem r o k (o.ring k).received = some (step, i, first, len) ∧
    byteField h 15 14 = r.prevMember k ∧ byteField h 28 24 = first / 16 % 2 ^ 40 ∧ byteField h 35 32 = i ∧
    byteField h 13 13 = wireFmt r o k ∧ hdrFrag h = (o.ring k).frags.length ∧
    ((o.ring k).frags ++ [plain]).flatten.length ≤ bodyBytes r o k first len ∧
    hdrLast h = decide (((o.ring k).frags ++ [plain]).flatten.length = bodyBytes r o k first len) ∧
    (hdrLast h = false → plain.length = 960) ∧ (∀ e ∈ s.engines, e.2.redWait = none) ∧
    VaultEntry.groupKey (Fin.ofNat 2048 (bits h 74 64)) ∉ s.vault.rederiving ∧
    ∃ key, (s.group (bits h 74 64)).key = some key ∧ openChunk key h body = some plain

/-- A COLL of a queue stands against an ADMITTED group of its hall, passes R312, finds no operation of its kind in flight
and finds its tiles free (R312, R313); `o` is the operation with its counts. -/
abbrev CollFits (h q : Nat) (raw : BitVec 512) (r : GroupRec) (o : CollOp) (tiles : List Nat) (s : State) : Prop :=
  (s.group r.group).state = .admitted ∧ (s.group r.group).admHall = h ∧ byteField raw 17 16 % 2048 = r.group ∧
    s.groupRec r.group = some r ∧ o = withCounts (s.group r.group) (collOp h q (s.queue h q) raw) ∧ s.collOk r o = true ∧
    s.opOf r.group o.kind = none ∧ s.tilesFor r o = some tiles ∧
    ({ o with accepted := true, tiles := tiles, rings := freshRings r (s.group r.group) o }).over r = false

/-- A SIGNAL frame of a group names the group's generation and a flight (R316). -/
abbrev SignalFor (g k : Nat) (h : BitVec 512) (r : GroupRec) (s : State) : Prop :=
  g = bits h 74 64 ∧ k = byteField h 13 13 ∧ s.groupRec g = some r ∧
    (s.group g).gen = BitVec.ofNat 16 (byteField h 11 10) ∧ k ∈ r.flights

/-- No outstanding request waits for one of these. -/
abbrev NoneWaits (ws : List DmaWait) (s : State) : Prop := ∀ e ∈ s.engines, ∀ d ∈ e.2.dmas, d.wait ∉ ws

/-- The requester's write of the location at an address is made: its port answers and it has the right (R436, R437). -/
abbrev Writable (r : Requester) (addr : Nat) (s : State) : Prop :=
  (∀ n, r ≠ .vf n) ∧ s.answers r (blockOf addr) = true ∧ rightOf r (blockOf addr) = .write

/-- What a write answers at the port that asked: the management port responds, the other ports do not. -/
def rspOf (r : Requester) : List Out :=
  match r with
  | .fabric | .test => [.mgmtRsp r 0 0]
  | _ => []

/-- The state once the core has read the command at which a queue stands (R144, R153, R200). -/
def commandRead (h q : Nat) (b : Buffer) (s : State) : State := s.noteRead h (s.queue h q).context b.commandVa 64 0

/-- The command processor of a queue stands at a command of an opcode with a header that keeps R159, which the core can
read, and the queue holds no commit group open. -/
abbrev AtCommand (h q op : Nat) (raw : BitVec 512) (b : Buffer) (s : State) : Prop :=
  s.atCommand h q = some b ∧ s.bars h (s.queue h q).context b.commandVa 64 = none ∧ byteField raw 0 0 = op ∧
    (s.queue h q).openGroup = none ∧ hdrOk raw = true

/-- The write that a completed command leaves: its completion record, where the header names one, with the count that follows
it, or the count alone behind records that are still to be written (R159, R175). -/
def recordWrite (h q : Nat) (hdr : CmdHdr) (x : Completion) (s : State) : Option CoreWrite :=
  let va := hdr.record.toNat
  let due : Bool := va ≠ 0 ∧ va % 32 = 0
  if due ∨ (hdr.count ∧ s.recordsDue h q) then
    some { id := s.xlat.nextWrite, port := recordPort h q, hall := h, context := (s.queue h q).context, va := va,
           bytes := if due then recordBytes x hdr.tag s.timer.strideNum else [],
           counts := if hdr.count then some q else none }
  else none

/-- The translation unit with a write of the core added. -/
def withWrite (x : Xlat) (w : Option CoreWrite) : Xlat :=
  { x with writes := x.writes ++ w.toList, nextWrite := x.nextWrite + w.toList.length }

/-- The completion counter of a queue after a command of it, where the count does not wait for a record (R174, R175). -/
def countNow (x : Queue) (hdr : CmdHdr) (w : Option CoreWrite) : Word :=
  if hdr.count ∧ w = none then x.completion + 1 else x.completion

/-- A queue after its command has completed OK: its completion counter, and its buffer `n` commands on. -/
def doneQueue (x : Queue) (hdr : CmdHdr) (w : Option CoreWrite) (b : Buffer) (n : Nat) : Queue :=
  { x with completion := countNow x hdr w, buffer := if b.pos + n < b.count then some { b with pos := b.pos + n } else none }

/-- A queue after its command has completed REFUSED and abandoned its buffer. -/
def refusedQueue (x : Queue) (hdr : CmdHdr) (w : Option CoreWrite) : Queue :=
  { x with
    completion := countNow x hdr w,
    firstStatus := if x.firstStatus = 0 then Status.refused.code else x.firstStatus, buffer := none }

/-- A function after its kernel-ring entry has completed with a status (R151). -/
def doneFunc (x : Func) (st : Status) : Func :=
  { x with readIndex := x.readIndex + 1, entryDue := false, lastStatus := st.code, completed := x.completed + 1 }

/-- The kernel ring of a function stands at an entry of an op that the core can read (R150, R151, R272). -/
abbrev AtKEntry (f op : Nat) (raw : BitVec 512) (s : State) : Prop :=
  s.atKEntry f = true ∧ byteField raw 0 0 = op ∧ s.kringStatus f 0 = .ok

/-- A mailbox without its response fields: the connection and the request that stand in it. -/
def connection (b : Mailbox) : Mailbox :=
  { b with done := false, busy := false, go := false, rspLen := 0, kind := 0, rsp := [] }

/-- Mailbox `m` holds a response, stands otherwise as `b`, and has presented `out`; outside `l` nothing else changed. -/
def MailDone (m : Nat) (b : Mailbox) (out : List Out) (l : List Part) (s t : State) : Prop :=
  t.out = s.out ++ out ∧ connection (t.mailbox m) = connection b ∧ (t.mailbox m).done = true ∧
    (t.mailbox m).busy = false ∧ SameBut State.mailbox m s t ∧ Frame (l ++ [.mailboxes, .freeCtr, .out]) s t

/-- A session whose FINISH has verified. -/
abbrev HasSession (b : Mailbox) (sid : Nat) : Prop :=
  (b.sessions.find? fun x => x.sid == sid).map Session.established = some true

/-- A Dritha request of a code, in one message of an established session: its header keeps R405 and its payload is whole. -/
abbrev Asked (m : Nat) (d : DReq) (code : Nat) (s : State) : Prop :=
  s.mailOpen m = true ∧ reqCode d = code ∧ d.sid ≠ 0 ∧ HasSession (s.mailbox m) d.sid ∧ reqHdrOk d = true ∧ reqMore d = false ∧
    reqOffset d = 0 ∧ reqTotal d = d.payload.length ∧ d.payload.length ≤ 1024

/-- The session of a request is bound to the hall of mailbox `m`, which lives (R406). -/
abbrev Bound (m : Nat) (d : DReq) (s : State) : Prop :=
  m ≠ 0 ∧ m ≠ 64 ∧ (s.mailbox m).bound = some d.sid ∧ (s.hall m).state.live = true

/-- A mailbox once it has taken a request: the session has sent a Dritha request, and no fragments wait. -/
def tookRequest (b : Mailbox) (d : DReq) : Mailbox :=
  { b with sessions := b.sessions.map (fun x => if x.sid = d.sid then { x with dritha := true } else x), gather := [] }

/-- The answer to a Dritha request: its code with the top bit set, a result, a reason, a payload (R405). -/
def answerOut (m code : Nat) (result reason : Byte) (payload : List Byte) : List Out :=
  [.mailbox m (BitVec.ofNat 8 (code ||| 0x80)) result reason payload]

/-- The signals of reset and release, the management processor and the stride timer stand together as the chapters on
resets and time have them, and no served access waits between two commands. -/
abbrev Inv (s : State) : Prop :=
  (s.core.released = true → s.core.pwrGood = true ∧ s.core.coreRstLow = false) ∧
  (s.core.pwrGood = false → s.core.coreRstLow = true ∧ s.core.mgmtRstLow = true) ∧
  (s.lc.mp ≠ .reset → s.core.pwrGood = true ∧ s.core.mgmtRstLow = false) ∧
  (s.core.fwRelease = true ↔ s.lc.mp = .firmware) ∧
  (s.core.fwRelease = true → s.core.pwrGood = true ∧ s.core.mgmtRstLow = false) ∧
  s.timer.slot < 64 ∧ s.xlat.served = []

/-- The state after a command has run `n` times over, where it answers a next state each time. -/
def runs (c : Instr) : Nat → State → Option State
  | 0, s => some s
  | n + 1, s => match exec c s with
    | .next t => runs c n t
    | _ => none

/-- The command names a register beyond the 16 MiB of the management space, at a port that numbers no others. -/
def OutsideSpace (c : Instr) : Prop :=
  ∃ (r : Requester) (addr : Nat) (be : Byte), onHost r = false ∧ 0x1000000 ≤ addr ∧
    (c = .deniedRead r { addr := addr, be := be } ∨ ∃ data, c = .registerWrite r addr be data)

end Sys2Proof.Safety
end

