-- ==== Sys2Proof/Certificates/Slice0/Obligations.lean ====
section
/-! DEFINITION. The statements for the provers: the queue and the step, the invariants, the registers and the line code,
then the commands, family by family. -/

open Sys2Proof Sys2Proof.Machine Sys2Proof.Safety

/-- A step of a state with a command at the front of its queue is that command's effect on the state with the queue's
rest. -/
def Obligations.StepRunsTheFrontCommand : Prop :=
  ∀ (c : Instr) (rest : List Instr) (s : State), s.pending = c :: rest → step s = exec c { s with pending := rest }

/-- A step of an empty queue passes one FCLK of the stride timer; STRIDE_OUT falls with the 256th of a stride (R62, R73), and
with every fourth the trace port takes its next packet, another core's first. That a step of an empty queue is one FCLK is
the model's choice (log entry 1). -/
def Obligations.AnEmptyQueueCountsFclk : Prop :=
  ∀ (s : State), s.pending = [] →
    (s.core.released = false → step s = .next s) ∧
    (s.core.released = true → Settled s →
      let timer := { s.timer with fclk := s.timer.fclk + 1 }
      let fall : List Out := if timer.fclk = 256 then [.strideOut false] else []
      (timer.fclk.toNat % 4 ≠ 0 → step s = .next { s with timer := timer }) ∧
      (timer.fclk.toNat % 4 = 0 →
        (∀ b more, s.gallery.foreign = b :: more →
          step s = .next { s with
            timer := timer, gallery := { s.gallery with foreign := more }, out := s.out ++ fall ++ [.trace b] }) ∧
        (∀ p more, s.gallery.foreign = [] → s.gallery.buffer = p :: more → s.gallery.route = false →
          step s = .next { s with
            timer := timer, gallery := { s.gallery with buffer := more }, out := s.out ++ fall ++ [.trace p.bytes] }) ∧
        (s.gallery.foreign = [] → s.gallery.buffer = [] ∨ s.gallery.route = true →
          step s = .next { s with timer := timer, out := s.out ++ fall })))

/-- Every command answers a next state and leaves the commands that wait, but for an access of a management-space
address of 16 MiB or more at the management port or the internal path, which stops. -/
def Obligations.EveryCommandAnswers : Prop :=
  ∀ (c : Instr) (s : State),
    (¬OutsideSpace c → ∃ t, exec c s = .next t ∧ t.pending = s.pending) ∧
    (OutsideSpace c → ∃ addr, exec c s = .fault (.noSuchAddress addr))

/-- `Inv` holds right after reset. -/
def Obligations.ResetMeetsTheInvariant : Prop :=
  Inv State.reset

/-- Every step keeps `Inv`, whatever command runs and whatever the state: a released fabric has power and CORE_RST_N
high, a chip without power has both resets low, the management processor runs only with power and MGMT_RST_N high, the
fabric is let go exactly by firmware, and a stride has 64 slots. -/
def Obligations.StepKeepsTheInvariant : Prop :=
  ∀ (s t : State), Inv s → step s = .next t → Inv t

/-- No step but a BOOT, which reads the OTP array, takes a 1 bit of OTP back to 0. -/
def Obligations.OtpBitsAreNeverCleared : Prop :=
  ∀ (s t : State), step s = .next t → (∀ otp, s.pending.head? ≠ some (.boot otp)) →
    ∀ w b, bit (s.lc.word w) b = true → bit (t.lc.word w) b = true

/-- While the fabric stays released, only a stride boundary moves the stride number, and by one. -/
def Obligations.OnlyBoundariesAdvanceTheStride : Prop :=
  ∀ (s t : State), step s = .next t → s.core.released = true → t.core.released = true →
    t.timer.strideNum = s.timer.strideNum ∨
      (s.pending.head? = some .strideBoundary ∧ t.timer.strideNum = s.timer.strideNum + 1)

/-- After power is applied, while the fabric is held, every location of the management space has the value of the
index of R446; CORE_RST_STATUS shows the signal that is low (R443). That a mailbox buffer reads zero is the model's
choice (log entry 7). -/
def Obligations.ResetRegistersReadTheirTable : Prop :=
  ∀ (r : Requester) (addr : Nat), addr < 0x1000000 → addr % 8 = 0 →
    State.reset.readMgmt r addr =
      if addr = 0x000000 then 0x40001
      else if addr = 0x000008 then 0xD2170047
      else if addr = 0x000010 then 4
      else if addr = 0x000068 then 8
      else if addr = 0x700000 then 0x0000040000000000
      else if addr = 0xA00000 then 0x0400000000000000
      else if addr = 0xC00000 then 0x0000000100000000
      else 0

/-- A line and its MAC field read back from the side-band that R219 and R220 give them, and a line that the controller
marks is not read. One wrong symbol of a code word is corrected, be it a data byte, a MAC byte or a check byte. -/
def Obligations.LinesDecodeAndSingleErrorsAreCorrected : Prop :=
  (∀ (d : Line) (mac : BitVec 32),
     decodeLine { data := d, sb := sideBand d mac, poison := false } = some { data := d, mac := mac, corrected := false } ∧
     (∀ sb, decodeLine { data := d, sb := sb, poison := true } = none)) ∧
  (∀ (d : Line) (mac : BitVec 32) (e : Byte), e ≠ 0 →
     (∀ k, k < 64 →
       decodeLine { data := d ^^^ (e.zeroExtend 512 <<< (8 * k)), sb := sideBand d mac, poison := false } =
         some { data := d, mac := mac, corrected := true }) ∧
     (∀ k, k < 8 →
       decodeLine { data := d, sb := sideBand d mac ^^^ (e.zeroExtend 64 <<< (8 * k)), poison := false } =
         some { data := d, mac := mac, corrected := true }))

/-- A sealed line opens to the data it was sealed from, unless its ciphertext is the poison data; a poison line opens as
poison, sealed or veiled; and a sealed line with the poison data and any other MAC than the poison MAC opens as a failed
MAC (R222, R223, R242, R245). -/
def Obligations.SealedLinesOpenAsTheyWereSealed : Prop :=
  ∀ (k : Slot) (set n ctr : Nat),
    (∀ (d : Line),
      let x := sealLine k .sealed set n ctr d
      x.1 ≠ poisonData → openLine k .sealed set n ctr { data := x.1, sb := x.2, poison := false } = .plain d false) ∧
    (∀ (mode : SegMode),
      let x := poisonLine k mode set n ctr
      openLine k mode set n ctr { data := x.1, sb := x.2, poison := false } = .poisoned) ∧
    (∀ (mac : BitVec 32), mac ≠ poisonMac k set n ctr →
      openLine k .sealed set n ctr { data := poisonData, sb := sideBand poisonData mac, poison := false } = .macFail)

/-- R436: the held fabric holds the host interface and the management port answers the CORE, LC and FLT blocks only; nothing
is denied or logged. Once the firmware has released the fabric, a held fabric's MP block answers as well (R425, R447). -/
def Obligations.AHeldFabricReadsZero : Prop :=
  ∀ (s : State), s.core.released = false →
    (∀ (r : Requester) (addr : Nat) (be : Byte), r = .pf ∨ (∃ n, r = .vf n) →
      exec (.deniedRead r { addr := addr, be := be }) s = .next { s with out := s.out ++ [.mgmtRsp r 0 0] } ∧
      (Settled s → ∀ (data : Word), exec (.registerWrite r addr be data) s = .next s)) ∧
    (∀ (r : Requester) (addr : Nat) (be : Byte), r = .fabric ∨ r = .test → s.core.mgmtRstLow = false → addr < 0x1000000 →
      be = 0x0F ∨ be = 0xF0 ∨ be = 0xFF →
      (blockOf addr = 0 ∨ blockOf addr = 11 ∨ blockOf addr = 12 →
        exec (.deniedRead r { addr := addr, be := be }) s =
          .next { s with out := s.out ++ [.mgmtRsp r (s.readMgmt r (addr / 8 * 8) &&& beMask be) 0] }) ∧
      (blockOf addr ≠ 0 → blockOf addr ≠ 11 → blockOf addr ≠ 12 → blockOf addr ≠ 14 ∨ s.core.fwRelease = false →
        exec (.deniedRead r { addr := addr, be := be }) s = .next { s with out := s.out ++ [.mgmtRsp r 0 0] } ∧
        (Settled s → ∀ (data : Word),
          exec (.registerWrite r addr be data) s = .next { s with out := s.out ++ [.mgmtRsp r 0 0] })))

/-- R397: LC_OTP_CMD is accepted only in TEST and only for words 0, 1 and 12 to 47; then each 1 bit of the data is
programmed, one at a time, and the 0 bits stay. A write elsewhere sets the result NOT_ALLOWED. -/
def Obligations.OtpCommandsProgramTheSetBits : Prop :=
  ∀ (r : Requester) (word : Byte) (data : BitVec 32) (s : State), Writable r 0xD00048 s → s.lc.mp ≠ .reset →
    let w := word.toNat
    let allowed := s.lc.state = .test ∧ (w ≤ 1 ∨ (12 ≤ w ∧ w ≤ 47))
    let n := ((List.range 32).filter fun b => bit data b).length
    (¬allowed →
      Answers (.lcOtpCmd r word data) s fun t =>
        t.lc = { s.lc with result := 1 } ∧ t.out = s.out ++ rspOf r ∧ Frame [.lcRest, .out] s t) ∧
    (allowed → s.lc.job = none → s.lc.pending = false →
      Answers (.lcOtpCmd r word data) s fun t =>
        t.lc.result = 0 ∧ t.lc.otp = s.lc.otp ∧ Frame [.lcRest, .out] s t ∧
        (∀ k < n, ∃ u v b, runs .otpBitProgrammed k t = some u ∧ runs .otpBitProgrammed (k + 1) t = some v ∧ b < 32 ∧
          bit data b = true ∧ v.lc.word w = u.lc.word w ||| (1#32 <<< b)) ∧
        ∃ u, runs .otpBitProgrammed n t = some u ∧ u.lc.word w = s.lc.word w ||| data ∧
          (∀ v, v ≠ w → u.lc.word v = s.lc.word v) ∧ u.lc.job = none ∧ Frame [.otp, .lcRest, .out] s u)

/-- R383: CORE_RST_N returns every unit to IN_SERVICE with no return counted and so with full capacity, and the
release that follows samples ENG_PRESENT; MGMT_RST_N changes no unit. -/
def Obligations.ResetsReturnTheUnits : Prop :=
  ∀ (s : State),
    (s.core.coreRstLow = false →
      Answers .coreReset s fun t =>
        (∀ u, (t.unit u).state = .inService ∧ (t.unit u).returns = [] ∧ (t.unit u).cause = 0) ∧
        (∀ m, t.fencedPipes m = 0) ∧ t.egressCapacity = 256 * 2000000000 ∧ t.clusters = List.range 16 ∧
        (∀ type n, t.inService type n = true) ∧
        (s.core.fwRelease = true → s.core.pwrGood = true → s.core.mgmtRstLow = false → ∀ present,
          Answers (.fabricRelease present) t fun v =>
            v.core.engPresent = present ∧ ∀ n < 256, (v.engine n).present = bit present n)) ∧
    (s.core.mgmtRstLow = false → Answers .mgmtReset s fun t => ∀ u, t.unit u = s.unit u)

/-- FETCH_REQUEST (R35): a present port with no pre-emption under way answers with the entry at the front of its
engine queue, TILE, PARK or EMPTY, in the 64 bytes of R35, and takes that entry out of the queue. A TILE entry becomes the
port's fetched tile. -/
def Obligations.FetchAnswersTheQueueFront : Prop :=
  (∀ (p : Fin 256) (s : State), (s.engine p).present = true → (s.engine p).preemptReq = false →
    (s.engine p).switching = false →
    (∀ e rest, (s.engine p).queue = .tile e :: rest → (s.engine p).fetched = none →
      Answers (.fetchRequest p) s fun t =>
        t.engine p = { s.engine p with queue := rest, fetched := some e } ∧
        t.out = s.out ++ [.fetchRsp p (fetchData (some (.tile e)))] ∧
        SameBut State.engine p s t ∧ Frame [.engines, .out] s t) ∧
    (∀ rest, (s.engine p).queue = .park :: rest →
      Answers (.fetchRequest p) s fun t =>
        t.engine p = { s.engine p with queue := rest } ∧ t.out = s.out ++ [.fetchRsp p 2] ∧
        SameBut State.engine p s t ∧ Frame [.engines, .out] s t) ∧
    ((s.engine p).queue = [] → exec (.fetchRequest p) s = .next { s with out := s.out ++ [.fetchRsp p 0] })) ∧
  (∀ (e : TileEntry), e.hall < 64 → e.context < 16 → e.tile < 2 ^ 32 → e.budget < 2 ^ 32 → e.args < 2 ^ 48 →
    let d := fetchData (some (.tile e))
    bits d 7 0 = 1 ∧ bits d 15 8 = e.hall ∧ bits d 31 16 = e.hallGen.toNat ∧ bits d 39 32 = e.context ∧
      bit d 40 = e.remote ∧ bit d 41 = e.reduce ∧ bits d 47 42 = 0 ∧ bits d 63 48 = e.global.toNat ∧
      bits d 95 64 = e.seq.toNat ∧ bits d 127 96 = e.tile ∧ bits d 159 128 = e.budget ∧ bits d 223 160 = e.args ∧
      bits d 511 224 = e.params.toNat)

/-- TILE_BEGIN and TILE_END (R20, R36, R37, R144, R171). SIGNAL and COMPLETE (R44, R163, R171): a fence transfer whose port has
a write outstanding waits for its response. -/
def Obligations.TilesBeginSignalAndEnd : Prop :=
  ((∀ (p : Fin 256) (index : BitVec 32) (s : State) (e : TileEntry), (s.engine p).present = true →
     s.inService 3 p = true → (s.engine p).begun = none → (s.engine p).preemptReq = false →
     (s.engine p).switching = false → (s.engine p).fetched = some e → e.tile = index.toNat → s.slotOpen e.budget = true →
     Answers (.tileBegin p index) s fun t =>
       t.engine p = { s.engine p with
         fetched := none, begun := some e, overstay := false, counted := s.slotNow, last := some (s.lastTile e) } ∧
       (∀ v, s.invOf e = some v → t.queue e.hall e.local_ = { s.queue e.hall e.local_ with
         inv := some (v.modTile e.tile fun y => { y with phase := .begun p, complete := false }) }) ∧
       ((s.hall e.hall).state.live = true → t.hall e.hall = { s.hall e.hall with
         live := { (s.hall e.hall).live with slots := (s.hall e.hall).live.slots + 1 } }) ∧
       t.out = s.out ++ [.beginReady p e.tile] ∧ SameBut State.engine p s t ∧ SameBut State.hall e.hall s t ∧
       SameQueuesBut e.hall e.local_ s t ∧ Frame [.engines, .halls, .queues, .out] s t) ∧
   (∀ (p : Fin 256) (status : Byte) (offset : BitVec 32) (s : State) (e : TileEntry), (s.engine p).begun = some e →
     (s.engine p).dmas = [] → (s.engine p).fences = [] →
     Answers (.tileEnd p status offset) s fun t =>
       (t.engine p).begun = none ∧
       Frame [.planRest, .halls, .queues, .contexts, .deadlines, .engines, .xlatRest, .commit, .out] s t) ∧
   (∀ (p : Fin 256) (offset : BitVec 32) (s : State) (e : TileEntry) (v : Invocation), (s.engine p).begun = some e →
     (s.engine p).dmas = [] → (s.engine p).fences = [] → s.invOf e = some v →
     v.tile e.tile = { phase := .begun p, faults := 0, complete := true } →
     v.stopping = false → v.done + 1 ≠ v.waveStart v.wave + v.waveSize →
     Answers (.tileEnd p 0 offset) s fun t =>
       t.queue e.hall e.local_ = { s.queue e.hall e.local_ with
         inv := some { v.modTile e.tile (fun x => { x with phase := .done }) with done := v.done + 1 } } ∧
       ((s.hall e.hall).state.live = true → (t.hall e.hall).live = { (s.hall e.hall).live with
         tiles := (s.hall e.hall).live.tiles + 1,
         slots := (s.hall e.hall).live.slots + (s.slotNow - (s.engine p).counted) }) ∧
       t.out = s.out ++ [.endReady p] ∧ SameQueuesBut e.hall e.local_ s t ∧ SameBut State.engine p s t ∧
       SameBut State.hall e.hall s t ∧ Frame [.engines, .halls, .queues, .out] s t)) ∧
  (∀ (p : Fin 256) (data : BitVec 96) (s : State) (e : TileEntry), (s.engine p).present = true →
     s.inService 3 p = true → (s.engine p).begun = some e → e.hallGen = (parseFence data).hallGen →
     (s.hall e.hall).gen = e.hallGen →
     ((s.engine p).writesPending = false → (s.engine p).fences = [] → (parseFence data).reserved = 0 →
       ((parseFence data).kind = 0 →
         Answers (.signal p data false) s fun t =>
           t.fence e.hall (parseFence data).fence = (parseFence data).value ∧
           SameFencesBut e.hall (parseFence data).fence s t ∧ Frame [.fences, .queues] s t) ∧
       (∀ v, (parseFence data).kind = 1 → (parseFence data).fence = 0 → (parseFence data).value = 0 →
         s.invOf e = some v → (v.tile e.tile).phase = .begun p →
         Answers (.complete p data) s fun t =>
           t.queue e.hall e.local_ = { s.queue e.hall e.local_ with
             inv := some (v.modTile e.tile fun x => { x with complete := true }) } ∧
           SameQueuesBut e.hall e.local_ s t ∧ Frame [.queues] s t)) ∧
     ((s.engine p).writesPending = true →
       let later (t : State) : Prop :=
         t.engine p = { s.engine p with fences := (s.engine p).fences ++
           [{ data := data, fenceUe := false, tags := ((s.engine p).dmas.filter Dma.write).map Dma.tag }] } ∧
         SameBut State.engine p s t ∧ Frame [.engines] s t
       ((parseFence data).kind ≠ 1 → Answers (.signal p data false) s later) ∧
       ((parseFence data).kind = 1 → Answers (.complete p data) s later)))

/-- ENG_OVERRUN and ENG_NO_ACK (R38, R46, R376, R377). PREEMPT_ACK, CONTEXT_SWITCH_DONE and PREEMPT_REMOTE_TIMEOUT
(R46, R186, R187). -/
def Obligations.OverrunsAndPreemptionFreeThePort : Prop :=
  ((∀ (p : Fin 256) (s : State) (e : TileEntry), (s.engine p).present = true → s.inService 3 p = true →
     (s.engine p).begun = some e → (s.engine p).stalled = false →
     Answers (.engOverrun p) s fun t =>
       (t.engine p).begun = none ∧ (t.engine p).dmas = [] ∧ (t.engine p).fences = [] ∧ (t.engine p).queue = [] ∧
       (t.unit (unitId 3 p)).state = .fencing ∧ (t.unit (unitId 3 p)).cause = Cause.overrun ∧
       (t.unit (unitId 3 p)).gen = nextGen (s.unit (unitId 3 p)).gen ∧
       Frame [.planRest, .halls, .queues, .contexts, .deadlines, .engines, .ports, .protect, .xlatRest, .links, .commit,
         .units, .faultsRest, .out] s t) ∧
   (∀ (p : Fin 256) (s : State), s.inService 3 p = true → (s.engine p).preemptReq = true →
     Answers (.engNoAck p) s fun t =>
       (t.engine p).begun = none ∧ (t.engine p).dmas = [] ∧ (t.engine p).fences = [] ∧ (t.engine p).queue = [] ∧
       (t.engine p).preemptReq = false ∧
       (t.unit (unitId 3 p)).state = .fencing ∧ (t.unit (unitId 3 p)).cause = Cause.noAck ∧
       (t.unit (unitId 3 p)).gen = nextGen (s.unit (unitId 3 p)).gen ∧
       Frame [.planRest, .halls, .queues, .contexts, .deadlines, .engines, .ports, .protect, .xlatRest, .links, .commit,
         .units, .faultsRest, .out] s t)) ∧
  (∀ (p : Fin 256) (s : State),
     ((s.engine p).preemptReq = true → (s.engine p).begun = none →
       Answers (.preemptAck p) s fun t =>
         t.engine p = { s.engine p with preemptReq := false, switching := true, fetched := none } ∧
         t.out = s.out ++ [.preempt p false] ∧ SameBut State.engine p s t ∧ Frame [.queues, .engines, .out] s t) ∧
     ((s.engine p).switching = true →
       Answers (.contextSwitchDone p) s fun t =>
         t.engine p = { s.engine p with
           switching := false, hall := (s.engine p).nextHall.map fun h => (h, (s.hall h).gen), nextHall := none } ∧
         SameBut State.engine p s t ∧ Frame [.engines] s t) ∧
     ((s.engine p).preemptReq = true →
       Answers (.preemptRemoteTimeout p) s fun t =>
         (t.engine p).redWait = none ∧
         (∀ d ∈ (t.engine p).dmas, d.kind ≠ 2 ∧ ¬(d.kind = 1 ∧ d.wait = .translation)) ∧
         SameBut State.engine p s t ∧ Frame [.engines, .ports, .protect, .xlatRest, .links, .out] s t))

/-- DMA_REQUEST of kind segment on working memory (R42, R138 to R140, R197). DMA_REQUEST of kind remote window (R211,
R213). -/
def Obligations.DmaRequestsRunOrLeaveTheChip : Prop :=
  (∀ (p : Fin 256) (req : BitVec 128) (beats : List WBeat) (s : State) (e : TileEntry), DmaTaken p req e s →
     (parseDma req).kind = 0 → (s.seg (dmaOf e (parseDma req) beats).seg).mode = .wm →
     (s.seg (dmaOf e (parseDma req) beats).seg).check (parseDma req).address (parseDma req).length
       (dmaOf e (parseDma req) beats).write = .pass →
     let d := { dmaOf e (parseDma req) beats with segBase := (s.seg (dmaOf e (parseDma req) beats).seg).base }
     (d.write = false → d.granule ∉ s.protect.written →
       Answers (.dmaRequest p req beats .none) s fun t =>
         t.out = s.out ++ [.dmaRead p d.tag .ok (List.replicate d.beatCount 0)] ∧
         t.protect = { s.protect with arrivals := s.protect.arrivals + 1 } ∧
         ((s.hall d.hall).state.live = true → (t.hall d.hall).live = { (s.hall d.hall).live with
           wmZeroReads := (s.hall d.hall).live.wmZeroReads + 1 }) ∧
         (∀ j, t.engine j = s.engine j) ∧ SameBut State.hall d.hall s t ∧ Frame [.engines, .halls, .protect, .out] s t) ∧
     (d.write = true →
       Answers (.dmaRequest p req beats .none) s fun t =>
         (∀ n, n ∈ t.protect.written ↔ n = d.granule ∨ n ∈ s.protect.written) ∧
         t.protect = { s.protect with arrivals := s.protect.arrivals + 1, written := t.protect.written } ∧
         (∃ l, t.out = s.out ++ l ++ [.dmaWrite p d.tag .ok] ∧
           l = (if d.granule ∈ s.protect.written then d.blocks else d.granuleBlocks).map fun b =>
             .wmWrite (d.segBase * 2 ^ 13 + b / 4) d.hall (s.hall d.hall).gen (wmBlock d b).1
               (if d.granule ∈ s.protect.written then (wmBlock d b).2 else BitVec.allOnes 256)) ∧
         (∀ j, t.engine j = s.engine j) ∧ Frame [.engines, .protect, .out] s t)) ∧
  (∀ (p : Fin 256) (req : BitVec 128) (beats : List WBeat) (s : State) (e : TileEntry), DmaTaken p req e s →
     (parseDma req).kind = 2 →
     let d := dmaOf e (parseDma req) beats
     let n := (s.win d.index).linkPort
     (s.win d.index).serves d.hall d.context d.address d.length d.write = true →
     (s.portFenced n = false ∧ s.linkUsed n = true →
       Answers (.dmaRequest p req beats .none) s fun t =>
         (t.engine p).dmas = (s.engine p).dmas ++ [{ d with wait := .link }] ∧
         (∀ i, (s.link n).freeReq false = some i →
           (t.link n).reqs = (s.link n).reqs ++ [{
             id := i, hall := d.hall, hallGen := d.hallGen, port := p, tag := d.tag, entry := d.index,
             entryGen := (s.win d.index).gen, write := d.write, length := d.length,
             remoteIndex := (s.win d.index).remoteIndex, offset := d.address, data := if d.write then d.bytes else [] }]) ∧
         t.out = s.out ∧ SameBut State.engine p s t ∧ SameBut State.link n s t ∧ Frame [.engines, .links] s t) ∧
     (s.portFenced n = true ∨ s.linkUsed n = false →
       Answers (.dmaRequest p req beats .none) s fun t => t = s.emit (d.response p .timeoutRemote)))

/-- LINK_CREDIT_RETURN, LINK_WIDTH_CHANGE, RETRAIN_REQUEST and RETRAIN_DONE (R59, R61, R300, R301). That a channel's
credits end at 64 and return in the order of the frames is the model's reading (log entry 31). -/
def Obligations.LinkPortsFollowTheirPhy : Prop :=
  (∀ (n : Fin 20) (vc : Fin 8) (s : State),
    Answers (.linkCreditReturn n vc) s fun t =>
      (t.link n).chan vc = { (s.link n).chan vc with
        credits := min 64 (((s.link n).chan vc).credits + 1), inFlight := ((s.link n).chan vc).inFlight.drop 1 } ∧
      SameBut (fun u v => (u.link n).chan v) vc s t ∧ SameBut State.link n s t ∧ Frame [.links] s t) ∧
  (∀ (n : Fin 20) (w : BitVec 2) (s : State),
    let width : BitVec 2 := if w = 3 then 0 else w
    let changed (t : State) : Prop := t.link n = { s.link n with width := width, downAge := 0 } ∧ SameBut State.link n s t
    (width = (s.link n).width → exec (.linkWidthChange n w) s = .next s) ∧
    (width ≠ (s.link n).width →
      (width = 0 → s.inService 4 n = true →
        Answers (.linkWidthChange n w) s fun t => changed t ∧ Frame [.links] s t) ∧
      (width = 1 → s.inService 5 n = true →
        Answers (.linkWidthChange n w) s fun t =>
          changed t ∧ (t.unit (unitId 5 n)).state = .fencing ∧ (t.unit (unitId 5 n)).cause = Cause.narrow ∧
          (t.unit (unitId 5 n)).gen = nextGen (s.unit (unitId 5 n)).gen ∧ Frame [.links, .units, .faultsRest, .out] s t) ∧
      (width = 1 → s.inService 5 n = false →
        Answers (.linkWidthChange n w) s fun t => changed t ∧ Frame [.links, .faultsRest, .out] s t) ∧
      (width = 2 → s.inService 5 n = false → (s.unit (unitId 5 n)).cause = Cause.narrow →
        Answers (.linkWidthChange n w) s fun t =>
          changed t ∧ t.inService 5 n = true ∧ (t.unit (unitId 5 n)).gen = nextGen (s.unit (unitId 5 n)).gen ∧
          Frame [.links, .units, .faultsRest] s t) ∧
      (width = 2 → s.inService 5 n = true ∨ (s.unit (unitId 5 n)).cause ≠ Cause.narrow →
        Answers (.linkWidthChange n w) s fun t => changed t ∧ Frame [.links] s t))) ∧
  (∀ (n : Fin 20) (s : State), s.linkUsed n = true → s.portFenced n = false →
    (s.link n).retrainDue = true → (s.link n).retrainAge = none →
    (∀ f ∈ (s.link n).txq ++ (s.link n).urgent, f.vc ≠ 0) →
    Answers (.retrainRequest n) s fun t =>
      t.link n = { s.link n with retrainDue := false, retrainAge := some 0 } ∧ t.out = s.out ++ [.retrain n true] ∧
      ((s.link n).width ≠ 0 → t.linkState n = .retraining) ∧ SameBut State.link n s t ∧ Frame [.links, .out] s t) ∧
  (∀ (n : Fin 20) (s : State), (s.link n).retrainAge.isSome = true →
    Answers (.retrainDone n) s fun t =>
      t.link n = { s.link n with retrainAge := none } ∧ t.out = s.out ++ [.retrain n false] ∧ SameBut State.link n s t ∧
      Frame [.links, .out] s t)

/-- LINK_FRAME_SEND (R280, R283, R290 to R294): the chosen frame leaves sealed under its channel's key and counter, and spends
both a credit and a counter value; a KEYX or MARKER frame goes ahead of every other, and a last marker ends the old key's use
on its channel. -/
def Obligations.AFrameTimeSendsTheChosenFrame : Prop :=
  ∀ (n : Fin 20) (s : State) (f : TxFrame) (key : BitVec 256), s.canSend n = true → (s.link n).txKey f.vc = some key →
    let sealed_ := sealedFrame key f.vc ((s.link n).chan f.vc).egress f.hdr f.body
    ((s.link n).pickUrgent = none → (s.link n).mustMark = false → s.pickFrame n = some f →
      Answers (.linkFrameSend n none) s fun t =>
        t.out = s.out ++ [.linkFrame n f.vc sealed_.1 sealed_.2] ∧
        ((t.link n).chan f.vc).egress = ((s.link n).chan f.vc).egress + 1 ∧
        ((t.link n).chan f.vc).credits = ((s.link n).chan f.vc).credits - 1 ∧ (t.link n).txq = (s.link n).txq.erase f ∧
        (t.link n).lastHall = f.hall ∧ (t.link n).sentOn f.hall f.vc = (s.link n).sentOn f.hall f.vc + 1 ∧
        ((s.hall f.hall).state.live = true → (t.hall f.hall).live = { (s.hall f.hall).live with
          framesSent := (s.hall f.hall).live.framesSent + 1 }) ∧
        SameBut State.link n s t ∧ SameBut State.hall f.hall s t ∧ Frame [.halls, .links, .out] s t) ∧
    ((s.link n).pickUrgent = some f → (hdrKind f.hdr ≠ fkMarker ∨ hdrLastOfKey f.hdr = false) →
      Answers (.linkFrameSend n none) s fun t =>
        t.out = s.out ++ [.linkFrame n f.vc sealed_.1 sealed_.2] ∧
        ((t.link n).chan f.vc).egress = ((s.link n).chan f.vc).egress + 1 ∧
        ((t.link n).chan f.vc).credits = ((s.link n).chan f.vc).credits - 1 ∧
        (t.link n).urgent = (s.link n).urgent.erase f ∧ (t.link n).txq = (s.link n).txq ∧
        SameBut State.link n s t ∧ Frame [.links, .out] s t) ∧
    (∀ v : Fin 8, (s.link n).pickUrgent = some f → hdrKind f.hdr = fkMarker → hdrLastOfKey f.hdr = true → v.val ≠ f.vc →
      ((s.link n).chan v).switchedOut = false →
      Answers (.linkFrameSend n none) s fun t =>
        t.out = s.out ++ [.linkFrame n f.vc sealed_.1 sealed_.2] ∧ ((t.link n).chan f.vc).egress = 0 ∧
        ((t.link n).chan f.vc).switchedOut = true ∧ (t.link n).oldEgress = (s.link n).oldEgress ∧
        (t.link n).state = (s.link n).state ∧ (t.link n).urgent = (s.link n).urgent.erase f ∧
        SameBut State.link n s t ∧ Frame [.links, .out] s t)

/-- LINK_DOWN_TIMEOUT and RETRAIN_TIMEOUT (R61, R301, R302, R376), ROTATION_TIMEOUT (R290, R291). MARKER, KEYX and
KEY_ROTATION_START (R283, R289 to R291). -/
def Obligations.LinkKeysTurnOrAreLost : Prop :=
  ((∀ (n : Fin 20) (s : State), Settled s → OnlyWindowRequests n s → s.inService 4 n = true →
     let fenced (t : State) : Prop :=
       (t.unit (unitId 4 n)).state = .fencing ∧ (t.unit (unitId 4 n)).cause = Cause.timeout ∧ t.linkState n = .fenced ∧
       KeysLost n s t ∧ (t.link n).reqs = [] ∧ (t.link n).pendingReqs = [] ∧ (t.link n).retrainAge = none ∧
       Frame [.engines, .ports, .protect, .xlatRest, .links, .units, .faultsRest, .gallery, .out] s t
     (s.linkUsed n = true → (s.link n).width = 0 → 16 ≤ (s.link n).downAge → Answers (.linkDownTimeout n) s fenced) ∧
     (∀ a, (s.link n).retrainAge = some a → 16 ≤ a →
       Answers (.retrainTimeout n) s fun t => fenced t ∧ ∃ more, t.out = s.out ++ more ++ [.retrain n false])) ∧
   (∀ (n : Fin 20) (s : State) (g : Gen), Settled s → OnlyWindowRequests n s → s.portFenced n = false →
     (s.link n).pendingReqs = [] → (s.link n).offerOut = some (g, true) → 64 ≤ (s.link n).offerAge →
     Answers (.rotationTimeout n) s fun t =>
       (t.link n).state = .keying ∧ KeysLost n s t ∧ (t.link n).reqs = [] ∧
       Frame [.engines, .ports, .protect, .xlatRest, .links, .gallery, .out] s t)) ∧
  ((∀ (n : Fin 20) (f : RxFrame) (h : BitVec 512) (body : List Byte) (s : State), FrameTaken n fkMarker f h body s →
     (hdrLastOfKey h = false → f.vc = 0 → (s.link n).confirmed = false →
       Answers (.marker n f) s fun t =>
         (t.link n).confirmed = true ∧ (t.link n).state = .up ∧ (t.link n).rotations = (s.link n).rotations + 1 ∧
         ((t.link n).chan 0).ingress = ((s.link n).chan 0).ingress + 1 ∧
         ((s.link n).messages = [] → (t.link n).txq = (s.link n).txq) ∧ t.out = s.out ++ [.linkCredit n 0] ∧
         SameBut State.link n s t ∧ Frame [.links, .out] s t) ∧
     (∀ v : Fin 8, hdrLastOfKey h = true → (s.link n).state = .rotating → (s.link n).oldIngress.isSome = true →
       v ≠ f.vc → ((s.link n).chan v).switchedIn = false → ((s.link n).chan v).switchedOut = false →
       Answers (.marker n f) s fun t =>
         ((t.link n).chan f.vc).ingress = 0 ∧ ((t.link n).chan f.vc).switchedIn = true ∧ (t.link n).state = .rotating ∧
         (t.link n).oldIngress = (s.link n).oldIngress ∧
         t.out = s.out ++ [.linkCredit n f.vc] ∧ SameBut State.link n s t ∧ Frame [.links, .out] s t)) ∧
   (∀ (n : Fin 20) (f : RxFrame) (c : OfferCheck) (h : BitVec 512) (body : List Byte) (s : State),
     FrameTaken n fkKeyx f h body s → body.length = 224 → offerOk c (parseOffer body) = true → s.fwRuns = true →
     let p := parseOffer body
     let switched (t : State) (keys : BitVec 256 × BitVec 256) (gen : Gen) (answer : List TxFrame) : Prop :=
       (t.link n).state = .rotating ∧ (t.link n).gen = gen ∧ (t.link n).lastGen = gen ∧
       (t.link n).egressKey = some keys.1 ∧ (t.link n).ingressKey = some keys.2 ∧
       (t.link n).oldEgress = (s.link n).egressKey ∧ (t.link n).oldIngress = (s.link n).ingressKey ∧
       (t.link n).offerOut = none ∧
       (t.link n).urgent = (s.link n).urgent ++ answer ++
         (List.range 8).map (fun v => { hall := noHall, vc := v, hdr := s.markerHdr true, body := [] }) ∧
       t.out = s.out ++ [.linkCredit n f.vc] ∧ SameBut State.link n s t ∧ Frame [.links, .out] s t
     (∀ own, s.answersMine n p true = some own →
       Answers (.keyx n f c) s fun t => switched t (s.agreedKeys n own 1 p.generation p) p.generation []) ∧
     (p.kind = 1 → s.openStands n p = true → (s.link n).oldEgress = none → (s.link n).oldIngress = none →
       Answers (.keyx n f c) s fun t =>
         switched t (s.agreedKeys n (s.answerGen n p.generation) 2 (s.answerGen n p.generation) p)
           (s.answerGen n p.generation)
           [{ hall := noHall, vc := 0, hdr := frameHdr fkKeyx 2 0 0 224 (s.srcGen 0) [],
              body := s.ownOffer n (s.answerGen n p.generation) 2 p.serial p.port }])) ∧
   (∀ (n : Fin 20) (v : Fin 8) (s : State), s.fwRuns = true → s.linkState n = .up → (s.link n).offerOut = none →
     0xF0000000 ≤ (((s.link n).chan v).egress).toNat →
     Answers (.keyRotationStart n) s fun t =>
       t.link n = { s.link n with
         state := .rotating, offerOut := some (nextGen (s.link n).lastGen, true), offerAge := 0,
         urgent := (s.link n).urgent ++ [{
           hall := noHall, vc := 0, hdr := frameHdr fkKeyx 2 0 0 224 (s.srcGen 0) [],
           body := s.ownOffer n (nextGen (s.link n).lastGen) 1 0 0 }] } ∧
       SameBut State.link n s t ∧ Frame [.links] s t))

/-- MGMT and MGMT_MESSAGE_TIMEOUT (R409): the first fragment of a message opens it, the next one in offset order extends it,
one out of order discards it, and a message not whole within 64 strides is discarded. -/
def Obligations.ManagementMessagesAreReassembled : Prop :=
  (∀ (n : Fin 20) (f : RxFrame) (h : BitVec 512) (body : List Byte) (s : State), FrameTaken n fkMgmt f h body s →
    let id := BitVec.ofNat 32 (byteField h 11 8)
    let total := byteField h 15 12
    let off := byteField h 19 16
    let others := s.mgmtMsgs.filter fun m => !(m.port == n.val && m.id == id)
    let taken (t : State) : Prop :=
      t.out = s.out ++ [.linkCredit n f.vc] ∧ ((t.link n).chan f.vc).ingress = ((s.link n).chan f.vc).ingress + 1 ∧
      SameBut State.link n s t ∧ Frame [.links, .mgmtMsgs, .out] s t
    (off = 0 → total ≤ 16777216 → body.length < total →
      Answers (.mgmt n f) s fun t =>
        taken t ∧ t.mgmtMsgs = others ++ [{ port := n, id := id, total := total, bytes := body, age := 0 }]) ∧
    (∀ m, s.mgmtMsgs.find? (fun m => m.port == n.val && m.id == id) = some m → off ≠ 0 →
      (off = m.bytes.length → total ≤ 16777216 → off + body.length < total →
        Answers (.mgmt n f) s fun t =>
          taken t ∧ t.mgmtMsgs = others ++ [{ m with port := n, id := id, total := total, bytes := m.bytes ++ body }]) ∧
      (off ≠ m.bytes.length →
        Answers (.mgmt n f) s fun t => taken t ∧ t.mgmtMsgs = others))) ∧
  (∀ (n : Fin 20) (msg : BitVec 32) (s : State),
    Answers (.mgmtMessageTimeout n msg) s fun t =>
      (∀ m, m ∈ t.mgmtMsgs ↔ m ∈ s.mgmtMsgs ∧ ¬(m.port = n ∧ m.id = msg ∧ 64 ≤ m.age)) ∧ Frame [.mgmtMsgs] s t)

/-- WIN_REQ and PULL_REQ of a read (R42, R139, R212, R296, R297): a read of clear working memory is answered with zeros.
PUSH_DATA (R212, R297): a fragment that opens a page is kept; a page for a hall that is not active is answered RETIRED with
its last fragment. -/
def Obligations.InboundRequestsAreAnswered : Prop :=
  (∀ (n : Fin 20) (f : RxFrame) (h : BitVec 512) (body : List Byte) (s : State) (k a : Nat),
     let r := parseInReq h
     TakenAtOnce n f.vc h s → r.write = false → s.checkInbound n r.srcHall r.index r.offset r.length false = .access k a →
     (s.seg k).check a r.length false = .pass → (s.seg k).mode = .wm →
     ((s.seg k).base * 2 ^ 21 + a) / 4096 ∉ s.protect.written → hdrLast h = true →
     (∀ i ∈ (s.link n).inbound, ¬(hdrLast i.hdr = true ∧ (parseInReq i.hdr).tag = r.tag)) →
     let answered (t : State) : Prop :=
       t.link n = { verifiedLink (s.link n) f.vc (s.rxHall h) with
         txq := ((s.answer n h .ok (List.replicate r.length 0)).link n).txq } ∧
       t.out = s.out ++ [.linkCredit n f.vc] ∧ SameBut State.link n s t ∧ SameBut State.engine (innerPort n) s t ∧
       Frame [.halls, .engines, .protect, .links, .out] s t
     (FrameTaken n fkWinReq f h body s → Answers (.winReq n f) s answered) ∧
     (FrameTaken n fkCopy f h body s → byteField h 14 14 = cpPull → Answers (.pullReq n f) s answered)) ∧
  (∀ (n : Fin 20) (f : RxFrame) (h : BitVec 512) (body : List Byte) (s : State), FrameTaken n fkCopy f h body s →
     TakenAtOnce n f.vc h s → byteField h 14 14 = cpPush →
     (hdrLast h = false → hdrFrag h = 0 →
       Answers (.pushData n [f]) s fun t =>
         (∃ l, t.link n = { verifiedLink (s.link n) f.vc (s.rxHall h) with inbound := l ++ [{ hdr := h, frags := [body] }] } ∧
           ∀ i, i ∈ l ↔ i ∈ (s.link n).inbound ∧ ¬(hdrLast i.hdr = false ∧ (parseInReq i.hdr).tag = (parseInReq h).tag ∧
             (parseInReq i.hdr).copy = true)) ∧
         t.out = s.out ++ [.linkCredit n f.vc] ∧ SameBut State.link n s t ∧ Frame [.links, .out] s t) ∧
     (∀ i, hdrLast h = true → i ∈ (s.link n).inbound → hdrLast i.hdr = false →
       (parseInReq i.hdr).tag = (parseInReq h).tag → (parseInReq i.hdr).copy = true →
       (∀ j ∈ (s.link n).inbound, hdrLast j.hdr = false → (parseInReq j.hdr).tag = (parseInReq h).tag → j = i) →
       hdrFrag h = i.frags.length → 0 < i.frags.length → (i.frags ++ [body]).flatten.length = 4096 →
       s.checkInbound n (parseInReq h).srcHall (parseInReq h).index (parseInReq h).offset 4096 true = .retired →
       Answers (.pushData n [f]) s fun t =>
         (t.link n).txq = ((s.answer n h .retired []).link n).txq ∧ i ∉ (t.link n).inbound ∧
         t.out = s.out ++ [.linkCredit n f.vc] ∧ SameBut State.link n s t ∧ Frame [.links, .out] s t))

/-- WIN_RSP (R213, R296) and WINDOW_TIMEOUT (R213). ACK, PULL_DATA and COPY_PAGE_TIMEOUT (R208, R297). The number of a
request that has timed out is kept from use, since its reply may still come (log entry 75). -/
def Obligations.OutboundRequestsEnd : Prop :=
  (∀ (n : Fin 20) (s : State) (r : WinReqOut) (d : Dma), (s.link n).pendingReqs = [] → s.dma r.port r.tag = some d →
     r.port < 256 → Settled s →
     let ended (t : State) : Prop :=
       (t.engine r.port).dmas = (s.engine r.port).dmas.filter (fun x => x.tag != r.tag) ∧
       SameBut State.link n s t ∧ SameBut State.engine r.port s t ∧ Frame [.engines, .links, .out] s t
     (∀ (f : RxFrame) (h : BitVec 512) (body : List Byte), FrameTaken n fkWinRsp f h body s → TakenAtOnce n f.vc h s →
       hdrLast h = true → byteField h 14 14 = Status.ok.code.toNat →
       s.reqOf n false false (bits h 107 96) (BitVec.ofNat 16 (byteField h 11 10))
         (BitVec.ofNat 16 (byteField h 17 16)) (bits h 125 120) = some r →
       let x := { r with frags := r.frags ++ [body] }
       let lines := (beatsOf d.address (x.frags.flatten.take d.length)).map WBeat.data
       Answers (.winRsp n f) s fun t =>
         (∃ l, t.out = s.out ++ [.linkCredit n f.vc, { d with lines := l }.response r.port .ok] ∧
           ∀ i < lines.length, some (Tab.get 0 l i) = lines[i]?) ∧
         t.link n = { verifiedLink (s.link n) f.vc (s.rxHall h) with
           reqs := ((s.link n).reqs.map fun y => if y = r then x else y).erase x } ∧ ended t) ∧
     (∀ req : Fin 4096,
       (s.link n).reqs.find? (fun x => x.copy == false && x.id == req.val && x.started && decide (4 ≤ x.age)) = some r →
       Answers (.windowTimeout n req) s fun t =>
         t.out = s.out ++ [d.response r.port .timeoutRemote] ∧
         t.link n = { s.link n with reqs := (s.link n).reqs.erase r, late := (s.link n).late ++ [(r.copy, r.id)] } ∧
         ended t)) ∧
  ((∀ (n : Fin 20) (s : State) (r : WinReqOut) (m : Migration), (s.link n).pendingReqs = [] → r.hall < 64 →
     r.queue < 256 → s.migration r.hall r.queue = some m → m.fail = none → m.next = m.pages →
     (∃ x ∈ m.out, x.1 = r.page) → (∃ x ∈ m.out, x.1 ≠ r.page) → Settled s →
     (∀ (f : RxFrame) (h : BitVec 512) (body : List Byte), FrameTaken n fkCopy f h body s → TakenAtOnce n f.vc h s →
       byteField h 14 14 = cpAck → byteField h 15 15 = Status.ok.code.toNat →
       s.reqOf n true true (bits h 107 96) (BitVec.ofNat 16 (byteField h 11 10))
         (BitVec.ofNat 16 (byteField h 25 24)) (bits h 213 208) = some r →
       Answers (.ack n f) s fun t =>
         t.migration r.hall r.queue = some { m with out := m.out.filter fun x => x.1 != r.page } ∧
         t.link n = { verifiedLink (s.link n) f.vc (s.rxHall h) with reqs := (s.link n).reqs.erase r } ∧
         t.out = s.out ++ [.linkCredit n f.vc] ∧ SameBut State.link n s t ∧ Frame [.links, .xlatRest, .out] s t) ∧
     (∀ req : Fin 4096, r.copy = true →
       (s.link n).reqs.find? (fun x => x.copy == true && x.id == req.val && x.started && decide (4 ≤ x.age)) = some r →
       Answers (.copyPageTimeout n req) s fun t =>
         t.migration r.hall r.queue =
           some { m with out := m.out.filter fun x => x.1 != r.page, fail := some (r.page, .timeoutRemote) } ∧
         t.link n = { s.link n with reqs := (s.link n).reqs.erase r, late := (s.link n).late ++ [(r.copy, r.id)] } ∧
         t.out = s.out ∧ SameBut State.link n s t ∧ Frame [.links, .xlatRest] s t)) ∧
   (∀ (n : Fin 20) (s : State) (r : WinReqOut) (f : RxFrame) (h : BitVec 512) (body : List Byte),
     FrameTaken n fkCopy f h body s → TakenAtOnce n f.vc h s → byteField h 14 14 = cpData → hdrLast h = false →
     s.reqOf n true false (bits h 107 96) (BitVec.ofNat 16 (byteField h 11 10))
       (BitVec.ofNat 16 (byteField h 25 24)) (bits h 213 208) = some r →
     Answers (.pullData n [f]) s fun t =>
       t.link n = { verifiedLink (s.link n) f.vc (s.rxHall h) with
         reqs := (s.link n).reqs.map fun x => if x = r then { r with frags := r.frags ++ [body] } else x } ∧
       t.out = s.out ++ [.linkCredit n f.vc] ∧ SameBut State.link n s t ∧ Frame [.links, .out] s t))

/-- CHUNK and LINK_FRAME_RELEASE (R286, R299, R315, R320): the body is opened under the group key; a fragment collects, and a
chunk of a reduce-scatter joins its tile whole. -/
def Obligations.ChunksArriveInTheirTiles : Prop :=
  ∀ (n : Fin 20) (vc : Fin 8) (h : BitVec 512) (body plain : List Byte) (s : State) (r : GroupRec) (o : CollOp)
    (k step i first len : Nat), ChunkExpected n vc h body plain r o k step i first len s → hdrKind h = fkChunk →
    s.consumerReady n vc h = true → (s.group (bits h 74 64)).state = .admitted →
    let g := bits h 74 64
    let frags := (o.ring k).frags ++ [plain]
    let fragment (t : State) : Prop :=
      t.opOf g o.kind = some (o.modRing k fun y => { y with waited := 0, progress := true, frags := frags }) ∧
      t.out = s.out ++ [.linkCredit n vc] ∧ SameBut State.group g s t ∧ SameBut State.link n s t ∧
      Frame [.groups, .links, .out] s t
    let whole (t : State) : Prop :=
      (∃ o', t.opOf g 0 = some o' ∧ (o'.ring k).received = (o.ring k).received + 1 ∧ (o'.ring k).frags = [] ∧
        ∃ c ∈ o'.chunks, c.flight = k ∧ c.seqNo = (o.ring k).received ∧ c.first = first ∧
          (pairs r o k = false → c.sums = decodeElems (wireFmt r o k) frags.flatten 0 len)) ∧
      t.out = s.out ++ [.linkCredit n vc] ∧ SameBut State.group g s t ∧ Frame [.groups, .links, .out] s t
    (∀ f : RxFrame, FrameTaken n fkChunk f h body s → TakenAtOnce n f.vc h s → f.vc = vc →
      (hdrLast h = false → Answers (.chunk n f none .none) s fun t => fragment t ∧
        t.link n = verifiedLink (s.link n) f.vc (s.rxHall h)) ∧
      (hdrLast h = true → o.kind = 0 → (o.ring k).sent ≠ workItems r o k →
        Answers (.chunk n f none .none) s whole)) ∧
    (∀ hall : Fin 64, Settled s →
      ((s.link n).chan vc).held.find? (fun x => hdrSrcHall x.1 == hall.val) = some (h, body) →
      (hdrLast h = false → Answers (.linkFrameRelease n vc hall) s fun t => fragment t ∧
        ((t.link n).chan vc).held = ((s.link n).chan vc).held.erase (h, body)) ∧
      (hdrLast h = true → o.kind = 0 → (o.ring k).sent ≠ workItems r o k →
        Answers (.linkFrameRelease n vc hall) s whole))

/-- COLL and COLL_ACCEPTED (R313, R316). GROUP_KEY_DELIVERY (R261, R310): GK is derived on the chip that issues it, and comes
wrapped to the others. GROUP_KEY_RETRY (R310): the request goes out again. -/
def Obligations.GroupsAreKeyedAndRunCollectives : Prop :=
  (∀ (h : Fin 64) (q : Fin 256) (raw : BitVec 512) (s : State) (r : GroupRec) (o : CollOp) (tiles : List Nat),
     CollFits h q raw r o tiles s →
     let accepted (t : State) : Prop :=
       t.opOf r.group o.kind =
         some { o with accepted := true, tiles := tiles, rings := freshRings r (s.group r.group) o } ∧
       (∀ i ∈ tiles, (Tab.get {} t.reduce.tiles i).state = .filling ∧ (Tab.get {} t.reduce.tiles i).group = r.group ∧
         (Tab.get {} t.reduce.tiles i).hall = h) ∧ SameBut State.group r.group s t
     (∀ b, AtCommand h q 0x07 raw b s → collFieldsOk raw = true →
       Answers (.coll h q raw) s fun t => accepted t ∧ SameQueuesBut h q s t ∧
         Frame [.queues, .links, .groups, .reduce] (commandRead h q b s) t) ∧
     (∀ hdr, (s.queue h q).wait = .coll hdr raw → (s.hall h).state = .active → Answers (.collAccepted h q) s fun t => accepted t ∧
       Frame [.planRest, .halls, .queues, .xlatRest, .commit, .links, .groups, .reduce, .out] s t)) ∧
  (∀ (g : Fin 2048) (s : State) (r : GroupRec), (s.group g).state = .admitting → s.groupRec g = some r → s.fwRuns = true →
     let keyed (key : BitVec 256) (t : State) : Prop :=
       t.group g = { s.group g with
         state := .admitted, gen := (s.group g).pendingGen, pendingGen := 0, admAge := 0, key := some key,
         delivery := some (deliveryKey key g), rounding := some (roundingKey (s.group g).seed), innerCtr := [],
         grants := [] } ∧
       SameBut State.group g s t ∧ Frame [.halls, .groups] s t
     (∀ (sender : Word) (wrapped : BitVec 320), s.mayInstall = true → .epochRoot ∉ s.vault.rederiving → Settled s →
       (∀ er, s.issues g = true → s.vault.epochRoot = some er →
         Answers (.groupKeyDelivery g sender wrapped) s
           (keyed (groupKey er g (s.group g).pendingGen (s.group g).digest))) ∧
       (∀ m key, s.issues g = false → (s.membersOf r)[0]? = some m → m.serialLo = BitVec.ofNat 32 sender.toNat →
         keyUnwrap (Config.transportKey sender s.lc.serial) (bytesOf wrapped) = some key →
         Answers (.groupKeyDelivery g sender wrapped) s (keyed key))) ∧
     (∀ m, 64 ≤ (s.group g).admAge → s.issues g = false → (s.membersOf r)[0]? = some m →
       let p := s.portTo m.serialLo
       Answers (.groupKeyRetry g) s fun t =>
         t.group g = { s.group g with admAge := 0 } ∧
         (t.link p).messages = (s.link p).messages ++
           [(BitVec.ofNat 32 s.freeValue.toNat, Config.keyRequest g (s.group g).digest s.lc.serial)] ∧
         SameBut State.group g s t ∧ SameBut State.link p s t ∧ Frame [.links, .groups, .freeCtr] s t))

/-- GRANT, COUNT and END (R316, R321, R323). COLL_STALL and COLL_TIMEOUT (R322, R323). -/
def Obligations.SignalsAndWaitCountsReachTheGroup : Prop :=
  (∀ (n : Fin 20) (f : RxFrame) (h : BitVec 512) (body : List Byte) (s : State) (g k : Nat) (r : GroupRec),
     FrameTaken n fkSignal f h body s → SignalFor g k h r s →
     (∀ o, byteField h 12 12 = sigGrant → r.nextPort k = n → s.opOf g (byteField h 14 14) = some o →
       o.accepted = true → o.step = BitVec.ofNat 64 (byteField h 23 16) → o.kind ≠ 2 → k < o.rings.length →
       Answers (.grant n f) s fun t =>
         t.opOf g o.kind = some (o.modRing k fun y =>
           { y with granted := max y.granted (byteField h 27 24), waited := 0, progress := true }) ∧
         t.link n = verifiedLink (s.link n) f.vc (s.rxHall h) ∧ t.out = s.out ++ [.linkCredit n f.vc] ∧
         SameBut State.group g s t ∧ SameBut State.link n s t ∧ Frame [.links, .groups, .out] s t) ∧
     (∀ o i, byteField h 12 12 = sigCount → r.prevPort k = n → s.opOf g 2 = some o → o.accepted = true →
       byteField h 14 14 = 2 → o.step = BitVec.ofNat 64 (byteField h 23 16) → k < o.rings.length →
       byteField h 29 28 + byteField h 27 24 ≤ r.members → i < r.members → Tab.get 0 o.counts i = 0 →
       (i < byteField h 29 28 ∨ byteField h 29 28 + byteField h 27 24 ≤ i) →
       Answers (.count n f) s fun t =>
         (∃ o', t.opOf g 2 = some o' ∧ (o'.ring k).received = (o.ring k).received + 1 ∧
           ∀ j < byteField h 27 24, Tab.get 0 o'.counts (byteField h 29 28 + j) = leAt body (8 * j) 8 + 1) ∧
         t.out = s.out ++ [.linkCredit n f.vc] ∧ SameBut State.group g s t ∧ Frame [.links, .groups, .out] s t) ∧
     (byteField h 12 12 = sigEnd → (s.group g).gen ≠ 0 → (s.group g).state = .admitted ∨ (s.group g).state = .stalled →
       Answers (.endNotice n f) s fun t =>
         (t.group g).state = .faulted ∧ (t.group g).ops = [] ∧ SameBut State.group g s t ∧
         Frame [.planRest, .halls, .queues, .fences, .engines, .ports, .protect, .xlatRest, .hallKeys, .vaultRest, .links,
           .groups, .reduce, .commit, .units, .faultsRest, .gallery, .out] s t)) ∧
  (∀ (g : Fin 2048) (s : State),
     ((s.group g).state = .admitted → (∃ o ∈ (s.group g).ops, ∃ y ∈ o.rings, 8 ≤ y.waited) →
       Answers (.collStall g) s fun t =>
         t.group g = { s.group g with state := .stalled } ∧ SameBut State.group g s t ∧
         Frame [.groups, .faultsRest, .out] s t) ∧
     ((∃ r, s.groupRec g = some r) → (∃ o ∈ (s.group g).ops, ∃ y ∈ o.rings, 1024 ≤ y.waited) →
       Answers (.collTimeout g) s fun t =>
         (t.group g).state = .faulted ∧ (t.group g).ops = [] ∧ SameBut State.group g s t ∧
         Frame [.halls, .queues, .fences, .xlatRest, .links, .groups, .reduce, .faultsRest, .out] s t))

/-- CHUNK_DRAIN (R316 to R320, R331, R336): a chunk leaves, a result is kept, or a piece is copied. RED_TRANSFER (R337,
R339). -/
def Obligations.ItemsDrainAndPartialsEnter : Prop :=
  (∀ (g : Fin 2048) (op k : Fin 3) (src : ReadBytes) (s : State) (r : GroupRec) (o : CollOp) (w : WorkItem),
     s.groupRec g = some r → s.opOf g op = some o → k.val ∈ r.flights → k.val < o.rings.length → o.accepted = true →
     op ≠ 2 → workItem r o k (o.ring k).sent = some w → s.mayDrain r o k (o.ring k).sent w = true →
     s.rangesStatus o (dataRanges r o k w) src.status = .ok → (∀ e ∈ s.engines, e.2.redWait = none) →
     (o.drained k (o.ring k).sent w).over r = false → .groupKey g ∉ s.vault.rederiving → Settled s →
     let kept (o' : CollOp) : Prop :=
       (o'.ring k).sent = (o.ring k).sent + 1 ∧ ∀ c ∈ o'.chunks, ¬(c.flight = k.val ∧ some c.seqNo = w.recv)
     (w.copy = false → w.send = true →
       (Tab.get 0 (s.group g).innerCtr k).toNat + (fragments (if op = 0 then hopBody s r o k w (itemSums r o k (o.ring k).sent w src.bytes)
         else match o.chunks.find? fun c => c.flight == k.val && some c.seqNo == w.recv with
           | some c => c.raw
           | none => src.bytes)).length < 2 ^ 64 →
       Answers (.chunkDrain g op k src .none) s fun t =>
         (∃ o', t.opOf g op = some o' ∧ kept o') ∧
         (t.hall o.hall).adderOps = (s.hall o.hall).adderOps + itemCost r o k w ∧ t.out = s.out ∧
         SameBut State.group g s t ∧ Frame [.halls, .xlatRest, .links, .groups, .reduce] s t) ∧
     (op = 0 → w.send = false →
       Answers (.chunkDrain g op k src .none) s fun t =>
         (∃ o', t.opOf g op = some o' ∧ kept o' ∧ o'.completed = o.completed + if k = r.top then 1 else 0) ∧
         (t.hall o.hall).adderOps = (s.hall o.hall).adderOps + itemCost r o k w ∧ SameBut State.group g s t ∧
         Frame [.planRest, .halls, .queues, .fences, .engines, .ports, .protect, .xlatRest, .hallKeys, .vaultRest, .links,
           .groups, .reduce, .commit, .units, .faultsRest, .out] s t) ∧
     (op = 1 → w.copy = true →
       Answers (.chunkDrain g op k src .none) s fun t =>
         (∃ o', t.opOf g op = some o' ∧ (o'.ring k).sent = (o.ring k).sent + 1 ∧ o'.completed = o.completed + 1) ∧
         t.fence o.hall o.chunkFence = BitVec.ofNat 64 (o.step.toNat * 2 ^ 24 + (o.completed + 1)) ∧
         SameBut State.group g s t ∧
         Frame [.planRest, .halls, .queues, .fences, .engines, .ports, .protect, .xlatRest, .hallKeys, .vaultRest, .links,
           .groups, .reduce, .commit, .units, .faultsRest, .out] s t)) ∧
  (∀ (p : Fin 256) (hdr : BitVec 64) (l : Line) (s : State) (e : TileEntry) (r : GroupRec) (o : CollOp),
     let f := parseRed hdr
     let g := f.handle % 2048
     let c := f.handle / 2048 % 8
     let n := contributorCount (f.handle / 16384)
     (s.engine p).present = true → s.inService 3 p = true → (s.engine p).redWait = none → (s.engine p).begun = some e →
     e.hallGen = f.hallGen → (s.hall e.hall).gen = e.hallGen → s.groupRec g = some r → s.opOf g 0 = some o →
     f.format = 0 → r.partialMode = true → o.accepted = true → o.hall = e.hall → 1 ≤ c → c ≤ n →
     (o.contributors = none ∨ o.contributors = some n) →
     (∀ v el, resolvePartial r o f.element 1 = .open_ v el → supplied { o with contributors := some n } v c el = false →
       (s.putOp g { o with contributors := some n }).fifoFull r { o with contributors := some n } v c = false →
       Answers (.redTransfer p hdr [l]) s fun t =>
         t.opOf g 0 = some { o with contributors := some n, partials := o.partials ++ [(v, c, el, beatValues l)] } ∧
         (t.engine p).redWait = none ∧ SameBut State.group g s t ∧ SameBut State.engine p s t ∧
         Frame [.engines, .groups] s t) ∧
     (resolvePartial r o f.element 1 = .drained →
       Answers (.redTransfer p hdr [l]) s fun t =>
         t.reduce = { s.reduce with late := satAdd s.reduce.late 1 } ∧ (∀ j, t.engine j = s.engine j) ∧
         Frame [.engines, .reduce] s t) ∧
     (resolvePartial r o f.element 1 = .future →
       Answers (.redTransfer p hdr [l]) s fun t =>
         t.engine p = { s.engine p with redWait := some { hdr := hdr, beats := [l] } } ∧ SameBut State.engine p s t ∧
         Frame [.engines] s t))

/-- MEMORY_CREDIT_RETURN and MEMORY_REQUEST_TIMEOUT (R55, R376, R377); that the time-out concerns a write or a background read
where only credits are missing is log entry 95. MEMORY_READ_RESPONSE of the last line that a read waits for (R42, R241,
R247), and WM_READ_RESPONSE of its last block (R58). -/
def Obligations.MemoryPortsAnswerTheirReads : Prop :=
  (∀ (m : Fin 48) (s : State), s.inService 2 m = true → Settled s →
     let fenced (cause : BitVec 4) (t : State) : Prop :=
       (t.unit (unitId 2 m)).state = .fencing ∧ (t.unit (unitId 2 m)).cause = cause ∧
       Frame [.planRest, .halls, .queues, .fences, .engines, .ports, .protect, .xlatRest, .hallKeys, .vaultRest, .links,
         .commit, .units, .faultsRest, .out] s t
     (∀ n : Fin 5, s.core.released = true → (s.memPort m).waiting = [] → s.xlat.scrubs = [] →
       (s.memPort m).credits + n ≤ 512 →
       Answers (.memoryCreditReturn m n) s fun t =>
         t.memPort m = { s.memPort m with credits := (s.memPort m).credits + n } ∧ SameBut State.memPort m s t ∧
         t.out = s.out ∧ Frame [.ports] s t) ∧
     (∀ n : Fin 5, s.core.released = true → 512 < (s.memPort m).credits + n →
       Answers (.memoryCreditReturn m n) s (fenced Cause.protocol)) ∧
     ((s.memPort m).credits < 512 → ((s.memPort m).outstanding = [] ∨ ∃ r ∈ (s.memPort m).outstanding, 1 ≤ r.age) →
       Answers (.memoryRequestTimeout m) s (fenced Cause.timeout))) ∧
  (∀ (s : State) (p tag : Nat) (d : Dma), Settled s → p < 256 → s.dma p tag = some d → d.left = 1 → d.write = false →
     (∀ (m : Fin 48) (mtag : BitVec 9) (raw : RawLine) (r : MemReq) (j : Nat), s.core.released = true →
       s.inService 2 m = true →
       (s.memPort m).outstanding.find? (fun x => x.tag == mtag.toNat) = some r → r.why = .dma p tag →
       lanes r.mask = [j] → (s.memPort m).ues.length < 63 →
       let g := s.seg d.seg
       let i := 4 * r.block + j - ((s.dmaSet d).place (d.setLine 0)).2
       let answer (st : Status) (l : Line) : Out :=
         { d with lines := d.lines.set 0 i l }.response p (if d.status = Status.ok then st else d.status)
       Answers (.memoryReadResponse m mtag [raw]) s fun t =>
         (match openLine (s.slot r.keySlot) g.mode g.set (d.setLine i) (r.ctrs.headD 0) raw with
           | .plain l false => t.out = s.out ++ [answer .ok l]
           | .plain l true => (answer .ok l) ∈ t.out
           | .poisoned => (answer .poison 0) ∈ t.out
           | .macFail => (answer .integrity 0) ∈ t.out
           | .uncorrectable => t.out = s.out ++ [answer .poison 0]) ∧
         (∀ x ∈ (t.engine p).dmas, x.tag ≠ tag) ∧ SameBut State.engine p s t ∧
         Frame [.halls, .engines, .ports, .protect, .xlatRest, .faultsRest, .out] s t) ∧
     (∀ (data : BitVec 2048) (w : WmRead) (rest : List WmRead), NoneWaits [.wm] s → s.protect.wmReads = w :: rest →
       w.port = p → w.tag = tag →
       Answers (.wmReadResponse data) s fun t =>
         (∃ l, t.out = s.out ++ [{ d with lines := l }.response p d.status] ∧
           ∀ i < d.beatCount, Tab.get 0 l i =
             if w.first ≤ d.address / 64 + i ∧ d.address / 64 + i < w.first + 4 then
               BitVec.ofNat 512 (bits data (512 * (d.address / 64 + i - w.first) + 511) (512 * (d.address / 64 + i - w.first)))
             else Tab.get 0 d.lines i) ∧
         t.protect.wmReads = rest ∧ (∀ x ∈ (t.engine p).dmas, x.tag ≠ tag) ∧ SameBut State.engine p s t ∧
         Frame [.engines, .protect, .out] s t))

/-- COUNTER_CHAIN_FETCHED (R230, R237, R247), for a group whose leaf block alone was fetched: it enters the cache where its MAC
holds under its parent's counter, else its group is lost. -/
def Obligations.FetchedLeavesEnterOrAreLost : Prop :=
  ∀ (k : Fin 8192) (g parent : Nat) (c : ChainLevel) (s : State),
    let r := s.fetchedTree k g
    s.core.released = true → Settled s → NoneWaits [.chain] s → s.protect.evicting = [] → s.protect.lost = [] →
    s.pathReads r g = [0] → s.cachedNode r 0 g = none →
    (∀ j ∈ s.levels r, j ≠ 0 → (s.cachedNode r j (g / 8 ^ j)).isSome = true) →
    s.guardOf r 0 g = some parent → parent ≠ 0 → parent ≠ lostCtr →
    (Tab.get [] s.protect.cache (s.cacheKey (segHall k) (s.metaLine r 0 g))).length < 16 →
    Answers (.counterChainFetched k g [c]) s fun t =>
      (match copyOk (s.treeSlot r) (s.treeSet r) (s.metaLine r 0 g) parent c.copyA with
        | some (b, _) => ∃ e, t.cachedNode r 0 g = some e ∧ e.block = b ∧ e.dirty = false
        | none => t.guardOf r 0 g = some lostCtr ∧ t.protect.cnt.subtreesLost = satAdd s.protect.cnt.subtreesLost 1) ∧
      t.pathReads r g = [] ∧ Frame [.halls, .ports, .protect, .xlatRest, .vaultRest, .faultsRest, .out] s t

/-- ATS_TRANSLATION_COMPLETION, PRG_RESPONSE, ATS_INVALIDATE_REQUEST and INVALIDATE_COMPLETION (R53, R201, R202, R205, R274): the
translation is stored, and a read whose last page it was goes out for its sectors and their tag entries. -/
def Obligations.TranslationsAreAskedAndAnswered : Prop :=
  (∀ (f : Fin 64) (pasid : BitVec 20) (page size host : Nat) (wr : Bool) (s : State) (w : XlatWait) (p tag : Nat) (d : Dma),
    Settled s → (∀ x ∈ s.xlat.stale, ¬(x.1 = f.val ∧ x.2.1 = pasid.toNat ∧ x.2.2.1 = page ∧ x.2.2.2.isSome = true)) →
    s.xlat.waits.find? (fun w => w.at_ f pasid.toNat page ∧ w.tag.isSome ∧ !w.pri ∧ !w.held) = some w →
    (∀ x ∈ s.xlat.waits, x.tag.isSome = true ∨ x.pri = true ∨ x.held = true) →
    w.waiters = [(p, tag)] → s.dma p tag = some d → d.write = false → 0 < (s.rec_ f).htcQuota →
    (∀ x ∈ s.hostPages d, x ≠ page → x ∈ d.pages.map Prod.fst) →
    let u : State := { s with xlat := { s.xlat with waits := s.xlat.waits.filter (· ≠ w) } }
    let d' := { d with pages := (s.hostPages d).map fun x => (x, if x = page then host else assoc 0 d.pages x) }
    let l := s.hostRanges d'
    u.hostRoom l.length = true →
    Answers (.atsTranslationCompletion f pasid page size host true wr) s fun t =>
      t.xlat.htc.head? = some { func := f, pasid := pasid.toNat, page := page / 2 ^ storedSize size * 2 ^ storedSize size,
                                sizeLog2 := storedSize size, host := host / 2 ^ storedSize size * 2 ^ storedSize size,
                                rd := true, wr := wr, funcGen := (s.func f).gen } ∧
      t.xlat.waits = s.xlat.waits.filter (· ≠ w) ∧
      t.out = s.out ++ ((u.freeTags l.length).zip l).map (fun x => .hostRead d.hall x.1 x.2.1 x.2.2 true) ∧
      t.dma p tag = some { d' with wait := .host } ∧ SameBut State.engine p s t ∧ Frame [.engines, .xlatRest, .out] s t) ∧
  (∀ (f : Fin 64) (pasid : BitVec 20) (page : Nat) (s : State) (w : XlatWait), Settled s →
    (f.val, pasid.toNat, page, none) ∉ s.xlat.stale →
    s.xlat.waits.find? (fun w => w.at_ f pasid.toNat page ∧ w.pri) = some w → (∀ x ∈ s.xlat.waits, x.held = false) →
    (∀ k, { w with pri := false, tag := none } ∉ s.xlat.waits → s.hostRoom 1 = true → s.freeTags 1 = [k] →
      Answers (.prgResponse f pasid page 0) s fun t =>
        t.xlat.waits = s.xlat.waits.map (fun x => if x = w then { w with pri := false, tag := some k } else x) ∧
        (t.func f).priOutstanding = (s.func f).priOutstanding - 1 ∧ t.out = s.out ++ [.ats f pasid.toNat page k] ∧
        SameBut State.func f s t ∧ Frame [.funcs, .xlatRest, .out] s t) ∧
    (∀ p tag d, w.waiters = [(p, tag)] → s.dma p tag = some d → p < 256 →
      Answers (.prgResponse f pasid page 1) s fun t =>
        t.xlat.waits = s.xlat.waits.filter (· ≠ w) ∧ (t.func f).priOutstanding = (s.func f).priOutstanding - 1 ∧
        t.out = s.out ++ [d.response p .refused] ∧ SameBut State.func f s t ∧ SameBut State.engine p s t ∧
        Frame [.funcs, .engines, .xlatRest, .out] s t)) ∧
  (∀ (f : Fin 64) (pasid : BitVec 20) (page size : Nat) (s : State), (s.func f).invals.length < 32 →
    Answers (.atsInvalidateRequest f pasid page size) s fun t =>
      (∀ e, e ∈ t.xlat.htc ↔
        e ∈ s.xlat.htc ∧ ¬(e.func = f ∧ e.pasid = pasid.toNat ∧ overlaps e.page (2 ^ e.sizeLog2) page (2 ^ size) = true)) ∧
      t.xlat.withdrawals = s.xlat.withdrawals ++ [{ ref := .host f (s.func f).nextInval }] ∧
      (t.func f).invals = (s.func f).invals ++
        [((s.func f).nextInval, s.readsIn f pasid.toNat page (2 ^ size))] ∧
      SameBut State.func f s t ∧ Frame [.funcs, .engines, .xlatRest] s t) ∧
  (∀ (f : Fin 64) (s : State) (v : Nat × List Nat), (s.func f).invals.find? (fun v => v.2 == []) = some v →
    Answers (.invalidateCompletion f) s fun t =>
      t.func f = { s.func f with invals := (s.func f).invals.erase v } ∧ t.out = s.out ++ [.invalidateDone f] ∧
      SameBut State.func f s t ∧ Frame [.funcs, .out] s t)

/-- HOST_READ_COMPLETION (R42, R272 to R274): the sectors of a read open under the key and the data that bind them, or the read
ends INTEGRITY. FUNCTION_LEVEL_RESET (R40, R54). -/
def Obligations.HostRequestsCompleteOrRetire : Prop :=
  (∀ (id : Nat) (xs : List Sector) (s : State) (r : HostRead) (d : Dma), Settled s →
    (∀ x ∈ s.xlat.waits, x.tag.isSome = true ∨ x.pri = true ∨ x.held = true) →
    s.xlat.hostReads.find? (fun r => r.id == id) = some r → s.dma r.port r.tag = some d → r.port < 256 →
    r.funcGen = (s.func r.func).gen → d.write = false → d.status = .ok → xs.length = d.sectors →
    let opened := ((List.range d.sectors).zip xs).map fun x => s.openSector d.hall d.context (512 * (d.sector0 + x.1)) x.2
    (∀ plain : List (List Byte), opened = plain.map some →
      Answers (.hostReadCompletion id xs) s fun t =>
        t.out = s.out ++ [.dmaRead r.port r.tag .ok ((List.range d.beatCount).map (d.lineFrom plain.flatten))] ∧
        (∀ x, x ∈ t.xlat.hostReads ↔ x ∈ s.xlat.hostReads ∧ x.id ≠ r.id) ∧ (∀ x ∈ (t.engine r.port).dmas, x.tag ≠ r.tag) ∧
        SameBut State.engine r.port s t ∧ Frame [.funcs, .engines, .xlatRest, .out] s t) ∧
    (none ∈ opened →
      Answers (.hostReadCompletion id xs) s fun t =>
        d.response r.port .integrity ∈ t.out ∧ (∀ x ∈ (t.engine r.port).dmas, x.tag ≠ r.tag) ∧
        SameBut State.engine r.port s t ∧ Frame [.funcs, .engines, .xlatRest, .faultsRest, .out] s t)) ∧
  (∀ (f : Fin 64) (s : State), s.xlat.migrations = [] → s.xlat.writes = [] →
    Answers (.functionLevelReset f) s fun t =>
      t.func f = { gen := nextGen (s.func f).gen, nextInval := (s.func f).nextInval } ∧ (∀ e ∈ t.xlat.htc, e.func ≠ f) ∧
      (∀ w ∈ t.xlat.waits, w.func ≠ f) ∧ t.xlat.stale = s.xlat.stale ++ s.staleOf f ∧
      (∀ w ∈ t.xlat.withdrawals, refOfFunc f w.ref = false) ∧
      (∀ p < 256, ∀ d ∈ (t.engine p).dmas, ¬(d.kind = 1 ∧ d.hall = f)) ∧ SameBut State.func f s t ∧
      Frame [.planRest, .halls, .funcs, .queues, .fences, .engines, .ports, .protect, .xlatRest, .hallKeys, .vaultRest,
        .links, .commit, .faultsRest, .out] s t)

/-- WITHDRAWAL_COMPLETE, WITHDRAWAL_DRAIN_TIMEOUT and BACKING_SCRUB_DONE (R198, R205, R214, R215, R217). -/
def Obligations.WithdrawalsEndTheirEntry : Prop :=
  (∀ (w : WdRef) (s : State) (x : Withdrawal), s.xlat.withdrawals.find? (fun x => x.ref = w) = some x →
    s.withdrawn w = true →
    Answers (.withdrawalComplete w) s fun t =>
      t.xlat.withdrawals = s.xlat.withdrawals.erase x ∧ t.xlat.completed = s.xlat.completed + 1 ∧
      (∀ k, w = .segment k →
        t.seg k = { gen := nextGen (s.seg k).gen } ∧
        ((s.seg k).mode ≠ .wm → (s.seg k).keyed = true → (t.slot (s.seg k).keySlot).state = .free) ∧
        ((s.seg k).mode ≠ .wm → (∀ y ∈ s.xlat.scrubs, ¬(y.teardown = true ∧ y.entry = k)) →
          t.xlat.scrubs = s.xlat.scrubs ++ [s.scrubOf k false]) ∧
        SameBut State.seg k s t ∧ Frame [.halls, .protect, .segs, .xlatRest, .slots] s t) ∧
      (∀ n, w = .window n →
        t.win n = { gen := nextGen (s.win n).gen } ∧ SameBut State.win n s t ∧ Frame [.windows, .xlatRest] s t) ∧
      (∀ f id, w = .host f id → Frame [.xlatRest] s t)) ∧
  (∀ (w : WdRef) (s : State) (x : Withdrawal),
    s.xlat.withdrawals.find? (fun x => x.ref = w ∧ 2 ≤ x.age) = some x →
    Answers (.withdrawalDrainTimeout w) s fun t =>
      (∀ k, w = .segment k → t.seg k = { gen := nextGen (s.seg k).gen } ∧ SameBut State.seg k s t) ∧
      (∀ n, w = .window n → t.win n = { gen := nextGen (s.win n).gen } ∧ SameBut State.win n s t) ∧
      Frame [.planRest, .halls, .funcs, .queues, .fences, .engines, .ports, .protect, .segs, .windows, .xlatRest, .slots,
        .hallKeys, .vaultRest, .links, .commit, .faultsRest, .out] s t) ∧
  (∀ (k : Fin 8192) (s : State) (x : Scrub),
    s.xlat.scrubs.find? (fun x => x.entry == k.val && !x.teardown && s.scrubLines x == 0) = some x →
    Answers (.backingScrubDone k) s fun t => t.xlat = { s.xlat with scrubs := s.xlat.scrubs.erase x } ∧ Frame [.xlatRest] s t)

/-- HELD_WRITE_COMPLETE, PATROL_SCRUB and TREE_PATROL (R230, R247, R249, R367). -/
def Obligations.BackgroundTrafficKeepsMemoryWhole : Prop :=
  (∀ (h : Fin 64) (index : Nat) (s : State) (l : HeldLine), Settled s → NoneWaits [.held] s →
    (s.heldLines h)[index]? = some l →
    ((s.seg l.seg).state = .lost →
      Answers (.heldWriteComplete h index false) s fun t =>
        t = { s with commit := { s.commit with lines := s.commit.lines.erase l } }) ∧
    ((s.seg l.seg).state = .valid → (s.seg l.seg).mode = .veiled → s.heldReady l = true →
      Answers (.heldWriteComplete h index false) s fun t =>
        t.commit = { s.commit with lines := s.commit.lines.erase l } ∧
        Frame [.halls, .ports, .xlatRest, .commit, .out] s t)) ∧
  (∀ (m : Fin 48) (raw : RawLine) (s : State), Settled s → s.core.released = true →
    s.canSpend m patrolPayer 2 [] = true → s.portLineBusy m (s.memPort m).patrol = false →
    let n := (s.memPort m).patrol
    let read : Out := .memRead m (s.memPort m).freeTag (n / 4) (BitVec.ofNat 4 (2 ^ (n % 4)))
    Answers (.patrolScrub m raw) s fun t =>
      (∀ x, decodeLine raw = some x → (t.memPort m).patrol = (n + 1) % portLines ∧ SameBut State.memPort m s t ∧
        (x.corrected = false → t.out = s.out ++ [read] ∧ Frame [.ports, .out] s t) ∧
        (x.corrected = true →
          t.out = s.out ++ [read, .memWrite m (n / 4) (n % 4) x.data (sideBand x.data x.mac) (x.data == poisonData)] ∧
          t.protect.cnt.corrected = satAdd s.protect.cnt.corrected 1 ∧ Frame [.ports, .protect, .faultsRest, .out] s t)) ∧
      (decodeLine raw = none → (s.memPort m).ues.length < 63 →
        (t.memPort m).patrol = (n + 1) % portLines ∧ (t.memPort m).ues = 0 :: (s.memPort m).ues ∧
        SameBut State.memPort m s t ∧ Frame [.ports, .faultsRest, .out] s t)) ∧
  (∀ (k : Fin 8192) (level node : Nat) (c : ChainLevel) (parent : Word) (s : State),
    let r := s.treeFor k (node * 8 ^ level)
    let p := (s.guardOf r level node).getD parent.toNat
    let set := (s.seg k).set
    let a := s.metaLine r level node
    let b := s.metaLineB r level node
    Settled s → s.core.released = true → (s.seg k).state = .valid → (s.seg k).mode = .sealed →
    level ≤ (s.treeExt r).topLevel → node < levelCount (s.leaves k) level → s.isLost r level node = false →
    (∀ e, s.cachedNode r level node = some e → e.dirty = false) → p ≠ 0 → p ≠ lostCtr →
    (∀ q ∈ s.reqsOf set a, q.why = .discard) → s.canSpend (s.portAt set a) treePayer 2 [] = true →
    (0 < level → (∀ q ∈ s.reqsOf set b, q.why = .discard) ∧ s.canSpend (s.portAt set b) treePayer 2 [] = true) →
    Answers (.treePatrol k level node c parent) s fun t =>
      (∀ x, copyOk (s.treeSlot r) set a p c.copyA = some (x, false) →
        (0 < level → ∀ raw, c.copyB = some raw → ∃ y, copyOk (s.treeSlot r) set a p raw = some (y, false)) →
        Frame [.ports, .out] s t) ∧
      (copyOk (s.treeSlot r) set a p c.copyA = none → level = 0 →
        t.guardOf r 0 node = some lostCtr ∧ t.protect.cnt.subtreesLost = satAdd s.protect.cnt.subtreesLost 1 ∧
        Frame [.halls, .ports, .protect, .xlatRest, .vaultRest, .faultsRest, .out] s t))

/-- KEY_REKEY_CMD START, REKEY_GROUP_MOVE, REKEY_GROUP_COMPLETE and REKEY_CANCEL (R266 to R271). VAULT_UE and
VAULT_REDERIVE_DONE (R255). -/
def Obligations.SegmentsAreRekeyedAndKeysRederived : Prop :=
  ((∀ (r : Requester) (data : Word) (s : State) (ch slot : Nat), Writable r 0x700100 s → bits data 1 0 = 1 →
     s.rekeyCheck (bits data 13 8) (bits data 19 16) (bits data 26 24) = 0 → s.derives (bits data 13 8) = true →
     (List.range 16).find? (fun c => (s.channel c).state = .free) = some ch → s.freeSlot = some slot →
     let k := 128 * bits data 13 8 + 8 * bits data 19 16 + bits data 26 24
     (s.seg k).keySlot ≠ slot →
     Answers (.rekeyStart r data) s fun t =>
       (t.channel ch).state = .moving ∧ (t.channel ch).seg = k ∧ (t.channel ch).source = (s.seg k).keySlot ∧
       (t.channel ch).target = slot ∧ (t.channel ch).landing = 0 ∧ (t.slot slot).state = .rekeyTarget ∧
       (t.slot slot).gen = nextGen (s.slot slot).gen ∧ (t.slot (s.seg k).keySlot).state = .rekeySource ∧
       some ((t.slot slot).k1, (t.slot slot).k2) = t.keysFor (t.slot slot) slot ∧
       t.vault.resultReason = 0 ∧ t.vault.resultChannel = BitVec.ofNat 4 ch ∧ t.out = s.out ++ rspOf r ∧
       SameBut State.channel ch s t ∧ Frame [.slots, .hallKeys, .vaultRest, .out] s t) ∧
   (∀ (c : Fin 16) (lines : List RawLine) (s : State),
     let x := s.channel c
     Settled s → s.rekeyTurn = some c.val → (s.seg x.seg).state = .valid → (s.seg x.seg).mode = .veiled → lines.length = 64 →
     (∀ j < 64, ∃ d, openLine (s.slot x.source) .veiled (s.seg x.seg).set (lineOf (s.seg x.seg).base (64 * x.next + j)) 0
       (lines.getD j { data := 0, sb := 0, poison := true }) = .plain d false) →
     Answers (.rekeyGroupMove c lines) s fun t =>
       t.channel c = { x with band := x.band ++ [x.next] } ∧ t.vault.nextChannel = (c + 1) % 16 ∧
       SameBut State.channel c s t ∧ Frame [.halls, .ports, .xlatRest, .vaultRest, .out] s t) ∧
   (∀ (c : Fin 16) (s : State) (g : Nat) (rest : List Nat), Settled s → NoneWaits [.rekey] s →
     (s.channel c).band = g :: rest →
     Answers (.rekeyGroupComplete c) s fun t =>
       t.channel c = { s.channel c with
         landing := (s.channel c).landing + 1, band := rest,
         state := if (s.channel c).state = .moving ∧ rest = [] ∧ s.leaves (s.channel c).seg ≤ (s.channel c).landing + 1 then
           .switchPending else (s.channel c).state } ∧
       SameBut State.channel c s t ∧ Frame [.vaultRest] s t) ∧
   (∀ (c : Fin 16) (s : State), Settled s → NoneWaits [.rekey] s → (s.channel c).state = .cancelling →
     (s.channel c).band = [] → (s.slot (s.channel c).target).state = .rekeyTarget →
     (s.channel c).source ≠ (s.channel c).target →
     Answers (.rekeyCancel c) s fun t =>
       t.channel c = {} ∧ t.slot (s.channel c).target = { gen := (s.slot (s.channel c).target).gen } ∧
       ((s.slot (s.channel c).source).state = .rekeySource → (t.slot (s.channel c).source).state = .inUse) ∧
       SameBut State.channel c s t ∧ Frame [.protect, .slots, .vaultRest] s t)) ∧
  ((∀ (e : VaultEntry) (s : State), Settled s → s.entryHeld e = true → s.derivable e = true →
     Answers (.vaultUe e) s fun t =>
       e ∈ t.vault.rederiving ∧ (∀ x, x ≠ e → (x ∈ t.vault.rederiving ↔ x ∈ s.vault.rederiving)) ∧ Frame [.vaultRest] s t) ∧
   (∀ (h : Fin 64) (s : State), Settled s → (s.hallKey h).secret.isSome = true →
     Answers (.vaultUe (.hallSecret h)) s fun t =>
       (t.hallKey h).secret = none ∧ SameBut State.hallKey h s t ∧ Frame [.halls, .hallKeys, .faultsRest, .out] s t) ∧
   (∀ (e : VaultEntry) (s : State), Settled s → NoneWaits [.rekey] s → e ∈ s.vault.rederiving → s.canRederive e = true →
     Answers (.vaultRederiveDone e) s fun t =>
       e ∉ t.vault.rederiving ∧ (∀ x, x ≠ e → (x ∈ t.vault.rederiving ↔ x ∈ s.vault.rederiving)) ∧
       (∀ k, e = .memSlot k → (s.slot k).state ≠ .free →
         some ((t.slot k).k1, (t.slot k).k2) = s.keysFor (s.slot k) k) ∧
       Frame [.slots, .vaultRest, .faultsRest, .out] s t))

/-- FENCE and UNFENCE (R377, R380). FENCE_DRAIN_COMPLETE and UNIT_RETURNED (R377, R380, R381). -/
def Obligations.UnitsFenceDrainAndReturn : Prop :=
  (∀ (r : Requester) (u : BitVec 16) (s : State), Writable r 0xC00020 s → s.core.released = true → unitExists u = true →
     ((s.unit u).state = .inService →
       Answers (.fence r u) s fun t =>
         (t.unit u).state = .fencing ∧ (t.unit u).cause = Cause.operator ∧ (t.unit u).gen = nextGen (s.unit u).gen ∧
         Frame [.planRest, .halls, .queues, .fences, .contexts, .deadlines, .engines, .ports, .protect, .xlatRest, .hallKeys,
           .vaultRest, .links, .groups, .reduce, .commit, .units, .faultsRest, .gallery, .out] s t) ∧
     ((s.unit u).state = .fenced ∨ (s.unit u).state = .permanent →
       Answers (.unfence r u) s fun t =>
         (t.unit u).state = .inService ∧ (t.unit u).gen = nextGen (s.unit u).gen ∧ (t.unit u).returns = [] ∧
         Frame [.planRest, .halls, .queues, .fences, .engines, .ports, .protect, .xlatRest, .hallKeys, .vaultRest, .links,
           .groups, .reduce, .commit, .units, .faultsRest, .gallery, .out] s t) ∧
     ((s.unit u).state = .fencing → Settled s →
       Answers (.unfence r u) s fun t =>
         t.unit u = { s.unit u with state := .enablePending } ∧ t.faults.cmdResult = 1 ∧ t.faults.unitCmd = u ∧
         t.out = s.out ++ rspOf r ∧ Frame [.units, .faultsRest, .out] s t)) ∧
  (∀ (u : BitVec 16) (s : State),
     ((s.unit u).state = .fencing → ((s.unit u).autoReturns = false ∨ (s.unit u).returns.length < 8) →
       Answers (.fenceDrainComplete u) s fun t =>
         (t.unit u).state = .fenced ∧ (t.unit u).gen = (s.unit u).gen ∧
         ((s.unit u).autoReturns = true → (t.unit u).quietLeft = BitVec.ofNat 16 s.quietStrides) ∧
         Frame [.planRest, .halls, .queues, .fences, .engines, .ports, .protect, .segs, .xlatRest, .hallKeys, .vaultRest, .links,
           .commit, .units, .faultsRest, .out] s t) ∧
     ((s.unit u).state = .fencing → (s.unit u).autoReturns = true → 8 ≤ (s.unit u).returns.length →
       Answers (.fenceDrainComplete u) s fun t => (t.unit u).state = .permanent ∧ (t.unit u).gen = (s.unit u).gen ∧
         Frame [.planRest, .halls, .queues, .fences, .engines, .ports, .protect, .segs, .xlatRest, .hallKeys, .vaultRest,
           .links, .commit, .units, .faultsRest, .out] s t) ∧
     ((s.unit u).state = .enablePending →
       Answers (.fenceDrainComplete u) s fun t =>
         (t.unit u).state = .inService ∧ (t.unit u).gen = nextGen (s.unit u).gen ∧
         Frame [.planRest, .halls, .queues, .fences, .engines, .ports, .protect, .segs, .xlatRest, .hallKeys, .vaultRest,
           .links, .groups, .reduce, .commit, .units, .faultsRest, .gallery, .out] s t) ∧
     ((s.unit u).state = .fenced → (s.unit u).autoReturns = true → (s.unit u).started = true → (s.unit u).quietLeft = 0 →
       Answers (.unitReturned u) s fun t =>
         (t.unit u).state = .inService ∧ (t.unit u).gen = nextGen (s.unit u).gen ∧
         (t.unit u).returns = 0 :: (s.unit u).returns ∧
         Frame [.planRest, .halls, .queues, .fences, .engines, .ports, .protect, .xlatRest, .hallKeys, .vaultRest, .links,
           .groups, .reduce, .commit, .units, .faultsRest, .gallery, .out] s t))

/-- UNPIN, DRIVE_LOW and ERR_PULSE_EXPIRY (R374, R388). -/
def Obligations.ErrorPinAndHistoryAreDriven : Prop :=
  (∀ (r : Requester) (s : State), Writable r 0xC00008 s → s.core.mgmtRstLow = false →
    Answers (.unpin r) s fun t =>
      t.faults = { s.faults with pinned := none } ∧ t.out = s.out ++ rspOf r ∧ Frame [.faultsRest, .out] s t) ∧
  (∀ (r : Requester) (low : Bool) (s : State), Writable r 0xC00010 s → s.core.mgmtRstLow = false →
    Answers (.driveLow r low) s fun t =>
      t.faults = { s.faults with driveLow := low } ∧
      t.out = s.out ++ (if (low || s.faults.pulse) = s.faults.errLow then [] else [.errN (low || s.faults.pulse)]) ++ rspOf r ∧
      Frame [.faultsRest, .out] s t) ∧
  (∀ (s : State), s.faults.pulse = true →
    Answers .errPulseExpiry s fun t =>
      t.faults = { s.faults with pulse := false } ∧
      t.out = s.out ++ (if s.faults.driveLow then [] else [.errN false]) ∧ Frame [.faultsRest, .out] s t)

/-- STRIDE_SYNC_EDGE and SYNC_LOST (R66, R76, R77, R78). A follower's edge at counter value `c` is accepted where it
is recognised, no earlier than half a stride after the last accepted one, and not the first after a swap that changed
the stride length. That the error of an edge takes the place of what was carried, less what slot 63 of this stride has
corrected, is the model's reading (log entry 84). -/
def Obligations.SyncEdgesSteerTheStride : Prop :=
  ∀ (c : Nat) (recognised : Bool) (s : State),
    (s.core.released = true → s.timer.syncRole = 2 → recognised = true → s.timer.spaced c = true →
      s.timer.firstAfterLength = false →
      ∀ e : Int,
        e = (if 2 * c < strideFclk s.timer.strideCode then (c : Int) - s.act.core.syncDelay
             else (c : Int) - strideFclk s.timer.strideCode - s.act.core.syncDelay) →
        Answers (.strideSyncEdge c recognised) s fun t =>
          t.timer.lastError = BitVec.ofInt 32 e ∧ t.timer.missedStrides = 0 ∧ t.timer.lastEdge = some c ∧
          t.timer.correction + t.timer.carry = e - s.timer.taken ∧
          -(strideFclk s.timer.strideCode / 400 : Nat) ≤ t.timer.correction ∧
          t.timer.correction ≤ (strideFclk s.timer.strideCode / 400 : Nat) ∧
          (t.timer.carry ≠ 0 → t.timer.correction.natAbs = strideFclk s.timer.strideCode / 400 ∧
            0 < t.timer.correction * t.timer.carry) ∧
          (t.timer.syncClamped = false ↔ t.timer.carry = 0) ∧
          (t.timer.syncLost = true ↔ s.timer.syncLost = true ∧ t.timer.syncClamped = true) ∧
          t.timer.ignoredEdges = s.timer.ignoredEdges ∧ t.timer.strideCode = s.timer.strideCode ∧
          t.timer.slot = s.timer.slot ∧ t.timer.fclk = s.timer.fclk ∧ Frame [.timerRest] s t) ∧
    (s.core.released = true → s.timer.syncRole = 2 →
      (recognised = false ∨ s.timer.spaced c = false ∨ s.timer.firstAfterLength = true) →
      Answers (.strideSyncEdge c recognised) s fun t =>
        t.timer = { s.timer with ignoredEdges := satAdd s.timer.ignoredEdges 1, firstAfterLength := false } ∧
        Frame [.timerRest] s t) ∧
    (s.core.released = true → s.timer.syncRole ≠ 2 →
      Answers (.strideSyncEdge c recognised) s fun t =>
        t.timer = { s.timer with firstAfterLength := false } ∧ Frame [.timerRest] s t) ∧
    (s.core.released = false → exec (.strideSyncEdge c recognised) s = .next s) ∧
    (s.timer.syncRole = 2 → s.timer.syncLost = false → 4 ≤ s.timer.missedStrides.toNat ∨ 16 ≤ s.timer.clampRun →
      Answers .syncLost s fun t =>
        t.timer = { s.timer with syncLost := true } ∧ Frame [.timerRest, .faultsRest, .out] s t)

/-- SLOT_DECISION (R72, R144, R180, R182, R186): slot `k` follows the last slot decided and its passing; slot 0 is
decided at the decision point of the coming boundary. A decision starts no tile, takes no command and moves no fence.
In the throttled end of a stride no tile is granted: no engine queue is longer than it was. STRIDE_BOUNDARY (R71, R72,
R74, R82). -/
def Obligations.SlotsAndBoundariesDriveTheStride : Prop :=
  (∀ (k : Fin 64) (thermLow : Bool) (fallbacks : List (Fin 64 × DescRead)) (s : State),
     s.core.released = true → s.timer.decided = false →
     (k.val ≠ 0 → s.timer.slot < k.val →
       Answers (.slotDecision k thermLow fallbacks false) s fun t =>
         t.timer.slot = k ∧ t.timer.decided = false ∧ (∀ p, (t.engine p).begun = (s.engine p).begun) ∧
         (s.plan.active = none ∨
             (s.timer.throttle = true ∧ 64 - 8 * s.act.core.throttleEighths ≤ k.val) →
           ∀ p, (t.engine p).queue.length ≤ (s.engine p).queue.length) ∧
         Frame [.timerRest, .planRest, .halls, .queues, .contexts, .pools, .deadlines, .engines, .xlatRest, .commit,
           .faultsRest, .gallery, .out, .freeCtr] s t) ∧
     (k.val = 0 →
       Answers (.slotDecision k thermLow fallbacks false) s fun t =>
         t.timer.decided = true ∧ t.timer.thermLow = thermLow ∧ (∀ p, (t.engine p).begun = (s.engine p).begun) ∧
         Frame [.timerRest, .planRest, .halls, .queues, .contexts, .pools, .deadlines, .engines, .xlatRest, .commit,
           .faultsRest, .gallery, .out, .freeCtr] s t)) ∧
  (∀ (s : State), s.core.released = true → s.timer.decided = true →
     Answers .strideBoundary s fun t =>
       t.timer.strideNum = s.timer.strideNum + 1 ∧ t.timer.slot = 0 ∧ t.timer.decided = false ∧
       t.timer.throttle = (s.timer.thermLow && t.plan.active.isSome) ∧
       (∃ more, t.out = s.out ++ [.strideOut true] ++ more) ∧
       Frame [.strideNum, .timerRest, .planActive, .planRest, .halls, .funcs, .queues, .fences, .contexts, .pools,
         .deadlines, .engines, .ports, .protect, .segs, .xlatRest, .slots, .hallKeys, .vaultRest, .links, .groups,
         .reduce, .commit, .units, .faultsRest, .lcRest, .mailboxes, .mgmtMsgs, .gallery, .out, .freeCtr] s t)

/-- HALL_DRAIN_END, HALL_SCRUB_COMPLETE and GUILTY_RESET (R127, R134, R135, R177). What a queue's registers show once its
hall is torn down is the model's choice (log entry 82). -/
def Obligations.HallsDrainScrubAndReset : Prop :=
  (∀ (h : Fin 64) (s : State), (s.hall h).state = .draining → (s.hall h).drained = false → s.hallIdle h = true →
    Answers (.hallDrainEnd h) s fun t =>
      (t.hall h).state = .draining ∧ (t.hall h).drained = true ∧ (t.hall h).gen = nextGen (s.hall h).gen ∧
      (t.hallKey h).secret = none ∧ (t.hallKey h).hostKey = none ∧ (∀ e ∈ t.xlat.htc, e.func ≠ h) ∧
      Frame [.planRest, .halls, .funcs, .queues, .fences, .deadlines, .engines, .ports, .protect, .segs, .windows, .xlatRest,
        .slots, .hallKeys, .vaultRest, .links, .groups, .reduce, .commit, .faultsRest, .out] s t) ∧
  (∀ (h : Fin 64) (s : State), (s.hall h).state = .scrubbing → (∀ x ∈ s.toScrub h, s.scrubLines x = 0) →
    Answers (.hallScrubComplete h) s fun t =>
      t.hall h = { s.hall h with state := .tornDown } ∧
      (∀ q < 256, t.queue h q = { s.queue h q with state := .absent, global := 0 }) ∧ (∀ n < 4096, t.fence h n = 0) ∧
      (∀ h' q, q < 256 → h' ≠ h → t.queue h' q = s.queue h' q) ∧ (∀ h' n, n < 4096 → h' ≠ h → t.fence h' n = s.fence h' n) ∧
      t.toScrub h = [] ∧ SameBut State.hall h s t ∧ Frame [.halls, .queues, .fences, .xlatRest] s t) ∧
  (∀ (h : Fin 64) (s : State), (s.hall h).state = .scrubbing → (∃ x ∈ s.toScrub h, s.scrubLines x ≠ 0) →
    exec (.hallScrubComplete h) s = .next s) ∧
  (∀ (h : Fin 64) (q : Fin 256) (s : State), (s.queue h q).state = .guilty →
    Answers (.guiltyReset h q) s fun t =>
      (t.queue h q).state = .active ∧ (t.queue h q).inv = none ∧ (t.queue h q).wait = .none ∧ (t.queue h q).buffer = none ∧
      (t.queue h q).gen = nextGen (s.queue h q).gen ∧ (t.queue h q).readIndex = (s.queue h q).doorbell ∧
      (t.queue h q).firstStatus =
        (if (s.queue h q).firstStatus = 0 then Status.guiltyReset.code else (s.queue h q).firstStatus) ∧
      Frame [.planRest, .halls, .queues, .fences, .deadlines, .engines, .ports, .protect, .xlatRest, .hallKeys, .vaultRest,
        .links, .commit, .faultsRest, .out] s t)

/-- PLAN_CMD (R113, R114, R117, R369) and PLAN_VERIFICATION_END (R111, R115, R116). The new plan is held back in PENDING;
the active plan changes at a boundary only. HALL_CMD: TEARDOWN (R133) and RESUME (R137, R387). -/
def Obligations.PlanAndHallCommandsAreTaken : Prop :=
  ((∀ (addr len i : Nat), 4096 * i < len →
     (planReads false addr len)[i]? = some (.planRead (addr + 4096 * i) (min 4096 (len - 4096 * i)))) ∧
   (∀ (addr len : Nat), (planReads false addr len).length = ceilDiv len 4096) ∧
   (∀ (r : Requester) (flash : Bool) (s : State), Writable r 0x100018 s →
     let load := fun (b : Bool) => if b then Instr.loadFlash r else Instr.loadHost r
     (s.plan.state ≠ .loading → s.plan.state ≠ .pending →
       Answers (load flash) s fun t =>
         t.plan = { s.plan with
           state := .loading, code := 0, section_ := 0, record := 0, latchedAddr := s.plan.srcAddr,
           latchedLen := s.plan.srcLen, latchedTarget := s.plan.target, fromFlash := flash } ∧
         t.out = s.out ++ (if flash then [.bootRead s.plan.srcAddr.toNat s.plan.srcLen.toNat]
             else planReads false s.plan.srcAddr.toNat s.plan.srcLen.toNat) ++ rspOf r ∧ Frame [.planRest, .out] s t) ∧
     (s.plan.state = .loading ∨ s.plan.state = .pending →
       Answers (load flash) s fun t =>
         t.plan = { s.plan with code := 0x13, section_ := 0xFF, record := 0xFFFFFFFF } ∧ t.out = s.out ++ rspOf r ∧
         Frame [.planRest, .out] s t) ∧
     (s.plan.state = .pending → s.plan.bound = none → s.swapDecided = false →
       Answers (.cancel r) s fun t =>
         t.plan = { s.plan with state := .cancelled, pending := none, due := false } ∧ t.out = s.out ++ rspOf r ∧
         Frame [.planRest, .out] s t) ∧
     (∀ g, s.plan.state = .pending → s.plan.bound = some g → s.swapDecided = false → (s.cmt 0 g).state = .open_ →
       (∃ a ∈ (s.cmt 0 g).staged, a.isSwap = true) →
       Answers (.cancel r) s fun t =>
         t.plan = { s.plan with state := .cancelled, pending := none, bound := none, due := false } ∧
         t.cmt 0 g = { cause := acPlan } ∧ SameCmtBut 0 g s t ∧
         Frame [.planRest, .halls, .queues, .xlatRest, .commit, .out] s t) ∧
     (s.plan.state ≠ .pending ∨ s.swapDecided = true →
       Answers (.cancel r) s fun t => t = { s with out := s.out ++ rspOf r })) ∧
   (∀ (source : Option (List Byte)) (s : State), s.plan.state = .loading →
     (∀ f, verifyPlan (fun n => bit s.core.engPresent n) s.plan.latchedLen.toNat source = .error f →
       Answers (.planVerificationEnd source) s fun t =>
         t.plan.state = .refused ∧ t.plan.code = f.code ∧ t.plan.section_ = f.section_ ∧ t.plan.record = f.record ∧
         t.plan.pending = none ∧ Frame [.planRest] s t) ∧
     (∀ p, verifyPlan (fun n => bit s.core.engPresent n) s.plan.latchedLen.toNat source = .ok p →
       (s.plan.latchedTarget = 0 ∨ (s.timer.strideNum < s.plan.latchedTarget ∧
           ¬(s.plan.latchedTarget = s.timer.strideNum + 1 ∧ s.timer.decided = true)) →
         Answers (.planVerificationEnd source) s fun t =>
           t.plan.state = .pending ∧ t.plan.pending = some p ∧ t.plan.code = 0 ∧ Frame [.planRest] s t) ∧
       (s.plan.latchedTarget ≠ 0 → s.plan.latchedTarget ≤ s.timer.strideNum ∨
           (s.plan.latchedTarget = s.timer.strideNum + 1 ∧ s.timer.decided = true) →
         Answers (.planVerificationEnd source) s fun t =>
           t.plan.state = .refused ∧ t.plan.code = 0x14 ∧ t.plan.pending = none ∧ Frame [.planRest] s t)))) ∧
  (∀ (r : Requester) (h : Fin 64) (s : State), Writable r 0x200008 s →
     (h ≠ 0 → (s.hall h).state = .awaitingTenant ∨ (s.hall h).state = .active ∨ (s.hall h).state = .paused →
       Answers (.teardown r h) s fun t =>
         t.hall h = { s.hall h with
           teardown := true, cmdResult := 1,
           teardownLate := if (s.hall h).teardown then (s.hall h).teardownLate else s.timer.decided } ∧
         t.out = s.out ++ rspOf r ∧ SameBut State.hall h s t ∧ Frame [.halls, .out] s t) ∧
     (h = 0 ∨ ((s.hall h).state ≠ .awaitingTenant ∧ (s.hall h).state ≠ .active ∧ (s.hall h).state ≠ .paused) →
       Answers (.teardown r h) s fun t =>
         t.hall h = { s.hall h with cmdResult := 2 } ∧ t.out = s.out ++ rspOf r ∧ SameBut State.hall h s t ∧
         Frame [.halls, .out] s t) ∧
     ((s.hall h).state = .paused → (s.hall h).teardown = false → (s.hall h).restore = [] → s.faults.fatal = false →
       Answers (.resume r h) s fun t =>
         t.hall h = { s.hall h with resume := true, cmdResult := 1 } ∧ t.out = s.out ++ rspOf r ∧
         SameBut State.hall h s t ∧ Frame [.halls, .out] s t) ∧
     ((s.hall h).state ≠ .paused ∨ (s.hall h).teardown = true ∨ (s.hall h).restore ≠ [] ∨ s.faults.fatal = true →
       Answers (.resume r h) s fun t =>
         t.hall h = { s.hall h with cmdResult := 2 } ∧ t.out = s.out ++ rspOf r ∧ SameBut State.hall h s t ∧
         Frame [.halls, .out] s t))

/-- LC_TRANSITION (R399, R400). The order of the result codes where several apply is the model's (log entry 51), so no
clause has two causes. OTP_BIT_PROGRAMMED, OTP_PROG_FAIL (R64, R399, R400, R402) and DEBUG_RIGHTS_EXPIRY (R412). -/
def Obligations.LifeCycleTransitionsProgramOtp : Prop :=
  (∀ (r : Requester) (s : State), s.lc.mp ≠ .reset →
     ∀ (code : BitVec 3), Writable r 0xD00008 s →
       (6 ≤ code.toNat ∨ s.lc.state = .scrap ∨
           (code ≠ 5 ∧ ∀ x, s.lc.state.nextState = some x → code.toNat ≠ x.code) →
         Answers (.lcTransition r code) s fun t =>
           t.lc = { s.lc with result := 1 } ∧ t.out = s.out ++ rspOf r ∧ Frame [.lcRest, .out] s t) ∧
       (code = 3 → s.lc.state = .provisioned → s.lc.torn = false → s.lc.certsOk = true →
         (s.lc.job.isSome = true ∨ s.lc.pending = true →
           Answers (.lcTransition r code) s fun t =>
             t.lc = { s.lc with result := 2 } ∧ t.out = s.out ++ rspOf r ∧ Frame [.lcRest, .out] s t) ∧
         (∀ b, b < 4 → (∀ i < b, bit (s.lc.word 10) (8 + i) = true) → bit (s.lc.word 10) (8 + b) = false →
           s.lc.job = none → s.lc.pending = false →
           Answers (.lcTransition r code) s fun t =>
             t.lc.result = 0 ∧ (∃ rest, t.lc.job = some { bits := (10, 8 + b) :: rest, target := some .fielded }) ∧
             t.out = s.out ++ [.otpProgram 10 (8 + b)] ++ rspOf r ∧ Frame [.lcRest, .out] s t)) ∧
       (code = 3 → s.lc.state = .provisioned → s.lc.torn = false → s.lc.certsOk = false → s.lc.job = none →
         s.lc.pending = false →
         Answers (.lcTransition r code) s fun t =>
           t.lc = { s.lc with result := 5 } ∧ t.out = s.out ++ rspOf r ∧ Frame [.lcRest, .out] s t)) ∧
  (∀ (s : State),
     (∀ w b rest target, s.lc.job = some { bits := (w, b) :: rest, target := target } → target ≠ some .scrap →
       (∀ w' b' more, rest = (w', b') :: more →
         Answers .otpBitProgrammed s fun t =>
           t.lc.word w = s.lc.word w ||| (1#32 <<< b) ∧ (∀ v, v ≠ w → t.lc.word v = s.lc.word v) ∧
           t.lc.job = some { bits := rest, target := target } ∧ t.out = s.out ++ [.otpProgram w' b'] ∧
           Frame [.otp, .lcRest, .out] s t) ∧
       (rest = [] →
         Answers .otpBitProgrammed s fun t =>
           t.lc.word w = s.lc.word w ||| (1#32 <<< b) ∧ (∀ v, v ≠ w → t.lc.word v = s.lc.word v) ∧
           t.lc.job = none ∧ (target.isSome = true → t.lc.pending = true) ∧ t.lc.state = s.lc.state ∧
           Frame [.otp, .lcRest] s t)) ∧
     (s.lc.job.isSome = true →
       Answers .otpProgFail s fun t =>
         t.lc = { s.lc with job := none, result := 6 } ∧ Frame [.lcRest, .faultsRest, .out] s t) ∧
     (s.lc.rights ≠ 0 → s.lc.limitLeft = 0 →
       Answers .debugRightsExpiry s fun t =>
         t.lc.rights = 0 ∧ t.lc.contentActive = 0 ∧ t.lc.contentAsked = 0 ∧ t.lc.scanOpen = false ∧
         t.lc.otpClosed = s.lc.otpClosed ∧ Frame [.lcRest] s t))

/-- POWER_UP, POWER_LOSS and FCLK_COUNT_WINDOW_END (R421, R422, R426, R430, R442). CORE_RESET, MGMT_RESET and
FABRIC_RELEASE (R34, R71, R383, R422 to R427). CORE_RST_N takes the fabric and leaves the life cycle, the fault
history, the root entries of the Vault and the management processor; MGMT_RST_N takes those and leaves the halls. -/
def Obligations.PowerAndResetsTakeTheirOwnState : Prop :=
  (∀ (s : State),
     (exec .powerLoss s = .next { ({} : State) with
       lc := { otp := s.lc.otp }, pending := s.pending, out := s.out, freeCtr := s.freeCtr }) ∧
     (s.core.coreRstLow = true → s.core.mgmtRstLow = true →
       exec .powerUp s = .next { s with core := { s.core with pwrGood := true } }) ∧
     (∀ (edges : BitVec 16) (hclk : Bool) (lclk : BitVec 20), s.core.pwrGood = true → s.core.mgmtRstLow = false →
       Answers (.fclkCountWindowEnd edges hclk lclk) s fun t =>
         t.core = { s.core with
           fclkCount := edges, fclkInRange := decide (4087 ≤ edges.toNat ∧ edges.toNat ≤ 4105),
           hclkRun := (hclk :: s.core.hclkRun).take 4, lclkRun := (lclk :: s.core.lclkRun).take 4 } ∧ Frame [.core] s t)) ∧
  (∀ (s : State),
     (s.core.coreRstLow = false →
       Answers .coreReset s fun t =>
         t.core.released = false ∧ t.core.coreRstLow = true ∧ t.core.coreResets = satAdd s.core.coreResets 1 ∧
         t.core.mgmtRstLow = s.core.mgmtRstLow ∧ t.plan = {} ∧ t.timer = {} ∧ t.halls = [] ∧ t.queues = [] ∧ t.fences = [] ∧
         t.xlat = {} ∧ t.protect = {} ∧ t.vault.slots = [] ∧ t.vault.halls = [] ∧ t.groups = [] ∧ t.commit = {} ∧
         (∀ n, (t.link n).egressKey = none ∧ (t.link n).ingressKey = none) ∧
         t.vault.rootSeed = s.vault.rootSeed ∧ t.vault.epochRoot = s.vault.epochRoot ∧
         t.vault.identity = s.vault.identity ∧ t.vault.linkIdentity = s.vault.linkIdentity ∧ t.vault.epoch = s.vault.epoch ∧
         t.vault.epochShown = 0 ∧ t.vault.rootShown = false ∧ t.vault.channels = [] ∧
         (∀ e ∈ s.engines, e.1 < 256 → ∀ d ∈ e.2.dmas, d.response e.1 .retired ∈ t.out) ∧ t.faults.ring = s.faults.ring ∧ t.faults.pinned = s.faults.pinned ∧
         t.faults.nextSeq = s.faults.nextSeq ∧ t.faults.fatal = false ∧
         t.lc = { s.lc with contentActive := 0 } ∧
         (∀ m, isOperator m = true → t.mailbox m = s.mailbox m) ∧
         (∀ m, isOperator m = false → (t.mailbox m).sessions = [] ∧ (t.mailbox m).bound = none)) ∧
     (s.core.mgmtRstLow = false →
       Answers .mgmtReset s fun t =>
         t.core.mgmtRstLow = true ∧ t.core.released = s.core.released ∧ t.core.fwRelease = false ∧
         t.core.coreResets = 0 ∧ t.core.deniedCount = 0 ∧ t.lc = { otp := s.lc.otp } ∧ t.mgmtMsgs = [] ∧
         t.vault.rootSeed = none ∧ t.vault.epochRoot = none ∧ t.vault.identity = none ∧
         t.vault.linkIdentity = none ∧ t.vault.slots = s.vault.slots ∧ t.vault.halls = s.vault.halls ∧ t.faults.pinned = none ∧ t.faults.ring = [] ∧ t.faults.nextSeq = 1 ∧ t.faults.driveLow = false ∧
         (∀ m, t.mailbox m = { req := (s.mailbox m).req, rsp := (s.mailbox m).rsp }) ∧
         Frame [.core, .mp, .lcRest, .mailboxes, .mgmtMsgs, .vaultRest, .faultsRest, .out] s t) ∧
     (∀ (present : BitVec 256), s.core.fwRelease = true → s.core.released = false → s.core.pwrGood = true →
       s.core.mgmtRstLow = false →
       Answers (.fabricRelease present) s fun t =>
         t.core.released = true ∧ t.core.coreRstLow = false ∧ t.core.engPresent = present ∧
         (∀ n < 256, (t.engine n) = { present := bit present n }) ∧
         (s.lc.planLength = 0 → Frame [.core, .engines] s t) ∧
         (s.lc.planLength ≠ 0 → s.plan.state ≠ .loading → s.plan.state ≠ .pending →
           t.plan.state = .loading ∧ t.plan.fromFlash = true ∧ t.plan.latchedAddr = (s.lc.planOffset &&& ~~~0x3F#64) ∧
           t.plan.latchedLen = (s.lc.planLength &&& 0x1FFFFF#64) ∧ t.plan.latchedTarget = 0 ∧ Frame [.core, .engines, .planRest, .out] s t)))

/-- BOOT (R390, R395, R396, R398, R401, R423, R424): with power and MGMT_RST_N low, the ROM reads the 48 OTP words, decodes
the state, loads serial, epoch and root seed, and reads the image header unless the device stays in ROM, which holds the
fabric. IMAGE_VERIFIED (R391 to R394): an image that passes every check starts the firmware, which derives its keys; the first
check that fails is boot_error. -/
def Obligations.BootReadsOtpAndChecksTheImage : Prop :=
  (∀ (otp : List (BitVec 32)) (s : State), s.core.mgmtRstLow = true → s.core.pwrGood = true →
    Answers (.boot otp) s fun t =>
      t.core.mgmtRstLow = false ∧ t.core.coreRstLow = false ∧ t.lc.mp = .rom ∧ t.lc.bootError = 0 ∧ t.lc.rights = 0 ∧
      (∀ w < 48, t.lc.word w = (otp[w]?).getD 0) ∧ t.lc.state = t.lc.decode ∧
      t.lc.torn = t.lc.tornState.isSome ∧ t.lc.serial = (otp[1]?).getD 0 ++ (otp[0]?).getD 0 ∧
      t.vault.epochShown = (if 3 ≤ t.lc.epochBits then 1 else 0) ∧
      (t.lc.state = .blank ∨ t.lc.state = .scrap → t.vault.rootSeed = none) ∧
      (t.lc.state = .test → t.vault.rootSeed = some 0) ∧
      (t.lc.state = .provisioned ∨ t.lc.state = .fielded ∨ t.lc.state = .returned → t.vault.rootSeed = some t.lc.seed) ∧
      (t.lc.loadsImage = true →
        t.core = { s.core with mgmtRstLow := false, coreRstLow := false } ∧
        t.out = s.out ++ [.bootSfdp, .bootRead 0 512] ∧
        Frame [.core, .mp, .otp, .lcRest, .vaultRest, .out, .freeCtr] s t) ∧
      (t.lc.loadsImage = false →
        t.core.released = false ∧
        (s.core.released = false → Frame [.core, .mp, .otp, .lcRest, .vaultRest, .faultsRest, .out, .freeCtr] s t))) ∧
  (∀ (c : ImageCheck) (s : State), s.lc.mp = .rom → s.lc.bootError = 0 → s.lc.loadsImage = true →
    (c.readOk = true → headerOk c = true → keyHashOk c s.lc = true → c.sigOk = true → codeOk c = true →
      (s.lc.state = .fielded ∨ s.lc.state = .returned → c.certsPresent = true ∧ c.certsOk = true) →
      Answers (.imageVerified c) s fun t =>
        t.lc.mp = .firmware ∧ t.lc.bootError = 0 ∧ t.core = { s.core with fwRelease := true } ∧
        t.lc.certsOk = (c.certsPresent && c.certsOk) ∧ t.lc.planOffset = BitVec.ofNat 64 (headerAt c 12 4) ∧
        t.lc.planLength = BitVec.ofNat 64 (headerAt c 16 4) ∧
        (∀ seed, s.vault.rootSeed = some seed →
          t.vault = { s.vault with
            epochRoot := some (epochRoot seed s.vault.epoch), identity := some (identityKey seed),
            linkIdentity := some (linkIdentityKey seed) }) ∧
        (s.core.released = false ∨ headerAt c 16 4 = 0 → Frame [.core, .mp, .lcRest, .vaultRest, .out] s t)) ∧
    (∀ e : BitVec 4,
      (c.readOk = false ∧ e = 1) ∨ (c.readOk = true ∧ headerOk c = false ∧ e = 2) ∨
        (c.readOk = true ∧ headerOk c = true ∧ keyHashOk c s.lc = false ∧ e = 3) ∨
        (c.readOk = true ∧ headerOk c = true ∧ keyHashOk c s.lc = true ∧ c.sigOk = false ∧ e = 4) ∨
        (c.readOk = true ∧ headerOk c = true ∧ keyHashOk c s.lc = true ∧ c.sigOk = true ∧ codeOk c = false ∧ e = 5) ∨
        (c.readOk = true ∧ headerOk c = true ∧ keyHashOk c s.lc = true ∧ c.sigOk = true ∧ codeOk c = true ∧
          (s.lc.state = .fielded ∨ s.lc.state = .returned) ∧ (c.certsPresent = false ∨ c.certsOk = false) ∧ e = 6) →
      Answers (.imageVerified c) s fun t =>
        t.lc.bootError = e ∧ t.lc.mp = .rom ∧ t.core.released = false ∧ t.core.fwRelease = s.core.fwRelease ∧
        (s.core.released = false →
          t = { s with lc := { s.lc with bootError := e }, out := s.out ++ imageReads c e })))

/-- REGISTER_WRITE and DENIED_READ (R5, R7, R49, R50, R52, R148, R432, R435 to R438, R444): an access with the right is made,
a read of the location or of the half that it names and a write of the register's fields; a denied access is logged and
changes nothing else, and a write of a read-only location does nothing. -/
def Obligations.RegisterAccessesFollowTheRights : Prop :=
  ∀ (addr : Nat) (be : Byte) (s : State), addr < 0x1000000 →
    (be = 0x0F ∨ be = 0xF0 ∨ be = 0xFF → ∀ (r : Requester), r = .mp ∨ r = .pf ∨ r = .fabric ∨ r = .test →
      s.answers r (blockOf addr) = true →
      let logged (write : Bool) (t : State) : Prop :=
        t.core = { s.core with
          deniedCount := satAdd s.core.deniedCount 1, deniedReq := requesterCode r, deniedWrite := write,
          deniedOffset := BitVec.ofNat 21 (addr / 8) } ∧ Frame [.core, .faultsRest, .out] s t
      (rightOf r (blockOf addr) ≠ .none →
        exec (.deniedRead r { addr := addr, be := be }) s =
          .next { s with out := s.out ++ [.mgmtRsp r (s.readMgmt r (addr / 8 * 8) &&& beMask be) 0] }) ∧
      (rightOf r (blockOf addr) = .none →
        Answers (.deniedRead r { addr := addr, be := be }) s fun t =>
          logged false t ∧ ∃ more, t.out = s.out ++ more ++ [.mgmtRsp r 0 1]) ∧
      (Settled s → ∀ (data : Word),
        (rightOf r (blockOf addr) ≠ .write →
          Answers (.registerWrite r addr be data) s fun t =>
            logged true t ∧
              ∃ more, t.out = s.out ++ more ++ (if r = .fabric ∨ r = .test then [.mgmtRsp r 0 1] else [])) ∧
        (rightOf r (blockOf addr) = .write →
          (addr / 8 * 8 = 0x100000 →
            Answers (.registerWrite r addr be data) s fun t =>
              t = { s with plan := { s.plan with srcAddr := merge s.plan.srcAddr be data &&& 0xFFFFFFFFFFFFFFC0 },
                           out := s.out ++ rspOf r }) ∧
          (addr / 8 * 8 = 0x100008 →
            Answers (.registerWrite r addr be data) s fun t =>
              t = { s with plan := { s.plan with srcLen := merge s.plan.srcLen be data &&& 0x1FFFFF },
                           out := s.out ++ rspOf r }) ∧
          (addr / 8 * 8 = 0x100010 →
            Answers (.registerWrite r addr be data) s fun t =>
              t = { s with plan := { s.plan with target := merge s.plan.target be data }, out := s.out ++ rspOf r }) ∧
          (addr / 8 * 8 = 0x100020 →
            Answers (.registerWrite r addr be data) s fun t => t = { s with out := s.out ++ rspOf r }) ∧
          (addr / 8 * 8 = 0xE00000 →
            Answers (.registerWrite r addr be data) s fun t =>
              t.gallery = (if be = 0xF0 then s.gallery else { s.gallery with
                types := BitVec.ofNat 10 (bits data 15 6), route := bit data 0,
                linkPort := if 20 ≤ bits data 5 1 then s.gallery.linkPort else BitVec.ofNat 5 (bits data 5 1) }) ∧
              t.out = s.out ++ rspOf r ∧ Frame [.gallery, .out] s t) ∧
          (0xF00100 ≤ addr → addr < 0xF00800 → s.core.mgmtRstLow = false →
            Answers (.registerWrite r addr be data) s fun t =>
              (∀ i, Tab.get 0 (t.mailbox 64).req i =
                if addr / 8 * 8 - 0xF00100 ≤ i ∧ i < addr / 8 * 8 - 0xF00100 + 8 ∧ bit be (i % 8) = true then
                  BitVec.ofNat 8 (byteField data (i % 8) (i % 8))
                else Tab.get 0 (s.mailbox 64).req i) ∧
              t.mailbox 64 = { s.mailbox 64 with req := (t.mailbox 64).req } ∧ SameBut State.mailbox 64 s t ∧
              t.out = s.out ++ rspOf r ∧ Frame [.mailboxes, .out] s t)))) ∧
    (∀ (r : Requester) (data : Word), (r = .fabric ∨ r = .test) ∧ be ≠ 0x0F ∧ be ≠ 0xF0 ∧ be ≠ 0xFF ∨
        r = .reserved 0 ∨ r = .reserved 1 → s.core.mgmtRstLow = false →
      exec (.deniedRead r { addr := addr, be := be }) s = .next { s with out := s.out ++ [.mgmtRsp r 0 2] } ∧
      (Settled s → exec (.registerWrite r addr be data) s = .next { s with out := s.out ++ [.mgmtRsp r 0 2] })) ∧
    (∀ (n : Fin 64) (off : Nat) (data : Word), s.core.released = true → Settled s →
      (be = 0x0F ∨ be = 0xF0 ∨ be = 0xFF →
        exec (.deniedRead (.vf n) { addr := off, be := be }) s =
          .next { s with out := s.out ++ [.mgmtRsp (.vf n) (s.readWindow n (off / 8 * 8) &&& beMask be) 0] } ∧
        (be ≠ 0xF0 → off / 8 * 8 = 0x3008 → s.core.mgmtRstLow = false →
          Answers (.registerWrite (.vf n) off be data) s fun t =>
            t.mailbox n = { s.mailbox n with
              reqLen := BitVec.ofNat 11 (bits data 10 0),
              kind := if bits data 12 11 = 3 then (s.mailbox n).kind else BitVec.ofNat 2 (bits data 12 11) } ∧
            SameBut State.mailbox n s t ∧ Frame [.mailboxes] s t)) ∧
      (be ≠ 0x0F → be ≠ 0xF0 → be ≠ 0xFF →
        exec (.deniedRead (.vf n) { addr := off, be := be }) s =
          .next { s with out := s.out ++ [.mgmtRsp (.vf n) 0 0] } ∧
        Answers (.registerWrite (.vf n) off be data) s fun t => Frame [.faultsRest, .out] s t))

/-- TRACE_PACKET and DROP (R413, R414): a packet takes the next sequence number and a place behind the buffer's
packets, or is dropped whole and counted; with route 1, fifteen packets leave together on the link port. OBSERVE (R415): the
frame's packets stand ahead of this core's own, and what then exceeds 256 packets is dropped and counted. TELEMETRY_WRITE
(R20, R417). -/
def Obligations.GalleryKeepsAndForwardsRecords : Prop :=
  (∀ (s : State), s.core.released = true →
     (∀ (type h : Byte) (body : List Byte) (p : Packet), type ≠ 7 → s.traceAllowed type.toNat h.toNat = true →
       p = { type := type, hall := h, hallGen := if h.toNat < 64 then (s.hall h.toNat).gen else 0,
             seq := s.gallery.nextSeq, stride := s.timer.strideNum, offset := s.timer.fclk, body := body.take 44 } →
       (s.gallery.buffer.length + s.gallery.foreign.length < 256 →
         s.gallery.route = false ∨ s.gallery.buffer.length < 14 →
         Answers (.tracePacket type h body) s fun t =>
           t.gallery = { s.gallery with nextSeq := s.gallery.nextSeq + 1, buffer := s.gallery.buffer ++ [p] } ∧
           Frame [.gallery] s t) ∧
       (∀ n : Fin 20, s.gallery.buffer.length = 14 → s.gallery.foreign.length < 242 → s.gallery.route = true →
         s.gallery.linkPort.toNat = n → s.linkUsed n = true → s.portFenced n = false →
         Answers (.tracePacket type h body) s fun t =>
           t.gallery = { s.gallery with nextSeq := s.gallery.nextSeq + 1, buffer := [] } ∧
           t.link n = { s.link n with txq := (s.link n).txq ++ [{
             hall := 0, vc := 7, hdr := frameHdr fkObserve 2 0 0 960 (s.srcGen 0) [],
             body := (s.gallery.buffer ++ [p]).flatMap Packet.bytes }] } ∧
           SameBut State.link n s t ∧ Frame [.links, .gallery] s t) ∧
       (256 ≤ s.gallery.buffer.length + s.gallery.foreign.length →
         Answers (.tracePacket type h body) s fun t =>
           t.gallery = { s.gallery with
             nextSeq := s.gallery.nextSeq + 1, drops := satAdd s.gallery.drops 1,
             dropsPending := satAdd s.gallery.dropsPending 1 } ∧ Frame [.gallery] s t)) ∧
     (∀ (type h : Byte) (body : List Byte), type.toNat ≠ 7 →
       type = 0 ∨ 10 < type.toNat ∨ bit s.gallery.types (type.toNat - 1) = false ∨
         (8 ≤ type.toNat ∧ type.toNat ≤ 9 ∧ s.debugRight 1 = false) ∨
         (type.toNat = 10 ∧ (64 ≤ h.toNat ∨ bit s.lc.contentActive h.toNat = false)) →
       exec (.tracePacket type h body) s = .next s) ∧
     (s.gallery.dropsPending ≠ 0 → s.gallery.buffer.length + s.gallery.foreign.length < 256 →
       bit s.gallery.types 6 = true → s.gallery.route = false ∨ s.gallery.buffer.length < 14 →
       Answers .drop s fun t =>
         t.gallery = { s.gallery with
           dropsPending := 0, nextSeq := s.gallery.nextSeq + 1,
           buffer := s.gallery.buffer ++ [{
             type := 7, hall := 0xFF, hallGen := 0, seq := s.gallery.nextSeq, stride := s.timer.strideNum,
             offset := s.timer.fclk, body := leBytes 4 s.gallery.dropsPending.toNat }] } ∧
         Frame [.gallery] s t)) ∧
  ((∀ (n : Fin 20) (f : RxFrame) (h : BitVec 512) (body : List Byte) (s : State) (all : List (List Byte)),
     FrameTaken n fkObserve f h body s →
     all = s.gallery.foreign ++ (List.range (body.length / 64)).map (fun i => (body.drop (64 * i)).take 64) →
     Answers (.observe n f) s fun t =>
       (all.length + s.gallery.buffer.length ≤ 256 → t.gallery = { s.gallery with foreign := all }) ∧
       (256 < all.length + s.gallery.buffer.length →
         t.gallery.foreign = all.take 256 ∧ t.gallery.buffer = s.gallery.buffer.take (256 - all.length) ∧
         t.gallery.drops = satAdd s.gallery.drops (all.length + s.gallery.buffer.length - 256) ∧
         t.gallery.dropsPending = satAdd s.gallery.dropsPending (all.length + s.gallery.buffer.length - 256)) ∧
       t.link n = verifiedLink (s.link n) f.vc (s.rxHall h) ∧ t.out = s.out ++ [.linkCredit n f.vc] ∧
       SameBut State.link n s t ∧ Frame [.links, .gallery, .out] s t) ∧
   (∀ (s : State), Settled s →
     (s.gallery.ringFits (s.seg (segNo 0 s.gallery.context.toNat s.gallery.segment.toNat)) = false →
       Answers .telemetryWrite s fun t =>
         t.gallery.telemRecords = [] ∧
         t.gallery.telemDropped = s.gallery.telemRecords.foldl (fun d _ => satAdd d 1) s.gallery.telemDropped ∧
         t.gallery.telemWritten = s.gallery.telemWritten ∧ Frame [.gallery] s t) ∧
     (∀ h rec, s.gallery.ringFits (s.seg (segNo 0 s.gallery.context.toNat s.gallery.segment.toNat)) = true →
       s.gallery.telemRecords = [(h, rec)] →
       (s.telemFits h = true →
         Answers .telemetryWrite s fun t =>
           t.gallery = { s.gallery with telemRecords := [], telemWritten := s.gallery.telemWritten + 1 } ∧
           Frame [.planRest, .halls, .queues, .fences, .engines, .ports, .protect, .xlatRest, .hallKeys, .vaultRest, .links,
             .commit, .faultsRest, .gallery, .out] s t) ∧
       (s.telemFits h = false → exec .telemetryWrite s = .next s))))

/-- DOORBELL and RING_ENTRY (R153, R155, R156, R196): an entry that the core cannot read retires with the status of the read. KRING_BASE_WRITE, KRING_ENABLE, KRING_DISABLE, KRING_DISABLE_DONE and
KRING_DOORBELL (R149, R150, R151). Which entry is in progress at a disable is the model's choice (log entry 83); no clause
says it. -/
def Obligations.RingsAreWrittenAndFetched : Prop :=
  (∀ (h : Fin 64) (q : Fin 256) (s : State), (s.hall h).state = .active →
     ((s.queue h q).state ≠ .absent → (s.queue h q).state ≠ .destroying →
       ∀ data : Word,
       let v : BitVec 16 := BitVec.ofNat 16 (bits data 15 0)
       ((v - (s.queue h q).readIndex).toNat ≤ 2 ^ (s.queue h q).ringLog2 →
         Answers (.doorbell h q data) s fun t =>
           t.queue h q = (if (s.queue h q).armed then { s.queue h q with doorbell := v, armed := false, writeIndex := v }
             else { s.queue h q with doorbell := v }) ∧
           t.out = s.out ++ (if (s.queue h q).armed ∧ (s.queue h q).readIndex ≠ v then
             [.ringFetch h q (s.queue h q).readIndex v] else []) ∧
           SameQueuesBut h q s t ∧ Frame [.queues, .out] s t) ∧
       (2 ^ (s.queue h q).ringLog2 < (v - (s.queue h q).readIndex).toNat →
         Answers (.doorbell h q data) s fun t =>
           t.queue h q = { s.queue h q with badDoorbell := true } ∧ SameQueuesBut h q s t ∧ Frame [.queues] s t)) ∧
     ((s.queue h q).state = .active → (s.queue h q).buffer = none → (s.queue h q).wait = .none →
       (s.queue h q).inv = none → (s.queue h q).backlog = [] → (s.queue h q).readIndex ≠ (s.queue h q).writeIndex →
       let va := (s.queue h q).ringAddr + 16 * ((s.queue h q).readIndex.toNat % 2 ^ (s.queue h q).ringLog2)
       let took (t : State) : Prop :=
         (t.queue h q).readIndex = (s.queue h q).readIndex + 1 ∧
         ((s.queue h q).readIndex + 1 = (s.queue h q).writeIndex → (t.queue h q).armed = true ∧
           (t.queue h q).writeIndex = (s.queue h q).doorbell ∧
           t.out = s.out ++ (if (s.queue h q).readIndex + 1 ≠ (s.queue h q).doorbell then
             [.ringFetch h q ((s.queue h q).readIndex + 1) (s.queue h q).doorbell] else [])) ∧
         ((s.queue h q).readIndex + 1 ≠ (s.queue h q).writeIndex → (t.queue h q).armed = (s.queue h q).armed ∧
           (t.queue h q).writeIndex = (s.queue h q).writeIndex ∧ t.out = s.out) ∧ SameQueuesBut h q s t
       let first (st : Byte) : Byte := if (s.queue h q).firstStatus = 0 then st else (s.queue h q).firstStatus
       (∀ (entry : BitVec 128), s.bars h (s.queue h q).context va 16 = none →
         (bits entry 5 0 = 0 → bits entry 63 48 = 0 → 1 ≤ byteField entry 11 8 → byteField entry 11 8 ≤ 1048576 →
           byteField entry 15 12 = 0 →
           Answers (.ringEntry h q 0 entry false) s fun t =>
             (t.queue h q).buffer = some { base := bits entry 47 0, count := byteField entry 11 8, pos := 0, loops := [] } ∧
             (t.queue h q).firstStatus = (s.queue h q).firstStatus ∧ took t ∧
             Frame [.queues, .out] (s.noteRead h (s.queue h q).context va 16 0) t) ∧
         (bits entry 5 0 ≠ 0 ∨ bits entry 63 48 ≠ 0 ∨ byteField entry 11 8 = 0 ∨ 1048576 < byteField entry 11 8 ∨
             byteField entry 15 12 ≠ 0 →
           Answers (.ringEntry h q 0 entry false) s fun t =>
             (t.queue h q).buffer = none ∧ (t.queue h q).firstStatus = first Status.refused.code ∧ took t ∧
             Frame [.queues, .out] (s.noteRead h (s.queue h q).context va 16 0) t)) ∧
       (∀ (entry : BitVec 128) (answer : Byte) (st : Status), s.bars h (s.queue h q).context va 16 = some st →
         Answers (.ringEntry h q answer entry false) s fun t =>
           (t.queue h q).buffer = none ∧ (t.queue h q).firstStatus = first st.code ∧ took t ∧ Frame [.queues, .out] s t))) ∧
  (∀ (f : Fin 64) (s : State),
     (∀ (data : Word), s.core.released = true → (s.func f).kstate = .disabled →
       Answers (.kringBaseWrite f data) s fun t =>
         t.func f = { s.func f with
           baseAddr := BitVec.ofNat 52 (bits data 63 12),
           size := if bits data 2 0 = 7 then (s.func f).size else BitVec.ofNat 3 (bits data 2 0) } ∧
         SameBut State.func f s t ∧ Frame [.funcs] s t) ∧
     (∀ (data : Word), (s.func f).kstate ≠ .disabled → exec (.kringBaseWrite f data) s = .next s) ∧
     (s.core.released = true → (s.func f).kstate = .disabled →
       Answers (.kringEnable f) s fun t =>
         t.func f = { s.func f with kstate := .enabled, readIndex := 0, writeIndex := 0 } ∧ SameBut State.func f s t ∧
         Frame [.funcs] s t) ∧
     (s.core.released = true → (s.func f).kstate = .disabling →
       Answers (.kringEnable f) s fun t =>
         t.func f = { s.func f with kstate := .enablePending } ∧ SameBut State.func f s t ∧ Frame [.funcs] s t) ∧
     ((s.func f).kstate = .enabled →
       Answers (.kringDisable f) s fun t =>
         (t.func f).kstate = .disabling ∧ (t.func f).readIndex = (s.func f).readIndex ∧
         (t.func f).writeIndex = (s.func f).writeIndex ∧ SameBut State.func f s t ∧ Frame [.funcs] s t) ∧
     ((s.func f).kstate = .disabling → (s.func f).retiring = none → (s.func f).entryDue = false → Settled s →
       Answers (.kringDisableDone f) s fun t =>
         t.func f = { s.func f with kstate := .disabled } ∧ SameBut State.func f s t ∧ Frame [.funcs] s t) ∧
     ((s.func f).kstate = .enablePending → (s.func f).retiring = none → (s.func f).entryDue = false →
       Answers (.kringDisableDone f) s fun t =>
         (t.func f).kstate = .enabled ∧ (t.func f).readIndex = 0 ∧ (t.func f).writeIndex = 0 ∧
         (t.func f).gen = nextGen (s.func f).gen ∧ (t.func f).priDisabled = false ∧
         (∀ e ∈ t.xlat.htc, e.func ≠ f) ∧
         Frame [.planRest, .halls, .funcs, .queues, .fences, .engines, .ports, .protect, .xlatRest, .hallKeys, .vaultRest,
           .links, .commit, .faultsRest, .out] s t) ∧
     ((s.func f).kstate = .enablePending →
       Answers (.kringDisable f) s fun t =>
         t.func f = { s.func f with kstate := .disabling } ∧ SameBut State.func f s t ∧ Frame [.funcs] s t) ∧
     (∀ (data : Word), (s.func f).kstate = .enabled → (s.hall f).state = .active ∨ (s.hall f).state = .paused →
       let v : BitVec 16 := BitVec.ofNat 16 (bits data 15 0)
       Answers (.kringDoorbell f data) s fun t =>
         t.func f = { s.func f with writeIndex := v } ∧
         t.out = s.out ++ (if (s.func f).readIndex ≠ v then [.kringFetch f (s.func f).readIndex v] else []) ∧
         SameBut State.func f s t ∧ Frame [.funcs, .out] s t))

/-- The kernel-ring entries (R151, R152): NOP, QUEUE_CREATE, QUEUE_DESTROY, QUEUE_RESET with their
QUEUE_RETIREMENT_DONE, FENCE_SET and a reserved op. An
entry that the core could not read completes with the status of its read (R272).
Which global queue number is free is the model's choice (log entry 16); so is what a destroyed queue's registers show
(log entry 82). -/
def Obligations.KernelEntriesManageQueues : Prop :=
  ∀ (f : Fin 64) (raw : BitVec 512) (s : State),
    let e := parseKEntry raw
    (AtKEntry f 0 raw s → kNopOk raw = true →
      Answers (.nop (.kring f) raw) s fun t =>
        t.func f = doneFunc (s.func f) .ok ∧ SameBut State.func f s t ∧ Frame [.funcs] s t) ∧
    (∀ g, AtKEntry f 1 raw s → kCreateOk raw = true → (s.queue f e.queue).state = .absent →
      s.queuesInUse f < (s.rec_ f).queueQuota → s.hasSegment f e.context = true → e.address % 4096 = 0 → 4 ≤ e.ringLog2 →
      e.ringLog2 ≤ 15 → s.freeGlobal = some g →
      Answers (.queueCreate f raw) s fun t =>
        t.queue f e.queue = { ({} : Queue) with
          state := .active, gen := nextGen (s.queue f e.queue).gen, global := BitVec.ofNat 12 g, context := e.context,
          ringLog2 := e.ringLog2, ringAddr := e.address, armed := true } ∧
        (∀ h' q', (s.queue h' q').state ≠ .absent → (s.queue h' q').global.toNat ≠ g) ∧
        t.func f = doneFunc (s.func f) .ok ∧ SameBut State.func f s t ∧ SameQueuesBut f e.queue s t ∧
        Frame [.queues, .funcs] s t) ∧
    (AtKEntry f 1 raw s →
      (s.queue f e.queue).state ≠ .absent ∨ (s.rec_ f).queueQuota ≤ s.queuesInUse f ∨ s.hasSegment f e.context = false ∨
        e.address % 4096 ≠ 0 ∨ e.ringLog2 < 4 ∨ 15 < e.ringLog2 →
      Answers (.queueCreate f raw) s fun t =>
        t.func f = doneFunc (s.func f) .refused ∧ SameBut State.func f s t ∧ Frame [.funcs] s t) ∧
    (AtKEntry f 2 raw s → kQueueOk raw = true → (s.queue f e.queue).state ≠ .absent →
      Answers (.queueDestroy f raw) s fun t =>
        (t.queue f e.queue).state = .destroying ∧ (t.queue f e.queue).gen = nextGen (s.queue f e.queue).gen ∧
        (t.queue f e.queue).inv = none ∧ (t.queue f e.queue).buffer = none ∧
        (t.func f).retiring = some (true, e.queue) ∧ (t.func f).completed = (s.func f).completed ∧
        Frame [.planRest, .halls, .funcs, .queues, .deadlines, .engines, .ports, .protect, .xlatRest, .links, .commit, .out]
          s t) ∧
    (AtKEntry f 3 raw s → kQueueOk raw = true → (s.queue f e.queue).state ≠ .absent →
      Answers (.queueReset f raw) s fun t =>
        (t.queue f e.queue).state = .active ∧ (t.queue f e.queue).firstStatus = 0 ∧
        (t.queue f e.queue).badDoorbell = false ∧ (t.queue f e.queue).gen = nextGen (s.queue f e.queue).gen ∧
        (t.queue f e.queue).readIndex = (s.queue f e.queue).doorbell ∧ (t.queue f e.queue).inv = none ∧
        (t.func f).retiring = some (false, e.queue) ∧ (t.func f).completed = (s.func f).completed ∧
        Frame [.planRest, .halls, .funcs, .queues, .deadlines, .engines, .ports, .protect, .xlatRest, .links, .commit, .out]
          s t) ∧
    (∀ d q, (s.func f).retiring = some (d, q) → s.recordsDue f q = false →
      Answers (.queueRetirementDone f) s fun t =>
        t.queue f q = (if d then { s.queue f q with state := .absent, global := 0 } else s.queue f q) ∧
        t.func f = { s.func f with
          retiring := none, lastStatus := Status.ok.code, completed := (s.func f).completed + 1 } ∧
        SameBut State.func f s t ∧ SameQueuesBut f q s t ∧ Frame [.queues, .funcs] s t) ∧
    (∀ d q, (s.func f).retiring = some (d, q) → s.recordsDue f q = true → exec (.queueRetirementDone f) s = .next s) ∧
    (AtKEntry f 4 raw s → kFenceOk raw = true →
      Answers (.fenceSet f raw) s fun t =>
        t.fence f e.fence = BitVec.ofNat 64 e.address ∧ t.func f = doneFunc (s.func f) .ok ∧
        SameFencesBut f e.fence s t ∧ SameBut State.func f s t ∧ Frame [.fences, .queues, .halls, .funcs] s t) ∧
    (∀ op, 5 ≤ op → AtKEntry f op raw s →
      Answers (.reservedOpcode (.kring f) raw 0) s fun t =>
        t.func f = doneFunc (s.func f) .refused ∧ SameBut State.func f s t ∧ Frame [.funcs] s t) ∧
    (∀ (answer : Byte) (st : Status), s.atKEntry f = true → answer ≠ 0 → s.kringStatus f answer = st → st ≠ .ok →
      st ≠ .integrity →
      Answers (.reservedOpcode (.kring f) raw answer) s fun t =>
        t.func f = doneFunc (s.func f) st ∧ SameBut State.func f s t ∧ Frame [.funcs] s t) ∧
    (s.atKEntry f = true → byteField raw 0 0 = 0 → s.kringStatus f 0 ≠ .ok →
      Answers (.nop (.kring f) raw) s fun t =>
        t.func f = doneFunc (s.func f) .refused ∧ SameBut State.func f s t ∧ Frame [.funcs] s t)

/-- The commands of a queue that complete at once (R158 to R165): NOP, WAIT_FENCE of a fence that has its value,
SIGNAL_FENCE, COND_SKIP, LOOP_BEGIN and LOOP_END; what abandons the buffer, a reserved opcode among it; and a command that the
core cannot read. -/
def Obligations.QueueCommandsComplete : Prop :=
  ∀ (h : Fin 64) (q : Fin 256) (raw : BitVec 512) (b : Buffer) (s : State), b.pos + 1 < b.count →
    let read := commandRead h q b s
    let w := recordWrite h q (cmdHdr raw) { status := 0 } s
    let wr := recordWrite h q (cmdHdr raw) { status := Status.refused.code } s
    let ended (x : Queue) (w : Option CoreWrite) (u t : State) : Prop :=
      t.queue h q = x ∧ t.xlat = withWrite u.xlat w ∧ SameQueuesBut h q s t ∧ Frame [.queues, .xlatRest] u t
    let done (n : Nat) := ended (doneQueue (s.queue h q) (cmdHdr raw) w b n) w
    let refused := ended (refusedQueue (s.queue h q) (cmdHdr raw) wr) wr read
    (AtCommand h q 0 raw b s → zeroBytes raw 63 16 = true → Answers (.nop (.queue h q) raw) s (done 1 read)) ∧
    (AtCommand h q 2 raw b s → fenceFieldsOk raw b = true → fenceValue raw b ≤ s.fence h (fenceNum raw) →
      Answers (.waitFence h q raw) s (done 1 read)) ∧
    (AtCommand h q 2 raw b s → fenceFieldsOk raw b = true → s.fence h (fenceNum raw) < fenceValue raw b →
      Answers (.waitFence h q raw) s fun t =>
        t.queue h q = { s.queue h q with
          wait := .fence (fenceNum raw) (fenceValue raw b) (cmdHdr raw), state := .waiting, hang := 0,
          fenceChanged := false } ∧ SameQueuesBut h q s t ∧ Frame [.queues] read t) ∧
    (AtCommand h q 3 raw b s → fenceFieldsOk raw b = true →
      Answers (.signalFence h q raw) s fun t =>
        t.fence h (fenceNum raw) = fenceValue raw b ∧ SameFencesBut h (fenceNum raw) s t ∧
        t.queue h q = doneQueue (s.queue h q) (cmdHdr raw) w b 1 ∧ t.xlat = withWrite read.xlat w ∧
        (∀ h' q', 256 * h' + q' ≠ 256 * h.val + q.val →
          { t.queue h' q' with fenceChanged := false } = { s.queue h' q' with fenceChanged := false }) ∧
        Frame [.queues, .fences, .xlatRest] read t) ∧
    (∀ (answer : Byte) (word : Word) (span : List Byte) (n : Nat) (source : Word), AtCommand h q 4 raw b s →
      skipFieldsOk raw = true → n = byteField raw 23 20 → b.pos + 1 + n < b.count → spanBalanced 0 (span.take n) = true →
      (byteField raw 16 16 = 0 ∧ source = s.fence h (bits raw 155 144)) ∨
        (byteField raw 16 16 = 1 ∧ s.readStatus h (s.queue h q).context (byteField raw 29 24) 8 answer = .ok ∧
          source = word) →
      s.bars h (s.queue h q).context (b.commandVa + 64) (64 * n) = none →
      Answers (.condSkip h q raw answer word 0 span) s
        (done (if skipCondition raw source then 1 + n else 1)
          ((read.noteWord h q raw answer).noteRead h (s.queue h q).context (b.commandVa + 64) (64 * n) 0))) ∧
    (AtCommand h q 5 raw b s → zeroBytes raw 63 20 = true → 1 ≤ byteField raw 19 16 → byteField raw 19 16 ≤ 16777216 →
      b.loops.length < 8 →
      Answers (.loopBegin h q raw) s
        (ended { doneQueue (s.queue h q) (cmdHdr raw) w b 1 with
          buffer := some { b with
            pos := b.pos + 1, loops := { start := b.pos + 1, count := byteField raw 19 16, iter := 0 } :: b.loops } } w read)) ∧
    (∀ (l : Loop) (outer : List Loop), AtCommand h q 6 raw b s → zeroBytes raw 63 16 = true → b.loops = l :: outer →
      Answers (.loopEnd h q raw) s
        (ended { doneQueue (s.queue h q) (cmdHdr raw) w b 1 with
          buffer := some (if l.iter + 1 < l.count then
            { b with pos := l.start, loops := { l with iter := l.iter + 1 } :: outer }
            else { b with pos := b.pos + 1, loops := outer }) } w read)) ∧
    (AtCommand h q 5 raw b s → byteField raw 19 16 = 0 ∨ 16777216 < byteField raw 19 16 ∨ 8 ≤ b.loops.length →
      Answers (.loopBegin h q raw) s refused) ∧
    (AtCommand h q 6 raw b s → b.loops = [] → Answers (.loopEnd h q raw) s refused) ∧
    (∀ op, 0x0B ≤ op → AtCommand h q op raw b s → Answers (.reservedOpcode (.queue h q) raw 0) s refused) ∧
    (∀ st, s.atCommand h q = some b → byteField raw 0 0 = 0 → (s.queue h q).openGroup = none →
      s.bars h (s.queue h q).context b.commandVa 64 = some st →
      Answers (.nop (.queue h q) raw) s fun t =>
        t.queue h q = { s.queue h q with
          buffer := none, firstStatus := if (s.queue h q).firstStatus = 0 then st.code else (s.queue h q).firstStatus } ∧
        SameQueuesBut h q s t ∧ Frame [.queues] s t)

/-- INVOKE (R168, R169, R190), FENCE_CONDITION_MET (R163) and MIGRATE (R206, R208). -/
def Obligations.LongCommandsStartAndEnd : Prop :=
  ∀ (h : Fin 64) (q : Fin 256) (s : State),
    (∀ (raw : BitVec 512) (b : Buffer) (d : DescRead), s.atCommand h q = some b →
      s.bars h (s.queue h q).context b.commandVa 64 = none → byteField raw 0 0 = 1 →
      (s.queue h q).openGroup = none → invokeFieldsOk raw b = true →
      let va := invokeVa raw b
      let read := (commandRead h q b s).noteDesc h (s.queue h q).context va d
      (s.invokeCheck h (s.queue h q).context va d false = none →
        ((parseDesc d.desc).deadline = true → (s.deadline h).state = .idle) →
        Answers (.invoke h q raw d) s fun t =>
          t.queue h q = { s.queue h q with
            invSeq := (s.queue h q).invSeq + 1, wait := .invocation,
            inv := some {
              seq := (s.queue h q).invSeq, hdr := invokeHdr raw b, context := (s.queue h q).context,
              desc := parseDesc d.desc, waves := waveList (parseDesc d.desc) d.waves } } ∧
          ((parseDesc d.desc).deadline = false → t.deadlines = s.deadlines) ∧
          ((parseDesc d.desc).deadline = true →
            (t.deadline h).state = .watching ∧ (t.deadline h).queue = q ∧ (t.deadline h).t0 = s.timer.strideNum ∧
            (t.deadline h).seq = (s.queue h q).invSeq) ∧
          SameQueuesBut h q s t ∧ Frame [.queues, .deadlines] read t) ∧
      (∀ reason st, s.invokeCheck h (s.queue h q).context va d false = some (reason, st) → b.pos + 1 < b.count →
        let w := recordWrite h q (invokeHdr raw b)
          { status := st.code, reason := reason, invocation := (s.queue h q).invSeq } s
        Answers (.invoke h q raw d) s fun t =>
          t.queue h q = { s.queue h q with
            buffer := some { b with pos := b.pos + 1 }, invSeq := (s.queue h q).invSeq + 1,
            completion := countNow (s.queue h q) (invokeHdr raw b) w,
            firstStatus := if (s.queue h q).firstStatus = 0 then st.code else (s.queue h q).firstStatus } ∧
          t.xlat = withWrite read.xlat w ∧
          (t.hall h).live.invocations = (read.hall h).live.invocations + 1 ∧ SameQueuesBut h q s t ∧
          SameBut State.hall h read t ∧ Frame [.queues, .halls, .xlatRest] read t)) ∧
    (∀ (n : Nat) (v : Word) (hdr : CmdHdr) (b : Buffer), (s.queue h q).wait = .fence n v hdr → hdr.opcode = 2 →
      (s.queue h q).state = .waiting → v ≤ s.fence h n → (s.queue h q).buffer = some b → b.pos + 1 < b.count →
      let w := recordWrite h q hdr { status := 0 } s
      Answers (.fenceConditionMet h q) s fun t =>
        t.queue h q = { doneQueue (s.queue h q) hdr w b 1 with
          wait := .none, state := .active, hang := 0, fenceChanged := false } ∧ t.xlat = withWrite s.xlat w ∧
        SameQueuesBut h q s t ∧ Frame [.queues, .xlatRest] s t) ∧
    (∀ (raw : BitVec 512) (b : Buffer) (k : Nat), AtCommand h q 0x0A raw b s → Settled s →
      let m := parseMigrate raw
      let n := (s.win m.window).linkPort
      m.direction = 3 → s.migrateCheck h (s.queue h q).context m = some k → s.portFenced n = false → s.linkUsed n = true →
      (∀ x ∈ s.xlat.migrations, ¬(x.hall = h ∧ x.queue = q)) →
      Answers (.migrate h q raw) s fun t =>
        t.queue h q = { s.queue h q with wait := .migrate } ∧
        (∀ i < min m.pages 16, ∃ r ∈ (t.link n).reqs ++ (t.link n).pendingReqs,
          r.copy = true ∧ r.write = false ∧ r.page = i ∧ r.offset = m.src + 4096 * i ∧ r.length = 4096 ∧ r.hall = h ∧
          r.queue = q ∧ r.entry = m.window ∧ r.entryGen = (s.win m.window).gen) ∧
        SameQueuesBut h q s t ∧ SameBut State.link n s t ∧ Frame [.queues, .links, .xlatRest] (commandRead h q b s) t)

/-- COMMIT_OPEN and COMMIT_CLOSE (R167, R361, R363, R364), and what is recorded and refused between them (R167, R362). -/
def Obligations.CommitGroupsOpenAndClose : Prop :=
  ∀ (h : Fin 64) (q : Fin 256) (raw : BitVec 512) (b : Buffer) (s : State), s.atCommand h q = some b →
    s.bars h (s.queue h q).context b.commandVa 64 = none → hdrOk raw = true → b.pos + 1 < b.count →
    let read := commandRead h q b s
    let w := recordWrite h q (cmdHdr raw) { status := 0 } s
    let wr := recordWrite h q (cmdHdr raw) { status := Status.refused.code } s
    (byteField raw 0 0 = 8 → commitFieldsOk raw = true → (s.queue h q).openGroup = none →
      (s.cmt h (commitGroupOf raw)).state = .idle ∨ (s.cmt h (commitGroupOf raw)).state = .staging →
      Answers (.commitOpen h q raw) s fun t =>
        t.cmt h (commitGroupOf raw) = { s.cmt h (commitGroupOf raw) with state := .open_, queue := q } ∧
        t.queue h q = { doneQueue (s.queue h q) (cmdHdr raw) w b 1 with
          openGroup := some (commitGroupOf raw, b.loops.length), openAborted := false } ∧
        t.xlat = withWrite read.xlat w ∧ SameQueuesBut h q s t ∧
        SameCmtBut h (commitGroupOf raw) s t ∧ Frame [.queues, .xlatRest, .commit] read t) ∧
    (byteField raw 0 0 = 8 → commitFieldsOk raw = true → (s.queue h q).openGroup = none →
      (s.cmt h (commitGroupOf raw)).state = .open_ ∨ (s.cmt h (commitGroupOf raw)).state = .closed →
      Answers (.commitOpen h q raw) s fun t =>
        t.queue h q = refusedQueue (s.queue h q) (cmdHdr raw) wr ∧ t.xlat = withWrite read.xlat wr ∧
        SameQueuesBut h q s t ∧ Frame [.queues, .xlatRest] read t) ∧
    (∀ descs l, byteField raw 0 0 = 9 → commitFieldsOk raw = true →
      (s.queue h q).openGroup = some (commitGroupOf raw, b.loops.length) →
      (s.queue h q).openAborted = false →
      s.closeActions h (s.queue h q).context (s.cmt h (commitGroupOf raw)).recorded descs = some l →
      Answers (.commitClose h q raw descs) s fun t =>
        t.cmt h (commitGroupOf raw) = { s.cmt h (commitGroupOf raw) with
          state := .closed, recorded := l, late := s.timer.decided, closeHdr := cmdHdr raw,
          closeSeq := (s.timer.strideNum.toNat * 2 ^ 32 + s.timer.fclk.toNat) * 4096 + (64 * h + commitGroupOf raw) } ∧
        t.queue h q = { s.queue h q with wait := .close (commitGroupOf raw) (cmdHdr raw), openGroup := none } ∧
        SameQueuesBut h q s t ∧ SameCmtBut h (commitGroupOf raw) s t ∧
        Frame [.queues, .commit]
          (read.noteDescs h (s.queue h q).context (s.cmt h (commitGroupOf raw)).recorded descs) t) ∧
    (∀ g n, (s.queue h q).openGroup = some (g, n) → (s.queue h q).openAborted = false →
      (byteField raw 0 0 = 3 → fenceFieldsOk raw b = true → (s.cmt h g).staged.length + (s.cmt h g).recorded.length < 4096 →
        Answers (.signalFence h q raw) s fun t =>
          t.cmt h g = { s.cmt h g with recorded := (s.cmt h g).recorded ++
            [.signal (cmdHdr raw) (fenceNum raw) (fenceValue raw b)] } ∧
          t.fences = s.fences ∧ t.queue h q = { s.queue h q with buffer := some { b with pos := b.pos + 1 } } ∧
          SameQueuesBut h q s t ∧ SameCmtBut h g s t ∧ Frame [.queues, .commit] read t) ∧
      (byteField raw 0 0 = 0 → (s.cmt h g).state = .open_ → (s.cmt h g).queue = q → (s.cmt h g).recorded = [] →
        (∀ a ∈ (s.cmt h g).staged, a.isSwap = false) →
        Answers (.nop (.queue h q) raw) s fun t =>
          t.cmt h g = { cause := acOpcode } ∧
          t.queue h q = { refusedQueue (s.queue h q) (cmdHdr raw) wr with openGroup := none, openAborted := false } ∧
          t.xlat = withWrite read.xlat wr ∧ SameQueuesBut h q s t ∧ SameCmtBut h g s t ∧
          Frame [.queues, .xlatRest, .commit] read t))

/-- The SPDM requests that need no session of their own (R404, R408): each is answered in its order, or by an SPDM
error. The bytes of the answers are free values (log entry 10); the order and the codes are those of the standard that
the spec names (log entry 12). SPDM sessions (R404): KEY_EXCHANGE, FINISH, HEARTBEAT, KEY_UPDATE, END_SESSION and
SESSION_TIMEOUT. A session that ends takes with it what it had bound (R406). -/
def Obligations.SpdmMessagesAreAnswered : Prop :=
  (∀ (m : Fin 65) (sid : Nat) (s : State), s.mailOpen m = false → exec (.getVersion m sid) s = .next s) ∧
  (∀ (m : Fin 65) (s : State), s.mailOpen m = true →
     let b := s.mailbox m
     let rsp := fun (c : Byte) (ok : Bool) (x : Mailbox) (t : State) => MailDone m x [.spdm m c ok] [] s t
     (∀ sid, sid = 0 → Answers (.getVersion m sid) s (rsp 0x04 true { b with spdm := .versioned, large := 0 })) ∧
     (∀ sid, sid ≠ 0 → Answers (.getVersion m sid) s (rsp 0x7F false b)) ∧
     (b.spdm = .versioned → Answers (.getCapabilities m 0) s (rsp 0x61 true { b with spdm := .capable })) ∧
     (∀ sid, sid ≠ 0 ∨ b.spdm ≠ .versioned → Answers (.getCapabilities m sid) s (rsp 0x7F false b)) ∧
     (b.spdm = .capable →
       Answers (.negotiateAlgorithms m 0 true) s (rsp 0x63 true { b with spdm := .negotiated })) ∧
     (∀ sid supported, sid ≠ 0 ∨ b.spdm ≠ .capable ∨ supported = false →
       Answers (.negotiateAlgorithms m sid supported) s (rsp 0x7F false b)) ∧
     (∀ sid, (sid = 0 ∧ b.spdm = .negotiated) ∨ (sid ≠ 0 ∧ HasSession b sid) →
       (s.lc.certsOk = true → Answers (.getDigests m sid) s (rsp 0x01 true b)) ∧
       (∀ slot : Byte, s.lc.certsOk = true → slot.toNat ≤ 1 →
         Answers (.getCertificate m sid slot) s (rsp 0x02 true b)) ∧
       Answers (.getMeasurements m sid) s
         (fun t => MailDone m b [.spdm m 0x60 true, .measurements m (s.measure (mailHall m))] [] s t) ∧
       (∀ last bytes, 0 < bytes → bytes ≤ 1792 → b.large + bytes ≤ 16777216 →
         Answers (.chunkSend m sid last bytes) s
           (rsp 0x05 true { b with large := if last then 0 else b.large + bytes })) ∧
       Answers (.chunkGet m sid) s (rsp 0x06 true b)) ∧
     (∀ slot : Byte, b.spdm = .negotiated → s.lc.certsOk = true → slot.toNat ≤ 1 →
       Answers (.challenge m 0 slot) s (rsp 0x03 true b)) ∧
     (∀ sid (slot : Byte), s.lc.certsOk = false ∨ 2 ≤ slot.toNat →
       Answers (.getCertificate m sid slot) s (rsp 0x7F false b) ∧ Answers (.challenge m sid slot) s (rsp 0x7F false b))) ∧
  (∀ (m : Fin 65) (sid : Nat) (s : State), s.mailOpen m = true → sid ≠ 0 →
     let b := s.mailbox m
     let rsp := fun (c : Byte) (ok : Bool) (x : Mailbox) (t : State) => MailDone m x [.spdm m c ok] [] s t
     let ended : Mailbox := { b with
       sessions := b.sessions.filter (fun x => x.sid != sid), bound := if b.bound = some sid then none else b.bound,
       gather := if b.gatherOf.1 = sid then [] else b.gather }
     (∀ slot : Byte, b.spdm = .negotiated → s.lc.certsOk = true → slot.toNat ≤ 1 → (∀ x ∈ b.sessions, x.sid ≠ sid) →
       Answers (.keyExchange m sid slot) s
         (rsp 0x64 true { b with sessions := b.sessions ++ [{ sid := sid, established := false, dritha := false }] })) ∧
     (∀ slot : Byte, b.spdm ≠ .negotiated ∨ s.lc.certsOk = false ∨ 2 ≤ slot.toNat →
       Answers (.keyExchange m sid slot) s (rsp 0x7F false b)) ∧
     (∀ x, b.sessions.find? (fun x => x.sid == sid) = some x → x.established = false →
       Answers (.finish m sid true) s
         (rsp 0x65 true { b with
           sessions := b.sessions.map fun y => if y.sid = sid then { y with established := true } else y }) ∧
       Answers (.finish m sid false) s (rsp 0x7F false ended) ∧
       Answers (.heartbeat m sid) s (rsp 0x7F false b)) ∧
     (HasSession b sid →
       Answers (.heartbeat m sid) s (rsp 0x68 true b) ∧ Answers (.keyUpdate m sid) s (rsp 0x69 true b) ∧
       Answers (.endSession m sid) s (rsp 0x6C true ended)) ∧
     Answers (.sessionTimeout m sid) s fun t =>
       t.mailbox m = ended ∧ SameBut State.mailbox m s t ∧ Frame [.mailboxes] s t)

/-- The checks that every Dritha request passes before it has its effect (R405, R407), shown on ADVANCE_EPOCH: its
header, its sender, its place among its fragments. -/
def Obligations.DrithaRequestsAreChecked : Prop :=
  ∀ (m : Fin 65) (d : DReq) (s : State), s.mailOpen m = true → reqCode d = 0x04 →
    (d.sid ≠ 0 → HasSession (s.mailbox m) d.sid →
      let b := (s.mailbox m).noteDritha d.sid
      (reqHdrOk d = false →
        Answers (.advanceEpoch m d) s fun t => MailDone m b (answerOut m 0x04 3 0 []) [] s t) ∧
      (reqHdrOk d = true → ¬Bound m d s →
        Answers (.advanceEpoch m d) s fun t => MailDone m b (answerOut m 0x04 2 0 []) [] s t) ∧
      (reqHdrOk d = true → Bound m d s → reqOffset d = 0 → reqMore d = true → d.payload ≠ [] → d.payload.length ≤ 1024 →
        d.payload.length < reqTotal d →
        Answers (.advanceEpoch m d) s fun t =>
          MailDone m { b with gather := d.payload, gatherOf := (d.sid, 4) } (answerOut m 0x04 0 0 []) [] s t) ∧
      (reqHdrOk d = true → Bound m d s → reqOffset d = 0 → reqMore d = false →
        reqTotal d ≠ d.payload.length ∨ 1024 < d.payload.length →
        Answers (.advanceEpoch m d) s fun t => MailDone m b (answerOut m 0x04 3 0 []) [] s t) ∧
      (reqHdrOk d = true → Bound m d s → reqOffset d = 0 → reqMore d = false → reqTotal d = d.payload.length →
        d.payload ≠ [] → d.payload.length ≤ 1024 →
        Answers (.advanceEpoch m d) s fun t =>
          MailDone m { b with gather := [] } (answerOut m 0x04 3 0 []) [] s t)) ∧
    (d.sid ≠ 0 → ¬HasSession (s.mailbox m) d.sid →
      Answers (.advanceEpoch m d) s fun t => MailDone m (s.mailbox m) [.spdm m 0x7F false] [] s t) ∧
    (d.sid = 0 →
      Answers (.advanceEpoch m d) s fun t =>
        MailDone m (s.mailbox m) (answerOut m 0x04 (if reqHdrOk d then 2 else 3) 0 []) [] s t)

/-- CONTRIBUTE, BIND, SET_TAG_BASE and ADVANCE_EPOCH (R129, R255, R258, R259, R272, R277, R406): what a tenant's
session installs and what stays in force until the next boundary. -/
def Obligations.TenantsBindAndSetTheirHall : Prop :=
  ∀ (m : Fin 65) (d : DReq) (s : State),
    let b := tookRequest (s.mailbox m) d
    (Asked m d 0x01 s → m ≠ 0 → m ≠ 64 → Settled s → s.faults.fatal = false → s.lc.noKeys = false →
      s.vault.epochRoot.isSome = true → .epochRoot ∉ s.vault.rederiving →
      (∀ e ∈ s.vault.slots, e.2.hall = m → e.2.state = .free) → (s.hall m).state = .awaitingTenant → (s.hallKey m).secret = none → d.payload.length = 32 →
      Answers (.contribute m d) s fun t =>
        t.hallKey m = { ({} : HallKey) with
          secret := some (hallSecret (s.vault.epochRoot.getD 0) m (s.hall m).gen d.payload),
          hostKey := some (tenantHostKey (Config.exportSecret m d.sid) m (s.hall m).gen s.vault.epoch) } ∧
        t.hall m = { s.hall m with keysReady := true } ∧ SameBut State.hallKey m s t ∧ SameBut State.hall m s t ∧
        MailDone m { b with bound := some d.sid } (answerOut m 0x01 0 0 []) [.halls, .hallKeys] s t) ∧
    (Asked m d 0x01 s → m ≠ 0 → m ≠ 64 → Settled s → (s.hall m).state = .active →
      Answers (.contribute m d) s fun t =>
        MailDone m ((s.mailbox m).noteDritha d.sid) (answerOut m 0x01 2 0 []) [] s t) ∧
    (∀ macOk, Asked m d 0x02 s → m ≠ 0 → m ≠ 64 → (s.mailbox m).bound ≠ some d.sid →
      (∀ x ∈ (s.mailbox m).sessions, x.sid = d.sid → x.dritha = false) →
      (s.hall m).state = .active ∨ (s.hall m).state = .paused → d.payload.length = 48 →
      (macOk = true → (s.hallKey m).hostKey.isSome = true →
        Answers (.bind m d macOk) s fun t =>
          MailDone m { b with bound := some d.sid } (answerOut m 0x02 0 0 []) [] s t) ∧
      (macOk = false ∨ (s.hallKey m).hostKey = none →
        Answers (.bind m d macOk) s fun t => MailDone m b (answerOut m 0x02 1 1 []) [] s t)) ∧
    (∀ ctx base, Asked m d 0x03 s → Bound m d s ∨ m = 0 ∨ m = 64 → tagBaseOk d.payload = true → leAt d.payload 0 1 = ctx →
      leAt d.payload 8 8 = base →
      Answers (.setTagBase m d) s fun t =>
        t.hallKey (mailHall m) = { s.hallKey (mailHall m) with
          basesReq := (s.hallKey (mailHall m)).basesReq.set 0 (min 16 ctx) (BitVec.ofNat 64 (base + 1)) } ∧
        SameBut State.hallKey (mailHall m) s t ∧ MailDone m b (answerOut m 0x03 0 0 []) [.hallKeys] s t) ∧
    (Asked m d 0x04 s → Bound m d s → d.payload = [] →
      Answers (.advanceEpoch m d) s fun t =>
        t.hallKey m = { s.hallKey m with epochReq := (s.hallKey m).epochReq + 1 } ∧ SameBut State.hallKey m s t ∧
        MailDone m b (answerOut m 0x04 0 0 []) [.hallKeys] s t)

/-- WINDOW_INSTALL, WINDOW_REMOVE and REKEY (R209, R210, R214, R266). The two bytes of an entry number are the model's
choice (log entry 54). -/
def Obligations.TenantsAskForWindowsAndRekeys : Prop :=
  ∀ (m : Fin 65) (d : DReq) (s : State),
    let b := tookRequest (s.mailbox m) d
    let w := parseWindow (BitVec.ofNat 256 (leNat d.payload))
    (Asked m d 0x05 s → Bound m d s → windowImageOk d.payload = true → w.ownerHall = m →
      s.windowsHeld m < (s.rec_ m).winQuota → s.linkUsed w.linkPort = true →
      (w.kind = 1 ∨ (let g := s.seg (128 * m + 8 * w.ownerContext + w.segment)
        g.state = .valid ∧ w.segOffset + w.size * 4096 ≤ g.size * 2 ^ 21 ∧ (w.wr = true → g.wr = true) ∧
          (w.rd = true → g.rd = true))) →
      ∀ n < 4096, (s.win n).state = .invalid → (∀ i < n, (s.win i).state ≠ .invalid) →
        Answers (.windowInstall m d) s fun t =>
          t.win n = { w with state := .valid, gen := nextGen (s.win n).gen } ∧ SameBut State.win n s t ∧
          MailDone m b (answerOut m 0x05 0 0 (leBytes 2 n)) [.windows] s t) ∧
    (Asked m d 0x05 s → Bound m d s → windowImageOk d.payload = true →
      w.ownerHall ≠ m ∨ (s.rec_ m).winQuota ≤ s.windowsHeld m ∨ s.linkUsed w.linkPort = false →
      Answers (.windowInstall m d) s fun t => MailDone m b (answerOut m 0x05 1 0 []) [] s t) ∧
    (∀ n : Fin 4096, Asked m d 0x06 s → Bound m d s → d.payload.length = 2 → leAt d.payload 0 2 = n →
      (s.win n).state = .valid → (s.win n).ownerHall = m →
      Answers (.windowRemove m d) s fun t =>
        t.win n = { s.win n with state := .withdrawing } ∧
        t.xlat.withdrawals = s.xlat.withdrawals ++ [{ ref := .window n, age := 0 }] ∧ SameBut State.win n s t ∧
        MailDone m b (answerOut m 0x06 0 0 []) [.windows, .xlatRest] s t) ∧
    (∀ h c i, Asked m d 0x07 s → Bound m d s ∨ m = 0 ∨ m = 64 → d.payload.length = 3 → leAt d.payload 0 1 = h →
      leAt d.payload 1 1 = c → leAt d.payload 2 1 = i → h < 64 → c < 16 → i < 8 →
      (m ≠ 0 → m ≠ 64 → h ≠ m.val →
        Answers (.rekey m d) s fun t => MailDone m b (answerOut m 0x07 2 0 []) [] s t) ∧
      (h = m.val ∨ m = 0 ∨ m = 64 → (s.seg (segNo h c i)).state = .valid → s.rekeyCheck h c i = 0 → s.derives h = true →
        ∀ ch slot, ch < 16 → (s.channel ch).state = .free → (∀ j < ch, (s.channel j).state ≠ .free) →
        s.freeSlot = some slot → (s.seg (segNo h c i)).keySlot ≠ slot →
        Answers (.rekey m d) s fun t =>
          (t.channel ch).state = .moving ∧ (t.channel ch).seg = segNo h c i ∧ (t.channel ch).target = slot ∧
          (t.slot slot).state = .rekeyTarget ∧ t.vault.resultReason = 0 ∧ t.vault.resultChannel = BitVec.ofNat 4 ch ∧
          MailDone m b (answerOut m 0x07 0 0 [BitVec.ofNat 8 ch]) [.slots, .hallKeys, .vaultRest] s t))

/-- ADMIT, WITHDRAW and GET_DELIVERY_KEY (R278, R308 to R311). How a chip that does not issue the group's key asks for it is the model's
choice (log entry 74). -/
def Obligations.TenantsJoinAndLeaveGroups : Prop :=
  ∀ (m : Fin 65) (d : DReq) (g : Nat) (s : State), Bound m d s → g < 2048 → leAt d.payload 0 2 = g → Settled s →
    let b := tookRequest (s.mailbox m) d
    (∀ sigsOk, Asked m d 0x08 s → s.faults.fatal = false → 8 < d.payload.length → (d.payload.length - 8) % 384 = 0 →
      leAt d.payload 2 6 = 0 →
      (s.admitCheck m g (admRecords d.payload) sigsOk = 0 →
        Answers (.admitTenant m d sigsOk) s fun t =>
          (t.group g).state = .admitting ∧ (t.group g).digest = digestOf (d.payload.drop 8) ∧ (t.group g).admHall = m ∧
          (t.group g).gen = (s.group g).gen ∧ (t.group g).key = none ∧ (t.group g).delivery = none ∧
          ((t.group g).pendingGen.toNat = leAt d.payload 58 2) ∧ SameBut State.group g s t ∧
          (s.issues g = true → t.links = s.links) ∧
          (∀ r x, s.issues g = false → s.groupRec g = some r → (s.membersOf r)[0]? = some x →
            ∃ id, (id, Config.keyRequest g (digestOf (d.payload.drop 8)) s.lc.serial) ∈
              (t.link (s.portTo x.serialLo)).messages) ∧
          MailDone m b (answerOut m 0x08 0 0 []) [.groups, .links] s t) ∧
      (∀ r, s.admitCheck m g (admRecords d.payload) sigsOk = r → r ≠ 0 →
        Answers (.admitTenant m d sigsOk) s fun t => MailDone m b (answerOut m 0x08 1 r []) [] s t)) ∧
    (Asked m d 0x09 s → d.payload.length = 2 → (s.groupRec g).map GroupRec.hall = some m.val →
      Answers (.withdraw m d) s fun t =>
        (t.group g).state = .idle ∧ (t.group g).gen = (s.group g).gen ∧ (t.group g).key = none ∧
        (t.group g).delivery = none ∧ (t.group g).rounding = none ∧ (t.group g).ops = [] ∧
        ((s.group g).ops = [] → SameBut State.group g s t ∧ MailDone m b (answerOut m 0x09 0 0 []) [.groups] s t)) ∧
    (Asked m d 0x0A s → d.payload.length = 2 →
      (∀ k, (s.group g).delivery = some k → (s.group g).admHall = m →
        Answers (.getDeliveryKey m d) s fun t => MailDone m b (answerOut m 0x0A 0 0 (bytesOf k)) [] s t) ∧
      ((s.group g).delivery = none ∨ (s.group g).admHall ≠ m →
        Answers (.getDeliveryKey m d) s fun t => MailDone m b (answerOut m 0x0A 2 0 []) [] s t))

/-- COMMIT_STAGE, COMMIT_ABORT, COMMIT_QUERY (R358, R360, R362, R369, R370) and RESTORE_WRITE into working memory
(R140, R385). -/
def Obligations.OwnersStageAndRestore : Prop :=
  ∀ (m : Fin 65) (d : DReq) (s : State),
    let b := tookRequest (s.mailbox m) d
    let h := mailHall m
    (Bound m d s ∨ m = 0 ∨ m = 64 →
      (∀ g a src, Asked m d 0x0B s → stagedReservedOk d.payload = true → stagedGroup d.payload = some g →
        stagedAction h d.payload src.bytes = some a →
        let c := leAt d.payload 2 1
        let st := s.readStatus h c (leAt d.payload 16 8) (leAt d.payload 6 2) src.status
        let u := if leAt d.payload 0 1 = 5 then s.noteRead h c (leAt d.payload 16 8) (leAt d.payload 6 2) src.status else s
        ((s.cmt h g).state ≠ .closed → s.stageOk h a st src = true → s.stageFits h g a = true →
          Answers (.commitStage m d src) s fun t =>
            t.cmt h g = { s.cmt h g with
              state := if (s.cmt h g).state = .idle then .staging else (s.cmt h g).state,
              staged := (s.cmt h g).staged ++ [a], held := (s.cmt h g).held + a.heldBytes } ∧
            (t.plan.bound = if a.isSwap then some g else s.plan.bound) ∧ t.plan.pending = s.plan.pending ∧
            SameCmtBut h g s t ∧ MailDone m b (answerOut m 0x0B 0 0 []) [.commit, .planRest] u t) ∧
        ((s.cmt h g).state = .closed ∨ s.stageOk h a st src = false ∨ s.stageFits h g a = false →
          Answers (.commitStage m d src) s fun t => MailDone m b (answerOut m 0x0B 1 0 []) [] u t)) ∧
      (∀ g, Asked m d 0x0C s → d.payload.length = 1 → leAt d.payload 0 1 = g → g < 64 →
        ((s.cmt h g).state = .staging ∨ (s.cmt h g).state = .open_ →
          Answers (.commitAbort m d) s fun t =>
            t.cmt h g = { ({} : CmtGroup) with cause := 7 } ∧
            Tab.get 0 t.commit.aborted h = (Tab.get 0 s.commit.aborted h + 1) % 65536 ∧ SameCmtBut h g s t) ∧
        ((s.cmt h g).state = .idle ∨ (s.cmt h g).state = .closed →
          Answers (.commitAbort m d) s fun t => MailDone m b (answerOut m 0x0C 1 0 []) [] s t)) ∧
      (∀ g, Asked m d 0x0D s → d.payload.length = 1 → leAt d.payload 0 1 = g → g < 64 →
        Answers (.commitQuery m d) s fun t =>
          MailDone m b (answerOut m 0x0D 0 0 (leBytes 8 (s.regCmtGroup h g).toNat)) [] s t)) ∧
    (∀ k va, Asked m d 0x0E s → Bound m d s → Settled s → (s.hall m).state = .paused →
      (s.engine restorePort).dmas = [] → (∀ x ∈ s.xlat.migrations, x.hall < 64) →
      restorePayloadOk d.payload = true → leAt d.payload 8 8 = va →
      s.rangeIn m (leAt d.payload 0 1) va (d.payload.length - 18) true = some k → (s.seg k).mode = .wm →
      Answers (.restoreWrite m d) s fun t =>
        (∀ n, n ∈ t.protect.written ↔ n ∈ s.protect.written ∨ ∃ i < d.payload.length - 18,
          n = ((s.seg k).base * 2 ^ 21 + (va - (s.seg k).va) + i) / 4096) ∧
        (∃ more, t.out = s.out ++ more ++ answerOut m 0x0E 0 0 []) ∧ connection (t.mailbox m) = connection b ∧
        SameBut State.mailbox m s t ∧ Frame [.engines, .protect, .mailboxes, .freeCtr, .out] s t)

/-- APPROVE_TRACE, DEBUG_CERT and DEBUG_CLEAR (R410 to R412), GET_HOST_KEY and GET_ID_KEYS (R259, R405, R407). -/
def Obligations.RightsAndKeysAreGranted : Prop :=
  ∀ (m : Fin 65) (d : DReq) (s : State),
    let b := tookRequest (s.mailbox m) d
    (Asked m d 0x0F s → Bound m d s → d.payload.length = 48 →
      (s.lc.certDigest = d.payload → bit s.lc.contentAsked m = true →
        Answers (.approveTrace m d) s fun t =>
          t.lc = { s.lc with contentActive := s.lc.contentActive ||| (1#64 <<< m.val) } ∧
          MailDone m b (answerOut m 0x0F 0 0 []) [.lcRest] s t) ∧
      (s.lc.certDigest ≠ d.payload ∨ bit s.lc.contentAsked m = false →
        Answers (.approveTrace m d) s fun t => MailDone m b (answerOut m 0x0F 1 0 []) [] s t)) ∧
    (∀ k, Asked m d 0x20 s → m = 0 → (s.hallKey 0).hostKey = some k → d.payload = [] →
      Answers (.getHostKey m d) s fun t => MailDone m b (answerOut m 0x20 0 0 (bytesOf k)) [] s t) ∧
    (∀ sigOk, Asked m d 0x23 s → m = 0 ∨ m = 64 → d.payload.length = 256 →
      let c := parseCert d.payload
      (s.lc.certCheck c sigOk = 0 →
        Answers (.debugCert m d sigOk) s fun t =>
          t.lc.rights = BitVec.ofNat 4 c.rights ∧ t.lc.limitLeft = (if c.limit = 0 then 0xFFFFFFFF else c.limit) ∧
          t.lc.contentAsked = c.contentHalls ∧ t.lc.contentActive = 0 ∧ t.lc.certDigest = digestOf d.payload ∧
          t.lc.otpClosed = (s.lc.otpClosed || c.rights.testBit 2) ∧
          (c.rights.testBit 2 = true → t.vault.rootSeed = none ∧ t.vault.identity = none ∧ t.vault.epochRoot = none ∧
            (∀ h, (t.hallKey h).secret = none ∧ (t.hallKey h).hostKey = none) ∧
            (∀ k, (t.slot k).k1 = 0 ∧ (t.slot k).k2 = 0) ∧
            (∀ n, (t.link n).egressKey = none ∧ (t.link n).ingressKey = none) ∧ ∀ g, (t.group g).key = none) ∧
          MailDone m b (answerOut m 0x23 0 0 []) [.lcRest, .slots, .hallKeys, .vaultRest, .links, .groups] s t ∧
          (c.rights.testBit 2 = false → MailDone m b (answerOut m 0x23 0 0 []) [.lcRest] s t)) ∧
      (∀ r, s.lc.certCheck c sigOk = r → r ≠ 0 →
        Answers (.debugCert m d sigOk) s fun t => MailDone m b (answerOut m 0x23 1 r []) [] s t)) ∧
    (Asked m d 0x24 s → m = 0 ∨ m = 64 → d.payload = [] →
      Answers (.debugClear m d) s fun t =>
        t.lc.rights = 0 ∧ t.lc.contentActive = 0 ∧ t.lc.contentAsked = 0 ∧ t.lc.scanOpen = false ∧
        t.lc.otpClosed = s.lc.otpClosed ∧ MailDone m b (answerOut m 0x24 0 0 []) [.lcRest] s t) ∧
    (s.mailOpen m = true → reqCode d = 0x25 → d.sid = 0 → m = 64 → reqHdrOk d = true → reqMore d = false → reqOffset d = 0 →
      reqTotal d = 0 → d.payload = [] →
      (s.lc.state = .provisioned →
        Answers (.getIdKeys m d) s fun t => MailDone m (s.mailbox m) (answerOut m 0x25 0 0 s.idKeys) [] s t) ∧
      (s.lc.state ≠ .provisioned →
        Answers (.getIdKeys m d) s fun t => MailDone m (s.mailbox m) (answerOut m 0x25 2 0 []) [] s t))

/-- LINK_OPEN and LINK_DELIVER (R288 to R290): an establishment out of band through the operator. The OPEN that is asked for
changes nothing on the port until an ANSWER comes; an OPEN that is relayed is answered whatever its generation (log
entry 76). -/
def Obligations.OperatorsEstablishLinks : Prop :=
  ∀ (m : Fin 65) (d : DReq) (n : Fin 20) (s : State), m = 0 ∨ m = 64 → Settled s → .linkIdentityKey ∉ s.vault.rederiving →
    let b := tookRequest (s.mailbox m) d
    (Asked m d 0x21 s → d.payload.length = 1 → leAt d.payload 0 1 = n →
      (s.linkUsed n = true → s.portFenced n = false →
        let gen := nextGen (s.link n).lastGen
        Answers (.linkOpen m d) s fun t =>
          t.link n = { s.link n with offerOut := some (gen, false), offerAge := 0 } ∧ SameBut State.link n s t ∧
          MailDone m b (answerOut m 0x21 0 0 (s.ownOffer n gen 1 0 0 ++ s.lc.linkChain)) [.links] s t) ∧
      (s.linkUsed n = false ∨ s.portFenced n = true →
        Answers (.linkOpen m d) s fun t => MailDone m b (answerOut m 0x21 2 0 []) [] s t)) ∧
    (∀ offer, Asked m d 0x22 s → 224 ≤ d.payload.length → s.linkUsed n = true → s.portFenced n = false →
      let p := parseOffer (d.payload.take 224)
      let keyed (t : State) (keys : BitVec 256 × BitVec 256) (gen : Gen) : Prop :=
        (t.link n).gen = gen ∧ (t.link n).lastGen = gen ∧ (t.link n).peer = p.serial ∧
        (t.link n).egressKey = some keys.1 ∧ (t.link n).ingressKey = some keys.2 ∧ (t.link n).offerOut = none ∧
        (t.link n).oldEgress = none ∧ (t.link n).oldIngress = none ∧
        (∀ v, ((t.link n).chan v).egress = 0 ∧ ((t.link n).chan v).ingress = 0) ∧ SameBut State.link n s t
      (offerOk offer p = true → p.kind = 1 → s.openStands n p = true → OnlyWindowRequests n s → (s.link n).pendingReqs = [] →
        let gen := s.answerGen n p.generation
        Answers (.linkDeliver m d n offer) s fun t =>
          (t.link n).state = .keying ∧ keyed t (s.agreedKeys n gen 2 gen p) gen ∧ (t.link n).reqs = [] ∧
          (∀ r ∈ (s.link n).reqs, ∀ x, s.dma r.port r.tag = some x → x.response r.port .timeoutRemote ∈ t.out) ∧
          (∃ more, t.out = s.out ++ more ++ answerOut m 0x22 0 0 (s.ownOffer n gen 2 p.serial p.port ++ s.lc.linkChain)) ∧
          connection (t.mailbox m) = connection b ∧ (t.mailbox m).done = true ∧ SameBut State.mailbox m s t ∧
          Frame [.engines, .ports, .protect, .xlatRest, .links, .gallery, .mailboxes, .freeCtr, .out] s t) ∧
      (∀ own, offerOk offer p = true → s.answersMine n p false = some own →
        Answers (.linkDeliver m d n offer) s fun t =>
          (t.link n).state = .up ∧ (t.link n).confirmed = true ∧ keyed t (s.agreedKeys n own 1 p.generation p) p.generation ∧
          (t.link n).urgent = [{ hall := noHall, vc := 0, hdr := s.markerHdr false, body := [] }] ∧
          (t.link n).rotations = (s.link n).rotations + 1 ∧ (t.link n).reqs = (s.link n).reqs ∧
          MailDone m b (answerOut m 0x22 0 0 []) [.links] s t) ∧
      (offerOk offer p = false ∨ (p.kind = 1 ∧ s.openStands n p = false) ∨
          (p.kind = 2 ∧ s.answersMine n p false = none) →
        Answers (.linkDeliver m d n offer) s fun t => MailDone m b (answerOut m 0x22 0 0 []) [] s t))

/-- A veiled line opens to the data it was made from, whatever the data (R227, R245), and a key that AES-256 key wrap has
wrapped unwraps under the same key (R261). -/
def Obligations.VeiledLinesAndWrappedKeysOpenAgain : Prop :=
  (∀ (k : Slot) (set n ctr : Nat) (d : Line),
    let x := sealLine k .veiled set n ctr d
    openLine k .veiled set n ctr { data := x.1, sb := x.2, poison := false } = .plain d false) ∧
  (∀ (transport key : BitVec 256), keyUnwrap transport (keyWrap transport key) = some key)

/-- What AES-256-GCM has sealed opens again under the same key and counter, and under no other tag: a link frame (R280, R283),
a chunk's body under the group key (R298, R299), and a host sector with its tag entry at the same address, context, hall
generation and epoch (R273 to R275). -/
def Obligations.SealedTextsOpenAsTheyWereSealed : Prop :=
  (∀ (l : Link) (vc : Fin 8) (key : BitVec 256) (h : BitVec 512) (body : List Byte), l.rxKey vc = some key →
    body.length ≤ 960 → hdrBodyLen h = body.length →
    let x := sealedFrame key vc (l.chan vc).ingress h body
    l.openFrame { vc := vc, payload := x.1, tag := x.2 } = some (h, body) ∧
      ∀ tag, tag ≠ x.2 → l.openFrame { vc := vc, payload := x.1, tag := tag } = none) ∧
  (∀ (key : BitVec 256) (hdr : BitVec 512) (body : List Byte),
    let x := sealChunk key (bits hdr 126 112) (byteField hdr 12 12) (byteField hdr 23 16) hdr body
    openChunk key x.1 x.2 = some body ∧ (bytesOf x.1).take 48 = (bytesOf hdr).take 48) ∧
  (∀ (s : State) (h pasid v : Nat) (key : BitVec 256) (ctr : Word) (data : List Byte), data.length = 512 →
    (s.hallKey h).hostKey = some key →
    let x := sealedSector key ctr (s.aadOf h pasid v hostKeyField) data
    let sector : Sector := { cipher := BitVec.ofNat 4096 (leNat x.1), entry := BitVec.ofNat 256 (leNat x.2) }
    s.openSector h pasid v sector = some data ∧
      ∀ tag : List Byte, tag.length = 16 → tag ≠ x.2.take 16 →
        s.openSector h pasid v { sector with entry := BitVec.ofNat 256 (leNat (tag ++ x.2.drop 16)) } = none)
end

