-- ==== Sys2Proof/Laws/Crypto.lean ====
section
/-! SUPPORT. AES-256, counter mode and the key wrap are undone by their inverses; how many bytes a key wrap has. -/

namespace Sys2Proof.Machine

/-! ### Bytes -/

theorem invSbox_sbox : ∀ b : Byte, invSbox (sbox b) = b := by decide

theorem xor_left (a b c : Byte) : a ^^^ (b ^^^ c) = b ^^^ (a ^^^ c) := by ac_rfl

theorem xor_self_left (a b : Byte) : a ^^^ (a ^^^ b) = b := by rw [← BitVec.xor_assoc, BitVec.xor_self, BitVec.zero_xor]

theorem xtime_xor (a b : Byte) : xtime (a ^^^ b) = xtime a ^^^ xtime b := by
  have h : ∀ x : Byte, xtime x = (x <<< 1) ^^^ (if x.msb then 0x1B#8 else 0#8) := by
    intro x; unfold xtime; split <;> simp
  rw [h, h, h, BitVec.msb_xor, BitVec.shiftLeft_xor_distrib]
  cases a.msb <;> cases b.msb <;> simp [BitVec.xor_assoc, BitVec.xor_comm, xor_left]

theorem aesMul_xor (c : Nat) (a b : Byte) : aesMul c (a ^^^ b) = aesMul c a ^^^ aesMul c b := by
  have e (p : Bool) (x y : Byte) : (if p then x ^^^ y else 0) = (if p then x else 0) ^^^ (if p then y else 0) := by
    cases p <;> simp
  simp only [aesMul, xtime_xor, e]
  ac_rfl

/-! ### The round's steps -/

theorem xorBytes_length (a b : List Byte) : (xorBytes a b).length = min a.length b.length := by simp [xorBytes]

/-- What is added twice is gone. -/
theorem xorBytes_cancel (a k : List Byte) (h : a.length ≤ k.length) : xorBytes (xorBytes a k) k = a := by
  induction a generalizing k with
  | nil => simp [xorBytes]
  | cons x a ih =>
    cases k with
    | nil => simp at h
    | cons y k =>
      have := ih k (by simpa using h)
      simp_all [xorBytes]

theorem shiftRows_length (s : List Byte) : (shiftRows s).length = 16 := by simp [shiftRows]

theorem mixBy_length (row : List Nat) (s : List Byte) : (mixBy row s).length = 16 := by simp [mixBy]

/-- Sixteen bytes, written out. -/
theorem eq_of_length_16 {α : Type} (s : List α) (h : s.length = 16) :
    ∃ a0 a1 a2 a3 a4 a5 a6 a7 a8 a9 a10 a11 a12 a13 a14 a15,
      s = [a0, a1, a2, a3, a4, a5, a6, a7, a8, a9, a10, a11, a12, a13, a14, a15] := by
  match s, h with
  | [a0, a1, a2, a3, a4, a5, a6, a7, a8, a9, a10, a11, a12, a13, a14, a15], _ =>
    exact ⟨a0, a1, a2, a3, a4, a5, a6, a7, a8, a9, a10, a11, a12, a13, a14, a15, rfl⟩

theorem invShiftRows_shiftRows (s : List Byte) (h : s.length = 16) : invShiftRows (shiftRows s) = s := by
  obtain ⟨a0, a1, a2, a3, a4, a5, a6, a7, a8, a9, a10, a11, a12, a13, a14, a15, rfl⟩ := eq_of_length_16 s h
  rfl

/-- The products of the two circulant matrices, coefficient by coefficient. -/
theorem mix_coefficients : ∀ a : Byte,
    aesMul 14 (aesMul 2 a) ^^^ aesMul 11 (aesMul 1 a) ^^^ aesMul 13 (aesMul 1 a) ^^^ aesMul 9 (aesMul 3 a) = a ∧
    aesMul 14 (aesMul 3 a) ^^^ aesMul 11 (aesMul 2 a) ^^^ aesMul 13 (aesMul 1 a) ^^^ aesMul 9 (aesMul 1 a) = 0 ∧
    aesMul 14 (aesMul 1 a) ^^^ aesMul 11 (aesMul 3 a) ^^^ aesMul 13 (aesMul 2 a) ^^^ aesMul 9 (aesMul 1 a) = 0 ∧
    aesMul 14 (aesMul 1 a) ^^^ aesMul 11 (aesMul 1 a) ^^^ aesMul 13 (aesMul 3 a) ^^^ aesMul 9 (aesMul 2 a) = 0 := by decide

/-- The inverse matrix undoes a column. -/
theorem mix_column (a b c d : Byte) :
    aesMul 14 (aesMul 2 a ^^^ aesMul 3 b ^^^ aesMul 1 c ^^^ aesMul 1 d) ^^^
      aesMul 11 (aesMul 1 a ^^^ aesMul 2 b ^^^ aesMul 3 c ^^^ aesMul 1 d) ^^^
      aesMul 13 (aesMul 1 a ^^^ aesMul 1 b ^^^ aesMul 2 c ^^^ aesMul 3 d) ^^^
      aesMul 9 (aesMul 3 a ^^^ aesMul 1 b ^^^ aesMul 1 c ^^^ aesMul 2 d) = a := by
  obtain ⟨ha, -, -, -⟩ := mix_coefficients a
  obtain ⟨-, hb, -, -⟩ := mix_coefficients b
  obtain ⟨-, -, hc, -⟩ := mix_coefficients c
  obtain ⟨-, -, -, hd⟩ := mix_coefficients d
  have e : aesMul 14 (aesMul 2 a ^^^ aesMul 3 b ^^^ aesMul 1 c ^^^ aesMul 1 d) ^^^
      aesMul 11 (aesMul 1 a ^^^ aesMul 2 b ^^^ aesMul 3 c ^^^ aesMul 1 d) ^^^
      aesMul 13 (aesMul 1 a ^^^ aesMul 1 b ^^^ aesMul 2 c ^^^ aesMul 3 d) ^^^
      aesMul 9 (aesMul 3 a ^^^ aesMul 1 b ^^^ aesMul 1 c ^^^ aesMul 2 d) =
      (aesMul 14 (aesMul 2 a) ^^^ aesMul 11 (aesMul 1 a) ^^^ aesMul 13 (aesMul 1 a) ^^^ aesMul 9 (aesMul 3 a)) ^^^
      (aesMul 14 (aesMul 3 b) ^^^ aesMul 11 (aesMul 2 b) ^^^ aesMul 13 (aesMul 1 b) ^^^ aesMul 9 (aesMul 1 b)) ^^^
      (aesMul 14 (aesMul 1 c) ^^^ aesMul 11 (aesMul 3 c) ^^^ aesMul 13 (aesMul 2 c) ^^^ aesMul 9 (aesMul 1 c)) ^^^
      (aesMul 14 (aesMul 1 d) ^^^ aesMul 11 (aesMul 1 d) ^^^ aesMul 13 (aesMul 3 d) ^^^ aesMul 9 (aesMul 2 d)) := by
    simp only [aesMul_xor]
    ac_rfl
  rw [e, ha, hb, hc, hd]
  simp

/-- The inverse matrix undoes a column: the other three bytes. -/
theorem mix_column_1 (a b c d : Byte) :
    aesMul 9 (aesMul 2 a ^^^ aesMul 3 b ^^^ aesMul 1 c ^^^ aesMul 1 d) ^^^
      aesMul 14 (aesMul 1 a ^^^ aesMul 2 b ^^^ aesMul 3 c ^^^ aesMul 1 d) ^^^
      aesMul 11 (aesMul 1 a ^^^ aesMul 1 b ^^^ aesMul 2 c ^^^ aesMul 3 d) ^^^
      aesMul 13 (aesMul 3 a ^^^ aesMul 1 b ^^^ aesMul 1 c ^^^ aesMul 2 d) = b := by
  refine Eq.trans ?_ (mix_column b c d a)
  simp only [aesMul_xor]
  ac_rfl

theorem mix_column_2 (a b c d : Byte) :
    aesMul 13 (aesMul 2 a ^^^ aesMul 3 b ^^^ aesMul 1 c ^^^ aesMul 1 d) ^^^
      aesMul 9 (aesMul 1 a ^^^ aesMul 2 b ^^^ aesMul 3 c ^^^ aesMul 1 d) ^^^
      aesMul 14 (aesMul 1 a ^^^ aesMul 1 b ^^^ aesMul 2 c ^^^ aesMul 3 d) ^^^
      aesMul 11 (aesMul 3 a ^^^ aesMul 1 b ^^^ aesMul 1 c ^^^ aesMul 2 d) = c := by
  refine Eq.trans ?_ (mix_column c d a b)
  simp only [aesMul_xor]
  ac_rfl

theorem mix_column_3 (a b c d : Byte) :
    aesMul 11 (aesMul 2 a ^^^ aesMul 3 b ^^^ aesMul 1 c ^^^ aesMul 1 d) ^^^
      aesMul 13 (aesMul 1 a ^^^ aesMul 2 b ^^^ aesMul 3 c ^^^ aesMul 1 d) ^^^
      aesMul 9 (aesMul 1 a ^^^ aesMul 1 b ^^^ aesMul 2 c ^^^ aesMul 3 d) ^^^
      aesMul 14 (aesMul 3 a ^^^ aesMul 1 b ^^^ aesMul 1 c ^^^ aesMul 2 d) = d := by
  refine Eq.trans ?_ (mix_column d a b c)
  simp only [aesMul_xor]
  ac_rfl

theorem zero_xor_byte (a : Byte) : 0 ^^^ a = a := by simp

theorem invMixColumns_mixColumns (s : List Byte) (h : s.length = 16) : invMixColumns (mixColumns s) = s := by
  obtain ⟨a0, a1, a2, a3, a4, a5, a6, a7, a8, a9, a10, a11, a12, a13, a14, a15, rfl⟩ := eq_of_length_16 s h
  simp only [invMixColumns, mixColumns, mixBy, List.range_succ, List.range_zero, List.map_cons,
    List.map_nil, List.nil_append, List.cons_append, List.foldl_cons, List.foldl_nil,
    List.getD_cons_zero, List.getD_cons_succ, Nat.reduceMod, Nat.reduceAdd, Nat.reduceSub, Nat.reduceDiv, Nat.reduceMul,
    zero_xor_byte, mix_column, mix_column_1, mix_column_2, mix_column_3]

/-! ### The key schedule -/

/-- A list of words of four bytes each. -/
def FourByteWords (w : List (List Byte)) : Prop := ∀ x ∈ w, x.length = 4

theorem nextWords_spec (rc : Byte) (w : List (List Byte)) (hw : w.length = 8) (h : FourByteWords w) :
    (nextWords rc w).length = 8 ∧ FourByteWords (nextWords rc w) := by
  match w, hw with
  | [w0, w1, w2, w3, w4, w5, w6, w7], _ =>
    simp only [FourByteWords, List.mem_cons, forall_eq_or_imp, List.not_mem_nil, false_implies, implies_true, and_true] at h
    obtain ⟨h0, h1, h2, h3, h4, h5, h6, h7⟩ := h
    simp [nextWords, FourByteWords, xorBytes_length, h0, h1, h2, h3, h4, h5, h6, h7]

theorem scheduleFrom_spec (n : Nat) (rc : Byte) (w : List (List Byte)) (hw : w.length = 8) (h : FourByteWords w) :
    (scheduleFrom n rc w).length = 8 * (n + 1) ∧ FourByteWords (scheduleFrom n rc w) := by
  induction n generalizing rc w with
  | zero => exact ⟨by simpa [scheduleFrom] using hw, by simpa [scheduleFrom] using h⟩
  | succ n ih =>
    obtain ⟨hl, hf⟩ := nextWords_spec rc w hw h
    obtain ⟨il, ie⟩ := ih (xtime rc) (nextWords rc w) hl hf
    refine ⟨by simp [scheduleFrom, hw, il]; omega, fun x hx => ?_⟩
    rcases List.mem_append.1 (by simpa [scheduleFrom] using hx) with hx | hx
    · exact h x hx
    · exact ie x hx

theorem leBytes_length (n v : Nat) : (leBytes n v).length = n := by
  induction n generalizing v with
  | zero => rfl
  | succ n ih => simp [leBytes, ih]

theorem roundKeys_length (key : BitVec 256) : (roundKeys key).length = 15 := by simp [roundKeys]

/-- Every round key has sixteen bytes. -/
theorem roundKey_length (key : BitVec 256) (k : List Byte) (h : k ∈ roundKeys key) : k.length = 16 := by
  obtain ⟨r, hr, rfl⟩ := List.mem_map.1 h
  have hr := List.mem_range.1 hr
  have hs := scheduleFrom_spec 7 1 ((List.range 8).map fun i => slice (bytesOf key) (4 * i) 4) (by simp) (by
    intro x hx
    obtain ⟨i, hi, rfl⟩ := List.mem_map.1 hx
    have hi := List.mem_range.1 hi
    simp [slice, bytesOf, leBytes_length]; omega)
  generalize hw : scheduleFrom 7 1 _ = w at hs
  obtain ⟨hl, hf⟩ := hs
  have hm : ∀ x ∈ (w.drop (4 * r)).take 4, x.length = 4 := fun x hx => hf x (List.mem_of_mem_drop (List.mem_of_mem_take hx))
  have hn : ((w.drop (4 * r)).take 4).length = 4 := by simp [hl]; omega
  rw [roundKeys.slice', List.length_flatten]
  rw [List.map_congr_left hm, List.map_const', hn]
  rfl

/-! ### The cipher -/

theorem aesRound_length (s k : List Byte) (hk : k.length = 16) : (aesRound s k).length = 16 := by
  simp [aesRound, xorBytes_length, mixColumns, mixBy_length, hk]

theorem aesUnround_aesRound (s k : List Byte) (hs : s.length = 16) (hk : k.length = 16) :
    aesUnround (aesRound s k) k = s := by
  rw [aesUnround, aesRound, xorBytes_cancel _ _ (by simp [mixColumns, mixBy_length, hk]),
    invMixColumns_mixColumns _ (shiftRows_length _), invShiftRows_shiftRows _ (by simpa using hs), List.map_map]
  exact (List.map_congr_left fun b _ => invSbox_sbox b).trans (List.map_id s)

theorem foldl_aesRound_length (ks : List (List Byte)) (s : List Byte) (hs : s.length = 16) (h : ∀ k ∈ ks, k.length = 16) :
    (ks.foldl aesRound s).length = 16 := by
  induction ks generalizing s with
  | nil => exact hs
  | cons k ks ih =>
    exact ih _ (aesRound_length s k (h k (List.mem_cons_self ..))) fun x hx => h x (List.mem_cons_of_mem _ hx)

theorem foldl_aesUnround (ks : List (List Byte)) (s : List Byte) (hs : s.length = 16) (h : ∀ k ∈ ks, k.length = 16) :
    ks.reverse.foldl aesUnround (ks.foldl aesRound s) = s := by
  induction ks generalizing s with
  | nil => rfl
  | cons k ks ih =>
    have hk := h k (List.mem_cons_self ..)
    rw [List.reverse_cons, List.foldl_append, List.foldl_cons (l := ks),
      ih _ (aesRound_length s k hk) fun x hx => h x (List.mem_cons_of_mem _ hx)]
    exact aesUnround_aesRound s k hs hk

theorem aesBytes_length (key : BitVec 256) (s : List Byte) : (aesBytes key s).length = 16 := by
  have h := roundKey_length key ((roundKeys key).getD 14 []) (by
    simp [List.getD_eq_getElem?_getD, roundKeys_length])
  simp only [aesBytes, xorBytes_length, shiftRows_length, h, Nat.min_self]

/-- The inverse cipher undoes the cipher on a block. -/
theorem aesInvBytes_aesBytes (key : BitVec 256) (s : List Byte) (hs : s.length = 16) :
    aesInvBytes key (aesBytes key s) = s := by
  have hg (i : Nat) (hi : i < 15) : ((roundKeys key).getD i []).length = 16 :=
    roundKey_length key _ (by simp [List.getD_eq_getElem?_getD, roundKeys_length, hi])
  have hm : ∀ k ∈ ((roundKeys key).drop 1).take 13, k.length = 16 := fun k hk =>
    roundKey_length key k (List.mem_of_mem_drop (List.mem_of_mem_take hk))
  have h0 : (xorBytes s ((roundKeys key).getD 0 [])).length = 16 := by
    rw [xorBytes_length, hs, hg 0 (by omega), Nat.min_self]
  have ha := foldl_aesRound_length _ _ h0 hm
  simp only [aesInvBytes, aesBytes, aesAfter]
  rw [xorBytes_cancel _ _ (by rw [shiftRows_length, hg 14 (by omega)]), invShiftRows_shiftRows _ (by simpa using ha),
    List.map_map, (List.map_congr_left fun b _ => invSbox_sbox b : List.map (invSbox ∘ sbox) _ = List.map id _),
    List.map_id, foldl_aesUnround _ _ h0 hm, xorBytes_cancel _ _ (by rw [hs, hg 0 (by omega)])]

theorem leNat_lt (l : List Byte) : leNat l < 256 ^ l.length := by
  induction l with
  | nil => simp [leNat]
  | cons b l ih =>
    simp only [leNat, List.length_cons, Nat.pow_succ]
    have := b.isLt
    omega

theorem leBytes_leNat (l : List Byte) : leBytes l.length (leNat l) = l := by
  induction l with
  | nil => rfl
  | cons b l ih =>
    have hb := b.isLt
    rw [leNat, List.length_cons, leBytes]
    congr 1
    · apply BitVec.eq_of_toNat_eq
      simp only [BitVec.toNat_ofNat]
      omega
    · rw [show (b.toNat + 256 * leNat l) / 256 = leNat l by omega]
      exact ih

theorem leNat_leBytes (n v : Nat) : leNat (leBytes n v) = v % 256 ^ n := by
  induction n generalizing v with
  | zero => simp [leBytes, leNat, Nat.mod_one]
  | succ n ih =>
    rw [leBytes, leNat, ih, BitVec.toNat_ofNat, Nat.pow_succ 256 n, Nat.mul_comm (256 ^ n) 256, Nat.mod_mul]

/-- A bit vector of whole bytes is its bytes. -/
theorem ofNat_leNat_bytesOf {w : Nat} (x : BitVec w) (h : 8 ∣ w) : BitVec.ofNat w (leNat (bytesOf x)) = x := by
  obtain ⟨n, rfl⟩ := h
  apply BitVec.eq_of_toNat_eq
  rw [bytesOf, leNat_leBytes, BitVec.toNat_ofNat, Nat.mul_div_cancel_left n (by omega), show (256 : Nat) = 2 ^ 8 from rfl,
    ← Nat.pow_mul, Nat.mod_mod, Nat.mod_eq_of_lt x.isLt]

/-- Bytes as a bit vector are those bytes. -/
theorem bytesOf_ofNat_leNat {w : Nat} (l : List Byte) (h : w = 8 * l.length) : bytesOf (BitVec.ofNat w (leNat l)) = l := by
  subst h
  have hl := leNat_lt l
  rw [bytesOf, BitVec.toNat_ofNat, Nat.mod_eq_of_lt, Nat.mul_div_cancel_left _ (by omega), leBytes_leNat]
  rwa [Nat.pow_mul]

/-- The inverse cipher undoes the cipher on a block as a bit vector. -/
theorem aes256Inv_aes256 (key : BitVec 256) (x : BitVec 128) : aes256Inv key (aes256 key x) = x := by
  simp only [aes256Inv, aes256, blockOfBytes]
  rw [bytesOf_ofNat_leNat _ (by rw [aesBytes_length]), aesInvBytes_aesBytes _ (bytesOf x) (leBytes_length 16 _),
    ofNat_leNat_bytesOf _ (by decide)]

/-! ### Counter mode and GCM -/

theorem gcmStream_length (key : BitVec 256) (iv : List Byte) (n : Nat) : (gcmStream key iv n).length = n := by
  simp only [gcmStream, List.length_take, List.length_flatMap, aesBytes_length, List.map_const', List.length_range,
    List.sum_replicate, smul_eq_mul, ceilDiv]
  omega

theorem gcmCtr_length (key : BitVec 256) (iv text : List Byte) : (gcmCtr key iv text).length = text.length := by
  rw [gcmCtr, xorBytes_length, gcmStream_length, Nat.min_self]

/-- Counter mode is its own inverse. -/
theorem gcmCtr_gcmCtr (key : BitVec 256) (iv text : List Byte) : gcmCtr key iv (gcmCtr key iv text) = text := by
  conv_lhs => rw [gcmCtr, gcmCtr_length]
  rw [gcmCtr, xorBytes_cancel _ _ (by rw [gcmStream_length])]

/-- What GCM has sealed, it opens. -/
theorem gcmOpen_gcmSeal (key : BitVec 256) (iv aad text : List Byte) :
    gcmOpen key iv aad (gcmSeal key iv aad text).1 (gcmSeal key iv aad text).2 = some text := by
  simp [gcmOpen, gcmSeal, gcmCtr_gcmCtr]

/-- Under any other tag nothing opens. -/
theorem gcmOpen_eq_none (key : BitVec 256) (iv aad cipher tag : List Byte) (h : tag ≠ gcmTag key iv aad cipher) :
    gcmOpen key iv aad cipher tag = none := by
  simp [gcmOpen, h.symm]

/-! ### The key wrap -/

/-- The state of a key wrap: the integrity register and four semiblocks, of eight bytes each. -/
def Semiblocks (a : List Byte × List (List Byte)) : Prop := a.1.length = 8 ∧ a.2.length = 4 ∧ ∀ x ∈ a.2, x.length = 8

theorem kwStep_semiblocks (key : BitVec 256) (a : List Byte × List (List Byte)) (t i : Nat) (h : Semiblocks a) :
    Semiblocks (kwStep key a t i) := by
  obtain ⟨-, h2, h3⟩ := h
  have hb := aesBytes_length key (a.1 ++ a.2.getD i [])
  rw [kwStep]
  generalize aesBytes key (a.1 ++ a.2.getD i []) = b at hb
  refine ⟨by simp [xorBytes_length, beBytes, leBytes_length, hb], by simp [h2], fun x hx => ?_⟩
  rcases List.mem_or_eq_of_mem_set hx with hx | rfl
  · exact h3 x hx
  · simp [hb]

theorem kwStart_semiblocks (k : BitVec 256) :
    Semiblocks (List.replicate 8 0xA6, (List.range 4).map fun i => slice (bytesOf k) (8 * i) 8) := by
  refine ⟨by simp, by simp, fun x hx => ?_⟩
  obtain ⟨i, hi, rfl⟩ := List.mem_map.1 hx
  have := List.mem_range.1 hi
  simp [slice, bytesOf, leBytes_length]
  omega

theorem kwSteps_semiblocks (key : BitVec 256) (l : List Nat) (a : List Byte × List (List Byte)) (h : Semiblocks a) :
    Semiblocks (l.foldl (fun a n => kwStep key a (n + 1) (n % 4)) a) := by
  induction l generalizing a with
  | nil => exact h
  | cons n l ih => rw [List.foldl_cons]; exact ih _ (kwStep_semiblocks key a (n + 1) (n % 4) h)

theorem keyWrap_length (key k : BitVec 256) : (keyWrap key k).length = 40 := by
  obtain ⟨h1, h2, h3⟩ := kwSteps_semiblocks key (List.range 24) _ (kwStart_semiblocks k)
  have : ∀ (l : List (List Byte)), (∀ x ∈ l, x.length = 8) → l.flatten.length = 8 * l.length := by
    intro l hl
    induction l with
    | nil => rfl
    | cons x l ih =>
      rw [List.flatten_cons, List.length_append, hl x (by simp), ih fun y hy => hl y (by simp [hy]), List.length_cons]
      omega
  rw [keyWrap]
  rw [List.length_append, h1, this _ h3, h2]

theorem kwUnstep_kwStep (key : BitVec 256) (a : List Byte × List (List Byte)) (t i : Nat) (h : Semiblocks a) (hi : i < 4) :
    kwUnstep key (kwStep key a t i) t i = a := by
  obtain ⟨x, l⟩ := a
  obtain ⟨h1, h2, h3⟩ := h
  simp only at h1 h2 h3
  have hd : (l.getD i []).length = 8 := by
    rw [List.getD_eq_getElem _ _ (by omega : i < l.length)]; exact h3 _ (List.getElem_mem _)
  have hb := aesInvBytes_aesBytes key (x ++ l.getD i []) (by rw [List.length_append, h1, hd])
  have hn := aesBytes_length key (x ++ l.getD i [])
  simp only [kwStep, kwUnstep]
  generalize aesBytes key (x ++ l.getD i []) = b at hb hn
  rw [xorBytes_cancel _ _ (by simp [hn, beBytes, leBytes_length])]
  have : (l.set i (b.drop 8)).getD i [] = b.drop 8 := by
    rw [List.getD_eq_getElem _ _ (by simp; omega)]; simp
  rw [this, List.take_append_drop, hb]
  refine Prod.ext (by simp [← h1]) ?_
  simp only [List.set_set]
  rw [← h1, List.drop_left, List.getD_eq_getElem _ _ (by omega : i < l.length)]
  exact List.set_getElem_self _

theorem kwUnsteps_kwSteps (key : BitVec 256) (l : List Nat) (a : List Byte × List (List Byte)) (h : Semiblocks a) :
    l.reverse.foldl (fun a n => kwUnstep key a (n + 1) (n % 4)) (l.foldl (fun a n => kwStep key a (n + 1) (n % 4)) a) = a := by
  induction l generalizing a with
  | nil => rfl
  | cons n l ih =>
    simp only [List.foldl_cons, List.reverse_cons, List.foldl_append, List.foldl_nil]
    rw [ih _ (kwStep_semiblocks key a (n + 1) (n % 4) h), kwUnstep_kwStep key a _ _ h (Nat.mod_lt _ (by omega))]

/-- The five slices of what the wrap sends are its integrity register and its semiblocks. -/
theorem semiblocks_slices (a : List Byte × List (List Byte)) (h : Semiblocks a) :
    ((a.1 ++ a.2.flatten).take 8, (List.range 4).map fun i => slice (a.1 ++ a.2.flatten) (8 * (i + 1)) 8) = a := by
  obtain ⟨x, l⟩ := a
  obtain ⟨h1, h2, h3⟩ := h
  match l, h2, h3 with
  | [p, q, r, s], _, h3 =>
    have hp := h3 p (by simp); have hq := h3 q (by simp); have hr := h3 r (by simp); have hs := h3 s (by simp)
    simp only at h1
    refine Prod.ext (by simp [← h1]) ?_
    simp [slice, List.range_succ, List.drop_append, List.take_append, h1, hp, hq, hr, hs, List.drop_eq_nil_of_le]

/-- A wrapped key unwraps to itself under the same key. -/
theorem keyUnwrap_keyWrap (key k : BitVec 256) : keyUnwrap key (keyWrap key k) = some k := by
  have h0 := kwStart_semiblocks k
  simp only [keyUnwrap, keyWrap, semiblocks_slices _ (kwSteps_semiblocks key (List.range 24) _ h0),
    kwUnsteps_kwSteps key (List.range 24) _ h0, if_true]
  have : ((List.range 4).map fun i => slice (bytesOf k) (8 * i) 8).flatten = bytesOf k := by
    have hl : (bytesOf k).length = 32 := by simp [bytesOf, leBytes_length]
    generalize bytesOf k = b at hl
    simp [slice, List.range_succ]
    have e (n : Nat) : b.drop n = (b.drop n).take 8 ++ b.drop (n + 8) := by
      rw [← List.drop_drop, List.take_append_drop]
    conv_rhs => rw [← List.drop_zero (l := b), e 0, e 8, e 16, e 24]
    simp [List.drop_eq_nil_of_le, hl]
  rw [this, ofNat_leNat_bytesOf k (by decide)]
end Sys2Proof.Machine
end

