-- ==== Sys2Proof/Laws/Frame.lean ====
section
/-! SUPPORT. The laws of `Frame`: it is a preorder, it weakens to a larger list, each part outside the list reads as it
did, and an update of one field keeps every other. -/

namespace Sys2Proof.Safety
open Sys2Proof.Machine

theorem Frame.refl {l : List Part} (s : State) : Frame l s s := rfl
theorem Frame.trans {l : List Part} {s t u : State} (a : Frame l s t) (b : Frame l t u) : Frame l s u := Eq.trans b a
theorem ite_mem_mono {α : Type} {l m : List Part} (h : l ⊆ m) (p : Part) (d x : α) :
    (if p ∈ m then d else if p ∈ l then d else x) = if p ∈ m then d else x := by
  by_cases k : p ∈ m
  · simp [k]
  · have n : p ∉ l := fun j => k (h j)
    simp [k, n]

theorem without_mono {l m : List Part} (h : l ⊆ m) (s : State) : without m (without l s) = without m s := by
  have k (p : Part) (j : p ∉ m) : p ∉ l := fun i => j (h i)
  simp only [without, ite_mem_mono h, State.mk.injEq, and_true, true_and]
  refine ⟨?_, ?_, ?_, ?_, ?_, ?_⟩
  · by_cases a : Part.timerRest ∈ m <;> simp [a, k]
  · by_cases a : Part.planRest ∈ m <;> simp [a, k]
  · by_cases a : Part.xlatRest ∈ m <;> simp [a, k]
  · by_cases a : Part.vaultRest ∈ m <;> simp [a, k]
  · by_cases a : Part.faultsRest ∈ m <;> simp [a, k]
  · by_cases a : Part.lcRest ∈ m <;> simp [a, k]

theorem Frame.mono {l m : List Part} {s t : State} (a : Frame l s t) (h : l ⊆ m) : Frame m s t := by
  rw [Frame, ← without_mono h t, a, without_mono h s]


theorem Frame.core {l : List Part} {s t : State} (a : Frame l s t) (n : .core ∉ l) : t.core = s.core := by
  have := congrArg (fun u : State => u.core) a
  simpa [without, n] using this

theorem Frame.strideNum {l : List Part} {s t : State} (a : Frame l s t) (n : .strideNum ∉ l) : t.timer.strideNum = s.timer.strideNum := by
  have := congrArg (fun u : State => u.timer.strideNum) a
  simpa [without, n] using this

theorem Frame.planActive {l : List Part} {s t : State} (a : Frame l s t) (n : .planActive ∉ l) : t.plan.active = s.plan.active := by
  have := congrArg (fun u : State => u.plan.active) a
  simpa [without, n] using this

theorem Frame.halls {l : List Part} {s t : State} (a : Frame l s t) (n : .halls ∉ l) : t.halls = s.halls := by
  have := congrArg (fun u : State => u.halls) a
  simpa [without, n] using this

theorem Frame.funcs {l : List Part} {s t : State} (a : Frame l s t) (n : .funcs ∉ l) : t.funcs = s.funcs := by
  have := congrArg (fun u : State => u.funcs) a
  simpa [without, n] using this

theorem Frame.queues {l : List Part} {s t : State} (a : Frame l s t) (n : .queues ∉ l) : t.queues = s.queues := by
  have := congrArg (fun u : State => u.queues) a
  simpa [without, n] using this

theorem Frame.fences {l : List Part} {s t : State} (a : Frame l s t) (n : .fences ∉ l) : t.fences = s.fences := by
  have := congrArg (fun u : State => u.fences) a
  simpa [without, n] using this

theorem Frame.contexts {l : List Part} {s t : State} (a : Frame l s t) (n : .contexts ∉ l) : t.contexts = s.contexts := by
  have := congrArg (fun u : State => u.contexts) a
  simpa [without, n] using this

theorem Frame.pools {l : List Part} {s t : State} (a : Frame l s t) (n : .pools ∉ l) : t.pools = s.pools := by
  have := congrArg (fun u : State => u.pools) a
  simpa [without, n] using this

theorem Frame.deadlines {l : List Part} {s t : State} (a : Frame l s t) (n : .deadlines ∉ l) : t.deadlines = s.deadlines := by
  have := congrArg (fun u : State => u.deadlines) a
  simpa [without, n] using this

theorem Frame.engines {l : List Part} {s t : State} (a : Frame l s t) (n : .engines ∉ l) : t.engines = s.engines := by
  have := congrArg (fun u : State => u.engines) a
  simpa [without, n] using this

theorem Frame.ports {l : List Part} {s t : State} (a : Frame l s t) (n : .ports ∉ l) : t.ports = s.ports := by
  have := congrArg (fun u : State => u.ports) a
  simpa [without, n] using this

theorem Frame.protect {l : List Part} {s t : State} (a : Frame l s t) (n : .protect ∉ l) : t.protect = s.protect := by
  have := congrArg (fun u : State => u.protect) a
  simpa [without, n] using this

theorem Frame.segs {l : List Part} {s t : State} (a : Frame l s t) (n : .segs ∉ l) : t.xlat.segs = s.xlat.segs := by
  have := congrArg (fun u : State => u.xlat.segs) a
  simpa [without, n] using this

theorem Frame.windows {l : List Part} {s t : State} (a : Frame l s t) (n : .windows ∉ l) : t.xlat.windows = s.xlat.windows := by
  have := congrArg (fun u : State => u.xlat.windows) a
  simpa [without, n] using this

theorem Frame.slots {l : List Part} {s t : State} (a : Frame l s t) (n : .slots ∉ l) : t.vault.slots = s.vault.slots := by
  have := congrArg (fun u : State => u.vault.slots) a
  simpa [without, n] using this

theorem Frame.hallKeys {l : List Part} {s t : State} (a : Frame l s t) (n : .hallKeys ∉ l) : t.vault.halls = s.vault.halls := by
  have := congrArg (fun u : State => u.vault.halls) a
  simpa [without, n] using this

theorem Frame.links {l : List Part} {s t : State} (a : Frame l s t) (n : .links ∉ l) : t.links = s.links := by
  have := congrArg (fun u : State => u.links) a
  simpa [without, n] using this

theorem Frame.groups {l : List Part} {s t : State} (a : Frame l s t) (n : .groups ∉ l) : t.groups = s.groups := by
  have := congrArg (fun u : State => u.groups) a
  simpa [without, n] using this

theorem Frame.reduce {l : List Part} {s t : State} (a : Frame l s t) (n : .reduce ∉ l) : t.reduce = s.reduce := by
  have := congrArg (fun u : State => u.reduce) a
  simpa [without, n] using this

theorem Frame.commit {l : List Part} {s t : State} (a : Frame l s t) (n : .commit ∉ l) : t.commit = s.commit := by
  have := congrArg (fun u : State => u.commit) a
  simpa [without, n] using this

theorem Frame.units {l : List Part} {s t : State} (a : Frame l s t) (n : .units ∉ l) : t.faults.units = s.faults.units := by
  have := congrArg (fun u : State => u.faults.units) a
  simpa [without, n] using this

theorem Frame.mp {l : List Part} {s t : State} (a : Frame l s t) (n : .mp ∉ l) : t.lc.mp = s.lc.mp := by
  have := congrArg (fun u : State => u.lc.mp) a
  simpa [without, n] using this

theorem Frame.otp {l : List Part} {s t : State} (a : Frame l s t) (n : .otp ∉ l) : t.lc.otp = s.lc.otp := by
  have := congrArg (fun u : State => u.lc.otp) a
  simpa [without, n] using this

theorem Frame.mailboxes {l : List Part} {s t : State} (a : Frame l s t) (n : .mailboxes ∉ l) : t.mailboxes = s.mailboxes := by
  have := congrArg (fun u : State => u.mailboxes) a
  simpa [without, n] using this

theorem Frame.mgmtMsgs {l : List Part} {s t : State} (a : Frame l s t) (n : .mgmtMsgs ∉ l) : t.mgmtMsgs = s.mgmtMsgs := by
  have := congrArg (fun u : State => u.mgmtMsgs) a
  simpa [without, n] using this

theorem Frame.gallery {l : List Part} {s t : State} (a : Frame l s t) (n : .gallery ∉ l) : t.gallery = s.gallery := by
  have := congrArg (fun u : State => u.gallery) a
  simpa [without, n] using this

theorem Frame.out {l : List Part} {s t : State} (a : Frame l s t) (n : .out ∉ l) : t.out = s.out := by
  have := congrArg (fun u : State => u.out) a
  simpa [without, n] using this

theorem Frame.freeCtr {l : List Part} {s t : State} (a : Frame l s t) (n : .freeCtr ∉ l) : t.freeCtr = s.freeCtr := by
  have := congrArg (fun u : State => u.freeCtr) a
  simpa [without, n] using this

theorem Frame.pending {l : List Part} {s t : State} (a : Frame l s t) (n : .pending ∉ l) : t.pending = s.pending := by
  have := congrArg (fun u : State => u.pending) a
  simpa [without, n] using this

/-- The whole block is as it was. -/
theorem Frame.timer {l : List Part} {s t : State} (a : Frame l s t) (n : .timerRest ∉ l) (k : .strideNum ∉ l) : t.timer = s.timer := by
  have e (u : State) : (without l u).timer = u.timer := by simp [without, n, k]
  exact (e t).symm.trans ((congrArg State.timer a).trans (e s))

/-- The whole block is as it was. -/
theorem Frame.plan {l : List Part} {s t : State} (a : Frame l s t) (n : .planRest ∉ l) (k : .planActive ∉ l) : t.plan = s.plan := by
  have e (u : State) : (without l u).plan = u.plan := by simp [without, n, k]
  exact (e t).symm.trans ((congrArg State.plan a).trans (e s))

/-- The whole block is as it was. -/
theorem Frame.faults {l : List Part} {s t : State} (a : Frame l s t) (n : .faultsRest ∉ l) (k : .units ∉ l) : t.faults = s.faults := by
  have e (u : State) : (without l u).faults = u.faults := by simp [without, n, k]
  exact (e t).symm.trans ((congrArg State.faults a).trans (e s))

/-- The whole block is as it was. -/
theorem Frame.xlat {l : List Part} {s t : State} (a : Frame l s t) (n : .xlatRest ∉ l) (k : .segs ∉ l) (j : .windows ∉ l) :
    t.xlat = s.xlat := by
  have e (u : State) : (without l u).xlat = u.xlat := by simp [without, n, k, j]
  exact (e t).symm.trans ((congrArg State.xlat a).trans (e s))

/-- The whole block is as it was. -/
theorem Frame.vault {l : List Part} {s t : State} (a : Frame l s t) (n : .vaultRest ∉ l) (k : .slots ∉ l) (j : .hallKeys ∉ l) :
    t.vault = s.vault := by
  have e (u : State) : (without l u).vault = u.vault := by simp [without, n, k, j]
  exact (e t).symm.trans ((congrArg State.vault a).trans (e s))

/-- The whole block is as it was. -/
theorem Frame.lc {l : List Part} {s t : State} (a : Frame l s t) (n : .lcRest ∉ l) (k : .mp ∉ l) (j : .otp ∉ l) :
    t.lc = s.lc := by
  have e (u : State) : (without l u).lc = u.lc := by simp [without, n, k, j]
  exact (e t).symm.trans ((congrArg State.lc a).trans (e s))

section
variable {l : List Part} (t : State)
@[simp] theorem without_core (x) (h : .core ∈ l) : without l { t with core := x } = without l t := by simp [without, h]
@[simp] theorem without_halls (x) (h : .halls ∈ l) : without l { t with halls := x } = without l t := by simp [without, h]
@[simp] theorem without_funcs (x) (h : .funcs ∈ l) : without l { t with funcs := x } = without l t := by simp [without, h]
@[simp] theorem without_queues (x) (h : .queues ∈ l) : without l { t with queues := x } = without l t := by simp [without, h]
@[simp] theorem without_fences (x) (h : .fences ∈ l) : without l { t with fences := x } = without l t := by simp [without, h]
@[simp] theorem without_contexts (x) (h : .contexts ∈ l) : without l { t with contexts := x } = without l t := by
  simp [without, h]
@[simp] theorem without_pools (x) (h : .pools ∈ l) : without l { t with pools := x } = without l t := by simp [without, h]
@[simp] theorem without_deadlines (x) (h : .deadlines ∈ l) : without l { t with deadlines := x } = without l t := by
  simp [without, h]
@[simp] theorem without_engines (x) (h : .engines ∈ l) : without l { t with engines := x } = without l t := by
  simp [without, h]
@[simp] theorem without_ports (x) (h : .ports ∈ l) : without l { t with ports := x } = without l t := by simp [without, h]
@[simp] theorem without_protect (x) (h : .protect ∈ l) : without l { t with protect := x } = without l t := by
  simp [without, h]
@[simp] theorem without_links (x) (h : .links ∈ l) : without l { t with links := x } = without l t := by simp [without, h]
@[simp] theorem without_groups (x) (h : .groups ∈ l) : without l { t with groups := x } = without l t := by
  simp [without, h]
@[simp] theorem without_reduce (x) (h : .reduce ∈ l) : without l { t with reduce := x } = without l t := by
  simp [without, h]
@[simp] theorem without_commit (x) (h : .commit ∈ l) : without l { t with commit := x } = without l t := by
  simp [without, h]
@[simp] theorem without_mailboxes (x) (h : .mailboxes ∈ l) : without l { t with mailboxes := x } = without l t := by
  simp [without, h]
@[simp] theorem without_mgmtMsgs (x) (h : .mgmtMsgs ∈ l) : without l { t with mgmtMsgs := x } = without l t := by
  simp [without, h]
@[simp] theorem without_gallery (x) (h : .gallery ∈ l) : without l { t with gallery := x } = without l t := by
  simp [without, h]
@[simp] theorem without_out (x) (h : .out ∈ l) : without l { t with out := x } = without l t := by simp [without, h]
@[simp] theorem without_freeCtr (x) (h : .freeCtr ∈ l) : without l { t with freeCtr := x } = without l t := by
  simp [without, h]
@[simp] theorem without_timer (x) (h : .timerRest ∈ l) (k : x.strideNum = t.timer.strideNum) :
    without l { t with timer := x } = without l t := by simp [without, h, k]
@[simp] theorem without_plan (x) (h : .planRest ∈ l) (k : x.active = t.plan.active) :
    without l { t with plan := x } = without l t := by simp [without, h, k]
@[simp] theorem without_segs (x) (h : .segs ∈ l) :
    without l { t with xlat := { t.xlat with segs := x } } = without l t := by
  by_cases k : Part.xlatRest ∈ l <;> simp [without, h, k]
@[simp] theorem without_windows (x) (h : .windows ∈ l) :
    without l { t with xlat := { t.xlat with windows := x } } = without l t := by
  by_cases k : Part.xlatRest ∈ l <;> simp [without, h, k]
@[simp] theorem without_slots (x) (h : .slots ∈ l) :
    without l { t with vault := { t.vault with slots := x } } = without l t := by
  by_cases k : Part.vaultRest ∈ l <;> simp [without, h, k]
@[simp] theorem without_hallKeys (x) (h : .hallKeys ∈ l) :
    without l { t with vault := { t.vault with halls := x } } = without l t := by
  by_cases k : Part.vaultRest ∈ l <;> simp [without, h, k]
@[simp] theorem without_units (x) (h : .units ∈ l) :
    without l { t with faults := { t.faults with units := x } } = without l t := by
  by_cases k : Part.faultsRest ∈ l <;> simp [without, h, k]
@[simp] theorem without_xlat (x) (h : .xlatRest ∈ l) (k : x.segs = t.xlat.segs) (k' : x.windows = t.xlat.windows) :
    without l { t with xlat := x } = without l t := by simp [without, h, k, k']
@[simp] theorem without_vault (x) (h : .vaultRest ∈ l) (k : x.slots = t.vault.slots) (k' : x.halls = t.vault.halls) :
    without l { t with vault := x } = without l t := by simp [without, h, k, k']
@[simp] theorem without_faults (x) (h : .faultsRest ∈ l) (k : x.units = t.faults.units) :
    without l { t with faults := x } = without l t := by simp [without, h, k]
@[simp] theorem without_otp (x) (h : .otp ∈ l) :
    without l { t with lc := { t.lc with otp := x } } = without l t := by
  by_cases k : Part.lcRest ∈ l <;> simp [without, h, k]
@[simp] theorem without_lc (x) (h : .lcRest ∈ l) (k : x.mp = t.lc.mp) (k' : x.otp = t.lc.otp) :
    without l { t with lc := x } = without l t := by simp [without, h, k, k']
end
end Sys2Proof.Safety

namespace Sys2Proof.Machine
open Sys2Proof.Safety

@[simp] theorem Faults.latch_units (f : Faults) (c) : (f.latch c).units = f.units := by unfold Faults.latch; split <;> rfl
@[simp] theorem Faults.enter_units (f : Faults) (e) : (f.enter e).units = f.units := by
  unfold Faults.enter; (repeat' split) <;> rfl

@[simp] theorem without_ite {P : List Part} (c : Prop) [Decidable c] (a b : State) :
    without P (if c then a else b) = if c then without P a else without P b := by split <;> rfl
@[simp] theorem forAll_frame {P : List Part} (n : Nat) (f : Nat → State → State) (s : State)
    (h : ∀ k t, without P (f k t) = without P t) : Frame P s (forAll n f s) := by
  unfold forAll
  generalize List.range n = x
  induction x generalizing s with
  | nil => exact Frame.refl s
  | cons x _ ih => exact Frame.trans (h x s) (ih _)
@[simp] theorem forEach_frame {α : Type} {P : List Part} (x : List α) (f : α → State → State) (s : State)
    (h : ∀ k t, without P (f k t) = without P t) : Frame P s (forEach x f s) := by
  unfold forEach
  induction x generalizing s with
  | nil => exact Frame.refl s
  | cons x _ ih => exact Frame.trans (h x s) (ih _)

@[simp] theorem LifeCycle.endRights_mp (l : LifeCycle) : l.endRights.mp = l.mp := by simp [LifeCycle.endRights]
@[simp] theorem LifeCycle.endRights_otp (l : LifeCycle) : l.endRights.otp = l.otp := by simp [LifeCycle.endRights]
@[simp] theorem LifeCycle.countStride_mp (l : LifeCycle) : l.countStride.mp = l.mp := by
  unfold LifeCycle.countStride; split <;> rfl
@[simp] theorem LifeCycle.countStride_otp (l : LifeCycle) : l.countStride.otp = l.otp := by
  unfold LifeCycle.countStride; split <;> rfl
@[simp] theorem PlanUnit.report_active (p : PlanUnit) (f) : (p.report f).active = p.active := by simp [PlanUnit.report]
@[simp] theorem PlanUnit.drop_active (p : PlanUnit) (f) : (p.drop f).active = p.active := by simp [PlanUnit.drop]
@[simp] theorem Timer.accept_strideNum (t : Timer) (d c) : (t.accept d c).strideNum = t.strideNum := by
  simp [Timer.accept]

end Sys2Proof.Machine
end

