-- ==== Sys2Proof/Laws/FrameBase.lean ====
section
/-! SUPPORT. What the operations of the shared operations and the command processor can change: one lemma per
    operation, which names the parts of the state that it can write; every other part is as it was. -/

namespace Sys2Proof.Machine

open Sys2Proof.Safety

@[simp] theorem State.modHall_frame {P : List Part} (hl : [.halls] ⊆ P) (s : State) (h) (f) : Frame P s (State.modHall
    s h f) := by
  simp only [List.cons_subset, List.nil_subset, and_true] at hl
  dsimp only [Frame, State.modHall]
  simp [hl]

@[simp] theorem State.countHall_frame {P : List Part} (hl : [.halls] ⊆ P) (s : State) (h) (f) : Frame P s
    (State.countHall s h f) := by
  simp only [List.cons_subset, List.nil_subset, and_true] at hl
  dsimp only [Frame, State.countHall]
  simp [hl]

@[simp] theorem State.countInvocation_frame {P : List Part} (hl : [.halls] ⊆ P) (s : State) (h) (hdr) : Frame P s
    (State.countInvocation s h hdr) := by
  simp only [List.cons_subset, List.nil_subset, and_true] at hl
  dsimp only [Frame, State.countInvocation]
  simp [hl]

@[simp] theorem State.modQueue_frame {P : List Part} (hl : [.queues] ⊆ P) (s : State) (h) (q) (f) : Frame P s
    (State.modQueue s h q f) := by
  simp only [List.cons_subset, List.nil_subset, and_true] at hl
  dsimp only [Frame, State.modQueue]
  simp [hl]

@[simp] theorem State.noteStatus_frame {P : List Part} (hl : [.halls, .queues] ⊆ P) (s : State) (h) (q) (st) : Frame P
    s (State.noteStatus s h q st) := by
  simp only [List.cons_subset, List.nil_subset, and_true] at hl
  dsimp only [Frame, State.noteStatus]
  simp [hl]

@[simp] theorem State.addWrite_frame {P : List Part} (hl : [.xlatRest] ⊆ P) (s : State) (w) : Frame P s
    (State.addWrite s w) := by
  simp only [List.cons_subset, List.nil_subset, and_true] at hl
  dsimp only [Frame, State.addWrite]
  simp [hl]

@[simp] theorem State.writeRecord_frame {P : List Part} (hl : [.queues, .xlatRest] ⊆ P) (s : State) (h) (q) (hdr) (x)
    : Frame P s (State.writeRecord s h q hdr x) := by
  simp only [List.cons_subset, List.nil_subset, and_true] at hl
  dsimp only [Frame, State.writeRecord]
  simp [hl]

@[simp] theorem State.complete_frame {P : List Part} (hl : [.halls, .queues, .xlatRest] ⊆ P) (s : State) (h) (q) (hdr)
    (x) : Frame P s (State.complete s h q hdr x) := by
  simp only [List.cons_subset, List.nil_subset, and_true] at hl
  dsimp only [Frame, State.complete]
  simp [hl]

@[simp] theorem State.completeWith_frame {P : List Part} (hl : [.halls, .queues, .xlatRest] ⊆ P) (s : State) (h) (q)
    (hdr) (st) : Frame P s (State.completeWith s h q hdr st) := by
  simp only [List.cons_subset, List.nil_subset, and_true] at hl
  dsimp only [Frame, State.completeWith]
  simp [hl]

@[simp] theorem abortAction_frame {P : List Part} (hl : [.halls, .queues, .xlatRest] ⊆ P) (s : State) (h) (q) (a) :
    Frame P s (abortAction h q a s) := by
  simp only [List.cons_subset, List.nil_subset, and_true] at hl
  unfold abortAction
  dsimp only [Frame]
  (repeat' split) <;> simp [hl]

@[simp] theorem State.cancelPending_frame {P : List Part} (hl : [.planRest] ⊆ P) (s : State) : Frame P s
    (State.cancelPending s) := by
  simp only [List.cons_subset, List.nil_subset, and_true] at hl
  dsimp only [Frame, State.cancelPending]
  simp [hl]

@[simp] theorem State.abortOpener_frame {P : List Part} (hl : [.halls, .queues, .xlatRest] ⊆ P) (s : State) (h) (g)
    (c) : Frame P s (State.abortOpener s h g c) := by
  simp only [List.cons_subset, List.nil_subset, and_true] at hl
  unfold State.abortOpener
  dsimp only [Frame]
  (repeat' split) <;> simp [hl]

@[simp] theorem State.modCmt_frame {P : List Part} (hl : [.commit] ⊆ P) (s : State) (h) (g) (f) : Frame P s
    (State.modCmt s h g f) := by
  simp only [List.cons_subset, List.nil_subset, and_true] at hl
  dsimp only [Frame, State.modCmt]
  simp [hl]

@[simp] theorem State.abortGroup_frame {P : List Part} (hl : [.planRest, .halls, .queues, .xlatRest, .commit] ⊆ P) (s
    : State) (h) (g) (cause) : Frame P s (State.abortGroup s h g cause) := by
  simp only [List.cons_subset, List.nil_subset, and_true] at hl
  dsimp only [Frame, State.abortGroup]
  simp [hl]

@[simp] theorem State.abortOpen_frame {P : List Part} (hl : [.planRest, .halls, .queues, .xlatRest, .commit] ⊆ P) (s :
    State) (h) (q) (cause) : Frame P s (State.abortOpen s h q cause) := by
  simp only [List.cons_subset, List.nil_subset, and_true] at hl
  unfold State.abortOpen
  dsimp only [Frame]
  (repeat' split) <;> simp [hl]

@[simp] theorem State.leaveBuffer_frame {P : List Part} (hl : [.planRest, .halls, .queues, .xlatRest, .commit] ⊆ P) (s
    : State) (h) (q) : Frame P s (State.leaveBuffer s h q) := by
  simp only [List.cons_subset, List.nil_subset, and_true] at hl
  dsimp only [Frame, State.leaveBuffer]
  simp [hl]

@[simp] theorem State.noteFirst_frame {P : List Part} (hl : [.queues] ⊆ P) (s : State) (h) (q) (st) : Frame P s
    (State.noteFirst s h q st) := by
  simp only [List.cons_subset, List.nil_subset, and_true] at hl
  dsimp only [Frame, State.noteFirst]
  simp [hl]

@[simp] theorem State.noteRefused_frame {P : List Part} (hl : [.queues] ⊆ P) (s : State) (h) (q) : Frame P s
    (State.noteRefused s h q) := by
  simp only [List.cons_subset, List.nil_subset, and_true] at hl
  dsimp only [Frame, State.noteRefused]
  simp [hl]

@[simp] theorem State.endBuffer_frame {P : List Part} (hl : [.planRest, .halls, .queues, .xlatRest, .commit] ⊆ P) (s :
    State) (h) (q) (b) : Frame P s (State.endBuffer s h q b) := by
  simp only [List.cons_subset, List.nil_subset, and_true] at hl
  dsimp only [Frame, State.endBuffer]
  simp [hl]

@[simp] theorem State.nextCommand_frame {P : List Part} (hl : [.planRest, .halls, .queues, .xlatRest, .commit] ⊆ P) (s
    : State) (h) (q) (n) : Frame P s (State.nextCommand s h q n) := by
  simp only [List.cons_subset, List.nil_subset, and_true] at hl
  unfold State.nextCommand
  dsimp only [Frame]
  (repeat' split) <;> simp [hl]

@[simp] theorem State.commandDone_frame {P : List Part} (hl : [.planRest, .halls, .queues, .xlatRest, .commit] ⊆ P) (s
    : State) (h) (q) (hdr) : Frame P s (State.commandDone s h q hdr) := by
  simp only [List.cons_subset, List.nil_subset, and_true] at hl
  dsimp only [Frame, State.commandDone]
  simp [hl]

@[simp] theorem State.abandon_frame {P : List Part} (hl : [.planRest, .halls, .queues, .xlatRest, .commit] ⊆ P) (s :
    State) (h) (q) (hdr) (st) : Frame P s (State.abandon s h q hdr st) := by
  simp only [List.cons_subset, List.nil_subset, and_true] at hl
  dsimp only [Frame, State.abandon]
  simp [hl]

@[simp] theorem State.refuseInGroup_frame {P : List Part} (hl : [.planRest, .halls, .queues, .xlatRest, .commit] ⊆ P)
    (s : State) (h) (q) (hdr) : Frame P s (State.refuseInGroup s h q hdr) := by
  simp only [List.cons_subset, List.nil_subset, and_true] at hl
  dsimp only [Frame, State.refuseInGroup]
  simp [hl]

@[simp] theorem State.dropGrants_frame {P : List Part} (hl : [.engines] ⊆ P) (s : State) (h) (q) (seq) : Frame P s
    (State.dropGrants s h q seq) := by
  simp only [List.cons_subset, List.nil_subset, and_true] at hl
  dsimp only [Frame, State.dropGrants]
  simp [hl]

@[simp] theorem State.modDeadline_frame {P : List Part} (hl : [.deadlines] ⊆ P) (s : State) (h) (f) : Frame P s
    (State.modDeadline s h f) := by
  simp only [List.cons_subset, List.nil_subset, and_true] at hl
  dsimp only [Frame, State.modDeadline]
  simp [hl]

@[simp] theorem State.startWatch_frame {P : List Part} (hl : [.deadlines] ⊆ P) (s : State) (h) (q) (seq) : Frame P s
    (State.startWatch s h q seq) := by
  simp only [List.cons_subset, List.nil_subset, and_true] at hl
  dsimp only [Frame, State.startWatch]
  simp [hl]

@[simp] theorem State.endWatch_frame {P : List Part} (hl : [.deadlines] ⊆ P) (s : State) (h) (count) : Frame P s
    (State.endWatch s h count) := by
  simp only [List.cons_subset, List.nil_subset, and_true] at hl
  dsimp only [Frame, State.endWatch]
  simp [hl]

@[simp] theorem State.watchInvocation_frame {P : List Part} (hl : [.deadlines] ⊆ P) (s : State) (h) (q) (v) : Frame P
    s (State.watchInvocation s h q v) := by
  simp only [List.cons_subset, List.nil_subset, and_true] at hl
  dsimp only [Frame, State.watchInvocation]
  simp [hl]

@[simp] theorem State.startInvocation_frame {P : List Part} (hl : [.queues, .deadlines] ⊆ P) (s : State) (h) (q) (v) :
    Frame P s (State.startInvocation s h q v) := by
  simp only [List.cons_subset, List.nil_subset, and_true] at hl
  dsimp only [Frame, State.startInvocation]
  simp [hl]

@[simp] theorem State.acceptInvocation_frame {P : List Part} (hl : [.queues, .deadlines] ⊆ P) (s : State) (h) (q) (v)
    : Frame P s (State.acceptInvocation s h q v) := by
  simp only [List.cons_subset, List.nil_subset, and_true] at hl
  dsimp only [Frame, State.acceptInvocation]
  simp [hl]

@[simp] theorem State.startBacklog_frame {P : List Part} (hl : [.queues, .deadlines] ⊆ P) (s : State) (h) (q) : Frame
    P s (State.startBacklog s h q) := by
  simp only [List.cons_subset, List.nil_subset, and_true] at hl
  unfold State.startBacklog
  dsimp only [Frame]
  (repeat' split) <;> simp [hl]

@[simp] theorem State.releaseWatch_frame {P : List Part} (hl : [.queues, .deadlines] ⊆ P) (s : State) (h) : Frame P s
    (State.releaseWatch s h) := by
  simp only [List.cons_subset, List.nil_subset, and_true] at hl
  unfold State.releaseWatch
  dsimp only [Frame]
  (repeat' split) <;> simp [hl]

@[simp] theorem State.afterInvocation_frame {P : List Part} (hl : [.planRest, .halls, .queues, .deadlines, .xlatRest,
    .commit] ⊆ P) (s : State) (h) (q) : Frame P s (State.afterInvocation s h q) := by
  simp only [List.cons_subset, List.nil_subset, and_true] at hl
  dsimp only [Frame, State.afterInvocation]
  simp [hl]

@[simp] theorem State.modCtx_frame {P : List Part} (hl : [.contexts] ⊆ P) (s : State) (h) (c) (f) : Frame P s
    (State.modCtx s h c f) := by
  simp only [List.cons_subset, List.nil_subset, and_true] at hl
  dsimp only [Frame, State.modCtx]
  simp [hl]

@[simp] theorem State.contextSettled_frame {P : List Part} (hl : [.contexts] ⊆ P) (s : State) (h) (c) : Frame P s
    (State.contextSettled s h c) := by
  simp only [List.cons_subset, List.nil_subset, and_true] at hl
  dsimp only [Frame, State.contextSettled]
  simp [hl]

@[simp] theorem State.finishInvocation_frame {P : List Part} (hl : [.planRest, .halls, .queues, .contexts, .deadlines,
    .engines, .xlatRest, .commit] ⊆ P) (s : State) (h) (q) (st) : Frame P s (State.finishInvocation s h q st) := by
  simp only [List.cons_subset, List.nil_subset, and_true] at hl
  unfold State.finishInvocation
  dsimp only [Frame]
  (repeat' split) <;> simp [hl]

@[simp] theorem State.settleOne_frame {P : List Part} (hl : [.planRest, .halls, .queues, .contexts, .deadlines,
    .engines, .xlatRest, .commit] ⊆ P) (s : State) (h) (q) : Frame P s (State.settleOne s h q) := by
  simp only [List.cons_subset, List.nil_subset, and_true] at hl
  unfold State.settleOne
  dsimp only [Frame]
  (repeat' split) <;> simp [hl]

@[simp] theorem State.settle_frame {P : List Part} (hl : [.planRest, .halls, .queues, .contexts, .deadlines, .engines,
    .xlatRest, .commit] ⊆ P) (s : State) (h) (q) : Frame P s (State.settle s h q) := by
  simp only [List.cons_subset, List.nil_subset, and_true] at hl
  dsimp only [Frame, State.settle]
  simp [hl]

@[simp] theorem State.stopStarts_frame {P : List Part} (hl : [.queues, .engines] ⊆ P) (s : State) (h) (q) (v) : Frame
    P s (State.stopStarts s h q v) := by
  simp only [List.cons_subset, List.nil_subset, and_true] at hl
  dsimp only [Frame, State.stopStarts]
  simp [hl]

@[simp] theorem State.tileResult_frame {P : List Part} (hl : [.planRest, .halls, .queues, .contexts, .deadlines,
    .engines, .xlatRest, .commit] ⊆ P) (s : State) (p) (e) (st) (offset) : Frame P s (State.tileResult s p e st
    offset) := by
  simp only [List.cons_subset, List.nil_subset, and_true] at hl
  unfold State.tileResult
  dsimp only [Frame]
  (repeat' split) <;> simp [hl]

@[simp] theorem State.ungrantEntry_frame {P : List Part} (hl : [.queues] ⊆ P) (s : State) (e) : Frame P s
    (State.ungrantEntry s e) := by
  simp only [List.cons_subset, List.nil_subset, and_true] at hl
  unfold State.ungrantEntry
  dsimp only [Frame]
  (repeat' split) <;> simp [hl]

@[simp] theorem State.endInProgress_frame {P : List Part} (hl : [.halls, .queues, .deadlines, .engines, .xlatRest] ⊆
    P) (s : State) (h) (q) (st) : Frame P s (State.endInProgress s h q st) := by
  simp only [List.cons_subset, List.nil_subset, and_true] at hl
  unfold State.endInProgress
  dsimp only [Frame]
  (repeat' split) <;> simp [hl]

@[simp] theorem State.endMigration_frame {P : List Part} (hl : [.halls, .queues, .xlatRest] ⊆ P) (s : State) (h) (q)
    (st) : Frame P s (State.endMigration s h q st) := by
  simp only [List.cons_subset, List.nil_subset, and_true] at hl
  unfold State.endMigration
  dsimp only [Frame]
  (repeat' split) <;> simp [hl]

@[simp] theorem State.abortQueueGroups_frame {P : List Part} (hl : [.planRest, .halls, .queues, .xlatRest, .commit] ⊆
    P) (s : State) (h) (q) : Frame P s (State.abortQueueGroups s h q) := by
  simp only [List.cons_subset, List.nil_subset, and_true] at hl
  dsimp only [Frame, State.abortQueueGroups]
  simp [hl]

@[simp] theorem State.stopQueue_frame {P : List Part} (hl : [.planRest, .halls, .queues, .deadlines, .engines,
    .xlatRest, .commit] ⊆ P) (s : State) (h) (q) (st) : Frame P s (State.stopQueue s h q st) := by
  simp only [List.cons_subset, List.nil_subset, and_true] at hl
  dsimp only [Frame, State.stopQueue]
  simp [hl]

@[simp] theorem State.modGroup_frame {P : List Part} (hl : [.groups] ⊆ P) (s : State) (g) (f) : Frame P s
    (State.modGroup s g f) := by
  simp only [List.cons_subset, List.nil_subset, and_true] at hl
  dsimp only [Frame, State.modGroup]
  simp [hl]

@[simp] theorem State.modLink_frame {P : List Part} (hl : [.links] ⊆ P) (s : State) (n) (f) : Frame P s (State.modLink
    s n f) := by
  simp only [List.cons_subset, List.nil_subset, and_true] at hl
  dsimp only [Frame, State.modLink]
  simp [hl]

@[simp] theorem State.coreWrite_frame {P : List Part} (hl : [.xlatRest] ⊆ P) (s : State) (p) (h) (c) (va) (bytes) :
    Frame P s (State.coreWrite s p h c va bytes) := by
  simp only [List.cons_subset, List.nil_subset, and_true] at hl
  dsimp only [Frame, State.coreWrite]
  simp [hl]

@[simp] theorem State.setFence_frame {P : List Part} (hl : [.queues, .fences] ⊆ P) (s : State) (h) (n) (v) : Frame P s
    (State.setFence s h n v) := by
  simp only [List.cons_subset, List.nil_subset, and_true] at hl
  unfold State.setFence
  dsimp only [Frame]
  (repeat' split) <;> simp [hl, without]

@[simp] theorem State.emit_frame {P : List Part} (hl : [.out] ⊆ P) (s : State) (o) : Frame P s (State.emit s o) := by
  simp only [List.cons_subset, List.nil_subset, and_true] at hl
  dsimp only [Frame, State.emit]
  simp [hl]

@[simp] theorem State.raise_frame {P : List Part} (hl : [.faultsRest, .out] ⊆ P) (s : State) (code) (i) : Frame P s
    (State.raise s code i) := by
  simp only [List.cons_subset, List.nil_subset, and_true] at hl
  dsimp only [Frame, State.raise]
  simp [hl]

@[simp] theorem State.violation_frame {P : List Part} (hl : [.faultsRest, .out] ⊆ P) (s : State) (h) (object) : Frame
    P s (State.violation s h object) := by
  simp only [List.cons_subset, List.nil_subset, and_true] at hl
  dsimp only [Frame, State.violation]
  simp [hl]

@[simp] theorem State.touchHtc_frame {P : List Part} (hl : [.xlatRest] ⊆ P) (s : State) (e) : Frame P s
    (State.touchHtc s e) := by
  simp only [List.cons_subset, List.nil_subset, and_true] at hl
  dsimp only [Frame, State.touchHtc]
  simp [hl]

@[simp] theorem State.readPage_frame {P : List Part} (hl : [.halls, .xlatRest] ⊆ P) (s : State) (h) (c) (va) (len) :
    Frame P s (State.readPage s h c va len) := by
  simp only [List.cons_subset, List.nil_subset, and_true] at hl
  unfold State.readPage
  dsimp only [Frame]
  (repeat' split) <;> simp [hl]

@[simp] theorem State.hostTagFail_frame {P : List Part} (hl : [.faultsRest, .out] ⊆ P) (s : State) (h) : Frame P s
    (State.hostTagFail s h) := by
  simp only [List.cons_subset, List.nil_subset, and_true] at hl
  dsimp only [Frame, State.hostTagFail]
  simp [hl]

@[simp] theorem State.noteRead_frame {P : List Part} (hl : [.halls, .xlatRest, .faultsRest, .out] ⊆ P) (s : State) (h)
    (c) (va) (len) (answer) : Frame P s (State.noteRead s h c va len answer) := by
  simp only [List.cons_subset, List.nil_subset, and_true] at hl
  dsimp only [Frame, State.noteRead]
  simp [hl]

@[simp] theorem State.modEngine_frame {P : List Part} (hl : [.engines] ⊆ P) (s : State) (p) (f) : Frame P s
    (State.modEngine s p f) := by
  simp only [List.cons_subset, List.nil_subset, and_true] at hl
  dsimp only [Frame, State.modEngine]
  simp [hl]

@[simp] theorem State.modSlot_frame {P : List Part} (hl : [.slots] ⊆ P) (s : State) (k) (f) : Frame P s (State.modSlot
    s k f) := by
  simp only [List.cons_subset, List.nil_subset, and_true] at hl
  dsimp only [Frame, State.modSlot]
  simp [hl]

@[simp] theorem State.deliver_frame {P : List Part} (hl : [.xlatRest, .out] ⊆ P) (s : State) (p) (d) (st) : Frame P s
    (State.deliver s p d st) := by
  simp only [List.cons_subset, List.nil_subset, and_true] at hl
  dsimp only [Frame, State.deliver]
  simp [hl]

@[simp] theorem State.respond_frame {P : List Part} (hl : [.engines, .xlatRest, .out] ⊆ P) (s : State) (p) (d) (st) :
    Frame P s (State.respond s p d st) := by
  simp only [List.cons_subset, List.nil_subset, and_true] at hl
  dsimp only [Frame, State.respond]
  simp [hl]

@[simp] theorem State.respondNow_frame {P : List Part} (hl : [.engines, .xlatRest, .out] ⊆ P) (s : State) (p) (tag) :
    Frame P s (State.respondNow s p tag) := by
  simp only [List.cons_subset, List.nil_subset, and_true] at hl
  unfold State.respondNow
  dsimp only [Frame]
  (repeat' split) <;> simp [hl]

@[simp] theorem State.modDma_frame {P : List Part} (hl : [.engines] ⊆ P) (s : State) (p) (tag) (f) : Frame P s
    (State.modDma s p tag f) := by
  simp only [List.cons_subset, List.nil_subset, and_true] at hl
  dsimp only [Frame, State.modDma]
  simp [hl]

@[simp] theorem State.modMemPort_frame {P : List Part} (hl : [.ports] ⊆ P) (s : State) (m) (f) : Frame P s
    (State.modMemPort s m f) := by
  simp only [List.cons_subset, List.nil_subset, and_true] at hl
  dsimp only [Frame, State.modMemPort]
  simp [hl]

@[simp] theorem State.modChannel_frame {P : List Part} (hl : [.vaultRest] ⊆ P) (s : State) (c) (f) : Frame P s
    (State.modChannel s c f) := by
  simp only [List.cons_subset, List.nil_subset, and_true] at hl
  dsimp only [Frame, State.modChannel]
  simp [hl]

@[simp] theorem State.modUnit_frame {P : List Part} (hl : [.units] ⊆ P) (s : State) (u) (f) : Frame P s (State.modUnit
    s u f) := by
  simp only [List.cons_subset, List.nil_subset, and_true] at hl
  dsimp only [Frame, State.modUnit]
  simp [hl]

@[simp] theorem State.noteChange_frame {P : List Part} (hl : [.faultsRest] ⊆ P) (s : State) (u) : Frame P s
    (State.noteChange s u) := by
  simp only [List.cons_subset, List.nil_subset, and_true] at hl
  dsimp only [Frame, State.noteChange]
  simp [hl]

@[simp] theorem State.modSeg_frame {P : List Part} (hl : [.segs] ⊆ P) (s : State) (k) (f) : Frame P s (State.modSeg s
    k f) := by
  simp only [List.cons_subset, List.nil_subset, and_true] at hl
  dsimp only [Frame, State.modSeg]
  simp [hl]

@[simp] theorem State.modHallKey_frame {P : List Part} (hl : [.hallKeys] ⊆ P) (s : State) (h) (f) : Frame P s
    (State.modHallKey s h f) := by
  simp only [List.cons_subset, List.nil_subset, and_true] at hl
  dsimp only [Frame, State.modHallKey]
  simp [hl]

@[simp] theorem State.modFunc_frame {P : List Part} (hl : [.funcs] ⊆ P) (s : State) (f) (g) : Frame P s (State.modFunc
    s f g) := by
  simp only [List.cons_subset, List.nil_subset, and_true] at hl
  dsimp only [Frame, State.modFunc]
  simp [hl]

@[simp] theorem State.modMailbox_frame {P : List Part} (hl : [.mailboxes] ⊆ P) (s : State) (m) (f) : Frame P s
    (State.modMailbox s m f) := by
  simp only [List.cons_subset, List.nil_subset, and_true] at hl
  dsimp only [Frame, State.modMailbox]
  simp [hl]

@[simp] theorem State.restored_frame {P : List Part} (hl : [.halls] ⊆ P) (s : State) (h) (o) : Frame P s
    (State.restored s h o) := by
  simp only [List.cons_subset, List.nil_subset, and_true] at hl
  dsimp only [Frame, State.restored]
  simp [hl]

@[simp] theorem State.pauseCause_frame {P : List Part} (hl : [.halls] ⊆ P) (s : State) (h) (o) : Frame P s
    (State.pauseCause s h o) := by
  simp only [List.cons_subset, List.nil_subset, and_true] at hl
  unfold State.pauseCause
  dsimp only [Frame]
  (repeat' split) <;> simp [hl]

@[simp] theorem State.sramUeHall_frame {P : List Part} (hl : [.halls, .faultsRest, .out] ⊆ P) (s : State) (h) (object)
    (o) : Frame P s (State.sramUeHall s h object o) := by
  simp only [List.cons_subset, List.nil_subset, and_true] at hl
  dsimp only [Frame, State.sramUeHall]
  simp [hl]

@[simp] theorem State.forget_frame {P : List Part} (hl : [.ports, .protect, .xlatRest, .links] ⊆ P) (s : State) (p)
    (tag) : Frame P s (State.forget s p tag) := by
  simp only [List.cons_subset, List.nil_subset, and_true] at hl
  simp [hl, Frame, without, State.forget]

@[simp] theorem State.cut_frame {P : List Part} (hl : [.engines, .ports, .protect, .xlatRest, .links, .out] ⊆ P) (s :
    State) (p) (st) (d) : Frame P s (State.cut s p st d) := by
  simp only [List.cons_subset, List.nil_subset, and_true] at hl
  dsimp only [Frame, State.cut]
  simp [hl]

@[simp] theorem State.cutWhere_frame {P : List Part} (hl : [.engines, .ports, .protect, .xlatRest, .links, .out] ⊆ P)
    (s : State) (p) (st) (test) : Frame P s (State.cutWhere s p st test) := by
  simp only [List.cons_subset, List.nil_subset, and_true] at hl
  dsimp only [Frame, State.cutWhere]
  simp [hl]

@[simp] theorem State.retirePorts_frame {P : List Part} (hl : [.engines, .ports, .protect, .xlatRest, .links, .out] ⊆
    P) (s : State) (test) : Frame P s (State.retirePorts s test) := by
  simp only [List.cons_subset, List.nil_subset, and_true] at hl
  dsimp only [Frame, State.retirePorts]
  simp [hl]

@[simp] theorem State.tearInvocation_frame {P : List Part} (hl : [.planRest, .halls, .queues, .contexts, .deadlines,
    .engines, .xlatRest, .commit] ⊆ P) (s : State) (h) (q) (offender) : Frame P s (State.tearInvocation s h q
    offender) := by
  simp only [List.cons_subset, List.nil_subset, and_true] at hl
  unfold State.tearInvocation
  dsimp only [Frame]
  (repeat' split) <;> simp [hl]

@[simp] theorem State.contextFault_frame {P : List Part} (hl : [.planRest, .halls, .queues, .contexts, .deadlines,
    .engines, .ports, .protect, .xlatRest, .links, .commit, .faultsRest, .out] ⊆ P) (s : State) (h) (c) (offender)
    (offset) (object) : Frame P s (State.contextFault s h c offender offset object) := by
  simp only [List.cons_subset, List.nil_subset, and_true] at hl
  unfold State.contextFault
  dsimp only [Frame]
  (repeat' split) <;> simp (disch := (intros; (try dsimp only [Frame]); (repeat' split) <;> simp (disch := (intros; (try dsimp only [Frame]); (repeat' split) <;> simp [hl, *])) [hl, forAll_frame, forEach_frame, *])) [hl, forAll_frame, forEach_frame]

@[simp] theorem State.modWin_frame {P : List Part} (hl : [.windows] ⊆ P) (s : State) (n) (f) : Frame P s (State.modWin
    s n f) := by
  simp only [List.cons_subset, List.nil_subset, and_true] at hl
  dsimp only [Frame, State.modWin]
  simp [hl]

@[simp] theorem State.modChan_frame {P : List Part} (hl : [.links] ⊆ P) (s : State) (n) (vc) (f) : Frame P s
    (State.modChan s n vc f) := by
  simp only [List.cons_subset, List.nil_subset, and_true] at hl
  dsimp only [Frame, State.modChan]
  simp [hl]

@[simp] theorem State.useFree_frame {P : List Part} (hl : [.freeCtr] ⊆ P) (s : State) : Frame P s (State.useFree s) :=
    by
  simp only [List.cons_subset, List.nil_subset, and_true] at hl
  dsimp only [Frame, State.useFree]
  simp [hl]

@[simp] theorem State.dropInner_frame {P : List Part} (hl : [.engines, .ports, .protect, .xlatRest, .links] ⊆ P) (s :
    State) (p) : Frame P s (State.dropInner s p) := by
  simp only [List.cons_subset, List.nil_subset, and_true] at hl
  dsimp only [Frame, State.dropInner]
  simp [hl]

end Sys2Proof.Machine
end

