-- ==== Sys2Proof/Laws/FrameSubmit.lean ====
section
/-! SUPPORT. What the operations of submission, the engine ports and the counter trees can change: one lemma per
    operation, which names the parts of the state that it can write; every other part is as it was. -/

namespace Sys2Proof.Machine

open Sys2Proof.Safety

@[simp] theorem State.commandUnread_frame {P : List Part} (hl : [.planRest, .halls, .queues, .xlatRest, .commit] ⊆ P)
    (s : State) (h) (q) (st) : Frame P s (State.commandUnread s h q st) := by
  simp only [List.cons_subset, List.nil_subset, and_true] at hl
  dsimp only [Frame, State.commandUnread]
  simp [hl]

theorem State.command_frame {P : List Part} (hl : [.planRest, .halls, .queues, .xlatRest, .commit, .faultsRest, .out]
    ⊆ P) (s : State) (h q raw op run) (k : ∀ t b hdr, Frame P t (run t b hdr)) : Frame P s (State.command s h q raw op
    run) := by
  simp only [List.cons_subset, List.nil_subset, and_true] at hl
  unfold State.command
  split
  · split
    · exact Frame.refl s
    · split
      · simp [hl, Frame]
      · exact Frame.trans (by simp [hl, Frame]) (k _ _ _)
  · exact Frame.refl s

theorem State.plainCommand_frame {P : List Part} (hl : [.planRest, .halls, .queues, .xlatRest, .commit, .faultsRest,
    .out] ⊆ P) (s : State) (h q raw op ok run) (k : ∀ t b hdr, Frame P t (run t b hdr)) : Frame P s
    (State.plainCommand s h q raw op ok run) := by
  simp only [List.cons_subset, List.nil_subset, and_true] at hl
  unfold State.plainCommand
  refine State.command_frame (by simp [hl]) (k := ?_) ..
  intro t b hdr
  (repeat' split)
  · simp [hl, Frame]
  · exact k t b hdr
  · simp [hl, Frame]

@[simp] theorem State.engProtocol_frame {P : List Part} (hl : [.faultsRest, .out] ⊆ P) (s : State) (p) : Frame P s
    (State.engProtocol s p) := by
  simp only [List.cons_subset, List.nil_subset, and_true] at hl
  dsimp only [Frame, State.engProtocol]
  simp [hl]

@[simp] theorem State.spendLines_frame {P : List Part} (hl : [.halls, .ports] ⊆ P) (s : State) (m) (payer) (n) (write)
    : Frame P s (State.spendLines s m payer n write) := by
  simp only [List.cons_subset, List.nil_subset, and_true] at hl
  dsimp only [Frame, State.spendLines]
  simp [hl]

@[simp] theorem MemReq.signals_frame {P : List Part} (hl : [.out] ⊆ P) (s : State) (r) (m) : Frame P s (MemReq.signals
    r m s) := by
  simp only [List.cons_subset, List.nil_subset, and_true] at hl
  dsimp only [Frame, MemReq.signals]
  simp [hl]

@[simp] theorem State.issueMem_frame {P : List Part} (hl : [.halls, .ports, .out] ⊆ P) (s : State) (m) (r) : Frame P s
    (State.issueMem s m r) := by
  simp only [List.cons_subset, List.nil_subset, and_true] at hl
  dsimp only [Frame, State.issueMem]
  simp [hl]

@[simp] theorem issueWaiting_frame {P : List Part} (hl : [.halls, .ports, .out] ⊆ P) (m demand l held) (s : State) :
    Frame P s (issueWaiting m demand l held s) := by
  simp only [List.cons_subset, List.nil_subset, and_true] at hl
  induction l generalizing held s with
  | nil => exact Frame.refl s
  | cons r rest ih =>
    unfold issueWaiting
    split <;> exact Frame.trans (by simp [hl, Frame]) (ih _ _)

@[simp] theorem State.writeScrub_frame {P : List Part} (hl : [.halls, .ports, .xlatRest, .out] ⊆ P) (s : State) (m)
    (n) (x) : Frame P s (State.writeScrub s m n x) := by
  simp only [List.cons_subset, List.nil_subset, and_true] at hl
  dsimp only [Frame, State.writeScrub]
  simp [hl]

@[simp] theorem State.runScrub_frame {P : List Part} (hl : [.halls, .ports, .xlatRest, .out] ⊆ P) (s : State) (m)
    (demand) (x) : Frame P s (State.runScrub s m demand x) := by
  simp only [List.cons_subset, List.nil_subset, and_true] at hl
  dsimp only [Frame, State.runScrub]
  simp [hl]

@[simp] theorem State.pumpPort_frame {P : List Part} (hl : [.halls, .ports, .xlatRest, .out] ⊆ P) (s : State) (m) :
    Frame P s (State.pumpPort s m) := by
  simp only [List.cons_subset, List.nil_subset, and_true] at hl
  dsimp only [Frame, State.pumpPort]
  simp [hl]

@[simp] theorem State.sendMem_frame {P : List Part} (hl : [.halls, .ports, .xlatRest, .out] ⊆ P) (s : State) (m) (r) :
    Frame P s (State.sendMem s m r) := by
  simp only [List.cons_subset, List.nil_subset, and_true] at hl
  dsimp only [Frame, State.sendMem]
  simp [hl]

@[simp] theorem State.readLine_frame {P : List Part} (hl : [.halls, .ports, .xlatRest, .out] ⊆ P) (s : State) (payer)
    (set) (n) (why) (seg) (slot) (ctr) : Frame P s (State.readLine s payer set n why seg slot ctr) := by
  simp only [List.cons_subset, List.nil_subset, and_true] at hl
  dsimp only [Frame, State.readLine]
  simp [hl]

@[simp] theorem State.fetchLevels_frame {P : List Part} (hl : [.halls, .ports, .xlatRest, .out] ⊆ P) (s : State) (r)
    (g) (payer) (levels) : Frame P s (State.fetchLevels s r g payer levels) := by
  simp only [List.cons_subset, List.nil_subset, and_true] at hl
  dsimp only [Frame, State.fetchLevels]
  simp [hl]

@[simp] theorem State.mpx_frame {P : List Part} (hl : [.protect, .faultsRest, .out] ⊆ P) (s : State) (code) (k) (st) :
    Frame P s (State.mpx s code k st) := by
  simp only [List.cons_subset, List.nil_subset, and_true] at hl
  dsimp only [Frame, State.mpx]
  simp [hl]

@[simp] theorem State.writeLine_frame {P : List Part} (hl : [.halls, .ports, .xlatRest, .out] ⊆ P) (s : State) (payer)
    (set) (n) (d) (poison) (seg) : Frame P s (State.writeLine s payer set n d poison seg) := by
  simp only [List.cons_subset, List.nil_subset, and_true] at hl
  dsimp only [Frame, State.writeLine]
  simp [hl]

@[simp] theorem State.countPoison_frame {P : List Part} (hl : [.protect] ⊆ P) (s : State) : Frame P s
    (State.countPoison s) := by
  simp only [List.cons_subset, List.nil_subset, and_true] at hl
  dsimp only [Frame, State.countPoison]
  simp [hl]

@[simp] theorem State.modCache_frame {P : List Part} (hl : [.protect] ⊆ P) (s : State) (key) (f) : Frame P s
    (State.modCache s key f) := by
  simp only [List.cons_subset, List.nil_subset, and_true] at hl
  dsimp only [Frame, State.modCache]
  simp [hl]

@[simp] theorem State.updateCached_frame {P : List Part} (hl : [.protect] ⊆ P) (s : State) (e) (b) (dirty) : Frame P s
    (State.updateCached s e b dirty) := by
  simp only [List.cons_subset, List.nil_subset, and_true] at hl
  dsimp only [Frame, State.updateCached]
  simp [hl]

@[simp] theorem State.setTreeRoot_frame {P : List Part} (hl : [.protect, .vaultRest] ⊆ P) (s : State) (r) (b) : Frame
    P s (State.setTreeRoot s r b) := by
  simp only [List.cons_subset, List.nil_subset, and_true] at hl
  unfold State.setTreeRoot
  dsimp only [Frame]
  (repeat' split) <;> simp [hl]

@[simp] theorem State.setGuard_frame {P : List Part} (hl : [.protect, .vaultRest] ⊆ P) (s : State) (r) (level) (i) (v)
    : Frame P s (State.setGuard s r level i v) := by
  simp only [List.cons_subset, List.nil_subset, and_true] at hl
  unfold State.setGuard
  dsimp only [Frame]
  (repeat' split) <;> simp [hl]

@[simp] theorem State.setMarker_frame {P : List Part} (hl : [.halls, .ports, .protect, .xlatRest, .vaultRest, .out] ⊆
    P) (s : State) (x) : Frame P s (State.setMarker s x) := by
  simp only [List.cons_subset, List.nil_subset, and_true] at hl
  unfold State.setMarker
  dsimp only [Frame]
  (repeat' split) <;> simp [hl]

@[simp] theorem State.fill_frame {P : List Part} (hl : [.protect] ⊆ P) (s : State) (r) (level) (i) (b) (dirty) : Frame
    P s (State.fill s r level i b dirty) := by
  simp only [List.cons_subset, List.nil_subset, and_true] at hl
  dsimp only [Frame, State.fill]
  simp [hl]

@[simp] theorem State.zeroParent_frame {P : List Part} (hl : [.protect] ⊆ P) (s : State) (r) (level) (i) : Frame P s
    (State.zeroParent s r level i) := by
  simp only [List.cons_subset, List.nil_subset, and_true] at hl
  dsimp only [Frame, State.zeroParent]
  simp [hl]

@[simp] theorem State.writeMeta_frame {P : List Part} (hl : [.halls, .ports, .xlatRest, .out] ⊆ P) (s : State) (r)
    (level) (i) (parent) (payer) (b) : Frame P s (State.writeMeta s r level i parent payer b) := by
  simp only [List.cons_subset, List.nil_subset, and_true] at hl
  dsimp only [Frame, State.writeMeta]
  simp [hl]

@[simp] theorem State.writeChild_frame {P : List Part} (hl : [.halls, .ports, .protect, .xlatRest, .vaultRest, .out] ⊆
    P) (s : State) (r) (level) (i) (payer) (b) : Frame P s (State.writeChild s r level i payer b) := by
  simp only [List.cons_subset, List.nil_subset, and_true] at hl
  unfold State.writeChild
  dsimp only [Frame]
  (repeat' split) <;> simp [hl]

@[simp] theorem State.writeBack_frame {P : List Part} (hl : [.halls, .ports, .protect, .xlatRest, .vaultRest, .out] ⊆
    P) (s : State) (e) : Frame P s (State.writeBack s e) := by
  simp only [List.cons_subset, List.nil_subset, and_true] at hl
  unfold State.writeBack
  dsimp only [Frame]
  (repeat' split) <;> simp [hl]

@[simp] theorem drainEvicting_frame {P : List Part} (hl : [.halls, .ports, .protect, .xlatRest, .vaultRest, .out] ⊆ P)
    (n) (s : State) : Frame P s (drainEvicting n s) := by
  simp only [List.cons_subset, List.nil_subset, and_true] at hl
  induction n generalizing s with
  | zero => exact Frame.refl s
  | succ n ih =>
    unfold drainEvicting
    dsimp only
    (repeat' split)
    · exact Frame.trans (by simp [hl, Frame]) (ih _)
    · exact Frame.trans (by simp [hl, Frame]) (ih _)
    · simp [hl, Frame]

@[simp] theorem State.enter_frame {P : List Part} (hl : [.halls, .ports, .protect, .xlatRest, .vaultRest, .out] ⊆ P)
    (s : State) (r) (level) (i) (b) (dirty) : Frame P s (State.enter s r level i b dirty) := by
  simp only [List.cons_subset, List.nil_subset, and_true] at hl
  dsimp only [Frame, State.enter]
  simp [hl]

@[simp] theorem State.setLeaf_frame {P : List Part} (hl : [.halls, .ports, .protect, .xlatRest, .vaultRest, .out] ⊆ P)
    (s : State) (r) (g) (b) : Frame P s (State.setLeaf s r g b) := by
  simp only [List.cons_subset, List.nil_subset, and_true] at hl
  unfold State.setLeaf
  dsimp only [Frame]
  (repeat' split) <;> simp [hl]

@[simp] theorem State.fetchChain_frame {P : List Part} (hl : [.halls, .ports, .xlatRest, .out] ⊆ P) (s : State) (r)
    (g) (payer) : Frame P s (State.fetchChain s r g payer) := by
  simp only [List.cons_subset, List.nil_subset, and_true] at hl
  dsimp only [Frame, State.fetchChain]
  simp [hl]

@[simp] theorem State.touch_frame {P : List Part} (hl : [.protect] ⊆ P) (s : State) (e) : Frame P s (State.touch s e)
    := by
  simp only [List.cons_subset, List.nil_subset, and_true] at hl
  dsimp only [Frame, State.touch]
  simp [hl]

@[simp] theorem State.touchPath_frame {P : List Part} (hl : [.protect] ⊆ P) (s : State) (r) (g) : Frame P s
    (State.touchPath s r g) := by
  simp only [List.cons_subset, List.nil_subset, and_true] at hl
  unfold State.touchPath
  dsimp only [Frame]
  (repeat' split) <;> simp (disch := (intros; (try dsimp only [Frame]); (repeat' split) <;> simp (disch := (intros; (try dsimp only [Frame]); (repeat' split) <;> simp [hl, *])) [hl, forAll_frame, forEach_frame, *])) [hl, forAll_frame, forEach_frame]

@[simp] theorem State.beginFence_frame {P : List Part} (hl : [.units, .faultsRest, .out] ⊆ P) (s : State) (type)
    (index) (cause) (hall) (status) : Frame P s (State.beginFence s type index cause hall status) := by
  simp only [List.cons_subset, List.nil_subset, and_true] at hl
  dsimp only [Frame, State.beginFence]
  simp [hl]

@[simp] theorem State.noteDesc_frame {P : List Part} (hl : [.halls, .xlatRest, .faultsRest, .out] ⊆ P) (s : State) (h)
    (c) (va) (d) : Frame P s (State.noteDesc s h c va d) := by
  simp only [List.cons_subset, List.nil_subset, and_true] at hl
  dsimp only [Frame, State.noteDesc]
  simp [hl]

@[simp] theorem State.abandonFetched_frame {P : List Part} (hl : [.queues, .engines] ⊆ P) (s : State) (p) : Frame P s
    (State.abandonFetched s p) := by
  simp only [List.cons_subset, List.nil_subset, and_true] at hl
  unfold State.abandonFetched
  dsimp only [Frame]
  (repeat' split) <;> simp [hl]

@[simp] theorem EngEntry.ungrant_frame {P : List Part} (hl : [.queues] ⊆ P) (s : State) (e) : Frame P s
    (EngEntry.ungrant e s) := by
  simp only [List.cons_subset, List.nil_subset, and_true] at hl
  unfold EngEntry.ungrant
  dsimp only [Frame]
  (repeat' split) <;> simp [hl]

@[simp] theorem State.clearGrants_frame {P : List Part} (hl : [.queues, .engines] ⊆ P) (s : State) (p) : Frame P s
    (State.clearGrants s p) := by
  simp only [List.cons_subset, List.nil_subset, and_true] at hl
  dsimp only [Frame, State.clearGrants]
  simp [hl]

@[simp] theorem State.completeNow_frame {P : List Part} (hl : [.queues, .out] ⊆ P) (s : State) (p) (e) (f) : Frame P s
    (State.completeNow s p e f) := by
  simp only [List.cons_subset, List.nil_subset, and_true] at hl
  unfold State.completeNow
  dsimp only [Frame]
  (repeat' split) <;> simp [hl]

@[simp] theorem State.signalNow_frame {P : List Part} (hl : [.halls, .queues, .fences, .faultsRest, .out] ⊆ P) (s :
    State) (p) (e) (f) (fenceUe) : Frame P s (State.signalNow s p e f fenceUe) := by
  simp only [List.cons_subset, List.nil_subset, and_true] at hl
  dsimp only [Frame, State.signalNow]
  simp [hl]

@[simp] theorem State.fenceNow_frame {P : List Part} (hl : [.halls, .queues, .fences, .faultsRest, .out] ⊆ P) (s :
    State) (p) (data) (fenceUe) : Frame P s (State.fenceNow s p data fenceUe) := by
  simp only [List.cons_subset, List.nil_subset, and_true] at hl
  unfold State.fenceNow
  dsimp only [Frame]
  (repeat' split) <;> simp [hl]

@[simp] theorem servePortFences_frame {P : List Part} (hl : [.halls, .queues, .fences, .engines, .faultsRest, .out] ⊆
    P) (p l) (s : State) : Frame P s (servePortFences p l s) := by
  simp only [List.cons_subset, List.nil_subset, and_true] at hl
  induction l generalizing s with
  | nil => exact Frame.refl s
  | cons w rest ih =>
    unfold servePortFences
    split
    · exact Frame.trans (by simp [hl, Frame]) (ih _)
    · exact Frame.refl s

@[simp] theorem State.serveFences_frame {P : List Part} (hl : [.halls, .queues, .fences, .engines, .faultsRest, .out]
    ⊆ P) (s : State) : Frame P s (State.serveFences s) := by
  simp only [List.cons_subset, List.nil_subset, and_true] at hl
  dsimp only [Frame, State.serveFences]
  simp [hl]

@[simp] theorem State.fetch_frame {P : List Part} (hl : [.queues, .engines, .out] ⊆ P) (s : State) (p) : Frame P s
    (State.fetch s p) := by
  simp only [List.cons_subset, List.nil_subset, and_true] at hl
  unfold State.fetch
  dsimp only [Frame]
  (repeat' split) <;> simp [hl]

@[simp] theorem State.tileBegin_frame {P : List Part} (hl : [.halls, .queues, .engines, .out] ⊆ P) (s : State) (p)
    (index) : Frame P s (State.tileBegin s p index) := by
  simp only [List.cons_subset, List.nil_subset, and_true] at hl
  unfold State.tileBegin
  dsimp only [Frame]
  (repeat' split) <;> simp [hl]

@[simp] theorem State.countSlots_frame {P : List Part} (hl : [.halls, .engines] ⊆ P) (s : State) (p) (k) : Frame P s
    (State.countSlots s p k) := by
  simp only [List.cons_subset, List.nil_subset, and_true] at hl
  unfold State.countSlots
  dsimp only [Frame]
  (repeat' split) <;> simp [hl]

@[simp] theorem State.endBegun_frame {P : List Part} (hl : [.planRest, .halls, .queues, .contexts, .deadlines,
    .engines, .xlatRest, .commit] ⊆ P) (s : State) (p) (st) (offset) : Frame P s (State.endBegun s p st offset) := by
  simp only [List.cons_subset, List.nil_subset, and_true] at hl
  unfold State.endBegun
  dsimp only [Frame]
  (repeat' split) <;> simp [hl]

@[simp] theorem State.tileEnd_frame {P : List Part} (hl : [.planRest, .halls, .queues, .contexts, .deadlines,
    .engines, .xlatRest, .commit, .out] ⊆ P) (s : State) (p) (status) (offset) : Frame P s (State.tileEnd s p status
    offset) := by
  simp only [List.cons_subset, List.nil_subset, and_true] at hl
  dsimp only [Frame, State.tileEnd]
  simp [hl]

@[simp] theorem State.fenceEngine_frame {P : List Part} (hl : [.planRest, .halls, .queues, .contexts, .deadlines,
    .engines, .ports, .protect, .xlatRest, .links, .commit, .units, .faultsRest, .out] ⊆ P) (s : State) (p) (cause)
    (st) : Frame P s (State.fenceEngine s p cause st) := by
  simp only [List.cons_subset, List.nil_subset, and_true] at hl
  dsimp only [Frame, State.fenceEngine]
  simp [hl]

@[simp] theorem State.overrun_frame {P : List Part} (hl : [.planRest, .halls, .queues, .contexts, .deadlines,
    .engines, .ports, .protect, .xlatRest, .links, .commit, .units, .faultsRest, .out] ⊆ P) (s : State) (p) : Frame P
    s (State.overrun s p) := by
  simp only [List.cons_subset, List.nil_subset, and_true] at hl
  dsimp only [Frame, State.overrun]
  simp [hl]

@[simp] theorem State.loseSegment_frame {P : List Part} (hl : [.halls, .segs] ⊆ P) (s : State) (k) : Frame P s
    (State.loseSegment s k) := by
  simp only [List.cons_subset, List.nil_subset, and_true] at hl
  dsimp only [Frame, State.loseSegment]
  simp [hl]

@[simp] theorem State.loseSubtree_frame {P : List Part} (hl : [.halls, .ports, .protect, .xlatRest, .vaultRest,
    .faultsRest, .out] ⊆ P) (s : State) (r) (level) (i) : Frame P s (State.loseSubtree s r level i) := by
  simp only [List.cons_subset, List.nil_subset, and_true] at hl
  dsimp only [Frame, State.loseSubtree]
  simp [hl]

@[simp] theorem State.fenceTransfer_frame {P : List Part} (hl : [.halls, .queues, .fences, .engines, .faultsRest,
    .out] ⊆ P) (s : State) (p) (data) (kindOk) (fenceUe) : Frame P s (State.fenceTransfer s p data kindOk fenceUe) :=
    by
  simp only [List.cons_subset, List.nil_subset, and_true] at hl
  unfold State.fenceTransfer
  dsimp only [Frame]
  (repeat' split) <;> simp [hl]

@[simp] theorem State.engSignal_frame {P : List Part} (hl : [.halls, .queues, .fences, .engines, .faultsRest, .out] ⊆
    P) (s : State) (p) (data) (fenceUe) : Frame P s (State.engSignal s p data fenceUe) := by
  simp only [List.cons_subset, List.nil_subset, and_true] at hl
  dsimp only [Frame, State.engSignal]
  simp [hl]

@[simp] theorem State.engComplete_frame {P : List Part} (hl : [.halls, .queues, .fences, .engines, .faultsRest, .out]
    ⊆ P) (s : State) (p) (data) : Frame P s (State.engComplete s p data) := by
  simp only [List.cons_subset, List.nil_subset, and_true] at hl
  dsimp only [Frame, State.engComplete]
  simp [hl]

@[simp] theorem State.preemptAck_frame {P : List Part} (hl : [.queues, .engines, .out] ⊆ P) (s : State) (p) : Frame P
    s (State.preemptAck s p) := by
  simp only [List.cons_subset, List.nil_subset, and_true] at hl
  dsimp only [Frame, State.preemptAck]
  simp [hl]

@[simp] theorem State.assign_frame {P : List Part} (hl : [.engines] ⊆ P) (s : State) (p) (h) : Frame P s (State.assign
    s p h) := by
  simp only [List.cons_subset, List.nil_subset, and_true] at hl
  dsimp only [Frame, State.assign]
  simp [hl]

@[simp] theorem State.switchDone_frame {P : List Part} (hl : [.engines] ⊆ P) (s : State) (p) : Frame P s
    (State.switchDone s p) := by
  simp only [List.cons_subset, List.nil_subset, and_true] at hl
  dsimp only [Frame, State.switchDone]
  simp [hl]

@[simp] theorem State.remoteTimeout_frame {P : List Part} (hl : [.engines, .ports, .protect, .xlatRest, .links, .out]
    ⊆ P) (s : State) (p) : Frame P s (State.remoteTimeout s p) := by
  simp only [List.cons_subset, List.nil_subset, and_true] at hl
  dsimp only [Frame, State.remoteTimeout]
  simp [hl]

@[simp] theorem State.noAck_frame {P : List Part} (hl : [.planRest, .halls, .queues, .contexts, .deadlines, .engines,
    .ports, .protect, .xlatRest, .links, .commit, .units, .faultsRest, .out] ⊆ P) (s : State) (p) : Frame P s
    (State.noAck s p) := by
  simp only [List.cons_subset, List.nil_subset, and_true] at hl
  dsimp only [Frame, State.noAck]
  simp [hl]

@[simp] theorem State.bumpFunc_frame {P : List Part} (hl : [.funcs, .engines, .ports, .protect, .xlatRest, .links,
    .out] ⊆ P) (s : State) (f) : Frame P s (State.bumpFunc s f) := by
  simp only [List.cons_subset, List.nil_subset, and_true] at hl
  dsimp only [Frame, State.bumpFunc]
  simp [hl]

@[simp] theorem State.readNow_frame {P : List Part} (hl : [.halls, .ports, .out] ⊆ P) (s : State) (m) (payer) (a) :
    Frame P s (State.readNow s m payer a) := by
  simp only [List.cons_subset, List.nil_subset, and_true] at hl
  dsimp only [Frame, State.readNow]
  simp [hl]

@[simp] theorem State.readSetNow_frame {P : List Part} (hl : [.halls, .ports, .out] ⊆ P) (s : State) (payer) (set) (n)
    : Frame P s (State.readSetNow s payer set n) := by
  simp only [List.cons_subset, List.nil_subset, and_true] at hl
  dsimp only [Frame, State.readSetNow]
  simp [hl]

@[simp] theorem State.preempt_frame {P : List Part} (hl : [.queues, .engines, .out] ⊆ P) (s : State) (p) (nxt) : Frame
    P s (State.preempt s p nxt) := by
  simp only [List.cons_subset, List.nil_subset, and_true] at hl
  dsimp only [Frame, State.preempt]
  simp [hl]

@[simp] theorem State.sramUeCore_frame {P : List Part} (hl : [.faultsRest, .out] ⊆ P) (s : State) : Frame P s
    (State.sramUeCore s) := by
  simp only [List.cons_subset, List.nil_subset, and_true] at hl
  dsimp only [Frame, State.sramUeCore]
  simp [hl]

@[simp] theorem State.fetchFrom_frame {P : List Part} (hl : [.out] ⊆ P) (s : State) (h) (q) : Frame P s
    (State.fetchFrom s h q) := by
  simp only [List.cons_subset, List.nil_subset, and_true] at hl
  dsimp only [Frame, State.fetchFrom]
  simp [hl]

@[simp] theorem State.fireMonitor_frame {P : List Part} (hl : [.queues, .out] ⊆ P) (s : State) (h) (q) : Frame P s
    (State.fireMonitor s h q) := by
  simp only [List.cons_subset, List.nil_subset, and_true] at hl
  dsimp only [Frame, State.fireMonitor]
  simp [hl]

@[simp] theorem State.doorbell_frame {P : List Part} (hl : [.queues, .out] ⊆ P) (s : State) (h) (q) (data) : Frame P s
    (State.doorbell s h q data) := by
  simp only [List.cons_subset, List.nil_subset, and_true] at hl
  dsimp only [Frame, State.doorbell]
  simp [hl]

@[simp] theorem State.takeEntry_frame {P : List Part} (hl : [.queues, .out] ⊆ P) (s : State) (h) (q) : Frame P s
    (State.takeEntry s h q) := by
  simp only [List.cons_subset, List.nil_subset, and_true] at hl
  dsimp only [Frame, State.takeEntry]
  simp [hl]

@[simp] theorem State.ringEntry_frame {P : List Part} (hl : [.halls, .queues, .xlatRest, .faultsRest, .out] ⊆ P) (s :
    State) (h) (q) (status) (entry) (queueUe) : Frame P s (State.ringEntry s h q status entry queueUe) := by
  simp only [List.cons_subset, List.nil_subset, and_true] at hl
  unfold State.ringEntry
  dsimp only [Frame]
  (repeat' split) <;> simp [hl]

@[simp] theorem State.kringBase_frame {P : List Part} (hl : [.funcs] ⊆ P) (s : State) (f) (data) : Frame P s
    (State.kringBase s f data) := by
  simp only [List.cons_subset, List.nil_subset, and_true] at hl
  dsimp only [Frame, State.kringBase]
  simp [hl]

@[simp] theorem State.kringEnable_frame {P : List Part} (hl : [.funcs] ⊆ P) (s : State) (f) : Frame P s
    (State.kringEnable s f) := by
  simp only [List.cons_subset, List.nil_subset, and_true] at hl
  unfold State.kringEnable
  dsimp only [Frame]
  (repeat' split) <;> simp [hl]

@[simp] theorem State.kringDisable_frame {P : List Part} (hl : [.funcs] ⊆ P) (s : State) (f) : Frame P s
    (State.kringDisable s f) := by
  simp only [List.cons_subset, List.nil_subset, and_true] at hl
  unfold State.kringDisable
  dsimp only [Frame]
  (repeat' split) <;> simp [hl]

@[simp] theorem State.kringDisableDone_frame {P : List Part} (hl : [.funcs, .engines, .ports, .protect, .xlatRest,
    .links, .out] ⊆ P) (s : State) (f) : Frame P s (State.kringDisableDone s f) := by
  simp only [List.cons_subset, List.nil_subset, and_true] at hl
  unfold State.kringDisableDone
  dsimp only [Frame]
  (repeat' split) <;> simp [hl]

@[simp] theorem State.kringDoorbell_frame {P : List Part} (hl : [.funcs, .out] ⊆ P) (s : State) (f) (data) : Frame P s
    (State.kringDoorbell s f data) := by
  simp only [List.cons_subset, List.nil_subset, and_true] at hl
  dsimp only [Frame, State.kringDoorbell]
  simp [hl]

@[simp] theorem State.takeKEntry_frame {P : List Part} (hl : [.funcs] ⊆ P) (s : State) (f) : Frame P s
    (State.takeKEntry s f) := by
  simp only [List.cons_subset, List.nil_subset, and_true] at hl
  dsimp only [Frame, State.takeKEntry]
  simp [hl]

@[simp] theorem State.kDone_frame {P : List Part} (hl : [.funcs] ⊆ P) (s : State) (f) (st) : Frame P s (State.kDone s
    f st) := by
  simp only [List.cons_subset, List.nil_subset, and_true] at hl
  dsimp only [Frame, State.kDone]
  simp [hl]

theorem State.kEntry_frame {P : List Part} (hl : [.funcs] ⊆ P) (s : State) (f raw op ok run) (k : ∀ t, Frame P t (run
    t)) : Frame P s (State.kEntry s f raw op ok run) := by
  simp only [List.cons_subset, List.nil_subset, and_true] at hl
  unfold State.kEntry
  dsimp only
  (repeat' split)
  · exact Frame.trans (by simp [hl, Frame]) (k _)
  · simp [hl, Frame]
  · exact Frame.refl s

@[simp] theorem State.kNop_frame {P : List Part} (hl : [.funcs] ⊆ P) (s : State) (f) (raw) : Frame P s (State.kNop s f
    raw) := by
  simp only [List.cons_subset, List.nil_subset, and_true] at hl
  unfold State.kNop
  refine State.kEntry_frame (by simp [hl]) (k := ?_) ..
  intros
  simp [hl, Frame]

@[simp] theorem State.qNop_frame {P : List Part} (hl : [.planRest, .halls, .queues, .xlatRest, .commit, .faultsRest,
    .out] ⊆ P) (s : State) (h) (q) (raw) : Frame P s (State.qNop s h q raw) := by
  simp only [List.cons_subset, List.nil_subset, and_true] at hl
  unfold State.qNop
  refine State.plainCommand_frame (by simp [hl]) (k := ?_) ..
  intros
  simp [hl, Frame]

@[simp] theorem State.queueCreate_frame {P : List Part} (hl : [.funcs, .queues] ⊆ P) (s : State) (f) (raw) : Frame P s
    (State.queueCreate s f raw) := by
  simp only [List.cons_subset, List.nil_subset, and_true] at hl
  unfold State.queueCreate
  refine State.kEntry_frame (by simp [hl]) (k := ?_) ..
  intros
  dsimp only [Frame]
  (repeat' split) <;> simp [hl]

@[simp] theorem State.retireQueue_frame {P : List Part} (hl : [.planRest, .halls, .queues, .deadlines, .engines,
    .ports, .protect, .xlatRest, .links, .commit, .out] ⊆ P) (s : State) (h) (q) : Frame P s (State.retireQueue s h q)
    := by
  simp only [List.cons_subset, List.nil_subset, and_true] at hl
  dsimp only [Frame, State.retireQueue]
  simp [hl]

@[simp] theorem State.queueDestroy_frame {P : List Part} (hl : [.planRest, .halls, .funcs, .queues, .deadlines,
    .engines, .ports, .protect, .xlatRest, .links, .commit, .out] ⊆ P) (s : State) (f) (raw) : Frame P s
    (State.queueDestroy s f raw) := by
  simp only [List.cons_subset, List.nil_subset, and_true] at hl
  unfold State.queueDestroy
  refine State.kEntry_frame (by simp [hl]) (k := ?_) ..
  intros
  simp [hl, Frame]

@[simp] theorem State.queueReset_frame {P : List Part} (hl : [.planRest, .halls, .funcs, .queues, .deadlines,
    .engines, .ports, .protect, .xlatRest, .links, .commit, .out] ⊆ P) (s : State) (f) (raw) : Frame P s
    (State.queueReset s f raw) := by
  simp only [List.cons_subset, List.nil_subset, and_true] at hl
  unfold State.queueReset
  refine State.kEntry_frame (by simp [hl]) (k := ?_) ..
  intros
  simp [hl, Frame]

@[simp] theorem State.queueRetired_frame {P : List Part} (hl : [.funcs, .queues] ⊆ P) (s : State) (f) : Frame P s
    (State.queueRetired s f) := by
  simp only [List.cons_subset, List.nil_subset, and_true] at hl
  unfold State.queueRetired
  dsimp only [Frame]
  (repeat' split) <;> simp [hl]

@[simp] theorem State.fenceSet_frame {P : List Part} (hl : [.halls, .funcs, .queues, .fences] ⊆ P) (s : State) (f)
    (raw) : Frame P s (State.fenceSet s f raw) := by
  simp only [List.cons_subset, List.nil_subset, and_true] at hl
  unfold State.fenceSet
  refine State.kEntry_frame (by simp [hl]) (k := ?_) ..
  intros
  simp [hl, Frame]

@[simp] theorem State.takeSeq_frame {P : List Part} (hl : [.queues] ⊆ P) (s : State) (h) (q) : Frame P s
    (State.takeSeq s h q) := by
  simp only [List.cons_subset, List.nil_subset, and_true] at hl
  dsimp only [Frame, State.takeSeq]
  simp [hl]

@[simp] theorem State.recordAction_frame {P : List Part} (hl : [.planRest, .halls, .queues, .xlatRest, .commit] ⊆ P)
    (s : State) (h) (q) (g) (hdr) (seq) (a) : Frame P s (State.recordAction s h q g hdr seq a) := by
  simp only [List.cons_subset, List.nil_subset, and_true] at hl
  dsimp only [Frame, State.recordAction]
  simp [hl]

@[simp] theorem State.invoke_frame {P : List Part} (hl : [.planRest, .halls, .queues, .deadlines, .xlatRest, .commit,
    .faultsRest, .out] ⊆ P) (s : State) (h) (q) (raw) (d) : Frame P s (State.invoke s h q raw d) := by
  simp only [List.cons_subset, List.nil_subset, and_true] at hl
  unfold State.invoke
  refine State.command_frame (by simp [hl]) (k := ?_) ..
  intros
  dsimp only [Frame]
  (repeat' split) <;> simp [hl]

@[simp] theorem State.waitFence_frame {P : List Part} (hl : [.planRest, .halls, .queues, .xlatRest, .commit,
    .faultsRest, .out] ⊆ P) (s : State) (h) (q) (raw) : Frame P s (State.waitFence s h q raw) := by
  simp only [List.cons_subset, List.nil_subset, and_true] at hl
  unfold State.waitFence
  refine State.command_frame (by simp [hl]) (k := ?_) ..
  intros
  simp [hl, Frame]

@[simp] theorem State.fenceMet_frame {P : List Part} (hl : [.planRest, .halls, .queues, .xlatRest, .commit] ⊆ P) (s :
    State) (h) (q) : Frame P s (State.fenceMet s h q) := by
  simp only [List.cons_subset, List.nil_subset, and_true] at hl
  unfold State.fenceMet
  dsimp only [Frame]
  (repeat' split) <;> simp [hl]

@[simp] theorem State.signalFence_frame {P : List Part} (hl : [.planRest, .halls, .queues, .fences, .xlatRest,
    .commit, .faultsRest, .out] ⊆ P) (s : State) (h) (q) (raw) : Frame P s (State.signalFence s h q raw) := by
  simp only [List.cons_subset, List.nil_subset, and_true] at hl
  unfold State.signalFence
  refine State.command_frame (by simp [hl]) (k := ?_) ..
  intros
  dsimp only [Frame]
  (repeat' split) <;> simp [hl]

@[simp] theorem State.noteWord_frame {P : List Part} (hl : [.halls, .xlatRest, .faultsRest, .out] ⊆ P) (s : State) (h)
    (q) (raw) (answer) : Frame P s (State.noteWord s h q raw answer) := by
  simp only [List.cons_subset, List.nil_subset, and_true] at hl
  dsimp only [Frame, State.noteWord]
  simp [hl]

@[simp] theorem State.condSkip_frame {P : List Part} (hl : [.planRest, .halls, .queues, .xlatRest, .commit,
    .faultsRest, .out] ⊆ P) (s : State) (h) (q) (raw) (wordStatus) (word) (spanStatus) (span) : Frame P s
    (State.condSkip s h q raw wordStatus word spanStatus span) := by
  simp only [List.cons_subset, List.nil_subset, and_true] at hl
  unfold State.condSkip
  refine State.plainCommand_frame (by simp [hl]) (k := ?_) ..
  intros
  simp [hl, Frame]

@[simp] theorem State.loopBegin_frame {P : List Part} (hl : [.planRest, .halls, .queues, .xlatRest, .commit,
    .faultsRest, .out] ⊆ P) (s : State) (h) (q) (raw) : Frame P s (State.loopBegin s h q raw) := by
  simp only [List.cons_subset, List.nil_subset, and_true] at hl
  unfold State.loopBegin
  refine State.plainCommand_frame (by simp [hl]) (k := ?_) ..
  intros
  simp [hl, Frame]

@[simp] theorem State.loopEnd_frame {P : List Part} (hl : [.planRest, .halls, .queues, .xlatRest, .commit,
    .faultsRest, .out] ⊆ P) (s : State) (h) (q) (raw) : Frame P s (State.loopEnd s h q raw) := by
  simp only [List.cons_subset, List.nil_subset, and_true] at hl
  unfold State.loopEnd
  refine State.plainCommand_frame (by simp [hl]) (k := ?_) ..
  intros
  dsimp only [Frame]
  (repeat' split) <;> simp [hl]

@[simp] theorem State.reservedOp_frame {P : List Part} (hl : [.planRest, .halls, .funcs, .queues, .xlatRest, .commit,
    .faultsRest, .out] ⊆ P) (s : State) (src) (raw) : Frame P s (State.reservedOp s src raw) := by
  simp only [List.cons_subset, List.nil_subset, and_true] at hl
  unfold State.reservedOp
  (repeat' split) <;> first
    | exact Frame.refl s
    | (refine State.kEntry_frame (by simp [hl]) (k := ?_) ..; intro t; exact Frame.refl t)
    | (refine State.plainCommand_frame (by simp [hl]) (k := ?_) ..; intro t b hdr; exact Frame.refl t)

@[simp] theorem State.unreadable_frame {P : List Part} (hl : [.planRest, .halls, .funcs, .queues, .xlatRest, .commit,
    .faultsRest, .out] ⊆ P) (s : State) (src) (status) : Frame P s (State.unreadable s src status) := by
  simp only [List.cons_subset, List.nil_subset, and_true] at hl
  unfold State.unreadable
  dsimp only [Frame]
  (repeat' split) <;> simp [hl]

end Sys2Proof.Machine
end

