-- ==== Sys2Proof/Laws/FrameMemory.lean ====
section
/-! SUPPORT. What the operations of memory protection and the keys can change: one lemma per operation, which names
    the parts of the state that it can write; every other part is as it was. -/

namespace Sys2Proof.Machine

open Sys2Proof.Safety

@[simp] theorem State.await_frame {P : List Part} (hl : [.engines] ⊆ P) (s : State) (p) (tag) (w) : Frame P s
    (State.await s p tag w) := by
  simp only [List.cons_subset, List.nil_subset, and_true] at hl
  dsimp only [Frame, State.await]
  simp [hl]

@[simp] theorem State.runWm_frame {P : List Part} (hl : [.halls, .engines, .protect, .xlatRest, .out] ⊆ P) (s : State)
    (p) (d) : Frame P s (State.runWm s p d) := by
  simp only [List.cons_subset, List.nil_subset, and_true] at hl
  dsimp only [Frame, State.runWm]
  simp [hl]

@[simp] theorem State.finishWrite_frame {P : List Part} (hl : [.engines, .xlatRest, .out] ⊆ P) (s : State) (p) (tag) :
    Frame P s (State.finishWrite s p tag) := by
  simp only [List.cons_subset, List.nil_subset, and_true] at hl
  unfold State.finishWrite
  dsimp only [Frame]
  (repeat' split) <;> simp [hl]

@[simp] theorem State.storeLine_frame {P : List Part} (hl : [.halls, .ports, .protect, .xlatRest, .out] ⊆ P) (s :
    State) (r) (base) (l) (ctr) (d) (payer) : Frame P s (State.storeLine s r base l ctr d payer) := by
  simp only [List.cons_subset, List.nil_subset, and_true] at hl
  unfold State.storeLine
  dsimp only [Frame]
  (repeat' split) <;> simp [hl]

@[simp] theorem State.beginOverflow_frame {P : List Part} (hl : [.halls, .ports, .protect, .xlatRest, .vaultRest,
    .out] ⊆ P) (s : State) (r) (base) (l) (port) (tag) : Frame P s (State.beginOverflow s r base l port tag) := by
  simp only [List.cons_subset, List.nil_subset, and_true] at hl
  dsimp only [Frame, State.beginOverflow]
  simp [hl]

@[simp] theorem State.putLine_frame {P : List Part} (hl : [.halls, .ports, .protect, .xlatRest, .vaultRest,
    .faultsRest, .out] ⊆ P) (s : State) (r) (base) (l) (d) (port) (tag) : Frame P s (State.putLine s r base l d port
    tag).1 := by
  simp only [List.cons_subset, List.nil_subset, and_true] at hl
  unfold State.putLine
  dsimp only [Frame]
  (repeat' split) <;> simp [hl]

@[simp] theorem State.postLine_frame {P : List Part} (hl : [.halls, .engines, .ports, .protect, .xlatRest, .vaultRest,
    .faultsRest, .out] ⊆ P) (s : State) (p) (d) (i) (data) (st) : Frame P s (State.postLine s p d i data st) := by
  simp only [List.cons_subset, List.nil_subset, and_true] at hl
  dsimp only [Frame, State.postLine]
  simp [hl]

@[simp] theorem State.runLine_frame {P : List Part} (hl : [.halls, .engines, .ports, .protect, .xlatRest, .vaultRest,
    .faultsRest, .out] ⊆ P) (s : State) (p) (tag) (i) : Frame P s (State.runLine s p tag i) := by
  simp only [List.cons_subset, List.nil_subset, and_true] at hl
  unfold State.runLine
  dsimp only [Frame]
  (repeat' split) <;> simp [hl]

@[simp] theorem State.writeLines_frame {P : List Part} (hl : [.halls, .engines, .ports, .protect, .xlatRest,
    .vaultRest, .faultsRest, .out] ⊆ P) (s : State) (p) (d) : Frame P s (State.writeLines s p d) := by
  simp only [List.cons_subset, List.nil_subset, and_true] at hl
  dsimp only [Frame, State.writeLines]
  simp [hl]

@[simp] theorem State.readLines_frame {P : List Part} (hl : [.halls, .engines, .ports, .xlatRest, .out] ⊆ P) (s :
    State) (p) (d) (r) : Frame P s (State.readLines s p d r) := by
  simp only [List.cons_subset, List.nil_subset, and_true] at hl
  dsimp only [Frame, State.readLines]
  simp [hl]

@[simp] theorem State.goLines_frame {P : List Part} (hl : [.halls, .engines, .ports, .protect, .xlatRest, .vaultRest,
    .faultsRest, .out] ⊆ P) (s : State) (p) (d) (r) : Frame P s (State.goLines s p d r) := by
  simp only [List.cons_subset, List.nil_subset, and_true] at hl
  dsimp only [Frame, State.goLines]
  simp [hl]

@[simp] theorem State.prefetch_frame {P : List Part} (hl : [.halls, .ports, .xlatRest, .out] ⊆ P) (s : State) (d) :
    Frame P s (State.prefetch s d) := by
  simp only [List.cons_subset, List.nil_subset, and_true] at hl
  dsimp only [Frame, State.prefetch]
  simp [hl]

@[simp] theorem State.runLines_frame {P : List Part} (hl : [.halls, .engines, .ports, .protect, .xlatRest, .vaultRest,
    .faultsRest, .out] ⊆ P) (s : State) (p) (d) : Frame P s (State.runLines s p d) := by
  simp only [List.cons_subset, List.nil_subset, and_true] at hl
  unfold State.runLines
  dsimp only [Frame]
  (repeat' split) <;> simp [hl]

@[simp] theorem State.runSeg_frame {P : List Part} (hl : [.halls, .engines, .ports, .protect, .xlatRest, .vaultRest,
    .faultsRest, .out] ⊆ P) (s : State) (p) (tag) : Frame P s (State.runSeg s p tag) := by
  simp only [List.cons_subset, List.nil_subset, and_true] at hl
  unfold State.runSeg
  dsimp only [Frame]
  (repeat' split) <;> simp [hl]

@[simp] theorem State.wake_frame {P : List Part} (hl : [.halls, .engines, .ports, .protect, .xlatRest, .vaultRest,
    .faultsRest, .out] ⊆ P) (s : State) (ws) : Frame P s (State.wake s ws) := by
  simp only [List.cons_subset, List.nil_subset, and_true] at hl
  dsimp only [Frame, State.wake]
  simp [hl]

@[simp] theorem State.rederived_frame {P : List Part} (hl : [.halls, .engines, .ports, .protect, .xlatRest, .slots,
    .vaultRest, .faultsRest, .out] ⊆ P) (s : State) (e) : Frame P s (State.rederived s e) := by
  simp only [List.cons_subset, List.nil_subset, and_true] at hl
  unfold State.rederived
  dsimp only [Frame]
  (repeat' split) <;> simp [hl]

@[simp] theorem State.need_frame {P : List Part} (hl : [.halls, .engines, .ports, .protect, .xlatRest, .slots,
    .vaultRest, .faultsRest, .out] ⊆ P) (s : State) (e) : Frame P s (State.need s e) := by
  simp only [List.cons_subset, List.nil_subset, and_true] at hl
  dsimp only [Frame, State.need]
  simp [hl]

@[simp] theorem State.startSeg_frame {P : List Part} (hl : [.halls, .engines, .ports, .protect, .xlatRest, .vaultRest,
    .faultsRest, .out] ⊆ P) (s : State) (p) (d) : Frame P s (State.startSeg s p d) := by
  simp only [List.cons_subset, List.nil_subset, and_true] at hl
  dsimp only [Frame, State.startSeg]
  simp [hl]

@[simp] theorem State.startWithdrawSeg_frame {P : List Part} (hl : [.segs, .xlatRest, .vaultRest] ⊆ P) (s : State) (k)
    (hk) : Frame P s (State.startWithdrawSeg s k hk) := by
  simp only [List.cons_subset, List.nil_subset, and_true] at hl
  unfold State.startWithdrawSeg
  dsimp only [Frame]
  (repeat' split) <;> simp [hl]

@[simp] theorem State.putExtent_frame {P : List Part} (hl : [.protect] ⊆ P) (s : State) (k) (e) : Frame P s
    (State.putExtent s k e) := by
  simp only [List.cons_subset, List.nil_subset, and_true] at hl
  unfold State.putExtent
  dsimp only [Frame]
  (repeat' split) <;> simp [hl]

@[simp] theorem State.createSeg_frame {P : List Part} (hl : [.protect, .segs] ⊆ P) (s : State) (r) : Frame P s
    (State.createSeg s r) := by
  simp only [List.cons_subset, List.nil_subset, and_true] at hl
  dsimp only [Frame, State.createSeg]
  simp [hl]

@[simp] theorem State.installSlot_frame {P : List Part} (hl : [.slots, .hallKeys] ⊆ P) (s : State) (slot) (k) (st) :
    Frame P s (State.installSlot s slot k st) := by
  simp only [List.cons_subset, List.nil_subset, and_true] at hl
  dsimp only [Frame, State.installSlot]
  simp [hl]

@[simp] theorem State.giveSlot_frame {P : List Part} (hl : [.segs, .slots, .hallKeys] ⊆ P) (s : State) (k) : Frame P s
    (State.giveSlot s k) := by
  simp only [List.cons_subset, List.nil_subset, and_true] at hl
  unfold State.giveSlot
  dsimp only [Frame]
  (repeat' split) <;> simp [hl]

@[simp] theorem State.startChannel_frame {P : List Part} (hl : [.slots, .hallKeys, .vaultRest] ⊆ P) (s : State) (c)
    (slot) (k) : Frame P s (State.startChannel s c slot k) := by
  simp only [List.cons_subset, List.nil_subset, and_true] at hl
  dsimp only [Frame, State.startChannel]
  simp [hl]

@[simp] theorem State.rekeyBegin_frame {P : List Part} (hl : [.slots, .hallKeys, .vaultRest] ⊆ P) (s : State) (h) (c)
    (i) : Frame P s (State.rekeyBegin s h c i) := by
  simp only [List.cons_subset, List.nil_subset, and_true] at hl
  unfold State.rekeyBegin
  dsimp only [Frame]
  (repeat' split) <;> simp [hl]

@[simp] theorem State.takeRekey_frame {P : List Part} (hl : [.slots, .hallKeys, .vaultRest] ⊆ P) (s : State) : Frame P
    s (State.takeRekey s) := by
  simp only [List.cons_subset, List.nil_subset, and_true] at hl
  dsimp only [Frame, State.takeRekey]
  simp [hl]

@[simp] theorem State.giveSlots_frame {P : List Part} (hl : [.segs, .slots, .hallKeys] ⊆ P) (s : State) (h) : Frame P
    s (State.giveSlots s h) := by
  simp only [List.cons_subset, List.nil_subset, and_true] at hl
  dsimp only [Frame, State.giveSlots]
  simp [hl]

@[simp] theorem State.keysRestored_frame {P : List Part} (hl : [.halls, .engines, .ports, .protect, .segs, .xlatRest,
    .slots, .hallKeys, .vaultRest, .faultsRest, .out] ⊆ P) (s : State) (h) : Frame P s (State.keysRestored s h) := by
  simp only [List.cons_subset, List.nil_subset, and_true] at hl
  dsimp only [Frame, State.keysRestored]
  simp [hl]

@[simp] theorem State.installOperator_frame {P : List Part} (hl : [.halls, .engines, .ports, .protect, .segs,
    .xlatRest, .slots, .hallKeys, .vaultRest, .faultsRest, .out] ⊆ P) (s : State) : Frame P s (State.installOperator
    s) := by
  simp only [List.cons_subset, List.nil_subset, and_true] at hl
  unfold State.installOperator
  dsimp only [Frame]
  (repeat' split) <;> simp [hl]

@[simp] theorem State.poisonPort_frame {P : List Part} (hl : [.engines, .ports, .protect, .xlatRest, .links, .out] ⊆
    P) (s : State) (m) : Frame P s (State.poisonPort s m) := by
  simp only [List.cons_subset, List.nil_subset, and_true] at hl
  unfold State.poisonPort
  refine Frame.trans ((State.modMemPort_frame (by simp [hl])) s m _) (forEach_frame _ _ _ ?_)
  intro r t
  split
  · next p tag _ => cases t.dma p tag <;> simp [hl]
  · next p tag _ => cases t.dma p tag <;> simp [hl]
  · rfl

@[simp] theorem State.fenceMemPort_frame {P : List Part} (hl : [.halls, .engines, .ports, .protect, .xlatRest,
    .vaultRest, .links, .units, .faultsRest, .out] ⊆ P) (s : State) (m) (cause) : Frame P s (State.fenceMemPort s m
    cause) := by
  simp only [List.cons_subset, List.nil_subset, and_true] at hl
  dsimp only [Frame, State.fenceMemPort]
  simp [hl]

@[simp] theorem State.noteUe_frame {P : List Part} (hl : [.ports] ⊆ P) (s : State) (m) : Frame P s (State.noteUe s
    m).1 := by
  simp only [List.cons_subset, List.nil_subset, and_true] at hl
  dsimp only [Frame, State.noteUe]
  simp [hl]

@[simp] theorem State.noteUes_frame {P : List Part} (hl : [.ports] ⊆ P) (s : State) (m n) : Frame P s (State.noteUes s
    m n).1 := by
  simp only [List.cons_subset, List.nil_subset, and_true] at hl
  induction n generalizing s with
  | zero => exact Frame.refl s
  | succ n ih => exact Frame.trans (State.noteUe_frame (by simp [hl]) s m) (ih _)

@[simp] theorem State.countUes_frame {P : List Part} (hl : [.halls, .engines, .ports, .protect, .xlatRest, .vaultRest,
    .links, .units, .faultsRest, .out] ⊆ P) (s : State) (m) (n) : Frame P s (State.countUes s m n) := by
  simp only [List.cons_subset, List.nil_subset, and_true] at hl
  dsimp only [Frame, State.countUes]
  simp [hl]

@[simp] theorem State.finishRead_frame {P : List Part} (hl : [.engines, .xlatRest, .out] ⊆ P) (s : State) (p) (tag) :
    Frame P s (State.finishRead s p tag) := by
  simp only [List.cons_subset, List.nil_subset, and_true] at hl
  unfold State.finishRead
  dsimp only [Frame]
  (repeat' split) <;> simp [hl]

@[simp] theorem State.dataUe_frame {P : List Part} (hl : [.faultsRest, .out] ⊆ P) (s : State) (m) (k) : Frame P s
    (State.dataUe s m k) := by
  simp only [List.cons_subset, List.nil_subset, and_true] at hl
  dsimp only [Frame, State.dataUe]
  simp [hl]

@[simp] theorem State.readOutcome_frame {P : List Part} (hl : [.protect, .faultsRest, .out] ⊆ P) (s : State) (m) (k)
    (x) : Frame P s (State.readOutcome s m k x).1 := by
  simp only [List.cons_subset, List.nil_subset, and_true] at hl
  unfold State.readOutcome
  dsimp only [Frame]
  (repeat' split) <;> simp [hl]

@[simp] theorem State.rewriteCorrected_frame {P : List Part} (hl : [.halls, .ports, .xlatRest, .out] ⊆ P) (s : State)
    (h) (set) (n) (k) (raw) : Frame P s (State.rewriteCorrected s h set n k raw) := by
  simp only [List.cons_subset, List.nil_subset, and_true] at hl
  unfold State.rewriteCorrected
  dsimp only [Frame]
  (repeat' split) <;> simp [hl]

@[simp] theorem State.lineArrives_frame {P : List Part} (hl : [.halls, .engines, .ports, .protect, .xlatRest,
    .faultsRest, .out] ⊆ P) (s : State) (p) (tag) (r) (a) (ctr) (raw) : Frame P s (State.lineArrives s p tag r a ctr
    raw) := by
  simp only [List.cons_subset, List.nil_subset, and_true] at hl
  unfold State.lineArrives
  dsimp only [Frame]
  (repeat' split) <;> simp [hl]

@[simp] theorem State.oldOutcome_frame {P : List Part} (hl : [.protect, .faultsRest, .out] ⊆ P) (s : State) (k) (i)
    (x) : Frame P s (State.oldOutcome s k i x).1 := by
  simp only [List.cons_subset, List.nil_subset, and_true] at hl
  unfold State.oldOutcome
  dsimp only [Frame]
  (repeat' split) <;> simp [hl]

@[simp] theorem State.partialArrives_frame {P : List Part} (hl : [.engines, .protect, .faultsRest, .out] ⊆ P) (s :
    State) (p) (tag) (r) (a) (ctr) (raw) : Frame P s (State.partialArrives s p tag r a ctr raw) := by
  simp only [List.cons_subset, List.nil_subset, and_true] at hl
  unfold State.partialArrives
  dsimp only [Frame]
  (repeat' split) <;> simp [hl]

@[simp] theorem State.overflowArrives_frame {P : List Part} (hl : [.halls, .engines, .ports, .protect, .xlatRest,
    .faultsRest, .out] ⊆ P) (s : State) (r) (k) (l) (ctr) (raw) : Frame P s (State.overflowArrives s r k l ctr raw) :=
    by
  simp only [List.cons_subset, List.nil_subset, and_true] at hl
  unfold State.overflowArrives
  dsimp only [Frame]
  generalize openLine _ _ _ _ _ _ = x
  cases x <;> simp [hl]

@[simp] theorem State.deliverLines_frame {P : List Part} (hl : [.halls, .engines, .ports, .protect, .xlatRest,
    .vaultRest, .faultsRest, .out] ⊆ P) (s : State) (r) (lines) : Frame P s (State.deliverLines s r lines) := by
  simp only [List.cons_subset, List.nil_subset, and_true] at hl
  unfold State.deliverLines
  dsimp only [Frame]
  (repeat' split) <;> simp [hl]

@[simp] theorem State.memResponse_frame {P : List Part} (hl : [.halls, .engines, .ports, .protect, .xlatRest,
    .vaultRest, .links, .units, .faultsRest, .out] ⊆ P) (s : State) (m) (tag) (lines) : Frame P s (State.memResponse s
    m tag lines) := by
  simp only [List.cons_subset, List.nil_subset, and_true] at hl
  unfold State.memResponse
  dsimp only [Frame]
  (repeat' split) <;> simp [hl]

@[simp] theorem State.fixNode_frame {P : List Part} (hl : [.halls, .ports, .protect, .xlatRest, .faultsRest, .out] ⊆
    P) (s : State) (r) (level) (i) (parent) (payer) (b) (fixA) (fixB) (repair) : Frame P s (State.fixNode s r level i
    parent payer b fixA fixB repair) := by
  simp only [List.cons_subset, List.nil_subset, and_true] at hl
  dsimp only [Frame, State.fixNode]
  simp [hl]

@[simp] theorem State.takeNode_frame {P : List Part} (hl : [.halls, .ports, .protect, .xlatRest, .vaultRest,
    .faultsRest, .out] ⊆ P) (s : State) (r) (g) (x) : Frame P s (State.takeNode s r g x) := by
  simp only [List.cons_subset, List.nil_subset, and_true] at hl
  unfold State.takeNode
  dsimp only [Frame]
  (repeat' split) <;> simp [hl]

@[simp] theorem State.closeReads_frame {P : List Part} (hl : [.ports] ⊆ P) (s : State) (r) (g) : Frame P s
    (State.closeReads s r g) := by
  simp only [List.cons_subset, List.nil_subset, and_true] at hl
  dsimp only [Frame, State.closeReads]
  simp [hl]

@[simp] theorem State.chainFetched_frame {P : List Part} (hl : [.halls, .engines, .ports, .protect, .xlatRest,
    .vaultRest, .faultsRest, .out] ⊆ P) (s : State) (k) (g) (levels) : Frame P s (State.chainFetched s k g levels) :=
    by
  simp only [List.cons_subset, List.nil_subset, and_true] at hl
  unfold State.chainFetched
  dsimp only [Frame]
  (repeat' split) <;> simp [hl]

@[simp] theorem State.creditReturn_frame {P : List Part} (hl : [.halls, .engines, .ports, .protect, .xlatRest,
    .vaultRest, .links, .units, .faultsRest, .out] ⊆ P) (s : State) (m) (n) : Frame P s (State.creditReturn s m n) :=
    by
  simp only [List.cons_subset, List.nil_subset, and_true] at hl
  dsimp only [Frame, State.creditReturn]
  simp [hl]

@[simp] theorem State.memTimeout_frame {P : List Part} (hl : [.halls, .engines, .ports, .protect, .xlatRest,
    .vaultRest, .links, .units, .faultsRest, .out] ⊆ P) (s : State) (m) : Frame P s (State.memTimeout s m) := by
  simp only [List.cons_subset, List.nil_subset, and_true] at hl
  dsimp only [Frame, State.memTimeout]
  simp [hl]

@[simp] theorem State.wmResponse_frame {P : List Part} (hl : [.halls, .engines, .ports, .protect, .xlatRest,
    .vaultRest, .faultsRest, .out] ⊆ P) (s : State) (data) : Frame P s (State.wmResponse s data) := by
  simp only [List.cons_subset, List.nil_subset, and_true] at hl
  unfold State.wmResponse
  dsimp only [Frame]
  (repeat' split) <;> simp [hl]

@[simp] theorem State.releaseSlot_frame {P : List Part} (hl : [.slots] ⊆ P) (s : State) (slot) : Frame P s
    (State.releaseSlot s slot) := by
  simp only [List.cons_subset, List.nil_subset, and_true] at hl
  dsimp only [Frame, State.releaseSlot]
  simp [hl]

@[simp] theorem State.dropExtent_frame {P : List Part} (hl : [.protect] ⊆ P) (s : State) (set) (x) : Frame P s
    (State.dropExtent s set x) := by
  simp only [List.cons_subset, List.nil_subset, and_true] at hl
  dsimp only [Frame, State.dropExtent]
  simp [hl]

@[simp] theorem State.freeChannel_frame {P : List Part} (hl : [.protect, .vaultRest] ⊆ P) (s : State) (c) (set) (old)
    : Frame P s (State.freeChannel s c set old) := by
  simp only [List.cons_subset, List.nil_subset, and_true] at hl
  dsimp only [Frame, State.freeChannel]
  simp [hl]

@[simp] theorem State.switchRekey_frame {P : List Part} (hl : [.halls, .protect, .segs, .slots, .vaultRest] ⊆ P) (s :
    State) (c) : Frame P s (State.switchRekey s c) := by
  simp only [List.cons_subset, List.nil_subset, and_true] at hl
  dsimp only [Frame, State.switchRekey]
  simp [hl]

@[simp] theorem State.stopRekey_frame {P : List Part} (hl : [.vaultRest] ⊆ P) (s : State) (k) : Frame P s
    (State.stopRekey s k) := by
  simp only [List.cons_subset, List.nil_subset, and_true] at hl
  unfold State.stopRekey
  dsimp only [Frame]
  (repeat' split) <;> simp [hl]

@[simp] theorem State.clearGranules_frame {P : List Part} (hl : [.protect] ⊆ P) (s : State) (k) : Frame P s
    (State.clearGranules s k) := by
  simp only [List.cons_subset, List.nil_subset, and_true] at hl
  dsimp only [Frame, State.clearGranules]
  simp [hl]

@[simp] theorem State.dropTree_frame {P : List Part} (hl : [.protect] ⊆ P) (s : State) (k) : Frame P s (State.dropTree
    s k) := by
  simp only [List.cons_subset, List.nil_subset, and_true] at hl
  dsimp only [Frame, State.dropTree]
  simp [hl]

@[simp] theorem State.endSegment_frame {P : List Part} (hl : [.halls, .protect, .segs, .slots] ⊆ P) (s : State) (k) :
    Frame P s (State.endSegment s k) := by
  simp only [List.cons_subset, List.nil_subset, and_true] at hl
  dsimp only [Frame, State.endSegment]
  simp [hl]

@[simp] theorem State.finishWithdrawSeg_frame {P : List Part} (hl : [.halls, .protect, .segs, .xlatRest, .slots] ⊆ P)
    (s : State) (k) : Frame P s (State.finishWithdrawSeg s k) := by
  simp only [List.cons_subset, List.nil_subset, and_true] at hl
  dsimp only [Frame, State.finishWithdrawSeg]
  simp [hl]

@[simp] theorem State.cancelRekey_frame {P : List Part} (hl : [.protect, .slots, .vaultRest] ⊆ P) (s : State) (c) :
    Frame P s (State.cancelRekey s c) := by
  simp only [List.cons_subset, List.nil_subset, and_true] at hl
  dsimp only [Frame, State.cancelRekey]
  simp [hl]

@[simp] theorem State.zeroiseHall_frame {P : List Part} (hl : [.segs, .slots, .hallKeys] ⊆ P) (s : State) (h) : Frame
    P s (State.zeroiseHall s h) := by
  simp only [List.cons_subset, List.nil_subset, and_true] at hl
  dsimp only [Frame, State.zeroiseHall]
  simp [hl]

@[simp] theorem State.rekeyStart_frame {P : List Part} (hl : [.slots, .hallKeys, .vaultRest] ⊆ P) (s : State) (data) :
    Frame P s (State.rekeyStart s data) := by
  simp only [List.cons_subset, List.nil_subset, and_true] at hl
  dsimp only [Frame, State.rekeyStart]
  simp [hl]

@[simp] theorem State.passGroup_frame {P : List Part} (hl : [.vaultRest] ⊆ P) (s : State) (c) (g) : Frame P s
    (State.passGroup s c g) := by
  simp only [List.cons_subset, List.nil_subset, and_true] at hl
  dsimp only [Frame, State.passGroup]
  simp [hl]

@[simp] theorem State.moveLine_frame {P : List Part} (hl : [.halls, .engines, .ports, .protect, .xlatRest, .vaultRest,
    .links, .units, .faultsRest, .out] ⊆ P) (s : State) (c) (l) (raw) : Frame P s (State.moveLine s c l raw) := by
  simp only [List.cons_subset, List.nil_subset, and_true] at hl
  unfold State.moveLine
  dsimp only [Frame]
  (repeat' split) <;> simp [hl]

@[simp] theorem State.writeThrough_frame {P : List Part} (hl : [.halls, .ports, .protect, .xlatRest, .vaultRest, .out]
    ⊆ P) (s : State) (r) (level) (i) : Frame P s (State.writeThrough s r level i) := by
  simp only [List.cons_subset, List.nil_subset, and_true] at hl
  unfold State.writeThrough
  dsimp only [Frame]
  (repeat' split) <;> simp [hl]

@[simp] theorem State.moveGroup_frame {P : List Part} (hl : [.halls, .engines, .ports, .protect, .xlatRest,
    .vaultRest, .links, .units, .faultsRest, .out] ⊆ P) (s : State) (c) (g) (lines) : Frame P s (State.moveGroup s c g
    lines) := by
  simp only [List.cons_subset, List.nil_subset, and_true] at hl
  dsimp only [Frame, State.moveGroup]
  simp [hl]

@[simp] theorem State.groupMove_frame {P : List Part} (hl : [.halls, .engines, .ports, .protect, .xlatRest,
    .vaultRest, .links, .units, .faultsRest, .out] ⊆ P) (s : State) (c) (lines) : Frame P s (State.groupMove s c
    lines) := by
  simp only [List.cons_subset, List.nil_subset, and_true] at hl
  dsimp only [Frame, State.groupMove]
  simp [hl]

@[simp] theorem State.landed_frame {P : List Part} (hl : [.vaultRest] ⊆ P) (s : State) (c) : Frame P s (State.landed s
    c) := by
  simp only [List.cons_subset, List.nil_subset, and_true] at hl
  dsimp only [Frame, State.landed]
  simp [hl]

@[simp] theorem State.groupComplete_frame {P : List Part} (hl : [.halls, .engines, .ports, .protect, .xlatRest,
    .vaultRest, .faultsRest, .out] ⊆ P) (s : State) (c) : Frame P s (State.groupComplete s c) := by
  simp only [List.cons_subset, List.nil_subset, and_true] at hl
  unfold State.groupComplete
  dsimp only [Frame]
  (repeat' split) <;> simp [hl]

@[simp] theorem State.zeroiseEntry_frame {P : List Part} (hl : [.hallKeys, .links, .groups] ⊆ P) (s : State) (x1) :
    Frame P s (State.zeroiseEntry s x1) := by
  simp only [List.cons_subset, List.nil_subset, and_true] at hl
  unfold State.zeroiseEntry
  dsimp only [Frame]
  (repeat' split) <;> simp [hl]

@[simp] theorem State.installHall_frame {P : List Part} (hl : [.hallKeys] ⊆ P) (s : State) (h) (secret) (host) : Frame
    P s (State.installHall s h secret host) := by
  simp only [List.cons_subset, List.nil_subset, and_true] at hl
  dsimp only [Frame, State.installHall]
  simp [hl]

end Sys2Proof.Machine
end

