-- ==== Sys2Proof/Laws/FrameHost.lean ====
section
/-! SUPPORT. What the operations of the host port and address translation can change: one lemma per operation, which
    names the parts of the state that it can write; every other part is as it was. -/

namespace Sys2Proof.Machine

open Sys2Proof.Safety

@[simp] theorem State.askAts_frame {P : List Part} (hl : [.xlatRest, .out] ⊆ P) (s : State) (w) : Frame P s
    (State.askAts s w) := by
  simp only [List.cons_subset, List.nil_subset, and_true] at hl
  unfold State.askAts
  dsimp only [Frame]
  (repeat' split) <;> simp [hl]

@[simp] theorem State.missHost_frame {P : List Part} (hl : [.halls, .engines, .xlatRest, .out] ⊆ P) (s : State) (p)
    (d) (page) : Frame P s (State.missHost s p d page) := by
  simp only [List.cons_subset, List.nil_subset, and_true] at hl
  dsimp only [Frame, State.missHost]
  simp [hl]

@[simp] theorem State.takePages_frame {P : List Part} (hl : [.xlatRest] ⊆ P) (s : State) (d) : Frame P s
    (State.takePages s d).1 := by
  simp only [List.cons_subset, List.nil_subset, and_true] at hl
  dsimp only [Frame, State.takePages]
  simp [hl]

@[simp] theorem State.issueReads_frame {P : List Part} (hl : [.engines, .xlatRest, .out] ⊆ P) (s : State) (p) (d) :
    Frame P s (State.issueReads s p d) := by
  simp only [List.cons_subset, List.nil_subset, and_true] at hl
  dsimp only [Frame, State.issueReads]
  simp [hl]

@[simp] theorem State.hostSend_frame {P : List Part} (hl : [.out] ⊆ P) (s : State) (h) (addr) (bytes) : Frame P s
    (State.hostSend s h addr bytes) := by
  simp only [List.cons_subset, List.nil_subset, and_true] at hl
  dsimp only [Frame, State.hostSend]
  simp [hl]

@[simp] theorem State.sealSector_frame {P : List Part} (hl : [.hallKeys, .out] ⊆ P) (s : State) (d) (j) (data) : Frame
    P s (State.sealSector s d j data).1 := by
  simp only [List.cons_subset, List.nil_subset, and_true] at hl
  unfold State.sealSector
  dsimp only [Frame]
  (repeat' split) <;> simp [hl]

@[simp] theorem sealSectors_frame {P : List Part} (hl : [.hallKeys, .out] ⊆ P) (d l) (s : State) : Frame P s
    (sealSectors d l s).1 := by
  simp only [List.cons_subset, List.nil_subset, and_true] at hl
  induction l generalizing s with
  | nil => exact Frame.refl s
  | cons x rest ih =>
    unfold sealSectors
    split
    · rename_i e
      have k := congrArg Prod.fst e
      dsimp only at k
      exact Frame.trans (by simp [hl, Frame, ← k]) (ih _)
    · rename_i e
      have k := congrArg Prod.fst e
      dsimp only at k
      dsimp only [Frame]
      simp [hl, ← k]

@[simp] theorem State.issueHost_frame {P : List Part} (hl : [.engines, .xlatRest, .hallKeys, .out] ⊆ P) (s : State)
    (p) (d) : Frame P s (State.issueHost s p d) := by
  simp only [List.cons_subset, List.nil_subset, and_true] at hl
  dsimp only [Frame, State.issueHost]
  simp [hl]

@[simp] theorem State.runHost_frame {P : List Part} (hl : [.halls, .engines, .xlatRest, .hallKeys, .out] ⊆ P) (s :
    State) (p) (tag) : Frame P s (State.runHost s p tag) := by
  simp only [List.cons_subset, List.nil_subset, and_true] at hl
  unfold State.runHost
  dsimp only [Frame]
  (repeat' split) <;> simp [hl]

@[simp] theorem State.startHost_frame {P : List Part} (hl : [.halls, .engines, .xlatRest, .hallKeys, .out] ⊆ P) (s :
    State) (p) (d) : Frame P s (State.startHost s p d) := by
  simp only [List.cons_subset, List.nil_subset, and_true] at hl
  dsimp only [Frame, State.startHost]
  simp [hl]

@[simp] theorem State.functionReset_frame {P : List Part} (hl : [.funcs, .queues, .engines, .ports, .protect,
    .xlatRest, .links, .out] ⊆ P) (s : State) (f) : Frame P s (State.functionReset s f) := by
  simp only [List.cons_subset, List.nil_subset, and_true] at hl
  unfold State.functionReset
  dsimp only [Frame]
  (repeat' split) <;> simp [hl]

@[simp] theorem State.wakeHost_frame {P : List Part} (hl : [.halls, .engines, .xlatRest, .hallKeys, .out] ⊆ P) (s :
    State) : Frame P s (State.wakeHost s) := by
  simp only [List.cons_subset, List.nil_subset, and_true] at hl
  dsimp only [Frame, State.wakeHost]
  simp [hl]

@[simp] theorem State.fillHtc_frame {P : List Part} (hl : [.xlatRest] ⊆ P) (s : State) (e) : Frame P s (State.fillHtc
    s e) := by
  simp only [List.cons_subset, List.nil_subset, and_true] at hl
  dsimp only [Frame, State.fillHtc]
  simp [hl]

@[simp] theorem State.refuseWaiters_frame {P : List Part} (hl : [.engines, .xlatRest, .out] ⊆ P) (s : State) (ws) :
    Frame P s (State.refuseWaiters s ws) := by
  simp only [List.cons_subset, List.nil_subset, and_true] at hl
  unfold State.refuseWaiters
  refine forEach_frame _ _ _ ?_
  intro x t
  cases t.dma x.1 x.2 <;> simp [hl]

@[simp] theorem State.askPage_frame {P : List Part} (hl : [.funcs, .engines, .xlatRest, .out] ⊆ P) (s : State) (w) :
    Frame P s (State.askPage s w) := by
  simp only [List.cons_subset, List.nil_subset, and_true] at hl
  dsimp only [Frame, State.askPage]
  simp [hl]

@[simp] theorem State.pageReady_frame {P : List Part} (hl : [.halls, .engines, .xlatRest, .hallKeys, .out] ⊆ P) (s :
    State) (x) (page) (host) : Frame P s (State.pageReady s x page host) := by
  simp only [List.cons_subset, List.nil_subset, and_true] at hl
  dsimp only [Frame, State.pageReady]
  simp [hl]

@[simp] theorem State.translationCame_frame {P : List Part} (hl : [.halls, .funcs, .engines, .xlatRest, .hallKeys,
    .out] ⊆ P) (s : State) (w) (sizeLog2) (host) (rd) (wr) : Frame P s (State.translationCame s w sizeLog2 host rd wr)
    := by
  simp only [List.cons_subset, List.nil_subset, and_true] at hl
  dsimp only [Frame, State.translationCame]
  simp [hl]

@[simp] theorem State.atsCompletion_frame {P : List Part} (hl : [.halls, .funcs, .engines, .xlatRest, .hallKeys, .out]
    ⊆ P) (s : State) (f) (pasid) (page) (sizeLog2) (host) (rd) (wr) : Frame P s (State.atsCompletion s f pasid page
    sizeLog2 host rd wr) := by
  simp only [List.cons_subset, List.nil_subset, and_true] at hl
  unfold State.atsCompletion
  dsimp only [Frame]
  (repeat' split) <;> simp [hl]

@[simp] theorem State.pageRequestEnded_frame {P : List Part} (hl : [.funcs, .engines, .xlatRest, .out] ⊆ P) (s :
    State) (f) : Frame P s (State.pageRequestEnded s f) := by
  simp only [List.cons_subset, List.nil_subset, and_true] at hl
  unfold State.pageRequestEnded
  dsimp only [Frame]
  (repeat' split) <;> simp [hl]

@[simp] theorem State.pageFailure_frame {P : List Part} (hl : [.funcs, .engines, .xlatRest, .faultsRest, .out] ⊆ P) (s
    : State) (f) : Frame P s (State.pageFailure s f) := by
  simp only [List.cons_subset, List.nil_subset, and_true] at hl
  dsimp only [Frame, State.pageFailure]
  simp [hl]

@[simp] theorem State.prgResponse_frame {P : List Part} (hl : [.funcs, .engines, .xlatRest, .faultsRest, .out] ⊆ P) (s
    : State) (f) (pasid) (page) (code) : Frame P s (State.prgResponse s f pasid page code) := by
  simp only [List.cons_subset, List.nil_subset, and_true] at hl
  unfold State.prgResponse
  dsimp only [Frame]
  (repeat' split) <;> simp [hl]

@[simp] theorem State.atsInvalidate_frame {P : List Part} (hl : [.funcs, .engines, .xlatRest] ⊆ P) (s : State) (f
    pasid page sizeLog2) : Frame P s (State.atsInvalidate s f pasid page sizeLog2) := by
  simp only [List.cons_subset, List.nil_subset, and_true] at hl
  unfold State.atsInvalidate
  split
  · exact Frame.refl s
  · refine Frame.trans ?_ (State.modFunc_frame (by simp [hl]) _ _ _)
    simp [hl, Frame, without]

@[simp] theorem State.invalidateDone_frame {P : List Part} (hl : [.funcs, .out] ⊆ P) (s : State) (f) : Frame P s
    (State.invalidateDone s f) := by
  simp only [List.cons_subset, List.nil_subset, and_true] at hl
  unfold State.invalidateDone
  dsimp only [Frame]
  (repeat' split) <;> simp [hl]

@[simp] theorem State.dropHostRead_frame {P : List Part} (hl : [.funcs, .xlatRest] ⊆ P) (s : State) (r) : Frame P s
    (State.dropHostRead s r) := by
  simp only [List.cons_subset, List.nil_subset, and_true] at hl
  dsimp only [Frame, State.dropHostRead]
  simp [hl]

@[simp] theorem State.takeSectors_frame {P : List Part} (hl : [.engines, .xlatRest, .hallKeys, .faultsRest, .out] ⊆ P)
    (s : State) (r) (d) (xs) : Frame P s (State.takeSectors s r d xs) := by
  simp only [List.cons_subset, List.nil_subset, and_true] at hl
  dsimp only [Frame, State.takeSectors]
  simp [hl]

@[simp] theorem State.hostReadDone_frame {P : List Part} (hl : [.halls, .funcs, .engines, .xlatRest, .hallKeys,
    .faultsRest, .out] ⊆ P) (s : State) (id) (xs) : Frame P s (State.hostReadDone s id xs) := by
  simp only [List.cons_subset, List.nil_subset, and_true] at hl
  unfold State.hostReadDone
  dsimp only [Frame]
  (repeat' split) <;> simp [hl]

end Sys2Proof.Machine
end

