-- ==== Sys2Proof/Laws/FrameLinks.lean ====
section
/-! SUPPORT. What the operations of the links and the remote windows can change: one lemma per operation, which names
    the parts of the state that it can write; every other part is as it was. -/

namespace Sys2Proof.Machine

open Sys2Proof.Safety

@[simp] theorem State.queueFrame_frame {P : List Part} (hl : [.links] ⊆ P) (s : State) (n) (h) (vc) (hdr) (body) :
    Frame P s (State.queueFrame s n h vc hdr body) := by
  simp only [List.cons_subset, List.nil_subset, and_true] at hl
  dsimp only [Frame, State.queueFrame]
  simp [hl]

@[simp] theorem State.signalFrame_frame {P : List Part} (hl : [.links] ⊆ P) (s : State) (n) (h) (rest) (body) : Frame
    P s (State.signalFrame s n h rest body) := by
  simp only [List.cons_subset, List.nil_subset, and_true] at hl
  dsimp only [Frame, State.signalFrame]
  simp [hl]

@[simp] theorem State.sendGrant_frame {P : List Part} (hl : [.links] ⊆ P) (s : State) (r) (o) (k) (value) : Frame P s
    (State.sendGrant s r o k value) := by
  simp only [List.cons_subset, List.nil_subset, and_true] at hl
  dsimp only [Frame, State.sendGrant]
  simp [hl]

@[simp] theorem State.releaseTiles_frame {P : List Part} (hl : [.reduce] ⊆ P) (s : State) (g) (o) (l) : Frame P s
    (State.releaseTiles s g o l) := by
  simp only [List.cons_subset, List.nil_subset, and_true] at hl
  dsimp only [Frame, State.releaseTiles]
  simp [hl]

@[simp] theorem State.endOp_frame {P : List Part} (hl : [.halls, .queues, .fences, .xlatRest, .groups, .reduce] ⊆ P)
    (s : State) (g) (o) (st) : Frame P s (State.endOp s g o st) := by
  simp only [List.cons_subset, List.nil_subset, and_true] at hl
  dsimp only [Frame, State.endOp]
  simp [hl]

@[simp] theorem State.claimTiles_frame {P : List Part} (hl : [.reduce] ⊆ P) (s : State) (g) (o) (window) (flights)
    (tiles) : Frame P s (State.claimTiles s g o window flights tiles) := by
  simp only [List.cons_subset, List.nil_subset, and_true] at hl
  dsimp only [Frame, State.claimTiles]
  simp [hl]

@[simp] theorem State.spendAdders_frame {P : List Part} (hl : [.halls, .reduce] ⊆ P) (s : State) (h) (n) : Frame P s
    (State.spendAdders s h n) := by
  simp only [List.cons_subset, List.nil_subset, and_true] at hl
  dsimp only [Frame, State.spendAdders]
  simp [hl]

@[simp] theorem State.sendEnd_frame {P : List Part} (hl : [.links] ⊆ P) (s : State) (r) (ports) : Frame P s
    (State.sendEnd s r ports) := by
  simp only [List.cons_subset, List.nil_subset, and_true] at hl
  dsimp only [Frame, State.sendEnd]
  simp [hl]

@[simp] theorem State.faultGroup_frame {P : List Part} (hl : [.halls, .queues, .fences, .xlatRest, .groups, .reduce,
    .faultsRest, .out] ⊆ P) (s : State) (r) (st) : Frame P s (State.faultGroup s r st) := by
  simp only [List.cons_subset, List.nil_subset, and_true] at hl
  dsimp only [Frame, State.faultGroup]
  simp [hl]

@[simp] theorem State.failGroup_frame {P : List Part} (hl : [.halls, .queues, .fences, .xlatRest, .links, .groups,
    .reduce, .faultsRest, .out] ⊆ P) (s : State) (g) (st) : Frame P s (State.failGroup s g st) := by
  simp only [List.cons_subset, List.nil_subset, and_true] at hl
  unfold State.failGroup
  dsimp only [Frame]
  (repeat' split) <;> simp [hl]

@[simp] theorem State.ringLost_frame {P : List Part} (hl : [.halls, .queues, .fences, .xlatRest, .links, .groups,
    .reduce, .faultsRest, .out] ⊆ P) (s : State) (n) : Frame P s (State.ringLost s n) := by
  simp only [List.cons_subset, List.nil_subset, and_true] at hl
  dsimp only [Frame, State.ringLost]
  simp [hl]

@[simp] theorem State.leaveGroup_frame {P : List Part} (hl : [.halls, .queues, .fences, .xlatRest, .links, .groups,
    .reduce, .faultsRest, .out] ⊆ P) (s : State) (g) : Frame P s (State.leaveGroup s g) := by
  simp only [List.cons_subset, List.nil_subset, and_true] at hl
  dsimp only [Frame, State.leaveGroup]
  simp [hl]

@[simp] theorem State.spreadSlots_frame {P : List Part} (hl : [.reduce] ⊆ P) (s : State) : Frame P s
    (State.spreadSlots s) := by
  simp only [List.cons_subset, List.nil_subset, and_true] at hl
  dsimp only [Frame, State.spreadSlots]
  simp [hl]

@[simp] theorem State.queueRun_frame {P : List Part} (hl : [.links] ⊆ P) (s : State) (n) (h) (vc) (kind) (rest) (body)
    : Frame P s (State.queueRun s n h vc kind rest body) := by
  simp only [List.cons_subset, List.nil_subset, and_true] at hl
  dsimp only [Frame, State.queueRun]
  simp [hl]

@[simp] theorem State.queueReq_frame {P : List Part} (hl : [.links] ⊆ P) (s : State) (n) (r) : Frame P s
    (State.queueReq s n r) := by
  simp only [List.cons_subset, List.nil_subset, and_true] at hl
  dsimp only [Frame, State.queueReq]
  simp [hl]

@[simp] theorem State.numberReq_frame {P : List Part} (hl : [.links] ⊆ P) (s : State) (n) (r) : Frame P s
    (State.numberReq s n r) := by
  simp only [List.cons_subset, List.nil_subset, and_true] at hl
  unfold State.numberReq
  dsimp only [Frame]
  (repeat' split) <;> simp [hl]

@[simp] theorem State.numberPending_frame {P : List Part} (hl : [.links] ⊆ P) (s : State) (n) : Frame P s
    (State.numberPending s n) := by
  simp only [List.cons_subset, List.nil_subset, and_true] at hl
  dsimp only [Frame, State.numberPending]
  simp [hl]

@[simp] theorem State.failReq_frame {P : List Part} (hl : [.engines, .xlatRest, .out] ⊆ P) (s : State) (r) : Frame P s
    (State.failReq s r) := by
  simp only [List.cons_subset, List.nil_subset, and_true] at hl
  unfold State.failReq
  split
  · simp [hl, Frame]
  · cases s.dma r.port r.tag <;> simp [hl, Frame]

@[simp] theorem State.failReqs_frame {P : List Part} (hl : [.engines, .xlatRest, .links, .out] ⊆ P) (s : State) (n) :
    Frame P s (State.failReqs s n) := by
  simp only [List.cons_subset, List.nil_subset, and_true] at hl
  dsimp only [Frame, State.failReqs]
  simp [hl]

@[simp] theorem State.loseLink_frame {P : List Part} (hl : [.halls, .queues, .fences, .engines, .xlatRest, .links,
    .groups, .reduce, .faultsRest, .gallery, .out] ⊆ P) (s : State) (n) : Frame P s (State.loseLink s n) := by
  simp only [List.cons_subset, List.nil_subset, and_true] at hl
  dsimp only [Frame, State.loseLink]
  simp [hl]

@[simp] theorem State.startEstablish_frame {P : List Part} (hl : [.halls, .queues, .fences, .engines, .xlatRest,
    .links, .groups, .reduce, .faultsRest, .gallery, .out] ⊆ P) (s : State) (n) : Frame P s (State.startEstablish s n)
    := by
  simp only [List.cons_subset, List.nil_subset, and_true] at hl
  dsimp only [Frame, State.startEstablish]
  simp [hl]

@[simp] theorem State.writeMade_frame {P : List Part} (hl : [.queues, .xlatRest] ⊆ P) (s : State) (id) : Frame P s
    (State.writeMade s id) := by
  simp only [List.cons_subset, List.nil_subset, and_true] at hl
  unfold State.writeMade
  dsimp only [Frame]
  (repeat' split) <;> simp [hl]

@[simp] theorem State.makeWrite_frame {P : List Part} (hl : [.halls, .engines, .ports, .protect, .xlatRest, .hallKeys,
    .vaultRest, .faultsRest, .out] ⊆ P) (s : State) (w) : Frame P s (State.makeWrite s w) := by
  simp only [List.cons_subset, List.nil_subset, and_true] at hl
  unfold State.makeWrite
  dsimp only [Frame]
  (repeat' split) <;> simp [hl]

@[simp] theorem State.startWrite_frame {P : List Part} (hl : [.halls, .queues, .engines, .ports, .protect, .xlatRest,
    .hallKeys, .vaultRest, .faultsRest, .out] ⊆ P) (s : State) (w) : Frame P s (State.startWrite s w) := by
  simp only [List.cons_subset, List.nil_subset, and_true] at hl
  dsimp only [Frame, State.startWrite]
  simp [hl]

@[simp] theorem State.startWrites_frame {P : List Part} (hl : [.halls, .queues, .engines, .ports, .protect, .xlatRest,
    .hallKeys, .vaultRest, .faultsRest, .out] ⊆ P) (s : State) : Frame P s (State.startWrites s) := by
  simp only [List.cons_subset, List.nil_subset, and_true] at hl
  dsimp only [Frame, State.startWrites]
  simp [hl]

@[simp] theorem State.answer_frame {P : List Part} (hl : [.links] ⊆ P) (s : State) (n) (h) (st) (data) : Frame P s
    (State.answer s n h st data) := by
  simp only [List.cons_subset, List.nil_subset, and_true] at hl
  dsimp only [Frame, State.answer]
  simp [hl]

@[simp] theorem State.innerDone_frame {P : List Part} (hl : [.links] ⊆ P) (s : State) (n) (tag) (st) (lines) : Frame P
    s (State.innerDone s n tag st lines) := by
  simp only [List.cons_subset, List.nil_subset, and_true] at hl
  unfold State.innerDone
  dsimp only [Frame]
  (repeat' split) <;> simp [hl]

@[simp] theorem State.finishMigrate_frame {P : List Part} (hl : [.planRest, .halls, .queues, .xlatRest, .commit] ⊆ P)
    (s : State) (m) (st) : Frame P s (State.finishMigrate s m st) := by
  simp only [List.cons_subset, List.nil_subset, and_true] at hl
  dsimp only [Frame, State.finishMigrate]
  simp [hl]

@[simp] theorem State.migrateHost_frame {P : List Part} (hl : [.halls, .engines, .xlatRest, .hallKeys, .out] ⊆ P) (s :
    State) (m) (page) (va) (write) (lines) : Frame P s (State.migrateHost s m page va write lines) := by
  simp only [List.cons_subset, List.nil_subset, and_true] at hl
  dsimp only [Frame, State.migrateHost]
  simp [hl]

@[simp] theorem State.migrateLink_frame {P : List Part} (hl : [.engines, .xlatRest, .links, .out] ⊆ P) (s : State) (m)
    (page) (offset) (write) (lines) : Frame P s (State.migrateLink s m page offset write lines) := by
  simp only [List.cons_subset, List.nil_subset, and_true] at hl
  dsimp only [Frame, State.migrateLink]
  simp [hl]

@[simp] theorem State.migrateSeg_frame {P : List Part} (hl : [.halls, .engines, .ports, .protect, .xlatRest,
    .vaultRest, .faultsRest, .out] ⊆ P) (s : State) (m) (page) (va) (write) (lines) : Frame P s (State.migrateSeg s m
    page va write lines) := by
  simp only [List.cons_subset, List.nil_subset, and_true] at hl
  unfold State.migrateSeg
  dsimp only [Frame]
  (repeat' split) <;> simp [hl]

@[simp] theorem State.beginPage_frame {P : List Part} (hl : [.halls, .engines, .ports, .protect, .xlatRest, .hallKeys,
    .vaultRest, .links, .faultsRest, .out] ⊆ P) (s : State) (m) (page) : Frame P s (State.beginPage s m page) := by
  simp only [List.cons_subset, List.nil_subset, and_true] at hl
  unfold State.beginPage
  dsimp only [Frame]
  (repeat' split) <;> simp [hl]

@[simp] theorem State.modMigration_frame {P : List Part} (hl : [.xlatRest] ⊆ P) (s : State) (h) (q) (f) : Frame P s
    (State.modMigration s h q f) := by
  simp only [List.cons_subset, List.nil_subset, and_true] at hl
  dsimp only [Frame, State.modMigration]
  simp [hl]

@[simp] theorem pumpMigrate_frame {P : List Part} (hl : [.planRest, .halls, .queues, .engines, .ports, .protect,
    .xlatRest, .hallKeys, .vaultRest, .links, .commit, .faultsRest, .out] ⊆ P) (h q n) (s : State) : Frame P s
    (pumpMigrate h q n s) := by
  simp only [List.cons_subset, List.nil_subset, and_true] at hl
  induction n generalizing s with
  | zero => exact Frame.refl s
  | succ n ih =>
    unfold pumpMigrate
    (repeat' split)
    all_goals first
      | exact Frame.refl s
      | (simp [hl, Frame]; done)
      | (refine Frame.trans ?_ (ih _); simp [hl, Frame])

@[simp] theorem State.writePage_frame {P : List Part} (hl : [.halls, .engines, .ports, .protect, .xlatRest, .hallKeys,
    .vaultRest, .links, .faultsRest, .out] ⊆ P) (s : State) (m) (page) (lines) : Frame P s (State.writePage s m page
    lines) := by
  simp only [List.cons_subset, List.nil_subset, and_true] at hl
  unfold State.writePage
  dsimp only [Frame]
  (repeat' split) <;> simp [hl]

@[simp] theorem State.migrateServed_frame {P : List Part} (hl : [.planRest, .halls, .queues, .engines, .ports,
    .protect, .xlatRest, .hallKeys, .vaultRest, .links, .commit, .faultsRest, .out] ⊆ P) (s : State) (h) (q) (page)
    (write) (st) (lines) : Frame P s (State.migrateServed s h q page write st lines) := by
  simp only [List.cons_subset, List.nil_subset, and_true] at hl
  unfold State.migrateServed
  dsimp only [Frame]
  (repeat' split) <;> simp [hl]

@[simp] theorem State.handOn_frame {P : List Part} (hl : [.planRest, .halls, .queues, .engines, .ports, .protect,
    .xlatRest, .hallKeys, .vaultRest, .links, .commit, .faultsRest, .out] ⊆ P) (s : State) (p) (tag) (write) (st)
    (lines) : Frame P s (State.handOn s p tag write st lines) := by
  simp only [List.cons_subset, List.nil_subset, and_true] at hl
  dsimp only [Frame, State.handOn]
  simp [hl]

@[simp] theorem drainLoop_frame {P : List Part} (hl : [.planRest, .halls, .queues, .engines, .ports, .protect,
    .xlatRest, .hallKeys, .vaultRest, .links, .commit, .faultsRest, .out] ⊆ P) (n) (s : State) : Frame P s (drainLoop
    n s) := by
  simp only [List.cons_subset, List.nil_subset, and_true] at hl
  induction n generalizing s with
  | zero => exact Frame.refl s
  | succ n ih =>
    unfold drainLoop
    split
    · exact Frame.refl s
    · refine Frame.trans ?_ (ih _)
      simp [hl, Frame]

@[simp] theorem State.drainServed_frame {P : List Part} (hl : [.planRest, .halls, .queues, .fences, .engines, .ports,
    .protect, .xlatRest, .hallKeys, .vaultRest, .links, .commit, .faultsRest, .out] ⊆ P) (s : State) : Frame P s
    (State.drainServed s) := by
  simp only [List.cons_subset, List.nil_subset, and_true] at hl
  dsimp only [Frame, State.drainServed]
  simp [hl]

@[simp] theorem State.startWindow_frame {P : List Part} (hl : [.engines, .xlatRest, .links, .out] ⊆ P) (s : State) (p)
    (d) : Frame P s (State.startWindow s p d) := by
  simp only [List.cons_subset, List.nil_subset, and_true] at hl
  dsimp only [Frame, State.startWindow]
  simp [hl]

@[simp] theorem State.linkCreditReturn_frame {P : List Part} (hl : [.links] ⊆ P) (s : State) (n) (vc) : Frame P s
    (State.linkCreditReturn s n vc) := by
  simp only [List.cons_subset, List.nil_subset, and_true] at hl
  dsimp only [Frame, State.linkCreditReturn]
  simp [hl]

@[simp] theorem State.sealFrame_frame {P : List Part} (hl : [.links, .out] ⊆ P) (s : State) (n) (f) : Frame P s
    (State.sealFrame s n f) := by
  simp only [List.cons_subset, List.nil_subset, and_true] at hl
  dsimp only [Frame, State.sealFrame]
  simp [hl]

@[simp] theorem State.finishRotation_frame {P : List Part} (hl : [.links] ⊆ P) (s : State) (n) : Frame P s
    (State.finishRotation s n) := by
  simp only [List.cons_subset, List.nil_subset, and_true] at hl
  dsimp only [Frame, State.finishRotation]
  simp [hl]

@[simp] theorem State.sendUrgent_frame {P : List Part} (hl : [.links, .out] ⊆ P) (s : State) (n) (f) : Frame P s
    (State.sendUrgent s n f) := by
  simp only [List.cons_subset, List.nil_subset, and_true] at hl
  dsimp only [Frame, State.sendUrgent]
  simp [hl]

@[simp] theorem State.startClock_frame {P : List Part} (hl : [.links] ⊆ P) (s : State) (n) (hdr) : Frame P s
    (State.startClock s n hdr) := by
  simp only [List.cons_subset, List.nil_subset, and_true] at hl
  dsimp only [Frame, State.startClock]
  simp [hl]

@[simp] theorem State.sendFrame_frame {P : List Part} (hl : [.halls, .links, .out] ⊆ P) (s : State) (n) (f) : Frame P
    s (State.sendFrame s n f) := by
  simp only [List.cons_subset, List.nil_subset, and_true] at hl
  dsimp only [Frame, State.sendFrame]
  simp [hl]

@[simp] theorem State.frameTime_frame {P : List Part} (hl : [.halls, .links, .out] ⊆ P) (s : State) (n) : Frame P s
    (State.frameTime s n) := by
  simp only [List.cons_subset, List.nil_subset, and_true] at hl
  unfold State.frameTime
  dsimp only [Frame]
  (repeat' split) <;> simp [hl]

@[simp] theorem State.performIn_frame {P : List Part} (hl : [.halls, .engines, .ports, .protect, .xlatRest,
    .vaultRest, .links, .faultsRest, .out] ⊆ P) (s : State) (n) (h) (data) : Frame P s (State.performIn s n h data) :=
    by
  simp only [List.cons_subset, List.nil_subset, and_true] at hl
  unfold State.performIn
  dsimp only [Frame]
  (repeat' split) <;> simp [hl]

@[simp] theorem State.inFragment_frame {P : List Part} (hl : [.halls, .engines, .ports, .protect, .xlatRest,
    .vaultRest, .links, .faultsRest, .out] ⊆ P) (s : State) (n) (h) (body) : Frame P s (State.inFragment s n h body)
    := by
  simp only [List.cons_subset, List.nil_subset, and_true] at hl
  dsimp only [Frame, State.inFragment]
  simp [hl]

@[simp] theorem State.lateReply_frame {P : List Part} (hl : [.links] ⊆ P) (s : State) (n) (copy) (h) : Frame P s
    (State.lateReply s n copy h) := by
  simp only [List.cons_subset, List.nil_subset, and_true] at hl
  dsimp only [Frame, State.lateReply]
  simp [hl]

@[simp] theorem State.collect_frame {P : List Part} (hl : [.links] ⊆ P) (s : State) (n) (r) (body) : Frame P s
    (State.collect s n r body).1 := by
  simp only [List.cons_subset, List.nil_subset, and_true] at hl
  dsimp only [Frame, State.collect]
  simp [hl]

@[simp] theorem State.deliverBytes_frame {P : List Part} (hl : [.engines, .xlatRest, .out] ⊆ P) (s : State) (p) (tag)
    (b) (st) : Frame P s (State.deliverBytes s p tag b st) := by
  simp only [List.cons_subset, List.nil_subset, and_true] at hl
  unfold State.deliverBytes
  dsimp only [Frame]
  (repeat' split) <;> simp [hl]

@[simp] theorem State.noteRefusal_frame {P : List Part} (hl : [.faultsRest, .out] ⊆ P) (s : State) (r) (st) : Frame P
    s (State.noteRefusal s r st) := by
  simp only [List.cons_subset, List.nil_subset, and_true] at hl
  dsimp only [Frame, State.noteRefusal]
  simp [hl]

@[simp] theorem State.endReq_frame {P : List Part} (hl : [.links] ⊆ P) (s : State) (n) (r) : Frame P s (State.endReq s
    n r) := by
  simp only [List.cons_subset, List.nil_subset, and_true] at hl
  unfold State.endReq
  dsimp only [Frame]
  (repeat' split) <;> simp [hl]

@[simp] theorem State.winReply_frame {P : List Part} (hl : [.engines, .xlatRest, .links, .faultsRest, .out] ⊆ P) (s :
    State) (n) (h) (body) : Frame P s (State.winReply s n h body) := by
  simp only [List.cons_subset, List.nil_subset, and_true] at hl
  unfold State.winReply
  dsimp only [Frame]
  (repeat' split) <;> simp [hl]

@[simp] theorem State.pageServed_frame {P : List Part} (hl : [.xlatRest] ⊆ P) (s : State) (r) (st) (lines) : Frame P s
    (State.pageServed s r st lines) := by
  simp only [List.cons_subset, List.nil_subset, and_true] at hl
  dsimp only [Frame, State.pageServed]
  simp [hl]

@[simp] theorem State.copyAck_frame {P : List Part} (hl : [.xlatRest, .links, .faultsRest, .out] ⊆ P) (s : State) (n)
    (h) : Frame P s (State.copyAck s n h) := by
  simp only [List.cons_subset, List.nil_subset, and_true] at hl
  unfold State.copyAck
  dsimp only [Frame]
  (repeat' split) <;> simp [hl]

@[simp] theorem State.copyData_frame {P : List Part} (hl : [.xlatRest, .links, .faultsRest, .out] ⊆ P) (s : State) (n)
    (h) (body) : Frame P s (State.copyData s n h body) := by
  simp only [List.cons_subset, List.nil_subset, and_true] at hl
  unfold State.copyData
  dsimp only [Frame]
  (repeat' split) <;> simp [hl]

@[simp] theorem State.frameCredit_frame {P : List Part} (hl : [.out] ⊆ P) (s : State) (n) (vc) : Frame P s
    (State.frameCredit s n vc) := by
  simp only [List.cons_subset, List.nil_subset, and_true] at hl
  dsimp only [Frame, State.frameCredit]
  simp [hl]

@[simp] theorem State.lanesBack_frame {P : List Part} (hl : [.units, .faultsRest] ⊆ P) (s : State) (n) : Frame P s
    (State.lanesBack s n) := by
  simp only [List.cons_subset, List.nil_subset, and_true] at hl
  dsimp only [Frame, State.lanesBack]
  simp [hl]

@[simp] theorem State.widthChange_frame {P : List Part} (hl : [.links, .units, .faultsRest, .out] ⊆ P) (s : State) (n)
    (lanes) : Frame P s (State.widthChange s n lanes) := by
  simp only [List.cons_subset, List.nil_subset, and_true] at hl
  dsimp only [Frame, State.widthChange]
  simp [hl]

@[simp] theorem State.failPending_frame {P : List Part} (hl : [.engines, .xlatRest, .links, .out] ⊆ P) (s : State) (n)
    : Frame P s (State.failPending s n) := by
  simp only [List.cons_subset, List.nil_subset, and_true] at hl
  dsimp only [Frame, State.failPending]
  simp [hl]

@[simp] theorem State.fenceLink_frame {P : List Part} (hl : [.halls, .queues, .fences, .engines, .xlatRest, .links,
    .groups, .reduce, .units, .faultsRest, .gallery, .out] ⊆ P) (s : State) (n) (cause) : Frame P s (State.fenceLink s
    n cause) := by
  simp only [List.cons_subset, List.nil_subset, and_true] at hl
  dsimp only [Frame, State.fenceLink]
  simp [hl]

@[simp] theorem State.downTimeout_frame {P : List Part} (hl : [.halls, .queues, .fences, .engines, .xlatRest, .links,
    .groups, .reduce, .units, .faultsRest, .gallery, .out] ⊆ P) (s : State) (n) : Frame P s (State.downTimeout s n) :=
    by
  simp only [List.cons_subset, List.nil_subset, and_true] at hl
  dsimp only [Frame, State.downTimeout]
  simp [hl]

@[simp] theorem State.retrainRequest_frame {P : List Part} (hl : [.links, .out] ⊆ P) (s : State) (n) : Frame P s
    (State.retrainRequest s n) := by
  simp only [List.cons_subset, List.nil_subset, and_true] at hl
  dsimp only [Frame, State.retrainRequest]
  simp [hl]

@[simp] theorem State.retrainDone_frame {P : List Part} (hl : [.links, .out] ⊆ P) (s : State) (n) : Frame P s
    (State.retrainDone s n) := by
  simp only [List.cons_subset, List.nil_subset, and_true] at hl
  dsimp only [Frame, State.retrainDone]
  simp [hl]

@[simp] theorem State.retrainTimeout_frame {P : List Part} (hl : [.halls, .queues, .fences, .engines, .xlatRest,
    .links, .groups, .reduce, .units, .faultsRest, .gallery, .out] ⊆ P) (s : State) (n) : Frame P s
    (State.retrainTimeout s n) := by
  simp only [List.cons_subset, List.nil_subset, and_true] at hl
  unfold State.retrainTimeout
  dsimp only [Frame]
  (repeat' split) <;> simp [hl]

@[simp] theorem State.tagFail_frame {P : List Part} (hl : [.halls, .queues, .fences, .engines, .xlatRest, .links,
    .groups, .reduce, .faultsRest, .gallery, .out] ⊆ P) (s : State) (n) (vc) : Frame P s (State.tagFail s n vc) := by
  simp only [List.cons_subset, List.nil_subset, and_true] at hl
  dsimp only [Frame, State.tagFail]
  simp [hl]

@[simp] theorem State.linkProtocol_frame {P : List Part} (hl : [.halls, .queues, .fences, .engines, .xlatRest, .links,
    .groups, .reduce, .units, .faultsRest, .gallery, .out] ⊆ P) (s : State) (n) : Frame P s (State.linkProtocol s n)
    := by
  simp only [List.cons_subset, List.nil_subset, and_true] at hl
  dsimp only [Frame, State.linkProtocol]
  simp [hl]

theorem State.ingress_frame {P : List Part} (hl : [.halls, .queues, .fences, .engines, .xlatRest, .links, .groups,
    .reduce, .units, .faultsRest, .gallery, .out] ⊆ P) (s : State) (n kind f use) (k : ∀ h body t, Frame P t (use h
    body t)) : Frame P s (State.ingress s n kind f use) := by
  simp only [List.cons_subset, List.nil_subset, and_true] at hl
  unfold State.ingress
  dsimp only
  split
  · exact Frame.refl s
  · split
    · simp [hl, Frame]
    · split
      · simp [hl, Frame]
      · split
        · exact Frame.refl s
        · split
          · simp [hl, Frame]
          · exact Frame.trans (by simp [hl, Frame]) (k _ _ _)

theorem State.ingressNow_frame {P : List Part} (hl : [.halls, .queues, .fences, .engines, .xlatRest, .links, .groups,
    .reduce, .units, .faultsRest, .gallery, .out] ⊆ P) (s : State) (n kind f use) (k : ∀ h body t, Frame P t (use h
    body t)) : Frame P s (State.ingressNow s n kind f use) := by
  simp only [List.cons_subset, List.nil_subset, and_true] at hl
  unfold State.ingressNow
  refine State.ingress_frame (by simp [hl]) (k := ?_) ..
  intro h body t
  exact Frame.trans (by simp [hl, Frame]) (k _ _ _)

@[simp] theorem State.queueMessage_frame {P : List Part} (hl : [.links] ⊆ P) (s : State) (n) (id) (bytes) : Frame P s
    (State.queueMessage s n id bytes) := by
  simp only [List.cons_subset, List.nil_subset, and_true] at hl
  dsimp only [Frame, State.queueMessage]
  simp [hl]

@[simp] theorem State.resendMessages_frame {P : List Part} (hl : [.links] ⊆ P) (s : State) (n) : Frame P s
    (State.resendMessages s n) := by
  simp only [List.cons_subset, List.nil_subset, and_true] at hl
  dsimp only [Frame, State.resendMessages]
  simp [hl]

@[simp] theorem State.linkUp_frame {P : List Part} (hl : [.links] ⊆ P) (s : State) (n) : Frame P s (State.linkUp s n)
    := by
  simp only [List.cons_subset, List.nil_subset, and_true] at hl
  dsimp only [Frame, State.linkUp]
  simp [hl]

@[simp] theorem State.markerSeen_frame {P : List Part} (hl : [.links] ⊆ P) (s : State) (n) (vc) (last) : Frame P s
    (State.markerSeen s n vc last) := by
  simp only [List.cons_subset, List.nil_subset, and_true] at hl
  dsimp only [Frame, State.markerSeen]
  simp [hl]

@[simp] theorem State.marker_frame {P : List Part} (hl : [.halls, .queues, .fences, .engines, .xlatRest, .links,
    .groups, .reduce, .units, .faultsRest, .gallery, .out] ⊆ P) (s : State) (n) (f) : Frame P s (State.marker s n f)
    := by
  simp only [List.cons_subset, List.nil_subset, and_true] at hl
  unfold State.marker
  refine State.ingressNow_frame (by simp [hl]) (k := ?_) ..
  intros
  simp [hl, Frame]

@[simp] theorem State.sendMessage_frame {P : List Part} (hl : [.links, .freeCtr] ⊆ P) (s : State) (n) (bytes) : Frame
    P s (State.sendMessage s n bytes) := by
  simp only [List.cons_subset, List.nil_subset, and_true] at hl
  dsimp only [Frame, State.sendMessage]
  simp [hl]

@[simp] theorem State.sendKey_frame {P : List Part} (hl : [.links, .freeCtr] ⊆ P) (s : State) (g) (digest) (serial) :
    Frame P s (State.sendKey s g digest serial) := by
  simp only [List.cons_subset, List.nil_subset, and_true] at hl
  unfold State.sendKey
  dsimp only [Frame]
  (repeat' split) <;> simp [hl]

@[simp] theorem State.messageArrives_frame {P : List Part} (hl : [.halls, .engines, .ports, .protect, .xlatRest,
    .slots, .vaultRest, .links, .faultsRest, .out, .freeCtr] ⊆ P) (s : State) (bytes) : Frame P s
    (State.messageArrives s bytes) := by
  simp only [List.cons_subset, List.nil_subset, and_true] at hl
  unfold State.messageArrives
  dsimp only [Frame]
  (repeat' split) <;> simp [hl]

@[simp] theorem State.mgmtFragment_frame {P : List Part} (hl : [.halls, .engines, .ports, .protect, .xlatRest, .slots,
    .vaultRest, .links, .faultsRest, .mgmtMsgs, .out, .freeCtr] ⊆ P) (s : State) (n) (h) (body) : Frame P s
    (State.mgmtFragment s n h body) := by
  simp only [List.cons_subset, List.nil_subset, and_true] at hl
  dsimp only [Frame, State.mgmtFragment]
  simp [hl]

@[simp] theorem State.mgmt_frame {P : List Part} (hl : [.halls, .queues, .fences, .engines, .ports, .protect,
    .xlatRest, .slots, .vaultRest, .links, .groups, .reduce, .units, .faultsRest, .mgmtMsgs, .gallery, .out, .freeCtr]
    ⊆ P) (s : State) (n) (f) : Frame P s (State.mgmt s n f) := by
  simp only [List.cons_subset, List.nil_subset, and_true] at hl
  unfold State.mgmt
  refine State.ingressNow_frame (by simp [hl]) (k := ?_) ..
  intros
  simp [hl, Frame]

@[simp] theorem State.mgmtTimeout_frame {P : List Part} (hl : [.mgmtMsgs] ⊆ P) (s : State) (n) (msg) : Frame P s
    (State.mgmtTimeout s n msg) := by
  simp only [List.cons_subset, List.nil_subset, and_true] at hl
  dsimp only [Frame, State.mgmtTimeout]
  simp [hl]

@[simp] theorem State.queueUrgent_frame {P : List Part} (hl : [.links] ⊆ P) (s : State) (n) (vc) (hdr) (body) : Frame
    P s (State.queueUrgent s n vc hdr body) := by
  simp only [List.cons_subset, List.nil_subset, and_true] at hl
  dsimp only [Frame, State.queueUrgent]
  simp [hl]

@[simp] theorem State.rotateLink_frame {P : List Part} (hl : [.links] ⊆ P) (s : State) (n) (own) (kind) (gen) (p) :
    Frame P s (State.rotateLink s n own kind gen p) := by
  simp only [List.cons_subset, List.nil_subset, and_true] at hl
  dsimp only [Frame, State.rotateLink]
  simp [hl]

@[simp] theorem State.sendOffer_frame {P : List Part} (hl : [.links] ⊆ P) (s : State) (n) (gen) (kind) (peer)
    (peerPort) : Frame P s (State.sendOffer s n gen kind peer peerPort) := by
  simp only [List.cons_subset, List.nil_subset, and_true] at hl
  dsimp only [Frame, State.sendOffer]
  simp [hl]

@[simp] theorem State.inBandOffer_frame {P : List Part} (hl : [.links] ⊆ P) (s : State) (n) (c) (p) : Frame P s
    (State.inBandOffer s n c p) := by
  simp only [List.cons_subset, List.nil_subset, and_true] at hl
  unfold State.inBandOffer
  dsimp only [Frame]
  (repeat' split) <;> simp [hl]

@[simp] theorem State.keyx_frame {P : List Part} (hl : [.halls, .queues, .fences, .engines, .xlatRest, .links,
    .groups, .reduce, .units, .faultsRest, .gallery, .out] ⊆ P) (s : State) (n) (f) (c) : Frame P s (State.keyx s n f
    c) := by
  simp only [List.cons_subset, List.nil_subset, and_true] at hl
  unfold State.keyx
  refine State.ingressNow_frame (by simp [hl]) (k := ?_) ..
  intros
  simp [hl, Frame]

@[simp] theorem State.rotationStart_frame {P : List Part} (hl : [.links] ⊆ P) (s : State) (n) : Frame P s
    (State.rotationStart s n) := by
  simp only [List.cons_subset, List.nil_subset, and_true] at hl
  dsimp only [Frame, State.rotationStart]
  simp [hl]

@[simp] theorem State.rotationTimeout_frame {P : List Part} (hl : [.halls, .queues, .fences, .engines, .xlatRest,
    .links, .groups, .reduce, .faultsRest, .gallery, .out] ⊆ P) (s : State) (n) : Frame P s (State.rotationTimeout s
    n) := by
  simp only [List.cons_subset, List.nil_subset, and_true] at hl
  dsimp only [Frame, State.rotationTimeout]
  simp [hl]

@[simp] theorem State.endEarly_frame {P : List Part} (hl : [.links] ⊆ P) (s : State) (n) (r) : Frame P s
    (State.endEarly s n r) := by
  simp only [List.cons_subset, List.nil_subset, and_true] at hl
  dsimp only [Frame, State.endEarly]
  simp [hl]

@[simp] theorem State.askKey_frame {P : List Part} (hl : [.links, .freeCtr] ⊆ P) (s : State) (g) : Frame P s
    (State.askKey s g) := by
  simp only [List.cons_subset, List.nil_subset, and_true] at hl
  unfold State.askKey
  dsimp only [Frame]
  (repeat' split) <;> simp [hl]

@[simp] theorem State.windowViolation_frame {P : List Part} (hl : [.faultsRest, .out] ⊆ P) (s : State) (h) (m) : Frame
    P s (State.windowViolation s h m) := by
  simp only [List.cons_subset, List.nil_subset, and_true] at hl
  dsimp only [Frame, State.windowViolation]
  simp [hl]

@[simp] theorem State.migrate_frame {P : List Part} (hl : [.planRest, .halls, .queues, .engines, .ports, .protect,
    .xlatRest, .hallKeys, .vaultRest, .links, .commit, .faultsRest, .out] ⊆ P) (s : State) (h) (q) (raw) : Frame P s
    (State.migrate s h q raw) := by
  simp only [List.cons_subset, List.nil_subset, and_true] at hl
  unfold State.migrate
  refine State.plainCommand_frame (by simp [hl]) (k := ?_) ..
  intros
  dsimp only [Frame]
  (repeat' split) <;> simp [hl]

@[simp] theorem State.openLink_frame {P : List Part} (hl : [.links] ⊆ P) (s : State) (n) : Frame P s (State.openLink s
    n).1 := by
  simp only [List.cons_subset, List.nil_subset, and_true] at hl
  dsimp only [Frame, State.openLink]
  simp [hl]

@[simp] theorem State.installLink_frame {P : List Part} (hl : [.links] ⊆ P) (s : State) (n) (own) (kind) (gen) (p) :
    Frame P s (State.installLink s n own kind gen p) := by
  simp only [List.cons_subset, List.nil_subset, and_true] at hl
  dsimp only [Frame, State.installLink]
  simp [hl]

@[simp] theorem State.relayedOffer_frame {P : List Part} (hl : [.halls, .queues, .fences, .engines, .xlatRest, .links,
    .groups, .reduce, .faultsRest, .gallery, .out] ⊆ P) (s : State) (n) (c) (p) : Frame P s (State.relayedOffer s n c
    p).1 := by
  simp only [List.cons_subset, List.nil_subset, and_true] at hl
  unfold State.relayedOffer
  dsimp only [Frame]
  (repeat' split) <;> simp [hl]

end Sys2Proof.Machine
end

