-- ==== Sys2Proof/Laws/FrameColl.lean ====
section
/-! SUPPORT. What the operations of the collectives can change: one lemma per operation, which names the parts of the
    state that it can write; every other part is as it was. -/

namespace Sys2Proof.Machine

open Sys2Proof.Safety

@[simp] theorem State.putOp_frame {P : List Part} (hl : [.groups] ⊆ P) (s : State) (g) (o) : Frame P s (State.putOp s
    g o) := by
  simp only [List.cons_subset, List.nil_subset, and_true] at hl
  dsimp only [Frame, State.putOp]
  simp [hl]

@[simp] theorem State.unstall_frame {P : List Part} (hl : [.groups] ⊆ P) (s : State) (g) : Frame P s (State.unstall s
    g) := by
  simp only [List.cons_subset, List.nil_subset, and_true] at hl
  dsimp only [Frame, State.unstall]
  simp [hl]

@[simp] theorem State.ringProgress_frame {P : List Part} (hl : [.groups] ⊆ P) (s : State) (g) (o) (k) : Frame P s
    (State.ringProgress s g o k) := by
  simp only [List.cons_subset, List.nil_subset, and_true] at hl
  dsimp only [Frame, State.ringProgress]
  simp [hl]

@[simp] theorem State.grantMore_frame {P : List Part} (hl : [.links, .groups] ⊆ P) (s : State) (r) (kind) (k) : Frame
    P s (State.grantMore s r kind k) := by
  simp only [List.cons_subset, List.nil_subset, and_true] at hl
  unfold State.grantMore
  dsimp only [Frame]
  (repeat' split) <;> simp [hl]

@[simp] theorem State.collWrite_frame {P : List Part} (hl : [.xlatRest] ⊆ P) (s : State) (o) (va) (b) : Frame P s
    (State.collWrite s o va b) := by
  simp only [List.cons_subset, List.nil_subset, and_true] at hl
  dsimp only [Frame, State.collWrite]
  simp [hl]

@[simp] theorem State.chunkDone_frame {P : List Part} (hl : [.queues, .fences, .groups] ⊆ P) (s : State) (g) (kind) :
    Frame P s (State.chunkDone s g kind) := by
  simp only [List.cons_subset, List.nil_subset, and_true] at hl
  unfold State.chunkDone
  dsimp only [Frame]
  (repeat' split) <;> simp [hl]

@[simp] theorem State.tryFinish_frame {P : List Part} (hl : [.halls, .queues, .fences, .xlatRest, .groups, .reduce] ⊆
    P) (s : State) (r) (kind) : Frame P s (State.tryFinish s r kind) := by
  simp only [List.cons_subset, List.nil_subset, and_true] at hl
  unfold State.tryFinish
  dsimp only [Frame]
  (repeat' split) <;> simp [hl]

@[simp] theorem State.gatherWrite_frame {P : List Part} (hl : [.xlatRest] ⊆ P) (s : State) (r) (o) (first) (len)
    (body) : Frame P s (State.gatherWrite s r o first len body) := by
  simp only [List.cons_subset, List.nil_subset, and_true] at hl
  have fold : ∀ (l : List (Nat × Nat)) (a : State × Nat), Frame P a.1 (l.foldl (fun (acc : State × Nat) x =>
      (acc.1.collWrite o (o.dst + x.1) (slice body acc.2 x.2), acc.2 + x.2)) a).1 := by
    intro l
    induction l with
    | nil => intro a; exact Frame.refl _
    | cons x l ih => intro a; exact Frame.trans (by simp [hl, Frame]) (ih _)
  unfold State.gatherWrite
  exact fold _ (s, 0)

@[simp] theorem State.acceptColl_frame {P : List Part} (hl : [.planRest, .halls, .queues, .fences, .xlatRest, .links,
    .groups, .reduce, .commit] ⊆ P) (s : State) (r) (o) (tiles) : Frame P s (State.acceptColl s r o tiles) := by
  simp only [List.cons_subset, List.nil_subset, and_true] at hl
  dsimp only [Frame, State.acceptColl]
  simp [hl]

@[simp] theorem State.offerColl_frame {P : List Part} (hl : [.planRest, .halls, .queues, .fences, .xlatRest, .links,
    .groups, .reduce, .commit, .faultsRest, .out] ⊆ P) (s : State) (h) (q) (g) (o) (raw) : Frame P s (State.offerColl
    s h q g o raw) := by
  simp only [List.cons_subset, List.nil_subset, and_true] at hl
  unfold State.offerColl
  dsimp only [Frame]
  (repeat' split) <;> simp [hl]

@[simp] theorem State.coll_frame {P : List Part} (hl : [.planRest, .halls, .queues, .fences, .xlatRest, .links,
    .groups, .reduce, .commit, .faultsRest, .out] ⊆ P) (s : State) (h) (q) (raw) : Frame P s (State.coll s h q raw) :=
    by
  simp only [List.cons_subset, List.nil_subset, and_true] at hl
  unfold State.coll
  refine State.plainCommand_frame (by simp [hl]) (k := ?_) ..
  intros
  simp [hl, Frame]

@[simp] theorem State.collAccepted_frame {P : List Part} (hl : [.planRest, .halls, .queues, .fences, .xlatRest,
    .links, .groups, .reduce, .commit, .faultsRest, .out] ⊆ P) (s : State) (h) (q) : Frame P s (State.collAccepted s h
    q) := by
  simp only [List.cons_subset, List.nil_subset, and_true] at hl
  unfold State.collAccepted
  dsimp only [Frame]
  (repeat' split) <;> simp [hl]

@[simp] theorem State.countLate_frame {P : List Part} (hl : [.reduce] ⊆ P) (s : State) (n) : Frame P s
    (State.countLate s n) := by
  simp only [List.cons_subset, List.nil_subset, and_true] at hl
  dsimp only [Frame, State.countLate]
  simp [hl]

@[simp] theorem feedBeats_frame {P : List Part} (hl : [.engines, .groups, .reduce] ⊆ P) (r p c v hdr l e) (s : State)
    : Frame P s (feedBeats r p c v hdr l e s) := by
  simp only [List.cons_subset, List.nil_subset, and_true] at hl
  induction l generalizing hdr e s with
  | nil => unfold feedBeats; simp [hl, Frame]
  | cons x l ih =>
    unfold feedBeats
    (repeat' split)
    all_goals first
      | (simp [hl, Frame]; done)
      | (refine Frame.trans ?_ (ih _ _ _); simp [hl, Frame])

@[simp] theorem State.dropRed_frame {P : List Part} (hl : [.engines, .reduce, .faultsRest, .out] ⊆ P) (s : State) (p)
    : Frame P s (State.dropRed s p) := by
  simp only [List.cons_subset, List.nil_subset, and_true] at hl
  dsimp only [Frame, State.dropRed]
  simp [hl]

@[simp] theorem State.offerRed_frame {P : List Part} (hl : [.engines, .groups, .reduce, .faultsRest, .out] ⊆ P) (s :
    State) (p) (e) (hdr) (beats) : Frame P s (State.offerRed s p e hdr beats) := by
  simp only [List.cons_subset, List.nil_subset, and_true] at hl
  unfold State.offerRed
  dsimp only [Frame]
  (repeat' split) <;> simp [hl]

@[simp] theorem State.redTransfer_frame {P : List Part} (hl : [.engines, .groups, .reduce, .faultsRest, .out] ⊆ P) (s
    : State) (p) (hdr) (beats) : Frame P s (State.redTransfer s p hdr beats) := by
  simp only [List.cons_subset, List.nil_subset, and_true] at hl
  unfold State.redTransfer
  dsimp only [Frame]
  (repeat' split) <;> simp [hl]

@[simp] theorem State.retryRed_frame {P : List Part} (hl : [.engines, .groups, .reduce, .faultsRest, .out] ⊆ P) (s :
    State) : Frame P s (State.retryRed s) := by
  simp only [List.cons_subset, List.nil_subset, and_true] at hl
  unfold State.retryRed
  refine forAll_frame _ _ _ ?_
  intro p t
  split <;> simp [hl]

@[simp] theorem sealFrames_frame {P : List Part} (hl : [.links, .groups] ⊆ P) (r o k w total l) (s : State) : Frame P
    s (sealFrames r o k w total l s).1 := by
  simp only [List.cons_subset, List.nil_subset, and_true] at hl
  induction l generalizing s with
  | nil => exact Frame.refl s
  | cons x rest ih =>
    unfold sealFrames
    dsimp only
    split
    · exact Frame.refl s
    · exact Frame.trans (by simp [hl, Frame]) (ih _)

@[simp] theorem State.sendChunk_frame {P : List Part} (hl : [.halls, .engines, .ports, .protect, .xlatRest, .slots,
    .vaultRest, .links, .groups, .faultsRest, .out] ⊆ P) (s : State) (r) (o) (k) (w) (body) : Frame P s
    (State.sendChunk s r o k w body).1 := by
  simp only [List.cons_subset, List.nil_subset, and_true] at hl
  dsimp only [Frame, State.sendChunk]
  simp [hl]

@[simp] theorem State.noteRanges_frame {P : List Part} (hl : [.halls, .xlatRest, .faultsRest, .out] ⊆ P) (s : State)
    (o) (l) (answer) : Frame P s (State.noteRanges s o l answer) := by
  simp only [List.cons_subset, List.nil_subset, and_true] at hl
  dsimp only [Frame, State.noteRanges]
  simp [hl]

@[simp] theorem State.freeTile_frame {P : List Part} (hl : [.reduce] ⊆ P) (s : State) (r) (o) (k) (v) : Frame P s
    (State.freeTile s r o k v) := by
  simp only [List.cons_subset, List.nil_subset, and_true] at hl
  dsimp only [Frame, State.freeTile]
  simp [hl]

@[simp] theorem State.keepResult_frame {P : List Part} (hl : [.queues, .fences, .xlatRest, .groups] ⊆ P) (s : State)
    (r) (o) (k) (w) (v) : Frame P s (State.keepResult s r o k w v) := by
  simp only [List.cons_subset, List.nil_subset, and_true] at hl
  dsimp only [Frame, State.keepResult]
  simp [hl]

@[simp] theorem State.drainReduce_frame {P : List Part} (hl : [.halls, .queues, .fences, .engines, .ports, .protect,
    .xlatRest, .slots, .vaultRest, .links, .groups, .reduce, .faultsRest, .out] ⊆ P) (s : State) (r) (o) (k) (v) (w)
    (b) : Frame P s (State.drainReduce s r o k v w b) := by
  simp only [List.cons_subset, List.nil_subset, and_true] at hl
  dsimp only [Frame, State.drainReduce]
  simp [hl]

@[simp] theorem State.drainGather_frame {P : List Part} (hl : [.halls, .queues, .fences, .engines, .ports, .protect,
    .xlatRest, .slots, .vaultRest, .links, .groups, .reduce, .faultsRest, .out] ⊆ P) (s : State) (r) (o) (k) (v) (w)
    (b) : Frame P s (State.drainGather s r o k v w b) := by
  simp only [List.cons_subset, List.nil_subset, and_true] at hl
  dsimp only [Frame, State.drainGather]
  simp [hl]

@[simp] theorem pumpLap_frame {P : List Part} (hl : [.links, .groups] ⊆ P) (r k n) (s : State) : Frame P s (pumpLap r
    k n s) := by
  simp only [List.cons_subset, List.nil_subset, and_true] at hl
  induction n generalizing s with
  | zero => exact Frame.refl s
  | succ n ih =>
    unfold pumpLap
    dsimp only
    (repeat' split)
    all_goals first
      | exact Frame.refl s
      | (refine Frame.trans ?_ (ih _); simp [hl, Frame])

@[simp] theorem State.pumpCounts_frame {P : List Part} (hl : [.halls, .queues, .fences, .xlatRest, .links, .groups,
    .reduce] ⊆ P) (s : State) (r) : Frame P s (State.pumpCounts s r) := by
  simp only [List.cons_subset, List.nil_subset, and_true] at hl
  unfold State.pumpCounts
  dsimp only [Frame]
  (repeat' split) <;> simp [hl]

@[simp] theorem State.ownCount_frame {P : List Part} (hl : [.halls, .queues, .fences, .xlatRest, .links, .groups,
    .reduce] ⊆ P) (s : State) (r) (o) (b) : Frame P s (State.ownCount s r o b) := by
  simp only [List.cons_subset, List.nil_subset, and_true] at hl
  dsimp only [Frame, State.ownCount]
  simp [hl]

@[simp] theorem State.chunkDrain_frame {P : List Part} (hl : [.halls, .queues, .fences, .engines, .ports, .protect,
    .xlatRest, .slots, .vaultRest, .links, .groups, .reduce, .faultsRest, .out] ⊆ P) (s : State) (g) (kind) (k) (src)
    : Frame P s (State.chunkDrain s g kind k src) := by
  simp only [List.cons_subset, List.nil_subset, and_true] at hl
  unfold State.chunkDrain
  dsimp only [Frame]
  (repeat' split) <;> simp [hl]

@[simp] theorem State.chunkWhole_frame {P : List Part} (hl : [.queues, .fences, .xlatRest, .groups] ⊆ P) (s : State)
    (r) (o) (k) (u) (step) (first) (len) (body) : Frame P s (State.chunkWhole s r o k u step first len body) := by
  simp only [List.cons_subset, List.nil_subset, and_true] at hl
  dsimp only [Frame, State.chunkWhole]
  simp [hl]

@[simp] theorem State.chunkFrame_frame {P : List Part} (hl : [.halls, .queues, .fences, .xlatRest, .links, .groups,
    .reduce, .faultsRest, .out] ⊆ P) (s : State) (r) (o) (k) (h) (body) : Frame P s (State.chunkFrame s r o k h body)
    := by
  simp only [List.cons_subset, List.nil_subset, and_true] at hl
  unfold State.chunkFrame
  dsimp only [Frame]
  (repeat' split) <;> simp [hl]

@[simp] theorem State.chunkArrives_frame {P : List Part} (hl : [.halls, .queues, .fences, .engines, .ports, .protect,
    .xlatRest, .slots, .vaultRest, .links, .groups, .reduce, .faultsRest, .out] ⊆ P) (s : State) (n) (vc) (h) (body) :
    Frame P s (State.chunkArrives s n vc h body) := by
  simp only [List.cons_subset, List.nil_subset, and_true] at hl
  unfold State.chunkArrives
  dsimp only [Frame]
  (repeat' split) <;> simp [hl]

@[simp] theorem State.grantArrives_frame {P : List Part} (hl : [.halls, .queues, .fences, .xlatRest, .links, .groups,
    .reduce] ⊆ P) (s : State) (n) (h) : Frame P s (State.grantArrives s n h) := by
  simp only [List.cons_subset, List.nil_subset, and_true] at hl
  unfold State.grantArrives
  dsimp only [Frame]
  (repeat' split) <;> simp [hl]

@[simp] theorem State.countArrives_frame {P : List Part} (hl : [.halls, .queues, .fences, .xlatRest, .links, .groups,
    .reduce] ⊆ P) (s : State) (n) (h) (body) : Frame P s (State.countArrives s n h body) := by
  simp only [List.cons_subset, List.nil_subset, and_true] at hl
  unfold State.countArrives
  dsimp only [Frame]
  (repeat' split) <;> simp [hl]

@[simp] theorem State.endArrives_frame {P : List Part} (hl : [.halls, .queues, .fences, .xlatRest, .links, .groups,
    .reduce, .faultsRest, .out] ⊆ P) (s : State) (n) (h) : Frame P s (State.endArrives s n h) := by
  simp only [List.cons_subset, List.nil_subset, and_true] at hl
  unfold State.endArrives
  dsimp only [Frame]
  (repeat' split) <;> simp [hl]

@[simp] theorem State.collStall_frame {P : List Part} (hl : [.groups, .faultsRest, .out] ⊆ P) (s : State) (g) : Frame
    P s (State.collStall s g) := by
  simp only [List.cons_subset, List.nil_subset, and_true] at hl
  dsimp only [Frame, State.collStall]
  simp [hl]

@[simp] theorem State.collTimeout_frame {P : List Part} (hl : [.halls, .queues, .fences, .xlatRest, .links, .groups,
    .reduce, .faultsRest, .out] ⊆ P) (s : State) (g) : Frame P s (State.collTimeout s g) := by
  simp only [List.cons_subset, List.nil_subset, and_true] at hl
  dsimp only [Frame, State.collTimeout]
  simp [hl]

@[simp] theorem State.clusterLost_frame {P : List Part} (hl : [.halls, .queues, .fences, .xlatRest, .links, .groups,
    .reduce, .faultsRest, .out] ⊆ P) (s : State) (c) : Frame P s (State.clusterLost s c) := by
  simp only [List.cons_subset, List.nil_subset, and_true] at hl
  dsimp only [Frame, State.clusterLost]
  simp [hl]

@[simp] theorem State.fenceCluster_frame {P : List Part} (hl : [.halls, .queues, .fences, .xlatRest, .links, .groups,
    .reduce, .units, .faultsRest, .out] ⊆ P) (s : State) (c) (cause) : Frame P s (State.fenceCluster s c cause) := by
  simp only [List.cons_subset, List.nil_subset, and_true] at hl
  dsimp only [Frame, State.fenceCluster]
  simp [hl]

@[simp] theorem State.redUe_frame {P : List Part} (hl : [.halls, .queues, .fences, .xlatRest, .links, .groups,
    .reduce, .units, .faultsRest, .out] ⊆ P) (s : State) (g) (c) (h) : Frame P s (State.redUe s g c h) := by
  simp only [List.cons_subset, List.nil_subset, and_true] at hl
  dsimp only [Frame, State.redUe]
  simp [hl]

@[simp] theorem State.redError_frame {P : List Part} (hl : [.halls, .queues, .fences, .xlatRest, .links, .groups,
    .reduce, .units, .faultsRest, .out] ⊆ P) (s : State) (g) (kind) (k) (decrypt) (e) : Frame P s (State.redError s g
    kind k decrypt e) := by
  simp only [List.cons_subset, List.nil_subset, and_true] at hl
  unfold State.redError
  dsimp only [Frame]
  (repeat' split) <;> simp [hl]

end Sys2Proof.Machine
end

