-- ==== Sys2Proof/Laws/FrameSched.lean ====
section
/-! SUPPORT. What the operations of the scheduler, the units and the requests of engines and links can change: one
    lemma per operation, which names the parts of the state that it can write; every other part is as it was. -/

namespace Sys2Proof.Machine

open Sys2Proof.Safety

@[simp] theorem State.commitOpen_frame {P : List Part} (hl : [.planRest, .halls, .queues, .xlatRest, .commit,
    .faultsRest, .out] ⊆ P) (s : State) (h) (q) (raw) : Frame P s (State.commitOpen s h q raw) := by
  simp only [List.cons_subset, List.nil_subset, and_true] at hl
  unfold State.commitOpen
  refine State.plainCommand_frame (by simp [hl]) (k := ?_) ..
  intros
  dsimp only [Frame]
  (repeat' split) <;> simp [hl]

@[simp] theorem State.noteDescs_frame {P : List Part} (hl : [.halls, .xlatRest, .faultsRest, .out] ⊆ P) (s : State) (h
    c l ds) : Frame P s (State.noteDescs s h c l ds) := by
  simp only [List.cons_subset, List.nil_subset, and_true] at hl
  fun_induction State.noteDescs s h c l ds <;> dsimp only [Frame] <;> simp_all

@[simp] theorem State.closeAborted_frame {P : List Part} (hl : [.planRest, .halls, .queues, .xlatRest, .commit] ⊆ P)
    (s : State) (h) (q) (hdr) : Frame P s (State.closeAborted s h q hdr) := by
  simp only [List.cons_subset, List.nil_subset, and_true] at hl
  dsimp only [Frame, State.closeAborted]
  simp [hl]

@[simp] theorem State.closeGroup_frame {P : List Part} (hl : [.queues, .commit] ⊆ P) (s : State) (h) (q) (g) (hdr)
    (recorded) : Frame P s (State.closeGroup s h q g hdr recorded) := by
  simp only [List.cons_subset, List.nil_subset, and_true] at hl
  dsimp only [Frame, State.closeGroup]
  simp [hl]

@[simp] theorem State.commitClose_frame {P : List Part} (hl : [.planRest, .halls, .queues, .xlatRest, .commit,
    .faultsRest, .out] ⊆ P) (s : State) (h) (q) (raw) (descs) : Frame P s (State.commitClose s h q raw descs) := by
  simp only [List.cons_subset, List.nil_subset, and_true] at hl
  unfold State.commitClose
  refine State.command_frame (by simp [hl]) (k := ?_) ..
  intros
  dsimp only [Frame]
  (repeat' split) <;> simp [hl]

@[simp] theorem State.stage_frame {P : List Part} (hl : [.planRest, .commit] ⊆ P) (s : State) (h) (g) (a) : Frame P s
    (State.stage s h g a) := by
  simp only [List.cons_subset, List.nil_subset, and_true] at hl
  dsimp only [Frame, State.stage]
  simp [hl]

@[simp] theorem State.bitmapUe_frame {P : List Part} (hl : [.halls, .protect, .faultsRest, .out] ⊆ P) (s : State)
    (word) : Frame P s (State.bitmapUe s word) := by
  simp only [List.cons_subset, List.nil_subset, and_true] at hl
  dsimp only [Frame, State.bitmapUe]
  simp [hl]

@[simp] theorem State.dropEnt_frame {P : List Part} (hl : [.protect] ⊆ P) (s : State) (e) : Frame P s (State.dropEnt s
    e) := by
  simp only [List.cons_subset, List.nil_subset, and_true] at hl
  dsimp only [Frame, State.dropEnt]
  simp [hl]

@[simp] theorem State.fencePipe_frame {P : List Part} (hl : [.halls, .engines, .ports, .protect, .xlatRest,
    .vaultRest, .links, .units, .faultsRest, .out] ⊆ P) (s : State) (m) (j) (cause) : Frame P s (State.fencePipe s m j
    cause) := by
  simp only [List.cons_subset, List.nil_subset, and_true] at hl
  dsimp only [Frame, State.fencePipe]
  simp [hl]

@[simp] theorem State.segmentError_frame {P : List Part} (hl : [.halls, .engines, .ports, .protect, .segs, .xlatRest,
    .vaultRest, .links, .units, .faultsRest, .out] ⊆ P) (s : State) (k) (d) (err) : Frame P s (State.segmentError s k
    d err) := by
  simp only [List.cons_subset, List.nil_subset, and_true] at hl
  unfold State.segmentError
  dsimp only [Frame]
  (repeat' split) <;> simp [hl]

@[simp] theorem State.refuseContext_frame {P : List Part} (hl : [.planRest, .halls, .queues, .contexts, .deadlines,
    .engines, .ports, .protect, .xlatRest, .links, .commit, .faultsRest, .out] ⊆ P) (s : State) (p) (e) (d) (size)
    (object) : Frame P s (State.refuseContext s p e d size object) := by
  simp only [List.cons_subset, List.nil_subset, and_true] at hl
  dsimp only [Frame, State.refuseContext]
  simp [hl]

@[simp] theorem State.segmentRequest_frame {P : List Part} (hl : [.planRest, .halls, .queues, .contexts, .deadlines,
    .engines, .ports, .protect, .segs, .xlatRest, .vaultRest, .links, .commit, .units, .faultsRest, .out] ⊆ P) (s :
    State) (p) (e) (d) (err) : Frame P s (State.segmentRequest s p e d err) := by
  simp only [List.cons_subset, List.nil_subset, and_true] at hl
  unfold State.segmentRequest
  dsimp only [Frame]
  (repeat' split) <;> simp [hl]

@[simp] theorem State.startWithdrawWin_frame {P : List Part} (hl : [.windows, .xlatRest] ⊆ P) (s : State) (n) : Frame
    P s (State.startWithdrawWin s n) := by
  simp only [List.cons_subset, List.nil_subset, and_true] at hl
  dsimp only [Frame, State.startWithdrawWin]
  simp [hl]

@[simp] theorem State.windowRequest_frame {P : List Part} (hl : [.planRest, .halls, .queues, .contexts, .deadlines,
    .engines, .ports, .protect, .windows, .xlatRest, .links, .commit, .faultsRest, .out] ⊆ P) (s : State) (p) (e) (d)
    (err) : Frame P s (State.windowRequest s p e d err) := by
  simp only [List.cons_subset, List.nil_subset, and_true] at hl
  dsimp only [Frame, State.windowRequest]
  simp [hl]

@[simp] theorem State.dmaRequest_frame {P : List Part} (hl : [.planRest, .halls, .queues, .contexts, .deadlines,
    .engines, .ports, .protect, .segs, .windows, .xlatRest, .hallKeys, .vaultRest, .links, .commit, .units,
    .faultsRest, .out] ⊆ P) (s : State) (p) (req) (beats) (err) : Frame P s (State.dmaRequest s p req beats err) := by
  simp only [List.cons_subset, List.nil_subset, and_true] at hl
  unfold State.dmaRequest
  dsimp only [Frame]
  (repeat' split) <;> simp [hl]

@[simp] theorem State.consume_frame {P : List Part} (hl : [.halls, .queues, .fences, .engines, .ports, .protect,
    .xlatRest, .slots, .vaultRest, .links, .groups, .reduce, .faultsRest, .out] ⊆ P) (s : State) (n) (vc) (h) (body) :
    Frame P s (State.consume s n vc h body) := by
  simp only [List.cons_subset, List.nil_subset, and_true] at hl
  dsimp only [Frame, State.consume]
  simp [hl]

@[simp] theorem State.frameRelease_frame {P : List Part} (hl : [.halls, .queues, .fences, .engines, .ports, .protect,
    .xlatRest, .slots, .vaultRest, .links, .groups, .reduce, .faultsRest, .out] ⊆ P) (s : State) (n) (vc) (h) : Frame
    P s (State.frameRelease s n vc h) := by
  simp only [List.cons_subset, List.nil_subset, and_true] at hl
  unfold State.frameRelease
  dsimp only [Frame]
  (repeat' split) <;> simp [hl]

@[simp] theorem State.takeOrHold_frame {P : List Part} (hl : [.halls, .queues, .fences, .engines, .ports, .protect,
    .xlatRest, .slots, .vaultRest, .links, .groups, .reduce, .faultsRest, .out] ⊆ P) (s : State) (n) (vc) (h) (body) :
    Frame P s (State.takeOrHold s n vc h body) := by
  simp only [List.cons_subset, List.nil_subset, and_true] at hl
  dsimp only [Frame, State.takeOrHold]
  simp [hl]

@[simp] theorem State.dataFrame_frame {P : List Part} (hl : [.halls, .queues, .fences, .engines, .ports, .protect,
    .xlatRest, .slots, .vaultRest, .links, .groups, .reduce, .units, .faultsRest, .gallery, .out] ⊆ P) (s : State) (n)
    (kind) (f) : Frame P s (State.dataFrame s n kind f) := by
  simp only [List.cons_subset, List.nil_subset, and_true] at hl
  unfold State.dataFrame
  refine State.ingress_frame (by simp [hl]) (k := ?_) ..
  intros
  simp [hl, Frame]

@[simp] theorem State.requestTimeout_frame {P : List Part} (hl : [.engines, .xlatRest, .links, .out] ⊆ P) (s : State)
    (n) (copy) (id) : Frame P s (State.requestTimeout s n copy id) := by
  simp only [List.cons_subset, List.nil_subset, and_true] at hl
  unfold State.requestTimeout
  dsimp only [Frame]
  (repeat' split) <;> simp [hl]

@[simp] theorem State.copyFrame_frame {P : List Part} (hl : [.halls, .queues, .fences, .engines, .ports, .protect,
    .xlatRest, .slots, .vaultRest, .links, .groups, .reduce, .units, .faultsRest, .gallery, .out] ⊆ P) (s : State) (n)
    (op) (f) : Frame P s (State.copyFrame s n op f) := by
  simp only [List.cons_subset, List.nil_subset, and_true] at hl
  unfold State.copyFrame
  dsimp only [Frame]
  (repeat' split) <;> simp [hl]

@[simp] theorem State.chunkErrorOf_frame {P : List Part} (hl : [.halls, .queues, .fences, .xlatRest, .links, .groups,
    .reduce, .units, .faultsRest, .out] ⊆ P) (t : State) (s : State) (n) (f) (err) : Frame P t (State.chunkErrorOf t s
    n f err) := by
  simp only [List.cons_subset, List.nil_subset, and_true] at hl
  unfold State.chunkErrorOf
  dsimp only [Frame]
  (repeat' split) <;> simp [hl]

theorem State.signalIn_frame {P : List Part} (hl : [.halls, .queues, .fences, .engines, .xlatRest, .links, .groups,
    .reduce, .units, .faultsRest, .gallery, .out] ⊆ P) (s : State) (n code f use) (k : ∀ h body t, Frame P t (use h
    body t)) : Frame P s (State.signalIn s n code f use) := by
  simp only [List.cons_subset, List.nil_subset, and_true] at hl
  unfold State.signalIn
  (repeat' split) <;> first
    | exact Frame.refl s
    | exact State.ingressNow_frame (by simp [hl]) (k := k) ..

@[simp] theorem State.installGroup_frame {P : List Part} (hl : [.halls, .groups] ⊆ P) (s : State) (g) (key) : Frame P
    s (State.installGroup s g key) := by
  simp only [List.cons_subset, List.nil_subset, and_true] at hl
  dsimp only [Frame, State.installGroup]
  simp [hl]

@[simp] theorem State.groupKeyArrives_frame {P : List Part} (hl : [.halls, .engines, .ports, .protect, .xlatRest,
    .slots, .vaultRest, .groups, .faultsRest, .out] ⊆ P) (s : State) (g) (sender) (wrapped) : Frame P s
    (State.groupKeyArrives s g sender wrapped) := by
  simp only [List.cons_subset, List.nil_subset, and_true] at hl
  unfold State.groupKeyArrives
  dsimp only [Frame]
  (repeat' split) <;> simp [hl]

@[simp] theorem State.groupKeyRetry_frame {P : List Part} (hl : [.links, .groups, .freeCtr] ⊆ P) (s : State) (g) :
    Frame P s (State.groupKeyRetry s g) := by
  simp only [List.cons_subset, List.nil_subset, and_true] at hl
  dsimp only [Frame, State.groupKeyRetry]
  simp [hl]

@[simp] theorem State.samplePower_frame {P : List Part} (hl : [.gallery, .freeCtr] ⊆ P) (s : State) : Frame P s
    (State.samplePower s) := by
  simp only [List.cons_subset, List.nil_subset, and_true] at hl
  dsimp only [Frame, State.samplePower]
  simp [hl]

@[simp] theorem State.rotate_frame {P : List Part} (hl : [.pools] ⊆ P) (s : State) (k) (r) : Frame P s (State.rotate s
    k r) := by
  simp only [List.cons_subset, List.nil_subset, and_true] at hl
  dsimp only [Frame, State.rotate]
  simp [hl]

@[simp] theorem State.limitChanged_frame {P : List Part} (hl : [.planRest, .halls, .queues, .contexts, .deadlines,
    .engines, .xlatRest, .commit] ⊆ P) (s : State) (h) (q) : Frame P s (State.limitChanged s h q) := by
  simp only [List.cons_subset, List.nil_subset, and_true] at hl
  unfold State.limitChanged
  dsimp only [Frame]
  (repeat' split) <;> simp [hl]

@[simp] theorem State.serve_frame {P : List Part} (hl : [.queues, .engines, .out] ⊆ P) (s : State) (p) (h) : Frame P s
    (State.serve s p h) := by
  simp only [List.cons_subset, List.nil_subset, and_true] at hl
  unfold State.serve
  dsimp only [Frame]
  (repeat' split) <;> simp [hl]

@[simp] theorem State.changeUnfed_frame {P : List Part} (hl : [.queues, .engines, .out] ⊆ P) (s : State) (h) (n)
    (free) : Frame P s (State.changeUnfed s h n free) := by
  simp only [List.cons_subset, List.nil_subset, and_true] at hl
  dsimp only [Frame, State.changeUnfed]
  simp [hl]

@[simp] theorem State.grant_frame {P : List Part} (hl : [.queues, .engines, .out] ⊆ P) (s : State) (p) (h) (q) (v) (i)
    : Frame P s (State.grant s p h q v i) := by
  simp only [List.cons_subset, List.nil_subset, and_true] at hl
  dsimp only [Frame, State.grant]
  simp [hl]

@[simp] theorem State.serveHall_frame {P : List Part} (hl : [.planRest, .halls, .queues, .contexts, .deadlines,
    .engines, .xlatRest, .commit, .out] ⊆ P) (i h n free q) (s : State) : Frame P s (State.serveHall i h n free q s)
    := by
  simp only [List.cons_subset, List.nil_subset, and_true] at hl
  induction n generalizing free q s with
  | zero => unfold State.serveHall; simp [hl, Frame]
  | succ n ih =>
    unfold State.serveHall
    (repeat' split)
    all_goals first
      | (simp [hl, Frame]; done)
      | (refine Frame.trans ?_ (ih _ _ _); simp [hl, Frame])

@[simp] theorem State.grantSlot_frame {P : List Part} (hl : [.planRest, .halls, .queues, .contexts, .pools,
    .deadlines, .engines, .xlatRest, .commit, .out] ⊆ P) (s : State) (k) (ready) : Frame P s (State.grantSlot s k
    ready) := by
  simp only [List.cons_subset, List.nil_subset, and_true] at hl
  dsimp only [Frame, State.grantSlot]
  simp [hl]

@[simp] theorem State.decideDeadline_frame {P : List Part} (hl : [.deadlines] ⊆ P) (s : State) (fallbacks) (h) : Frame
    P s (State.decideDeadline s fallbacks h) := by
  simp only [List.cons_subset, List.nil_subset, and_true] at hl
  unfold State.decideDeadline
  dsimp only [Frame]
  (repeat' split) <;> simp [hl]

@[simp] theorem State.sampleDecision_frame {P : List Part} (hl : [.timerRest, .planRest] ⊆ P) (s : State) (thermLow) :
    Frame P s (State.sampleDecision s thermLow) := by
  simp only [List.cons_subset, List.nil_subset, and_true] at hl
  simp [hl, Frame, without, State.sampleDecision]

@[simp] theorem State.stopEngine_frame {P : List Part} (hl : [.queues, .engines, .out] ⊆ P) (s : State) (h) (p) :
    Frame P s (State.stopEngine s h p) := by
  simp only [List.cons_subset, List.nil_subset, and_true] at hl
  dsimp only [Frame, State.stopEngine]
  simp [hl]

@[simp] theorem State.stopEngines_frame {P : List Part} (hl : [.queues, .pools, .engines, .out] ⊆ P) (s : State) (h) :
    Frame P s (State.stopEngines s h) := by
  simp only [List.cons_subset, List.nil_subset, and_true] at hl
  dsimp only [Frame, State.stopEngines]
  simp [hl]

@[simp] theorem State.preemptOwners_frame {P : List Part} (hl : [.queues, .engines, .out] ⊆ P) (s : State) (new) :
    Frame P s (State.preemptOwners s new) := by
  simp only [List.cons_subset, List.nil_subset, and_true] at hl
  dsimp only [Frame, State.preemptOwners]
  simp [hl]

@[simp] theorem State.decisionPoint_frame {P : List Part} (hl : [.timerRest, .planRest, .queues, .pools, .deadlines,
    .engines, .out] ⊆ P) (s : State) (thermLow) (fallbacks) : Frame P s (State.decisionPoint s thermLow fallbacks) :=
    by
  simp only [List.cons_subset, List.nil_subset, and_true] at hl
  unfold State.decisionPoint
  dsimp only [Frame]
  (repeat' split) <;> simp [hl]

@[simp] theorem State.enterSlot_frame {P : List Part} (hl : [.timerRest, .planRest, .queues, .pools, .deadlines,
    .engines, .out] ⊆ P) (s : State) (k) (thermLow) (fallbacks) : Frame P s (State.enterSlot s k thermLow fallbacks)
    := by
  simp only [List.cons_subset, List.nil_subset, and_true] at hl
  dsimp only [Frame, State.enterSlot]
  simp [hl]

@[simp] theorem State.endCorrection_frame {P : List Part} (hl : [.timerRest] ⊆ P) (s : State) (k) : Frame P s
    (State.endCorrection s k) := by
  simp only [List.cons_subset, List.nil_subset, and_true] at hl
  dsimp only [Frame, State.endCorrection]
  simp [hl]

@[simp] theorem State.passSlot_frame {P : List Part} (hl : [.queues, .engines] ⊆ P) (s : State) : Frame P s
    (State.passSlot s) := by
  simp only [List.cons_subset, List.nil_subset, and_true] at hl
  dsimp only [Frame, State.passSlot]
  simp [hl]

@[simp] theorem State.slotDecision_frame {P : List Part} (hl : [.timerRest, .planRest, .halls, .queues, .contexts,
    .pools, .deadlines, .engines, .xlatRest, .commit, .gallery, .out, .freeCtr] ⊆ P) (s : State) (k) (thermLow)
    (fallbacks) : Frame P s (State.slotDecision s k thermLow fallbacks) := by
  simp only [List.cons_subset, List.nil_subset, and_true] at hl
  dsimp only [Frame, State.slotDecision]
  simp [hl]

@[simp] theorem State.countQuiet_frame {P : List Part} (hl : [.units] ⊆ P) (s : State) : Frame P s (State.countQuiet
    s) := by
  simp only [List.cons_subset, List.nil_subset, and_true] at hl
  dsimp only [Frame, State.countQuiet]
  simp [hl]

@[simp] theorem State.dropWithdrawal_frame {P : List Part} (hl : [.xlatRest] ⊆ P) (s : State) (w) : Frame P s
    (State.dropWithdrawal s w) := by
  simp only [List.cons_subset, List.nil_subset, and_true] at hl
  dsimp only [Frame, State.dropWithdrawal]
  simp [hl]

@[simp] theorem State.withdrawEntry_frame {P : List Part} (hl : [.halls, .protect, .segs, .windows, .xlatRest, .slots]
    ⊆ P) (s : State) (w) : Frame P s (State.withdrawEntry s w) := by
  simp only [List.cons_subset, List.nil_subset, and_true] at hl
  unfold State.withdrawEntry
  dsimp only [Frame]
  (repeat' split) <;> simp [hl]

@[simp] theorem State.withdrawalDone_frame {P : List Part} (hl : [.halls, .protect, .segs, .windows, .xlatRest,
    .slots] ⊆ P) (s : State) (w) : Frame P s (State.withdrawalDone s w) := by
  simp only [List.cons_subset, List.nil_subset, and_true] at hl
  unfold State.withdrawalDone
  dsimp only [Frame]
  (repeat' split) <;> simp [hl]

@[simp] theorem State.retireUsers_frame {P : List Part} (hl : [.funcs, .engines, .ports, .protect, .xlatRest, .slots,
    .vaultRest, .links, .out] ⊆ P) (s : State) (w) : Frame P s (State.retireUsers s w) := by
  simp only [List.cons_subset, List.nil_subset, and_true] at hl
  unfold State.retireUsers
  split
  · dsimp only
    split <;> simp [hl, Frame]
  · dsimp only
    refine Frame.trans (forEach_frame (s.windowUsers _) _ _ ?_) (forEach_frame _ _ _ ?_)
    · intro u t
      simp [hl]
    · intro u t
      simp [hl]
  · split
    · rfl
    · dsimp only
      refine Frame.trans (forEach_frame _ _ _ ?_) ((State.modFunc_frame (by simp [hl])) _ _ _)
      intro i t
      (repeat' split) <;> simp [hl]

@[simp] theorem State.drainTimeout_frame {P : List Part} (hl : [.halls, .funcs, .engines, .ports, .protect, .segs,
    .windows, .xlatRest, .slots, .vaultRest, .links, .out] ⊆ P) (s : State) (w) : Frame P s (State.drainTimeout s w)
    := by
  simp only [List.cons_subset, List.nil_subset, and_true] at hl
  unfold State.drainTimeout
  dsimp only [Frame]
  (repeat' split) <;> simp [hl]

@[simp] theorem State.scrubDone_frame {P : List Part} (hl : [.xlatRest] ⊆ P) (s : State) (k) : Frame P s
    (State.scrubDone s k) := by
  simp only [List.cons_subset, List.nil_subset, and_true] at hl
  unfold State.scrubDone
  dsimp only [Frame]
  (repeat' split) <;> simp [hl]

@[simp] theorem State.patrolScrub_frame {P : List Part} (hl : [.halls, .engines, .ports, .protect, .xlatRest,
    .vaultRest, .links, .units, .faultsRest, .out] ⊆ P) (s : State) (m) (raw) : Frame P s (State.patrolScrub s m raw)
    := by
  simp only [List.cons_subset, List.nil_subset, and_true] at hl
  unfold State.patrolScrub
  dsimp only [Frame]
  (repeat' split) <;> simp [hl]

@[simp] theorem State.patrolReads_frame {P : List Part} (hl : [.halls, .ports, .out] ⊆ P) (s : State) (r) (level) (i)
    : Frame P s (State.patrolReads s r level i) := by
  simp only [List.cons_subset, List.nil_subset, and_true] at hl
  dsimp only [Frame, State.patrolReads]
  simp [hl]

@[simp] theorem State.patrolB_frame {P : List Part} (hl : [.halls, .ports, .protect, .xlatRest, .faultsRest, .out] ⊆
    P) (s : State) (r) (level) (i) (parent) (b) (c) : Frame P s (State.patrolB s r level i parent b c) := by
  simp only [List.cons_subset, List.nil_subset, and_true] at hl
  unfold State.patrolB
  dsimp only [Frame]
  (repeat' split) <;> simp [hl]

@[simp] theorem State.treePatrol_frame {P : List Part} (hl : [.halls, .ports, .protect, .xlatRest, .vaultRest,
    .faultsRest, .out] ⊆ P) (s : State) (k) (level) (node) (copies) (parent) : Frame P s (State.treePatrol s k level
    node copies parent) := by
  simp only [List.cons_subset, List.nil_subset, and_true] at hl
  unfold State.treePatrol
  dsimp only [Frame]
  (repeat' split) <;> simp [hl]

@[simp] theorem State.afterZeroise_frame {P : List Part} (hl : [.halls, .queues, .fences, .engines, .xlatRest, .links,
    .groups, .reduce, .faultsRest, .gallery, .out] ⊆ P) (s : State) (e) : Frame P s (State.afterZeroise s e) := by
  simp only [List.cons_subset, List.nil_subset, and_true] at hl
  unfold State.afterZeroise
  dsimp only [Frame]
  (repeat' split) <;> simp [hl]

@[simp] theorem State.vaultUe_frame {P : List Part} (hl : [.halls, .queues, .fences, .engines, .xlatRest, .hallKeys,
    .vaultRest, .links, .groups, .reduce, .faultsRest, .gallery, .out] ⊆ P) (s : State) (e) : Frame P s (State.vaultUe
    s e) := by
  simp only [List.cons_subset, List.nil_subset, and_true] at hl
  dsimp only [Frame, State.vaultUe]
  simp [hl]

@[simp] theorem State.nameUnit_frame {P : List Part} (hl : [.faultsRest] ⊆ P) (s : State) (u) : Frame P s
    (State.nameUnit s u) := by
  simp only [List.cons_subset, List.nil_subset, and_true] at hl
  dsimp only [Frame, State.nameUnit]
  simp [hl]

@[simp] theorem State.fltResult_frame {P : List Part} (hl : [.faultsRest] ⊆ P) (s : State) (r) : Frame P s
    (State.fltResult s r) := by
  simp only [List.cons_subset, List.nil_subset, and_true] at hl
  dsimp only [Frame, State.fltResult]
  simp [hl]

@[simp] theorem State.fenceUnit_frame {P : List Part} (hl : [.planRest, .halls, .queues, .fences, .contexts,
    .deadlines, .engines, .ports, .protect, .xlatRest, .vaultRest, .links, .groups, .reduce, .commit, .units,
    .faultsRest, .gallery, .out] ⊆ P) (s : State) (u) (cause) : Frame P s (State.fenceUnit s u cause) := by
  simp only [List.cons_subset, List.nil_subset, and_true] at hl
  unfold State.fenceUnit
  dsimp only [Frame]
  (repeat' split) <;> simp [hl]

@[simp] theorem State.cmdFence_frame {P : List Part} (hl : [.planRest, .halls, .queues, .fences, .contexts,
    .deadlines, .engines, .ports, .protect, .xlatRest, .vaultRest, .links, .groups, .reduce, .commit, .units,
    .faultsRest, .gallery, .out] ⊆ P) (s : State) (u) : Frame P s (State.cmdFence s u) := by
  simp only [List.cons_subset, List.nil_subset, and_true] at hl
  unfold State.cmdFence
  dsimp only [Frame]
  (repeat' split) <;> simp [hl]

@[simp] theorem State.returnUnit_frame {P : List Part} (hl : [.halls, .queues, .fences, .engines, .ports, .xlatRest,
    .links, .groups, .reduce, .units, .faultsRest, .gallery, .out] ⊆ P) (s : State) (u) (auto) : Frame P s
    (State.returnUnit s u auto) := by
  simp only [List.cons_subset, List.nil_subset, and_true] at hl
  unfold State.returnUnit
  dsimp only [Frame]
  (repeat' split) <;> simp [hl]

@[simp] theorem State.cmdUnfence_frame {P : List Part} (hl : [.halls, .queues, .fences, .engines, .ports, .xlatRest,
    .links, .groups, .reduce, .units, .faultsRest, .gallery, .out] ⊆ P) (s : State) (u) : Frame P s (State.cmdUnfence
    s u) := by
  simp only [List.cons_subset, List.nil_subset, and_true] at hl
  unfold State.cmdUnfence
  dsimp only [Frame]
  (repeat' split) <;> simp [hl]

@[simp] theorem State.loseSet_frame {P : List Part} (hl : [.halls, .engines, .ports, .protect, .segs, .xlatRest,
    .vaultRest, .faultsRest, .out] ⊆ P) (s : State) (m) : Frame P s (State.loseSet s m) := by
  simp only [List.cons_subset, List.nil_subset, and_true] at hl
  dsimp only [Frame, State.loseSet]
  simp [hl]

@[simp] theorem State.drainDone_frame {P : List Part} (hl : [.halls, .queues, .fences, .engines, .ports, .protect,
    .segs, .xlatRest, .vaultRest, .links, .groups, .reduce, .units, .faultsRest, .gallery, .out] ⊆ P) (s : State) (u)
    : Frame P s (State.drainDone s u) := by
  simp only [List.cons_subset, List.nil_subset, and_true] at hl
  unfold State.drainDone
  dsimp only [Frame]
  (repeat' split) <;> simp [hl]

@[simp] theorem State.unitReturns_frame {P : List Part} (hl : [.halls, .queues, .fences, .engines, .ports, .xlatRest,
    .links, .groups, .reduce, .units, .faultsRest, .gallery, .out] ⊆ P) (s : State) (u) : Frame P s (State.unitReturns
    s u) := by
  simp only [List.cons_subset, List.nil_subset, and_true] at hl
  dsimp only [Frame, State.unitReturns]
  simp [hl]

@[simp] theorem State.unpinned_frame {P : List Part} (hl : [.faultsRest] ⊆ P) (s : State) : Frame P s (State.unpinned
    s) := by
  simp only [List.cons_subset, List.nil_subset, and_true] at hl
  dsimp only [Frame, State.unpinned]
  simp [hl]

@[simp] theorem State.setDriveLow_frame {P : List Part} (hl : [.faultsRest, .out] ⊆ P) (s : State) (low) : Frame P s
    (State.setDriveLow s low) := by
  simp only [List.cons_subset, List.nil_subset, and_true] at hl
  dsimp only [Frame, State.setDriveLow]
  simp [hl]

@[simp] theorem State.pulseEnds_frame {P : List Part} (hl : [.faultsRest, .out] ⊆ P) (s : State) : Frame P s
    (State.pulseEnds s) := by
  simp only [List.cons_subset, List.nil_subset, and_true] at hl
  dsimp only [Frame, State.pulseEnds]
  simp [hl]

end Sys2Proof.Machine
end

