-- ==== Sys2Proof/Laws/FrameStride.lean ====
section
/-! SUPPORT. What the operations of the plan, the halls and the stride boundary can change: one lemma per operation,
    which names the parts of the state that it can write; every other part is as it was. -/

namespace Sys2Proof.Machine

open Sys2Proof.Safety

@[simp] theorem State.renameBacking_frame {P : List Part} (hl : [.halls, .engines, .ports, .protect, .commit] ⊆ P) (s
    : State) (a) (b) : Frame P s (State.renameBacking s a b) := by
  simp only [List.cons_subset, List.nil_subset, and_true] at hl
  simp [hl, Frame, without, State.renameBacking]

@[simp] theorem State.exchange_frame {P : List Part} (hl : [.halls, .engines, .ports, .protect, .segs, .slots,
    .commit] ⊆ P) (s : State) (a) (b) : Frame P s (State.exchange s a b) := by
  simp only [List.cons_subset, List.nil_subset, and_true] at hl
  dsimp only [Frame, State.exchange]
  simp [hl]

@[simp] theorem State.holdWrite_frame {P : List Part} (hl : [.halls, .engines, .ports, .protect, .xlatRest,
    .vaultRest, .commit, .faultsRest, .out] ⊆ P) (s : State) (h) (c) (k) (off) (data) : Frame P s (State.holdWrite s h
    c k off data) := by
  simp only [List.cons_subset, List.nil_subset, and_true] at hl
  dsimp only [Frame, State.holdWrite]
  simp [hl]

@[simp] theorem State.installPlan_frame {P : List Part} (hl : [.planActive, .planRest] ⊆ P) (s : State) (new) : Frame
    P s (State.installPlan s new) := by
  simp only [List.cons_subset, List.nil_subset, and_true] at hl
  simp [hl, Frame, without, State.installPlan]

@[simp] theorem State.clearTables_frame {P : List Part} (hl : [.fences, .deadlines, .lcRest] ⊆ P) (s : State) (h) :
    Frame P s (State.clearTables s h) := by
  simp only [List.cons_subset, List.nil_subset, and_true] at hl
  simp [hl, Frame, without, State.clearTables]

@[simp] theorem State.createHall_frame {P : List Part} (hl : [.halls, .funcs, .queues, .fences, .contexts, .deadlines,
    .lcRest, .mailboxes] ⊆ P) (s : State) (r) : Frame P s (State.createHall s r) := by
  simp only [List.cons_subset, List.nil_subset, and_true] at hl
  dsimp only [Frame, State.createHall]
  simp [hl]

@[simp] theorem State.createHalls_frame {P : List Part} (hl : [.halls, .funcs, .queues, .fences, .contexts,
    .deadlines, .lcRest, .mailboxes] ⊆ P) (s : State) : Frame P s (State.createHalls s) := by
  simp only [List.cons_subset, List.nil_subset, and_true] at hl
  dsimp only [Frame, State.createHalls]
  simp [hl]

@[simp] theorem State.dropHalls_frame {P : List Part} (hl : [.halls] ⊆ P) (s : State) : Frame P s (State.dropHalls s)
    := by
  simp only [List.cons_subset, List.nil_subset, and_true] at hl
  dsimp only [Frame, State.dropHalls]
  simp [hl]

@[simp] theorem State.withdrawOmitted_frame {P : List Part} (hl : [.segs, .xlatRest, .vaultRest] ⊆ P) (s : State) :
    Frame P s (State.withdrawOmitted s) := by
  simp only [List.cons_subset, List.nil_subset, and_true] at hl
  dsimp only [Frame, State.withdrawOmitted]
  simp [hl]

@[simp] theorem State.createSegs_frame {P : List Part} (hl : [.protect, .segs, .slots, .hallKeys] ⊆ P) (s : State) (l)
    : Frame P s (State.createSegs s l) := by
  simp only [List.cons_subset, List.nil_subset, and_true] at hl
  dsimp only [Frame, State.createSegs]
  simp [hl]

@[simp] theorem State.loadRecord_frame {P : List Part} (hl : [.halls] ⊆ P) (s : State) (r) : Frame P s
    (State.loadRecord s r) := by
  simp only [List.cons_subset, List.nil_subset, and_true] at hl
  dsimp only [Frame, State.loadRecord]
  simp [hl]

@[simp] theorem State.takeLinks_frame {P : List Part} (hl : [.halls, .queues, .fences, .engines, .xlatRest, .links,
    .groups, .reduce, .faultsRest, .gallery, .out] ⊆ P) (s : State) (old) : Frame P s (State.takeLinks s old) := by
  simp only [List.cons_subset, List.nil_subset, and_true] at hl
  dsimp only [Frame, State.takeLinks]
  simp [hl]

@[simp] theorem State.retime_frame {P : List Part} (hl : [.timerRest] ⊆ P) (s : State) : Frame P s (State.retime s) :=
    by
  simp only [List.cons_subset, List.nil_subset, and_true] at hl
  dsimp only [Frame, State.retime]
  simp [hl]

@[simp] theorem State.resetPools_frame {P : List Part} (hl : [.pools] ⊆ P) (s : State) (old) : Frame P s
    (State.resetPools s old) := by
  simp only [List.cons_subset, List.nil_subset, and_true] at hl
  dsimp only [Frame, State.resetPools]
  simp [hl]

@[simp] theorem State.parkEngines_frame {P : List Part} (hl : [.queues, .engines] ⊆ P) (s : State) (old) : Frame P s
    (State.parkEngines s old) := by
  simp only [List.cons_subset, List.nil_subset, and_true] at hl
  dsimp only [Frame, State.parkEngines]
  simp [hl]

@[simp] theorem State.rehome_frame {P : List Part} (hl : [.protect] ⊆ P) (s : State) (old) : Frame P s (State.rehome s
    old) := by
  simp only [List.cons_subset, List.nil_subset, and_true] at hl
  dsimp only [Frame, State.rehome]
  simp [hl]

@[simp] theorem State.resetDeadlines_frame {P : List Part} (hl : [.deadlines] ⊆ P) (s : State) (old) : Frame P s
    (State.resetDeadlines s old) := by
  simp only [List.cons_subset, List.nil_subset, and_true] at hl
  dsimp only [Frame, State.resetDeadlines]
  simp [hl]

@[simp] theorem State.swapIn_frame {P : List Part} (hl : [.timerRest, .planActive, .planRest, .halls, .funcs, .queues,
    .fences, .contexts, .pools, .deadlines, .engines, .ports, .protect, .segs, .xlatRest, .slots, .hallKeys,
    .vaultRest, .links, .groups, .reduce, .faultsRest, .lcRest, .mailboxes, .gallery, .out] ⊆ P) (s : State) (new) :
    Frame P s (State.swapIn s new) := by
  simp only [List.cons_subset, List.nil_subset, and_true] at hl
  dsimp only [Frame, State.swapIn]
  simp [hl]

@[simp] theorem State.closeDone_frame {P : List Part} (hl : [.planRest, .halls, .queues, .deadlines, .xlatRest,
    .commit] ⊆ P) (s : State) (h) (q) (hdr) : Frame P s (State.closeDone s h q hdr) := by
  simp only [List.cons_subset, List.nil_subset, and_true] at hl
  dsimp only [Frame, State.closeDone]
  simp [hl]

theorem State.applyStaged_frame {P : List Part} (hl : [.halls, .engines, .ports, .protect, .segs, .xlatRest, .slots,
    .hallKeys, .vaultRest, .commit, .faultsRest, .out] ⊆ P) (s : State) (h a t) (e : State.applyStaged s h a = .ok t)
    : Frame P s t := by
  simp only [List.cons_subset, List.nil_subset, and_true] at hl
  unfold State.applyStaged at e
  try dsimp only at e
  (repeat' split at e)
  all_goals first
    | (cases e; done)
    | (cases e; simp [hl, Frame])

theorem State.applyRecorded_frame {P : List Part} (hl : [.halls, .queues, .fences, .deadlines, .xlatRest] ⊆ P) (s :
    State) (h q g a t) (e : State.applyRecorded s h q g a = .ok t) : Frame P s t := by
  simp only [List.cons_subset, List.nil_subset, and_true] at hl
  unfold State.applyRecorded at e
  try dsimp only at e
  (repeat' split at e)
  all_goals first
    | (cases e; done)
    | (cases e; simp [hl, Frame])

theorem applyAll_frame {P : List Part} (f : State → Action → Except (BitVec 4) State) (l : List Action) (s t : State)
    (h : ∀ s a t, f s a = .ok t → Frame P s t) (e : applyAll f l s = .ok t) : Frame P s t := by
  induction l generalizing s with
  | nil => cases e; exact Frame.refl _
  | cons a l ih =>
    unfold applyAll at e
    split at e
    · next h1 => exact Frame.trans (h _ _ _ h1) (ih _ e)
    · cases e

theorem State.applySwap_frame {P : List Part} (hl : [.timerRest, .planActive, .planRest, .halls, .funcs, .queues,
    .fences, .contexts, .pools, .deadlines, .engines, .ports, .protect, .segs, .xlatRest, .slots, .hallKeys,
    .vaultRest, .links, .groups, .reduce, .faultsRest, .lcRest, .mailboxes, .gallery, .out] ⊆ P) (s : State) (staged
    t) (e : State.applySwap s staged = .ok t) : Frame P s t := by
  simp only [List.cons_subset, List.nil_subset, and_true] at hl
  unfold State.applySwap at e
  try dsimp only at e
  (repeat' split at e)
  all_goals first
    | (cases e; done)
    | (cases e; simp [hl, Frame])

theorem State.tryGroup_frame {P : List Part} (hl : [.timerRest, .planActive, .planRest, .halls, .funcs, .queues,
    .fences, .contexts, .pools, .deadlines, .engines, .ports, .protect, .segs, .xlatRest, .slots, .hallKeys,
    .vaultRest, .links, .groups, .reduce, .commit, .faultsRest, .lcRest, .mailboxes, .gallery, .out] ⊆ P) (s : State)
    (h g t) (e : State.tryGroup s h g = .ok t) : Frame P s t := by
  simp only [List.cons_subset, List.nil_subset, and_true] at hl
  unfold State.tryGroup at e
  try dsimp only at e
  split at e
  · cases e
  · next h1 =>
    split at e
    · cases e
    · next h2 =>
      split at e
      · cases e
      · next h3 =>
        cases e
        refine (applyAll_frame _ _ _ _ (fun _ _ _ => (State.applyStaged_frame (by simp [hl])) _ _ _ _) h1).trans
          ((applyAll_frame _ _ _ _ (fun _ _ _ => (State.applyRecorded_frame (by simp [hl])) _ _ _ _ _ _) h2).trans
            (((State.applySwap_frame (by simp [hl])) _ _ _ h3).trans ?_))
        dsimp only [Frame]
        simp [hl]

@[simp] theorem State.applyGroup_frame {P : List Part} (hl : [.timerRest, .planActive, .planRest, .halls, .funcs,
    .queues, .fences, .contexts, .pools, .deadlines, .engines, .ports, .protect, .segs, .xlatRest, .slots, .hallKeys,
    .vaultRest, .links, .groups, .reduce, .commit, .faultsRest, .lcRest, .mailboxes, .gallery, .out] ⊆ P) (s : State)
    (h) (g) : Frame P s (State.applyGroup s h g) := by
  simp only [List.cons_subset, List.nil_subset, and_true] at hl
  unfold State.applyGroup
  split
  · next h => exact (State.tryGroup_frame (by simp [hl])) _ _ _ _ h
  · dsimp only
    split <;> simp [hl, Frame]

@[simp] theorem applyDue_frame {P : List Part} (hl : [.timerRest, .planActive, .planRest, .halls, .funcs, .queues,
    .fences, .contexts, .pools, .deadlines, .engines, .ports, .protect, .segs, .xlatRest, .slots, .hallKeys,
    .vaultRest, .links, .groups, .reduce, .commit, .faultsRest, .lcRest, .mailboxes, .gallery, .out] ⊆ P) (l stop) (s
    : State) : Frame P s (applyDue l stop s) := by
  simp only [List.cons_subset, List.nil_subset, and_true] at hl
  induction l generalizing stop s with
  | nil => exact Frame.refl s
  | cons x l ih =>
    unfold applyDue
    (repeat' split)
    · exact ih _ _
    · exact ih _ _
    · exact Frame.trans (by simp [hl, Frame]) (ih _ _)

@[simp] theorem State.applyCommits_frame {P : List Part} (hl : [.timerRest, .planActive, .planRest, .halls, .funcs,
    .queues, .fences, .contexts, .pools, .deadlines, .engines, .ports, .protect, .segs, .xlatRest, .slots, .hallKeys,
    .vaultRest, .links, .groups, .reduce, .commit, .faultsRest, .lcRest, .mailboxes, .gallery, .out] ⊆ P) (s : State)
    : Frame P s (State.applyCommits s) := by
  simp only [List.cons_subset, List.nil_subset, and_true] at hl
  dsimp only [Frame, State.applyCommits]
  simp [hl]

@[simp] theorem State.dropHeld_frame {P : List Part} (hl : [.halls, .engines, .ports, .protect, .xlatRest, .vaultRest,
    .commit, .faultsRest, .out] ⊆ P) (s : State) (l) : Frame P s (State.dropHeld s l) := by
  simp only [List.cons_subset, List.nil_subset, and_true] at hl
  dsimp only [Frame, State.dropHeld]
  simp [hl]

@[simp] theorem State.writeHeld_frame {P : List Part} (hl : [.halls, .engines, .ports, .protect, .xlatRest,
    .vaultRest, .commit, .faultsRest, .out] ⊆ P) (s : State) (l) (ue) : Frame P s (State.writeHeld s l ue) := by
  simp only [List.cons_subset, List.nil_subset, and_true] at hl
  dsimp only [Frame, State.writeHeld]
  simp [hl]

@[simp] theorem State.heldWriteComplete_frame {P : List Part} (hl : [.halls, .engines, .ports, .protect, .xlatRest,
    .vaultRest, .commit, .faultsRest, .out] ⊆ P) (s : State) (h) (index) (ue) : Frame P s (State.heldWriteComplete s h
    index ue) := by
  simp only [List.cons_subset, List.nil_subset, and_true] at hl
  unfold State.heldWriteComplete
  dsimp only [Frame]
  (repeat' split) <;> simp [hl]

@[simp] theorem State.syncEdge_frame {P : List Part} (hl : [.timerRest] ⊆ P) (s : State) (c) (recognised) : Frame P s
    (State.syncEdge s c recognised) := by
  simp only [List.cons_subset, List.nil_subset, and_true] at hl
  dsimp only [Frame, State.syncEdge]
  simp [hl]

@[simp] theorem State.loseSync_frame {P : List Part} (hl : [.timerRest, .faultsRest, .out] ⊆ P) (s : State) : Frame P
    s (State.loseSync s) := by
  simp only [List.cons_subset, List.nil_subset, and_true] at hl
  dsimp only [Frame, State.loseSync]
  simp [hl]

@[simp] theorem State.serveStride_frame {P : List Part} (hl : [.planRest, .halls, .queues, .fences, .engines, .ports,
    .protect, .xlatRest, .hallKeys, .vaultRest, .links, .groups, .reduce, .commit, .units, .faultsRest, .out] ⊆ P) (s
    : State) : Frame P s (State.serveStride s) := by
  simp only [List.cons_subset, List.nil_subset, and_true] at hl
  dsimp only [Frame, State.serveStride]
  simp [hl]

@[simp] theorem State.swapDue_frame {P : List Part} (hl : [.timerRest, .planActive, .planRest, .halls, .funcs,
    .queues, .fences, .contexts, .pools, .deadlines, .engines, .ports, .protect, .segs, .xlatRest, .slots, .hallKeys,
    .vaultRest, .links, .groups, .reduce, .faultsRest, .lcRest, .mailboxes, .gallery, .out] ⊆ P) (s : State) : Frame P
    s (State.swapDue s) := by
  simp only [List.cons_subset, List.nil_subset, and_true] at hl
  unfold State.swapDue
  dsimp only [Frame]
  (repeat' split) <;> simp [hl]

@[simp] theorem State.takeEpochs_frame {P : List Part} (hl : [.hallKeys] ⊆ P) (s : State) : Frame P s
    (State.takeEpochs s) := by
  simp only [List.cons_subset, List.nil_subset, and_true] at hl
  dsimp only [Frame, State.takeEpochs]
  simp [hl]

@[simp] theorem State.beginScrub_frame {P : List Part} (hl : [.halls] ⊆ P) (s : State) (h) : Frame P s
    (State.beginScrub s h) := by
  simp only [List.cons_subset, List.nil_subset, and_true] at hl
  dsimp only [Frame, State.beginScrub]
  simp [hl]

@[simp] theorem State.endContent_frame {P : List Part} (hl : [.lcRest] ⊆ P) (s : State) (h) : Frame P s
    (State.endContent s h) := by
  simp only [List.cons_subset, List.nil_subset, and_true] at hl
  dsimp only [Frame, State.endContent]
  simp [hl]

@[simp] theorem State.drainCommits_frame {P : List Part} (hl : [.planRest, .halls, .queues, .xlatRest, .commit] ⊆ P)
    (s : State) (h) : Frame P s (State.drainCommits s h) := by
  simp only [List.cons_subset, List.nil_subset, and_true] at hl
  dsimp only [Frame, State.drainCommits]
  simp [hl]

@[simp] theorem State.beginDrain_frame {P : List Part} (hl : [.planRest, .halls, .queues, .pools, .engines, .xlatRest,
    .vaultRest, .commit, .lcRest, .out] ⊆ P) (s : State) (h) : Frame P s (State.beginDrain s h) := by
  simp only [List.cons_subset, List.nil_subset, and_true] at hl
  dsimp only [Frame, State.beginDrain]
  simp [hl]

@[simp] theorem State.hallResult_frame {P : List Part} (hl : [.halls] ⊆ P) (s : State) (h) (r) : Frame P s
    (State.hallResult s h r) := by
  simp only [List.cons_subset, List.nil_subset, and_true] at hl
  dsimp only [Frame, State.hallResult]
  simp [hl]

@[simp] theorem State.pauseQueue_frame {P : List Part} (hl : [.planRest, .halls, .queues, .contexts, .deadlines,
    .engines, .xlatRest, .commit] ⊆ P) (s : State) (h) (q) : Frame P s (State.pauseQueue s h q) := by
  simp only [List.cons_subset, List.nil_subset, and_true] at hl
  unfold State.pauseQueue
  dsimp only [Frame]
  (repeat' split) <;> simp [hl]

@[simp] theorem State.enterPaused_frame {P : List Part} (hl : [.planRest, .halls, .queues, .contexts, .pools,
    .deadlines, .engines, .xlatRest, .commit, .out] ⊆ P) (s : State) (h) : Frame P s (State.enterPaused s h) := by
  simp only [List.cons_subset, List.nil_subset, and_true] at hl
  dsimp only [Frame, State.enterPaused]
  simp [hl]

@[simp] theorem State.enterActive_frame {P : List Part} (hl : [.halls, .queues, .deadlines, .out] ⊆ P) (s : State) (h)
    : Frame P s (State.enterActive s h) := by
  simp only [List.cons_subset, List.nil_subset, and_true] at hl
  dsimp only [Frame, State.enterActive]
  simp [hl]

@[simp] theorem State.boundaryHall_frame {P : List Part} (hl : [.planRest, .halls, .queues, .contexts, .pools,
    .deadlines, .engines, .ports, .protect, .segs, .xlatRest, .slots, .hallKeys, .vaultRest, .commit, .faultsRest,
    .out] ⊆ P) (s : State) (h) : Frame P s (State.boundaryHall s h) := by
  simp only [List.cons_subset, List.nil_subset, and_true] at hl
  dsimp only [Frame, State.boundaryHall]
  simp [hl]

@[simp] theorem State.hallBoundary_frame {P : List Part} (hl : [.planRest, .halls, .queues, .contexts, .pools,
    .deadlines, .engines, .ports, .protect, .segs, .xlatRest, .slots, .hallKeys, .vaultRest, .commit, .faultsRest,
    .lcRest, .out] ⊆ P) (s : State) (h) : Frame P s (State.hallBoundary s h) := by
  simp only [List.cons_subset, List.nil_subset, and_true] at hl
  dsimp only [Frame, State.hallBoundary]
  simp [hl]

@[simp] theorem State.clearLate_frame {P : List Part} (hl : [.halls, .commit] ⊆ P) (s : State) : Frame P s
    (State.clearLate s) := by
  simp only [List.cons_subset, List.nil_subset, and_true] at hl
  simp [hl, Frame, without, State.clearLate]

@[simp] theorem State.findGuilty_frame {P : List Part} (hl : [.queues] ⊆ P) (s : State) : Frame P s (State.findGuilty
    s) := by
  simp only [List.cons_subset, List.nil_subset, and_true] at hl
  dsimp only [Frame, State.findGuilty]
  simp [hl]

@[simp] theorem State.modWatched_frame {P : List Part} (hl : [.queues] ⊆ P) (s : State) (h) (f) : Frame P s
    (State.modWatched s h f) := by
  simp only [List.cons_subset, List.nil_subset, and_true] at hl
  dsimp only [Frame, State.modWatched]
  simp [hl]

@[simp] theorem State.switchFallback_frame {P : List Part} (hl : [.planRest, .halls, .queues, .contexts, .deadlines,
    .engines, .xlatRest, .commit, .faultsRest, .out] ⊆ P) (s : State) (h) : Frame P s (State.switchFallback s h) := by
  simp only [List.cons_subset, List.nil_subset, and_true] at hl
  unfold State.switchFallback
  dsimp only [Frame]
  (repeat' split) <;> simp [hl]

@[simp] theorem State.applyBoundary_frame {P : List Part} (hl : [.timerRest, .planActive, .planRest, .halls, .funcs,
    .queues, .fences, .contexts, .pools, .deadlines, .engines, .ports, .protect, .segs, .xlatRest, .slots, .hallKeys,
    .vaultRest, .links, .groups, .reduce, .commit, .faultsRest, .lcRest, .mailboxes, .gallery, .out] ⊆ P) (s : State)
    : Frame P s (State.applyBoundary s) := by
  simp only [List.cons_subset, List.nil_subset, and_true] at hl
  dsimp only [Frame, State.applyBoundary]
  simp [hl]

@[simp] theorem State.startSlots_frame {P : List Part} (hl : [.halls, .engines] ⊆ P) (s : State) : Frame P s
    (State.startSlots s) := by
  simp only [List.cons_subset, List.nil_subset, and_true] at hl
  unfold State.startSlots
  dsimp only [Frame]
  (repeat' split) <;> simp (disch := (intros; (try dsimp only [Frame]); (repeat' split) <;> simp (disch := (intros; (try dsimp only [Frame]); (repeat' split) <;> simp [hl, *])) [hl, forAll_frame, forEach_frame, *])) [hl, forAll_frame, forEach_frame]

@[simp] theorem State.publish_frame {P : List Part} (hl : [.halls] ⊆ P) (s : State) (number) : Frame P s
    (State.publish s number) := by
  simp only [List.cons_subset, List.nil_subset, and_true] at hl
  dsimp only [Frame, State.publish]
  simp [hl]

@[simp] theorem State.endSlots_frame {P : List Part} (hl : [.halls, .engines] ⊆ P) (s : State) : Frame P s
    (State.endSlots s) := by
  simp only [List.cons_subset, List.nil_subset, and_true] at hl
  dsimp only [Frame, State.endSlots]
  simp [hl]

@[simp] theorem State.countHangs_frame {P : List Part} (hl : [.queues] ⊆ P) (s : State) : Frame P s (State.countHangs
    s) := by
  simp only [List.cons_subset, List.nil_subset, and_true] at hl
  dsimp only [Frame, State.countHangs]
  simp [hl]

@[simp] theorem State.countTables_frame {P : List Part} (hl : [.ports, .xlatRest, .groups, .reduce, .faultsRest,
    .mgmtMsgs] ⊆ P) (s : State) : Frame P s (State.countTables s) := by
  simp only [List.cons_subset, List.nil_subset, and_true] at hl
  simp [hl, Frame, without, State.countTables]

@[simp] theorem State.countLinks_frame {P : List Part} (hl : [.links] ⊆ P) (s : State) : Frame P s (State.countLinks
    s) := by
  simp only [List.cons_subset, List.nil_subset, and_true] at hl
  dsimp only [Frame, State.countLinks]
  simp [hl]

@[simp] theorem State.countStride_frame {P : List Part} (hl : [.ports, .xlatRest, .links, .groups, .reduce,
    .faultsRest, .mgmtMsgs] ⊆ P) (s : State) : Frame P s (State.countStride s) := by
  simp only [List.cons_subset, List.nil_subset, and_true] at hl
  dsimp only [Frame, State.countStride]
  simp [hl]

@[simp] theorem State.advance_frame {P : List Part} (hl : [.strideNum, .timerRest, .lcRest] ⊆ P) (s : State)
    (throttle) : Frame P s (State.advance s throttle) := by
  simp only [List.cons_subset, List.nil_subset, and_true] at hl
  simp [hl, Frame, without, State.advance]

@[simp] theorem State.takeTelemetry_frame {P : List Part} (hl : [.gallery] ⊆ P) (s : State) (ended) : Frame P s
    (State.takeTelemetry s ended) := by
  simp only [List.cons_subset, List.nil_subset, and_true] at hl
  dsimp only [Frame, State.takeTelemetry]
  simp [hl]

@[simp] theorem State.sampleWatts_frame {P : List Part} (hl : [.gallery, .freeCtr] ⊆ P) (s : State) : Frame P s
    (State.sampleWatts s) := by
  simp only [List.cons_subset, List.nil_subset, and_true] at hl
  dsimp only [Frame, State.sampleWatts]
  simp [hl]

@[simp] theorem State.openStride_frame {P : List Part} (hl : [.strideNum, .timerRest, .halls, .queues, .engines,
    .ports, .xlatRest, .links, .groups, .reduce, .faultsRest, .lcRest, .mgmtMsgs, .gallery, .out, .freeCtr] ⊆ P) (s :
    State) : Frame P s (State.openStride s) := by
  simp only [List.cons_subset, List.nil_subset, and_true] at hl
  dsimp only [Frame, State.openStride]
  simp [hl]

@[simp] theorem State.strideBoundary_frame {P : List Part} (hl : [.strideNum, .timerRest, .planActive, .planRest,
    .halls, .funcs, .queues, .fences, .contexts, .pools, .deadlines, .engines, .ports, .protect, .segs, .xlatRest,
    .slots, .hallKeys, .vaultRest, .links, .groups, .reduce, .commit, .units, .faultsRest, .lcRest, .mailboxes,
    .mgmtMsgs, .gallery, .out, .freeCtr] ⊆ P) (s : State) : Frame P s (State.strideBoundary s) := by
  simp only [List.cons_subset, List.nil_subset, and_true] at hl
  dsimp only [Frame, State.strideBoundary]
  simp [hl]

@[simp] theorem State.endRekeys_frame {P : List Part} (hl : [.protect, .slots, .vaultRest] ⊆ P) (s : State) (h) :
    Frame P s (State.endRekeys s h) := by
  simp only [List.cons_subset, List.nil_subset, and_true] at hl
  dsimp only [Frame, State.endRekeys]
  simp [hl]

@[simp] theorem State.dropTrees_frame {P : List Part} (hl : [.protect] ⊆ P) (s : State) (h) : Frame P s
    (State.dropTrees s h) := by
  simp only [List.cons_subset, List.nil_subset, and_true] at hl
  dsimp only [Frame, State.dropTrees]
  simp [hl]

@[simp] theorem State.endDrain_frame {P : List Part} (hl : [.halls, .protect, .segs, .windows, .xlatRest, .slots,
    .hallKeys, .vaultRest] ⊆ P) (s : State) (h) : Frame P s (State.endDrain s h) := by
  simp only [List.cons_subset, List.nil_subset, and_true] at hl
  dsimp only [Frame, State.endDrain]
  simp [hl]

@[simp] theorem State.startTeardownSeg_frame {P : List Part} (hl : [.segs, .xlatRest, .vaultRest] ⊆ P) (s : State) (k)
    : Frame P s (State.startTeardownSeg s k) := by
  simp only [List.cons_subset, List.nil_subset, and_true] at hl
  dsimp only [Frame, State.startTeardownSeg]
  simp [hl]

@[simp] theorem State.drainEntries_frame {P : List Part} (hl : [.segs, .windows, .xlatRest, .vaultRest] ⊆ P) (s :
    State) (h) : Frame P s (State.drainEntries s h) := by
  simp only [List.cons_subset, List.nil_subset, and_true] at hl
  dsimp only [Frame, State.drainEntries]
  simp [hl]

@[simp] theorem State.retireHall_frame {P : List Part} (hl : [.engines, .ports, .protect, .xlatRest, .links, .out] ⊆
    P) (s : State) (h) : Frame P s (State.retireHall s h) := by
  simp only [List.cons_subset, List.nil_subset, and_true] at hl
  dsimp only [Frame, State.retireHall]
  simp [hl]

@[simp] theorem State.drainFunc_frame {P : List Part} (hl : [.funcs, .engines, .ports, .protect, .xlatRest, .links,
    .out] ⊆ P) (s : State) (h) : Frame P s (State.drainFunc s h) := by
  simp only [List.cons_subset, List.nil_subset, and_true] at hl
  dsimp only [Frame, State.drainFunc]
  simp [hl]

@[simp] theorem State.drainQueues_frame {P : List Part} (hl : [.planRest, .halls, .queues, .deadlines, .engines,
    .ports, .protect, .xlatRest, .links, .commit] ⊆ P) (s : State) (h) : Frame P s (State.drainQueues s h) := by
  simp only [List.cons_subset, List.nil_subset, and_true] at hl
  dsimp only [Frame, State.drainQueues]
  simp [hl]

@[simp] theorem State.leaveGroups_frame {P : List Part} (hl : [.halls, .queues, .fences, .xlatRest, .links, .groups,
    .reduce, .faultsRest, .out] ⊆ P) (s : State) (h) : Frame P s (State.leaveGroups s h) := by
  simp only [List.cons_subset, List.nil_subset, and_true] at hl
  dsimp only [Frame, State.leaveGroups]
  simp [hl]

@[simp] theorem State.retireAllOf_frame {P : List Part} (hl : [.planRest, .halls, .funcs, .queues, .fences,
    .deadlines, .engines, .ports, .protect, .segs, .windows, .xlatRest, .vaultRest, .links, .groups, .reduce, .commit,
    .faultsRest, .out] ⊆ P) (s : State) (h) : Frame P s (State.retireAllOf s h) := by
  simp only [List.cons_subset, List.nil_subset, and_true] at hl
  dsimp only [Frame, State.retireAllOf]
  simp [hl]

@[simp] theorem State.drainEnd_frame {P : List Part} (hl : [.planRest, .halls, .funcs, .queues, .fences, .deadlines,
    .engines, .ports, .protect, .segs, .windows, .xlatRest, .slots, .hallKeys, .vaultRest, .links, .groups, .reduce,
    .commit, .faultsRest, .out] ⊆ P) (s : State) (h) : Frame P s (State.drainEnd s h) := by
  simp only [List.cons_subset, List.nil_subset, and_true] at hl
  dsimp only [Frame, State.drainEnd]
  simp [hl]

@[simp] theorem State.endScrubs_frame {P : List Part} (hl : [.fences, .xlatRest] ⊆ P) (s : State) (h) : Frame P s
    (State.endScrubs s h) := by
  simp only [List.cons_subset, List.nil_subset, and_true] at hl
  simp [hl, Frame, without, State.endScrubs]

@[simp] theorem State.scrubComplete_frame {P : List Part} (hl : [.halls, .queues, .fences, .xlatRest] ⊆ P) (s : State)
    (h) : Frame P s (State.scrubComplete s h) := by
  simp only [List.cons_subset, List.nil_subset, and_true] at hl
  dsimp only [Frame, State.scrubComplete]
  simp [hl]

@[simp] theorem State.guiltyReset_frame {P : List Part} (hl : [.planRest, .halls, .queues, .deadlines, .engines,
    .ports, .protect, .xlatRest, .links, .commit, .faultsRest, .out] ⊆ P) (s : State) (h) (q) : Frame P s
    (State.guiltyReset s h q) := by
  simp only [List.cons_subset, List.nil_subset, and_true] at hl
  dsimp only [Frame, State.guiltyReset]
  simp [hl]

@[simp] theorem State.planLoad_frame {P : List Part} (hl : [.planRest, .out] ⊆ P) (s : State) (flash) : Frame P s
    (State.planLoad s flash) := by
  simp only [List.cons_subset, List.nil_subset, and_true] at hl
  unfold State.planLoad
  dsimp only [Frame]
  (repeat' split) <;> simp [hl, without]

@[simp] theorem State.planCancel_frame {P : List Part} (hl : [.planRest, .halls, .queues, .xlatRest, .commit] ⊆ P) (s
    : State) : Frame P s (State.planCancel s) := by
  simp only [List.cons_subset, List.nil_subset, and_true] at hl
  unfold State.planCancel
  dsimp only [Frame]
  (repeat' split) <;> simp [hl]

@[simp] theorem State.planVerified_frame {P : List Part} (hl : [.planRest] ⊆ P) (s : State) (source) : Frame P s
    (State.planVerified s source) := by
  simp only [List.cons_subset, List.nil_subset, and_true] at hl
  unfold State.planVerified
  dsimp only [Frame]
  (repeat' split) <;> simp [hl]

@[simp] theorem State.cmdTeardown_frame {P : List Part} (hl : [.halls] ⊆ P) (s : State) (h) : Frame P s
    (State.cmdTeardown s h) := by
  simp only [List.cons_subset, List.nil_subset, and_true] at hl
  dsimp only [Frame, State.cmdTeardown]
  simp [hl]

@[simp] theorem State.cmdResume_frame {P : List Part} (hl : [.halls] ⊆ P) (s : State) (h) : Frame P s (State.cmdResume
    s h) := by
  simp only [List.cons_subset, List.nil_subset, and_true] at hl
  dsimp only [Frame, State.cmdResume]
  simp [hl]

@[simp] theorem State.writeTelemetry_frame {P : List Part} (hl : [.halls, .engines, .ports, .protect, .xlatRest,
    .vaultRest, .faultsRest, .gallery, .out] ⊆ P) (s : State) (h) (rec) : Frame P s (State.writeTelemetry s h rec) :=
    by
  simp only [List.cons_subset, List.nil_subset, and_true] at hl
  dsimp only [Frame, State.writeTelemetry]
  simp [hl]

@[simp] theorem State.telemetryWrite_frame {P : List Part} (hl : [.halls, .engines, .ports, .protect, .xlatRest,
    .vaultRest, .faultsRest, .gallery, .out] ⊆ P) (s : State) : Frame P s (State.telemetryWrite s) := by
  simp only [List.cons_subset, List.nil_subset, and_true] at hl
  dsimp only [Frame, State.telemetryWrite]
  simp [hl]

end Sys2Proof.Machine
end

