-- ==== Sys2Proof/Laws/FrameMail.lean ====
section
/-! SUPPORT. What the operations of the life cycle, the Gallery and the mailboxes can change: one lemma per operation,
    which names the parts of the state that it can write; every other part is as it was. -/

namespace Sys2Proof.Machine

open Sys2Proof.Safety

@[simp] theorem refuse_state (s : State) (reason) : (refuse s reason).state = s := rfl

@[simp] theorem State.takeForeign_frame {P : List Part} (hl : [.gallery] ⊆ P) (s : State) (ps) : Frame P s
    (State.takeForeign s ps) := by
  simp only [List.cons_subset, List.nil_subset, and_true] at hl
  dsimp only [Frame, State.takeForeign]
  simp [hl]

@[simp] theorem State.observe_frame {P : List Part} (hl : [.halls, .queues, .fences, .engines, .xlatRest, .links,
    .groups, .reduce, .units, .faultsRest, .gallery, .out] ⊆ P) (s : State) (n) (f) : Frame P s (State.observe s n f)
    := by
  simp only [List.cons_subset, List.nil_subset, and_true] at hl
  unfold State.observe
  refine State.ingressNow_frame (by simp [hl]) (k := ?_) ..
  intros
  simp [hl, Frame]

@[simp] theorem State.otpJobDone_frame {P : List Part} (hl : [.lcRest] ⊆ P) (s : State) (target) : Frame P s
    (State.otpJobDone s target) := by
  simp only [List.cons_subset, List.nil_subset, and_true] at hl
  dsimp only [Frame, State.otpJobDone]
  simp [hl]

@[simp] theorem State.startOtp_frame {P : List Part} (hl : [.lcRest, .out] ⊆ P) (s : State) (job) (target) : Frame P s
    (State.startOtp s job target) := by
  simp only [List.cons_subset, List.nil_subset, and_true] at hl
  unfold State.startOtp
  dsimp only [Frame]
  (repeat' split) <;> simp [hl]

@[simp] theorem State.transition_frame {P : List Part} (hl : [.lcRest, .out, .freeCtr] ⊆ P) (s : State) (code) : Frame
    P s (State.transition s code) := by
  simp only [List.cons_subset, List.nil_subset, and_true] at hl
  unfold State.transition
  split
  · rfl
  · dsimp only
    split
    · split
      · refine Frame.trans (t := { s with lc := { s.lc with result := s.transitionResult (LcState.ofCode code) } }) (by simp [hl, Frame]) ?_
        refine Frame.trans ?_ ((State.startOtp_frame (by simp [hl])) _ _ _)
        split <;> simp [hl, Frame, without]
      · simp [hl, Frame]
    · simp [hl, Frame]

@[simp] theorem State.otpCmd_frame {P : List Part} (hl : [.lcRest, .out] ⊆ P) (s : State) (w) (data) : Frame P s
    (State.otpCmd s w data) := by
  simp only [List.cons_subset, List.nil_subset, and_true] at hl
  dsimp only [Frame, State.otpCmd]
  simp [hl]

@[simp] theorem State.zeroiseVault_frame {P : List Part} (hl : [.slots, .hallKeys, .vaultRest, .links, .groups] ⊆ P)
    (s : State) : Frame P s (State.zeroiseVault s) := by
  simp only [List.cons_subset, List.nil_subset, and_true] at hl
  simp [hl, Frame, without, State.zeroiseVault]

@[simp] theorem State.otpBitDone_frame {P : List Part} (hl : [.slots, .hallKeys, .vaultRest, .links, .groups, .otp,
    .lcRest, .out] ⊆ P) (s : State) : Frame P s (State.otpBitDone s) := by
  simp only [List.cons_subset, List.nil_subset, and_true] at hl
  unfold State.otpBitDone
  dsimp only [Frame]
  (repeat' split) <;> simp [hl]

@[simp] theorem State.otpFailed_frame {P : List Part} (hl : [.faultsRest, .lcRest, .out] ⊆ P) (s : State) : Frame P s
    (State.otpFailed s) := by
  simp only [List.cons_subset, List.nil_subset, and_true] at hl
  unfold State.otpFailed
  dsimp only [Frame]
  (repeat' split) <;> simp [hl]

@[simp] theorem State.answerOpaque_frame {P : List Part} (hl : [.mailboxes, .freeCtr] ⊆ P) (s : State) (m) (kind) :
    Frame P s (State.answerOpaque s m kind) := by
  simp only [List.cons_subset, List.nil_subset, and_true] at hl
  dsimp only [Frame, State.answerOpaque]
  simp [hl]

@[simp] theorem State.spdmError_frame {P : List Part} (hl : [.mailboxes, .out, .freeCtr] ⊆ P) (s : State) (m) (sid) :
    Frame P s (State.spdmError s m sid) := by
  simp only [List.cons_subset, List.nil_subset, and_true] at hl
  dsimp only [Frame, State.spdmError]
  simp [hl]

@[simp] theorem State.spdm_frame {P : List Part} (hl : [.mailboxes, .out, .freeCtr] ⊆ P) (s : State) (m) (sid) (code)
    (f) : Frame P s (State.spdm s m sid code f) := by
  simp only [List.cons_subset, List.nil_subset, and_true] at hl
  unfold State.spdm
  dsimp only [Frame]
  (repeat' split) <;> simp [hl]

@[simp] theorem State.reply_frame {P : List Part} (hl : [.mailboxes, .out, .freeCtr] ⊆ P) (s : State) (m) (code)
    (result) (reason) (payload) : Frame P s (State.reply s m code result reason payload) := by
  simp only [List.cons_subset, List.nil_subset, and_true] at hl
  dsimp only [Frame, State.reply]
  simp [hl]

@[simp] theorem State.replyPlain_frame {P : List Part} (hl : [.mailboxes, .out] ⊆ P) (s : State) (m) (code) (result)
    (payload) : Frame P s (State.replyPlain s m code result payload) := by
  simp only [List.cons_subset, List.nil_subset, and_true] at hl
  dsimp only [Frame, State.replyPlain]
  simp [hl]

theorem State.serveRequest_frame {P : List Part} (hl : [.mailboxes, .out, .freeCtr] ⊆ P) (s : State) (m code payload
    sized run) (k : ∀ t p, Frame P t (run t p).state) : Frame P s (State.serveRequest s m code payload sized run) :=
    by
  simp only [List.cons_subset, List.nil_subset, and_true] at hl
  have kk : ∀ t p, without P (run t p).state = without P t := k
  unfold State.serveRequest
  split <;> simp [hl, kk, Frame]

theorem State.takeMessage_frame {P : List Part} (hl : [.mailboxes, .out, .freeCtr] ⊆ P) (s : State) (m d code may got
    sized run) (k : ∀ t p, Frame P t (run t p).state) : Frame P s (State.takeMessage s m d code may got sized run) :=
    by
  simp only [List.cons_subset, List.nil_subset, and_true] at hl
  unfold State.takeMessage
  (repeat' split) <;> first
    | simp [hl, Frame]; done
    | exact Frame.trans (by simp [hl, Frame]) (State.serveRequest_frame (by simp [hl]) (k := k) ..)

theorem State.dritha_frame {P : List Part} (hl : [.mailboxes, .out, .freeCtr] ⊆ P) (s : State) (m d code who allowed
    sized run) (k : ∀ t p, Frame P t (run t p).state) : Frame P s (State.dritha s m d code who allowed sized run) :=
    by
  simp only [List.cons_subset, List.nil_subset, and_true] at hl
  unfold State.dritha
  (repeat' split) <;> first
    | exact Frame.refl s
    | simp [hl, Frame]; done
    | exact Frame.trans (by simp [hl, Frame]) (State.takeMessage_frame (by simp [hl]) (k := k) ..)

@[simp] theorem State.contribute_frame {P : List Part} (hl : [.halls, .engines, .ports, .protect, .segs, .xlatRest,
    .slots, .hallKeys, .vaultRest, .faultsRest, .mailboxes, .out] ⊆ P) (s : State) (m) (sid) (c) : Frame P s
    (State.contribute s m sid c) := by
  simp only [List.cons_subset, List.nil_subset, and_true] at hl
  dsimp only [Frame, State.contribute]
  simp [hl]

@[simp] theorem State.installWindow_frame {P : List Part} (hl : [.windows] ⊆ P) (s : State) (h) (w) : Frame P s
    (State.installWindow s h w).state := by
  simp only [List.cons_subset, List.nil_subset, and_true] at hl
  unfold State.installWindow
  dsimp only [Frame]
  (repeat' split) <;> simp [hl]

@[simp] theorem State.askRekey_frame {P : List Part} (hl : [.slots, .hallKeys, .vaultRest] ⊆ P) (s : State) (h) (c)
    (i) : Frame P s (State.askRekey s h c i).state := by
  simp only [List.cons_subset, List.nil_subset, and_true] at hl
  unfold State.askRekey
  dsimp only [Frame]
  (repeat' split) <;> simp [hl]

@[simp] theorem State.admitTenant_frame {P : List Part} (hl : [.halls, .queues, .fences, .xlatRest, .links, .groups,
    .reduce, .faultsRest, .out, .freeCtr] ⊆ P) (s : State) (h) (g) (p) (sigsOk) : Frame P s (State.admitTenant s h g p
    sigsOk).state := by
  simp only [List.cons_subset, List.nil_subset, and_true] at hl
  unfold State.admitTenant
  dsimp only [Frame]
  (repeat' split) <;> simp [hl]

@[simp] theorem State.askStage_frame {P : List Part} (hl : [.planRest, .halls, .xlatRest, .commit, .faultsRest, .out]
    ⊆ P) (s : State) (h) (p) (src) : Frame P s (State.askStage s h p src).state := by
  simp only [List.cons_subset, List.nil_subset, and_true] at hl
  unfold State.askStage
  dsimp only [Frame]
  (repeat' split) <;> simp [hl]

@[simp] theorem State.restoreLines_frame {P : List Part} (hl : [.halls, .engines, .ports, .protect, .xlatRest,
    .vaultRest, .faultsRest, .out] ⊆ P) (s : State) (h) (c) (k) (off) (data) : Frame P s (State.restoreLines s h c k
    off data) := by
  simp only [List.cons_subset, List.nil_subset, and_true] at hl
  dsimp only [Frame, State.restoreLines]
  simp [hl]

@[simp] theorem State.restoreWrite_frame {P : List Part} (hl : [.halls, .engines, .ports, .protect, .xlatRest,
    .vaultRest, .faultsRest, .out] ⊆ P) (s : State) (h) (p) : Frame P s (State.restoreWrite s h p).state := by
  simp only [List.cons_subset, List.nil_subset, and_true] at hl
  unfold State.restoreWrite
  dsimp only [Frame]
  (repeat' split) <;> simp [hl]

@[simp] theorem State.takeCert_frame {P : List Part} (hl : [.slots, .hallKeys, .vaultRest, .links, .groups, .lcRest] ⊆
    P) (s : State) (b) : Frame P s (State.takeCert s b) := by
  simp only [List.cons_subset, List.nil_subset, and_true] at hl
  dsimp only [Frame, State.takeCert]
  simp [hl]

@[simp] theorem State.endRights_frame {P : List Part} (hl : [.lcRest] ⊆ P) (s : State) : Frame P s (State.endRights s)
    := by
  simp only [List.cons_subset, List.nil_subset, and_true] at hl
  dsimp only [Frame, State.endRights]
  simp [hl]

@[simp] theorem State.getIdKeys_frame {P : List Part} (hl : [.mailboxes, .out, .freeCtr] ⊆ P) (s : State) (m) (d) :
    Frame P s (State.getIdKeys s m d) := by
  simp only [List.cons_subset, List.nil_subset, and_true] at hl
  unfold State.getIdKeys
  (repeat' split) <;> first
    | exact Frame.refl _
    | (simp [hl, Frame]; done)
    | (refine State.dritha_frame (by simp [hl]) (k := ?_) ..; intros; simp [hl, Frame]; done)

@[simp] theorem State.rightsExpire_frame {P : List Part} (hl : [.lcRest] ⊆ P) (s : State) : Frame P s
    (State.rightsExpire s) := by
  simp only [List.cons_subset, List.nil_subset, and_true] at hl
  dsimp only [Frame, State.rightsExpire]
  simp [hl]

@[simp] theorem State.routeTrace_frame {P : List Part} (hl : [.links, .gallery] ⊆ P) (s : State) : Frame P s
    (State.routeTrace s) := by
  simp only [List.cons_subset, List.nil_subset, and_true] at hl
  dsimp only [Frame, State.routeTrace]
  simp [hl]

@[simp] theorem State.producePacket_frame {P : List Part} (hl : [.links, .gallery] ⊆ P) (s : State) (type) (hall)
    (body) : Frame P s (State.producePacket s type hall body) := by
  simp only [List.cons_subset, List.nil_subset, and_true] at hl
  dsimp only [Frame, State.producePacket]
  simp [hl]

@[simp] theorem State.tracePacket_frame {P : List Part} (hl : [.links, .gallery] ⊆ P) (s : State) (type) (h) (body) :
    Frame P s (State.tracePacket s type h body) := by
  simp only [List.cons_subset, List.nil_subset, and_true] at hl
  dsimp only [Frame, State.tracePacket]
  simp [hl]

@[simp] theorem State.dropPacket_frame {P : List Part} (hl : [.links, .gallery] ⊆ P) (s : State) : Frame P s
    (State.dropPacket s) := by
  simp only [List.cons_subset, List.nil_subset, and_true] at hl
  dsimp only [Frame, State.dropPacket]
  simp [hl]

end Sys2Proof.Machine
end

