-- ==== Sys2Proof/Laws/FrameRegs.lean ====
section
/-! SUPPORT. What the operations of resets, register accesses and the empty queue can change: one lemma per operation,
    which names the parts of the state that it can write; every other part is as it was. -/

namespace Sys2Proof.Machine

open Sys2Proof.Safety

@[simp] theorem State.respondReg_frame {P : List Part} (hl : [.out] ⊆ P) (s : State) (r) (data) (err) : Frame P s
    (State.respondReg s r data err) := by
  simp only [List.cons_subset, List.nil_subset, and_true] at hl
  dsimp only [Frame, State.respondReg]
  simp [hl]

@[simp] theorem State.deny_frame {P : List Part} (hl : [.core, .faultsRest, .out] ⊆ P) (s : State) (r) (write) (addr)
    : Frame P s (State.deny s r write addr) := by
  simp only [List.cons_subset, List.nil_subset, and_true] at hl
  dsimp only [Frame, State.deny]
  simp [hl]

theorem State.writeBy_frame {P : List Part} (hl : [.core, .faultsRest, .out] ⊆ P) (s : State) (r addr f) (k : ∀ t,
    Frame P t (f t)) : Frame P s (State.writeBy s r addr f) := by
  simp only [List.cons_subset, List.nil_subset, and_true] at hl
  have kk : ∀ t, without P (f t) = without P t := k
  unfold State.writeBy
  dsimp only [Frame]
  (repeat' split) <;> simp [hl, kk]

theorem State.hostWriteSized_frame {P : List Part} (hl : [.faultsRest, .out] ⊆ P) (s : State) (h be f) (k : ∀ t, Frame
    P t (f t)) : Frame P s (State.hostWriteSized s h be f) := by
  simp only [List.cons_subset, List.nil_subset, and_true] at hl
  unfold State.hostWriteSized
  split
  · exact k s
  · simp [hl, Frame]

@[simp] theorem State.writeMailbox_frame {P : List Part} (hl : [.mailboxes] ⊆ P) (s : State) (m) (off) (be) (data) :
    Frame P s (State.writeMailbox s m off be data) := by
  simp only [List.cons_subset, List.nil_subset, and_true] at hl
  unfold State.writeMailbox
  dsimp only [Frame]
  (repeat' split) <;> simp [hl]

@[simp] theorem State.writeWindow_frame {P : List Part} (hl : [.funcs, .queues, .mailboxes, .out] ⊆ P) (s : State) (h)
    (off) (be) (data) : Frame P s (State.writeWindow s h off be data) := by
  simp only [List.cons_subset, List.nil_subset, and_true] at hl
  dsimp only [Frame, State.writeWindow]
  simp [hl]

@[simp] theorem State.writePlan_frame {P : List Part} (hl : [.planRest, .halls, .queues, .xlatRest, .commit, .out] ⊆
    P) (s : State) (off) (be) (data) : Frame P s (State.writePlan s off be data) := by
  simp only [List.cons_subset, List.nil_subset, and_true] at hl
  unfold State.writePlan
  dsimp only [Frame]
  (repeat' split) <;> simp [hl]

@[simp] theorem State.writeHall_frame {P : List Part} (hl : [.halls] ⊆ P) (s : State) (off) (be) (data) : Frame P s
    (State.writeHall s off be data) := by
  simp only [List.cons_subset, List.nil_subset, and_true] at hl
  unfold State.writeHall
  dsimp only [Frame]
  (repeat' split) <;> simp [hl]

@[simp] theorem State.writeXlat_frame {P : List Part} (hl : [.windows] ⊆ P) (s : State) (off) (be) (data) : Frame P s
    (State.writeXlat s off be data) := by
  simp only [List.cons_subset, List.nil_subset, and_true] at hl
  dsimp only [Frame, State.writeXlat]
  simp [hl]

@[simp] theorem State.writeKey_frame {P : List Part} (hl : [.slots, .hallKeys, .vaultRest] ⊆ P) (s : State) (off) (be)
    (data) : Frame P s (State.writeKey s off be data) := by
  simp only [List.cons_subset, List.nil_subset, and_true] at hl
  dsimp only [Frame, State.writeKey]
  simp [hl]

@[simp] theorem State.writeFlt_frame {P : List Part} (hl : [.planRest, .halls, .queues, .fences, .contexts,
    .deadlines, .engines, .ports, .protect, .xlatRest, .vaultRest, .links, .groups, .reduce, .commit, .units,
    .faultsRest, .gallery, .out] ⊆ P) (s : State) (off) (be) (data) : Frame P s (State.writeFlt s off be data) := by
  simp only [List.cons_subset, List.nil_subset, and_true] at hl
  unfold State.writeFlt
  dsimp only [Frame]
  (repeat' split) <;> simp [hl]

@[simp] theorem State.writeLc_frame {P : List Part} (hl : [.lcRest, .out, .freeCtr] ⊆ P) (s : State) (off) (be) (data)
    : Frame P s (State.writeLc s off be data) := by
  simp only [List.cons_subset, List.nil_subset, and_true] at hl
  unfold State.writeLc
  dsimp only [Frame]
  (repeat' split) <;> simp [hl]

@[simp] theorem State.writeGal_frame {P : List Part} (hl : [.gallery] ⊆ P) (s : State) (off) (be) (data) : Frame P s
    (State.writeGal s off be data) := by
  simp only [List.cons_subset, List.nil_subset, and_true] at hl
  unfold State.writeGal
  dsimp only [Frame]
  (repeat' split) <;> simp [hl]

@[simp] theorem State.writeMgmt_frame {P : List Part} (hl : [.planRest, .halls, .queues, .fences, .contexts,
    .deadlines, .engines, .ports, .protect, .windows, .xlatRest, .slots, .hallKeys, .vaultRest, .links, .groups,
    .reduce, .commit, .units, .faultsRest, .lcRest, .mailboxes, .gallery, .out, .freeCtr] ⊆ P) (s : State) (addr) (be)
    (data) : Frame P s (State.writeMgmt s addr be data) := by
  simp only [List.cons_subset, List.nil_subset, and_true] at hl
  unfold State.writeMgmt
  dsimp only [Frame]
  (repeat' split) <;> simp [hl]

@[simp] theorem State.registerWrite_frame {P : List Part} (hl : [.core, .planRest, .halls, .funcs, .queues, .fences,
    .contexts, .deadlines, .engines, .ports, .protect, .windows, .xlatRest, .slots, .hallKeys, .vaultRest, .links,
    .groups, .reduce, .commit, .units, .faultsRest, .lcRest, .mailboxes, .gallery, .out, .freeCtr] ⊆ P) (s : State)
    (r) (addr) (be) (data) : Frame P s (State.registerWrite s r addr be data) := by
  simp only [List.cons_subset, List.nil_subset, and_true] at hl
  unfold State.registerWrite
  (repeat' split) <;> first
    | exact Frame.refl s
    | (simp [hl, Frame]; done)
    | (refine State.writeBy_frame (by simp [hl]) (k := ?_) ..; intro t; simp [hl, Frame]; done)
    | (refine State.hostWriteSized_frame (by simp [hl]) (k := ?_) ..
       intro t
       (repeat' split) <;> first
         | exact Frame.refl t
         | (simp [hl, Frame]; done)
         | (refine State.writeBy_frame (by simp [hl]) (k := ?_) ..; intro u; simp [hl, Frame]; done))

@[simp] theorem State.retireAll_frame {P : List Part} (hl : [.out] ⊆ P) (s : State) : Frame P s (State.retireAll s) :=
    by
  simp only [List.cons_subset, List.nil_subset, and_true] at hl
  unfold State.retireAll
  dsimp only [Frame]
  (repeat' split) <;> simp (disch := (intros; (try dsimp only [Frame]); (repeat' split) <;> simp (disch := (intros; (try dsimp only [Frame]); (repeat' split) <;> simp [hl, *])) [hl, forAll_frame, forEach_frame, *])) [hl, forAll_frame, forEach_frame]

@[simp] theorem State.loadHeaderPlan_frame {P : List Part} (hl : [.planRest, .out] ⊆ P) (s : State) : Frame P s
    (State.loadHeaderPlan s) := by
  simp only [List.cons_subset, List.nil_subset, and_true] at hl
  dsimp only [Frame, State.loadHeaderPlan]
  simp [hl]

@[simp] theorem State.fabricRelease_frame {P : List Part} (hl : [.core, .planRest, .engines, .out] ⊆ P) (s : State)
    (present) : Frame P s (State.fabricRelease s present) := by
  simp only [List.cons_subset, List.nil_subset, and_true] at hl
  unfold State.fabricRelease
  split
  · exact Frame.refl s
  · exact Frame.trans (by simp [hl, Frame, without]) (State.loadHeaderPlan_frame (by simp [hl]) _)

@[simp] theorem State.mgmtReset_frame {P : List Part} (hl : [.core, .vaultRest, .faultsRest, .mp, .lcRest, .mailboxes,
    .mgmtMsgs, .out] ⊆ P) (s : State)  : Frame P s (State.mgmtReset s ) := by
  simp only [List.cons_subset, List.nil_subset, and_true] at hl
  unfold State.mgmtReset
  dsimp only [Frame]
  (repeat' split) <;> simp [hl, without, State.emit, State.useFree]

@[simp] theorem State.readHeader_frame {P : List Part} (hl : [.out] ⊆ P) (s : State) : Frame P s (State.readHeader s)
    := by
  simp only [List.cons_subset, List.nil_subset, and_true] at hl
  dsimp only [Frame, State.readHeader]
  simp [hl]

@[simp] theorem State.startFirmware_frame {P : List Part} (hl : [.core, .planRest, .vaultRest, .mp, .lcRest, .out] ⊆
    P) (s : State) (c) : Frame P s (State.startFirmware s c) := by
  simp only [List.cons_subset, List.nil_subset, and_true] at hl
  unfold State.startFirmware
  dsimp only
  split
  · exact Frame.trans (by simp [hl, Frame, without]) (State.loadHeaderPlan_frame (by simp [hl]) _)
  · simp [hl, Frame, without]

@[simp] theorem State.readWin_frame {P : List Part} (hl : [.out] ⊆ P) (s : State) (r) (h) (off) (be) : Frame P s
    (State.readWin s r h off be) := by
  simp only [List.cons_subset, List.nil_subset, and_true] at hl
  dsimp only [Frame, State.readWin]
  simp [hl]

@[simp] theorem State.readBy_frame {P : List Part} (hl : [.core, .faultsRest, .out] ⊆ P) (s : State) (r) (x) : Frame P
    s (State.readBy s r x) := by
  simp only [List.cons_subset, List.nil_subset, and_true] at hl
  dsimp only [Frame, State.readBy]
  simp [hl]

@[simp] theorem State.readAccess_frame {P : List Part} (hl : [.core, .faultsRest, .out] ⊆ P) (s : State) (r) (x) :
    Frame P s (State.readAccess s r x) := by
  simp only [List.cons_subset, List.nil_subset, and_true] at hl
  unfold State.readAccess
  dsimp only [Frame]
  (repeat' split) <;> simp [hl]

@[simp] theorem State.clockWindow_frame {P : List Part} (hl : [.core] ⊆ P) (s : State) (edges) (hclk) (lclk) : Frame P
    s (State.clockWindow s edges hclk lclk) := by
  simp only [List.cons_subset, List.nil_subset, and_true] at hl
  dsimp only [Frame, State.clockWindow]
  simp [hl]

@[simp] theorem State.powerUp_frame {P : List Part} (hl : [.core] ⊆ P) (s : State) : Frame P s (State.powerUp s) := by
  simp only [List.cons_subset, List.nil_subset, and_true] at hl
  dsimp only [Frame, State.powerUp]
  simp [hl]

@[simp] theorem State.tracePort_frame {P : List Part} (hl : [.gallery, .out] ⊆ P) (s : State) : Frame P s
    (State.tracePort s) := by
  simp only [List.cons_subset, List.nil_subset, and_true] at hl
  unfold State.tracePort
  dsimp only [Frame]
  (repeat' split) <;> simp [hl]

@[simp] theorem tickFclk_frame {P : List Part} (hl : [.timerRest, .planRest, .halls, .queues, .fences, .engines,
    .ports, .protect, .xlatRest, .hallKeys, .vaultRest, .links, .commit, .faultsRest, .gallery, .out] ⊆ P) (s : State)
    : Frame P s (tickFclk s) := by
  simp only [List.cons_subset, List.nil_subset, and_true] at hl
  dsimp only [Frame, tickFclk]
  simp [hl]

end Sys2Proof.Machine
end

