-- ==== Sys2Proof/Laws/Tab.lean ====
section
/-! SUPPORT. The laws of sparse tables: a read after a write, and the canonical form that every write keeps. -/

namespace Sys2Proof.Machine

variable {α : Type} (d : α)

@[simp] theorem Tab.get_nil (k : Nat) : Tab.get d ([] : Tab α) k = d := rfl

/-- An erased entry reads as the default. -/
@[simp] theorem Tab.get_erase (t : Tab α) (k j : Nat) : Tab.get d (t.erase k) j = if j = k then d else Tab.get d t j := by
  unfold Tab.erase
  induction t with
  | nil => simp
  | cons e t ih =>
    obtain ⟨a, v⟩ := e
    by_cases h : a = k
    · subst h
      by_cases hj : j = a
      · simp [hj] at ih ⊢; exact ih
      · simpa [hj, Tab.get, Ne.symm hj] using ih
    · by_cases hj : a = j
      · subst hj; simp [h, Tab.get]
      · simp [h, hj, Tab.get, ih]

/-- An inserted entry is read back where no entry stood. -/
theorem Tab.get_insert (t : Tab α) (k j : Nat) (v : α) (h : ∀ e ∈ t, e.1 ≠ k) :
    Tab.get d (t.insert k v) j = if j = k then v else Tab.get d t j := by
  induction t with
  | nil => simp [Tab.insert, Tab.get, eq_comm]
  | cons e t ih =>
    obtain ⟨a, w⟩ := e
    have h' : ∀ e ∈ t, e.1 ≠ k := fun e he => h e (List.mem_cons_of_mem _ he)
    have hk : a ≠ k := h (a, w) List.mem_cons_self
    unfold Tab.insert
    split
    · by_cases hj : j = k
      · simp [Tab.get, hj]
      · simp [Tab.get, hj, Ne.symm hj]
    · by_cases hj : a = j
      · subst hj; simp [Tab.get, hk]
      · simp [Tab.get, hj, ih h']

/-- No entry of the key is left after an erasure. -/
theorem Tab.not_mem_erase (t : Tab α) (k : Nat) : ∀ e ∈ t.erase k, e.1 ≠ k := by
  simp [Tab.erase]

variable [DecidableEq α]

/-- A read after a write gives the value written at its key, and what stood before at every other. -/
@[simp] theorem Tab.get_set (t : Tab α) (k j : Nat) (v : α) :
    Tab.get d (t.set d k v) j = if j = k then v else Tab.get d t j := by
  unfold Tab.set
  split
  · next h => simp [h]
  · rw [Tab.get_insert d _ _ _ _ (Tab.not_mem_erase t k)]
    simp only [Tab.get_erase]
    split <;> rfl

@[simp] theorem Tab.get_mod (t : Tab α) (k j : Nat) (f : α → α) :
    Tab.get d (t.mod d k f) j = if j = k then f (Tab.get d t k) else Tab.get d t j := Tab.get_set d t k j _

omit [DecidableEq α] in
/-- A key above which all entries of a rising table stand reads as the default. -/
theorem Tab.get_of_lt (t : Tab α) (k : Nat) (h : ∀ e ∈ t, k < e.1) : Tab.get d t k = d := by
  induction t with
  | nil => rfl
  | cons e t ih =>
    have h1 := h e List.mem_cons_self
    simp only [Tab.get, show e.1 ≠ k by omega, if_false]
    exact ih fun e he => h e (List.mem_cons_of_mem _ he)

omit [DecidableEq α] in
/-- Erasing keeps the canonical form. -/
theorem Tab.wf_erase (t : Tab α) (k : Nat) (h : Tab.wf d t) : Tab.wf d (t.erase k) :=
  ⟨h.1.sublist List.filter_sublist, fun e he => h.2 e (List.mem_filter.mp he).1⟩

omit [DecidableEq α] in
/-- Keys of an insertion. -/
theorem Tab.mem_insert (t : Tab α) (k : Nat) (v : α) (e : Nat × α) (h : e ∈ t.insert k v) : e = (k, v) ∨ e ∈ t := by
  induction t with
  | nil => simpa [Tab.insert] using h
  | cons a t ih =>
    unfold Tab.insert at h
    split at h
    · simpa using h
    · rcases List.mem_cons.mp h with h | h
      · exact Or.inr (h ▸ List.mem_cons_self)
      · exact (ih h).imp id (List.mem_cons_of_mem _)

omit [DecidableEq α] in
/-- Inserting a value that is not the default, where no entry stood, keeps the canonical form. -/
theorem Tab.wf_insert (t : Tab α) (k : Nat) (v : α) (h : Tab.wf d t) (hk : ∀ e ∈ t, e.1 ≠ k) (hv : v ≠ d) :
    Tab.wf d (t.insert k v) := by
  induction t with
  | nil => exact ⟨List.pairwise_singleton _ _, by simpa [Tab.insert] using hv⟩
  | cons a t ih =>
    have hs := List.pairwise_cons.mp h.1
    have ih := ih ⟨hs.2, fun e he => h.2 e (List.mem_cons_of_mem _ he)⟩ fun e he => hk e (List.mem_cons_of_mem _ he)
    have ha : a.1 ≠ k := hk a List.mem_cons_self
    unfold Tab.insert
    split
    · next lt =>
      refine ⟨List.pairwise_cons.mpr ⟨fun e he => ?_, h.1⟩, fun e he => ?_⟩
      · rcases List.mem_cons.mp he with he | he
        · exact he ▸ lt
        · exact Nat.lt_trans lt (hs.1 e he)
      · rcases List.mem_cons.mp he with he | he
        · exact he ▸ hv
        · exact h.2 e he
    · next ge =>
      refine ⟨List.pairwise_cons.mpr ⟨fun e he => ?_, ih.1⟩, fun e he => ?_⟩
      · rcases Tab.mem_insert t k v e he with he | he
        · rw [he]; simp only; omega
        · exact hs.1 e he
      · rcases List.mem_cons.mp he with he | he
        · exact he ▸ h.2 a List.mem_cons_self
        · exact ih.2 e he

/-- Every write keeps the canonical form. -/
theorem Tab.wf_set (t : Tab α) (k : Nat) (v : α) (h : Tab.wf d t) : Tab.wf d (t.set d k v) := by
  unfold Tab.set
  split
  · exact Tab.wf_erase d t k h
  · next hv => exact Tab.wf_insert d _ k v (Tab.wf_erase d t k h) (Tab.not_mem_erase t k) hv

theorem Tab.wf_mod (t : Tab α) (k : Nat) (f : α → α) (h : Tab.wf d t) : Tab.wf d (t.mod d k f) := Tab.wf_set d t k _ h

/-- A put is a write, read back as a write is. -/
theorem Tab.get_put (t : Tab α) (k j : Nat) (v : α) (h : Tab.wf d t) :
    Tab.get d (Tab.put d t k v) j = if j = k then v else Tab.get d t j := by
  unfold Tab.put
  cases t with
  | nil =>
    by_cases hv : v = d
    · simp [hv]
    · by_cases hj : j = k
      · simp [hv, hj, Tab.get]
      · simp [hv, hj, Tab.get, Ne.symm hj]
  | cons e t =>
    dsimp only
    split
    · next lt =>
      have above : ∀ x ∈ e :: t, k < x.1 := by
        intro x hx
        rcases List.mem_cons.mp hx with hx | hx
        · exact hx ▸ lt
        · exact Nat.lt_trans lt ((List.pairwise_cons.mp h.1).1 x hx)
      by_cases hv : v = d
      · by_cases hj : j = k
        · simp only [hv, if_true, hj]
          exact Tab.get_of_lt d _ k above
        · simp [hv, hj]
      · by_cases hj : j = k
        · simp [hv, hj, Tab.get]
        · rw [if_neg hv, if_neg hj]
          show (if k = j then v else Tab.get d (e :: t) j) = _
          rw [if_neg (Ne.symm hj)]
    · exact Tab.get_set d _ k j v

/-- A put keeps the canonical form. -/
theorem Tab.wf_put (t : Tab α) (k : Nat) (v : α) (h : Tab.wf d t) : Tab.wf d (Tab.put d t k v) := by
  unfold Tab.put
  cases t with
  | nil =>
    by_cases hv : v = d
    · rw [if_pos hv]; exact h
    · simp only [hv, if_false]
      exact ⟨List.pairwise_singleton _ _, by simpa using hv⟩
  | cons e t =>
    dsimp only
    split
    · next lt =>
      by_cases hv : v = d
      · rw [if_pos hv]; exact h
      · rw [if_neg hv]
        refine ⟨List.pairwise_cons.mpr ⟨fun x hx => ?_, h.1⟩, fun x hx => ?_⟩
        · rcases List.mem_cons.mp hx with hx | hx
          · exact hx ▸ lt
          · exact Nat.lt_trans lt ((List.pairwise_cons.mp h.1).1 x hx)
        · rcases List.mem_cons.mp hx with hx | hx
          · exact hx ▸ hv
          · exact h.2 x hx
    · exact Tab.wf_set d _ k v h

/-- `mapAll` gives a table in canonical form, whatever it is applied to. -/
theorem Tab.wf_mapAll (t : Tab α) (f : Nat → α → α) : Tab.wf d (t.mapAll d f) := by
  unfold Tab.mapAll
  induction t with
  | nil => exact ⟨List.Pairwise.nil, by simp⟩
  | cons e t ih => exact Tab.wf_put d _ _ _ ih

/-- Reading through `mapAll`: a function that keeps the default commutes with reading. -/
theorem Tab.get_mapAll (t : Tab α) (f : Nat → α → α) (k : Nat) (hf : f k d = d) :
    Tab.get d (t.mapAll d f) k = f k (Tab.get d t k) := by
  induction t with
  | nil => simp [Tab.mapAll, hf]
  | cons e t ih =>
    obtain ⟨a, v⟩ := e
    have step : Tab.mapAll d f ((a, v) :: t) = Tab.put d (Tab.mapAll d f t) a (f a v) := rfl
    rw [step, Tab.get_put d _ _ _ _ (Tab.wf_mapAll d t f), ih]
    by_cases h : k = a
    · simp [h, Tab.get]
    · simp [h, Ne.symm h, Tab.get]

omit [DecidableEq α] in
/-- Keeping entries by their key reads as the default where the key is dropped. -/
theorem Tab.get_keep (t : Tab α) (p : Nat → Bool) (k : Nat) :
    Tab.get d (t.keep fun j _ => p j) k = if p k then Tab.get d t k else d := by
  unfold Tab.keep
  induction t with
  | nil => simp
  | cons e t ih =>
    obtain ⟨a, v⟩ := e
    by_cases h : a = k
    · subst h
      by_cases hp : p a
      · simp [hp, Tab.get]
      · simpa [hp] using ih
    · by_cases hp : p a
      · simp [hp, Tab.get, h, ih]
      · simpa [hp, Tab.get, h] using ih

omit [DecidableEq α] in
/-- Keeping some entries keeps the canonical form. -/
theorem Tab.wf_keep (t : Tab α) (p : Nat → α → Bool) (h : Tab.wf d t) : Tab.wf d (t.keep p) :=
  ⟨h.1.sublist List.filter_sublist, fun e he => h.2 e (List.mem_filter.mp he).1⟩

end Sys2Proof.Machine
end

