-- ==== Sys2Proof/Laws/State.lean ====
section
/-! SUPPORT. Reads after an update of one table entry: the entry itself, every other entry, and every other field. -/

namespace Sys2Proof.Machine

variable (s : State)

/-- Every other field is as it was. -/
@[simp] theorem State.modHall_fields (h : Nat) (f : Hall → Hall) : (s.modHall h f).core = s.core ∧
    (s.modHall h f).timer = s.timer ∧ (s.modHall h f).plan = s.plan ∧ (s.modHall h f).funcs = s.funcs ∧
    (s.modHall h f).queues = s.queues ∧ (s.modHall h f).fences = s.fences ∧ (s.modHall h f).contexts = s.contexts ∧
    (s.modHall h f).pools = s.pools ∧ (s.modHall h f).deadlines = s.deadlines ∧ (s.modHall h f).engines = s.engines ∧
    (s.modHall h f).ports = s.ports ∧ (s.modHall h f).protect = s.protect ∧ (s.modHall h f).xlat = s.xlat ∧
    (s.modHall h f).vault = s.vault ∧ (s.modHall h f).links = s.links ∧ (s.modHall h f).groups = s.groups ∧
    (s.modHall h f).reduce = s.reduce ∧ (s.modHall h f).commit = s.commit ∧ (s.modHall h f).faults = s.faults ∧
    (s.modHall h f).lc = s.lc ∧ (s.modHall h f).mailboxes = s.mailboxes ∧ (s.modHall h f).mgmtMsgs = s.mgmtMsgs ∧
    (s.modHall h f).gallery = s.gallery ∧ (s.modHall h f).out = s.out ∧ (s.modHall h f).freeCtr = s.freeCtr ∧
    (s.modHall h f).pending = s.pending := by
  simp [State.modHall]

/-- Every other table reads as it did. -/
@[simp] theorem State.modHall_reads (h : Nat) (f : Hall → Hall) : (∀ a : Nat, (s.modHall h f).func a = s.func a) ∧
    (∀ a b : Nat, (s.modHall h f).queue a b = s.queue a b) ∧ (∀ a b : Nat, (s.modHall h f).fence a b = s.fence a b) ∧
    (∀ a b : Nat, (s.modHall h f).ctx a b = s.ctx a b) ∧ (∀ a : Nat, (s.modHall h f).pool a = s.pool a) ∧
    (∀ a : Nat, (s.modHall h f).deadline a = s.deadline a) ∧ (∀ a : Nat, (s.modHall h f).engine a = s.engine a) ∧
    (∀ a : Nat, (s.modHall h f).memPort a = s.memPort a) ∧ (∀ a : Nat, (s.modHall h f).seg a = s.seg a) ∧
    (∀ a : Nat, (s.modHall h f).win a = s.win a) ∧ (∀ a : Nat, (s.modHall h f).slot a = s.slot a) ∧
    (∀ a : Nat, (s.modHall h f).hallKey a = s.hallKey a) ∧ (∀ a : Nat, (s.modHall h f).channel a = s.channel a) ∧
    (∀ a : Nat, (s.modHall h f).link a = s.link a) ∧ (∀ a : Nat, (s.modHall h f).group a = s.group a) ∧
    (∀ a b : Nat, (s.modHall h f).cmt a b = s.cmt a b) ∧ (∀ a : BitVec 16, (s.modHall h f).unit a = s.unit a) ∧
    (∀ a : Nat, (s.modHall h f).mailbox a = s.mailbox a) := by
  refine ⟨?_, ?_, ?_, ?_, ?_, ?_, ?_, ?_, ?_, ?_, ?_, ?_, ?_, ?_, ?_, ?_, ?_, ?_⟩ <;> intros <;> rfl

/-- A read of the table after the update. -/
@[simp] theorem State.modHall_hall (h h' : Nat) (f : Hall → Hall) :
    (s.modHall h f).hall h' = if h' = h then f (s.hall h) else s.hall h' := by
  simp [State.modHall, State.hall]

/-- Every other field is as it was. -/
@[simp] theorem State.modFunc_fields (f : Nat) (F : Func → Func) : (s.modFunc f F).core = s.core ∧
    (s.modFunc f F).timer = s.timer ∧ (s.modFunc f F).plan = s.plan ∧ (s.modFunc f F).halls = s.halls ∧
    (s.modFunc f F).queues = s.queues ∧ (s.modFunc f F).fences = s.fences ∧ (s.modFunc f F).contexts = s.contexts ∧
    (s.modFunc f F).pools = s.pools ∧ (s.modFunc f F).deadlines = s.deadlines ∧ (s.modFunc f F).engines = s.engines ∧
    (s.modFunc f F).ports = s.ports ∧ (s.modFunc f F).protect = s.protect ∧ (s.modFunc f F).xlat = s.xlat ∧
    (s.modFunc f F).vault = s.vault ∧ (s.modFunc f F).links = s.links ∧ (s.modFunc f F).groups = s.groups ∧
    (s.modFunc f F).reduce = s.reduce ∧ (s.modFunc f F).commit = s.commit ∧ (s.modFunc f F).faults = s.faults ∧
    (s.modFunc f F).lc = s.lc ∧ (s.modFunc f F).mailboxes = s.mailboxes ∧ (s.modFunc f F).mgmtMsgs = s.mgmtMsgs ∧
    (s.modFunc f F).gallery = s.gallery ∧ (s.modFunc f F).out = s.out ∧ (s.modFunc f F).freeCtr = s.freeCtr ∧
    (s.modFunc f F).pending = s.pending := by
  simp [State.modFunc]

/-- Every other table reads as it did. -/
@[simp] theorem State.modFunc_reads (f : Nat) (F : Func → Func) : (∀ a : Nat, (s.modFunc f F).hall a = s.hall a) ∧
    (∀ a b : Nat, (s.modFunc f F).queue a b = s.queue a b) ∧ (∀ a b : Nat, (s.modFunc f F).fence a b = s.fence a b) ∧
    (∀ a b : Nat, (s.modFunc f F).ctx a b = s.ctx a b) ∧ (∀ a : Nat, (s.modFunc f F).pool a = s.pool a) ∧
    (∀ a : Nat, (s.modFunc f F).deadline a = s.deadline a) ∧ (∀ a : Nat, (s.modFunc f F).engine a = s.engine a) ∧
    (∀ a : Nat, (s.modFunc f F).memPort a = s.memPort a) ∧ (∀ a : Nat, (s.modFunc f F).seg a = s.seg a) ∧
    (∀ a : Nat, (s.modFunc f F).win a = s.win a) ∧ (∀ a : Nat, (s.modFunc f F).slot a = s.slot a) ∧
    (∀ a : Nat, (s.modFunc f F).hallKey a = s.hallKey a) ∧ (∀ a : Nat, (s.modFunc f F).channel a = s.channel a) ∧
    (∀ a : Nat, (s.modFunc f F).link a = s.link a) ∧ (∀ a : Nat, (s.modFunc f F).group a = s.group a) ∧
    (∀ a b : Nat, (s.modFunc f F).cmt a b = s.cmt a b) ∧ (∀ a : BitVec 16, (s.modFunc f F).unit a = s.unit a) ∧
    (∀ a : Nat, (s.modFunc f F).mailbox a = s.mailbox a) := by
  refine ⟨?_, ?_, ?_, ?_, ?_, ?_, ?_, ?_, ?_, ?_, ?_, ?_, ?_, ?_, ?_, ?_, ?_, ?_⟩ <;> intros <;> rfl

/-- A read of the table after the update. -/
@[simp] theorem State.modFunc_func (f f' : Nat) (F : Func → Func) :
    (s.modFunc f F).func f' = if f' = f then F (s.func f) else s.func f' := by
  simp [State.modFunc, State.func]

/-- Every other field is as it was. -/
@[simp] theorem State.modQueue_fields (h q : Nat) (f : Queue → Queue) : (s.modQueue h q f).core = s.core ∧
    (s.modQueue h q f).timer = s.timer ∧ (s.modQueue h q f).plan = s.plan ∧ (s.modQueue h q f).halls = s.halls ∧
    (s.modQueue h q f).funcs = s.funcs ∧ (s.modQueue h q f).fences = s.fences ∧
    (s.modQueue h q f).contexts = s.contexts ∧ (s.modQueue h q f).pools = s.pools ∧
    (s.modQueue h q f).deadlines = s.deadlines ∧ (s.modQueue h q f).engines = s.engines ∧
    (s.modQueue h q f).ports = s.ports ∧ (s.modQueue h q f).protect = s.protect ∧ (s.modQueue h q f).xlat = s.xlat ∧
    (s.modQueue h q f).vault = s.vault ∧ (s.modQueue h q f).links = s.links ∧ (s.modQueue h q f).groups = s.groups ∧
    (s.modQueue h q f).reduce = s.reduce ∧ (s.modQueue h q f).commit = s.commit ∧
    (s.modQueue h q f).faults = s.faults ∧ (s.modQueue h q f).lc = s.lc ∧ (s.modQueue h q f).mailboxes = s.mailboxes ∧
    (s.modQueue h q f).mgmtMsgs = s.mgmtMsgs ∧ (s.modQueue h q f).gallery = s.gallery ∧
    (s.modQueue h q f).out = s.out ∧ (s.modQueue h q f).freeCtr = s.freeCtr ∧ (s.modQueue h q f).pending = s.pending := by
  simp [State.modQueue]

/-- Every other table reads as it did. -/
@[simp] theorem State.modQueue_reads (h q : Nat) (f : Queue → Queue) :
    (∀ a : Nat, (s.modQueue h q f).hall a = s.hall a) ∧ (∀ a : Nat, (s.modQueue h q f).func a = s.func a) ∧
    (∀ a b : Nat, (s.modQueue h q f).fence a b = s.fence a b) ∧
    (∀ a b : Nat, (s.modQueue h q f).ctx a b = s.ctx a b) ∧ (∀ a : Nat, (s.modQueue h q f).pool a = s.pool a) ∧
    (∀ a : Nat, (s.modQueue h q f).deadline a = s.deadline a) ∧
    (∀ a : Nat, (s.modQueue h q f).engine a = s.engine a) ∧ (∀ a : Nat, (s.modQueue h q f).memPort a = s.memPort a) ∧
    (∀ a : Nat, (s.modQueue h q f).seg a = s.seg a) ∧ (∀ a : Nat, (s.modQueue h q f).win a = s.win a) ∧
    (∀ a : Nat, (s.modQueue h q f).slot a = s.slot a) ∧ (∀ a : Nat, (s.modQueue h q f).hallKey a = s.hallKey a) ∧
    (∀ a : Nat, (s.modQueue h q f).channel a = s.channel a) ∧ (∀ a : Nat, (s.modQueue h q f).link a = s.link a) ∧
    (∀ a : Nat, (s.modQueue h q f).group a = s.group a) ∧ (∀ a b : Nat, (s.modQueue h q f).cmt a b = s.cmt a b) ∧
    (∀ a : BitVec 16, (s.modQueue h q f).unit a = s.unit a) ∧ (∀ a : Nat, (s.modQueue h q f).mailbox a = s.mailbox a) := by
  refine ⟨?_, ?_, ?_, ?_, ?_, ?_, ?_, ?_, ?_, ?_, ?_, ?_, ?_, ?_, ?_, ?_, ?_, ?_⟩ <;> intros <;> rfl

/-- A read of the table after the update. -/
theorem State.modQueue_queue (h q h' q' : Nat) (f : Queue → Queue) :
    (s.modQueue h q f).queue h' q' = if 256 * h' + q' = 256 * h + q then f (s.queue h q) else s.queue h' q' := by
  simp [State.modQueue, State.queue]

@[simp] theorem State.modQueue_queue_self (h q : Nat) (f : Queue → Queue) :
    (s.modQueue h q f).queue h q = f (s.queue h q) := by
  simp [State.modQueue_queue]

theorem State.modQueue_queue_ne (h q h' q' : Nat) (f : Queue → Queue) (e : 256 * h' + q' ≠ 256 * h + q) :
    (s.modQueue h q f).queue h' q' = s.queue h' q' := by
  simp [State.modQueue_queue, e]

/-- Every other field is as it was. -/
@[simp] theorem State.modCtx_fields (h c : Nat) (f : Context → Context) : (s.modCtx h c f).core = s.core ∧
    (s.modCtx h c f).timer = s.timer ∧ (s.modCtx h c f).plan = s.plan ∧ (s.modCtx h c f).halls = s.halls ∧
    (s.modCtx h c f).funcs = s.funcs ∧ (s.modCtx h c f).queues = s.queues ∧ (s.modCtx h c f).fences = s.fences ∧
    (s.modCtx h c f).pools = s.pools ∧ (s.modCtx h c f).deadlines = s.deadlines ∧
    (s.modCtx h c f).engines = s.engines ∧ (s.modCtx h c f).ports = s.ports ∧ (s.modCtx h c f).protect = s.protect ∧
    (s.modCtx h c f).xlat = s.xlat ∧ (s.modCtx h c f).vault = s.vault ∧ (s.modCtx h c f).links = s.links ∧
    (s.modCtx h c f).groups = s.groups ∧ (s.modCtx h c f).reduce = s.reduce ∧ (s.modCtx h c f).commit = s.commit ∧
    (s.modCtx h c f).faults = s.faults ∧ (s.modCtx h c f).lc = s.lc ∧ (s.modCtx h c f).mailboxes = s.mailboxes ∧
    (s.modCtx h c f).mgmtMsgs = s.mgmtMsgs ∧ (s.modCtx h c f).gallery = s.gallery ∧ (s.modCtx h c f).out = s.out ∧
    (s.modCtx h c f).freeCtr = s.freeCtr ∧ (s.modCtx h c f).pending = s.pending := by
  simp [State.modCtx]

/-- Every other table reads as it did. -/
@[simp] theorem State.modCtx_reads (h c : Nat) (f : Context → Context) :
    (∀ a : Nat, (s.modCtx h c f).hall a = s.hall a) ∧ (∀ a : Nat, (s.modCtx h c f).func a = s.func a) ∧
    (∀ a b : Nat, (s.modCtx h c f).queue a b = s.queue a b) ∧
    (∀ a b : Nat, (s.modCtx h c f).fence a b = s.fence a b) ∧ (∀ a : Nat, (s.modCtx h c f).pool a = s.pool a) ∧
    (∀ a : Nat, (s.modCtx h c f).deadline a = s.deadline a) ∧ (∀ a : Nat, (s.modCtx h c f).engine a = s.engine a) ∧
    (∀ a : Nat, (s.modCtx h c f).memPort a = s.memPort a) ∧ (∀ a : Nat, (s.modCtx h c f).seg a = s.seg a) ∧
    (∀ a : Nat, (s.modCtx h c f).win a = s.win a) ∧ (∀ a : Nat, (s.modCtx h c f).slot a = s.slot a) ∧
    (∀ a : Nat, (s.modCtx h c f).hallKey a = s.hallKey a) ∧ (∀ a : Nat, (s.modCtx h c f).channel a = s.channel a) ∧
    (∀ a : Nat, (s.modCtx h c f).link a = s.link a) ∧ (∀ a : Nat, (s.modCtx h c f).group a = s.group a) ∧
    (∀ a b : Nat, (s.modCtx h c f).cmt a b = s.cmt a b) ∧ (∀ a : BitVec 16, (s.modCtx h c f).unit a = s.unit a) ∧
    (∀ a : Nat, (s.modCtx h c f).mailbox a = s.mailbox a) := by
  refine ⟨?_, ?_, ?_, ?_, ?_, ?_, ?_, ?_, ?_, ?_, ?_, ?_, ?_, ?_, ?_, ?_, ?_, ?_⟩ <;> intros <;> rfl

/-- A read of the table after the update. -/
theorem State.modCtx_ctx (h c h' c' : Nat) (f : Context → Context) :
    (s.modCtx h c f).ctx h' c' = if 16 * h' + c' = 16 * h + c then f (s.ctx h c) else s.ctx h' c' := by
  simp [State.modCtx, State.ctx]

@[simp] theorem State.modCtx_ctx_self (h c : Nat) (f : Context → Context) :
    (s.modCtx h c f).ctx h c = f (s.ctx h c) := by
  simp [State.modCtx_ctx]

theorem State.modCtx_ctx_ne (h c h' c' : Nat) (f : Context → Context) (e : 16 * h' + c' ≠ 16 * h + c) :
    (s.modCtx h c f).ctx h' c' = s.ctx h' c' := by
  simp [State.modCtx_ctx, e]

/-- Every other field is as it was. -/
@[simp] theorem State.modDeadline_fields (h : Nat) (f : Deadline → Deadline) : (s.modDeadline h f).core = s.core ∧
    (s.modDeadline h f).timer = s.timer ∧ (s.modDeadline h f).plan = s.plan ∧ (s.modDeadline h f).halls = s.halls ∧
    (s.modDeadline h f).funcs = s.funcs ∧ (s.modDeadline h f).queues = s.queues ∧
    (s.modDeadline h f).fences = s.fences ∧ (s.modDeadline h f).contexts = s.contexts ∧
    (s.modDeadline h f).pools = s.pools ∧ (s.modDeadline h f).engines = s.engines ∧
    (s.modDeadline h f).ports = s.ports ∧ (s.modDeadline h f).protect = s.protect ∧
    (s.modDeadline h f).xlat = s.xlat ∧ (s.modDeadline h f).vault = s.vault ∧ (s.modDeadline h f).links = s.links ∧
    (s.modDeadline h f).groups = s.groups ∧ (s.modDeadline h f).reduce = s.reduce ∧
    (s.modDeadline h f).commit = s.commit ∧ (s.modDeadline h f).faults = s.faults ∧ (s.modDeadline h f).lc = s.lc ∧
    (s.modDeadline h f).mailboxes = s.mailboxes ∧ (s.modDeadline h f).mgmtMsgs = s.mgmtMsgs ∧
    (s.modDeadline h f).gallery = s.gallery ∧ (s.modDeadline h f).out = s.out ∧
    (s.modDeadline h f).freeCtr = s.freeCtr ∧ (s.modDeadline h f).pending = s.pending := by
  simp [State.modDeadline]

/-- Every other table reads as it did. -/
@[simp] theorem State.modDeadline_reads (h : Nat) (f : Deadline → Deadline) :
    (∀ a : Nat, (s.modDeadline h f).hall a = s.hall a) ∧ (∀ a : Nat, (s.modDeadline h f).func a = s.func a) ∧
    (∀ a b : Nat, (s.modDeadline h f).queue a b = s.queue a b) ∧
    (∀ a b : Nat, (s.modDeadline h f).fence a b = s.fence a b) ∧
    (∀ a b : Nat, (s.modDeadline h f).ctx a b = s.ctx a b) ∧ (∀ a : Nat, (s.modDeadline h f).pool a = s.pool a) ∧
    (∀ a : Nat, (s.modDeadline h f).engine a = s.engine a) ∧
    (∀ a : Nat, (s.modDeadline h f).memPort a = s.memPort a) ∧ (∀ a : Nat, (s.modDeadline h f).seg a = s.seg a) ∧
    (∀ a : Nat, (s.modDeadline h f).win a = s.win a) ∧ (∀ a : Nat, (s.modDeadline h f).slot a = s.slot a) ∧
    (∀ a : Nat, (s.modDeadline h f).hallKey a = s.hallKey a) ∧
    (∀ a : Nat, (s.modDeadline h f).channel a = s.channel a) ∧ (∀ a : Nat, (s.modDeadline h f).link a = s.link a) ∧
    (∀ a : Nat, (s.modDeadline h f).group a = s.group a) ∧ (∀ a b : Nat, (s.modDeadline h f).cmt a b = s.cmt a b) ∧
    (∀ a : BitVec 16, (s.modDeadline h f).unit a = s.unit a) ∧
    (∀ a : Nat, (s.modDeadline h f).mailbox a = s.mailbox a) := by
  refine ⟨?_, ?_, ?_, ?_, ?_, ?_, ?_, ?_, ?_, ?_, ?_, ?_, ?_, ?_, ?_, ?_, ?_, ?_⟩ <;> intros <;> rfl

/-- A read of the table after the update. -/
@[simp] theorem State.modDeadline_deadline (h h' : Nat) (f : Deadline → Deadline) :
    (s.modDeadline h f).deadline h' = if h' = h then f (s.deadline h) else s.deadline h' := by
  simp [State.modDeadline, State.deadline]

/-- Every other field is as it was. -/
@[simp] theorem State.modEngine_fields (p : Nat) (f : Engine → Engine) : (s.modEngine p f).core = s.core ∧
    (s.modEngine p f).timer = s.timer ∧ (s.modEngine p f).plan = s.plan ∧ (s.modEngine p f).halls = s.halls ∧
    (s.modEngine p f).funcs = s.funcs ∧ (s.modEngine p f).queues = s.queues ∧ (s.modEngine p f).fences = s.fences ∧
    (s.modEngine p f).contexts = s.contexts ∧ (s.modEngine p f).pools = s.pools ∧
    (s.modEngine p f).deadlines = s.deadlines ∧ (s.modEngine p f).ports = s.ports ∧
    (s.modEngine p f).protect = s.protect ∧ (s.modEngine p f).xlat = s.xlat ∧ (s.modEngine p f).vault = s.vault ∧
    (s.modEngine p f).links = s.links ∧ (s.modEngine p f).groups = s.groups ∧ (s.modEngine p f).reduce = s.reduce ∧
    (s.modEngine p f).commit = s.commit ∧ (s.modEngine p f).faults = s.faults ∧ (s.modEngine p f).lc = s.lc ∧
    (s.modEngine p f).mailboxes = s.mailboxes ∧ (s.modEngine p f).mgmtMsgs = s.mgmtMsgs ∧
    (s.modEngine p f).gallery = s.gallery ∧ (s.modEngine p f).out = s.out ∧ (s.modEngine p f).freeCtr = s.freeCtr ∧
    (s.modEngine p f).pending = s.pending := by
  simp [State.modEngine]

/-- Every other table reads as it did. -/
@[simp] theorem State.modEngine_reads (p : Nat) (f : Engine → Engine) :
    (∀ a : Nat, (s.modEngine p f).hall a = s.hall a) ∧ (∀ a : Nat, (s.modEngine p f).func a = s.func a) ∧
    (∀ a b : Nat, (s.modEngine p f).queue a b = s.queue a b) ∧
    (∀ a b : Nat, (s.modEngine p f).fence a b = s.fence a b) ∧ (∀ a b : Nat, (s.modEngine p f).ctx a b = s.ctx a b) ∧
    (∀ a : Nat, (s.modEngine p f).pool a = s.pool a) ∧ (∀ a : Nat, (s.modEngine p f).deadline a = s.deadline a) ∧
    (∀ a : Nat, (s.modEngine p f).memPort a = s.memPort a) ∧ (∀ a : Nat, (s.modEngine p f).seg a = s.seg a) ∧
    (∀ a : Nat, (s.modEngine p f).win a = s.win a) ∧ (∀ a : Nat, (s.modEngine p f).slot a = s.slot a) ∧
    (∀ a : Nat, (s.modEngine p f).hallKey a = s.hallKey a) ∧ (∀ a : Nat, (s.modEngine p f).channel a = s.channel a) ∧
    (∀ a : Nat, (s.modEngine p f).link a = s.link a) ∧ (∀ a : Nat, (s.modEngine p f).group a = s.group a) ∧
    (∀ a b : Nat, (s.modEngine p f).cmt a b = s.cmt a b) ∧ (∀ a : BitVec 16, (s.modEngine p f).unit a = s.unit a) ∧
    (∀ a : Nat, (s.modEngine p f).mailbox a = s.mailbox a) := by
  refine ⟨?_, ?_, ?_, ?_, ?_, ?_, ?_, ?_, ?_, ?_, ?_, ?_, ?_, ?_, ?_, ?_, ?_, ?_⟩ <;> intros <;> rfl

/-- A read of the table after the update. -/
@[simp] theorem State.modEngine_engine (p p' : Nat) (f : Engine → Engine) :
    (s.modEngine p f).engine p' = if p' = p then f (s.engine p) else s.engine p' := by
  simp [State.modEngine, State.engine]

/-- Every other field is as it was. -/
@[simp] theorem State.modMemPort_fields (m : Nat) (f : MemPort → MemPort) : (s.modMemPort m f).core = s.core ∧
    (s.modMemPort m f).timer = s.timer ∧ (s.modMemPort m f).plan = s.plan ∧ (s.modMemPort m f).halls = s.halls ∧
    (s.modMemPort m f).funcs = s.funcs ∧ (s.modMemPort m f).queues = s.queues ∧ (s.modMemPort m f).fences = s.fences ∧
    (s.modMemPort m f).contexts = s.contexts ∧ (s.modMemPort m f).pools = s.pools ∧
    (s.modMemPort m f).deadlines = s.deadlines ∧ (s.modMemPort m f).engines = s.engines ∧
    (s.modMemPort m f).protect = s.protect ∧ (s.modMemPort m f).xlat = s.xlat ∧ (s.modMemPort m f).vault = s.vault ∧
    (s.modMemPort m f).links = s.links ∧ (s.modMemPort m f).groups = s.groups ∧ (s.modMemPort m f).reduce = s.reduce ∧
    (s.modMemPort m f).commit = s.commit ∧ (s.modMemPort m f).faults = s.faults ∧ (s.modMemPort m f).lc = s.lc ∧
    (s.modMemPort m f).mailboxes = s.mailboxes ∧ (s.modMemPort m f).mgmtMsgs = s.mgmtMsgs ∧
    (s.modMemPort m f).gallery = s.gallery ∧ (s.modMemPort m f).out = s.out ∧ (s.modMemPort m f).freeCtr = s.freeCtr ∧
    (s.modMemPort m f).pending = s.pending := by
  simp [State.modMemPort]

/-- Every other table reads as it did. -/
@[simp] theorem State.modMemPort_reads (m : Nat) (f : MemPort → MemPort) :
    (∀ a : Nat, (s.modMemPort m f).hall a = s.hall a) ∧ (∀ a : Nat, (s.modMemPort m f).func a = s.func a) ∧
    (∀ a b : Nat, (s.modMemPort m f).queue a b = s.queue a b) ∧
    (∀ a b : Nat, (s.modMemPort m f).fence a b = s.fence a b) ∧
    (∀ a b : Nat, (s.modMemPort m f).ctx a b = s.ctx a b) ∧ (∀ a : Nat, (s.modMemPort m f).pool a = s.pool a) ∧
    (∀ a : Nat, (s.modMemPort m f).deadline a = s.deadline a) ∧
    (∀ a : Nat, (s.modMemPort m f).engine a = s.engine a) ∧ (∀ a : Nat, (s.modMemPort m f).seg a = s.seg a) ∧
    (∀ a : Nat, (s.modMemPort m f).win a = s.win a) ∧ (∀ a : Nat, (s.modMemPort m f).slot a = s.slot a) ∧
    (∀ a : Nat, (s.modMemPort m f).hallKey a = s.hallKey a) ∧
    (∀ a : Nat, (s.modMemPort m f).channel a = s.channel a) ∧ (∀ a : Nat, (s.modMemPort m f).link a = s.link a) ∧
    (∀ a : Nat, (s.modMemPort m f).group a = s.group a) ∧ (∀ a b : Nat, (s.modMemPort m f).cmt a b = s.cmt a b) ∧
    (∀ a : BitVec 16, (s.modMemPort m f).unit a = s.unit a) ∧ (∀ a : Nat, (s.modMemPort m f).mailbox a = s.mailbox a) := by
  refine ⟨?_, ?_, ?_, ?_, ?_, ?_, ?_, ?_, ?_, ?_, ?_, ?_, ?_, ?_, ?_, ?_, ?_, ?_⟩ <;> intros <;> rfl

/-- A read of the table after the update. -/
@[simp] theorem State.modMemPort_memPort (m m' : Nat) (f : MemPort → MemPort) :
    (s.modMemPort m f).memPort m' = if m' = m then f (s.memPort m) else s.memPort m' := by
  simp [State.modMemPort, State.memPort]

/-- Every other field is as it was. -/
@[simp] theorem State.modSeg_fields (k : Nat) (f : Segment → Segment) : (s.modSeg k f).core = s.core ∧
    (s.modSeg k f).timer = s.timer ∧ (s.modSeg k f).plan = s.plan ∧ (s.modSeg k f).halls = s.halls ∧
    (s.modSeg k f).funcs = s.funcs ∧ (s.modSeg k f).queues = s.queues ∧ (s.modSeg k f).fences = s.fences ∧
    (s.modSeg k f).contexts = s.contexts ∧ (s.modSeg k f).pools = s.pools ∧ (s.modSeg k f).deadlines = s.deadlines ∧
    (s.modSeg k f).engines = s.engines ∧ (s.modSeg k f).ports = s.ports ∧ (s.modSeg k f).protect = s.protect ∧
    (s.modSeg k f).vault = s.vault ∧ (s.modSeg k f).links = s.links ∧ (s.modSeg k f).groups = s.groups ∧
    (s.modSeg k f).reduce = s.reduce ∧ (s.modSeg k f).commit = s.commit ∧ (s.modSeg k f).faults = s.faults ∧
    (s.modSeg k f).lc = s.lc ∧ (s.modSeg k f).mailboxes = s.mailboxes ∧ (s.modSeg k f).mgmtMsgs = s.mgmtMsgs ∧
    (s.modSeg k f).gallery = s.gallery ∧ (s.modSeg k f).out = s.out ∧ (s.modSeg k f).freeCtr = s.freeCtr ∧
    (s.modSeg k f).pending = s.pending := by
  simp [State.modSeg]

/-- Every other table reads as it did. -/
@[simp] theorem State.modSeg_reads (k : Nat) (f : Segment → Segment) : (∀ a : Nat, (s.modSeg k f).hall a = s.hall a) ∧
    (∀ a : Nat, (s.modSeg k f).func a = s.func a) ∧ (∀ a b : Nat, (s.modSeg k f).queue a b = s.queue a b) ∧
    (∀ a b : Nat, (s.modSeg k f).fence a b = s.fence a b) ∧ (∀ a b : Nat, (s.modSeg k f).ctx a b = s.ctx a b) ∧
    (∀ a : Nat, (s.modSeg k f).pool a = s.pool a) ∧ (∀ a : Nat, (s.modSeg k f).deadline a = s.deadline a) ∧
    (∀ a : Nat, (s.modSeg k f).engine a = s.engine a) ∧ (∀ a : Nat, (s.modSeg k f).memPort a = s.memPort a) ∧
    (∀ a : Nat, (s.modSeg k f).win a = s.win a) ∧ (∀ a : Nat, (s.modSeg k f).slot a = s.slot a) ∧
    (∀ a : Nat, (s.modSeg k f).hallKey a = s.hallKey a) ∧ (∀ a : Nat, (s.modSeg k f).channel a = s.channel a) ∧
    (∀ a : Nat, (s.modSeg k f).link a = s.link a) ∧ (∀ a : Nat, (s.modSeg k f).group a = s.group a) ∧
    (∀ a b : Nat, (s.modSeg k f).cmt a b = s.cmt a b) ∧ (∀ a : BitVec 16, (s.modSeg k f).unit a = s.unit a) ∧
    (∀ a : Nat, (s.modSeg k f).mailbox a = s.mailbox a) := by
  refine ⟨?_, ?_, ?_, ?_, ?_, ?_, ?_, ?_, ?_, ?_, ?_, ?_, ?_, ?_, ?_, ?_, ?_, ?_⟩ <;> intros <;> rfl

/-- A read of the table after the update. -/
@[simp] theorem State.modSeg_seg (k k' : Nat) (f : Segment → Segment) :
    (s.modSeg k f).seg k' = if k' = k then f (s.seg k) else s.seg k' := by
  simp [State.modSeg, State.seg]

/-- Every other field is as it was. -/
@[simp] theorem State.modWin_fields (n : Nat) (f : Window → Window) : (s.modWin n f).core = s.core ∧
    (s.modWin n f).timer = s.timer ∧ (s.modWin n f).plan = s.plan ∧ (s.modWin n f).halls = s.halls ∧
    (s.modWin n f).funcs = s.funcs ∧ (s.modWin n f).queues = s.queues ∧ (s.modWin n f).fences = s.fences ∧
    (s.modWin n f).contexts = s.contexts ∧ (s.modWin n f).pools = s.pools ∧ (s.modWin n f).deadlines = s.deadlines ∧
    (s.modWin n f).engines = s.engines ∧ (s.modWin n f).ports = s.ports ∧ (s.modWin n f).protect = s.protect ∧
    (s.modWin n f).vault = s.vault ∧ (s.modWin n f).links = s.links ∧ (s.modWin n f).groups = s.groups ∧
    (s.modWin n f).reduce = s.reduce ∧ (s.modWin n f).commit = s.commit ∧ (s.modWin n f).faults = s.faults ∧
    (s.modWin n f).lc = s.lc ∧ (s.modWin n f).mailboxes = s.mailboxes ∧ (s.modWin n f).mgmtMsgs = s.mgmtMsgs ∧
    (s.modWin n f).gallery = s.gallery ∧ (s.modWin n f).out = s.out ∧ (s.modWin n f).freeCtr = s.freeCtr ∧
    (s.modWin n f).pending = s.pending := by
  simp [State.modWin]

/-- Every other table reads as it did. -/
@[simp] theorem State.modWin_reads (n : Nat) (f : Window → Window) : (∀ a : Nat, (s.modWin n f).hall a = s.hall a) ∧
    (∀ a : Nat, (s.modWin n f).func a = s.func a) ∧ (∀ a b : Nat, (s.modWin n f).queue a b = s.queue a b) ∧
    (∀ a b : Nat, (s.modWin n f).fence a b = s.fence a b) ∧ (∀ a b : Nat, (s.modWin n f).ctx a b = s.ctx a b) ∧
    (∀ a : Nat, (s.modWin n f).pool a = s.pool a) ∧ (∀ a : Nat, (s.modWin n f).deadline a = s.deadline a) ∧
    (∀ a : Nat, (s.modWin n f).engine a = s.engine a) ∧ (∀ a : Nat, (s.modWin n f).memPort a = s.memPort a) ∧
    (∀ a : Nat, (s.modWin n f).seg a = s.seg a) ∧ (∀ a : Nat, (s.modWin n f).slot a = s.slot a) ∧
    (∀ a : Nat, (s.modWin n f).hallKey a = s.hallKey a) ∧ (∀ a : Nat, (s.modWin n f).channel a = s.channel a) ∧
    (∀ a : Nat, (s.modWin n f).link a = s.link a) ∧ (∀ a : Nat, (s.modWin n f).group a = s.group a) ∧
    (∀ a b : Nat, (s.modWin n f).cmt a b = s.cmt a b) ∧ (∀ a : BitVec 16, (s.modWin n f).unit a = s.unit a) ∧
    (∀ a : Nat, (s.modWin n f).mailbox a = s.mailbox a) := by
  refine ⟨?_, ?_, ?_, ?_, ?_, ?_, ?_, ?_, ?_, ?_, ?_, ?_, ?_, ?_, ?_, ?_, ?_, ?_⟩ <;> intros <;> rfl

/-- A read of the table after the update. -/
@[simp] theorem State.modWin_win (n n' : Nat) (f : Window → Window) :
    (s.modWin n f).win n' = if n' = n then f (s.win n) else s.win n' := by
  simp [State.modWin, State.win]

/-- Every other field is as it was. -/
@[simp] theorem State.modSlot_fields (k : Nat) (f : Slot → Slot) : (s.modSlot k f).core = s.core ∧
    (s.modSlot k f).timer = s.timer ∧ (s.modSlot k f).plan = s.plan ∧ (s.modSlot k f).halls = s.halls ∧
    (s.modSlot k f).funcs = s.funcs ∧ (s.modSlot k f).queues = s.queues ∧ (s.modSlot k f).fences = s.fences ∧
    (s.modSlot k f).contexts = s.contexts ∧ (s.modSlot k f).pools = s.pools ∧
    (s.modSlot k f).deadlines = s.deadlines ∧ (s.modSlot k f).engines = s.engines ∧ (s.modSlot k f).ports = s.ports ∧
    (s.modSlot k f).protect = s.protect ∧ (s.modSlot k f).xlat = s.xlat ∧ (s.modSlot k f).links = s.links ∧
    (s.modSlot k f).groups = s.groups ∧ (s.modSlot k f).reduce = s.reduce ∧ (s.modSlot k f).commit = s.commit ∧
    (s.modSlot k f).faults = s.faults ∧ (s.modSlot k f).lc = s.lc ∧ (s.modSlot k f).mailboxes = s.mailboxes ∧
    (s.modSlot k f).mgmtMsgs = s.mgmtMsgs ∧ (s.modSlot k f).gallery = s.gallery ∧ (s.modSlot k f).out = s.out ∧
    (s.modSlot k f).freeCtr = s.freeCtr ∧ (s.modSlot k f).pending = s.pending := by
  simp [State.modSlot]

/-- Every other table reads as it did. -/
@[simp] theorem State.modSlot_reads (k : Nat) (f : Slot → Slot) : (∀ a : Nat, (s.modSlot k f).hall a = s.hall a) ∧
    (∀ a : Nat, (s.modSlot k f).func a = s.func a) ∧ (∀ a b : Nat, (s.modSlot k f).queue a b = s.queue a b) ∧
    (∀ a b : Nat, (s.modSlot k f).fence a b = s.fence a b) ∧ (∀ a b : Nat, (s.modSlot k f).ctx a b = s.ctx a b) ∧
    (∀ a : Nat, (s.modSlot k f).pool a = s.pool a) ∧ (∀ a : Nat, (s.modSlot k f).deadline a = s.deadline a) ∧
    (∀ a : Nat, (s.modSlot k f).engine a = s.engine a) ∧ (∀ a : Nat, (s.modSlot k f).memPort a = s.memPort a) ∧
    (∀ a : Nat, (s.modSlot k f).seg a = s.seg a) ∧ (∀ a : Nat, (s.modSlot k f).win a = s.win a) ∧
    (∀ a : Nat, (s.modSlot k f).hallKey a = s.hallKey a) ∧ (∀ a : Nat, (s.modSlot k f).channel a = s.channel a) ∧
    (∀ a : Nat, (s.modSlot k f).link a = s.link a) ∧ (∀ a : Nat, (s.modSlot k f).group a = s.group a) ∧
    (∀ a b : Nat, (s.modSlot k f).cmt a b = s.cmt a b) ∧ (∀ a : BitVec 16, (s.modSlot k f).unit a = s.unit a) ∧
    (∀ a : Nat, (s.modSlot k f).mailbox a = s.mailbox a) := by
  refine ⟨?_, ?_, ?_, ?_, ?_, ?_, ?_, ?_, ?_, ?_, ?_, ?_, ?_, ?_, ?_, ?_, ?_, ?_⟩ <;> intros <;> rfl

/-- A read of the table after the update. -/
@[simp] theorem State.modSlot_slot (k k' : Nat) (f : Slot → Slot) :
    (s.modSlot k f).slot k' = if k' = k then f (s.slot k) else s.slot k' := by
  simp [State.modSlot, State.slot]

/-- Every other field is as it was. -/
@[simp] theorem State.modHallKey_fields (h : Nat) (f : HallKey → HallKey) : (s.modHallKey h f).core = s.core ∧
    (s.modHallKey h f).timer = s.timer ∧ (s.modHallKey h f).plan = s.plan ∧ (s.modHallKey h f).halls = s.halls ∧
    (s.modHallKey h f).funcs = s.funcs ∧ (s.modHallKey h f).queues = s.queues ∧ (s.modHallKey h f).fences = s.fences ∧
    (s.modHallKey h f).contexts = s.contexts ∧ (s.modHallKey h f).pools = s.pools ∧
    (s.modHallKey h f).deadlines = s.deadlines ∧ (s.modHallKey h f).engines = s.engines ∧
    (s.modHallKey h f).ports = s.ports ∧ (s.modHallKey h f).protect = s.protect ∧ (s.modHallKey h f).xlat = s.xlat ∧
    (s.modHallKey h f).links = s.links ∧ (s.modHallKey h f).groups = s.groups ∧ (s.modHallKey h f).reduce = s.reduce ∧
    (s.modHallKey h f).commit = s.commit ∧ (s.modHallKey h f).faults = s.faults ∧ (s.modHallKey h f).lc = s.lc ∧
    (s.modHallKey h f).mailboxes = s.mailboxes ∧ (s.modHallKey h f).mgmtMsgs = s.mgmtMsgs ∧
    (s.modHallKey h f).gallery = s.gallery ∧ (s.modHallKey h f).out = s.out ∧ (s.modHallKey h f).freeCtr = s.freeCtr ∧
    (s.modHallKey h f).pending = s.pending := by
  simp [State.modHallKey]

/-- Every other table reads as it did. -/
@[simp] theorem State.modHallKey_reads (h : Nat) (f : HallKey → HallKey) :
    (∀ a : Nat, (s.modHallKey h f).hall a = s.hall a) ∧ (∀ a : Nat, (s.modHallKey h f).func a = s.func a) ∧
    (∀ a b : Nat, (s.modHallKey h f).queue a b = s.queue a b) ∧
    (∀ a b : Nat, (s.modHallKey h f).fence a b = s.fence a b) ∧
    (∀ a b : Nat, (s.modHallKey h f).ctx a b = s.ctx a b) ∧ (∀ a : Nat, (s.modHallKey h f).pool a = s.pool a) ∧
    (∀ a : Nat, (s.modHallKey h f).deadline a = s.deadline a) ∧
    (∀ a : Nat, (s.modHallKey h f).engine a = s.engine a) ∧ (∀ a : Nat, (s.modHallKey h f).memPort a = s.memPort a) ∧
    (∀ a : Nat, (s.modHallKey h f).seg a = s.seg a) ∧ (∀ a : Nat, (s.modHallKey h f).win a = s.win a) ∧
    (∀ a : Nat, (s.modHallKey h f).slot a = s.slot a) ∧ (∀ a : Nat, (s.modHallKey h f).channel a = s.channel a) ∧
    (∀ a : Nat, (s.modHallKey h f).link a = s.link a) ∧ (∀ a : Nat, (s.modHallKey h f).group a = s.group a) ∧
    (∀ a b : Nat, (s.modHallKey h f).cmt a b = s.cmt a b) ∧ (∀ a : BitVec 16, (s.modHallKey h f).unit a = s.unit a) ∧
    (∀ a : Nat, (s.modHallKey h f).mailbox a = s.mailbox a) := by
  refine ⟨?_, ?_, ?_, ?_, ?_, ?_, ?_, ?_, ?_, ?_, ?_, ?_, ?_, ?_, ?_, ?_, ?_, ?_⟩ <;> intros <;> rfl

/-- A read of the table after the update. -/
@[simp] theorem State.modHallKey_hallKey (h h' : Nat) (f : HallKey → HallKey) :
    (s.modHallKey h f).hallKey h' = if h' = h then f (s.hallKey h) else s.hallKey h' := by
  simp [State.modHallKey, State.hallKey]

/-- Every other field is as it was. -/
@[simp] theorem State.modChannel_fields (c : Nat) (f : Channel → Channel) : (s.modChannel c f).core = s.core ∧
    (s.modChannel c f).timer = s.timer ∧ (s.modChannel c f).plan = s.plan ∧ (s.modChannel c f).halls = s.halls ∧
    (s.modChannel c f).funcs = s.funcs ∧ (s.modChannel c f).queues = s.queues ∧ (s.modChannel c f).fences = s.fences ∧
    (s.modChannel c f).contexts = s.contexts ∧ (s.modChannel c f).pools = s.pools ∧
    (s.modChannel c f).deadlines = s.deadlines ∧ (s.modChannel c f).engines = s.engines ∧
    (s.modChannel c f).ports = s.ports ∧ (s.modChannel c f).protect = s.protect ∧ (s.modChannel c f).xlat = s.xlat ∧
    (s.modChannel c f).links = s.links ∧ (s.modChannel c f).groups = s.groups ∧ (s.modChannel c f).reduce = s.reduce ∧
    (s.modChannel c f).commit = s.commit ∧ (s.modChannel c f).faults = s.faults ∧ (s.modChannel c f).lc = s.lc ∧
    (s.modChannel c f).mailboxes = s.mailboxes ∧ (s.modChannel c f).mgmtMsgs = s.mgmtMsgs ∧
    (s.modChannel c f).gallery = s.gallery ∧ (s.modChannel c f).out = s.out ∧ (s.modChannel c f).freeCtr = s.freeCtr ∧
    (s.modChannel c f).pending = s.pending := by
  simp [State.modChannel]

/-- Every other table reads as it did. -/
@[simp] theorem State.modChannel_reads (c : Nat) (f : Channel → Channel) :
    (∀ a : Nat, (s.modChannel c f).hall a = s.hall a) ∧ (∀ a : Nat, (s.modChannel c f).func a = s.func a) ∧
    (∀ a b : Nat, (s.modChannel c f).queue a b = s.queue a b) ∧
    (∀ a b : Nat, (s.modChannel c f).fence a b = s.fence a b) ∧
    (∀ a b : Nat, (s.modChannel c f).ctx a b = s.ctx a b) ∧ (∀ a : Nat, (s.modChannel c f).pool a = s.pool a) ∧
    (∀ a : Nat, (s.modChannel c f).deadline a = s.deadline a) ∧
    (∀ a : Nat, (s.modChannel c f).engine a = s.engine a) ∧ (∀ a : Nat, (s.modChannel c f).memPort a = s.memPort a) ∧
    (∀ a : Nat, (s.modChannel c f).seg a = s.seg a) ∧ (∀ a : Nat, (s.modChannel c f).win a = s.win a) ∧
    (∀ a : Nat, (s.modChannel c f).slot a = s.slot a) ∧ (∀ a : Nat, (s.modChannel c f).hallKey a = s.hallKey a) ∧
    (∀ a : Nat, (s.modChannel c f).link a = s.link a) ∧ (∀ a : Nat, (s.modChannel c f).group a = s.group a) ∧
    (∀ a b : Nat, (s.modChannel c f).cmt a b = s.cmt a b) ∧ (∀ a : BitVec 16, (s.modChannel c f).unit a = s.unit a) ∧
    (∀ a : Nat, (s.modChannel c f).mailbox a = s.mailbox a) := by
  refine ⟨?_, ?_, ?_, ?_, ?_, ?_, ?_, ?_, ?_, ?_, ?_, ?_, ?_, ?_, ?_, ?_, ?_, ?_⟩ <;> intros <;> rfl

/-- A read of the table after the update. -/
@[simp] theorem State.modChannel_channel (c c' : Nat) (f : Channel → Channel) :
    (s.modChannel c f).channel c' = if c' = c then f (s.channel c) else s.channel c' := by
  simp [State.modChannel, State.channel]

/-- Every other field is as it was. -/
@[simp] theorem State.modLink_fields (n : Nat) (f : Link → Link) : (s.modLink n f).core = s.core ∧
    (s.modLink n f).timer = s.timer ∧ (s.modLink n f).plan = s.plan ∧ (s.modLink n f).halls = s.halls ∧
    (s.modLink n f).funcs = s.funcs ∧ (s.modLink n f).queues = s.queues ∧ (s.modLink n f).fences = s.fences ∧
    (s.modLink n f).contexts = s.contexts ∧ (s.modLink n f).pools = s.pools ∧
    (s.modLink n f).deadlines = s.deadlines ∧ (s.modLink n f).engines = s.engines ∧ (s.modLink n f).ports = s.ports ∧
    (s.modLink n f).protect = s.protect ∧ (s.modLink n f).xlat = s.xlat ∧ (s.modLink n f).vault = s.vault ∧
    (s.modLink n f).groups = s.groups ∧ (s.modLink n f).reduce = s.reduce ∧ (s.modLink n f).commit = s.commit ∧
    (s.modLink n f).faults = s.faults ∧ (s.modLink n f).lc = s.lc ∧ (s.modLink n f).mailboxes = s.mailboxes ∧
    (s.modLink n f).mgmtMsgs = s.mgmtMsgs ∧ (s.modLink n f).gallery = s.gallery ∧ (s.modLink n f).out = s.out ∧
    (s.modLink n f).freeCtr = s.freeCtr ∧ (s.modLink n f).pending = s.pending := by
  simp [State.modLink]

/-- Every other table reads as it did. -/
@[simp] theorem State.modLink_reads (n : Nat) (f : Link → Link) : (∀ a : Nat, (s.modLink n f).hall a = s.hall a) ∧
    (∀ a : Nat, (s.modLink n f).func a = s.func a) ∧ (∀ a b : Nat, (s.modLink n f).queue a b = s.queue a b) ∧
    (∀ a b : Nat, (s.modLink n f).fence a b = s.fence a b) ∧ (∀ a b : Nat, (s.modLink n f).ctx a b = s.ctx a b) ∧
    (∀ a : Nat, (s.modLink n f).pool a = s.pool a) ∧ (∀ a : Nat, (s.modLink n f).deadline a = s.deadline a) ∧
    (∀ a : Nat, (s.modLink n f).engine a = s.engine a) ∧ (∀ a : Nat, (s.modLink n f).memPort a = s.memPort a) ∧
    (∀ a : Nat, (s.modLink n f).seg a = s.seg a) ∧ (∀ a : Nat, (s.modLink n f).win a = s.win a) ∧
    (∀ a : Nat, (s.modLink n f).slot a = s.slot a) ∧ (∀ a : Nat, (s.modLink n f).hallKey a = s.hallKey a) ∧
    (∀ a : Nat, (s.modLink n f).channel a = s.channel a) ∧ (∀ a : Nat, (s.modLink n f).group a = s.group a) ∧
    (∀ a b : Nat, (s.modLink n f).cmt a b = s.cmt a b) ∧ (∀ a : BitVec 16, (s.modLink n f).unit a = s.unit a) ∧
    (∀ a : Nat, (s.modLink n f).mailbox a = s.mailbox a) := by
  refine ⟨?_, ?_, ?_, ?_, ?_, ?_, ?_, ?_, ?_, ?_, ?_, ?_, ?_, ?_, ?_, ?_, ?_, ?_⟩ <;> intros <;> rfl

/-- A read of the table after the update. -/
@[simp] theorem State.modLink_link (n n' : Nat) (f : Link → Link) :
    (s.modLink n f).link n' = if n' = n then f (s.link n) else s.link n' := by
  simp [State.modLink, State.link]

/-- Every other field is as it was. -/
@[simp] theorem State.modGroup_fields (g : Nat) (f : Group → Group) : (s.modGroup g f).core = s.core ∧
    (s.modGroup g f).timer = s.timer ∧ (s.modGroup g f).plan = s.plan ∧ (s.modGroup g f).halls = s.halls ∧
    (s.modGroup g f).funcs = s.funcs ∧ (s.modGroup g f).queues = s.queues ∧ (s.modGroup g f).fences = s.fences ∧
    (s.modGroup g f).contexts = s.contexts ∧ (s.modGroup g f).pools = s.pools ∧
    (s.modGroup g f).deadlines = s.deadlines ∧ (s.modGroup g f).engines = s.engines ∧
    (s.modGroup g f).ports = s.ports ∧ (s.modGroup g f).protect = s.protect ∧ (s.modGroup g f).xlat = s.xlat ∧
    (s.modGroup g f).vault = s.vault ∧ (s.modGroup g f).links = s.links ∧ (s.modGroup g f).reduce = s.reduce ∧
    (s.modGroup g f).commit = s.commit ∧ (s.modGroup g f).faults = s.faults ∧ (s.modGroup g f).lc = s.lc ∧
    (s.modGroup g f).mailboxes = s.mailboxes ∧ (s.modGroup g f).mgmtMsgs = s.mgmtMsgs ∧
    (s.modGroup g f).gallery = s.gallery ∧ (s.modGroup g f).out = s.out ∧ (s.modGroup g f).freeCtr = s.freeCtr ∧
    (s.modGroup g f).pending = s.pending := by
  simp [State.modGroup]

/-- Every other table reads as it did. -/
@[simp] theorem State.modGroup_reads (g : Nat) (f : Group → Group) : (∀ a : Nat, (s.modGroup g f).hall a = s.hall a) ∧
    (∀ a : Nat, (s.modGroup g f).func a = s.func a) ∧ (∀ a b : Nat, (s.modGroup g f).queue a b = s.queue a b) ∧
    (∀ a b : Nat, (s.modGroup g f).fence a b = s.fence a b) ∧ (∀ a b : Nat, (s.modGroup g f).ctx a b = s.ctx a b) ∧
    (∀ a : Nat, (s.modGroup g f).pool a = s.pool a) ∧ (∀ a : Nat, (s.modGroup g f).deadline a = s.deadline a) ∧
    (∀ a : Nat, (s.modGroup g f).engine a = s.engine a) ∧ (∀ a : Nat, (s.modGroup g f).memPort a = s.memPort a) ∧
    (∀ a : Nat, (s.modGroup g f).seg a = s.seg a) ∧ (∀ a : Nat, (s.modGroup g f).win a = s.win a) ∧
    (∀ a : Nat, (s.modGroup g f).slot a = s.slot a) ∧ (∀ a : Nat, (s.modGroup g f).hallKey a = s.hallKey a) ∧
    (∀ a : Nat, (s.modGroup g f).channel a = s.channel a) ∧ (∀ a : Nat, (s.modGroup g f).link a = s.link a) ∧
    (∀ a b : Nat, (s.modGroup g f).cmt a b = s.cmt a b) ∧ (∀ a : BitVec 16, (s.modGroup g f).unit a = s.unit a) ∧
    (∀ a : Nat, (s.modGroup g f).mailbox a = s.mailbox a) := by
  refine ⟨?_, ?_, ?_, ?_, ?_, ?_, ?_, ?_, ?_, ?_, ?_, ?_, ?_, ?_, ?_, ?_, ?_, ?_⟩ <;> intros <;> rfl

/-- A read of the table after the update. -/
@[simp] theorem State.modGroup_group (g g' : Nat) (f : Group → Group) :
    (s.modGroup g f).group g' = if g' = g then f (s.group g) else s.group g' := by
  simp [State.modGroup, State.group]

/-- Every other field is as it was. -/
@[simp] theorem State.modCmt_fields (h g : Nat) (f : CmtGroup → CmtGroup) : (s.modCmt h g f).core = s.core ∧
    (s.modCmt h g f).timer = s.timer ∧ (s.modCmt h g f).plan = s.plan ∧ (s.modCmt h g f).halls = s.halls ∧
    (s.modCmt h g f).funcs = s.funcs ∧ (s.modCmt h g f).queues = s.queues ∧ (s.modCmt h g f).fences = s.fences ∧
    (s.modCmt h g f).contexts = s.contexts ∧ (s.modCmt h g f).pools = s.pools ∧
    (s.modCmt h g f).deadlines = s.deadlines ∧ (s.modCmt h g f).engines = s.engines ∧
    (s.modCmt h g f).ports = s.ports ∧ (s.modCmt h g f).protect = s.protect ∧ (s.modCmt h g f).xlat = s.xlat ∧
    (s.modCmt h g f).vault = s.vault ∧ (s.modCmt h g f).links = s.links ∧ (s.modCmt h g f).groups = s.groups ∧
    (s.modCmt h g f).reduce = s.reduce ∧ (s.modCmt h g f).faults = s.faults ∧ (s.modCmt h g f).lc = s.lc ∧
    (s.modCmt h g f).mailboxes = s.mailboxes ∧ (s.modCmt h g f).mgmtMsgs = s.mgmtMsgs ∧
    (s.modCmt h g f).gallery = s.gallery ∧ (s.modCmt h g f).out = s.out ∧ (s.modCmt h g f).freeCtr = s.freeCtr ∧
    (s.modCmt h g f).pending = s.pending := by
  simp [State.modCmt]

/-- Every other table reads as it did. -/
@[simp] theorem State.modCmt_reads (h g : Nat) (f : CmtGroup → CmtGroup) :
    (∀ a : Nat, (s.modCmt h g f).hall a = s.hall a) ∧ (∀ a : Nat, (s.modCmt h g f).func a = s.func a) ∧
    (∀ a b : Nat, (s.modCmt h g f).queue a b = s.queue a b) ∧
    (∀ a b : Nat, (s.modCmt h g f).fence a b = s.fence a b) ∧ (∀ a b : Nat, (s.modCmt h g f).ctx a b = s.ctx a b) ∧
    (∀ a : Nat, (s.modCmt h g f).pool a = s.pool a) ∧ (∀ a : Nat, (s.modCmt h g f).deadline a = s.deadline a) ∧
    (∀ a : Nat, (s.modCmt h g f).engine a = s.engine a) ∧ (∀ a : Nat, (s.modCmt h g f).memPort a = s.memPort a) ∧
    (∀ a : Nat, (s.modCmt h g f).seg a = s.seg a) ∧ (∀ a : Nat, (s.modCmt h g f).win a = s.win a) ∧
    (∀ a : Nat, (s.modCmt h g f).slot a = s.slot a) ∧ (∀ a : Nat, (s.modCmt h g f).hallKey a = s.hallKey a) ∧
    (∀ a : Nat, (s.modCmt h g f).channel a = s.channel a) ∧ (∀ a : Nat, (s.modCmt h g f).link a = s.link a) ∧
    (∀ a : Nat, (s.modCmt h g f).group a = s.group a) ∧ (∀ a : BitVec 16, (s.modCmt h g f).unit a = s.unit a) ∧
    (∀ a : Nat, (s.modCmt h g f).mailbox a = s.mailbox a) := by
  refine ⟨?_, ?_, ?_, ?_, ?_, ?_, ?_, ?_, ?_, ?_, ?_, ?_, ?_, ?_, ?_, ?_, ?_, ?_⟩ <;> intros <;> rfl

/-- A read of the table after the update. -/
theorem State.modCmt_cmt (h g h' g' : Nat) (f : CmtGroup → CmtGroup) :
    (s.modCmt h g f).cmt h' g' = if 64 * h' + g' = 64 * h + g then f (s.cmt h g) else s.cmt h' g' := by
  simp [State.modCmt, State.cmt]

@[simp] theorem State.modCmt_cmt_self (h g : Nat) (f : CmtGroup → CmtGroup) :
    (s.modCmt h g f).cmt h g = f (s.cmt h g) := by
  simp [State.modCmt_cmt]

theorem State.modCmt_cmt_ne (h g h' g' : Nat) (f : CmtGroup → CmtGroup) (e : 64 * h' + g' ≠ 64 * h + g) :
    (s.modCmt h g f).cmt h' g' = s.cmt h' g' := by
  simp [State.modCmt_cmt, e]

/-- Every other field is as it was. -/
@[simp] theorem State.modMailbox_fields (m : Nat) (f : Mailbox → Mailbox) : (s.modMailbox m f).core = s.core ∧
    (s.modMailbox m f).timer = s.timer ∧ (s.modMailbox m f).plan = s.plan ∧ (s.modMailbox m f).halls = s.halls ∧
    (s.modMailbox m f).funcs = s.funcs ∧ (s.modMailbox m f).queues = s.queues ∧ (s.modMailbox m f).fences = s.fences ∧
    (s.modMailbox m f).contexts = s.contexts ∧ (s.modMailbox m f).pools = s.pools ∧
    (s.modMailbox m f).deadlines = s.deadlines ∧ (s.modMailbox m f).engines = s.engines ∧
    (s.modMailbox m f).ports = s.ports ∧ (s.modMailbox m f).protect = s.protect ∧ (s.modMailbox m f).xlat = s.xlat ∧
    (s.modMailbox m f).vault = s.vault ∧ (s.modMailbox m f).links = s.links ∧ (s.modMailbox m f).groups = s.groups ∧
    (s.modMailbox m f).reduce = s.reduce ∧ (s.modMailbox m f).commit = s.commit ∧
    (s.modMailbox m f).faults = s.faults ∧ (s.modMailbox m f).lc = s.lc ∧ (s.modMailbox m f).mgmtMsgs = s.mgmtMsgs ∧
    (s.modMailbox m f).gallery = s.gallery ∧ (s.modMailbox m f).out = s.out ∧ (s.modMailbox m f).freeCtr = s.freeCtr ∧
    (s.modMailbox m f).pending = s.pending := by
  simp [State.modMailbox]

/-- Every other table reads as it did. -/
@[simp] theorem State.modMailbox_reads (m : Nat) (f : Mailbox → Mailbox) :
    (∀ a : Nat, (s.modMailbox m f).hall a = s.hall a) ∧ (∀ a : Nat, (s.modMailbox m f).func a = s.func a) ∧
    (∀ a b : Nat, (s.modMailbox m f).queue a b = s.queue a b) ∧
    (∀ a b : Nat, (s.modMailbox m f).fence a b = s.fence a b) ∧
    (∀ a b : Nat, (s.modMailbox m f).ctx a b = s.ctx a b) ∧ (∀ a : Nat, (s.modMailbox m f).pool a = s.pool a) ∧
    (∀ a : Nat, (s.modMailbox m f).deadline a = s.deadline a) ∧
    (∀ a : Nat, (s.modMailbox m f).engine a = s.engine a) ∧ (∀ a : Nat, (s.modMailbox m f).memPort a = s.memPort a) ∧
    (∀ a : Nat, (s.modMailbox m f).seg a = s.seg a) ∧ (∀ a : Nat, (s.modMailbox m f).win a = s.win a) ∧
    (∀ a : Nat, (s.modMailbox m f).slot a = s.slot a) ∧ (∀ a : Nat, (s.modMailbox m f).hallKey a = s.hallKey a) ∧
    (∀ a : Nat, (s.modMailbox m f).channel a = s.channel a) ∧ (∀ a : Nat, (s.modMailbox m f).link a = s.link a) ∧
    (∀ a : Nat, (s.modMailbox m f).group a = s.group a) ∧ (∀ a b : Nat, (s.modMailbox m f).cmt a b = s.cmt a b) ∧
    (∀ a : BitVec 16, (s.modMailbox m f).unit a = s.unit a) := by
  refine ⟨?_, ?_, ?_, ?_, ?_, ?_, ?_, ?_, ?_, ?_, ?_, ?_, ?_, ?_, ?_, ?_, ?_, ?_⟩ <;> intros <;> rfl

/-- A read of the table after the update. -/
@[simp] theorem State.modMailbox_mailbox (m m' : Nat) (f : Mailbox → Mailbox) :
    (s.modMailbox m f).mailbox m' = if m' = m then f (s.mailbox m) else s.mailbox m' := by
  simp [State.modMailbox, State.mailbox]

/-- Every other field is as it was. -/
@[simp] theorem State.modUnit_fields (u : BitVec 16) (f : FUnit → FUnit) : (s.modUnit u f).core = s.core ∧
    (s.modUnit u f).timer = s.timer ∧ (s.modUnit u f).plan = s.plan ∧ (s.modUnit u f).halls = s.halls ∧
    (s.modUnit u f).funcs = s.funcs ∧ (s.modUnit u f).queues = s.queues ∧ (s.modUnit u f).fences = s.fences ∧
    (s.modUnit u f).contexts = s.contexts ∧ (s.modUnit u f).pools = s.pools ∧
    (s.modUnit u f).deadlines = s.deadlines ∧ (s.modUnit u f).engines = s.engines ∧ (s.modUnit u f).ports = s.ports ∧
    (s.modUnit u f).protect = s.protect ∧ (s.modUnit u f).xlat = s.xlat ∧ (s.modUnit u f).vault = s.vault ∧
    (s.modUnit u f).links = s.links ∧ (s.modUnit u f).groups = s.groups ∧ (s.modUnit u f).reduce = s.reduce ∧
    (s.modUnit u f).commit = s.commit ∧ (s.modUnit u f).lc = s.lc ∧ (s.modUnit u f).mailboxes = s.mailboxes ∧
    (s.modUnit u f).mgmtMsgs = s.mgmtMsgs ∧ (s.modUnit u f).gallery = s.gallery ∧ (s.modUnit u f).out = s.out ∧
    (s.modUnit u f).freeCtr = s.freeCtr ∧ (s.modUnit u f).pending = s.pending := by
  simp [State.modUnit]

/-- Every other table reads as it did. -/
@[simp] theorem State.modUnit_reads (u : BitVec 16) (f : FUnit → FUnit) :
    (∀ a : Nat, (s.modUnit u f).hall a = s.hall a) ∧ (∀ a : Nat, (s.modUnit u f).func a = s.func a) ∧
    (∀ a b : Nat, (s.modUnit u f).queue a b = s.queue a b) ∧ (∀ a b : Nat, (s.modUnit u f).fence a b = s.fence a b) ∧
    (∀ a b : Nat, (s.modUnit u f).ctx a b = s.ctx a b) ∧ (∀ a : Nat, (s.modUnit u f).pool a = s.pool a) ∧
    (∀ a : Nat, (s.modUnit u f).deadline a = s.deadline a) ∧ (∀ a : Nat, (s.modUnit u f).engine a = s.engine a) ∧
    (∀ a : Nat, (s.modUnit u f).memPort a = s.memPort a) ∧ (∀ a : Nat, (s.modUnit u f).seg a = s.seg a) ∧
    (∀ a : Nat, (s.modUnit u f).win a = s.win a) ∧ (∀ a : Nat, (s.modUnit u f).slot a = s.slot a) ∧
    (∀ a : Nat, (s.modUnit u f).hallKey a = s.hallKey a) ∧ (∀ a : Nat, (s.modUnit u f).channel a = s.channel a) ∧
    (∀ a : Nat, (s.modUnit u f).link a = s.link a) ∧ (∀ a : Nat, (s.modUnit u f).group a = s.group a) ∧
    (∀ a b : Nat, (s.modUnit u f).cmt a b = s.cmt a b) ∧ (∀ a : Nat, (s.modUnit u f).mailbox a = s.mailbox a) := by
  refine ⟨?_, ?_, ?_, ?_, ?_, ?_, ?_, ?_, ?_, ?_, ?_, ?_, ?_, ?_, ?_, ?_, ?_, ?_⟩ <;> intros <;> rfl

/-- A read of the table after the update. -/
@[simp] theorem State.modUnit_unit (u u' : BitVec 16) (f : FUnit → FUnit) :
    (s.modUnit u f).unit u' = if u' = u then f (s.unit u) else s.unit u' := by
  simp [State.modUnit, State.unit, BitVec.toNat_inj]

/-- An output changes the outputs and nothing else. -/
@[simp] theorem State.emit_fields (o : Out) : (s.emit o).core = s.core ∧ (s.emit o).timer = s.timer ∧
    (s.emit o).plan = s.plan ∧ (s.emit o).halls = s.halls ∧ (s.emit o).funcs = s.funcs ∧
    (s.emit o).queues = s.queues ∧ (s.emit o).fences = s.fences ∧ (s.emit o).contexts = s.contexts ∧
    (s.emit o).pools = s.pools ∧ (s.emit o).deadlines = s.deadlines ∧ (s.emit o).engines = s.engines ∧
    (s.emit o).ports = s.ports ∧ (s.emit o).protect = s.protect ∧ (s.emit o).xlat = s.xlat ∧
    (s.emit o).vault = s.vault ∧ (s.emit o).links = s.links ∧ (s.emit o).groups = s.groups ∧
    (s.emit o).reduce = s.reduce ∧ (s.emit o).commit = s.commit ∧ (s.emit o).faults = s.faults ∧
    (s.emit o).lc = s.lc ∧ (s.emit o).mailboxes = s.mailboxes ∧ (s.emit o).mgmtMsgs = s.mgmtMsgs ∧
    (s.emit o).gallery = s.gallery ∧ (s.emit o).out = s.out ++ [o] ∧ (s.emit o).freeCtr = s.freeCtr ∧
    (s.emit o).pending = s.pending := by
  simp [State.emit]

/-- Every table reads as it did. -/
@[simp] theorem State.emit_reads (o : Out) : (∀ a : Nat, (s.emit o).hall a = s.hall a) ∧
    (∀ a : Nat, (s.emit o).func a = s.func a) ∧ (∀ a b : Nat, (s.emit o).queue a b = s.queue a b) ∧
    (∀ a b : Nat, (s.emit o).fence a b = s.fence a b) ∧ (∀ a b : Nat, (s.emit o).ctx a b = s.ctx a b) ∧
    (∀ a : Nat, (s.emit o).pool a = s.pool a) ∧ (∀ a : Nat, (s.emit o).deadline a = s.deadline a) ∧
    (∀ a : Nat, (s.emit o).engine a = s.engine a) ∧ (∀ a : Nat, (s.emit o).memPort a = s.memPort a) ∧
    (∀ a : Nat, (s.emit o).seg a = s.seg a) ∧ (∀ a : Nat, (s.emit o).win a = s.win a) ∧
    (∀ a : Nat, (s.emit o).slot a = s.slot a) ∧ (∀ a : Nat, (s.emit o).hallKey a = s.hallKey a) ∧
    (∀ a : Nat, (s.emit o).channel a = s.channel a) ∧ (∀ a : Nat, (s.emit o).link a = s.link a) ∧
    (∀ a : Nat, (s.emit o).group a = s.group a) ∧ (∀ a b : Nat, (s.emit o).cmt a b = s.cmt a b) ∧
    (∀ a : BitVec 16, (s.emit o).unit a = s.unit a) ∧ (∀ a : Nat, (s.emit o).mailbox a = s.mailbox a) := by
  refine ⟨?_, ?_, ?_, ?_, ?_, ?_, ?_, ?_, ?_, ?_, ?_, ?_, ?_, ?_, ?_, ?_, ?_, ?_, ?_⟩ <;> intros <;> rfl

end Sys2Proof.Machine
end

