-- ==== Sys2Proof/Laws/Engine.lean ====
section
/-! SUPPORT. What the operations of the engine ports, the units and the invocations do to what a statement reads: one
lemma per operation and reading. -/

namespace Sys2Proof.Machine
open Sys2Proof.Safety

/-- A fence reads the value written to it, and every other fence reads as it did (R163). -/
theorem State.setFence_fence (s : State) (h n h' n' : Nat) (v : Word) :
    (s.setFence h n v).fence h' n' = if 4096 * h' + n' = 4096 * h + n then v else s.fence h' n' := by
  unfold State.setFence
  dsimp only
  split <;> simp [State.fence]

/-- The engines read as they did after an operation that does not touch them. -/
theorem engine_of_frame {l : List Part} {s t : State} (f : Frame l s t) (n : .engines ∉ l) (p : Nat) :
    t.engine p = s.engine p := by
  simp [State.engine, f.engines n]

section
variable (s : State)

@[simp] theorem State.complete_engine (h q hdr x p) : (s.complete h q hdr x).engine p = s.engine p :=
  engine_of_frame (State.complete_frame (List.Subset.refl _) s h q hdr x) (by decide) p
@[simp] theorem State.endWatch_engine (h c p) : (s.endWatch h c).engine p = s.engine p :=
  engine_of_frame (State.endWatch_frame (List.Subset.refl _) s h c) (by decide) p
@[simp] theorem State.afterInvocation_engine (h q p) : (s.afterInvocation h q).engine p = s.engine p :=
  engine_of_frame (State.afterInvocation_frame (List.Subset.refl _) s h q) (by decide) p
@[simp] theorem State.contextSettled_engine (h c p) : (s.contextSettled h c).engine p = s.engine p :=
  engine_of_frame (State.contextSettled_frame (List.Subset.refl _) s h c) (by decide) p
@[simp] theorem State.releaseWatch_engine (h p) : (s.releaseWatch h).engine p = s.engine p :=
  engine_of_frame (State.releaseWatch_frame (List.Subset.refl _) s h) (by decide) p
@[simp] theorem State.countHall_engine (h f p) : (s.countHall h f).engine p = s.engine p :=
  engine_of_frame (State.countHall_frame (List.Subset.refl _) s h f) (by decide) p
@[simp] theorem State.ungrantEntry_engine (e p) : (s.ungrantEntry e).engine p = s.engine p :=
  engine_of_frame (State.ungrantEntry_frame (List.Subset.refl _) s e) (by decide) p
@[simp] theorem State.beginFence_engine (ty i c h st p) : (s.beginFence ty i c h st).engine p = s.engine p :=
  engine_of_frame (State.beginFence_frame (List.Subset.refl _) s ty i c h st) (by decide) p

@[simp] theorem State.countHall_queue (h f k q) : (s.countHall h f).queue k q = s.queue k q := by
  unfold State.countHall
  split <;> simp
@[simp] theorem State.countHall_gen (h f k) : ((s.countHall h f).hall k).gen = (s.hall k).gen := by
  unfold State.countHall
  split
  · by_cases e : k = h <;> simp [e]
  · rfl
@[simp] theorem State.countHall_out (h f) : (s.countHall h f).out = s.out := by
  unfold State.countHall
  split <;> simp
/-- The invocation that an entry belongs to depends on its queue and its hall's generation alone. -/
theorem State.invOf_congr (t : State) (e : TileEntry) (h : (t.hall e.hall).gen = (s.hall e.hall).gen)
    (q : t.queue e.hall e.local_ = s.queue e.hall e.local_) : t.invOf e = s.invOf e := by
  simp [State.invOf, h, q]

/-- The entries of a queue's invocation leave the engine queues; nothing else of an engine changes (R173). -/
theorem State.dropGrants_engine (h q : Nat) (seq : BitVec 32) (p : Nat) :
    (s.dropGrants h q seq).engine p =
      { s.engine p with
        queue := (s.engine p).queue.filter (fun x => match x with | .tile t => !t.of h q seq | .park => true)
        fetched := (s.engine p).fetched.bind fun t => if t.of h q seq then none else some t } := by
  unfold State.dropGrants State.engine
  rw [Tab.get_mapAll] <;> rfl
@[simp] theorem State.dropGrants_begun (h q seq p) : ((s.dropGrants h q seq).engine p).begun = (s.engine p).begun := by
  rw [State.dropGrants_engine]

/-- What every round of a loop keeps, the loop keeps. -/
theorem forAll_keep {β : Type} (g : State → β) (n : Nat) (f : Nat → State → State) (s : State)
    (h : ∀ k t, g (f k t) = g t) : g (forAll n f s) = g s := by
  unfold forAll
  generalize List.range n = l
  induction l generalizing s with
  | nil => rfl
  | cons x _ ih => exact (ih _).trans (h x s)

/-- What an engine has begun outlasts the completion of an invocation. -/
@[simp] theorem State.finishInvocation_begun (h q : Nat) (st : Status) (p : Nat) :
    ((s.finishInvocation h q st).engine p).begun = (s.engine p).begun := by
  unfold State.finishInvocation
  split
  · rfl
  · dsimp only
    split <;> simp
@[simp] theorem State.settleOne_begun (h q : Nat) (p : Nat) : ((s.settleOne h q).engine p).begun = (s.engine p).begun := by
  unfold State.settleOne
  (repeat' split) <;> simp
@[simp] theorem State.settle_begun (h q : Nat) (p : Nat) : ((s.settle h q).engine p).begun = (s.engine p).begun :=
  forAll_keep (fun t => (t.engine p).begun) _ _ _ fun _ t => t.settleOne_begun h q p
@[simp] theorem State.stopStarts_begun (h q v p) : ((s.stopStarts h q v).engine p).begun = (s.engine p).begun := by
  unfold State.stopStarts
  split <;> simp
@[simp] theorem State.tileResult_begun (p e st o q) : ((s.tileResult p e st o).engine q).begun = (s.engine q).begun := by
  unfold State.tileResult
  dsimp only
  (repeat' split) <;> simp
/-- Counting slots touches what a port has counted alone (R144). -/
theorem State.countSlots_engine (p k q) : (s.countSlots p k).engine q =
    if q = p ∧ (s.engine p).begun.isSome then { s.engine p with counted := max (s.engine p).counted k } else s.engine q := by
  unfold State.countSlots
  split
  · rename_i e; simp [e]
  · rename_i e
    by_cases h : q = p <;> simp [h, e]
@[simp] theorem State.countSlots_begun (p k q) : ((s.countSlots p k).engine q).begun = (s.engine q).begun := by
  rw [State.countSlots_engine]
  split
  · rename_i h; simp [h.1]
  · rfl
@[simp] theorem State.countSlots_dmas (p k q) : ((s.countSlots p k).engine q).dmas = (s.engine q).dmas := by
  rw [State.countSlots_engine]
  split
  · rename_i h; simp [h.1]
  · rfl
/-- The tile that a port had begun has ended. -/
@[simp] theorem State.endBegun_begun (p st o) : ((s.endBegun p st o).engine p).begun = none := by
  unfold State.endBegun
  split
  · assumption
  · simp

@[simp] theorem State.dropGrants_dmas (h q seq p) : ((s.dropGrants h q seq).engine p).dmas = (s.engine p).dmas := by
  rw [State.dropGrants_engine]
@[simp] theorem State.finishInvocation_dmas (h q : Nat) (st : Status) (p : Nat) :
    ((s.finishInvocation h q st).engine p).dmas = (s.engine p).dmas := by
  unfold State.finishInvocation
  split
  · rfl
  · dsimp only
    split <;> simp
@[simp] theorem State.settleOne_dmas (h q : Nat) (p : Nat) : ((s.settleOne h q).engine p).dmas = (s.engine p).dmas := by
  unfold State.settleOne
  (repeat' split) <;> simp
@[simp] theorem State.settle_dmas (h q : Nat) (p : Nat) : ((s.settle h q).engine p).dmas = (s.engine p).dmas :=
  forAll_keep (fun t => (t.engine p).dmas) _ _ _ fun _ t => t.settleOne_dmas h q p
@[simp] theorem State.stopStarts_dmas (h q v p) : ((s.stopStarts h q v).engine p).dmas = (s.engine p).dmas := by
  unfold State.stopStarts
  split <;> simp
@[simp] theorem State.tileResult_dmas (p e st o q) : ((s.tileResult p e st o).engine q).dmas = (s.engine q).dmas := by
  unfold State.tileResult
  dsimp only
  (repeat' split) <;> simp
@[simp] theorem State.endBegun_dmas (p st o) : ((s.endBegun p st o).engine p).dmas = (s.engine p).dmas := by
  unfold State.endBegun
  split
  · rfl
  · simp
@[simp] theorem State.abandonFetched_dmas (p q) : ((s.abandonFetched p).engine q).dmas = (s.engine q).dmas := by
  unfold State.abandonFetched
  split
  · by_cases h : q = p <;> simp [h]
  · rfl
/-- Grants taken back leave the requests of every port as they are. -/
@[simp] theorem State.clearGrants_dmas (p q) : ((s.clearGrants p).engine q).dmas = (s.engine q).dmas := by
  unfold State.clearGrants
  dsimp only
  have k : Frame [.queues] (s.abandonFetched p) (forEach ((s.abandonFetched p).engine p).queue
      EngEntry.ungrant (s.abandonFetched p)) := forEach_frame _ _ _ (by intro e u; simp)
  have k (r) := engine_of_frame k (by decide) r
  by_cases h : q = p
  · subst h; rw [State.modEngine_engine, if_pos rfl, k]; simp
  · rw [State.modEngine_engine, if_neg h, k]; simp
/-- The units read as they did after an operation that does not touch them. -/
theorem unit_of_frame {l : List Part} {s t : State} (f : Frame l s t) (n : .units ∉ l) (u : BitVec 16) :
    t.unit u = s.unit u := by
  simp [State.unit, f.units n]
@[simp] theorem State.raise_unit (c i u) : (s.raise c i).unit u = s.unit u :=
  unit_of_frame (State.raise_frame (List.Subset.refl _) s c i) (by decide) u
@[simp] theorem State.noteChange_unit (v u) : (s.noteChange v).unit u = s.unit u := rfl
/-- A trigger moves a unit in service to FENCING, with a new generation and the cause (R377). -/
theorem State.beginFence_unit (ty i : Nat) (c : BitVec 4) (h : Option Nat) (st : Byte)
    (k : (s.unit (unitId ty i)).state = .inService) :
    (s.beginFence ty i c h st).unit (unitId ty i) =
      { s.unit (unitId ty i) with state := .fencing, gen := nextGen (s.unit (unitId ty i)).gen, cause := c, quietLeft := 0,
                                  triggered := false, started := false } := by
  simp [State.beginFence, k]
@[simp] theorem State.cutWhere_unit (p st f u) : (s.cutWhere p st f).unit u = s.unit u :=
  unit_of_frame (State.cutWhere_frame (List.Subset.refl _) s p st f) (by decide) u
@[simp] theorem State.clearGrants_unit (p u) : (s.clearGrants p).unit u = s.unit u :=
  unit_of_frame (State.clearGrants_frame (List.Subset.refl _) s p) (by decide) u
@[simp] theorem State.endBegun_unit (p st o u) : (s.endBegun p st o).unit u = s.unit u :=
  unit_of_frame (State.endBegun_frame (List.Subset.refl _) s p st o) (by decide) u

/-- A port after responses to the requests of some tags: the requests are gone, and no fence transfer waits for them
(R42, R44). -/
def Engine.without (e : Engine) (tags : List Nat) : Engine :=
  { e with dmas := e.dmas.filter (fun x => !tags.contains x.tag),
           fences := e.fences.map fun w => { w with tags := w.tags.filter fun x => !tags.contains x } }

/-- A response takes its request out of the port, and touches no other port (R42). -/
theorem State.respond_engine (p : Nat) (d : Dma) (st : Status) (q : Nat) :
    (s.respond p d st).engine q = if q = p then (s.engine p).without [d.tag] else s.engine q := by
  have k (r) : (s.deliver p d st).engine r = s.engine r := by unfold State.deliver; split <;> rfl
  have m (a b : Nat) : (!a == b) = !decide (a = b) := rfl
  by_cases h : q = p <;> simp [State.respond, k, h, Engine.without, bne, m]
@[simp] theorem State.forget_engine (p tag q) : (s.forget p tag).engine q = s.engine q := rfl
theorem State.cut_engine (p : Nat) (st : Status) (d : Dma) (q : Nat) :
    (s.cut p st d).engine q = if q = p then (s.engine p).without [d.tag] else s.engine q := by
  simp [State.cut, State.respond_engine]
theorem Engine.without_nil (e : Engine) : e.without [] = e := by
  cases e
  simp [Engine.without]
theorem Engine.without_without (e : Engine) (a b : List Nat) : (e.without a).without b = e.without (a ++ b) := by
  simp only [Engine.without, List.filter_filter, List.map_map]
  congr 1
  · refine List.filter_congr fun x _ => ?_
    simp [Bool.and_comm]
  · refine List.map_congr_left fun x _ => ?_
    simp [List.filter_filter, Bool.and_comm]

/-- Requests that a test picks are gone from the port after `cutWhere`; the rest stay in their order (R40). -/
theorem State.cutWhere_engine (p : Nat) (st : Status) (test : Dma → Bool) (q : Nat) :
    (s.cutWhere p st test).engine q =
      if q = p then (s.engine p).without (((s.engine p).dmas.filter test).map Dma.tag) else s.engine q := by
  unfold State.cutWhere forEach
  generalize (s.engine p).dmas.filter test = l
  induction l generalizing s with
  | nil => split <;> simp_all [Engine.without_nil]
  | cons d l ih =>
    rw [List.foldl_cons, ih]
    by_cases h : q = p
    · simp [h, State.cut_engine, Engine.without_without]
    · simp [h, State.cut_engine]
theorem State.cutWhere_all (p : Nat) (st : Status) : ((s.cutWhere p st fun _ => true).engine p).dmas = [] := by
  rw [State.cutWhere_engine]
  simp only [if_true, Engine.without, List.filter_eq_nil_iff]
  intro x hx
  simp
  exact ⟨x, hx, rfl⟩
end
end Sys2Proof.Machine
end

