-- ==== Sys2Proof/Laws/Memory.lean ====
section
/-! SUPPORT. What the operations behind a DMA request do to what a statement reads: the served accesses, an engine port's
requests, and working memory. -/

namespace Sys2Proof.Machine
open Sys2Proof.Safety
theorem State.wake_of_none (s : State) (ws : List DmaWait) (h : ∀ e ∈ s.engines, ∀ d ∈ e.2.dmas, d.wait ∉ ws) :
    s.wake ws = s := by
  unfold State.wake
  have k : (s.engines.flatMap fun e =>
      (e.2.dmas.filter fun d => d.wait ∈ ws ∧ d.kind = 0).map fun d => (d.arrival, e.1, d.tag)) = [] := by
    rw [List.flatMap_eq_nil_iff]
    intro e he
    rw [List.map_eq_nil_iff, List.filter_eq_nil_iff]
    intro d hd
    simp [h e he d hd]
  rw [k]
  rfl
theorem State.startWrites_of_none (s : State) (h : ∀ w ∈ s.xlat.writes, s.writeReady w = false) : s.startWrites = s := by
  unfold State.startWrites
  rw [List.filter_eq_nil_iff.mpr (by intro w hw; simp [h w hw])]
  rfl
theorem State.serveFences_of_none (s : State) (h : ∀ e ∈ s.engines, e.2.fences = []) : s.serveFences = s := by
  unfold State.serveFences
  rw [List.filter_eq_nil_iff.mpr (by intro e he; simp [h e he])]
  rfl
/-- Nothing follows a command that leaves nothing of the core's own to be done. -/
theorem State.drainServed_of_settled (s : State) (h : Settled s) : s.drainServed = s := by
  obtain ⟨a, b, c⟩ := h
  unfold State.drainServed
  rw [s.wake_of_none [.lock] (by intro e he d hd; simpa using (c e he).1 d hd), s.startWrites_of_none b]
  have k (n : Nat) : drainLoop n s = s := by
    cases n with
    | zero => rfl
    | succ n => unfold drainLoop; rw [a]
  dsimp only
  rw [k]
  have e : ({ s with xlat := { s.xlat with served := [] } } : State) = s := by
    rw [← a]
  rw [e]
  exact s.serveFences_of_none fun x hx => (c x hx).2

theorem State.dma_none_of (s : State) (p tag : Nat) (h : ∀ d ∈ (s.engine p).dmas, d.tag ≠ tag) : s.dma p tag = none := by
  simpa [State.dma] using h

theorem mem_insertNat (n m : Nat) (l : List Nat) : n ∈ insertNat m l ↔ n = m ∨ n ∈ l := by
  induction l with
  | nil => simp [insertNat]
  | cons a l ih =>
    unfold insertNat
    split
    · simp
    · split
      · rename_i h; subst h; simp
      · simp [ih]; grind

theorem forEach_emit_out {α : Type} (f : α → Out) (l : List α) (s : State) :
    forEach l (fun a u => u.emit (f a)) s = { s with out := s.out ++ l.map f } := by
  induction l generalizing s with
  | nil => simp [forEach]
  | cons a l ih =>
    simp only [forEach, List.foldl_cons] at ih ⊢
    rw [ih]; simp [State.emit]
end Sys2Proof.Machine
namespace Sys2Proof.Machine
open Sys2Proof.Safety
/-- A request that a port has just taken is the one its tag names. -/
theorem State.dma_append (s : State) (p : Nat) (d : Dma) (h : ∀ x ∈ (s.engine p).dmas, x.tag ≠ d.tag) :
    (s.modEngine p fun e => { e with dmas := e.dmas ++ [d] }).dma p d.tag = some d := by
  simp only [State.dma, State.modEngine_engine, if_true, List.find?_append]
  rw [List.find?_eq_none.mpr (by intro x hx; simpa using h x hx)]
  simp
theorem filter_tag_append (l : List Dma) (d : Dma) (tag : Nat) (h : ∀ x ∈ l, x.tag ≠ tag) (k : d.tag = tag) :
    (l ++ [d]).filter (fun x => x.tag != tag) = l := by
  rw [List.filter_append, List.filter_eq_self.mpr (by intro x hx; simpa using h x hx)]
  simp [k]
end Sys2Proof.Machine
namespace Sys2Proof.Machine
open Sys2Proof.Safety
/-- A request of working memory runs at once as it passes translation. -/
theorem State.startSeg_wm (s : State) (p : Nat) (d : Dma) (h : ∀ x ∈ (s.engine p).dmas, x.tag ≠ d.tag)
    (m : (s.seg d.seg).mode = .wm) :
    let t := s.modEngine p fun e => { e with dmas := e.dmas ++ [s.translated d] }
    s.startSeg p d = ({ t with protect := { t.protect with arrivals := t.protect.arrivals + 1 } }).runWm p (s.translated d) := by
  intro t
  have k : ({ t with protect := { t.protect with arrivals := t.protect.arrivals + 1 } }).dma p d.tag = some (s.translated d) :=
    s.dma_append p (s.translated d) h
  have m' : (s.seg (s.translated d).seg).mode = .wm := m
  show State.runSeg { t with protect := { t.protect with arrivals := t.protect.arrivals + 1 } } p d.tag = _
  unfold State.runSeg
  rw [k]
  show (if (s.seg (s.translated d).seg).mode = .wm then _ else _) = _
  rw [if_pos m']
theorem Dma.ok_beats (d : Dma) (h : d.lines = []) :
    (List.range d.beatCount).map (fun i => Tab.get (0 : Line) d.lines i) = List.replicate d.beatCount 0 := by
  rw [h, List.eq_replicate_iff]
  refine ⟨by simp, ?_⟩
  intro x hx
  simp only [List.mem_map] at hx
  obtain ⟨_, _, rfl⟩ := hx
  rfl
theorem State.modDma_engine (s : State) (p tag : Nat) (f : Dma → Dma) (q : Nat) :
    (s.modDma p tag f).engine q = if q = p then
      { s.engine p with dmas := (s.engine p).dmas.map fun d => if d.tag = tag then f d else d } else s.engine q := by
  simp [State.modDma]
/-- A changed request is the one its tag names, as it is changed. -/
theorem State.modDma_dma (s : State) (p tag : Nat) (f : Dma → Dma) (k : ∀ d, (f d).tag = d.tag) :
    (s.modDma p tag f).dma p tag = (s.dma p tag).map f := by
  simp only [State.dma, State.modDma_engine, if_true]
  induction (s.engine p).dmas with
  | nil => rfl
  | cons d l ih =>
    by_cases h : d.tag = tag
    · simp [h, k]
    · simp only [List.map_cons, h, if_false]
      rw [List.find?_cons_of_neg (by simpa using h), List.find?_cons_of_neg (by simpa using h), ih]
theorem State.dma_congr (s t : State) (p tag : Nat) (h : t.engine p = s.engine p) : t.dma p tag = s.dma p tag := by
  simp [State.dma, h]
/-- The other requests of a port, after one of them changes. -/
theorem filter_modDma (l : List Dma) (tag : Nat) (f : Dma → Dma) (k : ∀ d, (f d).tag = d.tag) :
    (l.map fun d => if d.tag = tag then f d else d).filter (fun x => x.tag != tag) = l.filter fun x => x.tag != tag := by
  induction l with
  | nil => rfl
  | cons d l ih =>
    by_cases h : d.tag = tag
    · simp [h, k, ih]
    · simp [h, ih]
end Sys2Proof.Machine

namespace Sys2Proof.Machine
open Sys2Proof.Safety
theorem State.runWm_readClear (s : State) (p : Nat) (d : Dma) (hw : d.write = false) (hg : d.granule ∉ s.protect.written) :
    s.runWm p d = ((s.countHall d.hall fun c => { c with wmZeroReads := c.wmZeroReads + 1 }).modDma p d.tag fun x =>
      { x with lines := [] }).respondNow p d.tag := by
  unfold State.runWm; simp [hw, hg]
theorem State.runWm_write (s : State) (p : Nat) (d : Dma) (hw : d.write = true) :
    s.runWm p d = State.respond { s with
      out := s.out ++ (if d.granule ∈ s.protect.written then d.blocks else d.granuleBlocks).map fun b =>
        .wmWrite (d.segBase * 2 ^ 13 + b / 4) d.hall (s.hall d.hall).gen (wmBlock d b).1
          (if d.granule ∈ s.protect.written then (wmBlock d b).2 else BitVec.allOnes 256)
      protect := { s.protect with written := insertNat d.granule s.protect.written } } p d .ok := by
  unfold State.runWm; simp only [hw, if_true, forEach_emit_out]
  by_cases hg : d.granule ∈ s.protect.written <;> simp [hg]
end Sys2Proof.Machine
end

