-- ==== Sys2Proof/Laws/Sealing.lean ====
section
/-! SUPPORT. What a chip seals opens again: a chunk under a group key, a sector under a host key, a frame under a link key; and
the fields of a word that a byte list spells. -/

namespace Sys2Proof.Machine

/-! ### Fields of a word -/

theorem leNat_drop (l : List Byte) (k : Nat) : leNat (l.drop k) = leNat l / 256 ^ k := by
  induction k generalizing l with
  | zero => simp
  | succ k ih =>
    cases l with
    | nil => simp [leNat]
    | cons b l =>
      rw [List.drop_succ_cons, ih, leNat, pow_succ', ← Nat.div_div_eq_div_mul]
      have := b.isLt
      congr 1
      omega

theorem leNat_take (l : List Byte) (k : Nat) : leNat (l.take k) = leNat l % 256 ^ k := by
  induction k generalizing l with
  | zero => simp [leNat, Nat.mod_one]
  | succ k ih =>
    cases l with
    | nil => simp [leNat]
    | cons b l =>
      rw [List.take_succ_cons, leNat, ih, leNat, pow_succ', Nat.mod_mul]
      have := b.isLt
      have h1 : (b.toNat + 256 * leNat l) % 256 = b.toNat := by omega
      have h2 : (b.toNat + 256 * leNat l) / 256 = leNat l := by omega
      rw [h1, h2]

/-- A byte field of a word that a byte list spells is the number that the list's bytes spell there. -/
theorem byteField_leNat {w : Nat} (l : List Byte) (hw : w = 8 * l.length) (hi lo : Nat) (h : lo ≤ hi) :
    byteField (BitVec.ofNat w (leNat l)) hi lo = leNat (slice l lo (hi + 1 - lo)) := by
  have hlt : leNat l < 2 ^ w := by
    have := leNat_lt l
    rwa [show (256 : Nat) = 2 ^ 8 from rfl, ← pow_mul, ← hw] at this
  rw [byteField, bits, slice, leNat_take, leNat_drop, BitVec.toNat_ofNat, Nat.mod_eq_of_lt hlt, Nat.shiftRight_eq_div_pow,
    show (256 : Nat) = 2 ^ 8 from rfl, ← pow_mul, ← pow_mul, show 8 * hi + 7 + 1 - 8 * lo = 8 * (hi + 1 - lo) by omega]

/-- Words that agree below bit 384 have the same fields there. -/
theorem bits_of_low {h g : BitVec 512} (e : h.toNat % 2 ^ 384 = g.toNat % 2 ^ 384) (hi lo : Nat) (hh : hi < 384) :
    bits h hi lo = bits g hi lo := by
  apply Nat.eq_of_testBit_eq
  intro i
  have := congrArg (fun x => x.testBit (lo + i)) e
  simp only [Nat.testBit_mod_two_pow] at this
  simp only [bits, Nat.testBit_mod_two_pow, Nat.testBit_shiftRight]
  by_cases hi' : i < hi + 1 - lo
  · simpa [hi', show lo + i < 384 by omega] using this
  · simp [hi']

theorem bit_of_low {h g : BitVec 512} (e : h.toNat % 2 ^ 384 = g.toNat % 2 ^ 384) (i : Nat) (hh : i < 384) :
    bit h i = bit g i := by
  simpa [bit, Nat.testBit_mod_two_pow, hh] using congrArg (fun x => x.testBit i) e

/-! ### What was sealed opens -/

/-- A chunk frame sealed under a group key keeps its header below the inner tag, and its body opens. -/
theorem openChunk_sealed (key : BitVec 256) (g : BitVec 512) (plain : List Byte) : ∃ (h : BitVec 512) (body : List Byte),
    h.toNat % 2 ^ 384 = g.toNat % 2 ^ 384 ∧ body.length = plain.length ∧ openChunk key h body = some plain := by
  obtain ⟨body, tag, hs⟩ : ∃ body tag, gcmSeal key (chunkIv (bits g 126 112) (byteField g 12 12) (byteField g 23 16))
    ((bytesOf g).take 48) plain = (body, tag) := ⟨_, _, rfl⟩
  have hl : body.length = plain.length := by simpa [gcmSeal, gcmCtr_length] using congrArg (·.1.length) hs.symm
  have ht : tag.length = 16 := by
    simpa [gcmSeal, gcmTag, xorBytes_length, aesBytes_length, beBytes, leBytes_length] using congrArg (·.2.length) hs.symm
  have hg : ((bytesOf g).take 48).length = 48 := by simp [bytesOf, leBytes_length]
  have hb : bytesOf (BitVec.ofNat 512 (leNat ((bytesOf g).take 48 ++ tag))) = (bytesOf g).take 48 ++ tag :=
    bytesOf_ofNat_leNat _ (by simp [bytesOf, leBytes_length, ht])
  have e : (BitVec.ofNat 512 (leNat ((bytesOf g).take 48 ++ tag))).toNat % 2 ^ 384 = g.toNat % 2 ^ 384 := by
    have h1 : ∀ (x : BitVec 512), x.toNat % 2 ^ 384 = leNat ((bytesOf x).take 48) := by
      intro x
      have h3 : (bytesOf x).take 48 = leBytes 48 x.toNat := by simp [bytesOf, leBytes, ← List.map_take, List.take_range]
      rw [h3, leNat_leBytes, show (256 : Nat) = 2 ^ 8 from rfl, ← pow_mul]
    rw [h1, h1, hb, List.take_left' hg]
  have ho := gcmOpen_gcmSeal key (chunkIv (bits g 126 112) (byteField g 12 12) (byteField g 23 16)) ((bytesOf g).take 48) plain
  rw [hs] at ho
  refine ⟨_, body, e, hl, ?_⟩
  have e1 := bits_of_low e 126 112 (by decide)
  have e2 : byteField _ 12 12 = byteField g 12 12 := bits_of_low e _ _ (by decide)
  have e3 : byteField _ 23 16 = byteField g 23 16 := bits_of_low e _ _ (by decide)
  rw [openChunk, e1, e2, e3, hb, List.take_left' hg, List.drop_left' hg]
  exact ho

/-- A sector that a chip seals under a hall's host key opens there (R272, R274, R275). -/
theorem openSector_sealed (s : State) (h pasid v : Nat) (key : BitVec 256) (ctr : Word) (data : List Byte)
    (hk : s.sectorKey h hostKeyField = some key) (hd : data.length = 512) :
    s.openSector h pasid v
      { cipher := BitVec.ofNat 4096 (leNat (sealedSector key ctr (s.aadOf h pasid v hostKeyField) data).1)
        entry := BitVec.ofNat 256 (leNat (sealedSector key ctr (s.aadOf h pasid v hostKeyField) data).2) } = some data := by
  obtain ⟨c, tag, hs⟩ : ∃ c tag, gcmSeal key (sectorIv ctr) (s.aadOf h pasid v hostKeyField) data = (c, tag) := ⟨_, _, rfl⟩
  have hc : c.length = 512 := by simpa [gcmSeal, gcmCtr_length, hd] using congrArg (·.1.length) hs.symm
  have ht : tag.length = 16 := by
    simpa [gcmSeal, gcmTag, xorBytes_length, aesBytes_length, beBytes, leBytes_length] using congrArg (·.2.length) hs.symm
  have hi : (sectorIv ctr).length = 12 := by simp [sectorIv, leBytes_length]
  have e : sealedSector key ctr (s.aadOf h pasid v hostKeyField) data = (c, tag ++ (sectorIv ctr ++ ([255, 255] ++ [0, 0]))) := by
    rw [sealedSector, hs, List.append_assoc, List.append_assoc]; rfl
  rw [e]
  generalize hl : tag ++ (sectorIv ctr ++ ([255, 255] ++ [0, 0])) = l
  have hn : 256 = 8 * l.length := by rw [← hl]; simp [ht, hi]
  have d16 : l.drop 16 = sectorIv ctr ++ ([255, 255] ++ [0, 0]) := by rw [← hl, List.drop_left' ht]
  have d28 : l.drop 28 = [255, 255] ++ [0, 0] := by
    rw [show 28 = 16 + 12 from rfl, ← List.drop_drop, d16, List.drop_left' hi]
  have f1 : byteField (BitVec.ofNat 256 (leNat l)) 16 16 = 1 := by
    rw [byteField_leNat l hn 16 16 (by decide), slice, d16]; rfl
  have f2 : byteField (BitVec.ofNat 256 (leNat l)) 29 28 = hostKeyField := by
    rw [byteField_leNat l hn 29 28 (by decide), slice, d28]; rfl
  have f3 : byteField (BitVec.ofNat 256 (leNat l)) 31 30 = 0 := by
    rw [byteField_leNat l hn 31 30 (by decide), slice, show 30 = 28 + 2 from rfl, ← List.drop_drop, d28]; rfl
  have ho := gcmOpen_gcmSeal key (sectorIv ctr) (s.aadOf h pasid v hostKeyField) data
  rw [hs] at ho
  simp only [State.openSector, f1, f2, f3, hk, Option.bind_some, bytesOf_ofNat_leNat l hn,
    bytesOf_ofNat_leNat c (show 4096 = 8 * c.length by rw [hc]), slice, d16]
  rw [List.take_left' hi, ← hl, List.take_left' ht]
  simpa using ho

theorem bytesOf_length_512 (h : BitVec 512) : (bytesOf h).length = 64 := by simp [bytesOf, leBytes_length]

theorem frameText_length (h : BitVec 512) (body : List Byte) : (frameText h body).length = 1024 := by
  rw [frameText, List.length_take, List.length_append, List.length_append, bytesOf_length_512, List.length_replicate]
  omega

/-- A frame's text keeps its header, and its body of at most 960 bytes (R280). -/
theorem frameText_fields (h : BitVec 512) (body : List Byte) (hl : hdrBodyLen h = body.length) (hn : body.length ≤ 960) :
    BitVec.ofNat 512 (leNat ((frameText h body).take 64)) = h ∧ slice (frameText h body) 64 (hdrBodyLen h) = body := by
  have h64 := bytesOf_length_512 h
  constructor
  · rw [frameText, List.take_take, List.append_assoc, List.take_append_of_le_length (by simp [h64]),
      List.take_of_length_le (by simp [h64])]
    exact ofNat_leNat_bytesOf h (by decide)
  · rw [frameText, slice, hl, List.drop_take, List.append_assoc, List.drop_left' h64, List.take_take,
      List.take_append_of_le_length (by omega), List.take_of_length_le (by omega)]

/-- A frame that the far end seals under a port's ingress key, with the counter that the port expects, opens there (R283). -/
theorem openFrame_sealed (l : Link) (vc : Fin 8) (h : BitVec 512) (body : List Byte) (k : BitVec 256) (hk : l.rxKey vc = some k)
    (hl : hdrBodyLen h = body.length) (hn : body.length ≤ 960) :
    l.openFrame { vc := vc, payload := (sealedFrame k vc (l.chan vc).ingress h body).1
                  tag := (sealedFrame k vc (l.chan vc).ingress h body).2 } = some (h, body) := by
  have e1 : bytesOf (sealedFrame k vc (l.chan vc).ingress h body).1 =
      (gcmSeal k (frameIv vc (l.chan vc).ingress) [] (frameText h body)).1 := by
    simp only [sealedFrame]
    exact bytesOf_ofNat_leNat _ (by rw [gcmSeal, gcmCtr_length, frameText_length])
  have e2 : bytesOf (sealedFrame k vc (l.chan vc).ingress h body).2 =
      (gcmSeal k (frameIv vc (l.chan vc).ingress) [] (frameText h body)).2 := by
    simp only [sealedFrame]
    exact bytesOf_ofNat_leNat _ (by simp [gcmSeal, gcmTag, xorBytes_length, aesBytes_length, beBytes, leBytes_length])
  obtain ⟨f1, f2⟩ := frameText_fields h body hl hn
  rw [Link.openFrame, hk]
  simp only [e1, e2, gcmOpen_gcmSeal, Option.map_some, f1, f2]

end Sys2Proof.Machine
end

