-- ==== Sys2Proof/WellFormed.lean ====
section
/-! DEFINITION. Which commands can arrive at the core's edge: the sizes and ranges that the ports' own widths and the
formats of the spec give a command's operands. -/

namespace Sys2Proof

/-- The bytes of a copied page: 4 KiB in at most 5 frames (R208). -/
def pageFrames (fs : List RxFrame) : Bool := 1 ≤ fs.length ∧ fs.length ≤ 5

/-- A requester's port can name the address: 24 bits in the management space (R431), BAR0 of the physical function, a
64 KiB window (R51, R148). -/
def Requester.names (r : Requester) (addr : Nat) : Bool :=
  match r with
  | .mp | .fabric | .test | .reserved _ => addr < 0x1000000
  | .pf => addr < 0x1010000
  | .vf _ => addr < 0x10000

/-- A descriptor's wave table holds at most 4,096 entries (R168). -/
def DescRead.wellFormed (d : DescRead) : Bool := d.waves.length ≤ 4096

/-- The code and the certificate region are at most as long as the image header can name them (R391). -/
def ImageCheck.wellFormed (c : ImageCheck) : Bool := c.code.length ≤ 2097152 ∧ c.linkChain.length ≤ 16384

/-- A Dritha message carries at most 1,792 bytes: its header and its payload (R403, R405). -/
def DReq.wellFormed (d : DReq) : Bool := d.payload.length ≤ 1776

/-- The command can arrive. -/
def Instr.wellFormed (c : Instr) : Bool :=
  match c with
  | .dmaRequest _ _ beats _ => beats.length ≤ 64
  | .redTransfer _ _ beats => beats.length ≤ 64
  | .memoryReadResponse _ _ lines => 1 ≤ lines.length ∧ lines.length ≤ 4
  | .counterChainFetched _ _ levels => 1 ≤ levels.length ∧ levels.length ≤ 8
  | .memoryCreditReturn _ n => n.val ≤ 4
  | .pushData _ fs | .pullData _ fs => pageFrames fs
  | .strideSyncEdge c _ => c < 205200
  | .slotDecision _ _ fallbacks _ => fallbacks.length ≤ 64 ∧ fallbacks.all fun f => f.2.wellFormed
  | .planVerificationEnd (some src) => src.length ≤ 0x100000
  | .invoke _ _ _ d => d.wellFormed
  | .commitClose _ _ _ descs => descs.all DescRead.wellFormed
  | .atsTranslationCompletion _ _ _ sizeLog2 _ _ _ | .atsInvalidateRequest _ _ _ sizeLog2 => sizeLog2 ≤ 52
  | .treePatrol _ level _ _ _ => level ≤ 8
  | .boot otp => otp.length = 48
  | .imageVerified check => check.wellFormed
  | .chunkSend _ _ _ n => n ≤ 1792
  | .contribute _ d | .bind _ d _ | .setTagBase _ d | .advanceEpoch _ d | .windowInstall _ d | .windowRemove _ d
  | .rekey _ d | .admitTenant _ d _ | .withdraw _ d | .getDeliveryKey _ d | .commitStage _ d _ | .commitAbort _ d
  | .commitQuery _ d | .restoreWrite _ d | .approveTrace _ d | .getHostKey _ d | .linkOpen _ d | .linkDeliver _ d _ _
  | .debugCert _ d _ | .debugClear _ d | .getIdKeys _ d => d.wellFormed
  | .tracePacket _ _ body => body.length ≤ 44
  | .registerWrite r addr _ _ => r.names addr ∧ addr % 8 = 0
  | .deniedRead r read => r.names read.addr ∧ read.addr % 8 = 0
  | _ => true

end Sys2Proof
end

