-- ==== Sys2Proof/Tests/Slice0.lean ====
section
/-! SUPPORT. The smoke tests of WellFormed, small tests against the spec's own figures and against the published examples
of the algorithms that it names, and the named witnesses of the statements: for each clause that has hypotheses, a state and
operands that meet them all. A name `test_…_meets` says so; `test_…` without it compares with a figure of a text outside
the model. The part headed On is about statement n. -/

namespace Sys2Proof.Tests
open Sys2Proof Sys2Proof.Machine Sys2Proof.Safety
section
set_option Elab.async false
set_option exponentiation.threshold 1024
set_option linter.unusedVariables false

/-- Two halls, two engines, one interleave set of four ports, one link. -/
def plan0 : Plan :=
  { core := {}
    halls := [
      { hall := 0, cls := .operator, memUnits := 100, linkUnits := 100, winQuota := 8, htcQuota := 8, queueQuota := 4,
        keyQuota := 8, colourCount := 4, heldKib := 64 },
      { hall := 1, cls := .isolated, memUnits := 100, linkUnits := 100, winQuota := 8, htcQuota := 8, queueQuota := 4,
        keyQuota := 8, colourBase := 4, colourCount := 4, clusterSlots := 64, heldKib := 64 }]
    engines := [{ owner := .hall 1, nearStack := 0 }, { owner := .hall 1, nearStack := 0 }]
    sets := [{ set := 0, portMask := 0xF, metaBase := 0, metaSize := 100 }]
    links := [{ used := true, weights := [1, 1, 1, 1, 1, 1, 1, 1] }] }

def lc0 : LifeCycle := { mp := .firmware, state := .test }

/-- A keyed link of 16 lanes. -/
def l0 : Link :=
  { state := .up, gen := 1, lastGen := 1, width := 2, lanes := 16, egressKey := some 5, ingressKey := some 5 }

/-- A running chip with the plan in force, both halls ACTIVE. -/
def base : State :=
  { core := { pwrGood := true, coreRstLow := false, mgmtRstLow := false, released := true, fwRelease := true,
              engPresent := 3 }
    lc := lc0, plan := { state := .applied, active := some plan0 }, timer := { strideNum := 5, fclk := 100 }
    halls := [(0, { state := .active, gen := 1 }), (1, { state := .active, gen := 1 })]
    engines := [(0, { present := true }), (1, { present := true })], links := [(0, l0)] }

/-- The running chip with its link port 0 as given. -/
def bL (l : Link) (u : List (Nat × FUnit) := []) : State :=
  { base with links := [(0, l), (1, {})], faults := { base.faults with units := u } }

/-- A frame as the far end of a link seals it. -/
def rxOf (l : Link) (vc : Fin 8) (h : BitVec 512) (body : List Byte) : RxFrame :=
  let x := sealedFrame ((l.rxKey vc).getD 0) vc (l.chan vc).ingress h body
  { vc := vc, payload := x.1, tag := x.2 }

/-- A 512-bit word with byte lists at byte offsets. -/
def w512 (l : List (Nat × List Byte)) : BitVec 512 := BitVec.ofNat 512 ((l.map fun x => leNat x.2 * 2 ^ (8 * x.1)).sum)

def buf (n : Nat := 4) : Buffer := { base := 0x100000, count := n, pos := 0, loops := [] }

def qA (b : Buffer) : Queue :=
  { state := .active, gen := 1, buffer := some b, context := 0, ringLog2 := 4, ringAddr := 0x1000 }

def sg (base va : Nat) : Segment :=
  { state := .valid, mode := .wm, size := 2, base := base, va := va, rd := true, wr := true, gen := 1 }

/-- Hall 1 with a queue at the first command of a buffer in its veiled segment 0. -/
def bQ (q : Queue) (n : Nat := 2) : State :=
  { bL l0 with
    queues := [(256 + n, q)], xlat := { base.xlat with segs := [(128, { sg 3 0 with mode := .veiled })] } }

/-- A sealed frame is one that its port takes. -/
theorem taken {n kind : Nat} {l : Link} {vc : Fin 8} {h : BitVec 512} {body : List Byte} {s : State} (hl : s.link n = l)
    (hk : (l.rxKey vc).isSome = true) (hb : hdrBodyLen h = body.length) (hn : body.length ≤ 960)
    (hs : s.core.released = true ∧ s.portFenced n = false ∧ malformed vc h = false ∧ hdrKind h = kind ∧ Settled s) :
    FrameTaken n kind (rxOf l vc h body) h body s := by
  obtain ⟨k, hk⟩ := Option.isSome_iff_exists.1 hk
  obtain ⟨h1, h2, h3, h4, h5⟩ := hs
  subst hl
  refine ⟨h1, h2, ?_, h3, h4, h5⟩
  have := openFrame_sealed (s.link n) vc h body k hk hb hn
  rwa [show rxOf (s.link n) vc h body = _ from by rw [rxOf, hk, Option.getD_some]]

/-! ### Commands that cannot arrive -/

def dreqOf (n : Nat) : DReq := { sid := 1, hdr := 0, payload := List.replicate n 0 }
def someFrame : RxFrame := { vc := 0, payload := 0, tag := 0 }
def someLine : RawLine := { data := 0, sb := 0, poison := false }
def longDesc : DescRead := { descStatus := 0, desc := 0, waveStatus := 0, waves := List.replicate 4097 0 }
/-- A term for each check of well-formedness. -/
def illFormed : List Instr := [
  .dmaRequest 0 0 (List.replicate 65 { data := 0, strb := 0 }) .none, .redTransfer 0 0 (List.replicate 65 0),
  .memoryReadResponse 0 0 [], .memoryReadResponse 0 0 (List.replicate 5 someLine), .counterChainFetched 0 0 [],
  .counterChainFetched 0 0 (List.replicate 9 { copyA := someLine, copyB := none }), .pushData 0 [],
  .pullData 0 (List.replicate 6 someFrame), .strideSyncEdge 205200 true, .slotDecision 0 false [(0, longDesc)] false,
  .invoke 0 0 0 longDesc, .commitClose 0 0 0 [longDesc],
  .atsTranslationCompletion 0 0 0 53 0 true true, .atsInvalidateRequest 0 0 0 53,
  .treePatrol 0 9 0 { copyA := someLine, copyB := none } 0, .boot (List.replicate 47 0),
  .chunkSend 0 1 true 1793, .contribute 0 (dreqOf 1777), .bind 0 (dreqOf 1777) true, .setTagBase 0 (dreqOf 1777),
  .advanceEpoch 0 (dreqOf 1777), .windowInstall 0 (dreqOf 1777), .windowRemove 0 (dreqOf 1777), .rekey 0 (dreqOf 1777),
  .admitTenant 0 (dreqOf 1777) true, .withdraw 0 (dreqOf 1777), .getDeliveryKey 0 (dreqOf 1777),
  .commitStage 0 (dreqOf 1777) { status := 0, bytes := [] }, .commitAbort 0 (dreqOf 1777), .commitQuery 0 (dreqOf 1777),
  .restoreWrite 0 (dreqOf 1777), .approveTrace 0 (dreqOf 1777), .getHostKey 0 (dreqOf 1777), .linkOpen 0 (dreqOf 1777),
  .linkDeliver 0 (dreqOf 1777) 0 { certOk := true, sigOk := true }, .debugCert 0 (dreqOf 1777) true,
  .debugClear 0 (dreqOf 1777), .getIdKeys 0 (dreqOf 1777), .tracePacket 1 0 (List.replicate 45 0),
  .registerWrite .mp 0x1000000 0xFF 0, .registerWrite .mp 4 0xFF 0, .registerWrite .pf 0x1010000 0xFF 0,
  .registerWrite (.vf 0) 0x10000 0xFF 0, .deniedRead (.vf 0) { addr := 0x10000, be := 0xFF },
    .deniedRead .test { addr := 4, be := 0xFF } ]
theorem test_ill_formed_refused : (illFormed.map Instr.wellFormed).all (!·) = true := by decide +kernel

/-- The two long operands, for every list above the bound. -/
theorem test_long_plan_refused (l : List Byte) (h : 0x100000 < l.length) :
    Instr.wellFormed (.planVerificationEnd (some l)) = false := by
  simp only [Instr.wellFormed, decide_eq_false_iff_not]; omega
theorem test_long_chain_refused (c : ImageCheck) (h : 16384 < c.linkChain.length) :
    Instr.wellFormed (.imageVerified c) = false := by
  simp only [Instr.wellFormed, ImageCheck.wellFormed, decide_eq_false_iff_not]; omega

theorem test_well_formed_at_the_bounds : [
    Instr.redTransfer 0 0 (List.replicate 64 0), .memoryReadResponse 0 0 (List.replicate 4 someLine),
    .pushData 0 (List.replicate 5 someFrame), .strideSyncEdge 205199 true, .boot (List.replicate 48 0),
      .chunkSend 0 1 true 1792,
    .contribute 0 (dreqOf 1776), .tracePacket 1 0 (List.replicate 44 0), .registerWrite .pf 0x100FFF8 0xFF 0,
    .deniedRead (.vf 0) { addr := 0xFFF8, be := 0xFF } ].all Instr.wellFormed = true := by decide +kernel

theorem test_no_word_spells_a_command : (List.range 64).all (fun n => (decodeTableWord n n).isNone) = true := by decide

/-! ### The queue and the step -/

theorem test_idle_step :
    (match step State.reset with
      | .next t => decide (t = State.reset)
      | _ => false) = true := by decide +kernel
theorem test_first_in_first_out :
    (match step { State.reset with pending := [.powerUp, .powerLoss] } with
      | .next t => t.core.pwrGood && t.pending == [.powerLoss]
      | _ => false) = true := by decide +kernel

/-! ### Figures of the spec -/

/-- R70: 51,200 FCLK times a power of two. -/
theorem test_stride_lengths : [strideFclk 0, strideFclk 1, strideFclk 2, slotFclk 0] = [51200, 102400, 204800,
    800] := by decide
theorem test_generation_skips_zero : nextGen 0xFFFF = 1 ∧ nextGen 1 = 2 := by decide
theorem test_counter_stays : satAdd (0xFFFFFFFF#32) 1 = 0xFFFFFFFF#32 := by decide
/-- R219: a line of zeros has check symbols of zeros; one wrong byte is corrected, a wrong byte in each word too. -/
theorem test_line_of_zeros : sideBand 0 0 = 0 := by decide +kernel
theorem test_one_byte_corrected :
    decodeLine { data := 0xA5, sb := 0, poison := false } = some { data := 0, mac := 0, corrected := true } :=
      by decide +kernel
theorem test_byte_of_each_word_corrected :
    decodeLine { data := 0x01 + 0x80 * 2 ^ 504, sb := 0, poison := false } = some
      { data := 0, mac := 0, corrected := true } := by
  decide +kernel

/-! ### The published examples of the algorithms that the spec names -/

/-- The number that a string of bytes spells, first byte lowest. -/
def strBits (w n : Nat) : BitVec w := BitVec.ofNat w (leNat (beBytes (w / 8) n))
/-- FIPS 197, appendix C.3. -/
def fipsKey : BitVec 256 := strBits 256 0x000102030405060708090a0b0c0d0e0f101112131415161718191a1b1c1d1e1f
theorem test_aes256 :
    aes256 fipsKey (strBits 128 0x00112233445566778899aabbccddeeff) = strBits 128 0x8ea2b7ca516745bfeafc49904b496089 :=
      by
  decide +kernel
theorem test_aes256_inverse :
    aes256Inv fipsKey (strBits 128 0x8ea2b7ca516745bfeafc49904b496089) = strBits 128 0x00112233445566778899aabbccddeeff
      := by
  decide +kernel
/-- The Galois/Counter Mode specification, test case 14: a zero key, IV and block. -/
theorem test_gcm : gcmSeal 0 (List.replicate 12 0) [] (List.replicate 16 0) =
    (beBytes 16 0xcea7403d4d606b6e074ec5d3baf39d18, beBytes 16 0xd0d1c8a799996bf0265b98b5d48ab919) := by decide +kernel
/-- FIPS 180-4: SHA-384 of "abc". -/
theorem test_sha384 : sha384 [0x61, 0x62, 0x63] =
    beBytes 48 0xcb00753f45a35e8bb5a03d699ac65007272c32ab0eded1631a8b605a43ff5bed8086072ba1e7cc2358baeca134c825a7 := by
  decide +kernel

/-! ### O1: StepRunsTheFrontCommand -/

theorem test_stepRunsTheFrontCommand_meets :
    ∃ (c : Instr) (rest : List Instr) (s : State), s.pending = c :: rest :=
  ⟨.powerLoss, [.drop], {base with pending := [.powerLoss, .drop]}, by decide⟩

/-! ### O2: AnEmptyQueueCountsFclk -/

def tickState (k : BitVec 32) (f : List (List Byte)) (b : List Packet) (r : Bool) : State :=
  { base with timer := { base.timer with fclk := k },
              gallery := { base.gallery with foreign := f, buffer := b, route := r } }
def packet1 : Packet := { type := 1, hall := 1, hallGen := 1, seq := 1, stride := 1, offset := 1, body := [1] }
theorem test_idle_held_meets :
    ∃ (s : State), s.pending = [] ∧
    s.core.released = false :=
  ⟨{base with core := {base.core with released := false}}, by decide⟩

theorem test_idle_between_meets :
    ∃ (s : State), s.pending = [] ∧
    s.core.released = true ∧
    Settled s ∧
    (s.timer.fclk + 1).toNat % 4 ≠ 0 :=
  ⟨tickState 254 [] [] false, by decide⟩

theorem test_idle_foreign_meets :
    ∃ (s : State) (b : List Byte) (more : List (List Byte)), s.pending = [] ∧
    s.core.released = true ∧
    Settled s ∧
    (s.timer.fclk + 1).toNat % 4 = 0 ∧
    s.gallery.foreign = b :: more :=
  ⟨tickState 255 [[1]] [] false, [1], [], by decide⟩

theorem test_idle_own_meets :
    ∃ (s : State) (p : Packet) (more : List Packet), s.pending = [] ∧
    s.core.released = true ∧
    Settled s ∧
    (s.timer.fclk + 1).toNat % 4 = 0 ∧
    s.gallery.foreign = [] ∧
    s.gallery.buffer = p :: more ∧
    s.gallery.route = false :=
  ⟨tickState 3 [] [packet1] false, packet1, [], by decide⟩

theorem test_idle_empty_meets :
    ∃ (s : State), s.pending = [] ∧
    s.core.released = true ∧
    Settled s ∧
    (s.timer.fclk + 1).toNat % 4 = 0 ∧
    s.gallery.foreign = [] ∧
    (s.gallery.buffer = [] ∨ s.gallery.route = true) :=
  ⟨tickState 255 [] [] false, by decide⟩

theorem test_idle_routed_meets :
    ∃ (s : State), s.pending = [] ∧
    s.core.released = true ∧
    Settled s ∧
    (s.timer.fclk + 1).toNat % 4 = 0 ∧
    s.gallery.foreign = [] ∧
    (s.gallery.buffer = [] ∨ s.gallery.route = true) :=
  ⟨tickState 3 [] [packet1] true, by decide⟩

/-! ### O3: EveryCommandAnswers -/

theorem test_everyCommand_meets :
    ∃ (c : Instr) (s : State), ¬OutsideSpace c :=
  ⟨.powerLoss, base, by rintro ⟨_, _, _, _, _, e | ⟨_, e⟩⟩ <;> cases e⟩

theorem test_everyCommand_outside_meets :
    ∃ (c : Instr) (s : State), OutsideSpace c :=
  ⟨.deniedRead .test {addr := 0x1000000, be := 0xFF}, base, ⟨.test, 0x1000000, 0xFF, rfl, by decide, .inl rfl⟩⟩

/-! ### O5: StepKeepsTheInvariant -/

theorem test_invariant_meets :
    ∃ (s : State) (t : State), Safety.Inv s ∧
    step s = Host.Outcome.next t :=
  ⟨base, {base with timer := {base.timer with fclk := 101}}, by decide, rfl⟩

/-! ### O6: OtpBitsAreNeverCleared -/

def otpJob : State :=
  { base with lc := { lc0 with job := some { bits := [(3, 4)], target := none } }, pending := [.otpBitProgrammed] }
def otpDone : State := { base with lc := { lc0 with otp := [(3, 0x10)] } }
theorem test_otpBits_meets :
    ∃ (s : State) (t : State), step s = Host.Outcome.next t ∧
    (∀ (otp : List (BitVec 32)), s.pending.head? ≠ some (Instr.boot otp)) :=
  ⟨otpJob, otpDone, rfl, by simp [otpJob]⟩

/-! ### O7: OnlyBoundariesAdvanceTheStride -/

theorem test_strideNumber_meets :
    ∃ (s : State) (t : State), step s = Host.Outcome.next t ∧
    s.core.released = true ∧
    t.core.released = true :=
  ⟨base, {base with timer := {base.timer with fclk := 101}}, rfl, by decide, by decide⟩

/-! ### O8: ResetRegistersReadTheirTable -/

theorem test_resetRegisters_meets :
    ∃ (r : Requester) (addr : Nat), addr < 16777216 ∧
    addr % 8 = 0 :=
  ⟨.pf, 0xFFFFF8, by decide⟩

/-! ### O9: LinesDecodeAndSingleErrorsAreCorrected -/

theorem test_lineCode_data_meets :
    ∃ (d : Line) (mac : BitVec 32) (e : Byte) (k : Nat), e ≠ 0 ∧
    k < 64 :=
  ⟨1, 2, 0xFF, 63, by decide⟩

theorem test_lineCode_sideBand_meets :
    ∃ (d : Line) (mac : BitVec 32) (e : Byte) (k : Nat), e ≠ 0 ∧
    k < 8 :=
  ⟨1, 2, 0xFF, 7, by decide⟩

/-! ### O10: SealedLinesOpenAsTheyWereSealed -/

theorem test_sealedLine_meets :
    ∃ (k : Slot) (set : Nat) (n : Nat) (ctr : Nat) (d : Line), (sealLine k SegMode.sealed set n ctr d).fst ≠
      poisonData :=
  ⟨{k1 := 11, k2 := 22}, 0, 5, 1, 7, by decide +kernel⟩

theorem test_poisonMac_meets :
    ∃ (k : Slot) (set : Nat) (n : Nat) (ctr : Nat) (mac : BitVec 32), mac ≠ poisonMac k set n ctr :=
  ⟨{k1 := 11, k2 := 22}, 0, 5, 1, 0, by decide +kernel⟩

/-! ### O11: AHeldFabricReadsZero -/

def heldFabric : State := { base with core := { base.core with released := false, fwRelease := false } }
theorem test_held_host_meets :
    ∃ (s : State) (r : Requester) (addr : Nat) (be : Byte), s.core.released = false ∧
    (r = Requester.pf ∨ ∃ (n : Fin 64), r = Requester.vf n) :=
  ⟨heldFabric, .vf 63, 0, 0xFF, by decide, by simp⟩

theorem test_held_answers_meets :
    ∃ (s : State) (r : Requester) (addr : Nat) (be : Byte), s.core.released = false ∧
    (r = Requester.fabric ∨ r = Requester.test) ∧
    s.core.mgmtRstLow = false ∧
    addr < 16777216 ∧
    (be = 15 ∨ be = 240 ∨ be = 255) ∧
    (blockOf addr = 0 ∨ blockOf addr = 11 ∨ blockOf addr = 12) :=
  ⟨heldFabric, .test, 0xDFFFF8, 0xFF, by decide⟩

theorem test_held_silent_meets :
    ∃ (s : State) (r : Requester) (addr : Nat) (be : Byte), s.core.released = false ∧
    (r = Requester.fabric ∨ r = Requester.test) ∧
    s.core.mgmtRstLow = false ∧
    addr < 16777216 ∧
    (be = 15 ∨ be = 240 ∨ be = 255) ∧
    blockOf addr ≠ 0 ∧
    blockOf addr ≠ 11 ∧
    blockOf addr ≠ 12 ∧
    (blockOf addr ≠ 14 ∨ s.core.fwRelease = false) ∧
    Settled s :=
  ⟨heldFabric, .fabric, 0xFFFFF8, 0x0F, by decide⟩

theorem test_held_mailbox_meets :
    ∃ (s : State) (r : Requester) (addr : Nat) (be : Byte), s.core.released = false ∧
    (r = Requester.fabric ∨ r = Requester.test) ∧
    s.core.mgmtRstLow = false ∧
    addr < 16777216 ∧
    (be = 15 ∨ be = 240 ∨ be = 255) ∧
    blockOf addr ≠ 0 ∧
    blockOf addr ≠ 11 ∧
    blockOf addr ≠ 12 ∧
    (blockOf addr ≠ 14 ∨ s.core.fwRelease = false) ∧
    Settled s :=
  ⟨heldFabric, .test, 0xE00000, 0xF0, by decide⟩

/-! ### O12: OtpCommandsProgramTheSetBits -/

theorem test_otpCommand_word2_meets :
    ∃ (r : Requester) (word : Byte) (data : BitVec 32) (s : State), Writable r 13631560 s ∧
    s.lc.mp ≠ MpState.reset ∧
    (¬(s.lc.state = LcState.test ∧ (BitVec.toNat word ≤ 1 ∨ 12 ≤ BitVec.toNat word ∧ BitVec.toNat word ≤ 47))) :=
  ⟨.pf, 2, 5, base, ⟨by simp, by decide, by decide⟩, by decide, by decide⟩

theorem test_otpCommand_word11_meets :
    ∃ (r : Requester) (word : Byte) (data : BitVec 32) (s : State), Writable r 13631560 s ∧
    s.lc.mp ≠ MpState.reset ∧
    (¬(s.lc.state = LcState.test ∧ (BitVec.toNat word ≤ 1 ∨ 12 ≤ BitVec.toNat word ∧ BitVec.toNat word ≤ 47))) :=
  ⟨.test, 11, 5, base, ⟨by simp, by decide, by decide⟩, by decide, by decide⟩

theorem test_otpCommand_word48_meets :
    ∃ (r : Requester) (word : Byte) (data : BitVec 32) (s : State), Writable r 13631560 s ∧
    s.lc.mp ≠ MpState.reset ∧
    (¬(s.lc.state = LcState.test ∧ (BitVec.toNat word ≤ 1 ∨ 12 ≤ BitVec.toNat word ∧ BitVec.toNat word ≤ 47))) :=
  ⟨.pf, 48, 5, base, ⟨by simp, by decide, by decide⟩, by decide, by decide⟩

theorem test_otpCommand_word1_meets :
    ∃ (r : Requester) (word : Byte) (data : BitVec 32) (s : State), Writable r 13631560 s ∧
    s.lc.mp ≠ MpState.reset ∧
    (s.lc.state = LcState.test ∧ (BitVec.toNat word ≤ 1 ∨ 12 ≤ BitVec.toNat word ∧ BitVec.toNat word ≤ 47)) ∧
    s.lc.job = none ∧
    s.lc.pending = false :=
  ⟨.pf, 1, 0xFFFFFFFF, base, ⟨by simp, by decide, by decide⟩, by decide, by decide, by decide, by decide⟩

theorem test_otpCommand_word12_meets :
    ∃ (r : Requester) (word : Byte) (data : BitVec 32) (s : State), Writable r 13631560 s ∧
    s.lc.mp ≠ MpState.reset ∧
    (s.lc.state = LcState.test ∧ (BitVec.toNat word ≤ 1 ∨ 12 ≤ BitVec.toNat word ∧ BitVec.toNat word ≤ 47)) ∧
    s.lc.job = none ∧
    s.lc.pending = false :=
  ⟨.pf, 12, 0, base, ⟨by simp, by decide, by decide⟩, by decide, by decide, by decide, by decide⟩

theorem test_otpCommand_word47_meets :
    ∃ (r : Requester) (word : Byte) (data : BitVec 32) (s : State), Writable r 13631560 s ∧
    s.lc.mp ≠ MpState.reset ∧
    (s.lc.state = LcState.test ∧ (BitVec.toNat word ≤ 1 ∨ 12 ≤ BitVec.toNat word ∧ BitVec.toNat word ≤ 47)) ∧
    s.lc.job = none ∧
    s.lc.pending = false :=
  ⟨.pf, 47, 5, base, ⟨by simp, by decide, by decide⟩, by decide, by decide, by decide, by decide⟩

/-! ### O13: ResetsReturnTheUnits -/

def fencedPipe : State :=
  { base with faults := { base.faults with units := [((unitId 1 3).toNat, { state := .fenced, returns := [1] })] } }
theorem test_coreReset_units_meets :
    ∃ (s : State), s.core.coreRstLow = false :=
  ⟨fencedPipe, by decide⟩

theorem test_mgmtReset_units_meets :
    ∃ (s : State), s.core.mgmtRstLow = false :=
  ⟨fencedPipe, by decide⟩

/-! ### O14: FetchAnswersTheQueueFront -/

def tile1 : TileEntry :=
  { hall := 1, hallGen := 1, context := 2, remote := true, reduce := false, local_ := 3, global := 7, seq := 9,
    tile := 0,
    budget := 100, args := 0x123456, params := 0xABCDEF }
def withEngine (e : Engine) : State := { base with engines := [(0, e), (1, { present := true })] }
theorem test_fetch_tile_meets :
    ∃ (p : Fin 256) (s : State) (e : TileEntry) (rest : List EngEntry), (s.engine ↑p).present = true ∧
    (s.engine ↑p).preemptReq = false ∧
    (s.engine ↑p).switching = false ∧
    (s.engine ↑p).queue = EngEntry.tile e :: rest ∧
    (s.engine ↑p).fetched = none :=
  ⟨0, withEngine {present := true, queue := [.tile tile1, .park]}, tile1, [.park], by decide⟩

theorem test_fetch_park_meets :
    ∃ (p : Fin 256) (s : State) (rest : List EngEntry), (s.engine ↑p).present = true ∧
    (s.engine ↑p).preemptReq = false ∧
    (s.engine ↑p).switching = false ∧
    (s.engine ↑p).queue = EngEntry.park :: rest :=
  ⟨0, withEngine {present := true, queue := [.park, .tile tile1]}, [.tile tile1], by decide⟩

theorem test_fetch_empty_meets :
    ∃ (p : Fin 256) (s : State), (s.engine ↑p).present = true ∧
    (s.engine ↑p).preemptReq = false ∧
    (s.engine ↑p).switching = false ∧
    (s.engine ↑p).queue = [] :=
  ⟨0, withEngine {present := true, queue := []}, by decide⟩

theorem test_fetch_data_meets :
    ∃ (e : TileEntry), e.hall < 64 ∧
    e.context < 16 ∧
    e.tile < 2 ^ 32 ∧
    e.budget < 2 ^ 32 ∧
    e.args < 2 ^ 48 :=
  ⟨{tile1 with hall := 63, context := 15, tile := 2 ^ 32 - 1, budget := 2 ^ 32 - 1, args := 2 ^ 48 - 1}, by decide⟩

/-! ### O15: TilesBeginSignalAndEnd -/

def grantedInv : Invocation := { seq := 9, context := 2, waves := [3], tiles := [(0, { phase := .granted 0 })] }
def begunInv : Invocation :=
  { grantedInv with tiles := [(0, { phase := .begun 0, complete := true }), (1, { phase := .granted 0 })] }
def running (e : Engine) (v : Invocation) : State :=
  { withEngine e with
    queues := [(256 + 3, { state := .active, inv := some v }), (2, { state := .active })],
    timer := { strideNum := 5, fclk := 1700, slot := 1 } }
def fenceData (kind n v : Nat) : BitVec 96 := BitVec.ofNat 96 (1 * 2 ^ 80 + kind * 2 ^ 77 + n * 2 ^ 64 + v)
def segWrite : Dma :=
  { tag := 3, kind := 0, write := true, hall := 1, hallGen := 1, context := 2, index := 0, address := 0, length := 64,
    beats := [], wait := .lines }
theorem test_tileBegin_meets :
    ∃ (p : Fin 256) (index : BitVec 32) (s : State) (e : TileEntry), (s.engine ↑p).present = true ∧
    s.inService 3 ↑p = true ∧
    (s.engine ↑p).begun = none ∧
    (s.engine ↑p).preemptReq = false ∧
    (s.engine ↑p).switching = false ∧
    (s.engine ↑p).fetched = some e ∧
    e.tile = index.toNat ∧
    s.slotOpen e.budget = true :=
  ⟨0, 0, running {present := true, fetched := some tile1, queue := [.park]} grantedInv, tile1, by decide⟩

theorem test_tileEnd_meets :
    ∃ (p : Fin 256) (status : Byte) (offset : BitVec 32) (s : State) (e : TileEntry), (s.engine ↑p).begun = some e ∧
    (s.engine ↑p).dmas = [] ∧
    (s.engine ↑p).fences = [] :=
  ⟨0, 5, 0, running {present := true, begun := some tile1, queue := [.park]} begunInv, tile1, by decide⟩

theorem test_tileEnd_done_meets :
    ∃ (p : Fin 256) (offset : BitVec 32) (s : State) (e : TileEntry) (v : Invocation), (s.engine ↑p).begun = some e ∧
    (s.engine ↑p).dmas = [] ∧
    (s.engine ↑p).fences = [] ∧
    s.invOf e = some v ∧
    v.tile e.tile = { phase := TilePhase.begun ↑p, complete := true } ∧
    v.stopping = false ∧
    v.done + 1 ≠ v.waveStart v.wave + v.waveSize :=
  ⟨0, 0, running {present := true, begun := some tile1, queue := [.park]} begunInv, tile1, begunInv, by decide⟩

theorem test_signal_meets :
    ∃ (p : Fin 256) (data : BitVec 96) (s : State) (e : TileEntry), (s.engine ↑p).present = true ∧
    s.inService 3 ↑p = true ∧
    (s.engine ↑p).begun = some e ∧
    e.hallGen = (parseFence data).hallGen ∧
    (s.hall e.hall).gen = e.hallGen ∧
    (s.engine ↑p).writesPending = false ∧
    (s.engine ↑p).fences = [] ∧
    (parseFence data).reserved = 0 ∧
    (parseFence data).kind = 0 :=
  ⟨0, fenceData 0 4095 77, running {present := true, begun := some tile1} begunInv, tile1, by decide⟩

theorem test_complete_meets :
    ∃ (p : Fin 256) (data : BitVec 96) (s : State) (e : TileEntry) (v : Invocation), (s.engine ↑p).present = true ∧
    s.inService 3 ↑p = true ∧
    (s.engine ↑p).begun = some e ∧
    e.hallGen = (parseFence data).hallGen ∧
    (s.hall e.hall).gen = e.hallGen ∧
    (s.engine ↑p).writesPending = false ∧
    (s.engine ↑p).fences = [] ∧
    (parseFence data).reserved = 0 ∧
    (parseFence data).kind = 1 ∧
    (parseFence data).fence = 0 ∧
    (parseFence data).value = 0 ∧
    s.invOf e = some v ∧
    (v.tile e.tile).phase = TilePhase.begun ↑p :=
  ⟨0, fenceData 1 0 0, running {present := true, begun := some tile1} begunInv, tile1, begunInv, by decide⟩

theorem test_signal_waits_meets :
    ∃ (p : Fin 256) (data : BitVec 96) (s : State) (e : TileEntry), (s.engine ↑p).present = true ∧
    s.inService 3 ↑p = true ∧
    (s.engine ↑p).begun = some e ∧
    e.hallGen = (parseFence data).hallGen ∧
    (s.hall e.hall).gen = e.hallGen ∧
    (s.engine ↑p).writesPending = true ∧
    (parseFence data).kind ≠ 1 :=
  ⟨0, fenceData 0 5 0, running {present := true, begun := some tile1, dmas := [segWrite]} begunInv, tile1, by decide⟩

theorem test_complete_waits_meets :
    ∃ (p : Fin 256) (data : BitVec 96) (s : State) (e : TileEntry), (s.engine ↑p).present = true ∧
    s.inService 3 ↑p = true ∧
    (s.engine ↑p).begun = some e ∧
    e.hallGen = (parseFence data).hallGen ∧
    (s.hall e.hall).gen = e.hallGen ∧
    (s.engine ↑p).writesPending = true ∧
    (parseFence data).kind = 1 :=
  ⟨0, fenceData 1 0 0, running {present := true, begun := some tile1, dmas := [segWrite]} begunInv, tile1, by decide⟩

/-! ### O16: OverrunsAndPreemptionFreeThePort -/

def preempted : State :=
  running { present := true, queue := [.park, .tile { tile1 with tile := 1 }], begun := some tile1,
            dmas := [segWrite, { segWrite with tag := 4, kind := 2 }], preemptReq := true,
            fences := [{ data := 0, fenceUe := false, tags := [3] }] } begunInv
theorem test_overrun_meets :
    ∃ (p : Fin 256) (s : State) (e : TileEntry), (s.engine ↑p).present = true ∧
    s.inService 3 ↑p = true ∧
    (s.engine ↑p).begun = some e ∧
    (s.engine ↑p).stalled = false :=
  ⟨0, preempted, tile1, by decide⟩

theorem test_noAck_meets :
    ∃ (p : Fin 256) (s : State), s.inService 3 ↑p = true ∧
    (s.engine ↑p).preemptReq = true :=
  ⟨0, preempted, by decide⟩

theorem test_preemptAck_meets :
    ∃ (p : Fin 256) (s : State), (s.engine ↑p).preemptReq = true ∧
    (s.engine ↑p).begun = none :=
  ⟨0, running {present := true, fetched := some tile1, preemptReq := true} grantedInv, by decide⟩

theorem test_contextSwitchDone_meets :
    ∃ (p : Fin 256) (s : State), (s.engine ↑p).switching = true :=
  ⟨0, running {present := true, switching := true, nextHall := some 1} grantedInv, by decide⟩

theorem test_preemptRemoteTimeout_meets :
    ∃ (p : Fin 256) (s : State), (s.engine ↑p).preemptReq = true :=
  ⟨0, preempted, by decide⟩

/-! ### O17: DmaRequestsRunOrLeaveTheChip -/

def dmaReq (kind op idx len addr : Nat) : BitVec 128 :=
  BitVec.ofNat 128 (1 * 2 ^ 112 + 5 * 2 ^ 102 + kind * 2 ^ 100 + op * 2 ^ 98 + 2 * 2 ^ 94 + idx * 2 ^ 82 + (len - 1) *
    2 ^ 70 + addr)
def outWindow : Window :=
  { state := .valid, gen := 3, kind := 1, size := 4, wr := true, rd := true, ownerHall := 1, ownerContext := 2,
    linkPort := 0,
    remoteIndex := 77 }
def dmaState (written : List Nat) (win : Window := outWindow) (units : List (Nat × FUnit) := []) : State :=
  let s := running { present := true, begun := some tile1 } begunInv
  { s with
    xlat := { s.xlat with
      segs := [(128 + 16 + 3, { state := .valid, gen := 1, size := 1, base := 2, mode := .wm, wr := true,
                                rd := true })],
      windows := [(9, win)] }
    protect := { written := written }, faults := { base.faults with units := units } }
def twoBeats : List WBeat := [{ data := 5, strb := 0xFFFF }, { data := 6, strb := 3 }]
theorem test_dma_read_meets :
    ∃ (p : Fin 256) (req : BitVec 128) (beats : List WBeat) (s : State) (e : TileEntry), DmaTaken (↑p) req e s ∧
    (parseDma req).kind = 0 ∧
    (s.seg (dmaOf e (parseDma req) beats).seg).mode = SegMode.wm ∧
    (s.seg (dmaOf e (parseDma req) beats).seg).check (parseDma req).address (parseDma req).length
    (dmaOf e (parseDma req) beats).write =
  SegCheck.pass ∧
    (dmaOf e (parseDma req) beats).write = false ∧
    ¬{ tag := (dmaOf e (parseDma req) beats).tag, kind := (dmaOf e (parseDma req) beats).kind,
        write := (dmaOf e (parseDma req) beats).write, hall := (dmaOf e (parseDma req) beats).hall,
        hallGen := (dmaOf e (parseDma req) beats).hallGen, context := (dmaOf e (parseDma req) beats).context,
        index := (dmaOf e (parseDma req) beats).index, address := (dmaOf e (parseDma req) beats).address,
        length := (dmaOf e (parseDma req) beats).length, beats := (dmaOf e (parseDma req) beats).beats,
        wait := (dmaOf e (parseDma req) beats).wait, seg := (dmaOf e (parseDma req) beats).seg,
        ctxGen := (dmaOf e (parseDma req) beats).ctxGen, refGen := (dmaOf e (parseDma req) beats).refGen,
        arrival := (dmaOf e (parseDma req) beats).arrival, segBase := (s.seg (dmaOf e (parseDma req) beats).seg).base,
        keySlot := (dmaOf e (parseDma req) beats).keySlot, pages := (dmaOf e (parseDma req) beats).pages,
        left := (dmaOf e (parseDma req) beats).left, lines := (dmaOf e (parseDma req) beats).lines,
        todo := (dmaOf e (parseDma req) beats).todo, asked := (dmaOf e (parseDma req) beats).asked,
        old := (dmaOf e (parseDma req) beats).old, status := (dmaOf e (parseDma req) beats).status : Dma }.granule ∈
    s.protect.written :=
  ⟨0, dmaReq 0 0 3 64 0x1FFFC0, [], dmaState [], tile1, by decide⟩

theorem test_dma_write_meets :
    ∃ (p : Fin 256) (req : BitVec 128) (beats : List WBeat) (s : State) (e : TileEntry), DmaTaken (↑p) req e s ∧
    (parseDma req).kind = 0 ∧
    (s.seg (dmaOf e (parseDma req) beats).seg).mode = SegMode.wm ∧
    (s.seg (dmaOf e (parseDma req) beats).seg).check (parseDma req).address (parseDma req).length
    (dmaOf e (parseDma req) beats).write =
  SegCheck.pass ∧
    (dmaOf e (parseDma req) beats).write = true :=
  ⟨0, dmaReq 0 1 3 100 0x2010, twoBeats, dmaState [5, 1024, 2000], tile1, by decide⟩

theorem test_dma_window_meets :
    ∃ (p : Fin 256) (req : BitVec 128) (beats : List WBeat) (s : State) (e : TileEntry), DmaTaken (↑p) req e s ∧
    (parseDma req).kind = 2 ∧
    (s.win (dmaOf e (parseDma req) beats).index).serves (dmaOf e (parseDma req) beats).hall
    (dmaOf e (parseDma req) beats).context (dmaOf e (parseDma req) beats).address (dmaOf e (parseDma req) beats).length
    (dmaOf e (parseDma req) beats).write =
  true ∧
    (s.portFenced (s.win (dmaOf e (parseDma req) beats).index).linkPort = false ∧
  s.linkUsed (s.win (dmaOf e (parseDma req) beats).index).linkPort = true) :=
  ⟨0, dmaReq 2 1 9 100 0x2010, twoBeats, dmaState [], tile1, by decide⟩

theorem test_dma_unusedPort_meets :
    ∃ (p : Fin 256) (req : BitVec 128) (beats : List WBeat) (s : State) (e : TileEntry), DmaTaken (↑p) req e s ∧
    (parseDma req).kind = 2 ∧
    (s.win (dmaOf e (parseDma req) beats).index).serves (dmaOf e (parseDma req) beats).hall
    (dmaOf e (parseDma req) beats).context (dmaOf e (parseDma req) beats).address (dmaOf e (parseDma req) beats).length
    (dmaOf e (parseDma req) beats).write =
  true ∧
    (s.portFenced (s.win (dmaOf e (parseDma req) beats).index).linkPort = true ∨
  s.linkUsed (s.win (dmaOf e (parseDma req) beats).index).linkPort = false) :=
  ⟨0, dmaReq 2 1 9 100 0x2010, twoBeats, dmaState [] {outWindow with linkPort := 3}, tile1, by decide⟩

theorem test_dma_fencedPort_meets :
    ∃ (p : Fin 256) (req : BitVec 128) (beats : List WBeat) (s : State) (e : TileEntry), DmaTaken (↑p) req e s ∧
    (parseDma req).kind = 2 ∧
    (s.win (dmaOf e (parseDma req) beats).index).serves (dmaOf e (parseDma req) beats).hall
    (dmaOf e (parseDma req) beats).context (dmaOf e (parseDma req) beats).address (dmaOf e (parseDma req) beats).length
    (dmaOf e (parseDma req) beats).write =
  true ∧
    (s.portFenced (s.win (dmaOf e (parseDma req) beats).index).linkPort = true ∨
  s.linkUsed (s.win (dmaOf e (parseDma req) beats).index).linkPort = false) :=
  ⟨0, dmaReq 2 1 9 100 0x2010, twoBeats, dmaState [] outWindow [((unitId 4 0).toNat, {state := .fenced})], tile1,
    by decide⟩

/-! ### O18: LinkPortsFollowTheirPhy -/

def narrowed : List (Nat × FUnit) := [((unitId 5 0).toNat, { state := .fenced, cause := Cause.narrow, gen := 5 })]
theorem test_width_same_meets :
    ∃ (n : Fin 20) (w : BitVec 2) (s : State), (if w = 3 then 0 else w) = (s.link ↑n).width :=
  ⟨0, 2, bL l0, by decide⟩

theorem test_width_down_meets :
    ∃ (n : Fin 20) (w : BitVec 2) (s : State), (if w = 3 then 0 else w) ≠ (s.link ↑n).width ∧
    (if w = 3 then 0 else w) = 0 ∧
    s.inService 4 ↑n = true :=
  ⟨0, 3, bL l0, by decide⟩

theorem test_width_narrow_meets :
    ∃ (n : Fin 20) (w : BitVec 2) (s : State), (if w = 3 then 0 else w) ≠ (s.link ↑n).width ∧
    (if w = 3 then 0 else w) = 1 ∧
    s.inService 5 ↑n = true :=
  ⟨0, 1, bL l0, by decide⟩

theorem test_width_narrowAgain_meets :
    ∃ (n : Fin 20) (w : BitVec 2) (s : State), (if w = 3 then 0 else w) ≠ (s.link ↑n).width ∧
    (if w = 3 then 0 else w) = 1 ∧
    s.inService 5 ↑n = false :=
  ⟨0, 1, bL l0 narrowed, by decide⟩

theorem test_width_back_meets :
    ∃ (n : Fin 20) (w : BitVec 2) (s : State), (if w = 3 then 0 else w) ≠ (s.link ↑n).width ∧
    (if w = 3 then 0 else w) = 2 ∧
    s.inService 5 ↑n = false ∧
    (s.unit (unitId 5 ↑n)).cause = Cause.narrow :=
  ⟨0, 2, bL {l0 with width := 1} narrowed, by decide⟩

theorem test_width_up_meets :
    ∃ (n : Fin 20) (w : BitVec 2) (s : State), (if w = 3 then 0 else w) ≠ (s.link ↑n).width ∧
    (if w = 3 then 0 else w) = 2 ∧
    (s.inService 5 ↑n = true ∨ (s.unit (unitId 5 ↑n)).cause ≠ Cause.narrow) :=
  ⟨0, 2, bL {l0 with width := 0}, by decide⟩

theorem test_retrainRequest_meets :
    ∃ (n : Fin 20) (s : State), s.linkUsed ↑n = true ∧
    s.portFenced ↑n = false ∧
    (s.link ↑n).retrainDue = true ∧
    (s.link ↑n).retrainAge = none ∧
    (∀ (f : TxFrame), f ∈ (s.link ↑n).txq ++ (s.link ↑n).urgent → f.vc ≠ 0) :=
  ⟨0, bL {l0 with retrainDue := true}, by decide⟩

theorem test_retrainDone_meets :
    ∃ (n : Fin 20) (s : State), (s.link ↑n).retrainAge.isSome = true :=
  ⟨0, bL {l0 with retrainAge := some 3}, by decide⟩

/-! ### O19: AFrameTimeSendsTheChosenFrame -/

def winReqTx : TxFrame := { hall := 1, vc := 4, hdr := frameHdr fkWinReq 2 1 0 5 1 [], body := [1, 2, 3, 4, 5] }
def markerTx (last : Bool) : TxFrame := { hall := 64, vc := 2, hdr := base.markerHdr last, body := [] }
theorem test_send_queued_meets :
    ∃ (n : Fin 20) (s : State) (f : TxFrame) (key : BitVec 256), s.canSend ↑n = true ∧
    (s.link ↑n).txKey f.vc = some key ∧
    (s.link ↑n).pickUrgent = none ∧
    (s.link ↑n).mustMark = false ∧
    s.pickFrame ↑n = some f :=
  ⟨0, bL {l0 with txq := [winReqTx], chans := [(4, {egress := 7})]}, winReqTx, 5, by decide +kernel⟩

theorem test_send_urgent_meets :
    ∃ (n : Fin 20) (s : State) (f : TxFrame) (key : BitVec 256), s.canSend ↑n = true ∧
    (s.link ↑n).txKey f.vc = some key ∧
    (s.link ↑n).pickUrgent = some f ∧
    (hdrKind f.hdr ≠ fkMarker ∨ hdrLastOfKey f.hdr = false) :=
  ⟨0, bL {l0 with txq := [winReqTx], urgent := [markerTx false]}, markerTx false, 5, by decide +kernel⟩

theorem test_send_lastMarker_meets :
    ∃ (n : Fin 20) (s : State) (f : TxFrame) (key : BitVec 256) (v : Fin 8), s.canSend ↑n = true ∧
    (s.link ↑n).txKey f.vc = some key ∧
    (s.link ↑n).pickUrgent = some f ∧
    hdrKind f.hdr = fkMarker ∧
    hdrLastOfKey f.hdr = true ∧
    ↑v ≠ f.vc ∧
    ((s.link ↑n).chan ↑v).switchedOut = false :=
  ⟨0, bL {l0 with state := .rotating, oldEgress := some 9, txq := [winReqTx], urgent := [markerTx true]},
    markerTx true, 9, 3, by decide +kernel⟩

/-! ### O20: LinkKeysTurnOrAreLost -/

def windowDma : Dma :=
  { tag := 7, kind := 2, write := false, hall := 1, hallGen := 1, context := 2, index := 9, address := 0, length := 64,
    beats := [], wait := .link }
def windowReq : WinReqOut :=
  { id := 3, hall := 1, hallGen := 1, port := 0, tag := 7, entry := 9, entryGen := 3, write := false, length := 64,
    started := true }
def linked (l : Link) : State := { bL l with engines := [(0, { present := true, dmas := [windowDma] })] }
def keyingLink : Link := { l0 with state := .keying, confirmed := false }
def rotatingLink : Link :=
  { l0 with state := .rotating, oldIngress := some 9, oldEgress := some 9, egressKey := some 4, ingressKey := some 5,
            chans := [(2, { ingress := 77 })] }
def offerBytes (kind : Byte) (peer : Word) : List Byte := offerBody 77 3 kind 2 0 peer 0 ++ List.replicate 96 0
def keyxHdr : BitVec 512 := frameHdr fkKeyx 2 0 0 224 1 []
def askedLink : Link := { l0 with offerOut := some (2, true) }
def serial55 (s : State) : State := { s with lc := { s.lc with serial := 55 } }
theorem test_downTimeout_meets :
    ∃ (n : Fin 20) (s : State), Settled s ∧
    OnlyWindowRequests (↑n) s ∧
    s.inService 4 ↑n = true ∧
    s.linkUsed ↑n = true ∧
    (s.link ↑n).width = 0 ∧
    16 ≤ (s.link ↑n).downAge :=
  ⟨0, linked {l0 with width := 0, downAge := 16, reqs := [windowReq]}, by decide⟩

theorem test_retrainTimeout_meets :
    ∃ (n : Fin 20) (s : State) (a : Nat), Settled s ∧
    OnlyWindowRequests (↑n) s ∧
    s.inService 4 ↑n = true ∧
    (s.link ↑n).retrainAge = some a ∧
    16 ≤ a :=
  ⟨0, linked {l0 with retrainAge := some 16, reqs := [windowReq]}, 16, by decide⟩

theorem test_rotationTimeout_meets :
    ∃ (n : Fin 20) (s : State) (g : Gen), Settled s ∧
    OnlyWindowRequests (↑n) s ∧
    s.portFenced ↑n = false ∧
    (s.link ↑n).pendingReqs = [] ∧
    (s.link ↑n).offerOut = some (g, true) ∧
    64 ≤ (s.link ↑n).offerAge :=
  ⟨0, linked {l0 with offerOut := some (2, true), offerAge := 64, reqs := [windowReq]}, 2, by decide⟩

theorem test_marker_confirms_meets :
    ∃ (n : Fin 20) (f : RxFrame) (h : BitVec 512) (body : List Byte) (s : State), FrameTaken (↑n) fkMarker f h body s ∧
    hdrLastOfKey h = false ∧
    f.vc = 0 ∧
    (s.link ↑n).confirmed = false :=
  ⟨0, rxOf keyingLink 0 (base.markerHdr false) [], base.markerHdr false, [], bL keyingLink,
    taken rfl (by decide +kernel) (by decide +kernel) (by decide +kernel) (by decide +kernel), by decide +kernel,
    by decide +kernel, by decide +kernel⟩

theorem test_marker_lastOfKey_meets :
    ∃ (n : Fin 20) (f : RxFrame) (h : BitVec 512) (body : List Byte) (s : State) (v : Fin 8),
      FrameTaken (↑n) fkMarker f h body s ∧
    hdrLastOfKey h = true ∧
    (s.link ↑n).state = LinkState.rotating ∧
    (s.link ↑n).oldIngress.isSome = true ∧
    v ≠ f.vc ∧
    ((s.link ↑n).chan ↑v).switchedIn = false ∧
    ((s.link ↑n).chan ↑v).switchedOut = false :=
  ⟨0, rxOf rotatingLink 2 (base.markerHdr true) [], base.markerHdr true, [], bL rotatingLink, 7,
    taken rfl (by decide +kernel) (by decide +kernel) (by decide +kernel) (by decide +kernel), by decide +kernel,
    by decide +kernel, by decide +kernel, by decide +kernel, by decide +kernel, by decide +kernel⟩

theorem test_keyx_answer_meets :
    ∃ (n : Fin 20) (f : RxFrame) (c : OfferCheck) (h : BitVec 512) (body : List Byte) (s : State) (own : Gen),
      FrameTaken (↑n) fkKeyx f h body s ∧
    body.length = 224 ∧
    offerOk c (parseOffer body) = true ∧
    s.fwRuns = true ∧
    s.answersMine (↑n) (parseOffer body) true = some own :=
  ⟨0, rxOf askedLink 0 keyxHdr (offerBytes 2 55), ⟨true, true⟩, keyxHdr, offerBytes 2 55, serial55 (bL askedLink), 2,
    taken rfl (by decide +kernel) (by decide +kernel) (by decide +kernel) (by decide +kernel), by decide +kernel,
    by decide +kernel, by decide +kernel, by decide +kernel⟩

theorem test_keyx_open_meets :
    ∃ (n : Fin 20) (f : RxFrame) (c : OfferCheck) (h : BitVec 512) (body : List Byte) (s : State),
      FrameTaken (↑n) fkKeyx f h body s ∧
    body.length = 224 ∧
    offerOk c (parseOffer body) = true ∧
    s.fwRuns = true ∧
    (parseOffer body).kind = 1 ∧
    s.openStands (↑n) (parseOffer body) = true ∧
    (s.link ↑n).oldEgress = none ∧
    (s.link ↑n).oldIngress = none :=
  ⟨0, rxOf l0 0 keyxHdr (offerBytes 1 0), ⟨true, true⟩, keyxHdr, offerBytes 1 0, serial55 (bL l0),
    taken rfl (by decide +kernel) (by decide +kernel) (by decide +kernel) (by decide +kernel), by decide +kernel,
    by decide +kernel, by decide +kernel, by decide +kernel, by decide +kernel, by decide +kernel, by decide +kernel⟩

theorem test_keyRotationStart_meets :
    ∃ (n : Fin 20) (v : Fin 8) (s : State), s.fwRuns = true ∧
    s.linkState ↑n = LinkState.up ∧
    (s.link ↑n).offerOut = none ∧
    4026531840 ≤ ((s.link ↑n).chan ↑v).egress.toNat :=
  ⟨0, 7, bL {l0 with chans := [(7, {egress := 0xF0000000})]}, by decide⟩

/-! ### O21: ManagementMessagesAreReassembled -/

def mgmtHdr (total off len : Nat) : BitVec 512 := frameHdr fkMgmt 0 0 0 len 1 (mgmtRest 5 total off)
def partMsg : MgmtMsg := { port := 0, id := 5, total := 100, bytes := [1, 2, 3], age := 7 }
def withMsgs : State := { bL l0 with mgmtMsgs := [partMsg, { port := 0, id := 6, total := 100, bytes := [1, 2, 3],
                                                             age := 64 }] }
theorem test_mgmt_first_meets :
    ∃ (n : Fin 20) (f : RxFrame) (h : BitVec 512) (body : List Byte) (s : State), FrameTaken (↑n) fkMgmt f h body s ∧
    byteField h 19 16 = 0 ∧
    byteField h 15 12 ≤ 16777216 ∧
    body.length < byteField h 15 12 :=
  ⟨0, rxOf l0 0 (mgmtHdr 3 0 2) [8, 9], mgmtHdr 3 0 2, [8, 9], withMsgs, taken rfl (by decide +kernel)
    (by decide +kernel) (by decide +kernel) (by decide +kernel), by decide +kernel, by decide +kernel,
    by decide +kernel⟩

theorem test_mgmt_next_meets :
    ∃ (n : Fin 20) (f : RxFrame) (h : BitVec 512) (body : List Byte) (s : State) (m : MgmtMsg),
      FrameTaken (↑n) fkMgmt f h body s ∧
    List.find? (fun (m : MgmtMsg) => m.port == ↑n && m.id == BitVec.ofNat 32 (byteField h 11 8)) s.mgmtMsgs = some m ∧
    byteField h 19 16 ≠ 0 ∧
    byteField h 19 16 = m.bytes.length ∧
    byteField h 15 12 ≤ 16777216 ∧
    byteField h 19 16 + body.length < byteField h 15 12 :=
  ⟨0, rxOf l0 0 (mgmtHdr 16777216 3 2) [8, 9], mgmtHdr 16777216 3 2, [8, 9], withMsgs, partMsg,
    taken rfl (by decide +kernel) (by decide +kernel) (by decide +kernel) (by decide +kernel), by decide +kernel,
    by decide +kernel, by decide +kernel, by decide +kernel, by decide +kernel⟩

theorem test_mgmt_outOfOrder_meets :
    ∃ (n : Fin 20) (f : RxFrame) (h : BitVec 512) (body : List Byte) (s : State) (m : MgmtMsg),
      FrameTaken (↑n) fkMgmt f h body s ∧
    List.find? (fun (m : MgmtMsg) => m.port == ↑n && m.id == BitVec.ofNat 32 (byteField h 11 8)) s.mgmtMsgs = some m ∧
    byteField h 19 16 ≠ 0 ∧
    byteField h 19 16 ≠ m.bytes.length :=
  ⟨0, rxOf l0 0 (mgmtHdr 100 4 2) [8, 9], mgmtHdr 100 4 2, [8, 9], withMsgs, partMsg, taken rfl (by decide +kernel)
    (by decide +kernel) (by decide +kernel) (by decide +kernel), by decide +kernel, by decide +kernel,
    by decide +kernel⟩

/-! ### O22: InboundRequestsAreAnswered -/

def inWindow : Window :=
  { state := .valid, kind := 2, linkPort := 0, peerHall := 3, size := 4, rd := true, wr := true, ownerHall := 1,
    ownerContext := 0, segment := 0, gen := 4 }
def inState (l : Link) (x : HallState := .active) : State :=
  { bL l with halls := [(1, { state := x, gen := 1 })],
              xlat := { base.xlat with windows := [(7, inWindow)], segs := [(128, sg 3 0)] } }
def farRead : WinReqOut :=
  { id := 5, hall := 3, hallGen := 9, port := 0, tag := 0, entry := 1, entryGen := 4, write := false, length := 128,
    remoteIndex := 7, offset := 64 }
def readHdr : BitVec 512 := frameHdr fkWinReq 2 3 0 0 9 (winReqRest farRead)
def pageHdr (frag last len op : Nat) : BitVec 512 := frameHdr fkCopy last 3 frag len 9 (copyRest 7 4 5 op 0 4096 0 0)
def fullBody : List Byte := List.replicate 960 3
def lastBody : List Byte := List.replicate 256 3
def fourFrags : WinReqIn := { hdr := pageHdr 3 0 960 0, frags := [fullBody, fullBody, fullBody, fullBody] }
def pushLink : Link := { l0 with inbound := [fourFrags] }
theorem test_winReq_meets :
    ∃ (n : Fin 20) (f : RxFrame) (h : BitVec 512) (body : List Byte) (s : State) (k : Nat) (a : Nat),
      TakenAtOnce (↑n) (↑f.vc) h s ∧
    (parseInReq h).write = false ∧
    s.checkInbound (↑n) (parseInReq h).srcHall (parseInReq h).index (parseInReq h).offset (parseInReq h).length false =
  InCheck.access k a ∧
    (s.seg k).check a (parseInReq h).length false = SegCheck.pass ∧
    (s.seg k).mode = SegMode.wm ∧
    ¬((s.seg k).base * 2 ^ 21 + a) / 4096 ∈ s.protect.written ∧
    hdrLast h = true ∧
    (∀ (i : WinReqIn), i ∈ (s.link ↑n).inbound → ¬(hdrLast i.hdr = true ∧ (parseInReq i.hdr).tag = (parseInReq h).tag))
      ∧
    FrameTaken (↑n) fkWinReq f h body s :=
  ⟨0, rxOf l0 4 readHdr [], readHdr, [], inState l0, 128, 64, by decide +kernel, by decide +kernel, by decide +kernel,
    by decide +kernel, by decide +kernel, by decide +kernel, by decide +kernel, by decide +kernel,
    taken rfl (by decide +kernel) (by decide +kernel) (by decide +kernel) (by decide +kernel)⟩

theorem test_pullReq_meets :
    ∃ (n : Fin 20) (f : RxFrame) (h : BitVec 512) (body : List Byte) (s : State) (k : Nat) (a : Nat),
      TakenAtOnce (↑n) (↑f.vc) h s ∧
    (parseInReq h).write = false ∧
    s.checkInbound (↑n) (parseInReq h).srcHall (parseInReq h).index (parseInReq h).offset (parseInReq h).length false =
  InCheck.access k a ∧
    (s.seg k).check a (parseInReq h).length false = SegCheck.pass ∧
    (s.seg k).mode = SegMode.wm ∧
    ¬((s.seg k).base * 2 ^ 21 + a) / 4096 ∈ s.protect.written ∧
    hdrLast h = true ∧
    (∀ (i : WinReqIn), i ∈ (s.link ↑n).inbound → ¬(hdrLast i.hdr = true ∧ (parseInReq i.hdr).tag = (parseInReq h).tag))
      ∧
    FrameTaken (↑n) fkCopy f h body s ∧
    byteField h 14 14 = cpPull :=
  ⟨0, rxOf l0 6 (pageHdr 0 2 0 2) [], pageHdr 0 2 0 2, [], inState l0, 128, 4096, by decide +kernel, by decide +kernel,
    by decide +kernel, by decide +kernel, by decide +kernel, by decide +kernel, by decide +kernel, by decide +kernel,
    taken rfl (by decide +kernel) (by decide +kernel) (by decide +kernel) (by decide +kernel), by decide +kernel⟩

theorem test_pushData_first_meets :
    ∃ (n : Fin 20) (f : RxFrame) (h : BitVec 512) (body : List Byte) (s : State), FrameTaken (↑n) fkCopy f h body s ∧
    TakenAtOnce (↑n) (↑f.vc) h s ∧
    byteField h 14 14 = cpPush ∧
    hdrLast h = false ∧
    hdrFrag h = 0 :=
  ⟨0, rxOf pushLink 6 (pageHdr 0 0 960 0) fullBody, pageHdr 0 0 960 0, fullBody, inState pushLink,
    taken rfl (by decide +kernel) (by decide +kernel) (by decide +kernel) (by decide +kernel), by decide +kernel,
    by decide +kernel, by decide +kernel, by decide +kernel⟩

theorem test_pushData_last_meets :
    ∃ (n : Fin 20) (f : RxFrame) (h : BitVec 512) (body : List Byte) (s : State) (i : WinReqIn),
      FrameTaken (↑n) fkCopy f h body s ∧
    TakenAtOnce (↑n) (↑f.vc) h s ∧
    byteField h 14 14 = cpPush ∧
    hdrLast h = true ∧
    i ∈ (s.link ↑n).inbound ∧
    hdrLast i.hdr = false ∧
    (parseInReq i.hdr).tag = (parseInReq h).tag ∧
    (parseInReq i.hdr).copy = true ∧
    (∀ (j : WinReqIn), j ∈ (s.link ↑n).inbound → hdrLast j.hdr = false → (parseInReq j.hdr).tag = (parseInReq h).tag →
      j = i) ∧
    hdrFrag h = i.frags.length ∧
    0 < i.frags.length ∧
    (i.frags ++ [body]).flatten.length = 4096 ∧
    s.checkInbound (↑n) (parseInReq h).srcHall (parseInReq h).index (parseInReq h).offset 4096 true = InCheck.retired :=
  ⟨0, rxOf pushLink 6 (pageHdr 4 2 256 0) lastBody, pageHdr 4 2 256 0, lastBody, inState pushLink .paused, fourFrags,
    taken rfl (by decide +kernel) (by decide +kernel) (by decide +kernel) (by decide +kernel), by decide +kernel,
    by decide +kernel, by decide +kernel, by decide +kernel, by decide +kernel, by decide +kernel, by decide +kernel,
    by decide +kernel, by decide +kernel, by decide +kernel, by decide +kernel, by decide +kernel⟩

/-! ### O23: OutboundRequestsEnd -/

def readReq : WinReqOut :=
  { id := 5, hall := 1, hallGen := 9, port := 0, tag := 17, entry := 1, entryGen := 4, write := false, length := 10,
    started := true, age := 4 }
def pageReq (w : Bool) : WinReqOut :=
  { id := 5, hall := 1, hallGen := 9, port := noPort, tag := 0, entry := 1, entryGen := 4, write := w, length := 4096,
    started := true, age := 4, copy := true, page := 3, queue := 2 }
def outLink : Link := { l0 with reqs := [readReq, pageReq true, { pageReq false with id := 6 }] }
def readDma : Dma :=
  { tag := 17, kind := 2, write := false, hall := 1, hallGen := 1, context := 0, index := 1, address := 60,
    length := 10,
    beats := [], wait := .link }
def pages : Migration :=
  { hall := 1, queue := 2, hdr := { opcode := 0xA, record := 0, count := false, tag := 0 }, direction := 2, window := 1,
    src := 0, dst := 0, pages := 5, next := 5, out := [(3, 0), (4, 0)], fail := none, seg := 128 }
def outState : State :=
  { bL outLink with
    engines := [(0, { present := true, dmas := [readDma] }), (1, { present := true })]
    xlat := { base.xlat with migrations := [pages] } }
def winRspHdr : BitVec 512 :=
  frameHdr fkWinRsp 2 3 0 10 9 ([0, 0] ++ leBytes 2 4 ++ leBytes 2 5 ++ [0] ++ leBytes 1 1 ++ leBytes 2 9)
def tenBytes : List Byte := [1, 2, 3, 4, 5, 6, 7, 8, 9, 10]
def copyHdr (id op last : Nat) : BitVec 512 := frameHdr fkCopy last 3 0 0 9 (copyRest 7 4 id op 0 4096 9 1)
theorem test_winRsp_meets :
    ∃ (n : Fin 20) (s : State) (r : WinReqOut) (d : Dma) (f : RxFrame) (h : BitVec 512) (body : List Byte),
      (s.link ↑n).pendingReqs = [] ∧
    s.dma r.port r.tag = some d ∧
    r.port < 256 ∧
    Settled s ∧
    FrameTaken (↑n) fkWinRsp f h body s ∧
    TakenAtOnce (↑n) (↑f.vc) h s ∧
    hdrLast h = true ∧
    byteField h 14 14 = BitVec.toNat Status.ok.code ∧
    s.reqOf (↑n) false false (bits h 107 96) (BitVec.ofNat 16 (byteField h 11 10)) (BitVec.ofNat 16 (byteField h 17 16))
    (bits h 125 120) =
  some r :=
  ⟨0, outState, readReq, readDma, rxOf outLink 5 winRspHdr tenBytes, winRspHdr, tenBytes, by decide +kernel,
    by decide +kernel, by decide +kernel, by decide +kernel, taken rfl (by decide +kernel) (by decide +kernel)
    (by decide +kernel) (by decide +kernel), by decide +kernel, by decide +kernel, by decide +kernel, by decide +kernel⟩

theorem test_windowTimeout_meets :
    ∃ (n : Fin 20) (s : State) (r : WinReqOut) (d : Dma) (req : Fin 4096), (s.link ↑n).pendingReqs = [] ∧
    s.dma r.port r.tag = some d ∧
    r.port < 256 ∧
    Settled s ∧
    List.find? (fun (x : WinReqOut) => x.copy == false && x.id == ↑req && x.started && decide (4 ≤ x.age))
    (s.link ↑n).reqs =
  some r :=
  ⟨0, outState, readReq, readDma, 5, by decide⟩

theorem test_ack_meets :
    ∃ (n : Fin 20) (s : State) (r : WinReqOut) (m : Migration) (f : RxFrame) (h : BitVec 512) (body : List Byte),
      (s.link ↑n).pendingReqs = [] ∧
    r.hall < 64 ∧
    r.queue < 256 ∧
    s.migration r.hall r.queue = some m ∧
    m.fail = none ∧
    m.next = m.pages ∧
    (∃ (x : Nat × Nat), x ∈ m.out ∧ x.fst = r.page) ∧
    (∃ (x : Nat × Nat), x ∈ m.out ∧ x.fst ≠ r.page) ∧
    Settled s ∧
    FrameTaken (↑n) fkCopy f h body s ∧
    TakenAtOnce (↑n) (↑f.vc) h s ∧
    byteField h 14 14 = cpAck ∧
    byteField h 15 15 = BitVec.toNat Status.ok.code ∧
    s.reqOf (↑n) true true (bits h 107 96) (BitVec.ofNat 16 (byteField h 11 10)) (BitVec.ofNat 16 (byteField h 25 24))
    (bits h 213 208) =
  some r :=
  ⟨0, outState, pageReq true, pages, rxOf outLink 6 (copyHdr 5 1 2) [], copyHdr 5 1 2, [], by decide +kernel,
    by decide +kernel, by decide +kernel, by decide +kernel, by decide +kernel, by decide +kernel, by decide +kernel,
    by decide +kernel, by decide +kernel, taken rfl (by decide +kernel) (by decide +kernel) (by decide +kernel)
    (by decide +kernel), by decide +kernel, by decide +kernel, by decide +kernel, by decide +kernel⟩

theorem test_copyPageTimeout_meets :
    ∃ (n : Fin 20) (s : State) (r : WinReqOut) (m : Migration) (req : Fin 4096), (s.link ↑n).pendingReqs = [] ∧
    r.hall < 64 ∧
    r.queue < 256 ∧
    s.migration r.hall r.queue = some m ∧
    m.fail = none ∧
    m.next = m.pages ∧
    (∃ (x : Nat × Nat), x ∈ m.out ∧ x.fst = r.page) ∧
    (∃ (x : Nat × Nat), x ∈ m.out ∧ x.fst ≠ r.page) ∧
    Settled s ∧
    r.copy = true ∧
    List.find? (fun (x : WinReqOut) => x.copy == true && x.id == ↑req && x.started && decide (4 ≤ x.age))
      (s.link ↑n).reqs =
  some r :=
  ⟨0, outState, pageReq true, pages, 5, by decide⟩

theorem test_pullData_meets :
    ∃ (n : Fin 20) (s : State) (r : WinReqOut) (f : RxFrame) (h : BitVec 512) (body : List Byte),
      FrameTaken (↑n) fkCopy f h body s ∧
    TakenAtOnce (↑n) (↑f.vc) h s ∧
    byteField h 14 14 = cpData ∧
    hdrLast h = false ∧
    s.reqOf (↑n) true false (bits h 107 96) (BitVec.ofNat 16 (byteField h 11 10)) (BitVec.ofNat 16 (byteField h 25 24))
    (bits h 213 208) =
  some r :=
  ⟨0, outState, {pageReq false with id := 6}, rxOf outLink 6 (copyHdr 6 3 0) [], copyHdr 6 3 0, [],
    taken rfl (by decide +kernel) (by decide +kernel) (by decide +kernel) (by decide +kernel), by decide +kernel,
    by decide +kernel, by decide +kernel, by decide +kernel⟩

/-! ### O24: ChunksArriveInTheirTiles -/

def ringGroup : GroupRec :=
  { raw := 0, group := 5, hall := 1, reduces := true, partialMode := false, compensated := false, memberBase := 0,
    memberCount := 2, myIndex := 0, f0 := 2, f1 := 1, f2 := 1, fmt1 := 0, fmt2 := 0, ports := [0, 0, 0, 0, 0, 0],
      window := 2 }
def collecting (frags : List (List Byte)) : CollOp :=
  { kind := 0, hall := 1, queue := 2, queueGen := 1, hdr := { opcode := 7, record := 0, count := false, tag := 0 },
    context := 0, inFmt := 0, outFmt := 0, rounding := 0, src := 0, dst := 8192, elements := 1024, chunkFence := 1,
    doneFence := 2, step := 3, accepted := true, tiles := [0, 1],
    rings := [{ granted := 2, offered := 2, sent := 0, received := 0, frags := frags }, {}, {}] }
def runningGroup (ops : List CollOp) : Group := { state := .admitted, gen := 4, admHall := 1, key := some 77,
                                                  ops := ops }
def chunkState (l : Link) (frags : List (List Byte)) : State :=
  { bL l with
    plan := { state := .applied, active := some { plan0 with groups := [ringGroup] } }
    groups := [(5, runningGroup [collecting frags])], reduce := { base.reduce with slots := [(16, 4)] } }
def plainChunk (len : Nat) : List Byte := (List.range len).map fun i => BitVec.ofNat 8 i
def twoFrags : List (List Byte) := [plainChunk 960, plainChunk 960]
def holding (x : BitVec 512 × List Byte) : Link := { l0 with chans := [(2, { held := [x] })] }
/-- The header of a chunk's first frame, of 960 bytes, before its inner tag. -/
def firstHdr : BitVec 512 := 0x90001000000040005000903c000030004
/-- The header of its last frame, of 128 bytes. -/
def lastHdr : BitVec 512 := 0x900010000000400050009008002030204

theorem first_expected (l : Link) {h : BitVec 512} {body : List Byte} (e : h.toNat % 2 ^ 384 = firstHdr.toNat % 2 ^ 384)
    (ho : openChunk 77 h body = some (plainChunk 960)) :
    ChunkExpected 0 2 h body (plainChunk 960) ringGroup (collecting []) 0 0 0 0 512 (chunkState l []) := by
  have g : bits h 74 64 = 5 := (bits_of_low e _ _ (by decide)).trans (by decide +kernel)
  have f (a b : Nat) (ha : 8 * a + 7 < 384) : byteField h a b = byteField firstHdr a b := bits_of_low e _ _ ha
  rw [ChunkExpected, g, hdrLast, bit_of_low e _ (by decide), hdrFrag, f 11 10 (by decide), f 12 12 (by decide),
    f 15 14 (by decide), f 28 24 (by decide), f 35 32 (by decide), f 13 13 (by decide), f 3 3 (by decide)]
  exact ⟨rfl, rfl, (by decide +kernel : (4 : Gen) = BitVec.ofNat 16 (byteField firstHdr 11 10)), rfl,
    by decide +kernel, by decide +kernel, by decide +kernel, by decide +kernel, by decide +kernel, by decide +kernel,
    by decide +kernel, by decide +kernel, by decide +kernel, by decide +kernel, by decide +kernel, by decide +kernel,
      by decide +kernel,
    (by decide : ∀ x ∈ base.engines, x.2.redWait = none), List.not_mem_nil, 77, rfl, ho⟩

theorem last_expected (l : Link) {h : BitVec 512} {body : List Byte} (e : h.toNat % 2 ^ 384 = lastHdr.toNat % 2 ^ 384)
    (ho : openChunk 77 h body = some (plainChunk 128)) :
    ChunkExpected 0 2 h body (plainChunk 128) ringGroup (collecting twoFrags) 0 0 0 0 512 (chunkState l twoFrags) := by
  have g : bits h 74 64 = 5 := (bits_of_low e _ _ (by decide)).trans (by decide +kernel)
  have f (a b : Nat) (ha : 8 * a + 7 < 384) : byteField h a b = byteField lastHdr a b := bits_of_low e _ _ ha
  rw [ChunkExpected, g, hdrLast, bit_of_low e _ (by decide), hdrFrag, f 11 10 (by decide), f 12 12 (by decide),
    f 15 14 (by decide), f 28 24 (by decide), f 35 32 (by decide), f 13 13 (by decide), f 3 3 (by decide)]
  exact ⟨rfl, rfl, (by decide +kernel : (4 : Gen) = BitVec.ofNat 16 (byteField lastHdr 11 10)), rfl,
    by decide +kernel, by decide +kernel, by decide +kernel, by decide +kernel, by decide +kernel, by decide +kernel,
    by decide +kernel, by decide +kernel, by decide +kernel, by decide +kernel, by decide +kernel, by decide +kernel,
      by decide +kernel,
    (by decide : ∀ x ∈ base.engines, x.2.redWait = none), List.not_mem_nil, 77, rfl, ho⟩

theorem chunk_frame_taken {g h : BitVec 512} {body : List Byte} (s : State) (e : h.toNat % 2 ^ 384 = g.toNat % 2 ^ 384)
    (hl : hdrBodyLen g = body.length) (hn : body.length ≤ 960) (hm : malformed 2 g = false) (hk : hdrKind g = fkChunk)
    (hs : s.link 0 = l0) (hr : s.core.released = true ∧ s.portFenced 0 = false ∧ Settled s) :
    FrameTaken 0 fkChunk (rxOf l0 2 h body) h body s := by
  have f (a b : Nat) (ha : 8 * a + 7 < 384) : byteField h a b = byteField g a b := bits_of_low e _ _ ha
  have b (a c : Nat) (ha : a < 384) : bits h a c = bits g a c := bits_of_low e _ _ ha
  have hk' : hdrKind h = fkChunk := by rw [hdrKind, f _ _ (by decide)]; exact hk
  refine taken hs (by decide) (by rw [hdrBodyLen, f _ _ (by decide)]; exact hl) hn ⟨hr.1, hr.2.1, ?_, hk', hr.2.2⟩
  · rw [← hm]
    simp only [malformed, kindReservedOk, hk', hk, hdrBodyLen, f 5 4 (by decide), b 15 10 (by decide),
      b 23 22 (by decide),
      b 79 75 (by decide), f 12 12 (by decide), f 13 13 (by decide), b 127 127 (by decide), b 255 232 (by decide),
        zeroBytes,
      f 47 36 (by decide)]
    rfl

theorem group_of_low {g h : BitVec 512} (e : h.toNat % 2 ^ 384 = g.toNat % 2 ^ 384) (hg : bits g 74 64 = 5) : bits h 74
    64 = 5 :=
  (bits_of_low e 74 64 (by decide)).trans hg

theorem chunk_state_ready {g : BitVec 512} (hk : hdrKind g = fkChunk) (hg : bits g 74 64 = 5) (l : Link)
    (f : List (List Byte)) :
    (chunkState l f).consumerReady 0 2 g = true := by
  have a : (chunkState l f).adderLeft 1 = (chunkState l0 []).adderLeft 1 := rfl
  simp only [State.consumerReady, hk, hg, if_true]
  show decide ((2 : Nat) ≠ 2 ∨ 0 < (chunkState l f).adderLeft 1 ∧ (base.hall 1).state ≠ .paused) = true
  rw [a]
  decide +kernel

theorem chunk_ready {g h : BitVec 512} (s : State) (e : h.toNat % 2 ^ 384 = g.toNat % 2 ^ 384) : s.consumerReady 0 2 h
    = s.consumerReady 0 2 g := by
  have f (a b : Nat) (ha : 8 * a + 7 < 384) : byteField h a b = byteField g a b := bits_of_low e _ _ ha
  simp only [State.consumerReady, hdrKind, f 0 0 (by decide), bits_of_low e 74 64 (by decide), f 14 14 (by decide)]
  rfl

theorem test_chunk_fragment_meets :
    ∃ (n : Fin 20) (vc : Fin 8) (h : BitVec 512) (body : List Byte) (plain : List Byte) (s : State) (r : GroupRec)
      (o : CollOp) (k : Nat) (step : Nat) (i : Nat) (first : Nat) (len : Nat) (f : RxFrame), ChunkExpected (↑n) (↑vc) h
      body plain r o k step i first len s ∧
    hdrKind h = fkChunk ∧
    s.consumerReady (↑n) (↑vc) h = true ∧
    (s.group (bits h 74 64)).state = GroupState.admitted ∧
    FrameTaken (↑n) fkChunk f h body s ∧
    TakenAtOnce (↑n) (↑f.vc) h s ∧
    f.vc = vc ∧
    hdrLast h = false := by
  obtain ⟨h, body, e, hl, ho⟩ := openChunk_sealed 77 firstHdr (plainChunk 960)
  refine ⟨0, 2, h, body, plainChunk 960, chunkState l0 [], ringGroup, collecting [], 0, 0, 0, 0, 512, rxOf l0 2 h body,
    ⟨first_expected _ e ho, (bits_of_low e 7 0 (by decide)).trans (by decide +kernel),
      (chunk_ready _ e).trans (by decide +kernel), by rw [group_of_low e (by decide +kernel)]; rfl,
    chunk_frame_taken _ e (by rw [hl]; decide +kernel) (by rw [hl]; decide +kernel) (by decide +kernel)
      (by decide +kernel) (by decide +kernel) (by decide +kernel),
    ⟨fun _ hx => absurd hx List.not_mem_nil, (chunk_ready _ e).trans (by decide +kernel)⟩, rfl,
      (bit_of_low e 9 (by decide)).trans (by decide +kernel)⟩⟩

theorem test_chunk_whole_meets :
    ∃ (n : Fin 20) (vc : Fin 8) (h : BitVec 512) (body : List Byte) (plain : List Byte) (s : State) (r : GroupRec)
      (o : CollOp) (k : Nat) (step : Nat) (i : Nat) (first : Nat) (len : Nat) (f : RxFrame), ChunkExpected (↑n) (↑vc) h
      body plain r o k step i first len s ∧
    hdrKind h = fkChunk ∧
    s.consumerReady (↑n) (↑vc) h = true ∧
    (s.group (bits h 74 64)).state = GroupState.admitted ∧
    FrameTaken (↑n) fkChunk f h body s ∧
    TakenAtOnce (↑n) (↑f.vc) h s ∧
    f.vc = vc ∧
    hdrLast h = true ∧
    o.kind = 0 ∧
    (o.ring k).sent ≠ workItems r o k := by
  obtain ⟨h, body, e, hl, ho⟩ := openChunk_sealed 77 lastHdr (plainChunk 128)
  refine ⟨0, 2, h, body, plainChunk 128, chunkState l0 twoFrags, ringGroup, collecting twoFrags, 0, 0, 0, 0, 512,
    rxOf l0 2 h body,
    ⟨last_expected _ e ho, (bits_of_low e 7 0 (by decide)).trans (by decide +kernel),
      (chunk_ready _ e).trans (by decide +kernel), by rw [group_of_low e (by decide +kernel)]; rfl,
    chunk_frame_taken _ e (by rw [hl]; decide +kernel) (by rw [hl]; decide +kernel) (by decide +kernel)
      (by decide +kernel) (by decide +kernel) (by decide +kernel),
    ⟨fun _ hx => absurd hx List.not_mem_nil, (chunk_ready _ e).trans (by decide +kernel)⟩, rfl,
      (bit_of_low e 9 (by decide)).trans (by decide +kernel), by decide, by decide +kernel⟩⟩

theorem test_release_fragment_meets :
    ∃ (n : Fin 20) (vc : Fin 8) (h : BitVec 512) (body : List Byte) (plain : List Byte) (s : State) (r : GroupRec)
      (o : CollOp) (k : Nat) (step : Nat) (i : Nat) (first : Nat) (len : Nat) (hall : Fin 64),
      ChunkExpected (↑n) (↑vc) h body plain r o k step i first len s ∧
    hdrKind h = fkChunk ∧
    s.consumerReady (↑n) (↑vc) h = true ∧
    (s.group (bits h 74 64)).state = GroupState.admitted ∧
    Settled s ∧
    List.find? (fun (x : BitVec 512 × List Byte) => hdrSrcHall x.fst == ↑hall) ((s.link ↑n).chan ↑vc).held = some (h,
      body) ∧
    hdrLast h = false := by
  obtain ⟨h, body, e, hl, ho⟩ := openChunk_sealed 77 firstHdr (plainChunk 960)
  refine ⟨0, 2, h, body, plainChunk 960, chunkState (holding (h, body)) [], ringGroup, collecting [], 0, 0, 0, 0, 512,
    3,
    ⟨first_expected _ e ho, (bits_of_low e 7 0 (by decide)).trans (by decide +kernel), ?_,
      by rw [group_of_low e (by decide +kernel)]; rfl, ?_, ?_, (bit_of_low e 9 (by decide)).trans (by decide +kernel)⟩⟩
  · exact (chunk_ready _ e).trans (chunk_state_ready (by decide +kernel) (by decide +kernel) _ _)
  · exact (by decide : Settled (chunkState l0 []))
  · have hh : hdrSrcHall h = 3 := (bits_of_low e 21 16 (by decide)).trans (by decide +kernel)
    show List.find? _ [(h, body)] = _
    simp [List.find?, hh]

theorem test_release_whole_meets :
    ∃ (n : Fin 20) (vc : Fin 8) (h : BitVec 512) (body : List Byte) (plain : List Byte) (s : State) (r : GroupRec)
      (o : CollOp) (k : Nat) (step : Nat) (i : Nat) (first : Nat) (len : Nat) (hall : Fin 64),
      ChunkExpected (↑n) (↑vc) h body plain r o k step i first len s ∧
    hdrKind h = fkChunk ∧
    s.consumerReady (↑n) (↑vc) h = true ∧
    (s.group (bits h 74 64)).state = GroupState.admitted ∧
    Settled s ∧
    List.find? (fun (x : BitVec 512 × List Byte) => hdrSrcHall x.fst == ↑hall) ((s.link ↑n).chan ↑vc).held = some (h,
      body) ∧
    hdrLast h = true ∧
    o.kind = 0 ∧
    (o.ring k).sent ≠ workItems r o k := by
  obtain ⟨h, body, e, hl, ho⟩ := openChunk_sealed 77 lastHdr (plainChunk 128)
  refine ⟨0, 2, h, body, plainChunk 128, chunkState (holding (h, body)) twoFrags, ringGroup, collecting twoFrags, 0, 0,
    0, 0, 512, 3,
    ⟨last_expected _ e ho, (bits_of_low e 7 0 (by decide)).trans (by decide +kernel), ?_,
      by rw [group_of_low e (by decide +kernel)]; rfl, ?_, ?_, (bit_of_low e 9 (by decide)).trans (by decide +kernel),
         by decide, by decide +kernel⟩⟩
  · exact (chunk_ready _ e).trans (chunk_state_ready (by decide +kernel) (by decide +kernel) _ _)
  · exact (by decide : Settled (chunkState l0 twoFrags))
  · have hh : hdrSrcHall h = 3 := (bits_of_low e 21 16 (by decide)).trans (by decide +kernel)
    show List.find? _ [(h, body)] = _
    simp [List.find?, hh]

/-! ### O25: GroupsAreKeyedAndRunCollectives -/

def collWord : BitVec 512 :=
  w512 [(0, [7]), (16, [5, 0, 0]), (32, [0, 0, 32]), (40, leBytes 5 1024), (48, [1, 0, 2, 0]), (56, [3])]
def idleGroup : Group := { state := .admitted, gen := 4, admHall := 1, key := some 77 }
def twoMembers : List MemberRec := [{ serialLo := 7, hall := 1, chip := 0 }, { serialLo := 8, hall := 1, chip := 0 }]
def collState (q : Queue) : State :=
  { bQ q with
    plan := { state := .applied, active := some { plan0 with groups := [ringGroup], members := twoMembers } }
    groups := [(5, idleGroup)], reduce := { base.reduce with slots := [(16, 4)] } }
def collOpOf (q : Queue) : CollOp := withCounts idleGroup (collOp 1 2 q collWord)
def collTiles : List Nat := ((collState (qA buf)).tilesFor ringGroup (collOpOf (qA buf))).getD []
def collWaits : Queue := { qA buf with wait := .coll (cmdHdr collWord) collWord }
def keying (i : Nat) : State :=
  { collState (qA buf) with
    vault := { epochRoot := some 9 }
    groups := [(5, { idleGroup with state := .admitting, key := none, admAge := 64, pendingGen := 6, seed := 3 })]
    plan := { state := .applied, active := some { plan0 with groups := [{ ringGroup with myIndex := i }],
                                                             members := twoMembers } } }
theorem test_coll_meets :
    ∃ (h : Fin 64) (q : Fin 256) (raw : BitVec 512) (s : State) (r : GroupRec) (o : CollOp) (tiles : List Nat)
      (b : Buffer), CollFits (↑h) (↑q) raw r o tiles s ∧
    AtCommand (↑h) (↑q) 7 raw b s ∧
    collFieldsOk raw = true :=
  ⟨1, 2, collWord, collState (qA buf), ringGroup, collOpOf (qA buf), collTiles, buf, by decide +kernel⟩

theorem test_collAccepted_meets :
    ∃ (h : Fin 64) (q : Fin 256) (raw : BitVec 512) (s : State) (r : GroupRec) (o : CollOp) (tiles : List Nat)
      (hdr : CmdHdr), CollFits (↑h) (↑q) raw r o tiles s ∧
    (s.queue ↑h ↑q).wait = CmdWait.coll hdr raw ∧
    (s.hall ↑h).state = HallState.active :=
  ⟨1, 2, collWord, collState collWaits, ringGroup, collOpOf collWaits, collTiles, cmdHdr collWord, by decide +kernel⟩

theorem test_groupKey_issued_meets :
    ∃ (g : Fin 2048) (s : State) (r : GroupRec) (sender : Word) (wrapped : BitVec 320) (er : BitVec 256),
      (s.group ↑g).state = GroupState.admitting ∧
    s.groupRec ↑g = some r ∧
    s.fwRuns = true ∧
    s.mayInstall = true ∧
    ¬VaultEntry.epochRoot ∈ s.vault.rederiving ∧
    Settled s ∧
    s.issues ↑g = true ∧
    s.vault.epochRoot = some er :=
  ⟨5, keying 0, ringGroup, 7, 0, 9, by decide +kernel⟩

theorem test_groupKeyRetry_meets :
    ∃ (g : Fin 2048) (s : State) (r : GroupRec) (m : MemberRec), (s.group ↑g).state = GroupState.admitting ∧
    s.groupRec ↑g = some r ∧
    s.fwRuns = true ∧
    64 ≤ (s.group ↑g).admAge ∧
    s.issues ↑g = false ∧
    (s.membersOf r)[0]? = some m :=
  ⟨5, keying 1, {ringGroup with myIndex := 1}, {serialLo := 7, hall := 1, chip := 0}, by decide +kernel⟩


/-- The transport key of two chips is an open value of Config; the key that the group's chip 7 sends is wrapped under
  it. -/
def wrapped77 : BitVec 320 := BitVec.ofNat 320 (leNat (keyWrap (Config.transportKey 7 (keying 1).lc.serial) 77))
theorem test_groupKey_wrapped_meets :
    ∃ (g : Fin 2048) (s : State) (r : GroupRec) (sender : Word) (wrapped : BitVec 320) (m : MemberRec) (key : BitVec
      256),
      (s.group ↑g).state = GroupState.admitting ∧ s.groupRec ↑g = some r ∧ s.fwRuns = true ∧ s.mayInstall = true ∧
      ¬VaultEntry.epochRoot ∈ s.vault.rederiving ∧ Settled s ∧ s.issues ↑g = false ∧ (s.membersOf r)[0]? = some m ∧
      m.serialLo = BitVec.ofNat 32 sender.toNat ∧
      keyUnwrap (Config.transportKey sender s.lc.serial) (bytesOf wrapped) = some key :=
  ⟨5, keying 1, { ringGroup with myIndex := 1 }, 7, wrapped77, { serialLo := 7, hall := 1, chip := 0 }, 77,
    by decide +kernel,
    by decide +kernel, by decide +kernel, by decide +kernel, by decide +kernel, by decide +kernel, by decide +kernel,
    by decide +kernel, by decide +kernel, 
    by rw [wrapped77, bytesOf_ofNat_leNat _ (by rw [keyWrap_length])]; exact keyUnwrap_keyWrap _ _⟩

/-! ### O26: SignalsAndWaitCountsReachTheGroup -/

def signalled (o : CollOp) : State :=
  { bQ (qA buf) with
    plan := { state := .applied, active := some { plan0 with groups := [ringGroup], members := twoMembers } }
    groups := [(5, runningGroup [o])], reduce := { base.reduce with slots := [(16, 4)] } }
def waitingOp (kind : Nat) (waited : Nat := 0) : CollOp :=
  { collecting [] with
    kind := kind, queue := 2, hdr := { opcode := 7, record := 0x200, count := true, tag := 9 },
    rings := [{ granted := 1, offered := 2, waited := waited }, {}, {}] }
def signalHdr (sig op val first len : Nat) : BitVec 512 := frameHdr fkSignal 2 3 0 len 9 (signalRest 5 4 sig 0 op 3 val
    first)
def endHdr : BitVec 512 := frameHdr fkSignal 2 3 0 0 9 (signalRest 5 4 3 0 0 0 0 0)
def grantHdr : BitVec 512 := signalHdr 1 0 5 0 0
def countHdr : BitVec 512 := signalHdr 2 2 1 1 8
def countBody : List Byte := leBytes 8 41
theorem test_grant_meets :
    ∃ (n : Fin 20) (f : RxFrame) (h : BitVec 512) (body : List Byte) (s : State) (g : Nat) (k : Nat) (r : GroupRec)
      (o : CollOp), FrameTaken (↑n) fkSignal f h body s ∧
    SignalFor g k h r s ∧
    byteField h 12 12 = sigGrant ∧
    r.nextPort k = ↑n ∧
    s.opOf g (byteField h 14 14) = some o ∧
    o.accepted = true ∧
    o.step = BitVec.ofNat 64 (byteField h 23 16) ∧
    o.kind ≠ 2 ∧
    k < o.rings.length :=
  ⟨0, rxOf l0 1 grantHdr [], grantHdr, [], signalled (waitingOp 0), 5, 0, ringGroup, waitingOp 0,
    taken rfl (by decide +kernel) (by decide +kernel) (by decide +kernel) (by decide +kernel), by decide +kernel,
    by decide +kernel, by decide +kernel, by decide +kernel, by decide +kernel, by decide +kernel, by decide +kernel,
    by decide +kernel⟩

theorem test_count_meets :
    ∃ (n : Fin 20) (f : RxFrame) (h : BitVec 512) (body : List Byte) (s : State) (g : Nat) (k : Nat) (r : GroupRec)
      (o : CollOp) (i : Nat), FrameTaken (↑n) fkSignal f h body s ∧
    SignalFor g k h r s ∧
    byteField h 12 12 = sigCount ∧
    r.prevPort k = ↑n ∧
    s.opOf g 2 = some o ∧
    o.accepted = true ∧
    byteField h 14 14 = 2 ∧
    o.step = BitVec.ofNat 64 (byteField h 23 16) ∧
    k < o.rings.length ∧
    byteField h 29 28 + byteField h 27 24 ≤ r.members ∧
    i < r.members ∧
    Tab.get 0 o.counts i = 0 ∧
    (i < byteField h 29 28 ∨ byteField h 29 28 + byteField h 27 24 ≤ i) :=
  ⟨0, rxOf l0 1 countHdr countBody, countHdr, countBody, signalled (waitingOp 2), 5, 0, ringGroup, waitingOp 2, 0,
    taken rfl (by decide +kernel) (by decide +kernel) (by decide +kernel) (by decide +kernel), by decide +kernel,
    by decide +kernel, by decide +kernel, by decide +kernel, by decide +kernel, by decide +kernel, by decide +kernel,
    by decide +kernel, by decide +kernel, by decide +kernel, by decide +kernel, by decide +kernel⟩

theorem test_endNotice_meets :
    ∃ (n : Fin 20) (f : RxFrame) (h : BitVec 512) (body : List Byte) (s : State) (g : Nat) (k : Nat) (r : GroupRec),
      FrameTaken (↑n) fkSignal f h body s ∧
    SignalFor g k h r s ∧
    byteField h 12 12 = sigEnd ∧
    (s.group g).gen ≠ 0 ∧
    ((s.group g).state = GroupState.admitted ∨ (s.group g).state = GroupState.stalled) :=
  ⟨0, rxOf l0 1 endHdr [], endHdr, [], signalled (waitingOp 0), 5, 0, ringGroup, taken rfl (by decide +kernel)
    (by decide +kernel) (by decide +kernel) (by decide +kernel), by decide +kernel, by decide +kernel,
    by decide +kernel, by decide +kernel⟩

theorem test_collStall_meets :
    ∃ (g : Fin 2048) (s : State), (s.group ↑g).state = GroupState.admitted ∧
    (∃ (o : CollOp), o ∈ (s.group ↑g).ops ∧ ∃ (y : Ring), y ∈ o.rings ∧ 8 ≤ y.waited) :=
  ⟨5, signalled (waitingOp 0 8), by decide +kernel⟩

theorem test_collTimeout_meets :
    ∃ (g : Fin 2048) (s : State), (∃ (r : GroupRec), s.groupRec ↑g = some r) ∧
    (∃ (o : CollOp), o ∈ (s.group ↑g).ops ∧ ∃ (y : Ring), y ∈ o.rings ∧ 1024 ≤ y.waited) :=
  ⟨5, signalled (waitingOp 0 1024), ⟨ringGroup, by decide +kernel⟩, by decide +kernel⟩

/-! ### O27: ItemsDrainAndPartialsEnter -/

def drainOp (kind elements sent : Nat) (chunks : List Chunk) : CollOp :=
  { collecting [] with
    kind := kind, elements := elements, queue := 2, hdr := { opcode := 7, record := 0x200, count := true, tag := 9 },
    chunks := chunks, rings := [{ granted := 9, offered := 2, sent := sent }, {}, {}] }
def zeroRead (n : Nat) : ReadBytes := { status := 0, bytes := List.replicate n 0 }
def itemOf (o : CollOp) (v : Nat) : WorkItem :=
  (workItem ringGroup o 0 v).getD
    { step := 99, send := true, copy := true, part_ := 0, chunk := 0, first := 0, len := 0, recv := none }
def sendOp : CollOp := drainOp 0 1024 0 []
def keepOp : CollOp :=
  drainOp 0 16384 3 [{ flight := 0, seqNo := 0, first := 0, step := 1, sums := List.replicate 3840 0, errs := [],
                       raw := [] }]
def copyOp : CollOp := drainOp 1 1024 0 []
def partialGroup : GroupRec := { ringGroup with partialMode := true }
def reducing : TileEntry :=
  { hall := 1, hallGen := 1, context := 0, remote := false, reduce := true, local_ := 2, global := 0, seq := 0,
    tile := 0,
    budget := 10, args := 0, params := 0 }
def partialOp (sent : Nat) : CollOp := drainOp 0 16384 sent []
def partialState (o : CollOp) : State :=
  { signalled o with
    plan := { state := .applied, active := some { plan0 with groups := [partialGroup] } }
    engines := [(0, { present := true, hall := some (1, 1), begun := some reducing }), (1, { present := true })] }
def redHdr (element : Nat) : BitVec 64 := BitVec.ofNat 64 (((5 + 2048 * 1 + 16384 * 0) * 2 ^ 48) + 1 * 2 ^ 32 + element
    / 16)
theorem test_drain_send_meets :
    ∃ (g : Fin 2048) (op : Fin 3) (k : Fin 3) (src : ReadBytes) (s : State) (r : GroupRec) (o : CollOp) (w : WorkItem),
      s.groupRec ↑g = some r ∧
    s.opOf ↑g ↑op = some o ∧
    ↑k ∈ r.flights ∧
    ↑k < o.rings.length ∧
    o.accepted = true ∧
    op ≠ 2 ∧
    workItem r o (↑k) (o.ring ↑k).sent = some w ∧
    s.mayDrain r o (↑k) (o.ring ↑k).sent w = true ∧
    s.rangesStatus o (dataRanges r o (↑k) w) src.status = Status.ok ∧
    (∀ (e : Nat × Engine), e ∈ s.engines → e.snd.redWait = none) ∧
    (o.drained (↑k) (o.ring ↑k).sent w).over r = false ∧
    ¬VaultEntry.groupKey g ∈ s.vault.rederiving ∧
    Settled s ∧
    w.copy = false ∧
    w.send = true ∧
    BitVec.toNat (Tab.get 0 (s.group ↑g).innerCtr ↑k) +
    (fragments
        (if op = 0 then hopBody s r o (↑k) w (itemSums r o (↑k) (o.ring ↑k).sent w src.bytes)
        else
          match List.find? (fun (c : Chunk) => c.flight == ↑k && some c.seqNo == w.recv) o.chunks with
          | some c => c.raw
          | none => src.bytes)).length <
  2 ^ 64 :=
  ⟨5, 0, 0, zeroRead 2048, signalled sendOp, ringGroup, sendOp, itemOf sendOp 0, by decide +kernel⟩

theorem test_drain_keep_meets :
    ∃ (g : Fin 2048) (op : Fin 3) (k : Fin 3) (src : ReadBytes) (s : State) (r : GroupRec) (o : CollOp) (w : WorkItem),
      s.groupRec ↑g = some r ∧
    s.opOf ↑g ↑op = some o ∧
    ↑k ∈ r.flights ∧
    ↑k < o.rings.length ∧
    o.accepted = true ∧
    op ≠ 2 ∧
    workItem r o (↑k) (o.ring ↑k).sent = some w ∧
    s.mayDrain r o (↑k) (o.ring ↑k).sent w = true ∧
    s.rangesStatus o (dataRanges r o (↑k) w) src.status = Status.ok ∧
    (∀ (e : Nat × Engine), e ∈ s.engines → e.snd.redWait = none) ∧
    (o.drained (↑k) (o.ring ↑k).sent w).over r = false ∧
    ¬VaultEntry.groupKey g ∈ s.vault.rederiving ∧
    Settled s ∧
    op = 0 ∧
    w.send = false :=
  ⟨5, 0, 0, zeroRead 15360, signalled keepOp, ringGroup, keepOp, itemOf keepOp 3, by decide +kernel⟩

theorem test_drain_copy_meets :
    ∃ (g : Fin 2048) (op : Fin 3) (k : Fin 3) (src : ReadBytes) (s : State) (r : GroupRec) (o : CollOp) (w : WorkItem),
      s.groupRec ↑g = some r ∧
    s.opOf ↑g ↑op = some o ∧
    ↑k ∈ r.flights ∧
    ↑k < o.rings.length ∧
    o.accepted = true ∧
    op ≠ 2 ∧
    workItem r o (↑k) (o.ring ↑k).sent = some w ∧
    s.mayDrain r o (↑k) (o.ring ↑k).sent w = true ∧
    s.rangesStatus o (dataRanges r o (↑k) w) src.status = Status.ok ∧
    (∀ (e : Nat × Engine), e ∈ s.engines → e.snd.redWait = none) ∧
    (o.drained (↑k) (o.ring ↑k).sent w).over r = false ∧
    ¬VaultEntry.groupKey g ∈ s.vault.rederiving ∧
    Settled s ∧
    op = 1 ∧
    w.copy = true :=
  ⟨5, 1, 0, zeroRead 2048, signalled copyOp, ringGroup, copyOp, itemOf copyOp 0, by decide +kernel⟩

theorem test_partial_open_meets :
    ∃ (p : Fin 256) (hdr : BitVec 64) (l : Line) (s : State) (e : TileEntry) (r : GroupRec) (o : CollOp) (v : Nat)
      (el : Nat), (s.engine ↑p).present = true ∧
    s.inService 3 ↑p = true ∧
    (s.engine ↑p).redWait = none ∧
    (s.engine ↑p).begun = some e ∧
    e.hallGen = (parseRed hdr).hallGen ∧
    (s.hall e.hall).gen = e.hallGen ∧
    s.groupRec ((parseRed hdr).handle % 2048) = some r ∧
    s.opOf ((parseRed hdr).handle % 2048) 0 = some o ∧
    (parseRed hdr).format = 0 ∧
    r.partialMode = true ∧
    o.accepted = true ∧
    o.hall = e.hall ∧
    1 ≤ (parseRed hdr).handle / 2048 % 8 ∧
    (parseRed hdr).handle / 2048 % 8 ≤ contributorCount ((parseRed hdr).handle / 16384) ∧
    (o.contributors = none ∨ o.contributors = some (contributorCount ((parseRed hdr).handle / 16384))) ∧
    resolvePartial r o (parseRed hdr).element 1 = PartialAt.open_ v el ∧
    supplied
    { kind := o.kind, hall := o.hall, queue := o.queue, queueGen := o.queueGen, hdr := o.hdr, context := o.context,
      inFmt := o.inFmt, outFmt := o.outFmt, rounding := o.rounding, src := o.src, dst := o.dst, elements := o.elements,
      chunkFence := o.chunkFence, doneFence := o.doneFence, step := o.step, accepted := o.accepted, tiles := o.tiles,
      rings := o.rings, chunks := o.chunks, completed := o.completed,
      contributors := some (contributorCount ((parseRed hdr).handle / 16384)), counts := o.counts,
      partials := o.partials : CollOp }
    v ((parseRed hdr).handle / 2048 % 8) el =
  false ∧
    (s.putOp ((parseRed hdr).handle % 2048)
        { kind := o.kind, hall := o.hall, queue := o.queue, queueGen := o.queueGen, hdr := o.hdr, context := o.context,
          inFmt := o.inFmt, outFmt := o.outFmt, rounding := o.rounding, src := o.src, dst := o.dst,
          elements := o.elements, chunkFence := o.chunkFence, doneFence := o.doneFence, step := o.step,
          accepted := o.accepted, tiles := o.tiles, rings := o.rings, chunks := o.chunks, completed := o.completed,
          contributors := some (contributorCount ((parseRed hdr).handle / 16384)), counts := o.counts,
          partials := o.partials : CollOp }).fifoFull
    r
    { kind := o.kind, hall := o.hall, queue := o.queue, queueGen := o.queueGen, hdr := o.hdr, context := o.context,
      inFmt := o.inFmt, outFmt := o.outFmt, rounding := o.rounding, src := o.src, dst := o.dst, elements := o.elements,
      chunkFence := o.chunkFence, doneFence := o.doneFence, step := o.step, accepted := o.accepted, tiles := o.tiles,
      rings := o.rings, chunks := o.chunks, completed := o.completed,
      contributors := some (contributorCount ((parseRed hdr).handle / 16384)), counts := o.counts,
      partials := o.partials : CollOp }
    v ((parseRed hdr).handle / 2048 % 8) =
  false :=
  ⟨0, redHdr 8192, 5, partialState (partialOp 0), reducing, partialGroup, partialOp 0, 0, 8192, by decide +kernel⟩

theorem test_partial_drained_meets :
    ∃ (p : Fin 256) (hdr : BitVec 64) (l : Line) (s : State) (e : TileEntry) (r : GroupRec) (o : CollOp),
      (s.engine ↑p).present = true ∧
    s.inService 3 ↑p = true ∧
    (s.engine ↑p).redWait = none ∧
    (s.engine ↑p).begun = some e ∧
    e.hallGen = (parseRed hdr).hallGen ∧
    (s.hall e.hall).gen = e.hallGen ∧
    s.groupRec ((parseRed hdr).handle % 2048) = some r ∧
    s.opOf ((parseRed hdr).handle % 2048) 0 = some o ∧
    (parseRed hdr).format = 0 ∧
    r.partialMode = true ∧
    o.accepted = true ∧
    o.hall = e.hall ∧
    1 ≤ (parseRed hdr).handle / 2048 % 8 ∧
    (parseRed hdr).handle / 2048 % 8 ≤ contributorCount ((parseRed hdr).handle / 16384) ∧
    (o.contributors = none ∨ o.contributors = some (contributorCount ((parseRed hdr).handle / 16384))) ∧
    resolvePartial r o (parseRed hdr).element 1 = PartialAt.drained :=
  ⟨0, redHdr 8192, 5, partialState (partialOp 2), reducing, partialGroup, partialOp 2, by decide +kernel⟩

theorem test_partial_future_meets :
    ∃ (p : Fin 256) (hdr : BitVec 64) (l : Line) (s : State) (e : TileEntry) (r : GroupRec) (o : CollOp),
      (s.engine ↑p).present = true ∧
    s.inService 3 ↑p = true ∧
    (s.engine ↑p).redWait = none ∧
    (s.engine ↑p).begun = some e ∧
    e.hallGen = (parseRed hdr).hallGen ∧
    (s.hall e.hall).gen = e.hallGen ∧
    s.groupRec ((parseRed hdr).handle % 2048) = some r ∧
    s.opOf ((parseRed hdr).handle % 2048) 0 = some o ∧
    (parseRed hdr).format = 0 ∧
    r.partialMode = true ∧
    o.accepted = true ∧
    o.hall = e.hall ∧
    1 ≤ (parseRed hdr).handle / 2048 % 8 ∧
    (parseRed hdr).handle / 2048 % 8 ≤ contributorCount ((parseRed hdr).handle / 16384) ∧
    (o.contributors = none ∨ o.contributors = some (contributorCount ((parseRed hdr).handle / 16384))) ∧
    resolvePartial r o (parseRed hdr).element 1 = PartialAt.future :=
  ⟨0, redHdr 16000, 5, partialState (partialOp 0), reducing, partialGroup, partialOp 0, by decide +kernel⟩

/-! ### O28: MemoryPortsAnswerTheirReads -/

def portState (c : Nat) (o : List MemReq := []) : State :=
    { bQ (qA buf) with ports := [(0, { credits := c, outstanding := o })] }
def slotA : Slot := { state := .inUse, k1 := 11, k2 := 22, hall := 1 }
def lineRead : Dma :=
  { tag := 17, kind := 0, write := false, hall := 1, hallGen := 1, context := 0, index := 0, address := 64,
    length := 64, beats := []
    wait := .lines, seg := 128, segBase := 3, left := 1 }
def lineReq : MemReq :=
  { tag := 3, payer := 1, write := false, block := 6144, mask := 2, why := .dma 0 17, seg := 128, keySlot := 4,
    age := 0, ctrs := [5] }
def lineState : State :=
  { portState 500 [lineReq] with
    engines := [(0, { present := true, dmas := [lineRead] })]
    xlat := { base.xlat with segs := [(128, { sg 3 0 with mode := .sealed })] }, vault := { slots := [(4, slotA)] } }
def rawA : RawLine := { data := 5, sb := 9, poison := false }
def blockState : State := { lineState with protect := { wmReads := [{ port := 0, tag := 17, first := 0 }] } }
theorem test_creditReturn_meets :
    ∃ (m : Fin 48) (s : State) (n : Fin 5), s.inService 2 ↑m = true ∧
    Settled s ∧
    s.core.released = true ∧
    (s.memPort ↑m).waiting = [] ∧
    s.xlat.scrubs = [] ∧
    (s.memPort ↑m).credits + ↑n ≤ 512 :=
  ⟨0, portState 508, 4, by decide +kernel⟩

theorem test_creditOver_meets :
    ∃ (m : Fin 48) (s : State) (n : Fin 5), s.inService 2 ↑m = true ∧
    Settled s ∧
    s.core.released = true ∧
    512 < (s.memPort ↑m).credits + ↑n :=
  ⟨0, portState 509, 4, by decide +kernel⟩

theorem test_memTimeout_meets :
    ∃ (m : Fin 48) (s : State), s.inService 2 ↑m = true ∧
    Settled s ∧
    (s.memPort ↑m).credits < 512 ∧
    ((s.memPort ↑m).outstanding = [] ∨ ∃ (r : MemReq), r ∈ (s.memPort ↑m).outstanding ∧ 1 ≤ r.age) :=
  ⟨0, portState 511, by decide +kernel⟩

theorem test_memResponse_meets :
    ∃ (s : State) (p : Nat) (tag : Nat) (d : Dma) (m : Fin 48) (mtag : BitVec 9) (raw : RawLine) (r : MemReq)
      (j : Nat), Settled s ∧
    p < 256 ∧
    s.dma p tag = some d ∧
    d.left = 1 ∧
    d.write = false ∧
    s.core.released = true ∧
    s.inService 2 ↑m = true ∧
    List.find? (fun (x : MemReq) => x.tag == mtag.toNat) (s.memPort ↑m).outstanding = some r ∧
    r.why = MemWhy.dma p tag ∧
    lanes r.mask = [j] ∧
    (s.memPort ↑m).ues.length < 63 :=
  ⟨lineState, 0, 17, lineRead, 0, 3, rawA, lineReq, 1, by decide +kernel⟩

theorem test_wmResponse_meets :
    ∃ (s : State) (p : Nat) (tag : Nat) (d : Dma) (data : BitVec 2048) (w : WmRead) (rest : List WmRead), Settled s ∧
    p < 256 ∧
    s.dma p tag = some d ∧
    d.left = 1 ∧
    d.write = false ∧
    NoneWaits [DmaWait.wm] s ∧
    s.protect.wmReads = w :: rest ∧
    w.port = p ∧
    w.tag = tag :=
  ⟨blockState, 0, 17, lineRead, 9, {port := 0, tag := 17, first := 0}, [], by decide +kernel⟩

/-! ### O29: FetchedLeavesEnterOrAreLost -/

def nodeTable : Protect := { segMeta := [(128, { base := 0, units := 1, topLevel := 1, topCount := 2 })] }
def nodeBase : State := { portState 500 with xlat := lineState.xlat, protect := nodeTable }
def nodeEntry : CacheEnt :=
  { set := 0, metaLine := nodeBase.metaLine ⟨128, none⟩ 1 1, level := 1, hall := 1, hallGen := 1, index := 1,
    dirty := true
    block := setNodeCtr 0 1 77 }
def nodeReq : MemReq :=
  { tag := 0, payer := 1, write := false, block := 2, mask := 2, why := .node 0 9 false, seg := 128, keySlot := 0,
    age := 0, ctrs := [0] }
def nodeState : State :=
  { lineState with
    engines := [], protect := { nodeTable with cache := [(nodeBase.cacheKey 1 nodeEntry.metaLine, [nodeEntry])] }
    ports := [(0, { credits := 500, outstanding := [nodeReq] })], vault := { slots := [(0, slotA)] } }
theorem test_leafFetched_meets :
    ∃ (k : Fin 8192) (g : Nat) (parent : Nat) (c : ChainLevel) (s : State), s.core.released = true ∧
    Settled s ∧
    NoneWaits [DmaWait.chain] s ∧
    s.protect.evicting = [] ∧
    s.protect.lost = [] ∧
    s.pathReads (s.fetchedTree (↑k) g) g = [0] ∧
    s.cachedNode (s.fetchedTree (↑k) g) 0 g = none ∧
    (∀ (j : Nat),
  j ∈ s.levels (s.fetchedTree (↑k) g) → j ≠ 0 → (s.cachedNode (s.fetchedTree (↑k) g) j (g / 8 ^ j)).isSome = true) ∧
    s.guardOf (s.fetchedTree (↑k) g) 0 g = some parent ∧
    parent ≠ 0 ∧
    parent ≠ lostCtr ∧
    (Tab.get [] s.protect.cache (s.cacheKey (segHall ↑k) (s.metaLine (s.fetchedTree (↑k) g) 0 g))).length < 16 :=
  ⟨128, 9, 77, {copyA := rawA, copyB := none}, nodeState, by decide +kernel⟩

/-! ### O30: TranslationsAreAskedAndAnswered -/

def pageRead : Dma :=
  { tag := 17, kind := 1, write := false, hall := 1, hallGen := 1, context := 0, index := 0, address := 0x500040,
    length := 600
    beats := [], wait := .translation, pages := [(0x650000, 0x12000)] }
def pageWait (t : Option Nat) (pri : Bool) : XlatWait :=
  { func := 1, pasid := 0, page := 0x500000, needRead := true, needWrite := false, tag := t, pri := pri, tries := 0
    waiters := [(0, 17)] }
def otherWait : XlatWait :=
  { func := 1, pasid := 0, page := 0x900000, needRead := true, needWrite := false, tag := some 0, pri := false,
    tries := 0
    waiters := [] }
/-- An engine of hall 1 reads a host page: one translation is asked for its page, the page of its tag entries is known.
  -/
def pageState (w : XlatWait) : State :=
  { bQ (qA buf) with
    vault := { halls := [(1, { hostKey := some 99, bases := [(0, 0x600001)] })] }
    engines := [(0, { present := true, dmas := [pageRead] })]
    xlat := { (bQ (qA buf)).xlat with waits := [otherWait, w], stale := [(1, 0, 0x500000, none)] } }
def pagedState : State :=
  let s := pageState (pageWait none true)
  { s with xlat := { s.xlat with stale := [] }, funcs := [(1, { priOutstanding := 1 })] }
def refusedState : State := { pagedState with xlat := { pagedState.xlat with waits := [pageWait none true] } }
theorem page_ranges_short :
    ((pageState (pageWait (some 1) false)).hostRanges
      { pageRead with pages :=
        ((pageState (pageWait (some 1) false)).hostPages pageRead).map (fun (x : Nat) =>
          (x, if x = 0x500000 then 0x770000 else assoc 0 pageRead.pages x)) }).length ≤ 20 := by
  have hm : 128 ≤ maxRead := Nat.le_min.2 ⟨by decide, Nat.le_max_left _ _⟩
  have h1 : ceilDiv 1024 maxRead ≤ 8 := by
    unfold ceilDiv
    exact Nat.le_of_lt_succ (Nat.div_lt_of_lt_mul (by omega))
  simp only [State.hostRanges]
  rw [if_pos (by decide +kernel), if_pos (by decide +kernel), List.length_append, List.length_map, List.length_append]
  simp only [cutRange, List.length_map, List.length_range]
  refine Nat.le_trans (Nat.add_le_add h1 (by decide +kernel : _ ≤ 12)) (by decide)
theorem page_room_of {n : Nat} (h : n ≤ 20) (u : State) (hu : u.hostTags.length ≤ 4) : u.hostRoom n = true := by
  simp only [State.hostRoom, decide_eq_true_eq]; omega
theorem test_atsCompletion_meets :
    ∃ (f : Fin 64) (pasid : BitVec 20) (page : Nat) (size : Nat) (host : Nat) (wr : Bool) (s : State) (w : XlatWait)
      (p : Nat) (tag : Nat) (d : Dma), Settled s ∧
    (∀ (x : Nat × Nat × Nat × Option Nat), x ∈ s.xlat.stale → ¬(x.fst = ↑f ∧ x.snd.fst = pasid.toNat ∧ x.snd.snd.fst =
      page ∧ x.snd.snd.snd.isSome = true)) ∧
    (List.find? (fun (w : XlatWait) => decide (w.at_ (↑f) pasid.toNat page = true ∧ w.tag.isSome = true ∧ (!w.pri) =
      true ∧ (!w.held) = true)) s.xlat.waits = some w) ∧
    (∀ (x : XlatWait), x ∈ s.xlat.waits → x.tag.isSome = true ∨ x.pri = true ∨ x.held = true) ∧
    w.waiters = [(p, tag)] ∧
    s.dma p tag = some d ∧
    d.write = false ∧
    0 < (s.rec_ ↑f).htcQuota ∧
    (∀ (x : Nat), x ∈ s.hostPages d → x ≠ page → x ∈ List.map Prod.fst d.pages) ∧
    ({ s with xlat := { s.xlat with waits := List.filter (fun (x : XlatWait) => decide (x ≠ w)) s.xlat.waits } } :
      State).hostRoom (s.hostRanges ({ d with pages := List.map (fun (x : Nat) => (x, if x = page then host else assoc
                                              0 d.pages x)) (s.hostPages d) } : Dma)).length = true :=
  ⟨1, 0, 0x500000, 12, 0x770000, true, (pageState (pageWait (some 1) false)), (pageWait (some 1) false), 0, 17,
    pageRead, by decide +kernel, by decide +kernel, by decide +kernel, by decide +kernel, by decide +kernel,
    by decide +kernel, by decide +kernel, by decide +kernel, by decide +kernel, (page_room_of page_ranges_short _
    (by decide +kernel))⟩

theorem test_prgResponse_meets :
    ∃ (f : Fin 64) (pasid : BitVec 20) (page : Nat) (s : State) (w : XlatWait) (k : Nat), Settled s ∧
    ¬(↑f, pasid.toNat, page, none) ∈ s.xlat.stale ∧
    (List.find? (fun (w : XlatWait) => decide (w.at_ (↑f) pasid.toNat page = true ∧ w.pri = true)) s.xlat.waits = some
      w) ∧
    (∀ (x : XlatWait), x ∈ s.xlat.waits → x.held = false) ∧
    ¬({ w with tag := none, pri := false } : XlatWait) ∈ s.xlat.waits ∧
    s.hostRoom 1 = true ∧
    s.freeTags 1 = [k] :=
  ⟨1, 0, 0x500000, pagedState, (pageWait none true), 1, by decide +kernel⟩

theorem test_prgRefused_meets :
    ∃ (f : Fin 64) (pasid : BitVec 20) (page : Nat) (s : State) (w : XlatWait) (p : Nat) (tag : Nat) (d : Dma),
      Settled s ∧
    ¬(↑f, pasid.toNat, page, none) ∈ s.xlat.stale ∧
    (List.find? (fun (w : XlatWait) => decide (w.at_ (↑f) pasid.toNat page = true ∧ w.pri = true)) s.xlat.waits = some
      w) ∧
    (∀ (x : XlatWait), x ∈ s.xlat.waits → x.held = false) ∧
    w.waiters = [(p, tag)] ∧
    s.dma p tag = some d ∧
    p < 256 :=
  ⟨1, 0, 0x500000, pagedState, (pageWait none true), 0, 17, pageRead, by decide +kernel⟩

theorem test_atsInvalidate_meets :
    ∃ (f : Fin 64) (pasid : BitVec 20) (page : Nat) (size : Nat) (s : State), (s.func ↑f).invals.length < 32 :=
  ⟨1, 0, 0x500000, 12, {base with funcs := [(1, {invals := List.replicate 31 (0, [1])})]}, by decide +kernel⟩

theorem test_invalidateCompletion_meets :
    ∃ (f : Fin 64) (s : State) (v : Nat × List Nat), List.find? (fun (v : Nat × List Nat) => v.snd == [])
      (s.func ↑f).invals = some v :=
  ⟨1, {base with funcs := [(1, {invals := [(3, [6]), (4, [])]})]}, ⟨4, []⟩, by decide +kernel⟩

/-! ### O31: HostRequestsCompleteOrRetire -/

def hostReadOf : HostRead :=
  { id := 6, func := 1, funcGen := 0, port := 0, tag := 17, pasid := 0, addr := 0x500040, tags := [0, 1],
    partialWrite := false }
def hostState : State :=
  let s := pageState (pageWait (some 1) false)
  { s with xlat := { s.xlat with hostReads := [hostReadOf] } }
def plainSector (j : Nat) : List Byte := (List.range 512).map fun i => BitVec.ofNat 8 (i + j)
/-- A sector of the read as a chip sealed it under the host key of hall 1. -/
def sealedOf (j : Nat) : Sector :=
  let x := sealedSector 99 5 (hostState.aadOf 1 0 (512 * (pageRead.sector0 + j)) hostKeyField) (plainSector j)
  { cipher := BitVec.ofNat 4096 (leNat x.1), entry := BitVec.ofNat 256 (leNat x.2) }
/-- A sector whose writer byte is a reserved value. -/
def badSector : Sector := { cipher := 0, entry := BitVec.ofNat 256 (2 * 2 ^ 128) }
theorem test_hostRead_bad_meets :
    ∃ (id : ℕ) (xs : List Sector) (s : State) (r : HostRead) (d : Dma), Settled s ∧
    (∀ x ∈ s.xlat.waits, x.tag.isSome = true ∨ x.pri = true ∨ x.held = true) ∧
    List.find? (fun (r : HostRead) => r.id == id) s.xlat.hostReads = some r ∧
    s.dma r.port r.tag = some d ∧
    r.port < 256 ∧
    r.funcGen = (s.func r.func).gen ∧
    d.write = false ∧
    d.status = Status.ok ∧
    xs.length = d.sectors ∧
    none ∈ List.map (fun (x : ℕ × Sector) => s.openSector d.hall d.context (512 * (d.sector0 + x.1)) x.2) ((List.range
      d.sectors).zip xs) :=
  ⟨6, [badSector, badSector], hostState, hostReadOf, pageRead, by decide +kernel⟩

theorem sectors_open :
    (((List.range pageRead.sectors).zip [sealedOf 0, sealedOf 1]).map fun x =>
      hostState.openSector pageRead.hall pageRead.context (512 * (pageRead.sector0 + x.1)) x.2) =
      [plainSector 0, plainSector 1].map some :=
  congrArg₂ (fun a b => [a, b])
    (openSector_sealed hostState 1 0 (512 * (pageRead.sector0 + 0)) 99 5 (plainSector 0) (by decide +kernel)
      (by decide +kernel))
    (openSector_sealed hostState 1 0 (512 * (pageRead.sector0 + 1)) 99 5 (plainSector 1) (by decide +kernel)
      (by decide +kernel))
theorem test_hostRead_opens_meets :
    ∃ (id : ℕ) (xs : List Sector) (s : State) (r : HostRead) (d : Dma) (plain : List (List Byte)), Settled s ∧
    (∀ x ∈ s.xlat.waits, x.tag.isSome = true ∨ x.pri = true ∨ x.held = true) ∧
    List.find? (fun (r : HostRead) => r.id == id) s.xlat.hostReads = some r ∧
    s.dma r.port r.tag = some d ∧
    r.port < 256 ∧
    r.funcGen = (s.func r.func).gen ∧
    d.write = false ∧
    d.status = Status.ok ∧
    xs.length = d.sectors ∧
    List.map (fun (x : ℕ × Sector) => s.openSector d.hall d.context (512 * (d.sector0 + x.1)) x.2) ((List.range
      d.sectors).zip xs) = List.map some plain :=
  ⟨6, [sealedOf 0, sealedOf 1], hostState, hostReadOf, pageRead, [plainSector 0, plainSector 1], by decide +kernel,
    by decide +kernel, by decide +kernel, by decide +kernel, by decide +kernel, by decide +kernel, by decide +kernel,
    by decide +kernel, by decide +kernel, sectors_open⟩

theorem test_functionReset_meets :
    ∃ (f : Fin 64) (s : State), s.xlat.migrations = [] ∧
    s.xlat.writes = [] :=
  ⟨1, hostState, by decide +kernel⟩

/-! ### O32: WithdrawalsEndTheirEntry -/

def withdrawState : State :=
  { bQ (qA buf) with
    xlat := { (bQ (qA buf)).xlat with
      withdrawals := [{ ref := .segment 128, age := 2 }, { ref := .window 7, age := 2 }, { ref := .host 1 3, age := 2 }]
      segs := [(128, { sg 3 0 with mode := .veiled, state := .withdrawing, keyed := true, keySlot := 4 })]
      windows := [(7, { state := .withdrawing })]
      scrubs := [{ entry := 5, set := 0, base := 0, units := 0, mode := .veiled, teardown := false, lost := false }] }
    vault := { slots := [(4, { state := .inUse })] }, funcs := [(1, { invals := [(3, [])] })] }
theorem test_withdrawal_segment_meets :
    ∃ (w : WdRef) (s : State) (x : Withdrawal), List.find? (fun (x : Withdrawal) => decide (x.ref = w))
      s.xlat.withdrawals = some x ∧
    s.withdrawn w = true :=
  ⟨(.segment 128), withdrawState, {ref := .segment 128, age := 2}, by decide +kernel⟩

theorem test_withdrawal_window_meets :
    ∃ (w : WdRef) (s : State) (x : Withdrawal), List.find? (fun (x : Withdrawal) => decide (x.ref = w))
      s.xlat.withdrawals = some x ∧
    s.withdrawn w = true :=
  ⟨(.window 7), withdrawState, {ref := .window 7, age := 2}, by decide +kernel⟩

theorem test_withdrawal_host_meets :
    ∃ (w : WdRef) (s : State) (x : Withdrawal), List.find? (fun (x : Withdrawal) => decide (x.ref = w))
      s.xlat.withdrawals = some x ∧
    s.withdrawn w = true :=
  ⟨(.host 1 3), withdrawState, {ref := .host 1 3, age := 2}, by decide +kernel⟩

theorem test_drainTimeout_meets :
    ∃ (w : WdRef) (s : State) (x : Withdrawal), (List.find? (fun (x : Withdrawal) => decide (x.ref = w ∧ 2 ≤ x.age))
      s.xlat.withdrawals = some x) :=
  ⟨(.segment 128), withdrawState, {ref := .segment 128, age := 2}, by decide +kernel⟩

theorem test_backingScrubDone_meets :
    ∃ (k : Fin 8192) (s : State) (x : Scrub), List.find? (fun (x : Scrub) => x.entry == ↑k && !x.teardown &&
      s.scrubLines x == 0) s.xlat.scrubs = some x :=
  ⟨5, withdrawState, {entry := 5, set := 0, base := 0, units := 0, mode := .veiled, teardown := false, lost := false},
    by decide +kernel⟩

/-! ### O33: BackgroundTrafficKeepsMemoryWhole -/

def heldLine : HeldLine := { hall := 1, seg := 128, line := 3, data := List.replicate 64 7 }
def heldState (x : SegState) : State :=
  { portState 500 with
    xlat := { base.xlat with segs := [(128, { sg 3 0 with mode := .veiled, state := x })] },
      commit := { lines := [heldLine] } }
def treeState : State := { nodeState with ports := [(0, { credits := 500 })] }
theorem test_held_lost_meets :
    ∃ (h : Fin 64) (index : Nat) (s : State) (l : HeldLine), Settled s ∧
    NoneWaits [DmaWait.held] s ∧
    (s.heldLines ↑h)[index]? = some l ∧
    (s.seg l.seg).state = SegState.lost :=
  ⟨1, 0, (heldState .lost), heldLine, by decide +kernel⟩

theorem test_held_valid_meets :
    ∃ (h : Fin 64) (index : Nat) (s : State) (l : HeldLine), Settled s ∧
    NoneWaits [DmaWait.held] s ∧
    (s.heldLines ↑h)[index]? = some l ∧
    (s.seg l.seg).state = SegState.valid ∧
    (s.seg l.seg).mode = SegMode.veiled ∧
    s.heldReady l = true :=
  ⟨1, 0, (heldState .valid), heldLine, by decide +kernel⟩

theorem test_patrol_meets :
    ∃ (m : Fin 48) (raw : RawLine) (s : State), Settled s ∧
    s.core.released = true ∧
    s.canSpend (↑m) patrolPayer 2 [] = true ∧
    s.portLineBusy (↑m) (s.memPort ↑m).patrol = false :=
  ⟨0, rawA, (heldState .valid), by decide +kernel⟩

theorem test_treePatrol_meets :
    ∃ (k : Fin 8192) (level : Nat) (node : Nat) (c : ChainLevel) (parent : Word) (s : State), Settled s ∧
    s.core.released = true ∧
    (s.seg ↑k).state = SegState.valid ∧
    (s.seg ↑k).mode = SegMode.sealed ∧
    level ≤ (s.treeExt (s.treeFor (↑k) (node * 8 ^ level))).topLevel ∧
    node < levelCount (s.leaves ↑k) level ∧
    s.isLost (s.treeFor (↑k) (node * 8 ^ level)) level node = false ∧
    (∀ (e : CacheEnt), s.cachedNode (s.treeFor (↑k) (node * 8 ^ level)) level node = some e → e.dirty = false) ∧
    (s.guardOf (s.treeFor (↑k) (node * 8 ^ level)) level node).getD (BitVec.toNat parent) ≠ 0 ∧
    (s.guardOf (s.treeFor (↑k) (node * 8 ^ level)) level node).getD (BitVec.toNat parent) ≠ lostCtr ∧
    (∀ (q : MemReq),
  q ∈ s.reqsOf (s.seg ↑k).set (s.metaLine (s.treeFor (↑k) (node * 8 ^ level)) level node) → q.why = MemWhy.discard) ∧
    s.canSpend (s.portAt (s.seg ↑k).set (s.metaLine (s.treeFor (↑k) (node * 8 ^ level)) level node)) treePayer 2 [] =
      true ∧
    (0 < level →
  (∀ (q : MemReq),
      q ∈ s.reqsOf (s.seg ↑k).set (s.metaLineB (s.treeFor (↑k) (node * 8 ^ level)) level node) →
        q.why = MemWhy.discard) ∧
    s.canSpend (s.portAt (s.seg ↑k).set (s.metaLineB (s.treeFor (↑k) (node * 8 ^ level)) level node)) treePayer 2 [] =
      true) :=
  ⟨128, 0, 9, {copyA := rawA, copyB := none}, 77, treeState, by decide +kernel⟩

/-! ### O34: SegmentsAreRekeyedAndKeysRederived -/

def rekeyState (m : SegMode) : State :=
  { bQ (qA buf) with
    plan := { state := .applied, active := some { plan0 with core := { plan0.core with rekeyUnits := 50 } } }
    xlat := { base.xlat with segs := [(128, { sg 3 0 with mode := m, keyed := true, keySlot := 4 })] }
    vault := { halls := [(1, { secret := some 7, hostKey := some 9 })]
               slots := [(0, { state := .inUse, hall := 2 }), (4, { state := .inUse, hall := 1, gen := 3 })] } }
def channelOf (b : List Nat) (l : Nat) (st : ChanState := .moving) : Channel :=
  { state := st, hall := 1, context := 0, index := 0, source := 4, target := 1, landing := l, band := b }
def movingState (c : Channel) : State :=
  { rekeyState .veiled with
    vault := { slots := [(1, { state := .rekeyTarget, hall := 1 }), (4,
               { state := .rekeySource, hall := 1, gen := 3, k1 := 11, k2 := 22 })]
               channels := [(3, c)] } }
def zeroRaw : RawLine := { data := 0, sb := 0, poison := false }
theorem zero_decodes : decodeLine zeroRaw = some { data := 0, mac := 0, corrected := false } := by decide +kernel
theorem zero_lines_open (k : Slot) (set b : Nat) (i : Nat) : ∀ j < 64, ∃ d, openLine k .veiled set (lineOf b (64 * i +
    j)) 0
    ((List.replicate 64 zeroRaw).getD j { data := 0, sb := 0, poison := true }) = .plain d false := by
  intro j hj
  have : (List.replicate 64 zeroRaw).getD j { data := 0, sb := 0, poison := true } = zeroRaw := by
    rw [List.getD_eq_getElem?_getD, List.getElem?_replicate, if_pos hj]; rfl
  rw [this, openLine, zero_decodes]
  simp only
  rw [if_neg (by decide +kernel)]
  exact ⟨_, rfl⟩
def brokenState : State :=
  { rekeyState .veiled with
    lc := { lc0 with mp := .firmware }
    vault := { (rekeyState .veiled).vault with epochRoot := some 3, rederiving := [.rootSeed, .memSlot 4] } }
theorem test_rekeyStart_meets :
    ∃ (r : Requester) (data : Word) (s : State) (ch : ℕ) (slot : ℕ), Writable r 7340288 s ∧
    bits data 1 0 = 1 ∧
    s.rekeyCheck (bits data 13 8) (bits data 19 16) (bits data 26 24) = 0 ∧
    s.derives (bits data 13 8) = true ∧
    List.find? (fun (c : ℕ) => decide ((s.channel c).state = ChanState.free)) (List.range 16) = some ch ∧
    s.freeSlot = some slot ∧
    (s.seg (128 * bits data 13 8 + 8 * bits data 19 16 + bits data 26 24)).keySlot ≠ slot :=
  ⟨.mp, 257, (rekeyState .veiled), 0, 1, ⟨by simp, by decide +kernel, by decide +kernel⟩, by decide +kernel,
    by decide +kernel, by decide +kernel, by decide +kernel, by decide +kernel, by decide +kernel⟩

theorem test_groupMove_meets :
    ∃ (c : Fin 16) (lines : List RawLine) (s : State), Settled s ∧
    s.rekeyTurn = some ↑c ∧
    (s.seg (s.channel ↑c).seg).state = SegState.valid ∧
    (s.seg (s.channel ↑c).seg).mode = SegMode.veiled ∧
    lines.length = 64 ∧
    (∀ j < 64, ∃ (d : Line), openLine (s.slot (s.channel ↑c).source) SegMode.veiled (s.seg (s.channel ↑c).seg).set
      (lineOf (s.seg (s.channel ↑c).seg).base (64 * (s.channel ↑c).next + j)) 0 (lines.getD j
      { data := 0, sb := 0, poison := true : RawLine }) = LineRead.plain d false) :=
  ⟨3, (List.replicate 64 zeroRaw), (movingState (channelOf [0] 0)), by decide +kernel, by decide +kernel,
    by decide +kernel, by decide +kernel, by decide +kernel, (zero_lines_open _ _ _ _)⟩

theorem test_groupComplete_meets :
    ∃ (c : Fin 16) (s : State) (g : ℕ) (rest : List ℕ), Settled s ∧
    NoneWaits [DmaWait.rekey] s ∧
    (s.channel ↑c).band = g :: rest :=
  ⟨3, (movingState (channelOf [1023] 1023)), 1023, [], by decide +kernel⟩

theorem test_rekeyCancel_meets :
    ∃ (c : Fin 16) (s : State), Settled s ∧
    NoneWaits [DmaWait.rekey] s ∧
    (s.channel ↑c).state = ChanState.cancelling ∧
    (s.channel ↑c).band = [] ∧
    (s.slot (s.channel ↑c).target).state = SlotState.rekeyTarget ∧
    (s.channel ↑c).source ≠ (s.channel ↑c).target :=
  ⟨3, (movingState (channelOf [] 1023 .cancelling)), by decide +kernel⟩

theorem test_vaultUe_root_meets :
    ∃ (e : VaultEntry) (s : State), Settled s ∧
    s.entryHeld e = true ∧
    s.derivable e = true :=
  ⟨.epochRoot, brokenState, by decide +kernel⟩

theorem test_vaultUe_secret_meets :
    ∃ (h : Fin 64) (s : State), Settled s ∧
    (s.hallKey ↑h).secret.isSome = true :=
  ⟨1, brokenState, by decide +kernel⟩

theorem test_rederiveDone_meets :
    ∃ (e : VaultEntry) (s : State), Settled s ∧
    NoneWaits [DmaWait.rekey] s ∧
    e ∈ s.vault.rederiving ∧
    s.canRederive e = true :=
  ⟨(.memSlot 4), brokenState, by decide +kernel⟩

/-! ### O35: UnitsFenceDrainAndReturn -/

def tileA : TileEntry :=
  { hall := 1, hallGen := 1, context := 0, remote := false, reduce := false, local_ := 2, global := 0, seq := 0,
    tile := 0
    budget := 10, args := 0, params := 0 }
/-- Engine 0 runs a tile; unit 0 of a type stands in the fault table as given. -/
def unitState (t : Nat) (x : UnitState) (rs : List Nat := []) : State :=
  { bL l0 with
    engines := [(0, { present := true, hall := some (1, 1), begun := some tileA })]
    faults := { base.faults with units := [((unitId t 0).toNat, { state := x, cause := Cause.errors, started := true,
                                                                  gen := 3, returns := rs })] }
    xlat := { base.xlat with segs := [(128, { sg 3 0 with mode := .sealed })] } }
theorem test_fence_meets :
    ∃ (r : Requester) (u : BitVec 16) (s : State), Writable r 12582944 s ∧
    s.core.released = true ∧
    unitExists u = true ∧
    (s.unit u).state = UnitState.inService :=
  ⟨.mp, (unitId 2 0), (unitState 2 .inService), ⟨by simp, by decide +kernel, by decide +kernel⟩, by decide +kernel,
    by decide +kernel, by decide +kernel⟩

theorem test_unfence_meets :
    ∃ (r : Requester) (u : BitVec 16) (s : State), Writable r 12582944 s ∧
    s.core.released = true ∧
    unitExists u = true ∧
    ((s.unit u).state = UnitState.fenced ∨ (s.unit u).state = UnitState.permanent) :=
  ⟨.mp, (unitId 4 0), (unitState 4 .fenced), ⟨by simp, by decide +kernel, by decide +kernel⟩, by decide +kernel,
    by decide +kernel, by decide +kernel⟩

theorem test_unfence_waits_meets :
    ∃ (r : Requester) (u : BitVec 16) (s : State), Writable r 12582944 s ∧
    s.core.released = true ∧
    unitExists u = true ∧
    (s.unit u).state = UnitState.fencing ∧
    Settled s :=
  ⟨.mp, (unitId 4 0), (unitState 4 .fencing), ⟨by simp, by decide +kernel, by decide +kernel⟩, by decide +kernel,
    by decide +kernel, by decide +kernel, by decide +kernel⟩

theorem test_fenceDrain_meets :
    ∃ (u : BitVec 16) (s : State), (s.unit u).state = UnitState.fencing ∧
    ((s.unit u).autoReturns = false ∨ (s.unit u).returns.length < 8) :=
  ⟨(unitId 2 0), (unitState 2 .fencing (List.replicate 7 1)), by decide +kernel⟩

theorem test_fenceDrain_permanent_meets :
    ∃ (u : BitVec 16) (s : State), (s.unit u).state = UnitState.fencing ∧
    (s.unit u).autoReturns = true ∧
    8 ≤ (s.unit u).returns.length :=
  ⟨(unitId 2 0), (unitState 2 .fencing (List.replicate 8 1)), by decide +kernel⟩

theorem test_fenceDrain_enable_meets :
    ∃ (u : BitVec 16) (s : State), (s.unit u).state = UnitState.enablePending :=
  ⟨(unitId 2 0), (unitState 2 .enablePending), by decide +kernel⟩

theorem test_unitReturned_meets :
    ∃ (u : BitVec 16) (s : State), (s.unit u).state = UnitState.fenced ∧
    (s.unit u).autoReturns = true ∧
    (s.unit u).started = true ∧
    (s.unit u).quietLeft = 0 :=
  ⟨(unitId 8 0), (unitState 8 .fenced), by decide +kernel⟩

/-! ### O36: ErrorPinAndHistoryAreDriven -/

theorem test_unpin_meets :
    ∃ (r : Requester) (s : State), Writable r 12582920 s ∧
    s.core.mgmtRstLow = false :=
  ⟨.mp, base, ⟨by simp, by decide +kernel, by decide +kernel⟩, by decide +kernel⟩

theorem test_driveLow_meets :
    ∃ (r : Requester) (low : Bool) (s : State), Writable r 12582928 s ∧
    s.core.mgmtRstLow = false :=
  ⟨.mp, true, base, ⟨by simp, by decide +kernel, by decide +kernel⟩, by decide +kernel⟩

theorem test_pulseExpiry_meets :
    ∃ (s : State), s.faults.pulse = true :=
  ⟨{ base with faults := { base.faults with pulse := true } }, by decide +kernel⟩

/-! ### O37: SyncEdgesSteerTheStride -/

def follower : State := { base with timer := { base.timer with syncRole := 2, taken := 5, carry := 3 } }
theorem test_syncEdge_late_meets :
    ∃ (c : ℕ) (recognised : Bool) (s : State) (e : ℤ), s.core.released = true ∧
    s.timer.syncRole = 2 ∧
    recognised = true ∧
    s.timer.spaced c = true ∧
    s.timer.firstAfterLength = false ∧
    e = if 2 * c < strideFclk s.timer.strideCode then (c : Int) - s.act.core.syncDelay else (c : Int) - strideFclk
      s.timer.strideCode - s.act.core.syncDelay :=
  ⟨102600, true, follower, ((102600 : Int) - strideFclk follower.timer.strideCode - follower.act.core.syncDelay),
    by decide +kernel⟩

theorem test_syncEdge_early_meets :
    ∃ (c : ℕ) (recognised : Bool) (s : State) (e : ℤ), s.core.released = true ∧
    s.timer.syncRole = 2 ∧
    recognised = true ∧
    s.timer.spaced c = true ∧
    s.timer.firstAfterLength = false ∧
    e = if 2 * c < strideFclk s.timer.strideCode then (c : Int) - s.act.core.syncDelay else (c : Int) - strideFclk
      s.timer.strideCode - s.act.core.syncDelay :=
  ⟨40, true, follower, (40 - follower.act.core.syncDelay : Int), by decide +kernel⟩

theorem test_syncEdge_ignored_meets :
    ∃ (c : ℕ) (recognised : Bool) (s : State), s.core.released = true ∧
    s.timer.syncRole = 2 ∧
    (recognised = false ∨ s.timer.spaced c = false ∨ s.timer.firstAfterLength = true) :=
  ⟨140, true, { base with timer := { base.timer with syncRole := 2, firstAfterLength := true } }, by decide +kernel⟩

theorem test_syncEdge_leader_meets :
    ∃ (c : ℕ) (recognised : Bool) (s : State), s.core.released = true ∧
    s.timer.syncRole ≠ 2 :=
  ⟨140, true, { base with timer := { base.timer with syncRole := 1 } }, by decide +kernel⟩

theorem test_syncEdge_reset_meets :
    ∃ (c : ℕ) (recognised : Bool) (s : State), s.core.released = false :=
  ⟨140, true, State.reset, by decide +kernel⟩

theorem test_syncLost_meets :
    ∃ (c : ℕ) (recognised : Bool) (s : State), s.timer.syncRole = 2 ∧
    s.timer.syncLost = false ∧
    (4 ≤ s.timer.missedStrides.toNat ∨ 16 ≤ s.timer.clampRun) :=
  ⟨140, true, { base with timer := { base.timer with syncRole := 2, missedStrides := 4 } }, by decide +kernel⟩

theorem test_syncLost_clamped_meets :
    ∃ (c : ℕ) (recognised : Bool) (s : State), s.timer.syncRole = 2 ∧
    s.timer.syncLost = false ∧
    (4 ≤ s.timer.missedStrides.toNat ∨ 16 ≤ s.timer.clampRun) :=
  ⟨140, true, { base with timer := { base.timer with syncRole := 2, clampRun := 16 } }, by decide +kernel⟩

/-! ### O38: SlotsAndBoundariesDriveTheStride -/

def strideState : State :=
  { base with queues := [(258, qA (buf 2))], timer := { strideNum := 5, fclk := 700, slot := 0 } }
theorem test_slotDecision_last_meets :
    ∃ (k : Fin 64) (thermLow : Bool) (fallbacks : List (Fin 64 × DescRead)) (s : State), s.core.released = true ∧
    s.timer.decided = false ∧
    ↑k ≠ 0 ∧
    s.timer.slot < ↑k :=
  ⟨63, true, [], strideState, by decide +kernel⟩

theorem test_slotDecision_first_meets :
    ∃ (k : Fin 64) (thermLow : Bool) (fallbacks : List (Fin 64 × DescRead)) (s : State), s.core.released = true ∧
    s.timer.decided = false ∧
    ↑k = 0 :=
  ⟨0, true, [], strideState, by decide +kernel⟩

theorem test_strideBoundary_meets :
    ∃ (s : State), s.core.released = true ∧
    s.timer.decided = true :=
  ⟨{ strideState with timer := { strideState.timer with decided := true, thermLow := true } }, by decide +kernel⟩

/-! ### O39: HallsDrainScrubAndReset -/

def hallState (x : Hall) : State := { bQ (qA (buf 2)) with halls := [(1, x)] }
def scrubbed (units : Nat) : State :=
  { hallState { state := .scrubbing } with
    xlat := { base.xlat with scrubs := [{ entry := 128, set := 0, base := 0, units := units, mode := .veiled,
                                          teardown := true, lost := false }] } }
theorem test_drainEnd_meets :
    ∃ (h : Fin 64) (s : State), (s.hall ↑h).state = HallState.draining ∧
    (s.hall ↑h).drained = false ∧
    s.hallIdle ↑h = true :=
  ⟨1, (hallState { state := .draining, gen := 3 }), by decide +kernel⟩

theorem test_scrubComplete_meets :
    ∃ (h : Fin 64) (s : State), (s.hall ↑h).state = HallState.scrubbing ∧
    (∀ x ∈ s.toScrub ↑h, s.scrubLines x = 0) :=
  ⟨1, (scrubbed 0), by decide +kernel⟩

theorem test_scrubComplete_early_meets :
    ∃ (h : Fin 64) (s : State), (s.hall ↑h).state = HallState.scrubbing ∧
    (∃ x ∈ s.toScrub ↑h, s.scrubLines x ≠ 0) :=
  ⟨1, (scrubbed 1), by decide +kernel, (⟨_, List.mem_singleton.2 rfl, by decide +kernel⟩)⟩

theorem test_guiltyReset_meets :
    ∃ (h : Fin 64) (q : Fin 256) (s : State), (s.queue ↑h ↑q).state = QState.guilty :=
  ⟨1, 2, (bQ { qA (buf 2) with state := .guilty, wait := .fence 3 4 { opcode := 3, record := 0, count := true,
                                                                      tag := 0 } }), by decide +kernel⟩

/-! ### O40: PlanAndHallCommandsAreTaken -/

def planState (p : PlanUnit) : State := { base with plan := p }
def awaitingSwap : State :=
  { bQ (qA (buf 2)) with
    queues := [(5, qA (buf 2))]
    plan := { base.plan with state := .pending, pending := some plan0, bound := some 3 }
    commit := { base.commit with groups := [(3, { state := .open_, queue := 5, staged := [.planSwap 5] })] } }
def pendingPlan : PlanUnit := { base.plan with state := .pending, pending := some plan0 }
theorem test_planRead_meets :
    ∃ (addr : ℕ) (len : ℕ) (i : ℕ), 4096 * i < len :=
  ⟨0, 10000, 2, by decide +kernel⟩

theorem test_load_meets :
    ∃ (r : Requester) (flash : Bool) (s : State), Writable r 1048600 s ∧
    s.plan.state ≠ PlanState.loading ∧
    s.plan.state ≠ PlanState.pending :=
  ⟨.pf, true, base, ⟨by simp, by decide +kernel, by decide +kernel⟩, by decide +kernel, by decide +kernel⟩

theorem test_load_busy_meets :
    ∃ (r : Requester) (flash : Bool) (s : State), Writable r 1048600 s ∧
    (s.plan.state = PlanState.loading ∨ s.plan.state = PlanState.pending) :=
  ⟨.pf, false, (planState pendingPlan), ⟨by simp, by decide +kernel, by decide +kernel⟩, by decide +kernel⟩

theorem test_cancel_meets :
    ∃ (r : Requester) (flash : Bool) (s : State), Writable r 1048600 s ∧
    s.plan.state = PlanState.pending ∧
    s.plan.bound = none ∧
    s.swapDecided = false :=
  ⟨.pf, false, (planState pendingPlan), ⟨by simp, by decide +kernel, by decide +kernel⟩, by decide +kernel,
    by decide +kernel, by decide +kernel⟩

theorem test_cancel_bound_meets :
    ∃ (r : Requester) (flash : Bool) (s : State) (g : ℕ), Writable r 1048600 s ∧
    s.plan.state = PlanState.pending ∧
    s.plan.bound = some g ∧
    s.swapDecided = false ∧
    (s.cmt 0 g).state = CmtState.open_ ∧
    (∃ a ∈ (s.cmt 0 g).staged, a.isSwap = true) :=
  ⟨.pf, false, awaitingSwap, 3, ⟨by simp, by decide +kernel, by decide +kernel⟩, by decide +kernel, by decide +kernel,
    by decide +kernel, by decide +kernel, by decide +kernel⟩

theorem test_cancel_ignored_meets :
    ∃ (r : Requester) (flash : Bool) (s : State), Writable r 1048600 s ∧
    (s.plan.state ≠ PlanState.pending ∨ s.swapDecided = true) :=
  ⟨.pf, false, base, ⟨by simp, by decide +kernel, by decide +kernel⟩, by decide +kernel⟩

def hallOne (x : Hall) : State := { base with halls := [(1, x)] }
theorem test_teardown_meets :
    ∃ (r : Requester) (h : Fin 64) (s : State), Writable r 2097160 s ∧
    h ≠ 0 ∧
    ((s.hall ↑h).state = HallState.awaitingTenant ∨ (s.hall ↑h).state = HallState.active ∨ (s.hall ↑h).state =
      HallState.paused) :=
  ⟨.pf, 1, (hallOne {state := .awaitingTenant}), ⟨by simp, by decide +kernel, by decide +kernel⟩, by decide +kernel,
    by decide +kernel⟩

theorem test_teardown_refused_meets :
    ∃ (r : Requester) (h : Fin 64) (s : State), Writable r 2097160 s ∧
    (h = 0 ∨ (s.hall ↑h).state ≠ HallState.awaitingTenant ∧ (s.hall ↑h).state ≠ HallState.active ∧ (s.hall ↑h).state ≠
      HallState.paused) :=
  ⟨.pf, 0, base, ⟨by simp, by decide +kernel, by decide +kernel⟩, by decide +kernel⟩

theorem test_resume_meets :
    ∃ (r : Requester) (h : Fin 64) (s : State), Writable r 2097160 s ∧
    (s.hall ↑h).state = HallState.paused ∧
    (s.hall ↑h).teardown = false ∧
    (s.hall ↑h).restore = [] ∧
    s.faults.fatal = false :=
  ⟨.pf, 1, (hallOne {state := .paused}), ⟨by simp, by decide +kernel, by decide +kernel⟩, by decide +kernel,
    by decide +kernel, by decide +kernel, by decide +kernel⟩

theorem test_resume_refused_meets :
    ∃ (r : Requester) (h : Fin 64) (s : State), Writable r 2097160 s ∧
    ((s.hall ↑h).state ≠ HallState.paused ∨ (s.hall ↑h).teardown = true ∨ (s.hall ↑h).restore ≠ [] ∨ s.faults.fatal =
      true) :=
  ⟨.pf, 1, (hallOne {state := .paused, teardown := true}), ⟨by simp, by decide +kernel, by decide +kernel⟩,
    by decide +kernel⟩

/-- Little-endian bytes of a list of (width, value). -/
def fields (l : List (Nat × Nat)) : List Byte := l.flatMap fun x => leBytes x.1 x.2
/-- A plan's header, its section table and its sections CORE, HALLS (hall 0), MEMORY (one set), SEGMENTS (one in working
memory) and LINKS (none used). -/
def planStart : List Byte :=
  fields [(4, 0x4E4C5048), (2, 1), (2, 4), (4, 1856), (2, 6), (2, 0), (8, 7), (40, 0)] ++
  fields ([(1, 192, 64, 1), (2, 256, 64, 1), (5, 320, 16, 1), (6, 384, 32, 1), (7, 448, 16, 20), (3, 768, 4,
    256)].flatMap
    fun (t, off, size, n) => [(1, t), (1, 0), (2, size), (4, off), (4, size * n), (4, n)]) ++ fields [(32, 0)] ++
  fields [(1, 0), (1, 0), (2, 0), (1, 4), (1, 0), (2, 4), (2, 16), (1, 0), (1, 0), (4, 1), (48, 0)] ++
  fields [(1, 0), (1, 3), (2, 100), (2, 100), (58, 0)] ++
  fields [(1, 0), (1, 0), (6, 1), (8, 0), (48, 0)] ++
  fields [(1, 0), (1, 0), (1, 0), (1, 2), (1, 0), (1, 3), (2, 0), (8, 0), (4, 0), (4, 1), (40, 0)] ++
  (List.range 20).flatMap fun n => fields [(1, n), (15, 0)]
/-- The trailer: the digest, as another implementation of FIPS 180-4 computes it, and the reserved bytes. -/
def planEnd : List Byte :=
  bytesOf (0x94d0650ef8a371eb6aee75c3a38f8c12e7d1bb70c8cf1133098a0f9344f1433b5bc417789772ec40f0ab59568c078b68 : BitVec
    384) ++ List.replicate 16 0
/-- The plan as an image: ENGINES, with no engine owned, stands last. -/
def planImage : List Byte := planStart ++ (List.replicate 1024 0 ++ planEnd)
theorem engine_records : recsOf planImage 3 = List.replicate 256 [0, 0, 0, 0] := by
  have hs : sectOf planImage 3 = some { index := 5, type := 3, offset := 768, length := 1024, size := 4, count := 256 }
    := by
    decide +kernel
  have hl : planStart.length = 768 := by decide +kernel
  rw [recsOf, hs, List.eq_replicate_iff]
  refine ⟨by simp, fun b hb => ?_⟩
  obtain ⟨i, hi, rfl⟩ := List.mem_map.1 hb
  have hi : i < 256 := List.mem_range.1 hi
  show slice planImage (768 + i * 4) 4 = List.replicate 4 0
  rw [slice, planImage, ← hl, ← List.drop_drop, List.drop_left,
    List.drop_append_of_le_length (by rw [List.length_replicate]; omega), List.drop_replicate,
    List.take_append_of_le_length (by rw [List.length_replicate]; omega), List.take_replicate,
      Nat.min_eq_left (by omega)]

/-- The tables of the plan. -/
def planTables : Plan :=
  { parsePlan planImage 1856 with engines := List.replicate 256 { owner := .none, nearStack := 0 } }

theorem plan_tables : parsePlan planImage 1856 = planTables := by
  have : (recsOf planImage 3).map parseEngine = List.replicate 256 { owner := .none, nearStack := 0 } := by
    rw [engine_records, List.map_replicate]
    rfl
  simp only [planTables, parsePlan, this]
theorem header_passes : checkHeader planImage 1856 = none := by decide +kernel
theorem trailer_passes : checkTrailer planImage 1856 = none := by decide +kernel
theorem table_passes : checkTable planImage 1856 = none := by decide +kernel
theorem engines_pass : checkSection (fun _ => false) planImage planTables 3 5 = none := by
  simp only [checkSection, engine_records]
  decide +kernel
theorem across_passes : checkAcross planTables = none := by decide +kernel
theorem records_pass (type : Nat) (ht : type ∈ [1, 2, 5, 6, 7]) (x : Sect) (hx : sectOf planImage type = some x) :
  checkSection (fun _ => false) planImage planTables type x.index = none := by
  have : ∀ t ∈ [1, 2, 5, 6, 7], ((sectOf planImage t).map fun x => checkSection (fun _ => false) planImage planTables t
    x.index) = some none := by decide +kernel
  have := this type ht
  rw [hx] at this
  simpa using this
theorem sections_pass : checkSections (fun _ => false) planImage 1856 planTables = none := by
    simp only [checkSections, firstOf, List.findSome?_eq_none_iff, id]
    intro x hx
    obtain ⟨type, ht, hx⟩ := List.mem_flatMap.1 hx
    have hz : ∀ t ∈ [1, 2, 3, 5, 6, 7], ∀ y ∈ (sectOf planImage t).toList,
        zeroAt planImage (endBefore planImage y) (y.offset - endBefore planImage y) Pc.reserved = none ∧
        (if y.index + 1 = (sections planImage).length then
          zeroAt planImage (y.offset + y.length) (1856 - 64 - (y.offset + y.length)) Pc.reserved else none) = none :=
            by decide +kernel
    have hn : ∀ t ∈ [4, 8, 9, 10], sectOf planImage t = none := by decide +kernel
    have hm : type ∈ [1, 2, 3, 5, 6, 7] ∨ type ∈ [4, 8, 9, 10] := by
      clear hx; revert type; decide
    rcases hm with hm | hm
    · cases hs : sectOf planImage type with
      | none => rw [hs] at hx; cases hx
      | some y =>
        obtain ⟨z1, z2⟩ := hz type hm y (by simp [hs])
        have z3 : checkSection (fun _ => false) planImage planTables type y.index = none := by
          by_cases h3 : type = 3
          · subst h3
            have : sectOf planImage 3 = some { index := 5, type := 3, offset := 768, length := 1024, size := 4,
                                               count := 256 } := by
              decide +kernel
            obtain rfl := Option.some.inj (hs.symm.trans this)
            exact engines_pass
          · refine records_pass type ?_ y hs
            revert hm h3; clear hs hx z1 z2
            intro hm h3
            simp at hm ⊢; omega
        rw [hs] at hx
        change x ∈ [_, _, _] at hx
        rw [z1, z2, z3] at hx
        simpa using hx
    · rw [hn type hm] at hx; cases hx
/-- A plan that passes each part of the check is taken with its tables. -/
theorem verified_of {present : Nat → Bool} {p : List Byte} {n : Nat} {t : Plan} (hn : lengthOk n = true) (hl : p.length
    = n)
    (h1 : checkHeader p n = none) (h2 : checkTrailer p n = none) (h3 : checkTable p n = none) (ht : parsePlan p n = t)
    (h4 : checkSections present p n t = none) (h5 : checkAcross t = none) : verifyPlan present n (some p) = .ok t := by
  simp [verifyPlan, hn, hl, h1, h2, h3, ht, h4, h5, firstOf]

theorem plan_verifies : verifyPlan (fun _ => false) 1856 (some planImage) = .ok planTables :=
  verified_of (by decide +kernel) (by decide +kernel) header_passes trailer_passes table_passes plan_tables
    sections_pass across_passes

def loading (target : Word) : State :=
  planState { base.plan with state := .loading, latchedLen := 1856, latchedTarget := target }
def unpopulated (target : Word) : State := { loading target with core := { base.core with engPresent := 0 } }
theorem plan_ok (target : Word) : ∃ p, verifyPlan (fun n => bit (unpopulated target).core.engPresent n) (unpopulated
    target).plan.latchedLen.toNat
    (some planImage) = .ok p := by
  have e : (fun n => bit (unpopulated target).core.engPresent n) = fun _ => false := by
    funext n
    exact Nat.zero_testBit n
  rw [e]
  exact ⟨planTables, plan_verifies⟩
theorem test_planRefused_meets : ∃ (source : Option (List Byte)) (s : State) (f : PlanFail), s.plan.state = .loading ∧
    verifyPlan (fun n => bit s.core.engPresent n) s.plan.latchedLen.toNat source = .error f :=
  ⟨none, loading 0, _, by decide +kernel, rfl⟩

theorem test_planPending_meets : ∃ (source : Option (List Byte)) (s : State) (p : Plan), s.plan.state = .loading ∧
    verifyPlan (fun n => bit s.core.engPresent n) s.plan.latchedLen.toNat source = .ok p ∧
    (s.plan.latchedTarget = 0 ∨ (s.timer.strideNum < s.plan.latchedTarget ∧
      ¬(s.plan.latchedTarget = s.timer.strideNum + 1 ∧ s.timer.decided = true))) :=
  (plan_ok 6).elim fun p hp => ⟨some planImage, unpopulated 6, p, by decide +kernel, hp, by decide +kernel⟩

theorem test_planLate_meets : ∃ (source : Option (List Byte)) (s : State) (p : Plan), s.plan.state = .loading ∧
    verifyPlan (fun n => bit s.core.engPresent n) s.plan.latchedLen.toNat source = .ok p ∧ s.plan.latchedTarget ≠ 0 ∧
    (s.plan.latchedTarget ≤ s.timer.strideNum ∨ (s.plan.latchedTarget = s.timer.strideNum + 1 ∧ s.timer.decided =
      true)) :=
  (plan_ok 5).elim fun p hp => ⟨some planImage, unpopulated 5, p, by decide +kernel, hp, by decide +kernel,
    by decide +kernel⟩

/-! ### O41: LifeCycleTransitionsProgramOtp -/

def lcState (x : LifeCycle) : State := { base with lc := x }
def provisioned : LifeCycle := { lc0 with state := .provisioned, certsOk := true }
def jobOf (b : List (Nat × Nat)) : OtpJob := { bits := b, target := some .fielded }
theorem test_lcRefused_meets :
    ∃ (r : Requester) (s : State) (code : BitVec 3), s.lc.mp ≠ MpState.reset ∧
    Writable r 13631496 s ∧
    (6 ≤ code.toNat ∨ s.lc.state = LcState.scrap ∨ code ≠ 5 ∧ ∀ (x : LcState), s.lc.state.nextState = some x →
      code.toNat ≠ x.code) :=
  ⟨.pf, base, 6, by decide +kernel, ⟨by simp, by decide +kernel, by decide +kernel⟩, by decide +kernel⟩

theorem test_lcBusy_meets :
    ∃ (r : Requester) (s : State) (code : BitVec 3), s.lc.mp ≠ MpState.reset ∧
    Writable r 13631496 s ∧
    code = 3 ∧
    s.lc.state = LcState.provisioned ∧
    s.lc.torn = false ∧
    s.lc.certsOk = true ∧
    (s.lc.job.isSome = true ∨ s.lc.pending = true) :=
  ⟨.pf, (lcState { provisioned with job := some (jobOf [(3, 4)]) }), 3, by decide +kernel, ⟨by simp, by decide +kernel,
    by decide +kernel⟩, by decide +kernel, by decide +kernel, by decide +kernel, by decide +kernel, by decide +kernel⟩

theorem test_lcStarts_meets :
    ∃ (r : Requester) (s : State) (code : BitVec 3) (b : ℕ), s.lc.mp ≠ MpState.reset ∧
    Writable r 13631496 s ∧
    code = 3 ∧
    s.lc.state = LcState.provisioned ∧
    s.lc.torn = false ∧
    s.lc.certsOk = true ∧
    b < 4 ∧
    (∀ i < b, bit (s.lc.word 10) (8 + i) = true) ∧
    bit (s.lc.word 10) (8 + b) = false ∧
    s.lc.job = none ∧
    s.lc.pending = false :=
  ⟨.pf, (lcState { provisioned with otp := [(10, 0x7FF)] }), 3, 3, by decide +kernel, ⟨by simp, by decide +kernel,
    by decide +kernel⟩, by decide +kernel, by decide +kernel, by decide +kernel, by decide +kernel, by decide +kernel,
    by decide +kernel, by decide +kernel, by decide +kernel, by decide +kernel⟩

theorem test_lcCerts_meets :
    ∃ (r : Requester) (s : State) (code : BitVec 3), s.lc.mp ≠ MpState.reset ∧
    Writable r 13631496 s ∧
    code = 3 ∧
    s.lc.state = LcState.provisioned ∧
    s.lc.torn = false ∧
    s.lc.certsOk = false ∧
    s.lc.job = none ∧
    s.lc.pending = false :=
  ⟨.pf, (lcState { provisioned with certsOk := false }), 3, by decide +kernel, ⟨by simp, by decide +kernel,
    by decide +kernel⟩, by decide +kernel, by decide +kernel, by decide +kernel, by decide +kernel, by decide +kernel,
    by decide +kernel⟩

theorem test_otpBit_meets :
    ∃ (s : State) (w : ℕ) (b : ℕ) (rest : List (ℕ × ℕ)) (target : Option LcState) (w' : ℕ) (b' : ℕ) (more : List (ℕ ×
      ℕ)), s.lc.job = some { bits := (w, b) :: rest, target := target : OtpJob } ∧
    target ≠ some LcState.scrap ∧
    rest = (w', b') :: more :=
  ⟨(lcState { lc0 with job := some (jobOf [(3, 4), (3, 5)]), otp := [(3, 0x10F)] }), 3, 4, [(3, 5)], (some .fielded),
    3, 5, [], by decide +kernel⟩

theorem test_otpBit_last_meets :
    ∃ (s : State) (w : ℕ) (b : ℕ) (rest : List (ℕ × ℕ)) (target : Option LcState),
      s.lc.job = some { bits := (w, b) :: rest, target := target : OtpJob } ∧
    target ≠ some LcState.scrap ∧
    rest = [] :=
  ⟨(lcState { lc0 with job := some (jobOf [(3, 31)]), otp := [(3, 0x10F)] }), 3, 31, [], (some .fielded),
    by decide +kernel⟩

theorem test_otpFail_meets :
    ∃ (s : State), s.lc.job.isSome = true :=
  ⟨(lcState { lc0 with job := some (jobOf [(3, 4)]) }), by decide +kernel⟩

theorem test_rightsExpiry_meets :
    ∃ (s : State), s.lc.rights ≠ 0 ∧
    s.lc.limitLeft = 0 :=
  ⟨(lcState { lc0 with rights := 1 }), by decide +kernel⟩

/-! ### O42: PowerAndResetsTakeTheirOwnState -/

def poweredState : State :=
  { bL l0 with
    lc := { lc0 with planLength := 0x1234, planOffset := 77 }
    mailboxes := [(3, { bound := some 4 }), (0, { bound := some 5 })] }
def unreleased : State := { poweredState with core := { poweredState.core with released := false } }
theorem test_powerUp_meets :
    ∃ (s : State), s.core.coreRstLow = true ∧
    s.core.mgmtRstLow = true :=
  ⟨State.reset, by decide +kernel⟩

theorem test_fclkCount_meets :
    ∃ (s : State) (edges : BitVec 16) (hclk : Bool) (lclk : BitVec 20), s.core.pwrGood = true ∧
    s.core.mgmtRstLow = false :=
  ⟨base, 4105, true, 4, by decide +kernel⟩

theorem test_coreReset_meets :
    ∃ (s : State), s.core.coreRstLow = false :=
  ⟨poweredState, by decide +kernel⟩

theorem test_mgmtReset_meets :
    ∃ (s : State), s.core.mgmtRstLow = false :=
  ⟨poweredState, by decide +kernel⟩

theorem test_fabricRelease_meets :
    ∃ (s : State) (present : BitVec 256), s.core.fwRelease = true ∧
    s.core.released = false ∧
    s.core.pwrGood = true ∧
    s.core.mgmtRstLow = false :=
  ⟨unreleased, 7, by decide +kernel⟩

/-! ### O43: BootReadsOtpAndChecksTheImage -/

/-- The digest of 96 zero bytes and of the empty string, as another implementation of FIPS 180-4 computes them. -/
def zeroKeyHash : BitVec 384 :=
    0x17837dd00cd0dd396afd0fdb0385ebb60e4b34f24039becce8835513392ad4c792c5389387c9e6294aaec682edb77bf5
def emptyHash : BitVec 384 :=
    0x5bb99848f1d21ad5fb656fe7bfde4e27dae1f663bfc70c4c4307be1411b7fd216ae3b1b17e32d94c3896ac51a760b038
/-- A chip with power and its MGMT_RST_N low. -/
def offState : State := { core := { pwrGood := true } }
/-- OTP words: a life cycle's bits and the digest of an operator key of zeros. -/
def otpOf (bits10 : BitVec 32) : List (BitVec 32) :=
  (List.replicate 24 0 ++ (List.range 12).map (fun i => BitVec.ofNat 32 (bits zeroKeyHash (32 * i + 31) (32 * i))) ++
    List.replicate 12 0).set 10 bits10
/-- An image header with no code. -/
def headerBytes : List Byte :=
  [0x47, 0x4D, 0x50, 0x46] ++ List.replicate 8 0 ++ [0, 1, 0, 0, 64, 0, 0, 0] ++ List.replicate 108 0 ++ bytesOf
    emptyHash ++
    List.replicate 336 0
def imageA : ImageCheck :=
  { readOk := true, header := BitVec.ofNat 4096 (leNat headerBytes), code := [], sigOk := true, certsPresent := true,
    certsOk := true
    linkChain := [1, 2, 3] }
def romState (state : LcState) : State :=
  { offState with
    core := { offState.core with mgmtRstLow := false, coreRstLow := false }
    lc := { mp := .rom, state := state, otp := ((List.range 48).zip (otpOf 0xFFF)) } }
theorem test_boot_meets :
    ∃ (otp : List (BitVec 32)) (s : State), s.core.mgmtRstLow = true ∧
    s.core.pwrGood = true :=
  ⟨(otpOf 0xFFF), offState, by decide +kernel⟩

theorem test_imageVerified_meets :
    ∃ (c : ImageCheck) (s : State), s.lc.mp = MpState.rom ∧
    s.lc.bootError = 0 ∧
    s.lc.loadsImage = true ∧
    c.readOk = true ∧
    headerOk c = true ∧
    keyHashOk c s.lc = true ∧
    c.sigOk = true ∧
    codeOk c = true ∧
    (s.lc.state = LcState.fielded ∨ s.lc.state = LcState.returned → c.certsPresent = true ∧ c.certsOk = true) :=
  ⟨imageA, (romState .fielded), by decide +kernel⟩

theorem test_imageUnread_meets :
    ∃ (c : ImageCheck) (s : State) (e : BitVec 4), s.lc.mp = MpState.rom ∧
    s.lc.bootError = 0 ∧
    s.lc.loadsImage = true ∧
    (c.readOk = false ∧ e = 1 ∨ c.readOk = true ∧ headerOk c = false ∧ e = 2 ∨ c.readOk = true ∧ headerOk c = true ∧
      keyHashOk c s.lc = false ∧ e = 3 ∨ c.readOk = true ∧ headerOk c = true ∧ keyHashOk c s.lc = true ∧ c.sigOk =
      false ∧ e = 4 ∨ c.readOk = true ∧ headerOk c = true ∧ keyHashOk c s.lc = true ∧ c.sigOk = true ∧ codeOk c = false
      ∧ e = 5 ∨ c.readOk = true ∧ headerOk c = true ∧ keyHashOk c s.lc = true ∧ c.sigOk = true ∧ codeOk c = true ∧
      (s.lc.state = LcState.fielded ∨ s.lc.state = LcState.returned) ∧ (c.certsPresent = false ∨ c.certsOk = false) ∧ e
      = 6) :=
  ⟨{ imageA with readOk := false }, (romState .fielded), 1, by decide +kernel⟩

theorem test_imageHeader_meets :
    ∃ (c : ImageCheck) (s : State) (e : BitVec 4), s.lc.mp = MpState.rom ∧
    s.lc.bootError = 0 ∧
    s.lc.loadsImage = true ∧
    (c.readOk = false ∧ e = 1 ∨ c.readOk = true ∧ headerOk c = false ∧ e = 2 ∨ c.readOk = true ∧ headerOk c = true ∧
      keyHashOk c s.lc = false ∧ e = 3 ∨ c.readOk = true ∧ headerOk c = true ∧ keyHashOk c s.lc = true ∧ c.sigOk =
      false ∧ e = 4 ∨ c.readOk = true ∧ headerOk c = true ∧ keyHashOk c s.lc = true ∧ c.sigOk = true ∧ codeOk c = false
      ∧ e = 5 ∨ c.readOk = true ∧ headerOk c = true ∧ keyHashOk c s.lc = true ∧ c.sigOk = true ∧ codeOk c = true ∧
      (s.lc.state = LcState.fielded ∨ s.lc.state = LcState.returned) ∧ (c.certsPresent = false ∨ c.certsOk = false) ∧ e
      = 6) :=
  ⟨{ imageA with header := 0 }, (romState .fielded), 2, by decide +kernel⟩

theorem test_imageSig_meets :
    ∃ (c : ImageCheck) (s : State) (e : BitVec 4), s.lc.mp = MpState.rom ∧
    s.lc.bootError = 0 ∧
    s.lc.loadsImage = true ∧
    (c.readOk = false ∧ e = 1 ∨ c.readOk = true ∧ headerOk c = false ∧ e = 2 ∨ c.readOk = true ∧ headerOk c = true ∧
      keyHashOk c s.lc = false ∧ e = 3 ∨ c.readOk = true ∧ headerOk c = true ∧ keyHashOk c s.lc = true ∧ c.sigOk =
      false ∧ e = 4 ∨ c.readOk = true ∧ headerOk c = true ∧ keyHashOk c s.lc = true ∧ c.sigOk = true ∧ codeOk c = false
      ∧ e = 5 ∨ c.readOk = true ∧ headerOk c = true ∧ keyHashOk c s.lc = true ∧ c.sigOk = true ∧ codeOk c = true ∧
      (s.lc.state = LcState.fielded ∨ s.lc.state = LcState.returned) ∧ (c.certsPresent = false ∨ c.certsOk = false) ∧ e
      = 6) :=
  ⟨{ imageA with sigOk := false }, (romState .fielded), 4, by decide +kernel⟩

theorem test_imageCode_meets :
    ∃ (c : ImageCheck) (s : State) (e : BitVec 4), s.lc.mp = MpState.rom ∧
    s.lc.bootError = 0 ∧
    s.lc.loadsImage = true ∧
    (c.readOk = false ∧ e = 1 ∨ c.readOk = true ∧ headerOk c = false ∧ e = 2 ∨ c.readOk = true ∧ headerOk c = true ∧
      keyHashOk c s.lc = false ∧ e = 3 ∨ c.readOk = true ∧ headerOk c = true ∧ keyHashOk c s.lc = true ∧ c.sigOk =
      false ∧ e = 4 ∨ c.readOk = true ∧ headerOk c = true ∧ keyHashOk c s.lc = true ∧ c.sigOk = true ∧ codeOk c = false
      ∧ e = 5 ∨ c.readOk = true ∧ headerOk c = true ∧ keyHashOk c s.lc = true ∧ c.sigOk = true ∧ codeOk c = true ∧
      (s.lc.state = LcState.fielded ∨ s.lc.state = LcState.returned) ∧ (c.certsPresent = false ∨ c.certsOk = false) ∧ e
      = 6) :=
  ⟨{ imageA with code := [1] }, (romState .fielded), 5, by decide +kernel⟩

theorem test_imageCerts_meets :
    ∃ (c : ImageCheck) (s : State) (e : BitVec 4), s.lc.mp = MpState.rom ∧
    s.lc.bootError = 0 ∧
    s.lc.loadsImage = true ∧
    (c.readOk = false ∧ e = 1 ∨ c.readOk = true ∧ headerOk c = false ∧ e = 2 ∨ c.readOk = true ∧ headerOk c = true ∧
      keyHashOk c s.lc = false ∧ e = 3 ∨ c.readOk = true ∧ headerOk c = true ∧ keyHashOk c s.lc = true ∧ c.sigOk =
      false ∧ e = 4 ∨ c.readOk = true ∧ headerOk c = true ∧ keyHashOk c s.lc = true ∧ c.sigOk = true ∧ codeOk c = false
      ∧ e = 5 ∨ c.readOk = true ∧ headerOk c = true ∧ keyHashOk c s.lc = true ∧ c.sigOk = true ∧ codeOk c = true ∧
      (s.lc.state = LcState.fielded ∨ s.lc.state = LcState.returned) ∧ (c.certsPresent = false ∨ c.certsOk = false) ∧ e
      = 6) :=
  ⟨{ imageA with certsOk := false }, (romState .fielded), 6, by decide +kernel⟩

theorem test_imageKey_meets :
    ∃ (c : ImageCheck) (s : State) (e : BitVec 4), s.lc.mp = MpState.rom ∧
    s.lc.bootError = 0 ∧
    s.lc.loadsImage = true ∧
    (c.readOk = false ∧ e = 1 ∨ c.readOk = true ∧ headerOk c = false ∧ e = 2 ∨ c.readOk = true ∧ headerOk c = true ∧
      keyHashOk c s.lc = false ∧ e = 3 ∨ c.readOk = true ∧ headerOk c = true ∧ keyHashOk c s.lc = true ∧ c.sigOk =
      false ∧ e = 4 ∨ c.readOk = true ∧ headerOk c = true ∧ keyHashOk c s.lc = true ∧ c.sigOk = true ∧ codeOk c = false
      ∧ e = 5 ∨ c.readOk = true ∧ headerOk c = true ∧ keyHashOk c s.lc = true ∧ c.sigOk = true ∧ codeOk c = true ∧
      (s.lc.state = LcState.fielded ∨ s.lc.state = LcState.returned) ∧ (c.certsPresent = false ∨ c.certsOk = false) ∧ e
      = 6) :=
  ⟨{ imageA with header := imageA.header ||| (1 <<< 400) }, (romState .fielded), 3, by decide +kernel⟩

/-! ### O44: RegisterAccessesFollowTheRights -/

theorem test_read_meets :
    ∃ (addr : ℕ) (be : Byte) (s : State) (r : Requester), addr < 16777216 ∧
    (be = 15 ∨ be = 240 ∨ be = 255) ∧
    (r = Requester.mp ∨ r = Requester.pf ∨ r = Requester.fabric ∨ r = Requester.test) ∧
    s.answers r (blockOf addr) = true ∧
    rightOf r (blockOf addr) ≠ Right.none :=
  ⟨0x100000, 0xFF, base, .mp, by decide +kernel⟩

theorem test_read_denied_meets :
    ∃ (addr : ℕ) (be : Byte) (s : State) (r : Requester), addr < 16777216 ∧
    (be = 15 ∨ be = 240 ∨ be = 255) ∧
    (r = Requester.mp ∨ r = Requester.pf ∨ r = Requester.fabric ∨ r = Requester.test) ∧
    s.answers r (blockOf addr) = true ∧
    rightOf r (blockOf addr) = Right.none :=
  ⟨0x700020, 0xFF, base, .test, by decide +kernel⟩

theorem test_write_denied_meets :
    ∃ (addr : ℕ) (be : Byte) (s : State) (r : Requester) (data : Word), addr < 16777216 ∧
    (be = 15 ∨ be = 240 ∨ be = 255) ∧
    (r = Requester.mp ∨ r = Requester.pf ∨ r = Requester.fabric ∨ r = Requester.test) ∧
    s.answers r (blockOf addr) = true ∧
    Settled s ∧
    rightOf r (blockOf addr) ≠ Right.write :=
  ⟨0x100020, 0xFF, base, .fabric, 5, by decide +kernel⟩

theorem test_write_source_meets :
    ∃ (addr : ℕ) (be : Byte) (s : State) (r : Requester) (data : Word), addr < 16777216 ∧
    (be = 15 ∨ be = 240 ∨ be = 255) ∧
    (r = Requester.mp ∨ r = Requester.pf ∨ r = Requester.fabric ∨ r = Requester.test) ∧
    s.answers r (blockOf addr) = true ∧
    Settled s ∧
    rightOf r (blockOf addr) = Right.write ∧
    addr / 8 * 8 = 1048576 :=
  ⟨0x100004, 0xF0, base, .mp, 5, by decide +kernel⟩

theorem test_write_length_meets :
    ∃ (addr : ℕ) (be : Byte) (s : State) (r : Requester) (data : Word), addr < 16777216 ∧
    (be = 15 ∨ be = 240 ∨ be = 255) ∧
    (r = Requester.mp ∨ r = Requester.pf ∨ r = Requester.fabric ∨ r = Requester.test) ∧
    s.answers r (blockOf addr) = true ∧
    Settled s ∧
    rightOf r (blockOf addr) = Right.write ∧
    addr / 8 * 8 = 1048584 :=
  ⟨0x100008, 0x0F, base, .pf, 5, by decide +kernel⟩

theorem test_write_target_meets :
    ∃ (addr : ℕ) (be : Byte) (s : State) (r : Requester) (data : Word), addr < 16777216 ∧
    (be = 15 ∨ be = 240 ∨ be = 255) ∧
    (r = Requester.mp ∨ r = Requester.pf ∨ r = Requester.fabric ∨ r = Requester.test) ∧
    s.answers r (blockOf addr) = true ∧
    Settled s ∧
    rightOf r (blockOf addr) = Right.write ∧
    addr / 8 * 8 = 1048592 :=
  ⟨0x100014, 0xF0, base, .pf, 5, by decide +kernel⟩

theorem test_write_readOnly_meets :
    ∃ (addr : ℕ) (be : Byte) (s : State) (r : Requester) (data : Word), addr < 16777216 ∧
    (be = 15 ∨ be = 240 ∨ be = 255) ∧
    (r = Requester.mp ∨ r = Requester.pf ∨ r = Requester.fabric ∨ r = Requester.test) ∧
    s.answers r (blockOf addr) = true ∧
    Settled s ∧
    rightOf r (blockOf addr) = Right.write ∧
    addr / 8 * 8 = 1048608 :=
  ⟨0x100020, 0xFF, base, .pf, 5, by decide +kernel⟩

theorem test_write_gallery_meets :
    ∃ (addr : ℕ) (be : Byte) (s : State) (r : Requester) (data : Word), addr < 16777216 ∧
    (be = 15 ∨ be = 240 ∨ be = 255) ∧
    (r = Requester.mp ∨ r = Requester.pf ∨ r = Requester.fabric ∨ r = Requester.test) ∧
    s.answers r (blockOf addr) = true ∧
    Settled s ∧
    rightOf r (blockOf addr) = Right.write ∧
    addr / 8 * 8 = 14680064 :=
  ⟨0xE00000, 0x0F, base, .test, 5, by decide +kernel⟩

theorem test_write_mailbox_meets :
    ∃ (addr : ℕ) (be : Byte) (s : State) (r : Requester) (data : Word), addr < 16777216 ∧
    (be = 15 ∨ be = 240 ∨ be = 255) ∧
    (r = Requester.mp ∨ r = Requester.pf ∨ r = Requester.fabric ∨ r = Requester.test) ∧
    s.answers r (blockOf addr) = true ∧
    Settled s ∧
    rightOf r (blockOf addr) = Right.write ∧
    15728896 ≤ addr ∧
    addr < 15730688 ∧
    s.core.mgmtRstLow = false :=
  ⟨0xF007FF, 0xFF, base, .test, 5, by decide +kernel⟩

theorem test_access_enables_meets :
    ∃ (addr : ℕ) (be : Byte) (s : State) (r : Requester) (data : Word), addr < 16777216 ∧
    ((r = Requester.fabric ∨ r = Requester.test) ∧ be ≠ 15 ∧ be ≠ 240 ∧ be ≠ 255 ∨ r = Requester.reserved 0 ∨ r =
      Requester.reserved 1) ∧
    s.core.mgmtRstLow = false :=
  ⟨0x0, 0xF1, base, .test, 0, by decide +kernel⟩

theorem test_access_enables_write_meets :
    ∃ (addr : ℕ) (be : Byte) (s : State) (r : Requester) (data : Word), addr < 16777216 ∧
    ((r = Requester.fabric ∨ r = Requester.test) ∧ be ≠ 15 ∧ be ≠ 240 ∧ be ≠ 255 ∨ r = Requester.reserved 0 ∨ r =
      Requester.reserved 1) ∧
    s.core.mgmtRstLow = false ∧
    Settled s :=
  ⟨0x0, 0xF1, base, .fabric, 0, by decide +kernel⟩

theorem test_access_reserved_meets :
    ∃ (addr : ℕ) (be : Byte) (s : State) (r : Requester) (data : Word), addr < 16777216 ∧
    ((r = Requester.fabric ∨ r = Requester.test) ∧ be ≠ 15 ∧ be ≠ 240 ∧ be ≠ 255 ∨ r = Requester.reserved 0 ∨ r =
      Requester.reserved 1) ∧
    s.core.mgmtRstLow = false ∧
    Settled s :=
  ⟨0xFFFFF8, 0xFF, base, (.reserved 1), 0, by decide +kernel⟩

theorem test_window_meets :
    ∃ (addr : ℕ) (be : Byte) (s : State) (n : Fin 64) (off : ℕ) (data : Word), addr < 16777216 ∧
    s.core.released = true ∧
    Settled s ∧
    (be = 15 ∨ be = 240 ∨ be = 255) ∧
    be ≠ 240 ∧
    off / 8 * 8 = 12296 ∧
    s.core.mgmtRstLow = false :=
  ⟨0x0, 0x0F, base, 63, 0x3008, 0x1C05, by decide +kernel⟩

theorem test_window_size_meets :
    ∃ (addr : ℕ) (be : Byte) (s : State) (n : Fin 64) (off : ℕ) (data : Word), addr < 16777216 ∧
    s.core.released = true ∧
    Settled s ∧
    be ≠ 15 ∧
    be ≠ 240 ∧
    be ≠ 255 :=
  ⟨0x0, 0xF1, base, 63, 0x3008, 0x1C05, by decide +kernel⟩

/-! ### O45: GalleryKeepsAndForwardsRecords -/

def packetA : Packet := { type := 1, hall := 2, hallGen := 3, seq := 4, stride := 5, offset := 7,
                          body := List.replicate 44 3 }
def galleryA : Gallery := { types := 0x3FF, buffer := List.replicate 14 packetA, route := true }
def galleryState (g : Gallery) : State := { bL l0 with gallery := g, lc := { lc0 with contentActive := 2 } }
def tracedIn (g : Gallery) : Packet :=
  { type := 10, hall := 1, hallGen := 1, seq := g.nextSeq, stride := 5, offset := 100, body := [3] }
def kept : Gallery := { galleryA with route := false }
def full : Gallery := { kept with foreign := List.replicate 242 [] }
theorem test_tracePacket_meets :
    ∃ (s : State) (type : Byte) (h : Byte) (body : List Byte) (p : Packet), s.core.released = true ∧
    type ≠ 7 ∧
    s.traceAllowed (BitVec.toNat type) (BitVec.toNat h) = true ∧
    p = { type := type, hall := h, hallGen := if BitVec.toNat h < 64 then (s.hall (BitVec.toNat h)).gen else 0,
          seq := s.gallery.nextSeq, stride := s.timer.strideNum, offset := s.timer.fclk, body := List.take 44 body :
          Packet } ∧
    s.gallery.buffer.length + s.gallery.foreign.length < 256 ∧
    (s.gallery.route = false ∨ s.gallery.buffer.length < 14) :=
  ⟨(galleryState kept), 10, 1, [3], (tracedIn kept), by decide +kernel⟩

theorem test_tracePacket_leaves_meets :
    ∃ (s : State) (type : Byte) (h : Byte) (body : List Byte) (p : Packet) (n : Fin 20), s.core.released = true ∧
    type ≠ 7 ∧
    s.traceAllowed (BitVec.toNat type) (BitVec.toNat h) = true ∧
    p = { type := type, hall := h, hallGen := if BitVec.toNat h < 64 then (s.hall (BitVec.toNat h)).gen else 0,
          seq := s.gallery.nextSeq, stride := s.timer.strideNum, offset := s.timer.fclk, body := List.take 44 body :
          Packet } ∧
    s.gallery.buffer.length = 14 ∧
    s.gallery.foreign.length < 242 ∧
    s.gallery.route = true ∧
    s.gallery.linkPort.toNat = ↑n ∧
    s.linkUsed ↑n = true ∧
    s.portFenced ↑n = false :=
  ⟨(galleryState galleryA), 10, 1, [3], (tracedIn galleryA), 0, by decide +kernel⟩

theorem test_tracePacket_dropped_meets :
    ∃ (s : State) (type : Byte) (h : Byte) (body : List Byte) (p : Packet), s.core.released = true ∧
    type ≠ 7 ∧
    s.traceAllowed (BitVec.toNat type) (BitVec.toNat h) = true ∧
    p = { type := type, hall := h, hallGen := if BitVec.toNat h < 64 then (s.hall (BitVec.toNat h)).gen else 0,
          seq := s.gallery.nextSeq, stride := s.timer.strideNum, offset := s.timer.fclk, body := List.take 44 body :
          Packet } ∧
    256 ≤ s.gallery.buffer.length + s.gallery.foreign.length :=
  ⟨(galleryState full), 10, 1, [3], (tracedIn full), by decide +kernel⟩

theorem test_tracePacket_barred_meets :
    ∃ (s : State) (type : Byte) (h : Byte) (body : List Byte), s.core.released = true ∧
    BitVec.toNat type ≠ 7 ∧
    (type = 0 ∨ 10 < BitVec.toNat type ∨ bit s.gallery.types (BitVec.toNat type - 1) = false ∨ 8 ≤ BitVec.toNat type ∧
      BitVec.toNat type ≤ 9 ∧ s.debugRight 1 = false ∨ BitVec.toNat type = 10 ∧ (64 ≤ BitVec.toNat h ∨ bit
      s.lc.contentActive (BitVec.toNat h) = false)) :=
  ⟨(galleryState full), 10, 2, [3], by decide +kernel⟩

theorem test_drop_meets :
    ∃ (s : State), s.core.released = true ∧
    s.gallery.dropsPending ≠ 0 ∧
    s.gallery.buffer.length + s.gallery.foreign.length < 256 ∧
    bit s.gallery.types 6 = true ∧
    (s.gallery.route = false ∨ s.gallery.buffer.length < 14) :=
  ⟨(galleryState { kept with dropsPending := 4 }), by decide +kernel⟩

def observeHdr : BitVec 512 := frameHdr fkObserve 2 3 0 960 1 []
def observed (g : Gallery) : List (List Byte) := g.foreign ++ (List.range 15).map fun i => ((List.replicate 960 5).drop
    (64 * i)).take 64
theorem test_observe_meets :
    ∃ (n : Fin 20) (f : RxFrame) (h : BitVec 512) (body : List Byte) (s : State) (all : List (List Byte)),
      FrameTaken (↑n) fkObserve f h body s ∧
    all = s.gallery.foreign ++ List.map (fun (i : ℕ) => List.take 64 (List.drop (64 * i) body)) (List.range
      (body.length / 64)) :=
  ⟨0, (rxOf l0 7 observeHdr (List.replicate 960 5)), observeHdr, (List.replicate 960 5), (galleryState full),
    (observed full), taken rfl (by decide +kernel) (by decide +kernel) (by decide +kernel) (by decide +kernel),
    by decide +kernel⟩

def telemState (depth : Nat) : State :=
  { galleryState { enable := true, segment := 1, context := 1, telemRecords := [(1, List.replicate 1024 3)],
                   depth := BitVec.ofNat 16 depth } with
    xlat := { base.xlat with segs := [(segNo 0 1 1, { sg 3 0 with mode := .veiled })] } }
theorem test_telemetry_dropped_meets :
    ∃ (s : State), Settled s ∧
    s.gallery.ringFits (s.seg (segNo 0 s.gallery.context.toNat s.gallery.segment.toNat)) = false :=
  ⟨(telemState 0x1000), by decide +kernel⟩

theorem test_telemetry_meets :
    ∃ (s : State) (h : ℕ) (rec : List Byte), Settled s ∧
    s.gallery.ringFits (s.seg (segNo 0 s.gallery.context.toNat s.gallery.segment.toNat)) = true ∧
    s.gallery.telemRecords = [(h, rec)] ∧
    s.telemFits h = true :=
  ⟨(telemState 2), 1, (List.replicate 1024 3), by decide +kernel⟩

theorem test_telemetry_waits_meets :
    ∃ (s : State) (h : ℕ) (rec : List Byte), Settled s ∧
    s.gallery.ringFits (s.seg (segNo 0 s.gallery.context.toNat s.gallery.segment.toNat)) = true ∧
    s.gallery.telemRecords = [(h, rec)] ∧
    s.telemFits h = false :=
  ⟨{ telemState 2 with timer := { base.timer with fclk := BitVec.ofNat _ ((telemState 2).strideLen - 3) } }, 1,
    (List.replicate 1024 3), by decide +kernel⟩

/-! ### O46: RingsAreWrittenAndFetched -/

def ringQueue : Queue :=
  { qA (buf 2) with buffer := none, ringAddr := 0x1FFFF0, ringLog2 := 4, readIndex := 7, writeIndex := 9,
                    doorbell := 9 }
def ringWord (n : Nat) : BitVec 128 := BitVec.ofNat 128 (0x1240 + n * 2 ^ 64)
def kernelState (x : Func) : State := { bQ ringQueue with funcs := [(1, x)] }
theorem test_doorbell_meets :
    ∃ (h : Fin 64) (q : Fin 256) (s : State) (data : Word), (s.hall ↑h).state = HallState.active ∧
    (s.queue ↑h ↑q).state ≠ QState.absent ∧
    (s.queue ↑h ↑q).state ≠ QState.destroying ∧
    (BitVec.ofNat 16 (bits data 15 0) - (s.queue ↑h ↑q).readIndex).toNat ≤ 2 ^ (s.queue ↑h ↑q).ringLog2 :=
  ⟨1, 2, (bQ { ringQueue with armed := true }), 23, by decide +kernel⟩

theorem test_doorbell_bad_meets :
    ∃ (h : Fin 64) (q : Fin 256) (s : State) (data : Word), (s.hall ↑h).state = HallState.active ∧
    (s.queue ↑h ↑q).state ≠ QState.absent ∧
    (s.queue ↑h ↑q).state ≠ QState.destroying ∧
    2 ^ (s.queue ↑h ↑q).ringLog2 < (BitVec.ofNat 16 (bits data 15 0) - (s.queue ↑h ↑q).readIndex).toNat :=
  ⟨1, 2, (bQ { ringQueue with armed := true }), 24, by decide +kernel⟩

theorem test_ringEntry_meets :
    ∃ (h : Fin 64) (q : Fin 256) (s : State) (entry : BitVec 128), (s.hall ↑h).state = HallState.active ∧
    (s.queue ↑h ↑q).state = QState.active ∧
    (s.queue ↑h ↑q).buffer = none ∧
    (s.queue ↑h ↑q).wait = CmdWait.none ∧
    (s.queue ↑h ↑q).inv = none ∧
    (s.queue ↑h ↑q).backlog = [] ∧
    (s.queue ↑h ↑q).readIndex ≠ (s.queue ↑h ↑q).writeIndex ∧
    s.bars (↑h) (s.queue ↑h ↑q).context ((s.queue ↑h ↑q).ringAddr + 16 * ((s.queue ↑h ↑q).readIndex.toNat % 2 ^
      (s.queue ↑h ↑q).ringLog2)) 16 = none ∧
    bits entry 5 0 = 0 ∧
    bits entry 63 48 = 0 ∧
    1 ≤ byteField entry 11 8 ∧
    byteField entry 11 8 ≤ 1048576 ∧
    byteField entry 15 12 = 0 :=
  ⟨1, 2, (bQ ringQueue), (ringWord 1048576), by decide +kernel⟩

theorem test_ringEntry_refused_meets :
    ∃ (h : Fin 64) (q : Fin 256) (s : State) (entry : BitVec 128), (s.hall ↑h).state = HallState.active ∧
    (s.queue ↑h ↑q).state = QState.active ∧
    (s.queue ↑h ↑q).buffer = none ∧
    (s.queue ↑h ↑q).wait = CmdWait.none ∧
    (s.queue ↑h ↑q).inv = none ∧
    (s.queue ↑h ↑q).backlog = [] ∧
    (s.queue ↑h ↑q).readIndex ≠ (s.queue ↑h ↑q).writeIndex ∧
    s.bars (↑h) (s.queue ↑h ↑q).context ((s.queue ↑h ↑q).ringAddr + 16 * ((s.queue ↑h ↑q).readIndex.toNat % 2 ^
      (s.queue ↑h ↑q).ringLog2)) 16 = none ∧
    (bits entry 5 0 ≠ 0 ∨ bits entry 63 48 ≠ 0 ∨ byteField entry 11 8 = 0 ∨ 1048576 < byteField entry 11 8 ∨ byteField
      entry 15 12 ≠ 0) :=
  ⟨1, 2, (bQ ringQueue), (ringWord 1048577), by decide +kernel⟩

theorem test_ringEntry_unread_meets :
    ∃ (h : Fin 64) (q : Fin 256) (s : State) (entry : BitVec 128) (answer : Byte) (st : Status),
      (s.hall ↑h).state = HallState.active ∧
    (s.queue ↑h ↑q).state = QState.active ∧
    (s.queue ↑h ↑q).buffer = none ∧
    (s.queue ↑h ↑q).wait = CmdWait.none ∧
    (s.queue ↑h ↑q).inv = none ∧
    (s.queue ↑h ↑q).backlog = [] ∧
    (s.queue ↑h ↑q).readIndex ≠ (s.queue ↑h ↑q).writeIndex ∧
    s.bars (↑h) (s.queue ↑h ↑q).context ((s.queue ↑h ↑q).ringAddr + 16 * ((s.queue ↑h ↑q).readIndex.toNat % 2 ^
      (s.queue ↑h ↑q).ringLog2)) 16 = some st :=
  ⟨1, 2, (bQ { ringQueue with ringAddr := 0x40000000 }), (ringWord 0), 0, .refused, by decide +kernel⟩

theorem test_kringBase_meets :
    ∃ (f : Fin 64) (s : State) (data : Word), s.core.released = true ∧
    (s.func ↑f).kstate = KringState.disabled :=
  ⟨1, (kernelState {}), 0x123456789, by decide +kernel⟩

theorem test_kringBase_ignored_meets :
    ∃ (f : Fin 64) (s : State) (data : Word), (s.func ↑f).kstate ≠ KringState.disabled :=
  ⟨1, (kernelState { kstate := .enabled }), 0x123456789, by decide +kernel⟩

theorem test_kringEnable_meets :
    ∃ (f : Fin 64) (s : State), s.core.released = true ∧
    (s.func ↑f).kstate = KringState.disabled :=
  ⟨1, (kernelState {}), by decide +kernel⟩

theorem test_kringEnable_waits_meets :
    ∃ (f : Fin 64) (s : State), s.core.released = true ∧
    (s.func ↑f).kstate = KringState.disabling :=
  ⟨1, (kernelState { kstate := .disabling }), by decide +kernel⟩

theorem test_kringDisable_meets :
    ∃ (f : Fin 64) (s : State), (s.func ↑f).kstate = KringState.enabled :=
  ⟨1, (kernelState { kstate := .enabled }), by decide +kernel⟩

theorem test_kringDisableDone_meets :
    ∃ (f : Fin 64) (s : State), (s.func ↑f).kstate = KringState.disabling ∧
    (s.func ↑f).retiring = none ∧
    (s.func ↑f).entryDue = false ∧
    Settled s :=
  ⟨1, (kernelState { kstate := .disabling }), by decide +kernel⟩

theorem test_kringReenabled_meets :
    ∃ (f : Fin 64) (s : State), (s.func ↑f).kstate = KringState.enablePending ∧
    (s.func ↑f).retiring = none ∧
    (s.func ↑f).entryDue = false :=
  ⟨1, (kernelState { kstate := .enablePending }), by decide +kernel⟩

theorem test_kringDisable_again_meets :
    ∃ (f : Fin 64) (s : State), (s.func ↑f).kstate = KringState.enablePending :=
  ⟨1, (kernelState { kstate := .enablePending }), by decide +kernel⟩

theorem test_kringDoorbell_meets :
    ∃ (f : Fin 64) (s : State) (data : Word), (s.func ↑f).kstate = KringState.enabled ∧
    ((s.hall ↑f).state = HallState.active ∨ (s.hall ↑f).state = HallState.paused) :=
  ⟨1, (kernelState { kstate := .enabled }), 7, by decide +kernel⟩

/-! ### O47: KernelEntriesManageQueues -/

def dueRecord : CoreWrite := { port := recordPort 1 2, hall := 1, context := 0, va := 64, bytes := [1] }
def kernelQueue (q : Queue) (x : Func := { kstate := .enabled, gen := 3, writeIndex := 4 }) : State :=
  { bQ q with
    funcs := [(1, x)], vault := { base.vault with halls := [(1, { hostKey := some 3, bases := [(16, 0x1001)] })] } }
def kWord (op q : Nat) : BitVec 512 := w512 [(0, [BitVec.ofNat 8 op]), (8, [BitVec.ofNat 8 q])]
def kCreate : BitVec 512 := w512 [(0, [1]), (8, [9]), (10, [15]), (17, [0x10])]
def busyQueue : Queue :=
  { qA (buf 2) with
    buffer := some (buf 2), wait := .fence 3 4 { count := true, record := 0x40 }, readIndex := 3, doorbell := 9 }
theorem test_kNop_meets :
    ∃ (f : Fin 64) (raw : BitVec 512) (s : State), AtKEntry (↑f) 0 raw s ∧
    kNopOk raw = true :=
  ⟨1, (kWord 0 0), (kernelQueue (qA (buf 2))), by decide +kernel⟩

theorem test_kCreate_meets :
    ∃ (f : Fin 64) (raw : BitVec 512) (s : State) (g : ℕ), AtKEntry (↑f) 1 raw s ∧
    kCreateOk raw = true ∧
    (s.queue (↑f) (parseKEntry raw).queue).state = QState.absent ∧
    s.queuesInUse ↑f < (s.rec_ ↑f).queueQuota ∧
    s.hasSegment (↑f) (parseKEntry raw).context = true ∧
    (parseKEntry raw).address % 4096 = 0 ∧
    4 ≤ (parseKEntry raw).ringLog2 ∧
    (parseKEntry raw).ringLog2 ≤ 15 ∧
    s.freeGlobal = some g :=
  ⟨1, kCreate, (kernelQueue (qA (buf 2))), 1, by decide +kernel⟩

theorem test_kCreate_refused_meets :
    ∃ (f : Fin 64) (raw : BitVec 512) (s : State), AtKEntry (↑f) 1 raw s ∧
    ((s.queue (↑f) (parseKEntry raw).queue).state ≠ QState.absent ∨ (s.rec_ ↑f).queueQuota ≤ s.queuesInUse ↑f ∨
      s.hasSegment (↑f) (parseKEntry raw).context = false ∨ (parseKEntry raw).address % 4096 ≠ 0 ∨ (parseKEntry
      raw).ringLog2 < 4 ∨ 15 < (parseKEntry raw).ringLog2) :=
  ⟨1, (kWord 1 2), (kernelQueue (qA (buf 2))), by decide +kernel⟩

theorem test_kDestroy_meets :
    ∃ (f : Fin 64) (raw : BitVec 512) (s : State), AtKEntry (↑f) 2 raw s ∧
    kQueueOk raw = true ∧
    (s.queue (↑f) (parseKEntry raw).queue).state ≠ QState.absent :=
  ⟨1, (kWord 2 2), (kernelQueue busyQueue), by decide +kernel⟩

theorem test_kReset_meets :
    ∃ (f : Fin 64) (raw : BitVec 512) (s : State), AtKEntry (↑f) 3 raw s ∧
    kQueueOk raw = true ∧
    (s.queue (↑f) (parseKEntry raw).queue).state ≠ QState.absent :=
  ⟨1, (kWord 3 2), (kernelQueue busyQueue), by decide +kernel⟩

theorem test_retirement_meets :
    ∃ (f : Fin 64) (raw : BitVec 512) (s : State) (d : Bool) (q : ℕ), (s.func ↑f).retiring = some (d, q) ∧
    s.recordsDue (↑f) q = false :=
  ⟨1, 0, (kernelQueue busyQueue { kstate := .enabled, retiring := some (true, 2) }), true, 2, by decide +kernel⟩

theorem test_retirement_early_meets :
    ∃ (f : Fin 64) (raw : BitVec 512) (s : State) (d : Bool) (q : ℕ), (s.func ↑f).retiring = some (d, q) ∧
    s.recordsDue (↑f) q = true :=
  ⟨1, 0, { kernelQueue busyQueue { kstate := .enabled, retiring := some (true, 2) } with xlat :=
           { base.xlat with writes := [dueRecord] } }, true, 2, by decide +kernel⟩

theorem test_kFence_meets :
    ∃ (f : Fin 64) (raw : BitVec 512) (s : State), AtKEntry (↑f) 4 raw s ∧
    kFenceOk raw = true :=
  ⟨1, (w512 [(0, [4]), (12, [7]), (16, [1, 2])]), (kernelQueue busyQueue), by decide +kernel⟩

theorem test_kReserved_meets :
    ∃ (f : Fin 64) (raw : BitVec 512) (s : State) (op : ℕ), 5 ≤ op ∧
    AtKEntry (↑f) op raw s :=
  ⟨1, (kWord 5 0), (kernelQueue busyQueue), 5, by decide +kernel⟩

theorem test_kUnread_meets :
    ∃ (f : Fin 64) (raw : BitVec 512) (s : State) (answer : Byte) (st : Status), s.atKEntry ↑f = true ∧
    answer ≠ 0 ∧
    s.kringStatus (↑f) answer = st ∧
    st ≠ Status.ok ∧
    st ≠ Status.integrity :=
  ⟨1, (kWord 9 0), (kernelQueue busyQueue), 0x0A, .refused, by decide +kernel⟩

theorem test_kBarred_meets :
    ∃ (f : Fin 64) (raw : BitVec 512) (s : State), s.atKEntry ↑f = true ∧
    byteField raw 0 0 = 0 ∧
    s.kringStatus (↑f) 0 ≠ Status.ok :=
  ⟨1, (kWord 0 0), { kernelQueue busyQueue with vault := {} }, by decide +kernel⟩

/-! ### O48: QueueCommandsComplete -/

def cmdWord (op : Nat) (l : List (Nat × List Byte)) : BitVec 512 := w512 ([(0, [BitVec.ofNat 8 op, 1]), (4, [7]), (8,
    [0x40, 1])] ++ l)
def cmdState (b : Buffer := buf 9) : State := bQ { qA b with completion := 5 }
def fencedState : State := { cmdState with fences := [(4096, 2)] }
def looped (iter : Nat) : Buffer := { buf 9 with loops := [{ start := 0, count := 3, iter := iter }] }
def nested : Buffer := { buf 9 with loops := List.replicate 8 { start := 0, count := 3, iter := 1 } }
theorem test_nop_meets :
    ∃ (h : Fin 64) (q : Fin 256) (raw : BitVec 512) (b : Buffer) (s : State), b.pos + 1 < b.count ∧
    AtCommand (↑h) (↑q) 0 raw b s ∧
    zeroBytes raw 63 16 = true :=
  ⟨1, 2, (cmdWord 0 []), (buf 9), cmdState, by decide +kernel⟩

theorem test_waitFence_meets :
    ∃ (h : Fin 64) (q : Fin 256) (raw : BitVec 512) (b : Buffer) (s : State), b.pos + 1 < b.count ∧
    AtCommand (↑h) (↑q) 2 raw b s ∧
    fenceFieldsOk raw b = true ∧
    fenceValue raw b ≤ s.fence (↑h) (fenceNum raw) :=
  ⟨1, 2, (cmdWord 2 []), (buf 9), cmdState, by decide +kernel⟩

theorem test_waitFence_waits_meets :
    ∃ (h : Fin 64) (q : Fin 256) (raw : BitVec 512) (b : Buffer) (s : State), b.pos + 1 < b.count ∧
    AtCommand (↑h) (↑q) 2 raw b s ∧
    fenceFieldsOk raw b = true ∧
    s.fence (↑h) (fenceNum raw) < fenceValue raw b :=
  ⟨1, 2, (cmdWord 2 [(24, [1])]), (buf 9), cmdState, by decide +kernel⟩

theorem test_signalFence_meets :
    ∃ (h : Fin 64) (q : Fin 256) (raw : BitVec 512) (b : Buffer) (s : State), b.pos + 1 < b.count ∧
    AtCommand (↑h) (↑q) 3 raw b s ∧
    fenceFieldsOk raw b = true :=
  ⟨1, 2, (cmdWord 3 [(16, [0xFF, 0x0F]), (24, [1])]), (buf 9), cmdState, by decide +kernel⟩

theorem test_condSkip_fence_meets :
    ∃ (h : Fin 64) (q : Fin 256) (raw : BitVec 512) (b : Buffer) (s : State) (answer : Byte) (word : Word) (span : List
      Byte) (n : ℕ) (source : Word), b.pos + 1 < b.count ∧
    AtCommand (↑h) (↑q) 4 raw b s ∧
    skipFieldsOk raw = true ∧
    n = byteField raw 23 20 ∧
    b.pos + 1 + n < b.count ∧
    spanBalanced 0 (List.take n span) = true ∧
    (byteField raw 16 16 = 0 ∧ source = s.fence (↑h) (bits raw 155 144) ∨ byteField raw 16 16 = 1 ∧ s.readStatus (↑h)
      (s.queue ↑h ↑q).context (byteField raw 29 24) 8 answer = Status.ok ∧ source = word) ∧
    s.bars (↑h) (s.queue ↑h ↑q).context (b.commandVa + 64) (64 * n) = none :=
  ⟨1, 2, (cmdWord 4 [(20, [3])]), (buf 9), fencedState, 0, 0, [1, 2, 3], 3, 2, by decide +kernel⟩

theorem test_condSkip_word_meets :
    ∃ (h : Fin 64) (q : Fin 256) (raw : BitVec 512) (b : Buffer) (s : State) (answer : Byte) (word : Word) (span : List
      Byte) (n : ℕ) (source : Word), b.pos + 1 < b.count ∧
    AtCommand (↑h) (↑q) 4 raw b s ∧
    skipFieldsOk raw = true ∧
    n = byteField raw 23 20 ∧
    b.pos + 1 + n < b.count ∧
    spanBalanced 0 (List.take n span) = true ∧
    (byteField raw 16 16 = 0 ∧ source = s.fence (↑h) (bits raw 155 144) ∨ byteField raw 16 16 = 1 ∧ s.readStatus (↑h)
      (s.queue ↑h ↑q).context (byteField raw 29 24) 8 answer = Status.ok ∧ source = word) ∧
    s.bars (↑h) (s.queue ↑h ↑q).context (b.commandVa + 64) (64 * n) = none :=
  ⟨1, 2, (cmdWord 4 [(16, [1]), (20, [3]), (24, [8])]), (buf 9), fencedState, 0, 4, [1, 2, 3], 3, 4, by decide +kernel⟩

theorem test_loopBegin_meets :
    ∃ (h : Fin 64) (q : Fin 256) (raw : BitVec 512) (b : Buffer) (s : State), b.pos + 1 < b.count ∧
    AtCommand (↑h) (↑q) 5 raw b s ∧
    zeroBytes raw 63 20 = true ∧
    1 ≤ byteField raw 19 16 ∧
    byteField raw 19 16 ≤ 16777216 ∧
    b.loops.length < 8 :=
  ⟨1, 2, (cmdWord 5 [(19, [1])]), (buf 9), cmdState, by decide +kernel⟩

theorem test_loopEnd_meets :
    ∃ (h : Fin 64) (q : Fin 256) (raw : BitVec 512) (b : Buffer) (s : State) (l : Loop) (outer : List Loop),
      b.pos + 1 < b.count ∧
    AtCommand (↑h) (↑q) 6 raw b s ∧
    zeroBytes raw 63 16 = true ∧
    b.loops = l :: outer :=
  ⟨1, 2, (cmdWord 6 []), (looped 2), (cmdState (looped 2)), {start := 0, count := 3, iter := 2}, [], by decide +kernel⟩

theorem test_loopEnd_again_meets :
    ∃ (h : Fin 64) (q : Fin 256) (raw : BitVec 512) (b : Buffer) (s : State) (l : Loop) (outer : List Loop),
      b.pos + 1 < b.count ∧
    AtCommand (↑h) (↑q) 6 raw b s ∧
    zeroBytes raw 63 16 = true ∧
    b.loops = l :: outer :=
  ⟨1, 2, (cmdWord 6 []), (looped 1), (cmdState (looped 1)), {start := 0, count := 3, iter := 1}, [], by decide +kernel⟩

theorem test_loopBegin_refused_meets :
    ∃ (h : Fin 64) (q : Fin 256) (raw : BitVec 512) (b : Buffer) (s : State), b.pos + 1 < b.count ∧
    AtCommand (↑h) (↑q) 5 raw b s ∧
    (byteField raw 19 16 = 0 ∨ 16777216 < byteField raw 19 16 ∨ 8 ≤ b.loops.length) :=
  ⟨1, 2, (cmdWord 5 [(16, [1])]), nested, (cmdState nested), by decide +kernel⟩

theorem test_loopEnd_refused_meets :
    ∃ (h : Fin 64) (q : Fin 256) (raw : BitVec 512) (b : Buffer) (s : State), b.pos + 1 < b.count ∧
    AtCommand (↑h) (↑q) 6 raw b s ∧
    b.loops = [] :=
  ⟨1, 2, (cmdWord 6 []), (buf 9), cmdState, by decide +kernel⟩

theorem test_reservedOpcode_meets :
    ∃ (h : Fin 64) (q : Fin 256) (raw : BitVec 512) (b : Buffer) (s : State) (op : ℕ), b.pos + 1 < b.count ∧
    11 ≤ op ∧
    AtCommand (↑h) (↑q) op raw b s :=
  ⟨1, 2, (cmdWord 0x0B []), (buf 9), cmdState, 11, by decide +kernel⟩

theorem test_command_unread_meets :
    ∃ (h : Fin 64) (q : Fin 256) (raw : BitVec 512) (b : Buffer) (s : State) (st : Status), b.pos + 1 < b.count ∧
    s.atCommand ↑h ↑q = some b ∧
    byteField raw 0 0 = 0 ∧
    (s.queue ↑h ↑q).openGroup = none ∧
    s.bars (↑h) (s.queue ↑h ↑q).context b.commandVa 64 = some st :=
  ⟨1, 2, (cmdWord 0 []), { buf 9 with base := 0x40000000 }, (cmdState { buf 9 with base := 0x40000000 }), .refused,
    by decide +kernel⟩

/-! ### O49: LongCommandsStartAndEnd -/

def descBits (l : List (Nat × List Byte)) : BitVec 2048 := BitVec.ofNat 2048 ((l.map fun x => leNat x.2 * 2 ^ (8 *
    x.1)).sum)
/-- A descriptor of one wave of one tile, as the core reads it, with its flags. -/
def descOf (flags : Byte := 0) (status : Byte := 0) : DescRead :=
  { descStatus := status, desc := descBits [(0, [1, flags]), (4, [1]), (8, [3]), (12, [100]), (16, [1]), (20, [1])],
    waveStatus := 0
    waves := [] }
def invokeWord : BitVec 512 := cmdWord 1 [(17, [0x10])]
def deadlinePlan : Plan := { plan0 with halls := plan0.halls.map fun r => { r with cls := .deadline } }
def deadlineState : State := { cmdState with plan := { cmdState.plan with active := some deadlinePlan } }
def fenceWaiter : State :=
  { bQ { qA (buf 9) with
      completion := 5, wait := .fence 3 4 { opcode := 2, count := true, tag := 3, record := 0x140 },
        state := .waiting } with
    fences := [(4099, 4)] }
def linkWindow : Window :=
  { state := .valid, gen := 4, kind := 1, size := 0x100, wr := true, rd := true, ownerHall := 1, linkPort := 0 }
def migrateState : State :=
  { bL l0 with
    queues := [(258, qA (buf 9))]
    xlat := { base.xlat with segs := [(128, { sg 3 0 with mode := .veiled })], windows := [(5, linkWindow)] } }
def migrateWord : BitVec 512 := cmdWord 0x0A [(16, [3, 5]), (25, [0x10]), (33, [0x20]), (40, [20])]
theorem test_invoke_meets :
    ∃ (h : Fin 64) (q : Fin 256) (s : State) (raw : BitVec 512) (b : Buffer) (d : DescRead), s.atCommand ↑h ↑q = some b
      ∧
    s.bars (↑h) (s.queue ↑h ↑q).context b.commandVa 64 = none ∧
    byteField raw 0 0 = 1 ∧
    (s.queue ↑h ↑q).openGroup = none ∧
    invokeFieldsOk raw b = true ∧
    s.invokeCheck (↑h) (s.queue ↑h ↑q).context (invokeVa raw b) d false = none ∧
    ((parseDesc d.desc).deadline = true → (s.deadline ↑h).state = DlState.idle) :=
  ⟨1, 2, cmdState, invokeWord, (buf 9), (descOf), by decide +kernel⟩

theorem test_invoke_deadline_meets :
    ∃ (h : Fin 64) (q : Fin 256) (s : State) (raw : BitVec 512) (b : Buffer) (d : DescRead), s.atCommand ↑h ↑q = some b
      ∧
    s.bars (↑h) (s.queue ↑h ↑q).context b.commandVa 64 = none ∧
    byteField raw 0 0 = 1 ∧
    (s.queue ↑h ↑q).openGroup = none ∧
    invokeFieldsOk raw b = true ∧
    s.invokeCheck (↑h) (s.queue ↑h ↑q).context (invokeVa raw b) d false = none ∧
    ((parseDesc d.desc).deadline = true → (s.deadline ↑h).state = DlState.idle) :=
  ⟨1, 2, deadlineState, invokeWord, (buf 9), (descOf 4), by decide +kernel⟩

theorem test_invoke_refused_meets :
    ∃ (h : Fin 64) (q : Fin 256) (s : State) (raw : BitVec 512) (b : Buffer) (d : DescRead) (reason : Byte)
      (st : Status), s.atCommand ↑h ↑q = some b ∧
    s.bars (↑h) (s.queue ↑h ↑q).context b.commandVa 64 = none ∧
    byteField raw 0 0 = 1 ∧
    (s.queue ↑h ↑q).openGroup = none ∧
    invokeFieldsOk raw b = true ∧
    s.invokeCheck (↑h) (s.queue ↑h ↑q).context (invokeVa raw b) d false = some (reason, st) ∧
    b.pos + 1 < b.count :=
  ⟨1, 2, cmdState, invokeWord, (buf 9), (descOf 0 0x0A), 1, .refused, by decide +kernel⟩

theorem test_fenceMet_meets :
    ∃ (h : Fin 64) (q : Fin 256) (s : State) (n : ℕ) (v : Word) (hdr : CmdHdr) (b : Buffer),
      (s.queue ↑h ↑q).wait = CmdWait.fence n v hdr ∧
    hdr.opcode = 2 ∧
    (s.queue ↑h ↑q).state = QState.waiting ∧
    v ≤ s.fence (↑h) n ∧
    (s.queue ↑h ↑q).buffer = some b ∧
    b.pos + 1 < b.count :=
  ⟨1, 2, fenceWaiter, 3, 4, { opcode := 2, count := true, tag := 3, record := 0x140 }, (buf 9), by decide +kernel⟩

theorem test_migrate_meets :
    ∃ (h : Fin 64) (q : Fin 256) (s : State) (raw : BitVec 512) (b : Buffer) (k : ℕ), AtCommand (↑h) (↑q) 10 raw b s ∧
    Settled s ∧
    (parseMigrate raw).direction = 3 ∧
    s.migrateCheck (↑h) (s.queue ↑h ↑q).context (parseMigrate raw) = some k ∧
    s.portFenced (s.win (parseMigrate raw).window).linkPort = false ∧
    s.linkUsed (s.win (parseMigrate raw).window).linkPort = true ∧
    (∀ x ∈ s.xlat.migrations, ¬(x.hall = ↑h ∧ x.queue = ↑q)) :=
  ⟨1, 2, migrateState, migrateWord, (buf 9), 128, by decide +kernel⟩

/-! ### O50: CommitGroupsOpenAndClose -/

def commitState (c : CmtGroup := {}) (o : Option (Nat × Nat) := none) (b : Buffer := buf 9) : State :=
  { bQ { qA b with completion := 5, openGroup := o } with commit := { base.commit with groups := [(64 + 3, c)] } }
def signalA : Action := .signal { opcode := 3 } 3 4
def openOf (recorded staged : List Action) : CmtGroup :=
    { state := .open_, queue := 2, recorded := recorded, staged := staged }
theorem test_commitOpen_meets :
    ∃ (h : Fin 64) (q : Fin 256) (raw : BitVec 512) (b : Buffer) (s : State), s.atCommand ↑h ↑q = some b ∧
    s.bars (↑h) (s.queue ↑h ↑q).context b.commandVa 64 = none ∧
    hdrOk raw = true ∧
    b.pos + 1 < b.count ∧
    byteField raw 0 0 = 8 ∧
    commitFieldsOk raw = true ∧
    (s.queue ↑h ↑q).openGroup = none ∧
    ((s.cmt (↑h) (commitGroupOf raw)).state = CmtState.idle ∨ (s.cmt (↑h) (commitGroupOf raw)).state =
      CmtState.staging) :=
  ⟨1, 2, (cmdWord 8 [(16, [3])]), (buf 9), commitState, by decide +kernel⟩

theorem test_commitOpen_refused_meets :
    ∃ (h : Fin 64) (q : Fin 256) (raw : BitVec 512) (b : Buffer) (s : State), s.atCommand ↑h ↑q = some b ∧
    s.bars (↑h) (s.queue ↑h ↑q).context b.commandVa 64 = none ∧
    hdrOk raw = true ∧
    b.pos + 1 < b.count ∧
    byteField raw 0 0 = 8 ∧
    commitFieldsOk raw = true ∧
    (s.queue ↑h ↑q).openGroup = none ∧
    ((s.cmt (↑h) (commitGroupOf raw)).state = CmtState.open_ ∨ (s.cmt (↑h) (commitGroupOf raw)).state =
      CmtState.closed) :=
  ⟨1, 2, (cmdWord 8 [(16, [3])]), (buf 9), (commitState { state := .closed }), by decide +kernel⟩

theorem test_commitClose_meets :
    ∃ (h : Fin 64) (q : Fin 256) (raw : BitVec 512) (b : Buffer) (s : State) (descs : List DescRead)
      (l : List Machine.Action), s.atCommand ↑h ↑q = some b ∧
    s.bars (↑h) (s.queue ↑h ↑q).context b.commandVa 64 = none ∧
    hdrOk raw = true ∧
    b.pos + 1 < b.count ∧
    byteField raw 0 0 = 9 ∧
    commitFieldsOk raw = true ∧
    (s.queue ↑h ↑q).openGroup = some (commitGroupOf raw, b.loops.length) ∧
    (s.queue ↑h ↑q).openAborted = false ∧
    s.closeActions (↑h) (s.queue ↑h ↑q).context (s.cmt (↑h) (commitGroupOf raw)).recorded descs = some l :=
  ⟨1, 2, (cmdWord 9 [(16, [3])]), (buf 9), (commitState (openOf [signalA] []) (some (3, 0))), [], [signalA],
    by decide +kernel⟩

theorem test_commitRecords_meets :
    ∃ (h : Fin 64) (q : Fin 256) (raw : BitVec 512) (b : Buffer) (s : State) (g : ℕ) (n : ℕ),
      s.atCommand ↑h ↑q = some b ∧
    s.bars (↑h) (s.queue ↑h ↑q).context b.commandVa 64 = none ∧
    hdrOk raw = true ∧
    b.pos + 1 < b.count ∧
    (s.queue ↑h ↑q).openGroup = some (g, n) ∧
    (s.queue ↑h ↑q).openAborted = false ∧
    byteField raw 0 0 = 3 ∧
    fenceFieldsOk raw b = true ∧
    (s.cmt (↑h) g).staged.length + (s.cmt (↑h) g).recorded.length < 4096 :=
  ⟨1, 2, (cmdWord 3 [(16, [3])]), (buf 9), (commitState (openOf [] (List.replicate 4095 signalA)) (some (3, 0))), 3, 0,
    by decide +kernel⟩

theorem test_commitAborts_meets :
    ∃ (h : Fin 64) (q : Fin 256) (raw : BitVec 512) (b : Buffer) (s : State) (g : ℕ) (n : ℕ),
      s.atCommand ↑h ↑q = some b ∧
    s.bars (↑h) (s.queue ↑h ↑q).context b.commandVa 64 = none ∧
    hdrOk raw = true ∧
    b.pos + 1 < b.count ∧
    (s.queue ↑h ↑q).openGroup = some (g, n) ∧
    (s.queue ↑h ↑q).openAborted = false ∧
    byteField raw 0 0 = 0 ∧
    (s.cmt (↑h) g).state = CmtState.open_ ∧
    (s.cmt (↑h) g).queue = ↑q ∧
    (s.cmt (↑h) g).recorded = [] ∧
    (∀ a ∈ (s.cmt (↑h) g).staged, a.isSwap = false) :=
  ⟨1, 2, (cmdWord 0 []), (buf 9), (commitState (openOf [] [.exchange 2 3]) (some (3, 0))), 3, 0, by decide +kernel⟩

/-! ### O51: SpdmMessagesAreAnswered -/

def mailState (m : Nat) (x : SpdmState) (ss : List Session := []) : State :=
  { base with mailboxes := [(m, { spdm := x, sessions := ss })], lc := { lc0 with certsOk := true } }
def opening : Session := { sid := 7, established := false, dritha := false }
def established : Session := { sid := 7, established := true, dritha := false }
theorem test_mail_closed_meets :
    ∃ (m : Fin 65) (sid : ℕ) (s : State), s.mailOpen ↑m = false :=
  ⟨3, 0, State.reset, by decide +kernel⟩

theorem test_getVersion_meets :
    ∃ (m : Fin 65) (s : State) (sid : ℕ), s.mailOpen ↑m = true ∧
    sid = 0 :=
  ⟨64, (mailState 64 .negotiated), 0, by decide +kernel⟩

theorem test_getVersion_session_meets :
    ∃ (m : Fin 65) (s : State) (sid : ℕ), s.mailOpen ↑m = true ∧
    sid ≠ 0 :=
  ⟨3, (mailState 3 .negotiated), 1, by decide +kernel⟩

theorem test_getCapabilities_meets :
    ∃ (m : Fin 65) (s : State), s.mailOpen ↑m = true ∧
    (s.mailbox ↑m).spdm = SpdmState.versioned :=
  ⟨3, (mailState 3 .versioned), by decide +kernel⟩

theorem test_getCapabilities_error_meets :
    ∃ (m : Fin 65) (s : State) (sid : ℕ), s.mailOpen ↑m = true ∧
    (sid ≠ 0 ∨ (s.mailbox ↑m).spdm ≠ SpdmState.versioned) :=
  ⟨3, (mailState 3 .capable), 0, by decide +kernel⟩

theorem test_negotiate_meets :
    ∃ (m : Fin 65) (s : State), s.mailOpen ↑m = true ∧
    (s.mailbox ↑m).spdm = SpdmState.capable :=
  ⟨3, (mailState 3 .capable), by decide +kernel⟩

theorem test_negotiate_error_meets :
    ∃ (m : Fin 65) (s : State) (sid : ℕ) (supported : Bool), s.mailOpen ↑m = true ∧
    (sid ≠ 0 ∨ (s.mailbox ↑m).spdm ≠ SpdmState.capable ∨ supported = false) :=
  ⟨3, (mailState 3 .capable), 0, false, by decide +kernel⟩

theorem test_getDigests_meets :
    ∃ (m : Fin 65) (s : State) (sid : ℕ), s.mailOpen ↑m = true ∧
    (sid = 0 ∧ (s.mailbox ↑m).spdm = SpdmState.negotiated ∨ sid ≠ 0 ∧ HasSession (s.mailbox ↑m) sid) ∧
    s.lc.certsOk = true :=
  ⟨3, (mailState 3 .negotiated), 0, by decide +kernel⟩

theorem test_getDigests_session_meets :
    ∃ (m : Fin 65) (s : State) (sid : ℕ), s.mailOpen ↑m = true ∧
    (sid = 0 ∧ (s.mailbox ↑m).spdm = SpdmState.negotiated ∨ sid ≠ 0 ∧ HasSession (s.mailbox ↑m) sid) ∧
    s.lc.certsOk = true :=
  ⟨3, (mailState 3 .negotiated [established]), 7, by decide +kernel⟩

theorem test_getCertificate_meets :
    ∃ (m : Fin 65) (s : State) (sid : ℕ) (slot : Byte), s.mailOpen ↑m = true ∧
    (sid = 0 ∧ (s.mailbox ↑m).spdm = SpdmState.negotiated ∨ sid ≠ 0 ∧ HasSession (s.mailbox ↑m) sid) ∧
    s.lc.certsOk = true ∧
    BitVec.toNat slot ≤ 1 :=
  ⟨3, (mailState 3 .negotiated), 0, 1, by decide +kernel⟩

theorem test_getMeasurements_meets :
    ∃ (m : Fin 65) (s : State) (sid : ℕ), s.mailOpen ↑m = true ∧
    (sid = 0 ∧ (s.mailbox ↑m).spdm = SpdmState.negotiated ∨ sid ≠ 0 ∧ HasSession (s.mailbox ↑m) sid) :=
  ⟨3, (mailState 3 .negotiated), 0, by decide +kernel⟩

theorem test_chunkSend_meets :
    ∃ (m : Fin 65) (s : State) (sid : ℕ) (last : Bool) (bytes : ℕ), s.mailOpen ↑m = true ∧
    (sid = 0 ∧ (s.mailbox ↑m).spdm = SpdmState.negotiated ∨ sid ≠ 0 ∧ HasSession (s.mailbox ↑m) sid) ∧
    0 < bytes ∧
    bytes ≤ 1792 ∧
    (s.mailbox ↑m).large + bytes ≤ 16777216 :=
  ⟨3, (mailState 3 .negotiated), 0, true, 1792, by decide +kernel⟩

theorem test_challenge_meets :
    ∃ (m : Fin 65) (s : State) (slot : Byte), s.mailOpen ↑m = true ∧
    (s.mailbox ↑m).spdm = SpdmState.negotiated ∧
    s.lc.certsOk = true ∧
    BitVec.toNat slot ≤ 1 :=
  ⟨3, (mailState 3 .negotiated), 1, by decide +kernel⟩

theorem test_slot_error_meets :
    ∃ (m : Fin 65) (s : State) (sid : ℕ) (slot : Byte), s.mailOpen ↑m = true ∧
    (s.lc.certsOk = false ∨ 2 ≤ BitVec.toNat slot) :=
  ⟨3, (mailState 3 .negotiated), 0, 2, by decide +kernel⟩

theorem test_keyExchange_meets :
    ∃ (m : Fin 65) (sid : ℕ) (s : State) (slot : Byte), s.mailOpen ↑m = true ∧
    sid ≠ 0 ∧
    (s.mailbox ↑m).spdm = SpdmState.negotiated ∧
    s.lc.certsOk = true ∧
    BitVec.toNat slot ≤ 1 ∧
    (∀ x ∈ (s.mailbox ↑m).sessions, x.sid ≠ sid) :=
  ⟨3, 7, (mailState 3 .negotiated), 1, by decide +kernel⟩

theorem test_keyExchange_error_meets :
    ∃ (m : Fin 65) (sid : ℕ) (s : State) (slot : Byte), s.mailOpen ↑m = true ∧
    sid ≠ 0 ∧
    ((s.mailbox ↑m).spdm ≠ SpdmState.negotiated ∨ s.lc.certsOk = false ∨ 2 ≤ BitVec.toNat slot) :=
  ⟨3, 7, (mailState 3 .negotiated), 2, by decide +kernel⟩

theorem test_finish_meets :
    ∃ (m : Fin 65) (sid : ℕ) (s : State) (x : Session), s.mailOpen ↑m = true ∧
    sid ≠ 0 ∧
    List.find? (fun (x : Session) => x.sid == sid) (s.mailbox ↑m).sessions = some x ∧
    x.established = false :=
  ⟨3, 7, (mailState 3 .negotiated [opening]), opening, by decide +kernel⟩

theorem test_heartbeat_meets :
    ∃ (m : Fin 65) (sid : ℕ) (s : State), s.mailOpen ↑m = true ∧
    sid ≠ 0 ∧
    HasSession (s.mailbox ↑m) sid :=
  ⟨3, 7, (mailState 3 .negotiated [established]), by decide +kernel⟩

theorem test_sessionTimeout_meets :
    ∃ (m : Fin 65) (sid : ℕ) (s : State), s.mailOpen ↑m = true ∧
    sid ≠ 0 :=
  ⟨3, 7, (mailState 3 .negotiated [opening]), by decide +kernel⟩

/-! ### O52: DrithaRequestsAreChecked -/

/-- A Dritha request: its code, payload and session, whether more follows, its total length and its reserved bits. -/
def reqOf (code : Nat) (p : List Byte := []) (sid : Nat := 7) (more : Bool := false) (tot : Nat := p.length)
    (res : Nat := 0) : DReq :=
  { sid := sid, hdr := BitVec.ofNat 128 (code + (if more then 256 else 0) + 65536 * res + tot * 2 ^ 32), payload := p }
/-- The running chip with one established session, 7, on a mailbox. -/
def boundState (m : Nat := 1) (bd : Option Nat := some 7) (dritha : Bool := false) : State :=
  { base with mailboxes := [(m, { sessions := [{ sid := 7, established := true, dritha := dritha }], bound := bd })] }
theorem test_dritha_header_meets :
    ∃ (m : Fin 65) (d : DReq) (s : State), s.mailOpen ↑m = true ∧
    reqCode d = 4 ∧
    d.sid ≠ 0 ∧
    HasSession (s.mailbox ↑m) d.sid ∧
    reqHdrOk d = false :=
  ⟨1, (reqOf 4 [] 7 false 0 5), (boundState), by decide +kernel⟩

theorem test_dritha_unbound_meets :
    ∃ (m : Fin 65) (d : DReq) (s : State), s.mailOpen ↑m = true ∧
    reqCode d = 4 ∧
    d.sid ≠ 0 ∧
    HasSession (s.mailbox ↑m) d.sid ∧
    reqHdrOk d = true ∧
    ¬Bound (↑m) d s :=
  ⟨1, (reqOf 4), (boundState 1 none), by decide +kernel⟩

theorem test_dritha_fragment_meets :
    ∃ (m : Fin 65) (d : DReq) (s : State), s.mailOpen ↑m = true ∧
    reqCode d = 4 ∧
    d.sid ≠ 0 ∧
    HasSession (s.mailbox ↑m) d.sid ∧
    reqHdrOk d = true ∧
    Bound (↑m) d s ∧
    reqOffset d = 0 ∧
    reqMore d = true ∧
    d.payload ≠ [] ∧
    d.payload.length ≤ 1024 ∧
    d.payload.length < reqTotal d :=
  ⟨1, (reqOf 4 (List.replicate 1024 1) 7 true 1025), (boundState), by decide +kernel⟩

theorem test_dritha_total_meets :
    ∃ (m : Fin 65) (d : DReq) (s : State), s.mailOpen ↑m = true ∧
    reqCode d = 4 ∧
    d.sid ≠ 0 ∧
    HasSession (s.mailbox ↑m) d.sid ∧
    reqHdrOk d = true ∧
    Bound (↑m) d s ∧
    reqOffset d = 0 ∧
    reqMore d = false ∧
    (reqTotal d ≠ d.payload.length ∨ 1024 < d.payload.length) :=
  ⟨1, (reqOf 4 [1, 2, 3] 7 false 9), (boundState), by decide +kernel⟩

theorem test_dritha_length_meets :
    ∃ (m : Fin 65) (d : DReq) (s : State), s.mailOpen ↑m = true ∧
    reqCode d = 4 ∧
    d.sid ≠ 0 ∧
    HasSession (s.mailbox ↑m) d.sid ∧
    reqHdrOk d = true ∧
    Bound (↑m) d s ∧
    reqOffset d = 0 ∧
    reqMore d = false ∧
    reqTotal d = d.payload.length ∧
    d.payload ≠ [] ∧
    d.payload.length ≤ 1024 :=
  ⟨1, (reqOf 4 [1]), (boundState), by decide +kernel⟩

theorem test_dritha_noSession_meets :
    ∃ (m : Fin 65) (d : DReq) (s : State), s.mailOpen ↑m = true ∧
    reqCode d = 4 ∧
    d.sid ≠ 0 ∧
    ¬HasSession (s.mailbox ↑m) d.sid :=
  ⟨1, (reqOf 4 [] 8), (boundState), by decide +kernel⟩

theorem test_dritha_plain_meets :
    ∃ (m : Fin 65) (d : DReq) (s : State), s.mailOpen ↑m = true ∧
    reqCode d = 4 ∧
    d.sid = 0 :=
  ⟨1, (reqOf 4 [] 0), (boundState), by decide +kernel⟩

/-! ### O53: TenantsBindAndSetTheirHall -/

def awaiting : State :=
  { boundState 1 none with halls := [(1, { state := .awaitingTenant, gen := 2 })], vault := { epochRoot := some 7 } }
def activeHall (k : Option (BitVec 256)) : State :=
  { awaiting with halls := [(1, { state := .active, gen := 2 })], vault := { halls := [(1, { hostKey := k })] } }
def tagRequest : DReq := reqOf 3 ([0xFF] ++ List.replicate 7 0 ++ [0x20, 1] ++ List.replicate 6 0)
theorem test_contribute_meets :
    ∃ (m : Fin 65) (d : DReq) (s : State), Asked (↑m) d 1 s ∧
    m ≠ 0 ∧
    m ≠ 64 ∧
    Settled s ∧
    s.faults.fatal = false ∧
    s.lc.noKeys = false ∧
    s.vault.epochRoot.isSome = true ∧
    VaultEntry.epochRoot ∉ s.vault.rederiving ∧
    (∀ e ∈ s.vault.slots, e.2.hall = ↑m → e.2.state = SlotState.free) ∧
    (s.hall ↑m).state = HallState.awaitingTenant ∧
    (s.hallKey ↑m).secret = none ∧
    d.payload.length = 32 :=
  ⟨1, (reqOf 1 (List.replicate 32 5)), awaiting, by decide +kernel⟩

theorem test_contribute_refused_meets :
    ∃ (m : Fin 65) (d : DReq) (s : State), Asked (↑m) d 1 s ∧
    m ≠ 0 ∧
    m ≠ 64 ∧
    Settled s ∧
    (s.hall ↑m).state = HallState.active :=
  ⟨1, (reqOf 1 (List.replicate 32 5)), (activeHall none), by decide +kernel⟩

theorem test_bind_meets :
    ∃ (m : Fin 65) (d : DReq) (s : State) (macOk : Bool), Asked (↑m) d 2 s ∧
    m ≠ 0 ∧
    m ≠ 64 ∧
    (s.mailbox ↑m).bound ≠ some d.sid ∧
    (∀ x ∈ (s.mailbox ↑m).sessions, x.sid = d.sid → x.dritha = false) ∧
    ((s.hall ↑m).state = HallState.active ∨ (s.hall ↑m).state = HallState.paused) ∧
    d.payload.length = 48 ∧
    macOk = true ∧
    (s.hallKey ↑m).hostKey.isSome = true :=
  ⟨1, (reqOf 2 (List.replicate 48 5)), (activeHall (some 4)), true, by decide +kernel⟩

theorem test_bind_refused_meets :
    ∃ (m : Fin 65) (d : DReq) (s : State) (macOk : Bool), Asked (↑m) d 2 s ∧
    m ≠ 0 ∧
    m ≠ 64 ∧
    (s.mailbox ↑m).bound ≠ some d.sid ∧
    (∀ x ∈ (s.mailbox ↑m).sessions, x.sid = d.sid → x.dritha = false) ∧
    ((s.hall ↑m).state = HallState.active ∨ (s.hall ↑m).state = HallState.paused) ∧
    d.payload.length = 48 ∧
    (macOk = false ∨ (s.hallKey ↑m).hostKey = none) :=
  ⟨1, (reqOf 2 (List.replicate 48 5)), (activeHall none), true, by decide +kernel⟩

theorem test_setTagBase_meets :
    ∃ (m : Fin 65) (d : DReq) (s : State) (ctx : ℕ) (base : ℕ), Asked (↑m) d 3 s ∧
    (Bound (↑m) d s ∨ m = 0 ∨ m = 64) ∧
    tagBaseOk d.payload = true ∧
    leAt d.payload 0 1 = ctx ∧
    leAt d.payload 8 8 = base :=
  ⟨1, tagRequest, (boundState), 0xFF, 0x120, by decide +kernel⟩

theorem test_advanceEpoch_meets :
    ∃ (m : Fin 65) (d : DReq) (s : State), Asked (↑m) d 4 s ∧
    Bound (↑m) d s ∧
    d.payload = [] :=
  ⟨1, (reqOf 4), (boundState), by decide +kernel⟩

/-! ### O54: TenantsAskForWindowsAndRekeys -/

def windowBytes (kind own : Nat) : List Byte := leBytes 32 (own * 2 ^ 42 + kind * 2 ^ 56 + 3 * 2 ^ 52 + 16 * 2 ^ 96)
def tenantState (m : Nat := 1) : State :=
  { boundState m with xlat := (bQ (qA (buf 2))).xlat, links := [(0, l0)], queues := [(258, qA (buf 2))] }
def tenantRekey : State :=
  { tenantState with
    plan := { state := .applied, active := some { plan0 with core := { plan0.core with rekeyUnits := 50 } } }
    vault := { halls := [(1, { secret := some 7, hostKey := some 9 })], slots := [(0, { state := .inUse, hall := 2 })] }
    xlat := { tenantState.xlat with segs := [(128, { sg 3 0 with mode := .veiled, keyed := true, keySlot := 4 })] } }
def windowHeld : State :=
  { tenantState with xlat := { tenantState.xlat with windows := [(4095, { state := .valid, ownerHall := 1 })] } }
theorem test_windowInstall_meets :
    ∃ (m : Fin 65) (d : DReq) (s : State) (n : ℕ), Asked (↑m) d 5 s ∧
    Bound (↑m) d s ∧
    windowImageOk d.payload = true ∧
    (parseWindow (BitVec.ofNat 256 (leNat d.payload))).ownerHall = ↑m ∧
    s.windowsHeld ↑m < (s.rec_ ↑m).winQuota ∧
    s.linkUsed (parseWindow (BitVec.ofNat 256 (leNat d.payload))).linkPort = true ∧
    ((parseWindow (BitVec.ofNat 256 (leNat d.payload))).kind = 1 ∨ (s.seg (128 * ↑m + 8 * (parseWindow (BitVec.ofNat
      256 (leNat d.payload))).ownerContext + (parseWindow (BitVec.ofNat 256 (leNat d.payload))).segment)).state =
      SegState.valid ∧ (parseWindow (BitVec.ofNat 256 (leNat d.payload))).segOffset + (parseWindow (BitVec.ofNat 256
      (leNat d.payload))).size * 4096 ≤ (s.seg (128 * ↑m + 8 * (parseWindow (BitVec.ofNat 256 (leNat
      d.payload))).ownerContext + (parseWindow (BitVec.ofNat 256 (leNat d.payload))).segment)).size * 2 ^ 21 ∧
      ((parseWindow (BitVec.ofNat 256 (leNat d.payload))).wr = true → (s.seg (128 * ↑m + 8 * (parseWindow (BitVec.ofNat
      256 (leNat d.payload))).ownerContext + (parseWindow (BitVec.ofNat 256 (leNat d.payload))).segment)).wr = true) ∧
      ((parseWindow (BitVec.ofNat 256 (leNat d.payload))).rd = true → (s.seg (128 * ↑m + 8 * (parseWindow (BitVec.ofNat
      256 (leNat d.payload))).ownerContext + (parseWindow (BitVec.ofNat 256 (leNat d.payload))).segment)).rd = true)) ∧
    n < 4096 ∧
    (s.win n).state = WinState.invalid ∧
    (∀ i < n, (s.win i).state ≠ WinState.invalid) :=
  ⟨1, (reqOf 5 (windowBytes 2 1)), (tenantState), 0, by decide +kernel⟩

theorem test_windowInstall_refused_meets :
    ∃ (m : Fin 65) (d : DReq) (s : State), Asked (↑m) d 5 s ∧
    Bound (↑m) d s ∧
    windowImageOk d.payload = true ∧
    ((parseWindow (BitVec.ofNat 256 (leNat d.payload))).ownerHall ≠ ↑m ∨ (s.rec_ ↑m).winQuota ≤ s.windowsHeld ↑m ∨
      s.linkUsed (parseWindow (BitVec.ofNat 256 (leNat d.payload))).linkPort = false) :=
  ⟨1, (reqOf 5 (windowBytes 2 2)), (tenantState), by decide +kernel⟩

theorem test_windowRemove_meets :
    ∃ (m : Fin 65) (d : DReq) (s : State) (n : Fin 4096), Asked (↑m) d 6 s ∧
    Bound (↑m) d s ∧
    d.payload.length = 2 ∧
    leAt d.payload 0 2 = ↑n ∧
    (s.win ↑n).state = WinState.valid ∧
    (s.win ↑n).ownerHall = ↑m :=
  ⟨1, (reqOf 6 [255, 15]), windowHeld, 4095, by decide +kernel⟩

theorem test_rekey_other_meets :
    ∃ (m : Fin 65) (d : DReq) (s : State) (h : ℕ) (c : ℕ) (i : ℕ), Asked (↑m) d 7 s ∧
    (Bound (↑m) d s ∨ m = 0 ∨ m = 64) ∧
    d.payload.length = 3 ∧
    leAt d.payload 0 1 = h ∧
    leAt d.payload 1 1 = c ∧
    leAt d.payload 2 1 = i ∧
    h < 64 ∧
    c < 16 ∧
    i < 8 ∧
    m ≠ 0 ∧
    m ≠ 64 ∧
    h ≠ ↑m :=
  ⟨1, (reqOf 7 [63, 15, 7]), tenantRekey, 63, 15, 7, by decide +kernel⟩

theorem test_rekey_meets :
    ∃ (m : Fin 65) (d : DReq) (s : State) (h : ℕ) (c : ℕ) (i : ℕ) (ch : ℕ) (slot : ℕ), Asked (↑m) d 7 s ∧
    (Bound (↑m) d s ∨ m = 0 ∨ m = 64) ∧
    d.payload.length = 3 ∧
    leAt d.payload 0 1 = h ∧
    leAt d.payload 1 1 = c ∧
    leAt d.payload 2 1 = i ∧
    h < 64 ∧
    c < 16 ∧
    i < 8 ∧
    (h = ↑m ∨ m = 0 ∨ m = 64) ∧
    (s.seg (segNo h c i)).state = SegState.valid ∧
    s.rekeyCheck h c i = 0 ∧
    s.derives h = true ∧
    ch < 16 ∧
    (s.channel ch).state = ChanState.free ∧
    (∀ j < ch, (s.channel j).state ≠ ChanState.free) ∧
    s.freeSlot = some slot ∧
    (s.seg (segNo h c i)).keySlot ≠ slot :=
  ⟨1, (reqOf 7 [1, 0, 0]), tenantRekey, 1, 0, 0, 0, 1, by decide +kernel⟩

/-! ### O55: TenantsJoinAndLeaveGroups -/

def memberKey : List Byte := List.replicate 96 9
def groupOf (i : Nat) : GroupRec := { ringGroup with myIndex := i }
def admitState (i : Nat) : State :=
  { boundState 1 with
    plan := { state := .applied, active := some { plan0 with groups := [groupOf i], members := twoMembers } }
    lc := { lc0 with serial := BitVec.ofNat 64 (7 + i) }, links := [(0, { l0 with peer := BitVec.ofNat 64 (8 - i) })]
    groups := [(5, { gen := 3, admHall := 1 })] }
def admRecord (charter : List Byte) (i : Nat) : List Byte :=
  charter ++ leBytes 2 i ++ leBytes 2 4 ++ leBytes 8 (7 + i) ++ [1, 0] ++ leBytes 2 1 ++ List.replicate 32 6 ++
    memberKey ++
    List.replicate 192 0
def admitPayload (i : Nat) : List Byte :=
  let charter := (admitState i).charterDigest (groupOf i) (memberKey ++ memberKey)
  leBytes 8 5 ++ admRecord charter 0 ++ admRecord charter 1
def admitted : State :=
  { admitState 1 with groups := [(5, { gen := 3, admHall := 1, delivery := some 5, key := some 7,
                                       state := .admitted })] }
theorem test_admit_meets :
    ∃ (m : Fin 65) (d : DReq) (g : ℕ) (s : State) (sigsOk : Bool), Bound (↑m) d s ∧
    g < 2048 ∧
    leAt d.payload 0 2 = g ∧
    Settled s ∧
    Asked (↑m) d 8 s ∧
    s.faults.fatal = false ∧
    8 < d.payload.length ∧
    (d.payload.length - 8) % 384 = 0 ∧
    leAt d.payload 2 6 = 0 ∧
    s.admitCheck (↑m) g (admRecords d.payload) sigsOk = 0 :=
  ⟨1, (reqOf 8 (admitPayload 0)), 5, (admitState 0), true, by decide +kernel⟩

theorem test_admit_member_meets :
    ∃ (m : Fin 65) (d : DReq) (g : ℕ) (s : State) (sigsOk : Bool), Bound (↑m) d s ∧
    g < 2048 ∧
    leAt d.payload 0 2 = g ∧
    Settled s ∧
    Asked (↑m) d 8 s ∧
    s.faults.fatal = false ∧
    8 < d.payload.length ∧
    (d.payload.length - 8) % 384 = 0 ∧
    leAt d.payload 2 6 = 0 ∧
    s.admitCheck (↑m) g (admRecords d.payload) sigsOk = 0 :=
  ⟨1, (reqOf 8 (admitPayload 1)), 5, (admitState 1), true, by decide +kernel⟩

theorem test_admit_refused_meets :
    ∃ (m : Fin 65) (d : DReq) (g : ℕ) (s : State) (sigsOk : Bool) (r : Byte), Bound (↑m) d s ∧
    g < 2048 ∧
    leAt d.payload 0 2 = g ∧
    Settled s ∧
    Asked (↑m) d 8 s ∧
    s.faults.fatal = false ∧
    8 < d.payload.length ∧
    (d.payload.length - 8) % 384 = 0 ∧
    leAt d.payload 2 6 = 0 ∧
    s.admitCheck (↑m) g (admRecords d.payload) sigsOk = r ∧
    r ≠ 0 :=
  ⟨1, (reqOf 8 (leBytes 8 5 ++ List.replicate 768 0)), 5, (admitState 1), false, 3, by decide +kernel⟩

theorem test_withdraw_meets :
    ∃ (m : Fin 65) (d : DReq) (g : ℕ) (s : State), Bound (↑m) d s ∧
    g < 2048 ∧
    leAt d.payload 0 2 = g ∧
    Settled s ∧
    Asked (↑m) d 9 s ∧
    d.payload.length = 2 ∧
    Option.map GroupRec.hall (s.groupRec g) = some ↑m :=
  ⟨1, (reqOf 9 [5, 0]), 5, admitted, by decide +kernel⟩

theorem test_deliveryKey_meets :
    ∃ (m : Fin 65) (d : DReq) (g : ℕ) (s : State) (k : BitVec 256), Bound (↑m) d s ∧
    g < 2048 ∧
    leAt d.payload 0 2 = g ∧
    Settled s ∧
    Asked (↑m) d 10 s ∧
    d.payload.length = 2 ∧
    (s.group g).delivery = some k ∧
    (s.group g).admHall = ↑m :=
  ⟨1, (reqOf 0xA [5, 0]), 5, admitted, 5, by decide +kernel⟩

theorem test_deliveryKey_none_meets :
    ∃ (m : Fin 65) (d : DReq) (g : ℕ) (s : State), Bound (↑m) d s ∧
    g < 2048 ∧
    leAt d.payload 0 2 = g ∧
    Settled s ∧
    Asked (↑m) d 10 s ∧
    d.payload.length = 2 ∧
    ((s.group g).delivery = none ∨ (s.group g).admHall ≠ ↑m) :=
  ⟨1, (reqOf 0xA [0xFF, 7]), 2047, admitted, by decide +kernel⟩

/-! ### O56: OwnersStageAndRestore -/

def stageState (x : CmtGroup := {}) : State :=
  { tenantState with
    commit := { base.commit with groups := [(64 + 3, x)] }, halls := [(1, { state := .paused, gen := 1 })] }
def heldWritePayload : List Byte := [5, 3, 0, 0, 0, 0, 64, 0, 0, 0x10, 0, 0, 0, 0, 0, 0, 0, 0x18] ++ List.replicate 14 0
def sourceBytes : ReadBytes := { status := 0, bytes := List.replicate 64 7 }
def heldAction : Action := .heldWrite 0 0x1000 64 (List.replicate 64 7)
def restorePayload (n va : Nat) : List Byte := List.replicate 8 0 ++ leBytes 8 va ++ leBytes 2 n ++ List.replicate n 7
def restoreState : State :=
    { stageState with xlat := { stageState.xlat with segs := [(128, { sg 0 0 with mode := .wm })] } }
theorem test_stage_meets :
    ∃ (m : Fin 65) (d : DReq) (s : State) (g : ℕ) (a : Machine.Action) (src : ReadBytes),
      (Bound (↑m) d s ∨ m = 0 ∨ m = 64) ∧
    Asked (↑m) d 11 s ∧
    stagedReservedOk d.payload = true ∧
    stagedGroup d.payload = some g ∧
    stagedAction (mailHall ↑m) d.payload src.bytes = some a ∧
    (s.cmt (mailHall ↑m) g).state ≠ CmtState.closed ∧
    s.stageOk (mailHall ↑m) a (s.readStatus (mailHall ↑m) (leAt d.payload 2 1) (leAt d.payload 16 8) (leAt d.payload 6
      2) src.status) src = true ∧
    s.stageFits (mailHall ↑m) g a = true :=
  ⟨1, (reqOf 0xB heldWritePayload), (stageState), 3, heldAction, sourceBytes, by decide +kernel⟩

theorem test_stage_closed_meets :
    ∃ (m : Fin 65) (d : DReq) (s : State) (g : ℕ) (a : Machine.Action) (src : ReadBytes),
      (Bound (↑m) d s ∨ m = 0 ∨ m = 64) ∧
    Asked (↑m) d 11 s ∧
    stagedReservedOk d.payload = true ∧
    stagedGroup d.payload = some g ∧
    stagedAction (mailHall ↑m) d.payload src.bytes = some a ∧
    ((s.cmt (mailHall ↑m) g).state = CmtState.closed ∨ s.stageOk (mailHall ↑m) a (s.readStatus (mailHall ↑m) (leAt
      d.payload 2 1) (leAt d.payload 16 8) (leAt d.payload 6 2) src.status) src = false ∨ s.stageFits (mailHall ↑m) g a
      = false) :=
  ⟨1, (reqOf 0xB heldWritePayload), (stageState { state := .closed }), 3, heldAction, sourceBytes, by decide +kernel⟩

theorem test_stage_unread_meets :
    ∃ (m : Fin 65) (d : DReq) (s : State) (g : ℕ) (a : Machine.Action) (src : ReadBytes),
      (Bound (↑m) d s ∨ m = 0 ∨ m = 64) ∧
    Asked (↑m) d 11 s ∧
    stagedReservedOk d.payload = true ∧
    stagedGroup d.payload = some g ∧
    stagedAction (mailHall ↑m) d.payload src.bytes = some a ∧
    ((s.cmt (mailHall ↑m) g).state = CmtState.closed ∨ s.stageOk (mailHall ↑m) a (s.readStatus (mailHall ↑m) (leAt
      d.payload 2 1) (leAt d.payload 16 8) (leAt d.payload 6 2) src.status) src = false ∨ s.stageFits (mailHall ↑m) g a
      = false) :=
  ⟨1, (reqOf 0xB heldWritePayload), (stageState), 3, heldAction, { sourceBytes with status := 9 }, by decide +kernel⟩

theorem test_abort_meets :
    ∃ (m : Fin 65) (d : DReq) (s : State) (g : ℕ), (Bound (↑m) d s ∨ m = 0 ∨ m = 64) ∧
    Asked (↑m) d 12 s ∧
    d.payload.length = 1 ∧
    leAt d.payload 0 1 = g ∧
    g < 64 ∧
    ((s.cmt (mailHall ↑m) g).state = CmtState.staging ∨ (s.cmt (mailHall ↑m) g).state = CmtState.open_) :=
  ⟨1, (reqOf 0xC [3]), (stageState { state := .open_, staged := [.epoch] }), 3, by decide +kernel⟩

theorem test_abort_refused_meets :
    ∃ (m : Fin 65) (d : DReq) (s : State) (g : ℕ), (Bound (↑m) d s ∨ m = 0 ∨ m = 64) ∧
    Asked (↑m) d 12 s ∧
    d.payload.length = 1 ∧
    leAt d.payload 0 1 = g ∧
    g < 64 ∧
    ((s.cmt (mailHall ↑m) g).state = CmtState.idle ∨ (s.cmt (mailHall ↑m) g).state = CmtState.closed) :=
  ⟨1, (reqOf 0xC [63]), (stageState), 63, by decide +kernel⟩

theorem test_query_meets :
    ∃ (m : Fin 65) (d : DReq) (s : State) (g : ℕ), (Bound (↑m) d s ∨ m = 0 ∨ m = 64) ∧
    Asked (↑m) d 13 s ∧
    d.payload.length = 1 ∧
    leAt d.payload 0 1 = g ∧
    g < 64 :=
  ⟨1, (reqOf 0xD [63]), (stageState), 63, by decide +kernel⟩

theorem test_restoreWrite_meets :
    ∃ (m : Fin 65) (d : DReq) (s : State) (k : ℕ) (va : ℕ), Asked (↑m) d 14 s ∧
    Bound (↑m) d s ∧
    Settled s ∧
    (s.hall ↑m).state = HallState.paused ∧
    (s.engine restorePort).dmas = [] ∧
    (∀ x ∈ s.xlat.migrations, x.hall < 64) ∧
    restorePayloadOk d.payload = true ∧
    leAt d.payload 8 8 = va ∧
    s.rangeIn (↑m) (leAt d.payload 0 1) va (d.payload.length - 18) true = some k ∧
    (s.seg k).mode = SegMode.wm :=
  ⟨1, (reqOf 0xE (restorePayload 960 0xE00)), restoreState, 128, 0xE00, by decide +kernel⟩

/-! ### O57: RightsAndKeysAreGranted -/

def certDigest : List Byte := List.replicate 48 3
def approveState (asked : Word) : State :=
    { boundState with lc := { lc0 with certDigest := certDigest, contentAsked := asked } }
/-- The digest of 96 bytes of seven, as another implementation of FIPS 180-4 computes it. -/
def sevensHash : BitVec 384 :=
    0xaf0dab4ce8a11a2879c6264842c325cc3c47c8c743ee0e5859e53a6dca042827ac0f931c5ef554d9a34b0691d1863e71
def certOf (rights halls : Nat) : List Byte :=
  leBytes 4 0x47424447 ++ leBytes 8 55 ++ List.replicate 32 0 ++ leBytes 4 rights ++ leBytes 8 halls ++ List.replicate
    8 0 ++
    List.replicate 96 7 ++ List.replicate 96 0
def certState : State :=
  { boundState 64 with
    lc := { lc0 with
      state := .returned, serial := 55
      otp := (List.range 12).map fun i => (36 + i, BitVec.ofNat 32 (bits sevensHash (32 * i + 31) (32 * i))) }
    vault := { rootSeed := some 4, slots := [(3, { k1 := 4, k2 := 5 })], halls := [(1,
               { secret := some 4, hostKey := some 7 })] }
    links := [(0, l0)] }
theorem test_approveTrace_meets :
    ∃ (m : Fin 65) (d : DReq) (s : State), Asked (↑m) d 15 s ∧
    Bound (↑m) d s ∧
    d.payload.length = 48 ∧
    s.lc.certDigest = d.payload ∧
    bit s.lc.contentAsked ↑m = true :=
  ⟨1, (reqOf 0xF certDigest), (approveState 2), by decide +kernel⟩

theorem test_approveTrace_refused_meets :
    ∃ (m : Fin 65) (d : DReq) (s : State), Asked (↑m) d 15 s ∧
    Bound (↑m) d s ∧
    d.payload.length = 48 ∧
    (s.lc.certDigest ≠ d.payload ∨ bit s.lc.contentAsked ↑m = false) :=
  ⟨1, (reqOf 0xF certDigest), (approveState 1), by decide +kernel⟩

theorem test_getHostKey_meets :
    ∃ (m : Fin 65) (d : DReq) (s : State) (k : BitVec 256), Asked (↑m) d 32 s ∧
    m = 0 ∧
    (s.hallKey 0).hostKey = some k ∧
    d.payload = [] :=
  ⟨0, (reqOf 0x20), { boundState 0 with vault := { halls := [(0, { hostKey := some 0x1234 })] } }, 0x1234,
    by decide +kernel⟩

theorem test_debugCert_closes_meets :
    ∃ (m : Fin 65) (d : DReq) (s : State) (sigOk : Bool), Asked (↑m) d 35 s ∧
    (m = 0 ∨ m = 64) ∧
    d.payload.length = 256 ∧
    s.lc.certCheck (parseCert d.payload) sigOk = 0 :=
  ⟨64, (reqOf 0x23 (certOf 4 0)), certState, true, by decide +kernel⟩

theorem test_debugCert_meets :
    ∃ (m : Fin 65) (d : DReq) (s : State) (sigOk : Bool), Asked (↑m) d 35 s ∧
    (m = 0 ∨ m = 64) ∧
    d.payload.length = 256 ∧
    s.lc.certCheck (parseCert d.payload) sigOk = 0 :=
  ⟨64, (reqOf 0x23 (certOf 8 2)), certState, true, by decide +kernel⟩

theorem test_debugCert_refused_meets :
    ∃ (m : Fin 65) (d : DReq) (s : State) (sigOk : Bool) (r : Byte), Asked (↑m) d 35 s ∧
    (m = 0 ∨ m = 64) ∧
    d.payload.length = 256 ∧
    s.lc.certCheck (parseCert d.payload) sigOk = r ∧
    r ≠ 0 :=
  ⟨64, (reqOf 0x23 (certOf 8 2)), certState, false, 2, by decide +kernel⟩

theorem test_debugClear_meets :
    ∃ (m : Fin 65) (d : DReq) (s : State), Asked (↑m) d 36 s ∧
    (m = 0 ∨ m = 64) ∧
    d.payload = [] :=
  ⟨64, (reqOf 0x24), (boundState 64), by decide +kernel⟩

theorem test_getIdKeys_meets :
    ∃ (m : Fin 65) (d : DReq) (s : State), s.mailOpen ↑m = true ∧
    reqCode d = 37 ∧
    d.sid = 0 ∧
    m = 64 ∧
    reqHdrOk d = true ∧
    reqMore d = false ∧
    reqOffset d = 0 ∧
    reqTotal d = 0 ∧
    d.payload = [] ∧
    s.lc.state = LcState.provisioned :=
  ⟨64, (reqOf 0x25 [] 0), { boundState 64 with lc := { lc0 with state := .provisioned } }, by decide +kernel⟩

theorem test_getIdKeys_refused_meets :
    ∃ (m : Fin 65) (d : DReq) (s : State), s.mailOpen ↑m = true ∧
    reqCode d = 37 ∧
    d.sid = 0 ∧
    m = 64 ∧
    reqHdrOk d = true ∧
    reqMore d = false ∧
    reqOffset d = 0 ∧
    reqTotal d = 0 ∧
    d.payload = [] ∧
    s.lc.state ≠ LcState.provisioned :=
  ⟨64, (reqOf 0x25 [] 0), (boundState 64), by decide +kernel⟩

/-! ### O58: OperatorsEstablishLinks -/

def usedLinks : Plan := { plan0 with links := List.replicate 20 { used := true, weights := [1, 1, 1, 1, 1, 1, 1, 1] } }
def operatorState (l : Link) : State :=
  { boundState 0 with
    links := [(19, l)], plan := { base.plan with active := some usedLinks }
    lc := { lc0 with serial := 55, linkChain := [1, 2, 3] }, vault := { linkIdentity := some 5 } }
def relayedBytes (kind : Byte) (peer : Word) (port : Nat) : List Byte := offerBody 77 4 kind 9 0 peer port ++
    List.replicate 96 0
theorem test_linkOpen_meets :
    ∃ (m : Fin 65) (d : DReq) (n : Fin 20) (s : State), (m = 0 ∨ m = 64) ∧
    Settled s ∧
    VaultEntry.linkIdentityKey ∉ s.vault.rederiving ∧
    Asked (↑m) d 33 s ∧
    d.payload.length = 1 ∧
    leAt d.payload 0 1 = ↑n ∧
    s.linkUsed ↑n = true ∧
    s.portFenced ↑n = false :=
  ⟨0, (reqOf 0x21 [19]), 19, (operatorState l0), by decide +kernel⟩

theorem test_linkOpen_refused_meets :
    ∃ (m : Fin 65) (d : DReq) (n : Fin 20) (s : State), (m = 0 ∨ m = 64) ∧
    Settled s ∧
    VaultEntry.linkIdentityKey ∉ s.vault.rederiving ∧
    Asked (↑m) d 33 s ∧
    d.payload.length = 1 ∧
    leAt d.payload 0 1 = ↑n ∧
    (s.linkUsed ↑n = false ∨ s.portFenced ↑n = true) :=
  ⟨0, (reqOf 0x21 [19]), 19, { operatorState l0 with plan := base.plan }, by decide +kernel⟩

theorem test_linkDeliver_open_meets :
    ∃ (m : Fin 65) (d : DReq) (n : Fin 20) (s : State) (offer : OfferCheck), (m = 0 ∨ m = 64) ∧
    Settled s ∧
    VaultEntry.linkIdentityKey ∉ s.vault.rederiving ∧
    Asked (↑m) d 34 s ∧
    224 ≤ d.payload.length ∧
    s.linkUsed ↑n = true ∧
    s.portFenced ↑n = false ∧
    offerOk offer (parseOffer (List.take 224 d.payload)) = true ∧
    (parseOffer (List.take 224 d.payload)).kind = 1 ∧
    s.openStands (↑n) (parseOffer (List.take 224 d.payload)) = true ∧
    OnlyWindowRequests (↑n) s ∧
    (s.link ↑n).pendingReqs = [] :=
  ⟨0, (reqOf 0x22 (relayedBytes 1 0 0)), 19, (operatorState l0), ⟨true,true⟩, by decide +kernel⟩

theorem test_linkDeliver_answer_meets :
    ∃ (m : Fin 65) (d : DReq) (n : Fin 20) (s : State) (offer : OfferCheck) (own : Gen), (m = 0 ∨ m = 64) ∧
    Settled s ∧
    VaultEntry.linkIdentityKey ∉ s.vault.rederiving ∧
    Asked (↑m) d 34 s ∧
    224 ≤ d.payload.length ∧
    s.linkUsed ↑n = true ∧
    s.portFenced ↑n = false ∧
    offerOk offer (parseOffer (List.take 224 d.payload)) = true ∧
    s.answersMine (↑n) (parseOffer (List.take 224 d.payload)) false = some own :=
  ⟨0, (reqOf 0x22 (relayedBytes 2 55 19)), 19, (operatorState { l0 with offerOut := some (2, false) }), ⟨true,true⟩, 2,
    by decide +kernel⟩

theorem test_linkDeliver_stale_meets :
    ∃ (m : Fin 65) (d : DReq) (n : Fin 20) (s : State) (offer : OfferCheck), (m = 0 ∨ m = 64) ∧
    Settled s ∧
    VaultEntry.linkIdentityKey ∉ s.vault.rederiving ∧
    Asked (↑m) d 34 s ∧
    224 ≤ d.payload.length ∧
    s.linkUsed ↑n = true ∧
    s.portFenced ↑n = false ∧
    (offerOk offer (parseOffer (List.take 224 d.payload)) = false ∨ (parseOffer (List.take 224 d.payload)).kind = 1 ∧
      s.openStands (↑n) (parseOffer (List.take 224 d.payload)) = false ∨ (parseOffer (List.take 224 d.payload)).kind =
      2 ∧ s.answersMine (↑n) (parseOffer (List.take 224 d.payload)) false = none) :=
  ⟨0, (reqOf 0x22 (relayedBytes 2 55 19)), 19, (operatorState { l0 with offerOut := some (2, true) }), ⟨true,true⟩,
    by decide +kernel⟩

/-! ### O60: SealedTextsOpenAsTheyWereSealed -/

def sealHdr : BitVec 512 := frameHdr 2 0 1 0 960 3 []
def sealedTag : BitVec 128 := (sealedFrame 5 3 (l0.chan 3).ingress sealHdr (List.replicate 960 9)).2
theorem other_tag {w : Nat} (x : BitVec (w + 1)) : ~~~x ≠ x := fun h => by
  have := congrArg (fun y => y.getLsbD 0) h
  simp at this
def keyState : State := { base with vault := { halls := [(1, { hostKey := some 9, epoch := 3 })] } }
def sectorEntry : List Byte := (sealedSector 9 77 (keyState.aadOf 1 4 0x1200 hostKeyField) (List.replicate 512 9)).2
theorem sealedSector_entry_length (key : BitVec 256) (ctr : Word) (aad data : List Byte) : (sealedSector key ctr aad
    data).2.length = 32 := by
  simp [sealedSector, sectorIv, leBytes_length, gcmSeal, gcmTag, xorBytes_length, aesBytes_length, beBytes]
theorem sectorEntry_tag : (sectorEntry.take 16).length = 16 := by
  rw [List.length_take]
  exact Nat.min_eq_left (by rw [sectorEntry, sealedSector_entry_length]; decide)
def otherTag : List Byte := (sectorEntry.take 16).map (~~~·)
theorem otherTag_length : otherTag.length = 16 := by rw [otherTag, List.length_map, sectorEntry_tag]
theorem otherTag_ne : otherTag ≠ sectorEntry.take 16 := by
  have hn := sectorEntry_tag
  rw [otherTag]
  generalize sectorEntry.take 16 = l at hn
  cases l with
  | nil => cases hn
  | cons a l => exact fun h => other_tag a (List.head_eq_of_cons_eq h)
theorem test_sealedFrame_meets :
    ∃ (l : Link) (vc : Fin 8) (key : BitVec 256) (h : BitVec 512) (body : List Byte) (tag : BitVec 128),
      l.rxKey ↑vc = some key ∧
    body.length ≤ 960 ∧
    hdrBodyLen h = body.length ∧
    tag ≠ (sealedFrame key (↑vc) (l.chan ↑vc).ingress h body).2 :=
  ⟨l0, 3, 5, sealHdr, (List.replicate 960 9), (~~~sealedTag), by decide +kernel, by decide +kernel, by decide +kernel,
    (other_tag _)⟩

theorem test_sealedSector_meets :
    ∃ (s : State) (h : ℕ) (pasid : ℕ) (v : ℕ) (key : BitVec 256) (ctr : Word) (data : List Byte) (tag : List Byte),
      data.length = 512 ∧
    (s.hallKey h).hostKey = some key ∧
    tag.length = 16 ∧
    tag ≠ List.take 16 (sealedSector key ctr (s.aadOf h pasid v hostKeyField) data).2 :=
  ⟨keyState, 1, 4, 0x1200, 9, 77, (List.replicate 512 9), otherTag, by decide +kernel, by decide +kernel,
    otherTag_length, otherTag_ne⟩

end
end Sys2Proof.Tests
end

section
/-! The scope of the block: a step runs the command at the front of the queue, and a register access follows the rights of
its requester (R5, R49, R50, R52, R435 to R438). -/

namespace Sys2Proof.Machine
open Sys2Proof Sys2Proof.Safety

/-- Settles O1: with a command in front, `step` is its second arm. -/
theorem stepRunsTheFrontCommand : Obligations.StepRunsTheFrontCommand := by
  intro c rest s h
  simp only [step, h]

/-! ### Events and denied accesses -/

@[simp] theorem State.raise_core (s : State) (code : Byte) (i : EvInfo) : (s.raise code i).core = s.core :=
  (State.raise_frame (List.Subset.refl _) s code i).core (by decide)

theorem State.raise_out (s : State) (code : Byte) (i : EvInfo) : ∃ more, (s.raise code i).out = s.out ++ more := by
  unfold State.raise
  dsimp only
  split
  · exact ⟨[], by simp⟩
  · split
    · exact ⟨[.errN true], by simp⟩
    · exact ⟨[], by simp⟩

/-- A denied access is counted and logged over the log as it stood before (R438, R444). -/
theorem State.deny_core (s : State) (r : Requester) (write : Bool) (addr : Nat) :
    (s.deny r write addr).core = { s.core with
      deniedCount := satAdd s.core.deniedCount 1, deniedReq := requesterCode r, deniedWrite := write,
      deniedOffset := BitVec.ofNat 21 (addr / 8) } := by
  simp [State.deny]

theorem State.deny_out (s : State) (r : Requester) (write : Bool) (addr : Nat) :
    ∃ more, (s.deny r write addr).out = s.out ++ more :=
  s.raise_out _ _

theorem State.mailbox_withOut (s : State) (o : List Out) (m : Nat) :
    ({ s with out := o } : State).mailbox m = s.mailbox m := rfl

/-- What a port presents beside a change of parts that count the outputs in changes no other part. -/
theorem frame_withOut {l : List Part} {s t : State} (f : Frame l s t) (hl : .out ∈ l) (o : List Out) :
    Frame l s { t with out := o } :=
  Frame.trans f (without_out t o hl)

/-! ### A command that leaves nothing of the core's own to be done -/

/-- Whether anything waits between two commands depends on the translation unit and the engines alone. -/
theorem settled_of_eq {s t : State} (hs : Settled s) (hx : t.xlat = s.xlat) (he : t.engines = s.engines) : Settled t := by
  simpa only [Settled, State.writeReady, hx, he] using hs

/-- No port but the physical function's can name an address of the management space's end or beyond. -/
theorem exec_deniedRead {r : Requester} {x : RegRead} (h : onHost r = true ∨ x.addr < 0x1000000) (s : State) :
    exec (.deniedRead r x) s = .next (s.readAccess r x) := by
  have inside : ¬((!onHost r) = true ∧ 0x1000000 ≤ x.addr) := by
    rcases h with h | h
    · simp [h]
    · omega
  exact if_neg inside

theorem exec_registerWrite {r : Requester} {addr : Nat} (h : onHost r = true ∨ addr < 0x1000000) (be : Byte) (data : Word)
    (s : State) : exec (.registerWrite r addr be data) s = .next (s.registerWrite r addr be data).drainServed := by
  have inside : ¬((!onHost r) = true ∧ 0x1000000 ≤ addr) := by
    rcases h with h | h
    · simp [h]
    · omega
  exact if_neg inside

/-- A write that touches neither the translation unit nor the engines is the command's whole effect. -/
theorem exec_registerWrite_of_settled {r : Requester} {addr : Nat} {be : Byte} {data : Word} {s t : State}
    (h : onHost r = true ∨ addr < 0x1000000) (hs : Settled s) (hw : s.registerWrite r addr be data = t)
    (hx : t.xlat = s.xlat) (he : t.engines = s.engines) : exec (.registerWrite r addr be data) s = .next t := by
  rw [exec_registerWrite h, hw, State.drainServed_of_settled t (settled_of_eq hs hx he)]

/-! ### The management space -/

section
variable {r : Requester} {addr : Nat} {be : Byte} {s : State}

/-- A block answers the physical function only while the fabric is released, and a source of the management port only
while MGMT_RST_N is high (R425, R436). -/
theorem State.released_of_answers_pf {b : Nat} (h : s.answers .pf b = true) : s.core.released = true := by
  simp only [State.answers, decide_eq_true_eq, Bool.decide_and, Bool.and_eq_true] at h
  exact h.1

theorem State.mgmtRstLow_of_answers {b : Nat} (hr : r = .fabric ∨ r = .test) (h : s.answers r b = true) :
    s.core.mgmtRstLow = false := by
  rcases hr with rfl | rfl <;> simp [State.answers] at h <;> exact h.1

/-- A read of 4 or 8 bytes of a block that answers reaches the check of the right. -/
theorem State.readAccess_eq_readBy (hr : r = .mp ∨ r = .pf ∨ r = .fabric ∨ r = .test)
    (hbe : beOk be = true) (hin : addr < 0x1000000) (ha : s.answers r (blockOf addr) = true) :
    s.readAccess r { addr := addr, be := be } = s.readBy r { addr := addr, be := be } := by
  rcases hr with rfl | rfl | rfl | rfl
  · rfl
  · simp [State.readAccess, State.released_of_answers_pf ha, hbe, hin]
  · simp [State.readAccess, State.mgmtRstLow_of_answers (.inl rfl) ha, hbe]
  · simp [State.readAccess, State.mgmtRstLow_of_answers (.inr rfl) ha, hbe]

/-- A write of 4 or 8 bytes to a block that answers reaches the check of the right. -/
theorem State.registerWrite_eq_writeBy (data : Word) (hr : r = .mp ∨ r = .pf ∨ r = .fabric ∨ r = .test)
    (hbe : beOk be = true) (hin : addr < 0x1000000) (ha : s.answers r (blockOf addr) = true) :
    s.registerWrite r addr be data = s.writeBy r addr fun t => t.writeMgmt addr be data := by
  rcases hr with rfl | rfl | rfl | rfl
  · rfl
  · simp [State.registerWrite, State.hostWriteSized, State.released_of_answers_pf ha, hbe, hin]
  · simp [State.registerWrite, State.mgmtRstLow_of_answers (.inl rfl) ha, hbe]
  · simp [State.registerWrite, State.mgmtRstLow_of_answers (.inr rfl) ha, hbe]

/-- Without the right a write is denied, and the management port answers an error (R438). -/
theorem State.writeBy_denied (f : State → State) (hr : r = .mp ∨ r = .pf ∨ r = .fabric ∨ r = .test)
    (ha : s.answers r (blockOf addr) = true) (hright : rightOf r (blockOf addr) ≠ .write) :
    s.writeBy r addr f = { s.deny r true addr with
      out := (s.deny r true addr).out ++ if r = .fabric ∨ r = .test then [.mgmtRsp r 0 1] else [] } := by
  rcases hr with rfl | rfl | rfl | rfl <;> simp [State.writeBy, State.respondReg, State.emit, ha, hright]

/-- With the right a write is made, and the management port answers without an error (R435). -/
theorem State.writeBy_permitted (f : State → State) (hr : r = .mp ∨ r = .pf ∨ r = .fabric ∨ r = .test)
    (ha : s.answers r (blockOf addr) = true) (hright : rightOf r (blockOf addr) = .write) :
    s.writeBy r addr f = { f s with out := (f s).out ++ rspOf r } := by
  rcases hr with rfl | rfl | rfl | rfl <;> simp [State.writeBy, State.respondReg, State.emit, rspOf, ha, hright]

/-! ### The location that a write names -/

theorem State.writeMgmt_plan (data : Word) (off : Nat) (h : addr / 8 * 8 = 0x100000 + off) (hoff : off < 0x100000) :
    s.writeMgmt addr be data = s.writePlan off be data := by
  have block : addr / 0x100000 = 1 := by omega
  have location : addr % 0x100000 / 8 * 8 = off := by omega
  simp [State.writeMgmt, blockOf, block, location]

theorem State.writeMgmt_gallery (data : Word) (off : Nat) (h : addr / 8 * 8 = 0xE00000 + off) (hoff : off < 0x100000) :
    s.writeMgmt addr be data = s.writeGal off be data := by
  have block : addr / 0x100000 = 14 := by omega
  have location : addr % 0x100000 / 8 * 8 = off := by omega
  simp [State.writeMgmt, blockOf, block, location]

theorem State.writeMgmt_mailbox (data : Word) (off : Nat) (h : addr / 8 * 8 = 0xF00000 + off) (hoff : off < 0x100000) :
    s.writeMgmt addr be data = s.writeMailbox 64 off be data := by
  have block : addr / 0x100000 = 15 := by omega
  have location : addr % 0x100000 / 8 * 8 = off := by omega
  simp [State.writeMgmt, blockOf, block, location]

/-- GAL_CTL lies in the lower half of its location; a reserved port number keeps the field (R7, R419). -/
theorem State.writeGal_ctl (data : Word) (hbe : be = 0x0F ∨ be = 0xF0 ∨ be = 0xFF) :
    (s.writeGal 0 be data).gallery = if be = 0xF0 then s.gallery else { s.gallery with
      types := BitVec.ofNat 10 (bits data 15 6), route := bit data 0,
      linkPort := if 20 ≤ bits data 5 1 then s.gallery.linkPort else BitVec.ofNat 5 (bits data 5 1) } := by
  rcases hbe with rfl | rfl | rfl <;> rfl

/-- A write of MBX_LEN sets the length and, but for the reserved kind, the kind (R7, R403, log entry 92). -/
theorem State.writeMailbox_length (m : Nat) (data : Word) (hbe : lowHalf be = true) (hrst : s.core.mgmtRstLow = false) :
    s.writeMailbox m 8 be data = s.modMailbox m fun b =>
      { b with reqLen := BitVec.ofNat 11 (bits data 10 0),
               kind := if bits data 12 11 = 3 then b.kind else BitVec.ofNat 2 (bits data 12 11) } := by
  simp [State.writeMailbox, hbe, hrst]

/-- The request buffer `req` of a mailbox after a write of the location at offset `off` of its page. -/
def writeRequest (off : Nat) (be : Byte) (data : Word) (req : Tab Byte) : Tab Byte :=
  (List.range 8).foldl
    (fun t i => if bit be i then t.set 0 (off - 0x100 + i) (BitVec.ofNat 8 (byteField data i i)) else t) req

theorem State.writeMailbox_request (m : Nat) {off : Nat} (data : Word) (h : 0x100 ≤ off ∧ off < 0x800)
    (hrst : s.core.mgmtRstLow = false) :
    s.writeMailbox m off be data = s.modMailbox m fun b => { b with req := writeRequest off be data b.req } := by
  have ctl : off ≠ 0 := by omega
  have len : off ≠ 8 := by omega
  simp only [State.writeMailbox, hrst, h, and_self, if_true, Bool.false_eq_true, if_false]
  rfl

end

/-- A run of conditional writes at successive keys: each key that was written reads its value. -/
theorem Tab.get_foldl_set {α : Type} [DecidableEq α] (d : α) (p : Nat → Bool) (v : Nat → α) (o n : Nat) (t : Tab α)
    (j : Nat) :
    Tab.get d ((List.range n).foldl (fun t i => if p i then t.set d (o + i) (v i) else t) t) j =
      if o ≤ j ∧ j < o + n ∧ p (j - o) then v (j - o) else Tab.get d t j := by
  induction n with
  | zero => rw [if_neg (by omega)]; rfl
  | succ n ih =>
    rw [List.range_succ, List.foldl_append, List.foldl_cons, List.foldl_nil]
    by_cases hj : j = o + n
    · subst hj
      by_cases hp : p n = true <;> simp [hp, ih]
    · have range : j < o + (n + 1) ↔ j < o + n := by omega
      by_cases hp : p n = true <;> simp [hp, hj, ih, range]

/-- A byte of the request buffer after a write: the enabled bytes of the location take the data's. -/
theorem get_writeRequest (be : Byte) (data : Word) (req : Tab Byte) {off : Nat} (haligned : (off - 0x100) % 8 = 0)
    (i : Nat) :
    Tab.get 0 (writeRequest off be data req) i =
      if off - 0x100 ≤ i ∧ i < off - 0x100 + 8 ∧ bit be (i % 8) = true then
        BitVec.ofNat 8 (byteField data (i % 8) (i % 8))
      else Tab.get 0 req i := by
  rw [writeRequest, Tab.get_foldl_set]
  by_cases h : off - 0x100 ≤ i ∧ i < off - 0x100 + 8
  · have byte : i - (off - 0x100) = i % 8 := by omega
    rw [byte]
  · rw [if_neg fun k => h ⟨k.1, k.2.1⟩, if_neg fun k => h ⟨k.1, k.2.1⟩]

/-! ### Accesses of the management space, clause by clause -/

section
variable {r : Requester} {addr : Nat} {be : Byte} {s : State}

/-- The four requesters that the matrix of R437 gives rights to name a location with R49's byte enables, in a block that
answers them. -/
structure Reaches (r : Requester) (addr : Nat) (be : Byte) (s : State) : Prop where
  requester : r = .mp ∨ r = .pf ∨ r = .fabric ∨ r = .test
  enables : be = 0x0F ∨ be = 0xF0 ∨ be = 0xFF
  inside : addr < 0x1000000
  answered : s.answers r (blockOf addr) = true

theorem beOk_iff : beOk be = true ↔ be = 0x0F ∨ be = 0xF0 ∨ be = 0xFF := by simp [beOk]

theorem exec_read_of_reaches (h : Reaches r addr be s) :
    exec (.deniedRead r { addr := addr, be := be }) s = .next (s.readBy r { addr := addr, be := be }) := by
  rw [exec_deniedRead (.inr h.inside),
    State.readAccess_eq_readBy h.requester (beOk_iff.mpr h.enables) h.inside h.answered]

theorem exec_read_permitted (h : Reaches r addr be s) (hright : rightOf r (blockOf addr) ≠ .none) :
    exec (.deniedRead r { addr := addr, be := be }) s =
      .next { s with out := s.out ++ [.mgmtRsp r (s.readMgmt r (addr / 8 * 8) &&& beMask be) 0] } := by
  rw [exec_read_of_reaches h]
  simp [State.readBy, h.answered, hright, State.respondReg, State.emit]

/-- CORE_DENIED_LOG holds a denied access, and outside it and the event nothing has changed (R438, R444). -/
def Logged (r : Requester) (write : Bool) (addr : Nat) (s t : State) : Prop :=
  t.core = { s.core with
    deniedCount := satAdd s.core.deniedCount 1, deniedReq := requesterCode r, deniedWrite := write,
    deniedOffset := BitVec.ofNat 21 (addr / 8) } ∧ Frame [.core, .faultsRest, .out] s t

theorem deny_logged {t : State} {write : Bool} (ht : ∃ out, t = { s.deny r write addr with out := out }) :
    Logged r write addr s t := by
  obtain ⟨out, rfl⟩ := ht
  exact ⟨s.deny_core r write addr,
    frame_withOut (State.deny_frame (List.Subset.refl _) s r write addr) (by decide) out⟩

theorem exec_write_permitted {data : Word} {t : State} (h : Reaches r addr be s) (hs : Settled s)
    (hright : rightOf r (blockOf addr) = .write) (hw : s.writeMgmt addr be data = t) (hx : t.xlat = s.xlat)
    (he : t.engines = s.engines) :
    exec (.registerWrite r addr be data) s = .next { t with out := t.out ++ rspOf r } := by
  refine exec_registerWrite_of_settled (.inr h.inside) hs ?_ hx he
  rw [State.registerWrite_eq_writeBy data h.requester (beOk_iff.mpr h.enables) h.inside h.answered,
    State.writeBy_permitted _ h.requester h.answered hright, hw]

theorem answers_read_denied (h : Reaches r addr be s) (hright : rightOf r (blockOf addr) = .none) :
    Answers (.deniedRead r { addr := addr, be := be }) s fun t =>
      Logged r false addr s t ∧ ∃ more, t.out = s.out ++ more ++ [.mgmtRsp r 0 1] := by
  have denied : s.readBy r { addr := addr, be := be } = (s.deny r false addr).respondReg r 0 1 := by
    simp [State.readBy, h.answered, hright]
  refine ⟨_, exec_read_of_reaches h, deny_logged ⟨_, denied⟩, ?_⟩
  obtain ⟨more, hmore⟩ := s.deny_out r false addr
  exact ⟨more, by rw [denied, ← hmore]; rfl⟩

theorem answers_write_denied (data : Word) (h : Reaches r addr be s) (hs : Settled s)
    (hright : rightOf r (blockOf addr) ≠ .write) :
    Answers (.registerWrite r addr be data) s fun t =>
      Logged r true addr s t ∧ ∃ more, t.out = s.out ++ more ++ if r = .fabric ∨ r = .test then [.mgmtRsp r 0 1] else [] := by
  have denied := State.writeBy_denied (fun t => t.writeMgmt addr be data) h.requester h.answered hright
  rw [← State.registerWrite_eq_writeBy data h.requester (beOk_iff.mpr h.enables) h.inside h.answered] at denied
  have logged := deny_logged ⟨_, denied⟩
  have frame := logged.2
  refine ⟨_, exec_registerWrite_of_settled (.inr h.inside) hs rfl
    (frame.xlat (by decide) (by decide) (by decide)) (frame.engines (by decide)), logged, ?_⟩
  obtain ⟨more, hmore⟩ := s.deny_out r true addr
  exact ⟨more, by rw [denied, ← hmore]⟩

/-- A write of an operand of the plan loader changes that operand and nothing else (R113). -/
theorem answers_write_plan {data : Word} {p : PlanUnit} (off : Nat) (h : Reaches r addr be s) (hs : Settled s)
    (hright : rightOf r (blockOf addr) = .write) (haddr : addr / 8 * 8 = 0x100000 + off) (hoff : off < 0x100000)
    (hp : s.writePlan off be data = { s with plan := p }) :
    Answers (.registerWrite r addr be data) s fun t => t = { s with plan := p, out := s.out ++ rspOf r } := by
  have write := (State.writeMgmt_plan data off haddr hoff).trans hp
  exact ⟨_, exec_write_permitted h hs hright write rfl rfl, rfl⟩

theorem answers_write_gallery (data : Word) (h : Reaches r addr be s) (hs : Settled s)
    (hright : rightOf r (blockOf addr) = .write) (haddr : addr / 8 * 8 = 0xE00000) :
    Answers (.registerWrite r addr be data) s fun t =>
      t.gallery = (if be = 0xF0 then s.gallery else { s.gallery with
        types := BitVec.ofNat 10 (bits data 15 6), route := bit data 0,
        linkPort := if 20 ≤ bits data 5 1 then s.gallery.linkPort else BitVec.ofNat 5 (bits data 5 1) }) ∧
      t.out = s.out ++ rspOf r ∧ Frame [.gallery, .out] s t := by
  have write := State.writeMgmt_gallery (s := s) (be := be) data 0 haddr (by decide)
  have frame := State.writeGal_frame (List.Subset.refl _) s 0 be data
  refine ⟨_, exec_write_permitted h hs hright write (frame.xlat (by decide) (by decide) (by decide))
    (frame.engines (by decide)), State.writeGal_ctl data h.enables, ?_, ?_⟩
  · rw [frame.out (by decide)]
  · exact frame_withOut (frame.mono (by decide)) (by decide) _

/-- The enabled bytes of a location of the operator's request buffer take the data's, and no other byte changes (R403). -/
theorem answers_write_request (data : Word) (h : Reaches r addr be s) (hs : Settled s)
    (hright : rightOf r (blockOf addr) = .write) (hlo : 0xF00100 ≤ addr) (hhi : addr < 0xF00800)
    (hrst : s.core.mgmtRstLow = false) :
    Answers (.registerWrite r addr be data) s fun t =>
      (∀ i, Tab.get 0 (t.mailbox 64).req i =
        if addr / 8 * 8 - 0xF00100 ≤ i ∧ i < addr / 8 * 8 - 0xF00100 + 8 ∧ bit be (i % 8) = true then
          BitVec.ofNat 8 (byteField data (i % 8) (i % 8))
        else Tab.get 0 (s.mailbox 64).req i) ∧
      t.mailbox 64 = { s.mailbox 64 with req := (t.mailbox 64).req } ∧ SameBut State.mailbox 64 s t ∧
      t.out = s.out ++ rspOf r ∧ Frame [.mailboxes, .out] s t := by
  obtain ⟨off, hoff⟩ : ∃ off, addr / 8 * 8 = 0xF00000 + off := ⟨addr / 8 * 8 - 0xF00000, by omega⟩
  have range : 0x100 ≤ off ∧ off < 0x800 := by omega
  have base : addr / 8 * 8 - 0xF00100 = off - 0x100 := by omega
  have write := State.writeMgmt_mailbox (s := s) (be := be) data off hoff (by omega)
  rw [State.writeMailbox_request 64 data range hrst] at write
  refine ⟨_, exec_write_permitted h hs hright write ?_ ?_, fun i => ?_, ?_, fun j hj => ?_, ?_, ?_⟩
  · simp
  · simp
  · rw [base, ← get_writeRequest be data (s.mailbox 64).req (by omega) i]
    simp only [State.mailbox_withOut, State.modMailbox_mailbox, if_true]
  · simp only [State.mailbox_withOut, State.modMailbox_mailbox, if_true]
  · simp only [State.mailbox_withOut, State.modMailbox_mailbox, hj, if_false]
  · simp
  · exact frame_withOut (by simp [Frame]) (by decide) _
end

/-! ### Accesses without a right to check -/

/-- Other byte enables, or a reserved source, get BAD_ACCESS at the management port (R50). -/
theorem exec_badAccess {r : Requester} {addr : Nat} {be : Byte} {s : State} (hin : addr < 0x1000000)
    (h : (r = .fabric ∨ r = .test) ∧ beOk be = false ∨ r = .reserved 0 ∨ r = .reserved 1)
    (hrst : s.core.mgmtRstLow = false) :
    exec (.deniedRead r { addr := addr, be := be }) s = .next { s with out := s.out ++ [.mgmtRsp r 0 2] } ∧
    (Settled s → ∀ data, exec (.registerWrite r addr be data) s = .next { s with out := s.out ++ [.mgmtRsp r 0 2] }) := by
  have read : s.readAccess r { addr := addr, be := be } = s.respondReg r 0 2 := by
    rcases h with ⟨rfl | rfl, hbe⟩ | rfl | rfl <;> simp [State.readAccess, *]
  have write (data : Word) : s.registerWrite r addr be data = s.respondReg r 0 2 := by
    rcases h with ⟨rfl | rfl, hbe⟩ | rfl | rfl <;> simp [State.registerWrite, State.writeBy, *]
  exact ⟨by rw [exec_deniedRead (.inr hin), read]; rfl,
    fun hs data => exec_registerWrite_of_settled (.inr hin) hs (write data) rfl rfl⟩

section
variable {be : Byte} {s : State} (n : Fin 64) (off : Nat)

theorem exec_window_read (hrel : s.core.released = true) (hbe : beOk be = true) :
    exec (.deniedRead (.vf n) { addr := off, be := be }) s =
      .next { s with out := s.out ++ [.mgmtRsp (.vf n) (s.readWindow n (off / 8 * 8) &&& beMask be) 0] } := by
  rw [exec_deniedRead (.inl rfl)]
  simp [State.readAccess, State.readWin, State.respondReg, State.emit, hrel, hbe]

theorem exec_window_read_sized (hbe : beOk be = false) :
    exec (.deniedRead (.vf n) { addr := off, be := be }) s =
      .next { s with out := s.out ++ [.mgmtRsp (.vf n) 0 0] } := by
  rw [exec_deniedRead (.inl rfl)]
  simp [State.readAccess, State.respondReg, State.emit, hbe]

/-- A write of MBX_LEN in a tenant's window (R148, R403). -/
theorem answers_window_length (data : Word) (hrel : s.core.released = true) (hs : Settled s) (hbe : beOk be = true)
    (hlow : lowHalf be = true) (hoff : off / 8 * 8 = 0x3008) (hrst : s.core.mgmtRstLow = false) :
    Answers (.registerWrite (.vf n) off be data) s fun t =>
      t.mailbox n = { s.mailbox n with
        reqLen := BitVec.ofNat 11 (bits data 10 0),
        kind := if bits data 12 11 = 3 then (s.mailbox n).kind else BitVec.ofNat 2 (bits data 12 11) } ∧
      SameBut State.mailbox n s t ∧ Frame [.mailboxes] s t := by
  have write : s.registerWrite (.vf n) off be data = s.writeMailbox n 8 be data := by
    simp [State.registerWrite, State.hostWriteSized, State.writeWindow, hrel, hbe, hoff]
  rw [State.writeMailbox_length n data hlow hrst] at write
  refine ⟨_, exec_registerWrite_of_settled (.inl rfl) hs write ?_ ?_, ?_, ?_, ?_⟩
  · simp
  · simp
  · simp
  · intro j hj; simp [hj]
  · simp [Frame]

/-- A write of another size than 4 or 8 bytes raises an event and does nothing else (R52). -/
theorem answers_window_sized (data : Word) (hrel : s.core.released = true) (hs : Settled s) (hbe : beOk be = false) :
    Answers (.registerWrite (.vf n) off be data) s fun t => Frame [.faultsRest, .out] s t := by
  have write : s.registerWrite (.vf n) off be data = s.raise Ev.hostAccess { hall := some n.val } := by
    simp [State.registerWrite, State.hostWriteSized, hrel, hbe]
  have frame := State.raise_frame (List.Subset.refl _) s Ev.hostAccess { hall := some n.val }
  exact ⟨_, exec_registerWrite_of_settled (.inl rfl) hs write
    (frame.xlat (by decide) (by decide) (by decide)) (frame.engines (by decide)), frame⟩
end

/-- Settles O44: the accesses that reach the check of the right, those that the management port refuses before it, and
those of a function window. -/
theorem registerAccessesFollowTheRights : Obligations.RegisterAccessesFollowTheRights := by
  intro addr be s hin
  have unsized (hbe : be ≠ 0x0F ∧ be ≠ 0xF0 ∧ be ≠ 0xFF) : beOk be = false :=
    Bool.eq_false_iff.mpr fun ok => (beOk_iff.mp ok).elim hbe.1 fun k => k.elim hbe.2.1 hbe.2.2
  refine ⟨fun hbe r hr ha => ?_, fun r data h hrst => ?_, fun n off data hrel hs => ⟨fun hbe => ?_, fun h1 h2 h3 => ?_⟩⟩
  · have reach : Reaches r addr be s := ⟨hr, hbe, hin, ha⟩
    refine ⟨exec_read_permitted reach, answers_read_denied reach, fun hs data => ⟨answers_write_denied data reach hs,
      fun hright => ⟨fun haddr => ?_, fun haddr => ?_, fun haddr => ?_, fun haddr => ?_,
        answers_write_gallery data reach hs hright, answers_write_request data reach hs hright⟩⟩⟩
    · exact answers_write_plan 0x00 reach hs hright haddr (by decide) rfl
    · exact answers_write_plan 0x08 reach hs hright haddr (by decide) rfl
    · exact answers_write_plan 0x10 reach hs hright haddr (by decide) rfl
    · exact answers_write_plan 0x20 reach hs hright haddr (by decide) rfl
  · obtain ⟨read, write⟩ := exec_badAccess hin (h.imp_left fun k => ⟨k.1, unsized k.2⟩) hrst
    exact ⟨read, fun hs => write hs data⟩
  · refine ⟨exec_window_read n off hrel (beOk_iff.mpr hbe), fun hne hoff hrst => ?_⟩
    have low : lowHalf be = true := by
      rcases hbe with rfl | rfl | rfl
      · decide
      · exact absurd rfl hne
      · decide
    exact answers_window_length n off data hrel hs (beOk_iff.mpr hbe) low hoff hrst
  · have sized := unsized ⟨h1, h2, h3⟩
    exact ⟨exec_window_read_sized n off sized, answers_window_sized n off data hrel hs sized⟩

end Sys2Proof.Machine
end

section
/-! Tiles and fence transfers of the engine ports (R20, R36, R37, R44, R144, R163, R171). -/

namespace Sys2Proof.Machine
open Sys2Proof Sys2Proof.Safety

/-! ### Counting for a hall -/

/-- A hall that lives counts; no other hall changes (R144). -/
theorem State.countHall_hall (s : State) (h : Nat) (f : Counters → Counters) (k : Nat) :
    (s.countHall h f).hall k =
      if k = h ∧ (s.hall h).state.live = true then { s.hall h with live := f (s.hall h).live } else s.hall k := by
  unfold State.countHall
  by_cases live : (s.hall h).state.live = true <;> simp [live]

theorem State.countHall_sameBut (s : State) (h : Nat) (f : Counters → Counters) :
    SameBut State.hall h s (s.countHall h f) := by
  intro k hk
  simp [State.countHall_hall, hk]

/-! ### TILE_BEGIN -/

/-- What a port holds once it has begun its fetched tile `e` (R36). -/
def State.begunEngine (s : State) (p : Nat) (e : TileEntry) : Engine :=
  { s.engine p with
    fetched := none, begun := some e, overstay := false, counted := s.slotNow, last := some (s.lastTile e) }

/-- A fetched tile begins on a port that is up and not being pre-empted, while its slot is open (R20, R36). -/
theorem State.beginOk_of_fetched {s : State} {p : Nat} {index : BitVec 32} {e : TileEntry}
    (hup : s.engineUp p = true) (hbegun : (s.engine p).begun = none) (hpre : (s.engine p).preemptReq = false)
    (hswitch : (s.engine p).switching = false) (hfetched : (s.engine p).fetched = some e)
    (htile : e.tile = index.toNat) (hslot : s.slotOpen e.budget = true) : s.beginOk p index = true := by
  simp [State.beginOk, hup, hbegun, hpre, hswitch, hfetched, htile, hslot]

/-- The state of a port's begun tile before its hall has counted it. -/
def State.tileBegun (s : State) (p : Nat) (e : TileEntry) : State :=
  let t := s.modEngine p fun _ => s.begunEngine p e
  match s.invOf e with
  | some v => t.modQueue e.hall e.local_ fun x =>
      { x with inv := some (v.modTile e.tile fun y => { y with phase := .begun p, complete := false }) }
  | none => t

theorem State.tileBegin_of_ok {s : State} {p : Nat} {index : BitVec 32} {e : TileEntry}
    (hfetched : (s.engine p).fetched = some e) (hok : s.beginOk p index = true) :
    s.tileBegin p index =
      ((s.tileBegun p e).countHall e.hall fun c => { c with slots := c.slots + 1 }).emit (.beginReady p e.tile) := by
  have hinv : (s.modEngine p fun x => { x with
      fetched := none, begun := some e, overstay := false, counted := s.slotNow,
      last := some (s.lastTile e) }).invOf e = s.invOf e := State.invOf_congr s _ e (by simp) (by simp)
  unfold State.tileBegin
  rw [hfetched]
  simp only [hok, if_true]
  rw [hinv]
  cases hv : s.invOf e <;> simp only [State.tileBegun, hv] <;> rfl

theorem State.tileBegun_engine (s : State) (p : Nat) (e : TileEntry) (q : Nat) :
    (s.tileBegun p e).engine q = if q = p then s.begunEngine p e else s.engine q := by
  unfold State.tileBegun
  cases s.invOf e <;> simp

theorem State.tileBegun_hall (s : State) (p : Nat) (e : TileEntry) (h : Nat) :
    (s.tileBegun p e).hall h = s.hall h := by
  unfold State.tileBegun
  cases s.invOf e <;> simp

theorem State.tileBegun_out (s : State) (p : Nat) (e : TileEntry) : (s.tileBegun p e).out = s.out := by
  unfold State.tileBegun
  cases s.invOf e <;> simp

/-- The tile is marked begun in its invocation (R171). -/
theorem State.tileBegun_queue {s : State} {e : TileEntry} {v : Invocation} (hv : s.invOf e = some v) (p : Nat) :
    (s.tileBegun p e).queue e.hall e.local_ = { s.queue e.hall e.local_ with
      inv := some (v.modTile e.tile fun y => { y with phase := .begun p, complete := false }) } := by
  simp [State.tileBegun, hv]

theorem State.tileBegun_sameQueues (s : State) (p : Nat) (e : TileEntry) :
    SameQueuesBut e.hall e.local_ s (s.tileBegun p e) := by
  intro h q hq
  unfold State.tileBegun
  cases s.invOf e with
  | none => simp
  | some v => simp [State.modQueue_queue_ne _ _ _ _ _ _ hq]

theorem answers_tileBegin {p : Fin 256} {index : BitVec 32} {s : State} {e : TileEntry}
    (hup : s.engineUp p = true) (hbegun : (s.engine p).begun = none) (hpre : (s.engine p).preemptReq = false)
    (hswitch : (s.engine p).switching = false) (hfetched : (s.engine p).fetched = some e)
    (htile : e.tile = index.toNat) (hslot : s.slotOpen e.budget = true) :
    Answers (.tileBegin p index) s fun t =>
      t.engine p = s.begunEngine p e ∧
      (∀ v, s.invOf e = some v → t.queue e.hall e.local_ = { s.queue e.hall e.local_ with
        inv := some (v.modTile e.tile fun y => { y with phase := .begun p, complete := false }) }) ∧
      ((s.hall e.hall).state.live = true → t.hall e.hall = { s.hall e.hall with
        live := { (s.hall e.hall).live with slots := (s.hall e.hall).live.slots + 1 } }) ∧
      t.out = s.out ++ [.beginReady p e.tile] ∧ SameBut State.engine p s t ∧ SameBut State.hall e.hall s t ∧
      SameQueuesBut e.hall e.local_ s t ∧ Frame [.engines, .halls, .queues, .out] s t := by
  have hok := State.beginOk_of_fetched hup hbegun hpre hswitch hfetched htile hslot
  refine ⟨_, rfl, ?_⟩
  have frame := State.tileBegin_frame (P := [.engines, .halls, .queues, .out]) (by decide) s p index
  rw [State.tileBegin_of_ok hfetched hok] at frame ⊢
  refine ⟨?_, fun v hv => ?_, fun live => ?_, ?_, fun q hq => ?_, fun h hh => ?_, fun h q hq => ?_, frame⟩
  · simp [State.tileBegun_engine]
  · simp [State.tileBegun_queue hv]
  · simp [State.countHall_hall, State.tileBegun_hall, live]
  · simp [State.tileBegun_out]
  · simp [State.tileBegun_engine, hq]
  · simp [State.countHall_hall, State.tileBegun_hall, hh]
  · simpa using s.tileBegun_sameQueues p e h q hq

/-! ### TILE_END -/

/-- An invocation that runs on, with its wave not yet done, has nothing to settle (R171). -/
theorem State.settle_of_running {s : State} {h q : Nat} {v : Invocation} (hv : (s.queue h q).inv = some v)
    (hstop : v.stopping = false) (hwave : v.waveDone = false) : s.settle h q = s := by
  have one : s.settleOne h q = s := by simp [State.settleOne, hv, hstop, hwave]
  have loop (l : List Nat) : l.foldl (fun t _ => t.settleOne h q) s = s := by
    induction l with
    | nil => rfl
    | cons x l ih => rw [List.foldl_cons, one, ih]
  exact loop _

/-- The invocation once its tile `i` is done (R171). -/
def Invocation.tileDone (v : Invocation) (i : Nat) : Invocation :=
  { v.modTile i (fun x => { x with phase := .done }) with done := v.done + 1 }

theorem Invocation.tileEnded_ok {v : Invocation} {i : Nat} (hcomplete : (v.tile i).complete = true)
    (now : Word × BitVec 32) (offset : BitVec 32) : v.tileEnded now i .ok offset = v.tileDone i := by
  simp [Invocation.tileEnded, hcomplete, Invocation.tileDone]

theorem Invocation.tileDone_stopping (v : Invocation) (i : Nat) : (v.tileDone i).stopping = v.stopping := rfl

theorem Invocation.tileDone_waveDone {v : Invocation} (i : Nat)
    (h : v.done + 1 ≠ v.waveStart v.wave + v.waveSize) : (v.tileDone i).waveDone = false :=
  decide_eq_false h

/-- A tile that ends with status 0 once it has completed, in an invocation that runs on and not as the last of its wave,
is counted by its hall and by its invocation, and no more (R37, R144, R171). -/
theorem State.tileResult_of_running {s : State} {p : Nat} {e : TileEntry} {v : Invocation} (hv : s.invOf e = some v)
    (hphase : (v.tile e.tile).phase = .begun p) (hcomplete : (v.tile e.tile).complete = true)
    (hstop : v.stopping = false) (hwave : v.done + 1 ≠ v.waveStart v.wave + v.waveSize) (offset : BitVec 32) :
    s.tileResult p e .ok offset =
      (s.countHall e.hall fun c => { c with tiles := c.tiles + 1 }).modQueue e.hall e.local_ fun x =>
        { x with inv := some (v.tileDone e.tile) } := by
  have hinv : (s.countHall e.hall fun c => { c with tiles := c.tiles + 1 }).invOf e = some v := by
    rw [State.invOf_congr s _ e (by simp) (by simp), hv]
  have hfailed : v.failed = false := by
    simp only [Invocation.stopping, Bool.or_eq_false_iff] at hstop
    exact hstop.1.1.1
  have hdone : (v.tileDone e.tile).failed = false := hfailed
  unfold State.tileResult
  simp only [hinv, hphase, if_true, Invocation.tileEnded_ok hcomplete, hdone, State.stopStarts,
    Invocation.tileDone_stopping, hstop]
  exact State.settle_of_running (v := v.tileDone e.tile) (by simp) hstop (Invocation.tileDone_waveDone _ hwave)

/-- A port whose tile has ended: the slots that passed are counted, and the port answers ready (R37, R144). -/
def State.tileLeft (s : State) (p : Nat) : State :=
  ((s.emit (.endReady p)).countSlots p s.slotNow).modEngine p fun x =>
    { x with begun := none, overstay := false, redWait := none, fences := [] }

theorem State.tileEnd_of_idle {s : State} {p : Nat} {e : TileEntry} (hbegun : (s.engine p).begun = some e)
    (hdmas : (s.engine p).dmas = []) (hfences : (s.engine p).fences = []) (status : Byte) (offset : BitVec 32) :
    s.tileEnd p status offset =
      (s.tileLeft p).tileResult p e (tileEndStatus status offset).1 (tileEndStatus status offset).2 := by
  have hemit : ((s.emit (.endReady p)).engine p).begun = some e := by simpa using hbegun
  have idle : ((s.engine p).begun.isSome ∧ (s.engine p).dmas = [] ∧ (s.engine p).fences = []) := by
    simp [hbegun, hdmas, hfences]
  unfold State.tileEnd
  dsimp only
  rw [if_pos idle, State.endBegun, hemit]
  rfl

theorem answers_tileEnd {p : Fin 256} {s : State} {e : TileEntry} (hbegun : (s.engine p).begun = some e)
    (hdmas : (s.engine p).dmas = []) (hfences : (s.engine p).fences = []) (status : Byte) (offset : BitVec 32) :
    Answers (.tileEnd p status offset) s fun t =>
      (t.engine p).begun = none ∧
      Frame [.planRest, .halls, .queues, .contexts, .deadlines, .engines, .xlatRest, .commit, .out] s t := by
  refine ⟨_, rfl, ?_, State.tileEnd_frame (by decide) s p status offset⟩
  rw [State.tileEnd_of_idle hbegun hdmas hfences]
  simp [State.tileLeft]

section
variable {s : State} {p : Nat} {e : TileEntry} (hbegun : (s.engine p).begun = some e)
include hbegun

theorem State.countSlots_of_begun (k : Nat) :
    s.countSlots p k =
      (s.countHall e.hall fun c => { c with slots := c.slots + (k - (s.engine p).counted) }).modEngine p fun x =>
        { x with counted := max x.counted k } := by
  unfold State.countSlots
  rw [hbegun]

theorem State.tileLeft_eq :
    s.tileLeft p = (((s.emit (.endReady p)).countHall e.hall fun c =>
      { c with slots := c.slots + (s.slotNow - (s.engine p).counted) }).modEngine p fun x =>
        { x with counted := max x.counted s.slotNow }).modEngine p fun x =>
          { x with begun := none, overstay := false, redWait := none, fences := [] } := by
  have hemit : ((s.emit (.endReady p)).engine p).begun = some e := by simpa using hbegun
  rw [State.tileLeft, State.countSlots_of_begun hemit]
  simp

theorem State.tileLeft_hall (h : Nat) :
    (s.tileLeft p).hall h = if h = e.hall ∧ (s.hall e.hall).state.live = true then
      { s.hall e.hall with live := { (s.hall e.hall).live with
        slots := (s.hall e.hall).live.slots + (s.slotNow - (s.engine p).counted) } } else s.hall h := by
  simp [State.tileLeft_eq hbegun, State.countHall_hall]

theorem State.tileLeft_queue (h q : Nat) : (s.tileLeft p).queue h q = s.queue h q := by
  simp [State.tileLeft_eq hbegun]

theorem State.tileLeft_out : (s.tileLeft p).out = s.out ++ [.endReady p] := by
  simp [State.tileLeft_eq hbegun]

theorem State.tileLeft_sameEngines : SameBut State.engine p s (s.tileLeft p) := by
  intro q hq
  simp [State.tileLeft_eq hbegun, hq]

theorem State.tileLeft_invOf (x : TileEntry) : (s.tileLeft p).invOf x = s.invOf x := by
  refine State.invOf_congr s _ x ?_ (State.tileLeft_queue hbegun _ _)
  rw [State.tileLeft_hall hbegun]
  split
  · rename_i h; simp [h.1]
  · rfl

theorem State.tileLeft_frame : Frame [.engines, .halls, .queues, .out] s (s.tileLeft p) := by
  rw [State.tileLeft_eq hbegun]
  simp [Frame]

/-- A tile that ends with status 0 and completed, as one of its wave that others outlast (R37, R144, R171). -/
theorem answers_tileEnd_done {offset : BitVec 32} {v : Invocation} (hp : p < 256)
    (hdmas : (s.engine p).dmas = []) (hfences : (s.engine p).fences = []) (hv : s.invOf e = some v)
    (htile : v.tile e.tile = { phase := .begun p, faults := 0, complete := true })
    (hstop : v.stopping = false) (hwave : v.done + 1 ≠ v.waveStart v.wave + v.waveSize) :
    Answers (.tileEnd ⟨p, hp⟩ 0 offset) s fun t =>
      t.queue e.hall e.local_ = { s.queue e.hall e.local_ with inv := some (v.tileDone e.tile) } ∧
      ((s.hall e.hall).state.live = true → (t.hall e.hall).live = { (s.hall e.hall).live with
        tiles := (s.hall e.hall).live.tiles + 1,
        slots := (s.hall e.hall).live.slots + (s.slotNow - (s.engine p).counted) }) ∧
      t.out = s.out ++ [.endReady p] ∧ SameQueuesBut e.hall e.local_ s t ∧ SameBut State.engine p s t ∧
      SameBut State.hall e.hall s t ∧ Frame [.engines, .halls, .queues, .out] s t := by
  refine ⟨_, rfl, ?_⟩
  have hleft : (s.tileLeft p).invOf e = some v := (State.tileLeft_invOf hbegun e).trans hv
  rw [State.tileEnd_of_idle hbegun hdmas hfences,
    show tileEndStatus 0 offset = (.ok, 0) from rfl,
    State.tileResult_of_running hleft (by rw [htile]) (by rw [htile]) hstop hwave]
  refine ⟨?_, fun live => ?_, ?_, fun h q hq => ?_, fun q hq => ?_, fun h hh => ?_, ?_⟩
  · simp [State.tileLeft_queue hbegun]
  · simp [State.countHall_hall, State.tileLeft_hall hbegun, live]
  · simp [State.tileLeft_out hbegun]
  · simp [State.modQueue_queue_ne _ _ _ _ _ _ hq, State.tileLeft_queue hbegun]
  · simpa using State.tileLeft_sameEngines hbegun q hq
  · simp [State.countHall_hall, State.tileLeft_hall hbegun, hh]
  · exact (State.tileLeft_frame hbegun).trans (by simp [Frame])
end

/-! ### SIGNAL and COMPLETE -/

theorem State.gate_of_begun {s : State} {p : Nat} {gen : Gen} {e : TileEntry} (hbegun : (s.engine p).begun = some e)
    (hgen : e.hallGen = gen) (hhall : (s.hall e.hall).gen = e.hallGen) : s.gate p gen = .tile e := by
  subst hgen
  simp [State.gate, hbegun, hhall]

section
variable {s : State} {p : Nat} {data : BitVec 96} {e : TileEntry} (hup : s.engineUp p = true)
  (hgate : s.gate p (parseFence data).hallGen = .tile e)
include hup hgate

/-- A fence transfer with no write of its port outstanding, and none before it that waits, takes effect (R44). -/
theorem State.fenceTransfer_now (hwrites : (s.engine p).writesPending = false) (hfences : (s.engine p).fences = [])
    {kindOk : Nat → Bool} (hkind : kindOk (parseFence data).kind = true) (ue : Bool) :
    s.fenceTransfer p data kindOk ue =
      if (parseFence data).kind = 1 then s.completeNow p e (parseFence data)
      else s.signalNow p e (parseFence data) ue := by
  unfold State.fenceTransfer State.fenceNow
  simp [hup, hgate, hwrites, hfences, hkind]

/-- A fence transfer with a write of its port outstanding waits for the writes before it (R44). -/
theorem State.fenceTransfer_later (hwrites : (s.engine p).writesPending = true) {kindOk : Nat → Bool}
    (hkind : kindOk (parseFence data).kind = true) (ue : Bool) :
    s.fenceTransfer p data kindOk ue = s.modEngine p fun x => { x with fences := x.fences ++
      [{ data := data, fenceUe := ue, tags := (x.dmas.filter Dma.write).map Dma.tag }] } := by
  unfold State.fenceTransfer
  simp [hup, hgate, hwrites, hkind]

theorem answers_signal_now (hwrites : (s.engine p).writesPending = false) (hfences : (s.engine p).fences = [])
    (hres : (parseFence data).reserved = 0) (hkind : (parseFence data).kind = 0) (hp : p < 256) :
    Answers (.signal ⟨p, hp⟩ data false) s fun t =>
      t.fence e.hall (parseFence data).fence = (parseFence data).value ∧
      SameFencesBut e.hall (parseFence data).fence s t ∧ Frame [.fences, .queues] s t := by
  refine ⟨s.setFence e.hall (parseFence data).fence (parseFence data).value, ?_, ?_, fun h n hn => ?_,
    State.setFence_frame (by decide) _ _ _ _⟩
  · show Host.Outcome.next (s.fenceTransfer p data _ false) = _
    rw [State.fenceTransfer_now hup hgate hwrites hfences (by simp [hkind])]
    simp [hkind, State.signalNow, hres]
  · simp [State.setFence_fence]
  · simp [State.setFence_fence, hn]

theorem answers_complete_now {v : Invocation} (hwrites : (s.engine p).writesPending = false)
    (hfences : (s.engine p).fences = []) (hres : (parseFence data).reserved = 0) (hkind : (parseFence data).kind = 1)
    (hfence : (parseFence data).fence = 0) (hvalue : (parseFence data).value = 0) (hv : s.invOf e = some v)
    (hphase : (v.tile e.tile).phase = .begun p) (hp : p < 256) :
    Answers (.complete ⟨p, hp⟩ data) s fun t =>
      t.queue e.hall e.local_ = { s.queue e.hall e.local_ with
        inv := some (v.modTile e.tile fun x => { x with complete := true }) } ∧
      SameQueuesBut e.hall e.local_ s t ∧ Frame [.queues] s t := by
  refine ⟨s.modQueue e.hall e.local_ fun x =>
      { x with inv := some (v.modTile e.tile fun x => { x with complete := true }) }, ?_, ?_, fun h q hq => ?_, ?_⟩
  · show Host.Outcome.next (s.fenceTransfer p data _ false) = _
    rw [State.fenceTransfer_now hup hgate hwrites hfences (by simp [hkind])]
    simp [hkind, State.completeNow, hres, hfence, hvalue, hv, Invocation.completeTile, hphase]
  · simp
  · exact State.modQueue_queue_ne _ _ _ _ _ _ hq
  · exact State.modQueue_frame (by decide) _ _ _ _

/-- SIGNAL and COMPLETE alike join the port's fence transfers, behind the writes that are outstanding (R44). -/
theorem State.fenceTransfer_joins (hwrites : (s.engine p).writesPending = true) {kindOk : Nat → Bool}
    (hkind : kindOk (parseFence data).kind = true) :
    (s.fenceTransfer p data kindOk false).engine p = { s.engine p with fences := (s.engine p).fences ++
        [{ data := data, fenceUe := false, tags := ((s.engine p).dmas.filter Dma.write).map Dma.tag }] } ∧
      SameBut State.engine p s (s.fenceTransfer p data kindOk false) ∧
      Frame [.engines] s (s.fenceTransfer p data kindOk false) := by
  rw [State.fenceTransfer_later hup hgate hwrites hkind]
  exact ⟨by simp, fun q hq => by simp [hq], State.modEngine_frame (by decide) _ _ _⟩
end

/-- Settles O15: a tile begins, ends, signals and completes by the lemmas above. -/
theorem tilesBeginSignalAndEnd : Obligations.TilesBeginSignalAndEnd := by
  have up {s : State} {p : Nat} (hpresent : (s.engine p).present = true) (hservice : s.inService 3 p = true) :
      s.engineUp p = true := by simp [State.engineUp, hpresent, hservice]
  refine ⟨⟨?begins, ?ends, ?done⟩, ?fences⟩
  case begins =>
    intro p index s e hpresent hservice hbegun hpre hswitch hfetched htile hslot
    exact answers_tileBegin (up hpresent hservice) hbegun hpre hswitch hfetched htile hslot
  case ends =>
    intro p status offset s e hbegun hdmas hfences
    exact answers_tileEnd hbegun hdmas hfences status offset
  case done =>
    intro p offset s e v hbegun hdmas hfences hv htile hstop hwave
    exact answers_tileEnd_done hbegun p.isLt hdmas hfences hv htile hstop hwave
  case fences =>
    intro p data s e hpresent hservice hbegun hgen hhall
    have hup := up hpresent hservice
    have hgate := State.gate_of_begun hbegun hgen hhall
    refine ⟨fun hwrites hfences hres => ⟨fun hkind => ?_, fun v hkind hfence hvalue hv hphase => ?_⟩,
      fun hwrites => ⟨fun hkind => ?_, fun hkind => ?_⟩⟩
    · exact answers_signal_now hup hgate hwrites hfences hres hkind p.isLt
    · exact answers_complete_now hup hgate hwrites hfences hres hkind hfence hvalue hv hphase p.isLt
    · exact ⟨_, rfl, State.fenceTransfer_joins hup hgate hwrites (by simpa using hkind)⟩
    · exact ⟨_, rfl, State.fenceTransfer_joins hup hgate hwrites (by simpa using hkind)⟩

end Sys2Proof.Machine
end

section
/-! What the core still has to do of its own after a command: nothing, where no port was left waiting. -/

namespace Sys2Proof.Machine
open Sys2Proof Sys2Proof.Safety

/-! ### Ports where nothing waits -/

/-- No request of an engine port waits for one of `ws`, and no fence transfer of it waits for responses. -/
def Engine.Rests (ws : List DmaWait) (e : Engine) : Prop := (∀ d ∈ e.dmas, d.wait ∉ ws) ∧ e.fences = []

/-- Every engine port rests. -/
def Quiet (ws : List DmaWait) (s : State) : Prop := ∀ e ∈ s.engines, e.2.Rests ws

theorem Tab.get_mem_or_default {α : Type} (d : α) (t : Tab α) (k : Nat) : (k, t.get d k) ∈ t ∨ t.get d k = d := by
  induction t with
  | nil => exact .inr rfl
  | cons e t ih =>
    obtain ⟨j, v⟩ := e
    by_cases h : j = k
    · simp [Tab.get, h]
    · simpa [Tab.get, h, Ne.symm h] using ih

theorem Tab.mem_mod {α : Type} [DecidableEq α] {d : α} {t : Tab α} {k : Nat} {f : α → α} {e : Nat × α}
    (h : e ∈ t.mod d k f) : e = (k, f (t.get d k)) ∨ e ∈ t := by
  have erased (h : e ∈ t.erase k) : e ∈ t := (List.mem_filter.mp h).1
  unfold Tab.mod Tab.set at h
  split at h
  · exact .inr (erased h)
  · exact (Tab.mem_insert _ _ _ _ h).imp id erased

theorem Engine.Rests.without {ws : List DmaWait} {e : Engine} (h : e.Rests ws) (tags : List Nat) :
    (e.without tags).Rests ws :=
  ⟨fun d hd => h.1 d (List.mem_filter.mp hd).1, by simp [Engine.without, h.2]⟩

theorem Engine.Rests.append {ws : List DmaWait} {e : Engine} (h : e.Rests ws) {d : Dma} (hd : d.wait ∉ ws) :
    ({ e with dmas := e.dmas ++ [d] } : Engine).Rests ws := by
  refine ⟨fun x hx => ?_, h.2⟩
  rcases List.mem_append.mp hx with hx | hx
  · exact h.1 x hx
  · exact (List.mem_singleton.mp hx) ▸ hd

theorem Engine.Rests.mapDmas {ws : List DmaWait} {e : Engine} (h : e.Rests ws) {f : Dma → Dma}
    (hf : ∀ d, (f d).wait = d.wait) : ({ e with dmas := e.dmas.map f } : Engine).Rests ws := by
  refine ⟨fun x hx => ?_, h.2⟩
  obtain ⟨d, hd, rfl⟩ := List.mem_map.mp hx
  rw [hf]
  exact h.1 d hd

section
variable {ws : List DmaWait} {s t : State}

theorem quiet_of_settled (hs : Settled s) (hw : NoneWaits ws s) : Quiet (.lock :: ws) s := by
  intro e he
  obtain ⟨hlock, hfences⟩ := hs.2.2 e he
  exact ⟨fun d hd => by simpa using ⟨hlock d hd, hw e he d hd⟩, hfences⟩

theorem quiet_lock_of_settled (hs : Settled s) : Quiet [.lock] s :=
  quiet_of_settled hs fun _ _ _ _ => List.not_mem_nil

theorem Quiet.of_engines (h : Quiet ws s) (he : t.engines = s.engines) : Quiet ws t := by
  unfold Quiet
  rwa [he]

theorem Quiet.of_frame (h : Quiet ws s) {l : List Part} (f : Frame l s t) (n : .engines ∉ l) : Quiet ws t :=
  h.of_engines (f.engines n)

theorem Quiet.mono {ws' : List DmaWait} (h : Quiet ws s) (hsub : ws' ⊆ ws) : Quiet ws' s :=
  fun e he => ⟨fun d hd hwait => (h e he).1 d hd (hsub hwait), (h e he).2⟩

theorem Quiet.engine (h : Quiet ws s) (p : Nat) : (s.engine p).Rests ws := by
  unfold State.engine
  rcases Tab.get_mem_or_default {} s.engines p with k | k
  · exact h _ k
  · rw [k]
    exact ⟨by simp, rfl⟩

theorem Quiet.modEngine (h : Quiet ws s) {p : Nat} {f : Engine → Engine} (hf : (f (s.engine p)).Rests ws) :
    Quiet ws (s.modEngine p f) := by
  intro e he
  rcases Tab.mem_mod he with rfl | k
  · exact hf
  · exact h e k

theorem Quiet.modDma (h : Quiet ws s) (p tag : Nat) {f : Dma → Dma} (hf : ∀ d, (f d).wait = d.wait) :
    Quiet ws (s.modDma p tag f) :=
  Quiet.modEngine h ((h.engine p).mapDmas fun d => by split <;> simp [hf])

theorem Quiet.wake (h : Quiet ws s) : s.wake ws = s := State.wake_of_none s ws fun e he => (h e he).1

/-- A response at an engine port takes its request out of the port and is presented (R42). -/
theorem State.respond_eq (s : State) {p : Nat} (hp : p < 256) (d : Dma) (st : Status) :
    s.respond p d st = (s.emit (d.response p st)).modEngine p fun e => e.without [d.tag] := by
  have tags (a b : Nat) : (!a == b) = !decide (a = b) := rfl
  simp [State.respond, State.deliver, hp, Engine.without, bne, tags]

theorem Quiet.respond (h : Quiet ws s) {p : Nat} (hp : p < 256) (d : Dma) (st : Status) :
    Quiet ws (s.respond p d st) := by
  rw [State.respond_eq s hp]
  exact Quiet.modEngine (h.of_engines (by simp)) ((h.engine p).without _)
end

/-! ### The core's own accesses -/

/-- No inner access has completed, and no write of the core has come or gone. -/
def SameWork (s t : State) : Prop := t.xlat.served = s.xlat.served ∧ t.xlat.writes = s.xlat.writes

theorem SameWork.trans {s t u : State} (a : SameWork s t) (b : SameWork t u) : SameWork s u :=
  ⟨b.1.trans a.1, b.2.trans a.2⟩

theorem sameWork_of_xlat {s t : State} (h : t.xlat = s.xlat) : SameWork s t := by
  simp [SameWork, h]

/-- A command that leaves the ports quiet and starts no work of the core's own ends with its own effects. -/
theorem State.drainServed_of_quiet {s t : State} (hs : Settled s) (hw : SameWork s t) (hq : Quiet [.lock] t) :
    t.drainServed = t := by
  obtain ⟨served, writes⟩ := hw
  refine State.drainServed_of_settled t ⟨served.trans hs.1, fun w hw => ?_, fun e he => ?_⟩
  · rw [writes] at hw
    simpa only [State.writeReady, writes] using hs.2.1 w hw
  · simpa [Engine.Rests] using hq e he

/-- So ends a command whose last effect is a response at an engine port. -/
theorem State.drainServed_respond {s t : State} (hs : Settled s) (hw : SameWork s t) (hq : Quiet [.lock] t) {p : Nat}
    (hp : p < 256) (d : Dma) (st : Status) : (t.respond p d st).drainServed = t.respond p d st := by
  refine State.drainServed_of_quiet hs (hw.trans (sameWork_of_xlat ?_)) (hq.respond hp d st)
  simp [State.respond_eq _ hp]

end Sys2Proof.Machine
end

section
/-! DMA requests of the engine ports: working memory, and windows that leave the chip (R39 to R43, R138 to R140, R211,
R213). -/

namespace Sys2Proof.Machine
open Sys2Proof Sys2Proof.Safety

/-! ### A request that its port takes -/

/-- A request that joined a port at rest and has its response has left the port as it was. -/
theorem Engine.without_append {ws : List DmaWait} {e : Engine} (h : e.Rests ws) {d : Dma}
    (fresh : ∀ x ∈ e.dmas, x.tag ≠ d.tag) : ({ e with dmas := e.dmas ++ [d] } : Engine).without [d.tag] = e := by
  have hdmas : (e.dmas ++ [d]).filter (fun x => !([d.tag].contains x.tag)) = e.dmas := by
    simpa [bne, beq_eq_decide] using filter_tag_append e.dmas d d.tag fresh rfl
  unfold Engine.without
  dsimp only
  rw [hdmas, h.2]
  cases e
  simp_all [Engine.Rests]

section
variable {p : Nat} {req : BitVec 128} {e : TileEntry} {s : State} (hd : DmaTaken p req e s) (beats : List WBeat)
include hd

/-- The checks before those of its kind pass a request that its port takes (R36, R39, R40). -/
theorem State.dmaRequest_of_taken (err : SramErr) :
    s.dmaRequest p req beats err =
      if (parseDma req).kind = 0 then s.segmentRequest p e (dmaOf e (parseDma req) beats) err
      else if (parseDma req).kind = 1 then s.startHost p (dmaOf e (parseDma req) beats)
      else s.windowRequest p e (dmaOf e (parseDma req) beats) err := by
  obtain ⟨hpresent, hservice, hbegun, hgen, hhall, hfresh, hform, htorn, -⟩ := hd
  have hup : s.engineUp p = true := by simp [State.engineUp, hpresent, hservice]
  simp [State.dmaRequest, hup, State.dma_none_of s p _ hfresh, State.gate_of_begun hbegun hgen hhall, hform, htorn]

theorem State.dmaRequest_segment (hkind : (parseDma req).kind = 0)
    (hcheck : (s.seg (dmaOf e (parseDma req) beats).seg).check (parseDma req).address (parseDma req).length
      (dmaOf e (parseDma req) beats).write = .pass) :
    s.dmaRequest p req beats .none = s.startSeg p (dmaOf e (parseDma req) beats) := by
  have noError (k : Nat) (d : Dma) : s.segmentError k d .none = s := by simp [State.segmentError]
  have hcheck : (s.seg (dmaOf e (parseDma req) beats).seg).check (dmaOf e (parseDma req) beats).address
      (dmaOf e (parseDma req) beats).length (dmaOf e (parseDma req) beats).write = .pass := hcheck
  simp [State.dmaRequest_of_taken hd beats, hkind, State.segmentRequest, noError, hcheck]

theorem State.dmaRequest_window (hkind : (parseDma req).kind = 2)
    (hserves : let d := dmaOf e (parseDma req) beats
      (s.win d.index).serves d.hall d.context d.address d.length d.write = true) :
    s.dmaRequest p req beats .none = s.startWindow p (dmaOf e (parseDma req) beats) := by
  simp [State.dmaRequest_of_taken hd beats, hkind, State.windowRequest, hserves]

theorem fresh_of_taken : ∀ x ∈ (s.engine p).dmas, x.tag ≠ (dmaOf e (parseDma req) beats).tag := by
  obtain ⟨-, -, -, -, -, hfresh, -⟩ := hd
  exact hfresh

theorem settled_of_taken : Settled s := by
  obtain ⟨-, -, -, -, -, -, -, -, hs⟩ := hd
  exact hs
end

/-! ### Working memory -/

/-- The request `d` has joined port `p` and been counted among those that reached the unit (R244). -/
def State.arrived (s : State) (p : Nat) (d : Dma) : State :=
  let t := s.modEngine p fun e => { e with dmas := e.dmas ++ [d] }
  { t with protect := { t.protect with arrivals := t.protect.arrivals + 1 } }

section
variable {s : State} {p : Nat} {d : Dma}

theorem State.arrived_engine (q : Nat) : (s.arrived p d).engine q =
    if q = p then { s.engine p with dmas := (s.engine p).dmas ++ [d] } else s.engine q :=
  s.modEngine_engine p q fun e => { e with dmas := e.dmas ++ [d] }

theorem State.arrived_protect : (s.arrived p d).protect = { s.protect with arrivals := s.protect.arrivals + 1 } := by
  simp [State.arrived]

theorem State.arrived_out : (s.arrived p d).out = s.out := by simp [State.arrived]

theorem State.arrived_hall (h : Nat) : (s.arrived p d).hall h = s.hall h := by
  simp [State.arrived, State.hall]

theorem State.arrived_xlat : (s.arrived p d).xlat = s.xlat := by simp [State.arrived]

theorem State.arrived_frame : Frame [.engines, .protect] s (s.arrived p d) :=
  (State.modEngine_frame (by decide) s p _).trans (without_protect _ _ (by decide))

theorem State.arrived_dma (fresh : ∀ x ∈ (s.engine p).dmas, x.tag ≠ d.tag) : (s.arrived p d).dma p d.tag = some d :=
  s.dma_append p d fresh

theorem Quiet.arrived {ws : List DmaWait} (h : Quiet ws s) (hwait : d.wait ∉ ws) : Quiet ws (s.arrived p d) := by
  refine Quiet.of_engines (Quiet.modEngine h (f := fun e => { e with dmas := e.dmas ++ [d] }) ?_) rfl
  exact (h.engine p).append hwait

/-- Once it has its response, a request that had arrived has left every port as it was. -/
theorem State.respond_arrived (h : Quiet [.lock] s) (fresh : ∀ x ∈ (s.engine p).dmas, x.tag ≠ d.tag) {t : State}
    (ht : ∀ q, t.engine q = (s.arrived p d).engine q) (st : Status) (q : Nat) :
    (t.respond p d st).engine q = s.engine q := by
  rw [State.respond_engine, ht, ht, State.arrived_engine, State.arrived_engine]
  by_cases hq : q = p
  · simp [hq, Engine.without_append (h.engine p) fresh]
  · simp [hq]

/-- The state in which a read of a clear granule is answered: counted for its hall, with no lines (R139, R144). -/
def State.zeroed (s : State) (p : Nat) (d : Dma) : State :=
  ((s.arrived p d).countHall d.hall fun c => { c with wmZeroReads := c.wmZeroReads + 1 }).modDma p d.tag fun x =>
    { x with lines := [] }

theorem State.zeroed_dma (fresh : ∀ x ∈ (s.engine p).dmas, x.tag ≠ d.tag) (hlines : d.lines = []) :
    (s.zeroed p d).dma p d.tag = some d := by
  unfold State.zeroed
  rw [State.modDma_dma _ _ _ _ (by intro x; rfl), State.dma_congr (s.arrived p d) _ p d.tag (by simp),
    State.arrived_dma fresh, Option.map_some, ← hlines]

theorem State.zeroed_out : (s.zeroed p d).out = s.out := by
  simp [State.zeroed, State.modDma, State.arrived_out]

theorem State.zeroed_protect : (s.zeroed p d).protect = { s.protect with arrivals := s.protect.arrivals + 1 } := by
  have count := (State.countHall_frame (List.Subset.refl _) (s.arrived p d) d.hall
    fun c => { c with wmZeroReads := c.wmZeroReads + 1 }).protect (by decide)
  simp [State.zeroed, State.modDma, count, State.arrived_protect]

theorem State.zeroed_hall (h : Nat) : (s.zeroed p d).hall h =
    if h = d.hall ∧ (s.hall d.hall).state.live = true then
      { s.hall d.hall with live := { (s.hall d.hall).live with wmZeroReads := (s.hall d.hall).live.wmZeroReads + 1 } }
    else s.hall h := by
  simp [State.zeroed, State.modDma, State.countHall_hall, State.arrived_hall]

theorem State.zeroed_frame : Frame [.engines, .halls, .protect] s (s.zeroed p d) :=
  ((State.arrived_frame (s := s) (p := p) (d := d)).mono (by decide)).trans
    (by simp [Frame, State.zeroed, State.modDma])

theorem Quiet.zeroed {ws : List DmaWait} (h : Quiet ws s) (hwait : d.wait ∉ ws) : Quiet ws (s.zeroed p d) := by
  have count := State.countHall_frame (List.Subset.refl _) (s.arrived p d) d.hall
    fun c => { c with wmZeroReads := c.wmZeroReads + 1 }
  exact Quiet.modDma ((h.arrived hwait).of_frame count (by decide)) p d.tag (by intro x; rfl)

theorem State.zeroed_engine (fresh : ∀ x ∈ (s.engine p).dmas, x.tag ≠ d.tag) (hlines : d.lines = []) (q : Nat) :
    (s.zeroed p d).engine q = (s.arrived p d).engine q := by
  have hself : ({ d with lines := [] } : Dma) = d := by rw [← hlines]
  have others : (s.engine p).dmas.map (fun x => if x.tag = d.tag then { x with lines := [] } else x) =
      (s.engine p).dmas := by
    conv_rhs => rw [← List.map_id (s.engine p).dmas]
    exact List.map_congr_left fun x hx => if_neg (fresh x hx)
  rw [State.zeroed, State.modDma_engine]
  by_cases hq : q = p
  · simp [hq, State.arrived_engine, others, hself]
  · simp [hq]

/-- A read of a granule that nothing has written is answered with the status that it came with (R139). -/
theorem State.runWm_zeros (fresh : ∀ x ∈ (s.engine p).dmas, x.tag ≠ d.tag) (hwrite : d.write = false)
    (hclear : d.granule ∉ s.protect.written) (hlines : d.lines = []) :
    (s.arrived p d).runWm p d = (s.zeroed p d).respond p d d.status := by
  rw [State.runWm_readClear _ _ _ hwrite (by rwa [State.arrived_protect])]
  show (s.zeroed p d).respondNow p d.tag = _
  rw [State.respondNow, State.zeroed_dma fresh hlines]

/-- The state in which a write of working memory is answered: its blocks have left, and its granule is marked written
(R140). -/
def State.wmWritten (s : State) (p : Nat) (d : Dma) : State :=
  let t := s.arrived p d
  { t with
    out := t.out ++ (if d.granule ∈ t.protect.written then d.blocks else d.granuleBlocks).map fun b =>
      .wmWrite (d.segBase * 2 ^ 13 + b / 4) d.hall (t.hall d.hall).gen (wmBlock d b).1
        (if d.granule ∈ t.protect.written then (wmBlock d b).2 else BitVec.allOnes 256)
    protect := { t.protect with written := insertNat d.granule t.protect.written } }

theorem State.wmWritten_protect : (s.wmWritten p d).protect =
    { s.protect with arrivals := s.protect.arrivals + 1, written := insertNat d.granule s.protect.written } := by
  simp [State.wmWritten, State.arrived_protect]

theorem State.wmWritten_out : (s.wmWritten p d).out =
    s.out ++ (if d.granule ∈ s.protect.written then d.blocks else d.granuleBlocks).map fun b =>
      .wmWrite (d.segBase * 2 ^ 13 + b / 4) d.hall (s.hall d.hall).gen (wmBlock d b).1
        (if d.granule ∈ s.protect.written then (wmBlock d b).2 else BitVec.allOnes 256) := by
  simp only [State.wmWritten, State.arrived_out, State.arrived_protect, State.arrived_hall]

theorem State.wmWritten_frame : Frame [.engines, .protect, .out] s (s.wmWritten p d) := by
  have both (t : State) (x : Protect) (o : List Out) :
      Frame [.engines, .protect, .out] t { t with protect := x, out := o } := by
    simp only [Frame]
    rw [without_out { t with protect := x } o (by decide), without_protect t x (by decide)]
  exact (State.arrived_frame.mono (by decide)).trans (both _ _ _)
end

/-- A request that its port takes and that passes its segment's check on working memory runs at once (R197). -/
theorem exec_dmaRequest_wm {p : Fin 256} {req : BitVec 128} {beats : List WBeat} {s : State} {e : TileEntry}
    (hd : DmaTaken p req e s) (hkind : (parseDma req).kind = 0)
    (hmode : (s.seg (dmaOf e (parseDma req) beats).seg).mode = .wm)
    (hcheck : (s.seg (dmaOf e (parseDma req) beats).seg).check (parseDma req).address (parseDma req).length
      (dmaOf e (parseDma req) beats).write = .pass) :
    let d := s.translated (dmaOf e (parseDma req) beats)
    exec (.dmaRequest p req beats .none) s = .next ((s.arrived p d).runWm p d).drainServed := by
  intro d
  show Host.Outcome.next (s.dmaRequest p req beats .none).drainServed = _
  rw [State.dmaRequest_segment hd beats hkind hcheck, State.startSeg_wm s p _ (fresh_of_taken hd beats) hmode]
  rfl

section
variable {s : State} {p : Nat} {d : Dma}

/-- A read of a clear granule, from its arrival to the end of its command (R139, R144). -/
theorem State.zeroRead (hs : Settled s) (hp : p < 256) (fresh : ∀ x ∈ (s.engine p).dmas, x.tag ≠ d.tag)
    (hwait : d.wait = .lines) (hwrite : d.write = false) (hclear : d.granule ∉ s.protect.written)
    (hlines : d.lines = []) (hstatus : d.status = .ok) :
    let t := ((s.arrived p d).runWm p d).drainServed
    t.out = s.out ++ [.dmaRead p d.tag .ok (List.replicate d.beatCount 0)] ∧
      t.protect = { s.protect with arrivals := s.protect.arrivals + 1 } ∧
      ((s.hall d.hall).state.live = true → (t.hall d.hall).live = { (s.hall d.hall).live with
        wmZeroReads := (s.hall d.hall).live.wmZeroReads + 1 }) ∧
      (∀ j, t.engine j = s.engine j) ∧ SameBut State.hall d.hall s t ∧
      Frame [.engines, .halls, .protect, .out] s t := by
  have quiet := quiet_lock_of_settled hs
  have hx : (s.zeroed p d).xlat = s.xlat := State.zeroed_frame.xlat (by decide) (by decide) (by decide)
  have hresponse : d.response p .ok = .dmaRead p d.tag .ok (List.replicate d.beatCount 0) := by
    simp only [Dma.response, hwrite, if_true, d.ok_beats hlines]
    rfl
  rw [State.runWm_zeros fresh hwrite hclear hlines, hstatus,
    State.drainServed_respond hs (sameWork_of_xlat hx) (quiet.zeroed (by simp [hwait])) hp]
  refine ⟨?_, ?_, fun live => ?_, fun j => ?_, fun h hh => ?_, ?_⟩
  · simp [State.respond_eq _ hp, State.zeroed_out, hresponse]
  · simp [State.respond_eq _ hp, State.zeroed_protect]
  · simp [State.respond_eq _ hp, State.zeroed_hall, live]
  · exact State.respond_arrived quiet fresh (State.zeroed_engine fresh hlines) .ok j
  · simp [State.respond_eq _ hp, State.zeroed_hall, hh]
  · exact ((State.zeroed_frame (s := s) (p := p) (d := d)).mono (by decide)).trans
      (by simp [Frame, State.respond_eq _ hp])

/-- A write of working memory, from its arrival to the end of its command (R140). -/
theorem State.wmWrite (hs : Settled s) (hp : p < 256) (fresh : ∀ x ∈ (s.engine p).dmas, x.tag ≠ d.tag)
    (hwait : d.wait = .lines) (hwrite : d.write = true) :
    let t := ((s.arrived p d).runWm p d).drainServed
    (∀ n, n ∈ t.protect.written ↔ n = d.granule ∨ n ∈ s.protect.written) ∧
      t.protect = { s.protect with arrivals := s.protect.arrivals + 1, written := t.protect.written } ∧
      t.out = s.out ++ (if d.granule ∈ s.protect.written then d.blocks else d.granuleBlocks).map (fun b =>
          .wmWrite (d.segBase * 2 ^ 13 + b / 4) d.hall (s.hall d.hall).gen (wmBlock d b).1
            (if d.granule ∈ s.protect.written then (wmBlock d b).2 else BitVec.allOnes 256)) ++
        [.dmaWrite p d.tag .ok] ∧
      (∀ j, t.engine j = s.engine j) ∧ Frame [.engines, .protect, .out] s t := by
  have quiet := quiet_lock_of_settled hs
  have hx : (s.wmWritten p d).xlat = s.xlat := State.wmWritten_frame.xlat (by decide) (by decide) (by decide)
  have hresponse : d.response p .ok = .dmaWrite p d.tag .ok := by simp [Dma.response, hwrite]
  have run : (s.arrived p d).runWm p d = (s.wmWritten p d).respond p d .ok := State.runWm_write _ _ _ hwrite
  have still : Quiet [.lock] (s.wmWritten p d) := (quiet.arrived (d := d) (by simp [hwait])).of_engines rfl
  rw [run, State.drainServed_respond hs (sameWork_of_xlat hx) still hp]
  refine ⟨fun n => ?_, ?_, ?_, fun j => ?_, ?_⟩
  · simp [State.respond_eq _ hp, State.wmWritten_protect, mem_insertNat]
  · simp [State.respond_eq _ hp, State.wmWritten_protect]
  · simp [State.respond_eq _ hp, State.wmWritten_out, hresponse]
  · exact State.respond_arrived quiet fresh (t := s.wmWritten p d) (fun _ => rfl) .ok j
  · exact (State.wmWritten_frame (s := s) (p := p) (d := d)).trans (by simp [Frame, State.respond_eq _ hp])
end

/-! ### Windows -/

/-- What every round of a loop over a list keeps, the loop keeps. -/
theorem forEach_keep {α β : Type} (g : State → β) (l : List α) {f : α → State → State} (s : State)
    (h : ∀ a t, g (f a t) = g t) : g (forEach l f s) = g s := by
  unfold forEach
  induction l generalizing s with
  | nil => rfl
  | cons a l ih => exact (ih _).trans (h a s)

theorem State.queueFrame_reqs (s : State) (n h vc : Nat) (hdr : BitVec 512) (body : List Byte) :
    ((s.queueFrame n h vc hdr body).link n).reqs = (s.link n).reqs := by
  unfold State.queueFrame
  split <;> simp

theorem State.queueFrame_sameLinks (s : State) (n h vc : Nat) (hdr : BitVec 512) (body : List Byte) :
    SameBut State.link n s (s.queueFrame n h vc hdr body) := by
  intro j hj
  unfold State.queueFrame
  split <;> simp [hj]

/-- The frames of a request leave what is outstanding on its port as it is, and every other port. -/
theorem State.queueReq_reqs (s : State) (n : Nat) (r : WinReqOut) :
    ((s.queueReq n r).link n).reqs = (s.link n).reqs := by
  unfold State.queueReq State.queueRun
  split <;> exact forEach_keep (fun t => (t.link n).reqs) _ s fun _ t => t.queueFrame_reqs _ _ _ _ _

theorem State.queueReq_sameLinks (s : State) (n : Nat) (r : WinReqOut) : SameBut State.link n s (s.queueReq n r) := by
  intro j hj
  unfold State.queueReq State.queueRun
  split <;> exact forEach_keep (fun t => t.link j) _ s fun _ t => t.queueFrame_sameLinks _ _ _ _ _ j hj

/-- A request for which a number is free is listed under it (R295, log entry 75). -/
theorem State.numberReq_reqs {s : State} {n i : Nat} {r : WinReqOut} (h : (s.link n).freeReq r.copy = some i) :
    ((s.numberReq n r).link n).reqs = (s.link n).reqs ++ [{ r with id := i }] := by
  unfold State.numberReq
  rw [h]
  simp [State.queueReq_reqs]

theorem State.numberReq_sameLinks (s : State) (n : Nat) (r : WinReqOut) : SameBut State.link n s (s.numberReq n r) := by
  intro j hj
  unfold State.numberReq
  split
  · simp [State.queueReq_sameLinks _ _ _ j hj, hj]
  · simp [hj]

section
variable {s : State} {p : Nat} {d : Dma}

theorem State.startWindow_unreachable (hp : p < 256)
    (h : s.portFenced (s.win d.index).linkPort = true ∨ s.linkUsed (s.win d.index).linkPort = false) :
    s.startWindow p d = s.emit (d.response p .timeoutRemote) := by
  have h : s.portFenced (s.win d.index).linkPort = true ∨ (!s.linkUsed (s.win d.index).linkPort) = true := by
    simpa using h
  simp only [State.startWindow, if_pos h, State.deliver, if_pos hp]

/-- The outstanding request of the link port that a window request becomes, before it has its number (R295). -/
def State.windowReq (s : State) (p : Nat) (d : Dma) : WinReqOut :=
  { id := 0, hall := d.hall, hallGen := d.hallGen, port := p, tag := d.tag, entry := d.index,
    entryGen := (s.win d.index).gen, write := d.write, length := d.length,
    remoteIndex := (s.win d.index).remoteIndex, offset := d.address, data := if d.write then d.bytes else [] }

theorem State.startWindow_leaves (hfenced : s.portFenced (s.win d.index).linkPort = false)
    (hused : s.linkUsed (s.win d.index).linkPort = true) :
    s.startWindow p d =
      (s.modEngine p fun e => { e with dmas := e.dmas ++ [{ d with wait := .link }] }).numberReq
        (s.win d.index).linkPort (s.windowReq p d) := by
  simp [State.startWindow, hfenced, hused, State.windowReq]

/-- A window request whose port is up, from its start to the end of its command (R211, R213, R295). -/
theorem State.windowLeaves (hs : Settled s) (hfenced : s.portFenced (s.win d.index).linkPort = false)
    (hused : s.linkUsed (s.win d.index).linkPort = true) :
    let n := (s.win d.index).linkPort
    let t := (s.startWindow p d).drainServed
    (t.engine p).dmas = (s.engine p).dmas ++ [{ d with wait := .link }] ∧
      (∀ i, (s.link n).freeReq false = some i →
        (t.link n).reqs = (s.link n).reqs ++ [{ s.windowReq p d with id := i }]) ∧
      t.out = s.out ∧ SameBut State.engine p s t ∧ SameBut State.link n s t ∧ Frame [.engines, .links] s t := by
  intro n
  rw [State.startWindow_leaves hfenced hused]
  let joined := s.modEngine p fun e => { e with dmas := e.dmas ++ [{ d with wait := .link }] }
  have numbered : Frame [.links] joined (joined.numberReq n (s.windowReq p d)) :=
    State.numberReq_frame (List.Subset.refl _) _ _ _
  have engines := engine_of_frame numbered (by decide)
  have joins : Frame [.engines, .links] s joined := State.modEngine_frame (by decide) _ _ _
  have frame := joins.trans (numbered.mono (by decide))
  have quiet : Quiet [.lock] joined :=
    Quiet.modEngine (quiet_lock_of_settled hs) (((quiet_lock_of_settled hs).engine p).append (by simp))
  have work := sameWork_of_xlat (frame.xlat (by decide) (by decide) (by decide))
  rw [State.drainServed_of_quiet hs work (quiet.of_frame numbered (by decide))]
  refine ⟨?_, fun i hi => ?_, frame.out (by decide), fun q hq => ?_, fun j hj => ?_, frame⟩
  · rw [engines]
    simp [joined]
  · rw [State.numberReq_reqs (i := i) (by simpa [joined, State.windowReq] using hi)]
    simp [joined]
  · rw [engines]
    simp [joined, hq]
  · rw [State.numberReq_sameLinks _ _ _ j hj]
    simp [joined]
end

/-- Settles O17: working memory answers at once, and a window's request joins its link port. -/
theorem dmaRequestsRunOrLeaveTheChip : Obligations.DmaRequestsRunOrLeaveTheChip := by
  refine ⟨fun p req beats s e hd hkind hmode hcheck => ?wm, ?window⟩
  case wm =>
    have hs := settled_of_taken hd
    have run := exec_dmaRequest_wm (beats := beats) hd hkind hmode hcheck
    have fresh := fresh_of_taken hd beats
    refine ⟨fun hwrite hclear => ⟨_, run, ?_⟩, fun hwrite => ⟨_, run, ?_⟩⟩
    · exact State.zeroRead (d := s.translated (dmaOf e (parseDma req) beats)) hs p.isLt fresh rfl hwrite hclear rfl rfl
    · obtain ⟨written, protect, out, engines, frame⟩ :=
        State.wmWrite (d := s.translated (dmaOf e (parseDma req) beats)) hs p.isLt fresh rfl hwrite
      exact ⟨written, protect, ⟨_, out, rfl⟩, engines, frame⟩
  case window =>
    intro p req beats s e hd hkind d n hserves
    have hs := settled_of_taken hd
    have run : exec (.dmaRequest p req beats .none) s = .next (s.startWindow p d).drainServed :=
      congrArg (fun t : State => Host.Outcome.next t.drainServed) (State.dmaRequest_window hd beats hkind hserves)
    refine ⟨fun ⟨hfenced, hused⟩ => ⟨_, run, State.windowLeaves hs hfenced hused⟩, fun hgone => ⟨_, run, ?_⟩⟩
    rw [State.startWindow_unreachable p.isLt hgone]
    exact State.drainServed_of_settled _ (settled_of_eq hs (by simp) (by simp))
end Sys2Proof.Machine
end

section
/-! What the memory ports and the working-memory port send back: credits, the lines of reads, and time-outs (R42, R55,
R57, R58, R241, R247, R376, R377). -/

namespace Sys2Proof.Machine
open Sys2Proof Sys2Proof.Safety

/-! ### The fence of a memory port -/

section
variable {s : State} {m : Nat}

/-- The fence of a memory port in service, to the end of its command (R377). -/
theorem State.fenceMemPort_fences (h : s.inService 2 m = true) (cause : BitVec 4) :
    let t := (s.fenceMemPort m cause).drainServed
    (t.unit (unitId 2 m)).state = .fencing ∧ (t.unit (unitId 2 m)).cause = cause ∧
      Frame [.planRest, .halls, .queues, .fences, .engines, .ports, .protect, .xlatRest, .hallKeys, .vaultRest, .links,
        .commit, .units, .faultsRest, .out] s t := by
  intro t
  have hstate : (s.unit (unitId 2 m)).state = .inService := by simpa [State.inService] using h
  have hunit : t.unit (unitId 2 m) = (s.beginFence 2 m cause none).unit (unitId 2 m) := by
    rw [unit_of_frame (State.drainServed_frame (List.Subset.refl _) _) (by decide), State.fenceMemPort, if_pos h,
      unit_of_frame (State.wake_frame (List.Subset.refl _) _ _) (by decide),
      unit_of_frame (State.poisonPort_frame (List.Subset.refl _) _ _) (by decide)]
  rw [hunit, State.beginFence_unit s 2 m cause none 0 hstate]
  exact ⟨rfl, rfl, (State.fenceMemPort_frame (by decide) s m cause).trans (State.drainServed_frame (by decide) _)⟩

/-! ### MEMORY_CREDIT_RETURN and MEMORY_REQUEST_TIMEOUT -/

/-- A port for which nothing waits keeps the credits that it is given (R55). -/
theorem State.pumpPort_idle (hwaiting : (s.memPort m).waiting = []) (hscrubs : s.xlat.scrubs = []) :
    s.pumpPort m = s.modMemPort m fun x => { x with waiting := [] } := by
  simp [State.pumpPort, hwaiting, hscrubs, issueWaiting, forEach]

theorem State.creditReturn_adds {n : Nat} (hservice : s.inService 2 m = true) (hreleased : s.core.released = true)
    (hwaiting : (s.memPort m).waiting = []) (hscrubs : s.xlat.scrubs = []) (hn : (s.memPort m).credits + n ≤ 512) :
    let t := s.creditReturn m n
    t.memPort m = { s.memPort m with credits := (s.memPort m).credits + n } ∧ SameBut State.memPort m s t ∧
      t.out = s.out ∧ Frame [.ports] s t := by
  have run : s.creditReturn m n = (s.modMemPort m fun x => { x with credits := x.credits + n }).modMemPort m fun x =>
      { x with waiting := [] } := by
    have within : ¬ 512 < (s.memPort m).credits + n := by omega
    have pump := State.pumpPort_idle (s := s.modMemPort m fun x => { x with credits := x.credits + n }) (m := m)
      (by simpa using hwaiting) (by simpa using hscrubs)
    simpa [State.creditReturn, hreleased, hservice, within] using pump
  rw [run]
  refine ⟨?_, fun j hj => ?_, ?_, ?_⟩
  · simp [← hwaiting]
  · simp [hj]
  · simp
  · simp [Frame]

theorem State.creditReturn_fences {n : Nat} (hservice : s.inService 2 m = true) (hreleased : s.core.released = true)
    (hn : 512 < (s.memPort m).credits + n) : s.creditReturn m n = s.fenceMemPort m Cause.protocol := by
  simp [State.creditReturn, hreleased, hservice, hn]

theorem State.memTimeout_fences (hservice : s.inService 2 m = true) (hcredits : (s.memPort m).credits < 512)
    (hold : (s.memPort m).outstanding = [] ∨ ∃ r ∈ (s.memPort m).outstanding, 1 ≤ r.age) :
    s.memTimeout m = s.fenceMemPort m Cause.timeout := by
  have hold : (s.memPort m).outstanding = [] ∨ ((s.memPort m).outstanding.any fun r => 1 ≤ r.age) = true := by
    simpa using hold
  simp only [State.memTimeout]
  rw [if_pos ⟨hservice, hcredits, hold⟩]
end

/-! ### A line of a read -/

/-- The status that a line as it opens gives its read (R247). -/
@[simp] def LineRead.status : LineRead → Status
  | .plain _ _ => .ok
  | .poisoned => .poison
  | .macFail => .integrity
  | .uncorrectable => .poison

/-- The data that a line as it opens gives its read (R241). -/
@[simp] def LineRead.line : LineRead → Line
  | .plain l _ => l
  | _ => 0

theorem State.readOutcome_status (s : State) (m k : Nat) (x : LineRead) : (s.readOutcome m k x).2.1 = x.status := by
  cases x <;> rfl

theorem State.readOutcome_line (s : State) (m k : Nat) (x : LineRead) : (s.readOutcome m k x).2.2 = x.line := by
  cases x <;> rfl

section
variable {k : Slot} {mode : SegMode} {set n ctr : Nat} {raw : RawLine}

/-- A line that decodes opens to data with its code's word on correction, as poison, or not at all (R241, R247). -/
theorem openLine_of_decoded {x : Decoded} (hx : decodeLine raw = some x) :
    (∃ l, openLine k mode set n ctr raw = .plain l x.corrected) ∨ openLine k mode set n ctr raw = .poisoned ∨
      openLine k mode set n ctr raw = .macFail := by
  unfold openLine
  rw [hx]
  cases mode with
  | sealed =>
    dsimp only
    split
    · split <;> simp
    · split <;> simp
  | veiled | wm =>
    dsimp only
    split <;> simp

theorem openLine_uncorrectable_iff : openLine k mode set n ctr raw = .uncorrectable ↔ decodeLine raw = none := by
  cases hx : decodeLine raw with
  | none => simp [openLine, hx]
  | some x =>
    obtain ⟨l, h⟩ | h | h := openLine_of_decoded (k := k) (mode := mode) (set := set) (n := n) (ctr := ctr) hx <;>
      simp [h]

/-- A line that opens to data was corrected where its code says so. -/
theorem decodeLine_of_plain {l : Line} {c : Bool} (h : openLine k mode set n ctr raw = .plain l c) :
    ∃ x, decodeLine raw = some x ∧ x.corrected = c := by
  cases hx : decodeLine raw with
  | none =>
    rw [openLine_uncorrectable_iff.mpr hx] at h
    cases h
  | some x =>
    refine ⟨x, rfl, ?_⟩
    obtain ⟨l', k⟩ | k | k := openLine_of_decoded (k := k) (mode := mode) (set := set) (n := n) (ctr := ctr) hx
    · rw [k] at h
      cases h
      rfl
    · rw [k] at h
      cases h
    · rw [k] at h
      cases h
end

/-- A CORRECTED or CONTAINED event drives no pin (R388). -/
theorem State.raise_out_of_quiet (s : State) {code : Byte} (i : EvInfo) (hd : eventClass code ≠ .degraded)
    (hf : eventClass code ≠ .fatal) : (s.raise code i).out = s.out := by
  unfold State.raise
  dsimp only
  split
  · rfl
  · rw [if_neg (by simp [hd, hf])]

theorem State.runScrub_sameWork (s : State) (m : Nat) (demand : List Nat) (x : Scrub) :
    SameWork s (s.runScrub m demand x) := by
  have counted (u : State) (h : Nat) (f : Counters → Counters) : (u.countHall h f).xlat = u.xlat :=
    (State.countHall_frame (List.Subset.refl _) u h f).xlat (by decide) (by decide) (by decide)
  unfold State.runScrub State.writeScrub State.spendLines
  dsimp only
  split
  · exact ⟨by simp [counted], by simp [counted]⟩
  · exact sameWork_of_xlat rfl

/-- The lines that a port lets go are no work of the core's own. -/
theorem State.pumpPort_sameWork (s : State) (m : Nat) : SameWork s (s.pumpPort m) := by
  let l := (s.memPort m).waiting
  have issued : Frame [.halls, .ports, .out] s
      (issueWaiting m (l.map MemReq.payer) l [] (s.modMemPort m fun x => { x with waiting := [] })) :=
    (State.modMemPort_frame (by decide) _ _ _).trans (issueWaiting_frame (by decide) _ _ _ _ _)
  have scrub (x : Scrub) (t : State) := t.runScrub_sameWork m (l.map MemReq.payer) x
  refine (sameWork_of_xlat (issued.xlat (by decide) (by decide) (by decide))).trans ⟨?_, ?_⟩
  · exact forEach_keep (fun t => t.xlat.served) _ _ fun x t => (scrub x t).1
  · exact forEach_keep (fun t => t.xlat.writes) _ _ fun x t => (scrub x t).2

theorem State.writeLine_sameWork (s : State) (payer set n : Nat) (d : Line × BitVec 64) (poison : Bool) (seg : Nat) :
    SameWork s (s.writeLine payer set n d poison seg) := by
  unfold State.writeLine State.sendMem
  dsimp only
  split
  · exact (sameWork_of_xlat (by simp)).trans (State.pumpPort_sameWork _ _)
  · exact sameWork_of_xlat rfl

/-- Line `i` of a request has come and opened as `x`: its event is raised, and it is rewritten where it was corrected
(R57, R247). -/
def State.lineSeen (s : State) (d : Dma) (i : Nat) (x : LineRead) (raw : RawLine) : State :=
  (s.readOutcome ((s.dmaSet d).place (d.setLine 0)).1 d.seg x).1.rewriteCorrected d.hall (s.seg d.seg).set (d.setLine i)
    d.seg raw

/-- The request once its line `i` has opened as `x` (R241, R247). -/
def Dma.takeLine (d : Dma) (i : Nat) (x : LineRead) : Dma :=
  { d.note x.status with left := d.left - 1, lines := d.lines.set 0 i x.line }

section
variable {s : State} {d : Dma} {i : Nat} {x : LineRead} {raw : RawLine}

theorem State.lineSeen_frame :
    Frame [.halls, .ports, .protect, .xlatRest, .faultsRest, .out] s (s.lineSeen d i x raw) :=
  (State.readOutcome_frame (by decide) _ _ _ _).trans (State.rewriteCorrected_frame (by decide) _ _ _ _ _ _)

theorem State.lineSeen_sameWork : SameWork s (s.lineSeen d i x raw) := by
  have outcome := (State.readOutcome_frame (List.Subset.refl _) s ((s.dmaSet d).place (d.setLine 0)).1 d.seg x).xlat
    (by decide) (by decide) (by decide)
  refine (sameWork_of_xlat outcome).trans ?_
  unfold State.lineSeen State.rewriteCorrected
  split
  · split
    · exact State.writeLine_sameWork _ _ _ _ _ _ _
    · exact sameWork_of_xlat rfl
  · exact sameWork_of_xlat rfl

/-- A line that needed no correction raises nothing and is not rewritten. -/
theorem State.lineSeen_clean {k : Slot} {mode : SegMode} {set n ctr : Nat} {l : Line}
    (h : openLine k mode set n ctr raw = .plain l false) : s.lineSeen d i (.plain l false) raw = s := by
  obtain ⟨y, hy, hc⟩ := decodeLine_of_plain h
  simp [State.lineSeen, State.readOutcome, State.rewriteCorrected, hy, hc]

/-- An uncorrectable line raises its event and is not rewritten. -/
theorem State.lineSeen_uncorrectable (h : decodeLine raw = none) :
    s.lineSeen d i .uncorrectable raw = s.dataUe ((s.dmaSet d).place (d.setLine 0)).1 d.seg := by
  simp [State.lineSeen, State.readOutcome, State.rewriteCorrected, h]

theorem State.dataUe_out (m k : Nat) : (s.dataUe m k).out = s.out :=
  s.raise_out_of_quiet _ (by decide) (by decide)

theorem State.lineArrives_eq {p tag a ctr : Nat} {r : MemReq} (hdma : s.dma p tag = some d)
    (hi : i = a - ((s.dmaSet d).place (d.setLine 0)).2)
    (hx : x = openLine (s.slot r.keySlot) (s.seg d.seg).mode (s.seg d.seg).set (d.setLine i) ctr raw) :
    s.lineArrives p tag r a ctr raw = (s.lineSeen d i x raw).modDma p tag fun y => y.takeLine i x := by
  subst hi
  unfold State.lineArrives
  rw [hdma]
  dsimp only
  rw [← hx]
  simp only [State.readOutcome_status, State.readOutcome_line]
  rfl

/-- The last line of a read answers it, by the status that it gives the read (R42, R241). -/
theorem State.finishRead_answers {p tag : Nat} (hdma : s.dma p tag = some d) (hwrite : d.write = false)
    (hleft : d.left = 0) : s.finishRead p tag = s.respond p d d.status := by
  simp [State.finishRead, hdma, hwrite, hleft, State.respondNow]
end

/-- The state in which the last line of a read has answered it. -/
def State.readAnswered (s : State) (p : Nat) (d : Dma) (i : Nat) (x : LineRead) (raw : RawLine) : State :=
  ((s.lineSeen d i x raw).modDma p d.tag fun y => y.takeLine i x).respond p (d.takeLine i x) (d.takeLine i x).status

section
variable {s : State} {p : Nat} {d : Dma} {i : Nat} {x : LineRead} {raw : RawLine}

theorem State.lineSeen_engine (q : Nat) : (s.lineSeen d i x raw).engine q = s.engine q :=
  engine_of_frame State.lineSeen_frame (by decide) q

theorem State.lineArrives_last {a ctr : Nat} {r : MemReq} (hdma : s.dma p d.tag = some d) (hwrite : d.write = false)
    (hleft : d.left = 1) (hi : i = a - ((s.dmaSet d).place (d.setLine 0)).2)
    (hx : x = openLine (s.slot r.keySlot) (s.seg d.seg).mode (s.seg d.seg).set (d.setLine i) ctr raw) :
    (s.lineArrives p d.tag r a ctr raw).finishRead p d.tag = s.readAnswered p d i x raw := by
  have filled :
      ((s.lineSeen d i x raw).modDma p d.tag fun y => y.takeLine i x).dma p d.tag = some (d.takeLine i x) := by
    rw [State.modDma_dma _ _ _ _ (by intro y; rfl), State.dma_congr s _ p d.tag (State.lineSeen_engine p), hdma,
      Option.map_some]
  rw [State.lineArrives_eq hdma hi hx]
  exact State.finishRead_answers filled hwrite (by simp [Dma.takeLine, hleft])

theorem State.readAnswered_engine (q : Nat) : (s.readAnswered p d i x raw).engine q =
    if q = p then ({ s.engine p with dmas := (s.engine p).dmas.map fun y =>
      if y.tag = d.tag then y.takeLine i x else y } : Engine).without [d.tag] else s.engine q := by
  by_cases hq : q = p
  · simp [State.readAnswered, State.respond_engine, State.modDma_engine, State.lineSeen_engine, hq]
    rfl
  · simp [State.readAnswered, State.respond_engine, State.modDma_engine, State.lineSeen_engine, hq]

variable (hp : p < 256)
include hp

theorem State.readAnswered_out : (s.readAnswered p d i x raw).out =
    (s.lineSeen d i x raw).out ++ [(d.takeLine i x).response p (d.takeLine i x).status] := by
  simp [State.readAnswered, State.respond_eq _ hp, State.modDma]

theorem State.readAnswered_frame_seen :
    Frame [.engines, .out] (s.lineSeen d i x raw) (s.readAnswered p d i x raw) := by
  simp [Frame, State.readAnswered, State.respond_eq _ hp, State.modDma]

theorem State.readAnswered_sameWork : SameWork s (s.readAnswered p d i x raw) :=
  State.lineSeen_sameWork.trans
    (sameWork_of_xlat ((State.readAnswered_frame_seen hp).xlat (by decide) (by decide) (by decide)))

theorem Quiet.readAnswered {ws : List DmaWait} (h : Quiet ws s) : Quiet ws (s.readAnswered p d i x raw) :=
  Quiet.respond (Quiet.modDma (h.of_frame State.lineSeen_frame (by decide)) p d.tag (by intro y; rfl)) hp _ _

/-- What an uncorrectable line does to its port's own record comes later, with its count. -/
theorem State.readAnswered_ports (hraw : decodeLine raw = none) (m : Nat) :
    (s.readAnswered p d i .uncorrectable raw).memPort m = s.memPort m := by
  have raised := State.dataUe_frame (List.Subset.refl _) s ((s.dmaSet d).place (d.setLine 0)).1 d.seg
  have frame := State.readAnswered_frame_seen (s := s) (d := d) (i := i) (x := .uncorrectable) (raw := raw) hp
  have answered := frame.ports (by decide)
  rw [State.lineSeen_uncorrectable hraw, raised.ports (by decide)] at answered
  simp only [State.memPort, answered]
end

theorem Engine.not_mem_without {e : Engine} {tag : Nat} : ∀ y ∈ (e.without [tag]).dmas, y.tag ≠ tag := by
  intro y hy
  simpa using (List.mem_filter.mp hy).2

/-! ### Uncorrectable lines -/

/-- Fewer than 64 uncorrectable lines within 16 strides leave a port in service (R376). -/
theorem State.countUes_one {s : State} {m : Nat} (h : (s.memPort m).ues.length < 63) :
    s.countUes m 1 = s.modMemPort m fun x => { x with ues := 0 :: (s.memPort m).ues } := by
  have few : ¬ 64 ≤ (s.memPort m).ues.length + 1 := by omega
  simp [State.countUes, State.noteUes, State.noteUe, few]

theorem State.countUes_zero (s : State) (m : Nat) : s.countUes m 0 = s := by
  simp [State.countUes, State.noteUes]

/-- One line of a response counts at most once, and then leaves the port in service: only the port's own record of its
uncorrectable lines changes. -/
theorem State.countUes_frame_ports {s : State} {m : Nat} {raw : RawLine}
    (h : decodeLine raw = none → (s.memPort m).ues.length < 63) : Frame [.ports] s (s.countUes m (ueCount [raw])) := by
  cases hraw : decodeLine raw with
  | none =>
    have one : ueCount [raw] = 1 := by simp [ueCount, hraw]
    rw [one, State.countUes_one (h hraw)]
    exact State.modMemPort_frame (by decide) _ _ _
  | some x =>
    have zero : ueCount [raw] = 0 := by simp [ueCount, hraw]
    rw [zero, State.countUes_zero]

/-! ### MEMORY_READ_RESPONSE -/

/-- A response of one line, which answers a read of an engine port: the request leaves the port's list, the line goes to
its read, and an uncorrectable line counts toward the port's fence (R57, R376). -/
theorem State.memResponse_one {s : State} {m p tag j : Nat} {mtag : BitVec 9} {raw : RawLine} {r : MemReq}
    (hreleased : s.core.released = true) (hservice : s.inService 2 m = true)
    (hreq : (s.memPort m).outstanding.find? (fun x => x.tag == mtag.toNat) = some r) (hwhy : r.why = .dma p tag)
    (hlanes : lanes r.mask = [j]) :
    s.memResponse m mtag [raw] =
      ((((s.modMemPort m fun x => { x with outstanding := x.outstanding.filter fun q => q.tag != r.tag }).lineArrives
        p tag r (4 * r.block + j) (r.ctrs.headD 0) raw).finishRead p tag).countUes m (ueCount [raw])).wake [.lock] := by
  have items : (lanes r.mask).zip ([raw].zip (r.ctrs ++ [0, 0, 0, 0])) = [(j, raw, r.ctrs.headD 0)] := by
    rw [hlanes]
    cases r.ctrs <;> rfl
  simp [State.memResponse, hreleased, hservice, hreq, hwhy, State.deliverLines, items, forEach]

/-- The last line of a read, from its response to the end of the command (R42, R57, R241, R247). -/
theorem State.lastLine {s : State} {m p j : Nat} {d : Dma} {mtag : BitVec 9} {raw : RawLine} {r : MemReq}
    {x : LineRead} {i : Nat} (hs : Settled s) (hp : p < 256) (hdma : s.dma p d.tag = some d) (hleft : d.left = 1)
    (hwrite : d.write = false) (hreleased : s.core.released = true) (hservice : s.inService 2 m = true)
    (hreq : (s.memPort m).outstanding.find? (fun x => x.tag == mtag.toNat) = some r) (hwhy : r.why = .dma p d.tag)
    (hlanes : lanes r.mask = [j]) (hues : (s.memPort m).ues.length < 63)
    (hi : i = 4 * r.block + j - ((s.dmaSet d).place (d.setLine 0)).2)
    (hx : x = openLine (s.slot r.keySlot) (s.seg d.seg).mode (s.seg d.seg).set (d.setLine i) (r.ctrs.headD 0) raw) :
    let s' := s.modMemPort m fun x => { x with outstanding := x.outstanding.filter fun q => q.tag != r.tag }
    let t := (s.memResponse m mtag [raw]).drainServed
    t.out = (s'.lineSeen d i x raw).out ++ [(d.takeLine i x).response p (d.takeLine i x).status] ∧
      (∀ y ∈ (t.engine p).dmas, y.tag ≠ d.tag) ∧ SameBut State.engine p s t ∧
      Frame [.halls, .engines, .ports, .protect, .xlatRest, .faultsRest, .out] s t := by
  intro s'
  let answered := s'.readAnswered p d i x raw
  have taken : Frame [.ports] s s' := State.modMemPort_frame (by decide) _ _ _
  have counts : Frame [.ports] answered (answered.countUes m (ueCount [raw])) := by
    refine State.countUes_frame_ports fun hraw => ?_
    have unread : x = .uncorrectable := hx.trans (openLine_uncorrectable_iff.mpr hraw)
    have same : answered.memPort m = s'.memPort m := by
      simp only [answered, unread]
      exact State.readAnswered_ports hp hraw m
    simpa [same, s'] using hues
  have quiet : Quiet [.lock] (answered.countUes m (ueCount [raw])) :=
    (Quiet.readAnswered hp ((quiet_lock_of_settled hs).of_frame taken (by decide))).of_frame counts (by decide)
  have work : SameWork s (answered.countUes m (ueCount [raw])) :=
    ((sameWork_of_xlat (taken.xlat (by decide) (by decide) (by decide))).trans (State.readAnswered_sameWork hp)).trans
      (sameWork_of_xlat (counts.xlat (by decide) (by decide) (by decide)))
  have run : (s.memResponse m mtag [raw]).drainServed = answered.countUes m (ueCount [raw]) := by
    rw [State.memResponse_one hreleased hservice hreq hwhy hlanes,
      State.lineArrives_last (s := s') (x := x) hdma hwrite hleft hi hx, Quiet.wake quiet,
      State.drainServed_of_quiet hs work quiet]
  have engines := engine_of_frame counts (by decide)
  rw [run]
  refine ⟨?_, ?_, fun q hq => ?_, ?_⟩
  · rw [counts.out (by decide)]
    exact State.readAnswered_out hp
  · rw [engines, State.readAnswered_engine, if_pos rfl]
    exact Engine.not_mem_without
  · rw [engines, State.readAnswered_engine, if_neg hq]
    exact engine_of_frame taken (by decide) q
  · exact (taken.mono (by decide)).trans ((State.lineSeen_frame.mono (by decide)).trans
      (((State.readAnswered_frame_seen hp).mono (by decide)).trans (counts.mono (by decide))))

/-- What a read of a line that opens as `x` answers: the first status that is not OK, and its lines (R42, R247). -/
theorem Dma.takeLine_response (d : Dma) (i : Nat) (x : LineRead) (p : Nat) :
    (d.takeLine i x).response p (d.takeLine i x).status =
      { d with lines := d.lines.set 0 i x.line }.response p (if d.status = Status.ok then x.status else d.status) := rfl

/-! ### WM_READ_RESPONSE -/

/-- The lines of a read with the one that lane `lane` of a block brings, where that belongs to the read (R58). -/
def Dma.putLane (d : Dma) (first : Nat) (data : BitVec 2048) (l : Tab Line) (lane : Nat) : Tab Line :=
  if d.address / 64 ≤ first + lane ∧ first + lane < d.address / 64 + d.beatCount then
    l.set 0 (first + lane - d.address / 64) (BitVec.ofNat 512 (bits data (512 * lane + 511) (512 * lane)))
  else l

theorem Dma.putLane_get (d : Dma) (first : Nat) (data : BitVec 2048) (l : Tab Line) (lane : Nat) {i : Nat}
    (hi : i < d.beatCount) :
    Tab.get 0 (d.putLane first data l lane) i = if d.address / 64 + i = first + lane then
      BitVec.ofNat 512 (bits data (512 * lane + 511) (512 * lane)) else Tab.get 0 l i := by
  unfold Dma.putLane
  by_cases here : d.address / 64 + i = first + lane
  · rw [if_pos (by omega), if_pos here, Tab.get_set, if_pos (by omega)]
  · rw [if_neg here]
    split
    · rw [Tab.get_set, if_neg (by omega)]
    · rfl

/-- The first `n` lanes of a block bring the lines of a read that lie in them, at their places; the other lines stay. -/
theorem Dma.putLanes_get (d : Dma) (first : Nat) (data : BitVec 2048) (l : Tab Line) (n : Nat) {i : Nat}
    (hi : i < d.beatCount) :
    Tab.get 0 ((List.range n).foldl (d.putLane first data) l) i =
      if first ≤ d.address / 64 + i ∧ d.address / 64 + i < first + n then
        BitVec.ofNat 512 (bits data (512 * (d.address / 64 + i - first) + 511) (512 * (d.address / 64 + i - first)))
      else Tab.get 0 l i := by
  induction n with
  | zero =>
    rw [if_neg (by omega)]
    rfl
  | succ n ih =>
    rw [List.range_succ, List.foldl_append, List.foldl_cons, List.foldl_nil, Dma.putLane_get d first data _ n hi]
    by_cases here : d.address / 64 + i = first + n
    · rw [if_pos here, if_pos (by omega), show d.address / 64 + i - first = n by omega]
    · have before : d.address / 64 + i < first + (n + 1) ↔ d.address / 64 + i < first + n := by omega
      simp only [if_neg here, ih, before]

/-- A read of working memory with the lines that a block brings it (R58). -/
def Dma.takeBlock (d : Dma) (first : Nat) (data : BitVec 2048) : Dma :=
  { d with left := d.left - 1, lines := (List.range 4).foldl (d.putLane first data) d.lines }

section
variable {s : State} {p : Nat} {d : Dma} {data : BitVec 2048} {w : WmRead} {rest : List WmRead}

theorem State.wmResponse_last (hdma : s.dma p d.tag = some d) (hleft : d.left = 1) (hwrite : d.write = false)
    (hreads : s.protect.wmReads = w :: rest) (hport : w.port = p) (htag : w.tag = d.tag) :
    s.wmResponse data =
      ((({ s with protect := { s.protect with wmReads := rest } }).modDma p d.tag fun x =>
        { x with left := x.left - 1, lines := (List.range 4).foldl (d.putLane w.first data) x.lines }).respond p
          (d.takeBlock w.first data) d.status).wake [.wm] := by
  let s' : State := { s with protect := { s.protect with wmReads := rest } }
  have hdma' : s'.dma p d.tag = some d := hdma
  have filled : (s'.modDma p d.tag fun x =>
      { x with left := x.left - 1, lines := (List.range 4).foldl (d.putLane w.first data) x.lines }).dma p d.tag =
        some (d.takeBlock w.first data) := by
    rw [State.modDma_dma _ _ _ _ (by intro y; rfl), hdma']
    rfl
  have finished := State.finishRead_answers filled hwrite (by simp [Dma.takeBlock, hleft])
  unfold State.wmResponse
  rw [hreads]
  dsimp only
  rw [hport, htag, show ({ s with protect := { s.protect with wmReads := rest } } : State).dma p d.tag = some d
    from hdma]
  exact congrArg (fun t : State => t.wake [.wm]) finished

/-- The last block of a read, from its response to the end of the command (R42, R58). -/
theorem State.lastBlock (hs : Settled s) (hp : p < 256) (hdma : s.dma p d.tag = some d) (hleft : d.left = 1)
    (hwrite : d.write = false) (hwm : NoneWaits [.wm] s) (hreads : s.protect.wmReads = w :: rest) (hport : w.port = p)
    (htag : w.tag = d.tag) :
    let t := (s.wmResponse data).drainServed
    t.out = s.out ++ [(d.takeBlock w.first data).response p d.status] ∧ t.protect.wmReads = rest ∧
      (∀ x ∈ (t.engine p).dmas, x.tag ≠ d.tag) ∧ SameBut State.engine p s t ∧
      Frame [.engines, .protect, .out] s t := by
  let s' : State := { s with protect := { s.protect with wmReads := rest } }
  let filled := s'.modDma p d.tag fun x =>
    { x with left := x.left - 1, lines := (List.range 4).foldl (d.putLane w.first data) x.lines }
  have quiet : Quiet [.lock, .wm] filled :=
    Quiet.modDma ((quiet_of_settled hs hwm).of_engines rfl) p d.tag (by intro x; rfl)
  have hx : filled.xlat = s.xlat := by simp [filled, s', State.modDma]
  have run : (s.wmResponse data).drainServed = filled.respond p (d.takeBlock w.first data) d.status := by
    rw [State.wmResponse_last hdma hleft hwrite hreads hport htag,
      Quiet.wake ((quiet.respond hp _ _).mono (by decide)),
      State.drainServed_respond hs (sameWork_of_xlat hx) (quiet.mono (by decide)) hp]
  rw [run]
  refine ⟨?_, ?_, ?_, fun q hq => ?_, ?_⟩
  · simp [State.respond_eq _ hp, filled, s', State.modDma]
  · simp [State.respond_eq _ hp, filled, s', State.modDma]
  · rw [State.respond_engine, if_pos rfl]
    exact Engine.not_mem_without
  · rw [State.respond_engine, if_neg hq, State.modDma_engine, if_neg hq]
    rfl
  · have taken : Frame [.engines, .protect, .out] s s' := without_protect s _ (by decide)
    exact taken.trans (by simp [Frame, State.respond_eq _ hp, filled, State.modDma])
end

/-- Settles O28: credits and time-outs first, then the last line and the last block of a read. -/
theorem memoryPortsAnswerTheirReads : Obligations.MemoryPortsAnswerTheirReads := by
  refine ⟨fun m s hservice hs => ⟨?credits, ?excess, ?timeout⟩, fun s p tag d hs hp hdma hleft hwrite => ?reads⟩
  case credits =>
    intro n hreleased hwaiting hscrubs hn
    obtain ⟨credits, others, out, frame⟩ := State.creditReturn_adds hservice hreleased hwaiting hscrubs hn
    refine ⟨s.creditReturn m n, congrArg Host.Outcome.next ?_, credits, others, out, frame⟩
    exact State.drainServed_of_quiet hs (sameWork_of_xlat (frame.xlat (by decide) (by decide) (by decide)))
      ((quiet_lock_of_settled hs).of_frame frame (by decide))
  case excess =>
    intro n hreleased hn
    have run : exec (.memoryCreditReturn m n) s = .next (s.fenceMemPort m Cause.protocol).drainServed :=
      congrArg (fun t : State => Host.Outcome.next t.drainServed) (State.creditReturn_fences hservice hreleased hn)
    exact ⟨_, run, State.fenceMemPort_fences hservice _⟩
  case timeout =>
    intro hcredits hold
    have run : exec (.memoryRequestTimeout m) s = .next (s.fenceMemPort m Cause.timeout).drainServed :=
      congrArg (fun t : State => Host.Outcome.next t.drainServed) (State.memTimeout_fences hservice hcredits hold)
    exact ⟨_, run, State.fenceMemPort_fences hservice _⟩
  case reads =>
    obtain rfl : d.tag = tag := by simpa using List.find?_some hdma
    refine ⟨fun m mtag raw r j hreleased hservice hreq hwhy hlanes hues => ?_,
      fun data w rest hwm hreads hport htag => ?_⟩
    · obtain ⟨out, gone, engines, frame⟩ :=
        State.lastLine hs hp hdma hleft hwrite hreleased hservice hreq hwhy hlanes hues rfl rfl
      refine ⟨_, rfl, ?_, gone, engines, frame⟩
      rw [Dma.takeLine_response] at out
      generalize hx : openLine _ _ _ _ _ _ = x at out ⊢
      have answered : _ ∈ State.out _ := out ▸ List.mem_append_right _ (List.mem_singleton_self _)
      cases x with
      | plain l c =>
        cases c with
        | false =>
          rw [State.lineSeen_clean hx] at out
          simpa using out
        | true => exact answered
      | poisoned => exact answered
      | macFail => exact answered
      | uncorrectable =>
        rw [State.lineSeen_uncorrectable (openLine_uncorrectable_iff.mp hx), State.dataUe_out] at out
        simpa using out
    · obtain ⟨out, reads, gone, engines, frame⟩ :=
        State.lastBlock (data := data) hs hp hdma hleft hwrite hwm hreads hport htag
      exact ⟨_, rfl, ⟨_, out, fun i hi => d.putLanes_get w.first data d.lines 4 hi⟩, reads, gone, engines, frame⟩

end Sys2Proof.Machine
end

section
/-! The slots and the boundaries of a stride (R67, R71 to R74, R180, R182, R186): what a decision and a boundary leave
alone on their way through the halls, the commits, the memory ports and the links. -/

namespace Sys2Proof.Machine
open Sys2Proof Sys2Proof.Safety

/-! ### Loops and branches -/

/-- What every round of a loop preserves, the loop preserves. -/
theorem forEach_preserves {α : Type} {P : State → Prop} {f : α → State → State} (l : List α) {s : State}
    (step : ∀ a t, P t → P (f a t)) (h : P s) : P (forEach l f s) := by
  unfold forEach
  induction l generalizing s with
  | nil => exact h
  | cons a l ih => exact ih (step a s h)

theorem ite_frame {l : List Part} {c : Prop} [Decidable c] {s t u : State} (ht : Frame l s t) (hu : Frame l s u) :
    Frame l s (if c then t else u) := by
  split <;> assumption

/-! ### Outputs are only ever added

One lemma per operation that a boundary can reach and whose frame names the outputs: what has been presented stays, ahead
of what the operation adds. An operation whose frame leaves the outputs alone needs none (`Sent.of_frame`). -/

/-- The outputs `o` have been presented, ahead of every other. -/
def Sent (o : List Out) (s : State) : Prop := o <+: s.out

section
variable {o : List Out} {s : State}

theorem Sent.of_frame {l : List Part} {t : State} (f : Frame l s t) (h : Sent o s) (n : .out ∉ l := by decide) :
    Sent o t := by
  rw [Sent, f.out n]
  exact h

theorem Sent.emit {x : Out} (h : Sent o s) : Sent o (s.emit x) := List.IsPrefix.trans h (List.prefix_append ..)

theorem Sent.ite {c : Prop} [Decidable c] {t u : State} (ht : Sent o t) (hu : Sent o u) :
    Sent o (if c then t else u) := by
  split <;> assumption

theorem Sent.forEach {α : Type} {l : List α} {f : α → State → State}
    (step : ∀ {a t}, Sent o t → Sent o (f a t)) (h : Sent o s) : Sent o (forEach l f s) :=
  forEach_preserves l (fun _ _ => step) h

theorem Sent.forAll {n : Nat} {f : Nat → State → State} (step : ∀ {k t}, Sent o t → Sent o (f k t))
    (h : Sent o s) : Sent o (forAll n f s) :=
  .forEach step h

theorem Sent.modHall {k f} (h : Sent o s) : Sent o (s.modHall k f) := h

theorem Sent.modDeadline {k f} (h : Sent o s) : Sent o (s.modDeadline k f) := h

theorem Sent.modEngine {p f} (h : Sent o s) : Sent o (s.modEngine p f) := h

theorem Sent.modLink {n f} (h : Sent o s) : Sent o (s.modLink n f) := h

theorem Sent.countHall {k f} (h : Sent o s) : Sent o (s.countHall k f) :=
  .of_frame (State.countHall_frame (List.Subset.refl _) ..) h

/-! ### Responses, and the lines that a memory port carries -/

theorem Sent.deliver {p d st} (h : Sent o s) : Sent o (s.deliver p d st) := .ite h.emit h

theorem Sent.respond {p d st} (h : Sent o s) : Sent o (s.respond p d st) := h.deliver

theorem Sent.respondNow {p tag} (h : Sent o s) : Sent o (s.respondNow p tag) := by
  unfold State.respondNow
  split
  · exact h.respond
  · exact h

theorem Sent.signals {r : MemReq} {m} (h : Sent o s) : Sent o (r.signals m s) := .ite (.forEach .emit h) h.emit

theorem Sent.spendLines {m payer n write} (h : Sent o s) : Sent o (s.spendLines m payer n write) :=
  .of_frame (State.spendLines_frame (List.Subset.refl _) ..) h

theorem Sent.issueMem {m r} (h : Sent o s) : Sent o (s.issueMem m r) := .signals h.spendLines

theorem Sent.issueWaiting {m demand l held} (h : Sent o s) : Sent o (issueWaiting m demand l held s) := by
  induction l generalizing held s with
  | nil => exact h
  | cons r l ih =>
    unfold Machine.issueWaiting
    split
    · exact ih h
    · exact ih h.issueMem

theorem Sent.runScrub {m demand x} (h : Sent o s) : Sent o (s.runScrub m demand x) :=
  .ite (.emit h.spendLines) h

theorem Sent.pumpPort {m} (h : Sent o s) : Sent o (s.pumpPort m) := .forEach .runScrub (.issueWaiting h)

theorem Sent.sendMem {m r} (h : Sent o s) : Sent o (s.sendMem m r) := .ite (.pumpPort h) h

theorem Sent.readLine {payer set n why seg slot ctr} (h : Sent o s) :
    Sent o (s.readLine payer set n why seg slot ctr) := h.sendMem

theorem Sent.writeLine {payer set n d poison seg} (h : Sent o s) : Sent o (s.writeLine payer set n d poison seg) :=
  h.sendMem

theorem Sent.fetchLevels {r g payer levels} (h : Sent o s) : Sent o (s.fetchLevels r g payer levels) :=
  .ite h (.forEach .readLine h.countHall)

theorem Sent.fetchChain {r g payer} (h : Sent o s) : Sent o (s.fetchChain r g payer) := h.fetchLevels

theorem Sent.prefetch {d} (h : Sent o s) : Sent o (s.prefetch d) := .ite h.fetchChain h

theorem Sent.finishWrite {p tag} (h : Sent o s) : Sent o (s.finishWrite p tag) := by
  unfold State.finishWrite
  split
  · exact .ite (.ite h h.respondNow) h
  · exact h

/-! ### The counter tree -/

theorem Sent.setGuard {r level i v} (h : Sent o s) : Sent o (s.setGuard r level i v) :=
  .of_frame (State.setGuard_frame (List.Subset.refl _) ..) h

theorem Sent.setMarker {x} (h : Sent o s) : Sent o (s.setMarker x) := by
  unfold State.setMarker
  split
  · exact h
  · exact .ite (.setGuard h) h.fetchLevels

theorem Sent.writeMeta {r level i parent payer b} (h : Sent o s) : Sent o (s.writeMeta r level i parent payer b) :=
  .ite h.writeLine h.writeLine.writeLine

theorem Sent.writeChild {r level i payer b} (h : Sent o s) : Sent o (s.writeChild r level i payer b) := by
  unfold State.writeChild
  split
  · exact .ite h (.writeMeta h.setGuard)
  · exact h

theorem Sent.writeBack {e} (h : Sent o s) : Sent o (s.writeBack e) := by
  unfold State.writeBack
  split
  · exact h
  · have hparent : ∀ {r level i}, Sent o (s.zeroParent r level i) :=
      .of_frame (State.zeroParent_frame (List.Subset.refl _) ..) h
    exact .ite (.writeChild hparent) hparent.fetchLevels

theorem Sent.drainEvicting {n} (h : Sent o s) : Sent o (drainEvicting n s) := by
  induction n generalizing s with
  | zero => exact h
  | succ n ih =>
    unfold Machine.drainEvicting
    dsimp only
    split
    · exact ih h.setMarker
    · split
      · exact ih h.writeBack
      · exact .forEach .writeBack (.forEach .setMarker h)

theorem Sent.enter {r level i b dirty} (h : Sent o s) : Sent o (s.enter r level i b dirty) :=
  .drainEvicting (.of_frame (State.fill_frame (List.Subset.refl _) ..) h)

theorem Sent.setLeaf {r g b} (h : Sent o s) : Sent o (s.setLeaf r g b) := by
  unfold State.setLeaf
  split
  · exact .of_frame (State.updateCached_frame (List.Subset.refl _) ..) h
  · exact h.enter

theorem Sent.storeLine {r base l ctr d payer} (h : Sent o s) : Sent o (s.storeLine r base l ctr d payer) := by
  unfold State.storeLine
  dsimp only
  split <;> exact h.writeLine

theorem Sent.beginOverflow {r base l port tag} (h : Sent o s) : Sent o (s.beginOverflow r base l port tag) :=
  .forEach .readLine (.forEach .storeLine h.setLeaf)

/-! ### Requests on segments -/

theorem Sent.raise {code i} (h : Sent o s) : Sent o (s.raise code i) := .ite h (.ite (.emit h) h)

theorem Sent.mpx {code k st} (h : Sent o s) : Sent o (s.mpx code k st) := .raise h

theorem Sent.putLine {r base l d port tag} (h : Sent o s) : Sent o (s.putLine r base l d port tag).1 := by
  unfold State.putLine
  dsimp only
  (repeat' split)
  · exact h.mpx
  · exact h.setLeaf.storeLine
  · exact h.beginOverflow.storeLine
  · exact h.storeLine

theorem Sent.postLine {p d i data st} (h : Sent o s) : Sent o (s.postLine p d i data st) := h.putLine

theorem Sent.runLine {p tag i} (h : Sent o s) : Sent o (s.runLine p tag i) := by
  unfold State.runLine
  split
  · exact h
  · refine .ite h (.ite h (.ite h ?_))
    split
    · exact .ite h (.ite h h.postLine)
    · exact .ite (.ite h h.postLine) (.ite (.ite h h.postLine) h.readLine)

theorem Sent.writeLines {p d} (h : Sent o s) : Sent o (s.writeLines p d) := .finishWrite (.forEach .runLine h)

theorem Sent.readLines {p d r} (h : Sent o s) : Sent o (s.readLines p d r) :=
  .ite h (.ite (.respondNow h) (.forEach .sendMem h))

theorem Sent.goLines {p d r} (h : Sent o s) : Sent o (s.goLines p d r) := .ite h.writeLines h.readLines

theorem Sent.runLines {p d} (h : Sent o s) : Sent o (s.runLines p d) := by
  unfold State.runLines
  refine .ite h.respond (.ite h (.ite h (.ite ?_ h.goLines)))
  dsimp only
  split
  · exact h.respond
  · exact .fetchLevels h
  · exact .ite (.fetchLevels h) h.goLines
  · exact .ite (.fetchLevels h)
      (.goLines (.prefetch (.of_frame (State.touchPath_frame (List.Subset.refl _) ..) h)))

theorem Sent.runWm {p d} (h : Sent o s) : Sent o (s.runWm p d) := by
  unfold State.runWm
  refine .ite (.respond (.forEach .emit h)) (.ite (.respondNow h.countHall) (.ite h (.forEach ?_ h)))
  exact fun ht => ht.emit

theorem Sent.runSeg {p tag} (h : Sent o s) : Sent o (s.runSeg p tag) := by
  unfold State.runSeg
  split
  · exact h
  · exact .ite h.runWm h.runLines

theorem Sent.wake {ws} (h : Sent o s) : Sent o (s.wake ws) := .forEach .runSeg h

theorem Sent.startSeg {p d} (h : Sent o s) : Sent o (s.startSeg p d) := .runSeg h

/-! ### Host pages -/

theorem Sent.askAts {w} (h : Sent o s) : Sent o (s.askAts w) := by
  unfold State.askAts
  split
  · exact h
  · exact .emit h

theorem Sent.missHost {p d page} (h : Sent o s) : Sent o (s.missHost p d page) :=
  .ite h.countHall (.askAts h.countHall)

theorem Sent.hostSend {k addr bytes} (h : Sent o s) : Sent o (s.hostSend k addr bytes) := .forEach .emit h

theorem Sent.sealSector {d j data} (h : Sent o s) : Sent o (s.sealSector d j data).1 := by
  unfold State.sealSector
  dsimp only
  (repeat' split)
  · exact h
  · exact h
  · exact .hostSend (.hostSend h)

theorem Sent.sealSectors {d l} (h : Sent o s) : Sent o (sealSectors d l s).1 := by
  induction l generalizing s with
  | nil => exact h
  | cons x l ih =>
    unfold Machine.sealSectors
    have sealed : Sent o (s.sealSector d x.1 x.2).1 := h.sealSector
    split
    · next e => exact ih (by rwa [e] at sealed)
    · next e => rwa [e] at sealed

theorem Sent.issueReads {p d} (h : Sent o s) : Sent o (s.issueReads p d) := .forEach .emit h

theorem Sent.issueHost {p d} (h : Sent o s) : Sent o (s.issueHost p d) := .ite h.issueReads h.sealSectors.respond

theorem Sent.takePages {d} (h : Sent o s) : Sent o (s.takePages d).1 :=
  .of_frame (State.takePages_frame (List.Subset.refl _) ..) h

theorem Sent.runHost {p tag} (h : Sent o s) : Sent o (s.runHost p tag) := by
  unfold State.runHost
  split
  · exact h
  · refine .ite h ?_
    split
    · exact h.missHost
    · exact .ite h.takePages (.issueHost h.takePages)

theorem Sent.startHost {p d} (h : Sent o s) : Sent o (s.startHost p d) := .ite (.runHost h) h.deliver

/-! ### The core's own accesses -/

theorem Sent.makeWrite {w} (h : Sent o s) : Sent o (s.makeWrite w) := by
  unfold State.makeWrite
  dsimp only
  split
  · split
    · exact h.startSeg
    · exact h.deliver
    · exact h.deliver
  · exact h.startHost

theorem Sent.writeMade {id} (h : Sent o s) : Sent o (s.writeMade id) :=
  .of_frame (State.writeMade_frame (List.Subset.refl _) ..) h

theorem Sent.startWrite {w} (h : Sent o s) : Sent o (s.startWrite w) := .ite h.writeMade (.makeWrite h)

theorem Sent.startWrites (h : Sent o s) : Sent o s.startWrites := .forEach .startWrite h

theorem Sent.failReq {r} (h : Sent o s) : Sent o (s.failReq r) := by
  refine .ite h ?_
  cases s.dma r.port r.tag with
  | none => exact h
  | some d => exact h.respond

theorem Sent.migrateSeg {m page va write lines} (h : Sent o s) : Sent o (s.migrateSeg m page va write lines) := by
  unfold State.migrateSeg
  dsimp only
  split
  · exact h.deliver
  · exact h.deliver
  · exact h.startSeg

theorem Sent.migrateHost {m page va write lines} (h : Sent o s) : Sent o (s.migrateHost m page va write lines) :=
  h.startHost

theorem Sent.migrateLink {m page offset write lines} (h : Sent o s) :
    Sent o (s.migrateLink m page offset write lines) :=
  .ite h.failReq (.of_frame (State.numberReq_frame (List.Subset.refl _) ..) h)

theorem Sent.beginPage {m page} (h : Sent o s) : Sent o (s.beginPage m page) := by
  unfold State.beginPage
  split
  · exact h.migrateHost
  · exact h.migrateLink
  · exact h.migrateSeg

theorem Sent.writePage {m page lines} (h : Sent o s) : Sent o (s.writePage m page lines) := by
  unfold State.writePage
  split
  · exact .migrateSeg h
  · exact h.migrateHost
  · exact h.migrateLink
  · exact h.migrateSeg

theorem Sent.finishMigrate {m st} (h : Sent o s) : Sent o (s.finishMigrate m st) :=
  .of_frame (State.finishMigrate_frame (List.Subset.refl _) ..) h

theorem Sent.pumpMigrate {k q n} (h : Sent o s) : Sent o (pumpMigrate k q n s) := by
  induction n generalizing s with
  | zero => exact h
  | succ n ih =>
    unfold Machine.pumpMigrate
    split
    · exact h
    · split
      · exact .ite h.finishMigrate h
      · exact .ite (ih (.beginPage h)) (.ite h.finishMigrate h)

theorem Sent.migrateServed {k q page write st lines} (h : Sent o s) :
    Sent o (s.migrateServed k q page write st lines) := by
  unfold State.migrateServed
  split
  · exact h
  · exact .ite h (.ite (.pumpMigrate h) (.ite (.pumpMigrate h) h.writePage))

theorem Sent.handOn {p tag write st lines} (h : Sent o s) : Sent o (s.handOn p tag write st lines) :=
  .ite (.of_frame (State.innerDone_frame (List.Subset.refl _) ..) h) (.ite h.migrateServed h.writeMade.startWrites)

theorem Sent.drainLoop {n} (h : Sent o s) : Sent o (drainLoop n s) := by
  induction n generalizing s with
  | zero => exact h
  | succ n ih =>
    unfold Machine.drainLoop
    split
    · exact h
    · exact ih (.handOn h)

/-! ### Fence transfers that have waited -/

theorem Sent.sramUeHall {k object x} (h : Sent o s) : Sent o (s.sramUeHall k object x) :=
  .of_frame (State.pauseCause_frame (List.Subset.refl _) ..) h.raise

theorem Sent.signalNow {p e f fenceUe} (h : Sent o s) : Sent o (s.signalNow p e f fenceUe) := by
  have hset : ∀ {k n v}, Sent o (s.setFence k n v) := .of_frame (State.setFence_frame (List.Subset.refl _) ..) h
  exact .ite (.ite hset.sramUeHall hset) h.emit

theorem Sent.completeNow {p e f} (h : Sent o s) : Sent o (s.completeNow p e f) := by
  refine .ite ?_ h.emit
  split <;> exact h

theorem Sent.engProtocol {p} (h : Sent o s) : Sent o (s.engProtocol p) := h.raise

theorem Sent.fenceNow {p data fenceUe} (h : Sent o s) : Sent o (s.fenceNow p data fenceUe) := by
  unfold State.fenceNow
  dsimp only
  split
  · exact h.emit
  · exact h.emit.engProtocol
  · exact .ite h.completeNow h.signalNow

theorem Sent.servePortFences {p l} (h : Sent o s) : Sent o (servePortFences p l s) := by
  induction l generalizing s with
  | nil => exact h
  | cons w l ih => exact .ite (ih (.fenceNow h)) h

theorem Sent.serveFences (h : Sent o s) : Sent o s.serveFences := .forEach .servePortFences h

theorem Sent.clearServed (h : Sent o s) : Sent o { s with xlat := { s.xlat with served := [] } } := h

theorem Sent.drainServed (h : Sent o s) : Sent o s.drainServed :=
  .serveFences (.clearServed (.drainLoop h.wake.startWrites))

/-! ### Link ports and collectives -/

theorem Sent.faultGroup {r st} (h : Sent o s) : Sent o (s.faultGroup r st) :=
  .raise (.forEach (.of_frame (State.endOp_frame (List.Subset.refl _) ..)) h)

theorem Sent.failGroup {g st} (h : Sent o s) : Sent o (s.failGroup g st) := by
  unfold State.failGroup
  split
  · exact h
  · exact .of_frame (State.sendEnd_frame (List.Subset.refl _) ..) h.faultGroup

theorem Sent.ringLost {n} (h : Sent o s) : Sent o (s.ringLost n) := .forEach (fun ht => .ite ht ht.failGroup) h

theorem Sent.loseLink {n} (h : Sent o s) : Sent o (s.loseLink n) := .ringLost (.forEach .failReq h)

theorem Sent.startEstablish {n} (h : Sent o s) : Sent o (s.startEstablish n) :=
  .of_frame (State.numberPending_frame (List.Subset.refl _) ..) h.loseLink.modLink

theorem Sent.takeLinks {old} (h : Sent o s) : Sent o (s.takeLinks old) :=
  .forAll (fun ht => .ite ht.startEstablish ht) h

theorem Sent.dropRed {p} (h : Sent o s) : Sent o (s.dropRed p) := .engProtocol h

theorem Sent.offerRed {p e hdr beats} (h : Sent o s) : Sent o (s.offerRed p e hdr beats) := by
  unfold State.offerRed
  dsimp only
  split
  · refine .ite h.dropRed ?_
    split
    · exact h.dropRed
    · have hlate : Sent o (s.countLate beats.length) := .of_frame (State.countLate_frame (List.Subset.refl _) ..) h
      exact hlate
    · exact h
    · exact .of_frame (feedBeats_frame (List.Subset.refl _) ..) h
  · exact h.dropRed

theorem Sent.retryRed (h : Sent o s) : Sent o s.retryRed := by
  refine .forAll (fun ht => ?_) h
  split
  · exact ht.offerRed
  · exact ht

/-! ### Halls -/

theorem Sent.keysRestored {k} (h : Sent o s) : Sent o (s.keysRestored k) :=
  .wake (.of_frame (State.takeRekey_frame (List.Subset.refl _) ..)
    (.of_frame (State.giveSlots_frame (List.Subset.refl _) ..) h))

theorem Sent.installOperator (h : Sent o s) : Sent o s.installOperator := by
  unfold State.installOperator
  split
  · exact .ite (.keysRestored h) h
  · exact h

theorem Sent.clearGrants {p} (h : Sent o s) : Sent o (s.clearGrants p) :=
  .of_frame (State.clearGrants_frame (List.Subset.refl _) ..) h

theorem Sent.preempt {p nxt} (h : Sent o s) : Sent o (s.preempt p nxt) :=
  .ite (.ite h.clearGrants.modEngine h.clearGrants.modEngine.emit) h.modEngine

theorem Sent.stopEngine {k p} (h : Sent o s) : Sent o (s.stopEngine k p) :=
  .ite h.clearGrants (.ite h.preempt h.clearGrants)

theorem Sent.stopEngines {k} (h : Sent o s) : Sent o (s.stopEngines k) := .forEach .stopEngine h

theorem Sent.enterPaused {k} (h : Sent o s) : Sent o (s.enterPaused k) :=
  .forAll (.of_frame (State.pauseQueue_frame (List.Subset.refl _) ..)) (.stopEngines h)

theorem Sent.fetchFrom {k q} (h : Sent o s) : Sent o (s.fetchFrom k q) := .ite h.emit h

theorem Sent.enterActive {k} (h : Sent o s) : Sent o (s.enterActive k) :=
  .forAll (fun ht => .ite (.fetchFrom ht) (.ite ht.fetchFrom ht))
    (.of_frame (State.releaseWatch_frame (List.Subset.refl _) ..) h)

theorem Sent.hallResult {k r} (h : Sent o s) : Sent o (s.hallResult k r) :=
  .of_frame (State.hallResult_frame (List.Subset.refl _) ..) h

theorem Sent.boundaryHall {k} (h : Sent o s) : Sent o (s.boundaryHall k) := by
  unfold State.boundaryHall
  extract_lets x keyed derived resumed moved
  have hslots : Sent o (s.giveSlots k) := .of_frame (State.giveSlots_frame (List.Subset.refl _) ..) h
  have hkeyed : Sent o keyed := .ite hslots.modHall h
  have hderived : Sent o derived := .ite hkeyed.installOperator hkeyed
  have hresumed : Sent o resumed := .ite (.hallResult hderived) hderived
  have hmoved : Sent o moved :=
    .ite (.ite hresumed.enterPaused hresumed)
      (.ite (.ite hderived.enterActive hderived.modHall.hallResult) (.ite hderived.enterActive hderived))
  exact .ite hmoved.enterPaused.modHall hmoved

theorem Sent.beginDrain {k} (h : Sent o s) : Sent o (s.beginDrain k) := by
  have hstop : Sent o ((s.modHall k Hall.toDraining).stopEngines k) := .stopEngines h
  exact .forEach (.of_frame (State.stopRekey_frame (List.Subset.refl _) ..))
    (.of_frame (State.endContent_frame (List.Subset.refl _) ..)
      (.of_frame (State.drainCommits_frame (List.Subset.refl _) ..) hstop))

theorem Sent.hallBoundary {k} (h : Sent o s) : Sent o (s.hallBoundary k) :=
  .ite (.ite (.of_frame (State.beginScrub_frame (List.Subset.refl _) ..) h) h) (.ite h.beginDrain h.boundaryHall)

theorem Sent.noteRead {k c va len answer} (h : Sent o s) : Sent o (s.noteRead k c va len answer) := by
  have hpages : Sent o (Machine.forEach (pagesOf va len) (fun x u => u.readPage k c x.1 x.2) s) :=
    .forEach (.of_frame (State.readPage_frame (List.Subset.refl _) ..)) h
  exact .ite h (.ite hpages.raise hpages)

theorem Sent.noteDesc {k c va d} (h : Sent o s) : Sent o (s.noteDesc k c va d) := by
  unfold State.noteDesc
  exact .ite h.noteRead h.noteRead.noteRead

theorem Sent.switchFallback {k} (h : Sent o s) : Sent o (s.switchFallback k) := by
  unfold State.switchFallback
  extract_lets m q d
  split
  · split
    · exact h
    · extract_lets noted dropped
      have hnoted : Sent o noted := h.noteDesc
      have hdropped : Sent o dropped := .of_frame (State.dropGrants_frame (List.Subset.refl _) ..) hnoted.modDeadline
      have hwatched : ∀ {f}, Sent o (dropped.modWatched k f) :=
        .of_frame (State.modWatched_frame (List.Subset.refl _) ..) hdropped
      split
      · exact .of_frame (State.contextSettled_frame (List.Subset.refl _) ..) hwatched
      · exact .of_frame (State.settle_frame (List.Subset.refl _) ..) hwatched
  · exact h

/-! ### Commit groups -/

theorem Sent.holdWrite {k c seg off data} (h : Sent o s) : Sent o (s.holdWrite k c seg off data) :=
  .ite (.forEach .startSeg h) h

theorem Sent.applyStaged {k a t} (e : s.applyStaged k a = .ok t) (h : Sent o s) : Sent o t := by
  unfold State.applyStaged at e
  split at e
  · split at e <;> cases e
    exact .of_frame (State.exchange_frame (List.Subset.refl _) ..) h
  · split at e
    · cases e
    · split at e <;> cases e
      · exact h
      · exact .of_frame (State.startWithdrawSeg_frame (List.Subset.refl _) ..) h
  · split at e <;> cases e
    exact h.holdWrite
  · cases e
    exact h
  · cases e
    exact h
end

/-! ### A boundary under way -/

/-- What the first part of a boundary of `s` has set, and what its other parts leave alone: the outputs up to
STRIDE_OUT, the stride's number and its slot 0, and the throttle that the decision has recorded. -/
def Opened (s t : State) : Prop :=
  Sent (s.out ++ [.strideOut true]) t ∧ t.timer.strideNum = s.timer.strideNum + 1 ∧ t.timer.slot = 0 ∧
    t.timer.decided = false ∧ t.timer.thermLow = s.timer.thermLow

section
variable {s t u : State}

/-- An operation that only adds outputs and leaves the timer keeps the boundary under way. -/
theorem Opened.of_sent {l : List Part} (f : Frame l t u) (sent : ∀ {o}, Sent o t → Sent o u) (h : Opened s t)
    (n : .timerRest ∉ l := by decide) (k : .strideNum ∉ l := by decide) : Opened s u := by
  obtain ⟨hsent, hnum, hslot, hdecided, hlow⟩ := h
  have htimer := f.timer n k
  exact ⟨sent hsent, htimer ▸ hnum, htimer ▸ hslot, htimer ▸ hdecided, htimer ▸ hlow⟩

theorem Opened.of_frame {l : List Part} (f : Frame l t u) (h : Opened s t) (m : .out ∉ l := by decide)
    (n : .timerRest ∉ l := by decide) (k : .strideNum ∉ l := by decide) : Opened s u :=
  h.of_sent f (fun hs => hs.of_frame f m) n k

theorem Opened.ite {c : Prop} [Decidable c] (ht : Opened s t) (hu : Opened s u) : Opened s (if c then t else u) := by
  split <;> assumption

theorem Opened.forAll {n : Nat} {f : Nat → State → State} (step : ∀ {k t}, Opened s t → Opened s (f k t))
    (h : Opened s t) : Opened s (forAll n f t) :=
  forEach_preserves (List.range n) (fun _ _ => step) h

theorem Opened.retime (h : Opened s t) : Opened s t.retime := h

theorem Opened.loadRecords {l} (h : Opened s t) : Opened s (forEach l (fun r u => u.loadRecord r) t) :=
  .of_frame (forEach_frame (P := [.halls]) _ _ _ fun r u => State.loadRecord_frame (List.Subset.refl _) u r) h

theorem Opened.swapIn {new} (h : Opened s t) : Opened s (t.swapIn new) := by
  unfold State.swapIn
  extract_lets old newSegs installed created omitted withSegs withKeys loaded timed
  have hinstalled : Opened s installed := h
  have hcreated : Opened s created :=
    .of_frame (State.createHalls_frame (List.Subset.refl _) ..)
      (.of_frame (State.dropHalls_frame (List.Subset.refl _) ..) hinstalled)
  have homitted : Opened s omitted := .of_frame (State.withdrawOmitted_frame (List.Subset.refl _) ..) hcreated
  have hsegs : Opened s withSegs := .of_frame (State.createSegs_frame (List.Subset.refl _) ..) homitted
  have hkeys : Opened s withKeys :=
    .ite (.of_sent (State.installOperator_frame (List.Subset.refl _) ..) .installOperator hsegs) hsegs
  have htimed : Opened s timed :=
    .of_sent (State.takeLinks_frame (List.Subset.refl _) ..) .takeLinks
      (.retime (.of_frame (State.resetPools_frame (List.Subset.refl _) ..)
        (.of_frame (State.parkEngines_frame (List.Subset.refl _) ..) hkeys.loadRecords)))
  exact .of_frame (State.rehome_frame (List.Subset.refl _) ..)
    (.of_frame (State.resetDeadlines_frame (List.Subset.refl _) ..) htimed)

theorem Opened.applySwap {staged} (e : t.applySwap staged = .ok u) (h : Opened s t) : Opened s u := by
  unfold State.applySwap at e
  split at e
  · split at e
    · split at e <;> cases e
      exact h.swapIn
    · cases e
  · cases e
    exact h

theorem Opened.applyAll {f : State → Action → Except (BitVec 4) State} {l : List Action}
    (step : ∀ {a t u}, f t a = .ok u → Opened s t → Opened s u) (e : applyAll f l t = .ok u) (h : Opened s t) :
    Opened s u := by
  induction l generalizing t with
  | nil => cases e; exact h
  | cons a l ih =>
    unfold Machine.applyAll at e
    split at e
    · next e' => exact ih e (step e' h)
    · cases e

theorem Opened.tryGroup {k g} (e : t.tryGroup k g = .ok u) (h : Opened s t) : Opened s u := by
  unfold State.tryGroup at e
  dsimp only at e
  split at e
  · cases e
  · next staged =>
    split at e
    · cases e
    · next recorded =>
      split at e
      · cases e
      · next swapped =>
        cases e
        have hstaged := h.applyAll (fun e => .of_sent (State.applyStaged_frame (List.Subset.refl _) _ _ _ _ e)
          (.applyStaged e)) staged
        have hrecorded := hstaged.applyAll
          (fun e => .of_frame (State.applyRecorded_frame (List.Subset.refl _) _ _ _ _ _ _ e)) recorded
        have hswapped := hrecorded.applySwap swapped
        exact .of_frame (State.closeDone_frame (List.Subset.refl _) ..) hswapped

theorem Opened.applyGroup {k g} (h : Opened s t) : Opened s (t.applyGroup k g) := by
  unfold State.applyGroup
  split
  · next e => exact h.tryGroup e
  · have habort : ∀ {cause}, Opened s (t.abortGroup k g cause) :=
      .of_frame (State.abortGroup_frame (List.Subset.refl _) ..) h
    dsimp only
    split <;> exact habort

theorem Opened.applyDue {l stop} (h : Opened s t) : Opened s (applyDue l stop t) := by
  induction l generalizing stop t with
  | nil => exact h
  | cons x l ih => exact .ite (ih h) (.ite (ih h) (ih h.applyGroup))

theorem Opened.applyCommits (h : Opened s t) : Opened s t.applyCommits := .applyDue h

theorem Opened.swapDue (h : Opened s t) : Opened s t.swapDue := by
  unfold State.swapDue
  split
  · refine .ite ?_ h
    split
    · exact h
    · exact h.swapIn
  · exact h

/-! ### STRIDE_BOUNDARY -/

/-- The throttle in force is the one that was recorded, where a plan is active (R67, R182). -/
def Throttled (s : State) : Prop := s.timer.throttle = (s.timer.thermLow && s.plan.active.isSome)

theorem Throttled.of_frame {l : List Part} (f : Frame l t u) (h : Throttled t) (n : .timerRest ∉ l := by decide)
    (k : .strideNum ∉ l := by decide) (m : .planActive ∉ l := by decide) : Throttled u := by
  rw [Throttled, f.timer n k, f.planActive m]
  exact h

/-- The timer steps once STRIDE_OUT has been raised, from what it was in `s`. -/
theorem Opened.advance {throttle} (f : Frame [.halls, .engines, .gallery, .freeCtr] (s.emit (.strideOut true)) t) :
    Opened s (t.advance throttle) := by
  have htimer : t.timer = s.timer := f.timer (by decide) (by decide)
  have hsent : Sent (s.out ++ [.strideOut true]) t := .of_frame f List.prefix_rfl
  exact ⟨hsent, congrArg (·.strideNum + 1) htimer, rfl, rfl, congrArg (·.thermLow) htimer⟩

theorem State.openStride_opened : Opened s s.openStride :=
  .of_frame (State.countHangs_frame (List.Subset.refl _) _) <|
  .of_frame (State.countStride_frame (List.Subset.refl _) _) <|
  .advance <| (State.endSlots_frame (by simp) _).trans <| (State.publish_frame (by simp) ..).trans <|
    (State.startSlots_frame (by simp) _).trans <| (State.sampleWatts_frame (by simp) _).trans <|
    State.takeTelemetry_frame (by simp) ..

/-- The timer takes the throttle that the decision recorded, under the plan that the boundary leaves active. -/
def State.takeThrottle (s : State) : State :=
  { s with timer := { s.timer with throttle := s.timer.thermLow && s.plan.active.isSome } }

/-- What the halls and their monitors do at a boundary, after the commits and the swap. -/
def State.moveHalls (s : State) : State :=
  Machine.forAll 64 (fun h u => u.switchFallback h)
    (Machine.forAll 64 (fun h u => u.hallBoundary h) s).findGuilty.clearLate

theorem State.applyBoundary_eq (s : State) : s.applyBoundary =
    (Machine.forAll 16 (fun c u => u.switchRekey c) s).takeEpochs.applyCommits.swapDue.takeThrottle.moveHalls := rfl

theorem State.moveHalls_frame (s : State) : Frame [.planRest, .halls, .queues, .contexts, .pools, .deadlines, .engines,
    .ports, .protect, .segs, .xlatRest, .slots, .hallKeys, .vaultRest, .commit, .faultsRest, .lcRest, .out] s
    s.moveHalls :=
  (forAll_frame _ _ _ fun h u => State.hallBoundary_frame (List.Subset.refl _) u h).trans <|
  (State.findGuilty_frame (by simp) _).trans <| (State.clearLate_frame (by simp) _).trans <|
  forAll_frame _ _ _ fun h u => State.switchFallback_frame (by simp) u h

theorem Sent.moveHalls {o} (h : Sent o s) : Sent o s.moveHalls :=
  .forAll .switchFallback <| .of_frame (State.clearLate_frame (List.Subset.refl _) _) <|
  .of_frame (State.findGuilty_frame (List.Subset.refl _) _) <| .forAll .hallBoundary h

theorem Opened.takeThrottle (h : Opened s t) : Opened s t.takeThrottle := h

theorem Opened.applyBoundary (h : Opened s t) : Opened s t.applyBoundary := by
  rw [State.applyBoundary_eq]
  exact .of_sent (State.moveHalls_frame _) .moveHalls <| .takeThrottle <| .swapDue <| .applyCommits <|
    .of_frame (State.takeEpochs_frame (List.Subset.refl _) _) <|
    .forAll (.of_frame (State.switchRekey_frame (List.Subset.refl _) ..)) h

theorem State.takeThrottle_throttled (s : State) : Throttled s.takeThrottle := rfl

theorem State.applyBoundary_throttled (s : State) : Throttled s.applyBoundary := by
  rw [State.applyBoundary_eq]
  exact .of_frame (State.moveHalls_frame _) (State.takeThrottle_throttled _)

theorem Sent.serveStride {o} (h : Sent o s) : Sent o s.serveStride :=
  .drainServed (.wake (.retryRed (.forAll .pumpPort (.of_frame (State.countQuiet_frame (List.Subset.refl _) _)
    (.of_frame (State.spreadSlots_frame (List.Subset.refl _) _) h)))))

theorem State.strideBoundary_opened (hreleased : s.core.released = true) (hdecided : s.timer.decided = true) :
    Opened s s.strideBoundary ∧ Throttled s.strideBoundary := by
  have run : s.strideBoundary = s.openStride.applyBoundary.serveStride := by
    simp [State.strideBoundary, hreleased, hdecided]
  have frame := State.serveStride_frame (List.Subset.refl _) s.openStride.applyBoundary
  rw [run]
  exact ⟨.of_sent frame .serveStride (.applyBoundary State.openStride_opened),
    .of_frame frame (State.applyBoundary_throttled _)⟩
end

/-! ### Begun tiles, and the queues of the engine ports -/

/-- The tile that each port `p` has begun is `b p`. -/
def Begun (b : Nat → Option TileEntry) (s : State) : Prop := ∀ p, (s.engine p).begun = b p

section
variable {b : Nat → Option TileEntry} {s : State}

theorem Begun.of_frame {l : List Part} {t : State} (f : Frame l s t) (h : Begun b s) (n : .engines ∉ l := by decide) :
    Begun b t := fun p => by
  rw [engine_of_frame f n]
  exact h p

theorem Begun.ite {c : Prop} [Decidable c] {t u : State} (ht : Begun b t) (hu : Begun b u) :
    Begun b (if c then t else u) := by
  split <;> assumption

theorem Begun.forEach {α : Type} {l : List α} {f : α → State → State}
    (step : ∀ {a t}, Begun b t → Begun b (f a t)) (h : Begun b s) : Begun b (forEach l f s) :=
  forEach_preserves l (fun _ _ => step) h

theorem Begun.forAll {n : Nat} {f : Nat → State → State} (step : ∀ {k t}, Begun b t → Begun b (f k t))
    (h : Begun b s) : Begun b (forAll n f s) :=
  .forEach step h

theorem Begun.modEngine {p : Nat} {f : Engine → Engine} (h : Begun b s)
    (hf : ∀ e, (f e).begun = e.begun := by intro; rfl) : Begun b (s.modEngine p f) := fun q => by
  rw [State.modEngine_engine]
  split
  · next e => rw [hf, e, h p]
  · exact h q

theorem Begun.emit {x} (h : Begun b s) : Begun b (s.emit x) := h

theorem Begun.modQueue {k q f} (h : Begun b s) : Begun b (s.modQueue k q f) := h

theorem Begun.modHall {k f} (h : Begun b s) : Begun b (s.modHall k f) := h

theorem Begun.modDeadline {k f} (h : Begun b s) : Begun b (s.modDeadline k f) := h

/-- Taking back a port's grants leaves of its queue the PARK entries, and touches no other port. -/
theorem State.clearGrants_engine (s : State) (p q : Nat) : (s.clearGrants p).engine q =
    if q = p then { s.engine p with queue := (s.engine p).queue.filter (· = .park), fetched := none }
    else s.engine q := by
  have habandoned (r : Nat) :
      (s.abandonFetched p).engine r = if r = p then { s.engine p with fetched := none } else s.engine r := by
    unfold State.abandonFetched
    split
    · simp
    · next e =>
      split
      · next hr => rw [hr, ← e]
      · rfl
  have hungranted (r : Nat) : (forEach ((s.abandonFetched p).engine p).queue EngEntry.ungrant
      (s.abandonFetched p)).engine r = (s.abandonFetched p).engine r :=
    engine_of_frame (l := [.queues]) (forEach_frame _ _ _ (by intro e u; simp)) (by decide) r
  unfold State.clearGrants
  dsimp only
  rw [State.modEngine_engine, hungranted p, hungranted q, habandoned p, habandoned q, if_pos rfl]
  split <;> rfl

theorem Begun.clearGrants {p} (h : Begun b s) : Begun b (s.clearGrants p) := fun q => by
  rw [State.clearGrants_engine]
  split
  · next e => exact e ▸ h q
  · exact h q

theorem Begun.passSlot (h : Begun b s) : Begun b s.passSlot := .forAll (fun ht => ht.clearGrants.modEngine) h

theorem Begun.preempt {p nxt} (h : Begun b s) : Begun b (s.preempt p nxt) :=
  .ite (.ite h.clearGrants.modEngine h.clearGrants.modEngine.emit) h.modEngine

theorem Begun.stopEngine {k p} (h : Begun b s) : Begun b (s.stopEngine k p) :=
  .ite h.clearGrants.modEngine (.ite h.preempt h.clearGrants)

theorem Begun.stopEngines {k} (h : Begun b s) : Begun b (s.stopEngines k) := .forEach .stopEngine h

theorem Begun.preemptOwners {new} (h : Begun b s) : Begun b (s.preemptOwners new) :=
  .forAll (fun ht => .ite ht.preempt ht) h

theorem Begun.serve {p k} (h : Begun b s) : Begun b (s.serve p k) := by
  unfold State.serve
  split
  · exact h.modEngine
  · exact .ite h h.preempt.modEngine

theorem Begun.grant {p k q v i} (h : Begun b s) : Begun b (s.grant p k q v i) := h.serve.modEngine.modQueue

theorem Begun.limitChanged {k q} (h : Begun b s) : Begun b (s.limitChanged k q) := by
  unfold State.limitChanged
  extract_lets stopped noted
  have hstopped : Begun b stopped := by
    intro p
    dsimp only [stopped]
    split
    · rw [State.stopStarts_begun, h p]
    · exact h p
  have hnoted : Begun b noted := .ite hstopped.modDeadline hstopped
  exact fun p => (noted.settle_begun ..).trans (hnoted p)

theorem Begun.changeUnfed {k n free} (h : Begun b s) : Begun b (s.changeUnfed k n free) := .forEach .serve h

theorem Begun.serveHall {i k fuel free q} (h : Begun b s) : Begun b (State.serveHall i k fuel free q s) := by
  induction fuel generalizing free q s with
  | zero => exact h
  | succ fuel ih =>
    unfold State.serveHall
    split
    · exact h
    · exact h
    · split
      · refine .ite (ih h.limitChanged) ?_
        split
        · exact h.changeUnfed.modHall
        · exact ih h.grant
      · exact h

theorem Begun.grantSlot {k ready} (h : Begun b s) : Begun b (s.grantSlot k ready) :=
  .ite h <| .forAll (fun ht => .ite ht.serveHall ht) <|
    .forEach (.of_frame (State.rotate_frame (List.Subset.refl _) ..)) h

theorem Begun.decisionPoint {low fallbacks} (h : Begun b s) : Begun b (s.decisionPoint low fallbacks) := by
  unfold State.decisionPoint
  extract_lets decided stopped
  have hdecided : Begun b decided := .forAll (.of_frame (State.decideDeadline_frame (List.Subset.refl _) ..)) h
  have hstopped : Begun b stopped := .forAll (fun ht => .ite ht.stopEngines ht) hdecided
  split
  · exact .ite hstopped.preemptOwners hstopped
  · exact hstopped

theorem Begun.enterSlot {k low fallbacks} (h : Begun b s) : Begun b (s.enterSlot k low fallbacks) :=
  .ite h.decisionPoint h

theorem Begun.endCorrection {k} (h : Begun b s) : Begun b (s.endCorrection k) := .ite h h

theorem Begun.slotDecision {k low fallbacks} (h : Begun b s) : Begun b (s.slotDecision k low fallbacks) :=
  .ite h (.grantSlot (.enterSlot (.endCorrection h.passSlot)))

theorem State.passSlot_queue_le (s : State) (p : Nat) :
    (s.passSlot.engine p).queue.length ≤ (s.engine p).queue.length := by
  refine forEach_preserves (P := fun t => (t.engine p).queue.length ≤ (s.engine p).queue.length) (List.range 256)
    (fun k t h => ?_) (Nat.le_refl _)
  refine Nat.le_trans ?_ h
  rw [State.modEngine_engine, State.clearGrants_engine, State.clearGrants_engine]
  split
  · next e => simpa [e] using List.length_filter_le ..
  · exact Nat.le_refl _

/-- Without a plan, or in the throttled end of the stride, a decision grants nothing (R182). -/
theorem State.grantSlot_of_idle {k : Nat} (ready : List Nat) (h : s.plan.active = none ∨ s.throttledSlot k = true) :
    s.grantSlot k ready = s := by
  unfold State.grantSlot
  exact if_pos h

/-! ### SLOT_DECISION -/

theorem State.slotDecision_of_due {k : Nat} (low : Bool) (fallbacks : List (Fin 64 × DescRead))
    (hreleased : s.core.released = true) (hdecided : s.timer.decided = false) (hk : k ≠ 0 → s.timer.slot < k) :
    s.slotDecision k low fallbacks =
      (((s.passSlot.endCorrection k).enterSlot k low fallbacks).grantSlot k s.usablePorts).samplePower := by
  have hdue : ¬(k ≠ 0 ∧ k ≤ s.timer.slot) := fun ⟨hk0, hle⟩ => absurd (hk hk0) (Nat.not_lt.mpr hle)
  simp [State.slotDecision, hreleased, hdecided, hdue]

/-- Once the slot is entered, nothing of a decision touches the timer. -/
theorem State.grantSlot_samplePower_timer (s : State) (k : Nat) (ready : List Nat) :
    (s.grantSlot k ready).samplePower.timer = s.timer :=
  ((State.samplePower_frame (List.Subset.refl _) _).timer (by decide) (by decide)).trans
    ((State.grantSlot_frame (List.Subset.refl _) s k ready).timer (by decide) (by decide))

/-- The correction that slot 63 takes leaves the decision and the throttle of the timer as they are (R77). -/
theorem State.endCorrection_timer (s : State) (k : Nat) :
    (s.endCorrection k).timer.decided = s.timer.decided ∧ (s.endCorrection k).timer.throttle = s.timer.throttle := by
  unfold State.endCorrection
  dsimp only
  split <;> exact ⟨rfl, rfl⟩

theorem State.passSlot_timer (s : State) : s.passSlot.timer = s.timer :=
  (State.passSlot_frame (List.Subset.refl _) s).timer (by decide) (by decide)

/-- What follows the sample in a decision point leaves the timer alone. -/
theorem State.decisionPoint_timer (s : State) (low : Bool) (fallbacks : List (Fin 64 × DescRead)) :
    (s.decisionPoint low fallbacks).timer = (s.sampleDecision low).timer := by
  unfold State.decisionPoint
  extract_lets decided stopped
  have hstopped : Frame [.deadlines, .queues, .pools, .engines, .out] (s.sampleDecision low) stopped :=
    (forAll_frame _ _ _ fun h u => State.decideDeadline_frame (by simp) u fallbacks h).trans
      (forAll_frame _ _ _ fun h u => ite_frame (State.stopEngines_frame (by simp) u h) (Frame.refl u))
  have htimer := hstopped.timer (by decide) (by decide)
  split
  · split
    · exact ((State.preemptOwners_frame (List.Subset.refl _) ..).timer (by decide) (by decide)).trans htimer
    · exact htimer
  · exact htimer

section
variable {k : Nat} {low : Bool} {fallbacks : List (Fin 64 × DescRead)} (hreleased : s.core.released = true)
  (hdecided : s.timer.decided = false)
include hreleased hdecided

theorem State.slotDecision_later (hk : k ≠ 0) (hslot : s.timer.slot < k) :
    (s.slotDecision k low fallbacks).timer.slot = k ∧ (s.slotDecision k low fallbacks).timer.decided = false := by
  rw [State.slotDecision_of_due low fallbacks hreleased hdecided fun _ => hslot, State.grantSlot_samplePower_timer,
    State.enterSlot, if_neg hk]
  exact ⟨rfl, (State.endCorrection_timer ..).1.trans ((congrArg Timer.decided s.passSlot_timer).trans hdecided)⟩

theorem State.slotDecision_first :
    (s.slotDecision 0 low fallbacks).timer.decided = true ∧
      (s.slotDecision 0 low fallbacks).timer.thermLow = low := by
  rw [State.slotDecision_of_due low fallbacks hreleased hdecided fun h => absurd rfl h,
    State.grantSlot_samplePower_timer, State.enterSlot, if_pos rfl, State.decisionPoint_timer]
  exact ⟨rfl, rfl⟩

/-- No engine queue grows at a later slot without a plan, or in the throttled end of a stride (R182). -/
theorem State.slotDecision_queue_le (hk : k ≠ 0) (hslot : s.timer.slot < k)
    (hidle : s.plan.active = none ∨ s.timer.throttle = true ∧ 64 - 8 * s.act.core.throttleEighths ≤ k) (p : Nat) :
    ((s.slotDecision k low fallbacks).engine p).queue.length ≤ (s.engine p).queue.length := by
  rw [State.slotDecision_of_due low fallbacks hreleased hdecided fun _ => hslot]
  have hended : Frame [.queues, .engines, .timerRest] s (s.passSlot.endCorrection k) :=
    (State.passSlot_frame (by simp) s).trans (State.endCorrection_frame (by simp) ..)
  have hactive := hended.planActive (by decide)
  have hthrottle : (s.passSlot.endCorrection k).timer.throttle = s.timer.throttle :=
    (State.endCorrection_timer ..).2.trans (congrArg Timer.throttle s.passSlot_timer)
  have hquiet : ((s.passSlot.endCorrection k).enterSlot k low fallbacks).plan.active = none ∨
      ((s.passSlot.endCorrection k).enterSlot k low fallbacks).throttledSlot k = true := by
    simpa [State.enterSlot, State.throttledSlot, State.act, hk, hactive, hthrottle] using hidle
  rw [State.grantSlot_of_idle _ hquiet, engine_of_frame (State.samplePower_frame (List.Subset.refl _) _) (by decide),
    State.enterSlot, if_neg hk]
  have hengine : (s.passSlot.endCorrection k).engine p = s.passSlot.engine p :=
    engine_of_frame (State.endCorrection_frame (List.Subset.refl _) ..) (by decide) p
  exact (congrArg (·.queue.length) hengine).trans_le (s.passSlot_queue_le p)
end

theorem State.slotDecision_begun (s : State) (k : Nat) (low : Bool) (fallbacks : List (Fin 64 × DescRead)) (p : Nat) :
    ((s.slotDecision k low fallbacks).engine p).begun = (s.engine p).begun :=
  Begun.slotDecision (b := fun p => (s.engine p).begun) (fun _ => rfl) p
end

/-- Settles O38: a decision enters its slot and touches no begun tile; a boundary opens the stride, and what follows
only adds outputs and leaves the number, the slot and the recorded throttle alone. -/
theorem slotsAndBoundariesDriveTheStride : Obligations.SlotsAndBoundariesDriveTheStride := by
  refine ⟨fun k low fallbacks s hreleased hdecided => ⟨fun hk hslot => ?later, fun hk => ?first⟩,
    fun s hreleased hdecided => ?boundary⟩
  case later =>
    obtain ⟨hslot', hdecided'⟩ :=
      State.slotDecision_later (low := low) (fallbacks := fallbacks) hreleased hdecided hk hslot
    exact ⟨s.slotDecision k low fallbacks, rfl, hslot', hdecided', s.slotDecision_begun k low fallbacks,
      State.slotDecision_queue_le hreleased hdecided hk hslot, State.slotDecision_frame (by simp) ..⟩
  case first =>
    obtain rfl : k = 0 := Fin.ext hk
    obtain ⟨hdecided', hlow⟩ :=
      State.slotDecision_first (low := low) (fallbacks := fallbacks) hreleased hdecided
    exact ⟨s.slotDecision 0 low fallbacks, rfl, hdecided', hlow, s.slotDecision_begun 0 low fallbacks,
      State.slotDecision_frame (by simp) ..⟩
  case boundary =>
    obtain ⟨⟨⟨more, hout⟩, hnum, hslot, hopen, hlow⟩, hthrottle⟩ :=
      State.strideBoundary_opened hreleased hdecided
    exact ⟨s.strideBoundary, rfl, hnum, hslot, hopen, hlow ▸ hthrottle, ⟨more, hout.symm⟩,
      State.strideBoundary_frame (by simp) s⟩
end Sys2Proof.Machine
end

section
/-! What the core's own work after a command leaves of halls, fences and engine ports (R144, R175, R196). -/

namespace Sys2Proof.Machine
open Sys2Proof Sys2Proof.Safety

/-! ### What the core's own work leaves of halls and ports

The core's own accesses count events of their halls and run requests at the ports; nothing else of a hall changes, and no
fence transfer comes to wait. -/

/-- A hall but for its event counters. -/
def Hall.uncounted (x : Hall) : Hall := { x with live := {} }

/-- Each hall stands as `a` has it but for its event counters, and no fence transfer waits at a port. -/
def Steady (a : Nat → Hall) (s : State) : Prop := (∀ h, (s.hall h).uncounted = a h) ∧ Quiet [] s

section
variable {a : Nat → Hall} {s t : State}

theorem Steady.of_frame {l : List Part} (f : Frame l s t) (h : Steady a s) (n : .halls ∉ l := by decide)
    (m : .engines ∉ l := by decide) : Steady a t := by
  obtain ⟨hhalls, hquiet⟩ := h
  refine ⟨fun k => ?_, hquiet.of_frame f m⟩
  rw [State.hall, f.halls n]
  exact hhalls k

theorem Steady.ite {c : Prop} [Decidable c] (ht : Steady a s) (hu : Steady a t) : Steady a (if c then s else t) := by
  split <;> assumption

theorem Steady.forEach {α : Type} {l : List α} {f : α → State → State}
    (step : ∀ {x t}, Steady a t → Steady a (f x t)) (h : Steady a s) : Steady a (forEach l f s) :=
  forEach_preserves l (fun _ _ => step) h

theorem Steady.modHall {k f} (h : Steady a s) (hf : ∀ x, (f x).uncounted = x.uncounted) : Steady a (s.modHall k f) := by
  obtain ⟨hhalls, hquiet⟩ := h
  refine ⟨fun j => ?_, hquiet.of_engines rfl⟩
  rw [State.modHall_hall]
  split
  · next e => rw [hf, e, hhalls]
  · exact hhalls j

theorem Steady.countHall {k f} (h : Steady a s) : Steady a (s.countHall k f) := .ite (h.modHall fun _ => rfl) h

theorem Steady.modEngine {p f} (h : Steady a s) (hf : ∀ e : Engine, e.fences = [] → (f e).fences = []) :
    Steady a (s.modEngine p f) :=
  ⟨h.1, h.2.modEngine ⟨fun _ _ => List.not_mem_nil, hf _ (h.2.engine p).2⟩⟩

theorem Steady.modDma {p tag f} (h : Steady a s) : Steady a (s.modDma p tag f) := h.modEngine fun _ he => he

theorem Steady.await {p tag w} (h : Steady a s) : Steady a (s.await p tag w) := h.modDma

/-! #### Responses, and the lines that a memory port carries -/

theorem Steady.deliver {p d st} (h : Steady a s) : Steady a (s.deliver p d st) := .ite h h

theorem Steady.respond {p d st} (h : Steady a s) : Steady a (s.respond p d st) :=
  h.deliver.modEngine fun e he => by simp [he]

theorem Steady.respondNow {p tag} (h : Steady a s) : Steady a (s.respondNow p tag) := by
  unfold State.respondNow
  split
  · exact h.respond
  · exact h

theorem Steady.spendLines {m payer n write} (h : Steady a s) : Steady a (s.spendLines m payer n write) :=
  .countHall h

theorem Steady.issueMem {m r} (h : Steady a s) : Steady a (s.issueMem m r) :=
  .of_frame (MemReq.signals_frame (List.Subset.refl _) ..) h.spendLines

theorem Steady.issueWaiting {m demand l held} (h : Steady a s) : Steady a (issueWaiting m demand l held s) := by
  induction l generalizing held s with
  | nil => exact h
  | cons r l ih =>
    unfold Machine.issueWaiting
    split
    · exact ih h
    · exact ih h.issueMem

theorem Steady.runScrub {m demand x} (h : Steady a s) : Steady a (s.runScrub m demand x) := .ite h.spendLines h

theorem Steady.pumpPort {m} (h : Steady a s) : Steady a (s.pumpPort m) := .forEach .runScrub (.issueWaiting h)

theorem Steady.sendMem {m r} (h : Steady a s) : Steady a (s.sendMem m r) := .ite (.pumpPort h) h

theorem Steady.readLine {payer set n why seg slot ctr} (h : Steady a s) :
    Steady a (s.readLine payer set n why seg slot ctr) := h.sendMem

theorem Steady.writeLine {payer set n d poison seg} (h : Steady a s) :
    Steady a (s.writeLine payer set n d poison seg) := h.sendMem

theorem Steady.fetchLevels {r g payer levels} (h : Steady a s) : Steady a (s.fetchLevels r g payer levels) :=
  .ite h (.forEach .readLine h.countHall)

theorem Steady.prefetch {d} (h : Steady a s) : Steady a (s.prefetch d) := .ite h.fetchLevels h

theorem Steady.finishWrite {p tag} (h : Steady a s) : Steady a (s.finishWrite p tag) := by
  unfold State.finishWrite
  split
  · exact .ite (.ite h.await h.respondNow) h
  · exact h

/-! #### The counter tree -/

theorem Steady.setGuard {r level i v} (h : Steady a s) : Steady a (s.setGuard r level i v) :=
  .of_frame (State.setGuard_frame (List.Subset.refl _) ..) h

theorem Steady.setMarker {x} (h : Steady a s) : Steady a (s.setMarker x) := by
  unfold State.setMarker
  split
  · exact h
  · exact .ite (.setGuard h) h.fetchLevels

theorem Steady.writeMeta {r level i parent payer b} (h : Steady a s) :
    Steady a (s.writeMeta r level i parent payer b) := .ite h.writeLine h.writeLine.writeLine

theorem Steady.writeChild {r level i payer b} (h : Steady a s) : Steady a (s.writeChild r level i payer b) := by
  unfold State.writeChild
  split
  · exact .ite h (.writeMeta h.setGuard)
  · exact h

theorem Steady.writeBack {e} (h : Steady a s) : Steady a (s.writeBack e) := by
  unfold State.writeBack
  split
  · exact h
  · have hparent : ∀ {r level i}, Steady a (s.zeroParent r level i) :=
      .of_frame (State.zeroParent_frame (List.Subset.refl _) ..) h
    exact .ite (.writeChild hparent) hparent.fetchLevels

theorem Steady.drainEvicting {n} (h : Steady a s) : Steady a (drainEvicting n s) := by
  induction n generalizing s with
  | zero => exact h
  | succ n ih =>
    unfold Machine.drainEvicting
    dsimp only
    split
    · exact ih h.setMarker
    · split
      · exact ih h.writeBack
      · exact .forEach .writeBack (.forEach .setMarker h)

theorem Steady.setLeaf {r g b} (h : Steady a s) : Steady a (s.setLeaf r g b) := by
  unfold State.setLeaf
  split
  · exact .of_frame (State.updateCached_frame (List.Subset.refl _) ..) h
  · exact .drainEvicting (.of_frame (State.fill_frame (List.Subset.refl _) ..) h)

theorem Steady.storeLine {r base l ctr d payer} (h : Steady a s) : Steady a (s.storeLine r base l ctr d payer) := by
  unfold State.storeLine
  dsimp only
  split <;> exact h.writeLine

theorem Steady.beginOverflow {r base l port tag} (h : Steady a s) : Steady a (s.beginOverflow r base l port tag) :=
  .forEach .readLine (.forEach .storeLine h.setLeaf)

/-! #### Requests on segments and on working memory -/

theorem Steady.mpx {code k st} (h : Steady a s) : Steady a (s.mpx code k st) :=
  .of_frame (State.mpx_frame (List.Subset.refl _) ..) h

theorem Steady.putLine {r base l d port tag} (h : Steady a s) : Steady a (s.putLine r base l d port tag).1 := by
  unfold State.putLine
  dsimp only
  (repeat' split)
  · exact h.mpx
  · exact h.setLeaf.storeLine
  · exact h.beginOverflow.storeLine
  · exact h.storeLine

theorem Steady.postLine {p d i data st} (h : Steady a s) : Steady a (s.postLine p d i data st) := h.putLine.modDma

theorem Steady.runLine {p tag i} (h : Steady a s) : Steady a (s.runLine p tag i) := by
  unfold State.runLine
  split
  · exact h
  · refine .ite h (.ite h.await (.ite h.await ?_))
    split
    · exact .ite h.modDma (.ite h.await h.postLine)
    · exact .ite (.ite h.await h.postLine) (.ite (.ite h.await h.postLine) h.readLine.modDma)

theorem Steady.writeLines {p d} (h : Steady a s) : Steady a (s.writeLines p d) := .finishWrite (.forEach .runLine h)

theorem Steady.readLines {p d r} (h : Steady a s) : Steady a (s.readLines p d r) :=
  .ite h.await (.ite h.modDma.respondNow (.forEach .sendMem h.modDma))

theorem Steady.goLines {p d r} (h : Steady a s) : Steady a (s.goLines p d r) := .ite h.writeLines h.readLines

theorem Steady.runLines {p d} (h : Steady a s) : Steady a (s.runLines p d) := by
  unfold State.runLines
  refine .ite h.respond (.ite h.await (.ite h.await (.ite ?_ h.goLines)))
  dsimp only
  split
  · exact h.respond
  · exact h.await.fetchLevels
  · exact .ite h.await.fetchLevels h.goLines
  · exact .ite h.await.fetchLevels
      (.goLines (.prefetch (.of_frame (State.touchPath_frame (List.Subset.refl _) ..) h)))

theorem Steady.runWm {p d} (h : Steady a s) : Steady a (s.runWm p d) := by
  unfold State.runWm
  have written : ∀ {l : List Nat} {f : Nat → Out}, Steady a (Machine.forEach l (fun b u => u.emit (f b)) s) :=
    .forEach (fun ht => ht) h
  exact .ite (.respond written) (.ite h.countHall.modDma.respondNow (.ite h.await (.forEach (fun ht => ht) h.modDma)))

theorem Steady.runSeg {p tag} (h : Steady a s) : Steady a (s.runSeg p tag) := by
  unfold State.runSeg
  split
  · exact h
  · exact .ite h.runWm h.runLines

theorem Steady.wake {ws} (h : Steady a s) : Steady a (s.wake ws) := .forEach .runSeg h

theorem Steady.startSeg {p d} (h : Steady a s) : Steady a (s.startSeg p d) :=
  .runSeg (h.modEngine (f := fun e => { e with dmas := e.dmas ++ [s.translated d] }) fun _ he => he)

/-! #### Host pages -/

theorem Steady.missHost {p d page} (h : Steady a s) : Steady a (s.missHost p d page) :=
  .ite h.countHall.modDma (.of_frame (State.askAts_frame (List.Subset.refl _) ..) h.countHall.modDma)

theorem Steady.issueReads {p d} (h : Steady a s) : Steady a (s.issueReads p d) :=
  .forEach (fun ht => ht) h.modDma

theorem Steady.issueHost {p d} (h : Steady a s) : Steady a (s.issueHost p d) :=
  .ite h.issueReads (.respond (.of_frame (sealSectors_frame (List.Subset.refl _) ..) h))

theorem Steady.runHost {p tag} (h : Steady a s) : Steady a (s.runHost p tag) := by
  unfold State.runHost
  split
  · exact h
  · refine .ite h.await ?_
    split
    · exact h.missHost
    · have taken : ∀ {d}, Steady a (s.takePages d).1 := .of_frame (State.takePages_frame (List.Subset.refl _) ..) h
      exact .ite taken.await taken.issueHost

theorem Steady.startHost {p d} (h : Steady a s) : Steady a (s.startHost p d) :=
  .ite (.runHost (h.modEngine (f := fun e => { e with dmas := e.dmas ++ [d] }) fun _ he => he)) h.deliver

/-! #### Completed commands -/

theorem Steady.modQueue {k q f} (h : Steady a s) : Steady a (s.modQueue k q f) := h

theorem Steady.complete {k q hdr x} (h : Steady a s) : Steady a (s.complete k q hdr x) := by
  have hrecord : Steady a (s.writeRecord k q hdr x) := .of_frame (State.writeRecord_frame (List.Subset.refl _) ..) h
  have hstatus : Steady a ((s.writeRecord k q hdr x).noteStatus k q x.status) := .ite (.countHall hrecord) hrecord
  exact .ite hstatus.countHall hstatus

theorem Steady.abortAction {k q x} (h : Steady a s) : Steady a (abortAction k q x s) := by
  unfold Machine.abortAction
  split
  · exact h.complete
  · exact h.complete
  · exact h

theorem Steady.abortOpener {k g c} (h : Steady a s) : Steady a (s.abortOpener k g c) := by
  unfold State.abortOpener
  split
  · exact h
  · exact .ite h.complete.modQueue h
  · exact h

theorem Steady.abortGroup {k g cause} (h : Steady a s) : Steady a (s.abortGroup k g cause) := by
  have hrecorded : ∀ {q l}, Steady a (Machine.forEach l (Machine.abortAction k q) s) := .forEach .abortAction h
  have hswap : ∀ {q l} {b : Bool}, Steady a (if b then (Machine.forEach l (Machine.abortAction k q) s).cancelPending
      else Machine.forEach l (Machine.abortAction k q) s) := .ite hrecorded hrecorded
  exact .ite h (.abortOpener (hswap (q := (s.cmt k g).queue)))

theorem Steady.abortOpen {k q cause} (h : Steady a s) : Steady a (s.abortOpen k q cause) := by
  unfold State.abortOpen
  split
  · exact h
  · exact .modQueue (.ite h h.abortGroup)

theorem Steady.nextCommand {k q n} (h : Steady a s) : Steady a (s.nextCommand k q n) := by
  unfold State.nextCommand
  split
  · exact h
  · have hloops : ∀ {c : Prop} [Decidable c], Steady a (if c then s else s.noteRefused k q) := .ite h h.modQueue
    exact .ite h (.modQueue (.abortOpen hloops))

/-! #### The core's own accesses -/

theorem Steady.makeWrite {w} (h : Steady a s) : Steady a (s.makeWrite w) := by
  unfold State.makeWrite
  dsimp only
  split
  · split
    · exact h.startSeg
    · exact h.deliver
    · exact h.deliver
  · exact h.startHost

theorem Steady.writeMade {id} (h : Steady a s) : Steady a (s.writeMade id) :=
  .of_frame (State.writeMade_frame (List.Subset.refl _) ..) h

theorem Steady.startWrite {w} (h : Steady a s) : Steady a (s.startWrite w) := .ite h.writeMade (.makeWrite h)

theorem Steady.startWrites (h : Steady a s) : Steady a s.startWrites := .forEach .startWrite h

theorem Steady.failReq {r} (h : Steady a s) : Steady a (s.failReq r) := by
  refine .ite h ?_
  cases s.dma r.port r.tag with
  | none => exact h
  | some d => exact h.respond

theorem Steady.migrateSeg {m page va write lines} (h : Steady a s) : Steady a (s.migrateSeg m page va write lines) := by
  unfold State.migrateSeg
  dsimp only
  split
  · exact h.deliver
  · exact h.deliver
  · exact h.startSeg

theorem Steady.migrateLink {m page offset write lines} (h : Steady a s) :
    Steady a (s.migrateLink m page offset write lines) :=
  .ite h.failReq (.of_frame (State.numberReq_frame (List.Subset.refl _) ..) h)

theorem Steady.beginPage {m page} (h : Steady a s) : Steady a (s.beginPage m page) := by
  unfold State.beginPage
  split
  · exact h.startHost
  · exact h.migrateLink
  · exact h.migrateSeg

theorem Steady.writePage {m page lines} (h : Steady a s) : Steady a (s.writePage m page lines) := by
  unfold State.writePage
  split
  · exact .migrateSeg h
  · exact h.startHost
  · exact h.migrateLink
  · exact h.migrateSeg

theorem Steady.finishMigrate {m st} (h : Steady a s) : Steady a (s.finishMigrate m st) :=
  (h.complete (k := m.hall) (q := m.queue)).modQueue.nextCommand

theorem Steady.pumpMigrate {k q n} (h : Steady a s) : Steady a (pumpMigrate k q n s) := by
  induction n generalizing s with
  | zero => exact h
  | succ n ih =>
    unfold Machine.pumpMigrate
    split
    · exact h
    · split
      · exact .ite h.finishMigrate h
      · exact .ite (ih (.beginPage h)) (.ite h.finishMigrate h)

theorem Steady.migrateServed {k q page write st lines} (h : Steady a s) :
    Steady a (s.migrateServed k q page write st lines) := by
  unfold State.migrateServed
  split
  · exact h
  · exact .ite h (.ite (.pumpMigrate h) (.ite (.pumpMigrate h) h.writePage))

theorem Steady.handOn {p tag write st lines} (h : Steady a s) : Steady a (s.handOn p tag write st lines) :=
  .ite (.of_frame (State.innerDone_frame (List.Subset.refl _) ..) h) (.ite h.migrateServed h.writeMade.startWrites)

theorem Steady.drainLoop {n} (h : Steady a s) : Steady a (drainLoop n s) := by
  induction n generalizing s with
  | zero => exact h
  | succ n ih =>
    unfold Machine.drainLoop
    split
    · exact h
    · exact ih (.handOn h)

theorem Steady.clearServed (h : Steady a s) : Steady a { s with xlat := { s.xlat with served := [] } } := h

/-- The state in which the core's own work has come to rest, before the fence transfers that waited on it. -/
def State.drained (s : State) : State :=
  let t := (s.wake [.lock]).startWrites
  let u := Machine.drainLoop t.innerBound t
  { u with xlat := { u.xlat with served := [] } }

theorem Steady.drained (h : Steady a s) : Steady a s.drained := .clearServed (.drainLoop h.wake.startWrites)
end

/-- Where no fence transfer waits, none takes effect after the command. -/
theorem State.drainServed_eq_drained {a : Nat → Hall} {s : State} (h : Steady a s) : s.drainServed = s.drained :=
  State.serveFences_of_none _ fun e he => (h.drained.2 e he).2

/-! ### What a command's end leaves of halls and fences -/

theorem hall_of_frame {l : List Part} {s t : State} (f : Frame l s t) (n : .halls ∉ l) (h : Nat) :
    t.hall h = s.hall h := by
  rw [State.hall, f.halls n]
  rfl

theorem fence_of_frame {l : List Part} {s t : State} (f : Frame l s t) (m : .fences ∉ l) (h n : Nat) :
    t.fence h n = s.fence h n := by
  rw [State.fence, f.fences m]
  rfl

section
variable {s : State}

theorem steady_of_quiet {ws : List DmaWait} (h : Quiet ws s) : Steady (fun k => (s.hall k).uncounted) s :=
  ⟨fun _ => rfl, h.mono (List.nil_subset _)⟩

theorem State.drained_frame : Frame [.planRest, .halls, .queues, .engines, .ports, .protect, .xlatRest, .hallKeys,
    .vaultRest, .links, .commit, .faultsRest, .out] s s.drained := by
  simp [Frame, State.drained]

theorem adderOps_of_uncounted {x y : Hall} (h : x.uncounted = y.uncounted) : x.adderOps = y.adderOps := by
  simpa [Hall.uncounted] using congrArg Hall.adderOps h

theorem State.drainServed_adderOps {ws : List DmaWait} (h : Quiet ws s) (k : Nat) :
    (s.drainServed.hall k).adderOps = (s.hall k).adderOps := by
  rw [State.drainServed_eq_drained (steady_of_quiet h)]
  exact adderOps_of_uncounted ((steady_of_quiet h).drained.1 k)

theorem State.drainServed_fence {ws : List DmaWait} (h : Quiet ws s) (k n : Nat) :
    s.drainServed.fence k n = s.fence k n := by
  rw [State.drainServed_eq_drained (steady_of_quiet h), fence_of_frame State.drained_frame (by decide)]
end

end Sys2Proof.Machine
end

section
/-! Collective groups: their operations, rings and GRANTs, the reads of an item, and the frames of a chunk (R144, R196, R298,
R316, R320). -/

namespace Sys2Proof.Machine
open Sys2Proof Sys2Proof.Safety

/-! ### Groups and their operations -/

theorem State.groupRec_group {s : State} {g : Nat} {r : GroupRec} (h : s.groupRec g = some r) : r.group = g := by
  simpa using List.find?_some h

theorem State.opOf_kind {s : State} {g kind : Nat} {o : CollOp} (h : s.opOf g kind = some o) : o.kind = kind := by
  simpa using List.find?_some h

theorem group_of_frame {l : List Part} {s t : State} (f : Frame l s t) (n : .groups ∉ l) (g : Nat) :
    t.group g = s.group g := by
  rw [State.group, f.groups n]
  rfl

theorem opOf_of_frame {l : List Part} {s t : State} (f : Frame l s t) (n : .groups ∉ l) (g kind : Nat) :
    t.opOf g kind = s.opOf g kind := by
  rw [State.opOf, group_of_frame f n]
  rfl

/-- An operation that takes the place of the group's operation of its kind is then that operation. -/
theorem State.putOp_opOf {s : State} {g kind : Nat} {x o : CollOp} (h : s.opOf g kind = some x) (hkind : o.kind = kind) :
    (s.putOp g o).opOf g kind = some o := by
  subst hkind
  have same : ((fun y : CollOp => y.kind == o.kind) ∘ fun y => if y.kind = o.kind then o else y) =
      fun y => y.kind == o.kind := by
    funext y
    by_cases hy : y.kind = o.kind <;> simp [hy]
  have hx : x.kind = o.kind := State.opOf_kind h
  unfold State.opOf at h ⊢
  rw [State.putOp, State.modGroup_group, if_pos rfl, List.find?_map, same, h]
  simp [hx]

theorem SameBut.trans {α : Type} {read : State → Nat → α} {k : Nat} {s t u : State} (a : SameBut read k s t)
    (b : SameBut read k t u) : SameBut read k s u :=
  fun j hj => (b j hj).trans (a j hj)

theorem sameGroups_of_frame {l : List Part} {s t : State} (f : Frame l s t) (n : .groups ∉ l) (g : Nat) :
    SameBut State.group g s t := fun j _ => group_of_frame f n j

theorem State.modGroup_sameGroups (s : State) (g : Nat) (f : Group → Group) :
    SameBut State.group g s (s.modGroup g f) := fun j hj => by simp [hj]

/-! ### Rings -/

theorem CollOp.modRing_ring (o : CollOp) (k : Nat) (f : Ring → Ring) (j : Nat) :
    (o.modRing k f).ring j = if j = k ∧ k < o.rings.length then f (o.ring k) else o.ring j := by
  unfold CollOp.modRing CollOp.ring
  by_cases hj : j < o.rings.length
  · by_cases e : j = k
    · subst e
      simp [hj]
    · simp [hj, e]
  · rw [if_neg (by omega)]
    simp [Nat.le_of_not_lt hj]

/-- The operation with the chunks that ring `k` has granted the previous member (R316). -/
def CollOp.offer (o : CollOp) (k n : Nat) : CollOp := o.modRing k fun y => { y with offered := n }

theorem CollOp.offer_ring (o : CollOp) (k n j : Nat) :
    ((o.offer k n).ring j).sent = (o.ring j).sent ∧ ((o.offer k n).ring j).received = (o.ring j).received := by
  rw [CollOp.offer, CollOp.modRing_ring]
  split
  · next e => rw [e.1]; exact ⟨rfl, rfl⟩
  · exact ⟨rfl, rfl⟩

theorem CollOp.offer_over (o : CollOp) (r : GroupRec) (k n : Nat) : (o.offer k n).over r = o.over r := by
  have items (j : Nat) : workItems r (o.offer k n) j = workItems r o j := rfl
  have chunks (j : Nat) : recvCount r (o.offer k n) j = recvCount r o j := rfl
  simp only [CollOp.over, CollOp.offer_ring, items, chunks]

/-- Item `w` of ring `k`, the `v`-th, is behind the operation: it is counted, and the chunk that it took in is gone. -/
def CollOp.Past (o : CollOp) (k v : Nat) (w : WorkItem) : Prop :=
  (o.ring k).sent = v + 1 ∧ ∀ c ∈ o.chunks, ¬(c.flight = k ∧ some c.seqNo = w.recv)

theorem CollOp.drained_past {o : CollOp} {k : Nat} (hk : k < o.rings.length) (v : Nat) (w : WorkItem) :
    (o.drained k v w).Past k v w := by
  have ring : (o.drained k v w).ring k = { o.ring k with sent := v + 1 } :=
    (o.modRing_ring k (fun y => { y with sent := v + 1 }) k).trans (if_pos ⟨rfl, hk⟩)
  refine ⟨by rw [ring], fun c hc ⟨hflight, hseq⟩ => ?_⟩
  have stays := (List.mem_filter.mp hc).2
  simp [hflight, hseq] at stays

/-- GRANTs change nothing of what an item leaves. -/
theorem CollOp.Past.offered {o o' : CollOp} {j k v : Nat} {w : WorkItem} (h : o.Past j v w)
    (hoffer : o' = o ∨ ∃ n, o' = o.offer k n) : o'.Past j v w ∧ o'.completed = o.completed := by
  rcases hoffer with rfl | ⟨n, rfl⟩
  · exact ⟨h, rfl⟩
  · exact ⟨⟨(o.offer_ring k n j).1.trans h.1, h.2⟩, rfl⟩

/-! ### What follows the item -/

section
variable {s : State} {r : GroupRec} {kind k : Nat} {o : CollOp}

/-- GRANTs go out for an operation whose ring offers more than before; nothing else of it changes (R316). -/
theorem State.grantMore_opOf (h : s.opOf r.group kind = some o) : ∃ o',
    (s.grantMore r kind k).opOf r.group kind = some o' ∧ (o' = o ∨ ∃ n, o' = o.offer k n) := by
  unfold State.grantMore
  rw [h]
  dsimp only
  split
  · refine ⟨o.offer k (r.window + finished r o k), ?_, .inr ⟨_, rfl⟩⟩
    rw [opOf_of_frame (State.sendGrant_frame (List.Subset.refl _) ..) (by decide)]
    exact State.putOp_opOf h (show o.kind = kind from State.opOf_kind h)
  · exact ⟨o, h, .inl rfl⟩

theorem State.grantMore_sameGroups (s : State) (r : GroupRec) (kind k : Nat) :
    SameBut State.group r.group s (s.grantMore r kind k) := by
  unfold State.grantMore
  split
  · exact fun _ _ => rfl
  · dsimp only
    split
    · exact SameBut.trans (s.modGroup_sameGroups _ _)
        (sameGroups_of_frame (State.sendGrant_frame (List.Subset.refl _) ..) (by decide) _)
    · exact fun _ _ => rfl

theorem State.tryFinish_of_open (h : s.opOf r.group kind = some o) (hover : o.over r = false) :
    s.tryFinish r kind = s := by
  unfold State.tryFinish
  rw [h]
  simp [hover]

theorem State.retryRed_of_none (h : ∀ e ∈ s.engines, e.2.redWait = none) : s.retryRed = s := by
  have none (p : Nat) : (s.engine p).redWait = none := by
    rcases Tab.get_mem_or_default {} s.engines p with hp | hp
    · exact h _ hp
    · rw [State.engine, hp]
  unfold State.retryRed forAll
  generalize List.range 256 = l
  induction l with
  | nil => rfl
  | cons p l ih => simpa [none p] using ih

/-- An item is followed by the GRANTs alone, where its operation is not over and no transfer waits. -/
theorem State.itemFollowed (h : s.opOf r.group kind = some o) (hover : o.over r = false)
    (hred : ∀ e ∈ s.engines, e.2.redWait = none) :
    ((s.grantMore r kind k).tryFinish r kind).retryRed = s.grantMore r kind k := by
  obtain ⟨o', hop, hoffer⟩ := State.grantMore_opOf (k := k) h
  have hover' : o'.over r = false := by
    rcases hoffer with rfl | ⟨n, rfl⟩
    · exact hover
    · rw [CollOp.offer_over, hover]
  rw [State.tryFinish_of_open hop hover', State.retryRed_of_none]
  rwa [(State.grantMore_frame (List.Subset.refl _) s r kind k).engines (by decide)]
end

/-! ### The reads of an item -/

section
variable {s : State}

theorem State.barred_ne_ok (s : State) (h c va : Nat) : s.barred h c va ≠ some .ok := by
  unfold State.barred
  split
  · split <;> simp
  · split <;> simp

theorem State.bars_ne_ok (s : State) (h c va len : Nat) : s.bars h c va len ≠ some .ok := fun e => by
  obtain ⟨x, -, hx⟩ := List.exists_of_findSome?_eq_some e
  exact s.barred_ne_ok _ _ _ hx

/-- Reads that end OK were answered OK, where there is one (R196). -/
theorem State.answer_of_rangesStatus {o : CollOp} {l : List (Nat × Nat)} {answer : Byte}
    (h : s.rangesStatus o l answer = .ok) : l = [] ∨ Status.ofRead answer = .ok := by
  unfold State.rangesStatus at h
  split at h
  · exact .inl ‹_›
  · right
    cases hbar : l.findSome? fun x => s.bars o.hall o.context x.1 x.2 with
    | none => simpa [hbar] using h
    | some st =>
      obtain ⟨x, -, hx⟩ := List.exists_of_findSome?_eq_some hbar
      obtain rfl : st = .ok := by simpa [hbar] using h
      exact absurd hx (s.bars_ne_ok _ _ _ _)

theorem State.readPage_sameWork (s : State) (h c va len : Nat) : SameWork s (s.readPage h c va len) := by
  have counted (f : Counters → Counters) : SameWork s (s.countHall h f) :=
    sameWork_of_xlat ((State.countHall_frame (List.Subset.refl _) s h f).xlat (by decide) (by decide) (by decide))
  unfold State.readPage
  split
  · split
    · exact ⟨rfl, rfl⟩
    · exact counted _
  · split
    · exact ⟨rfl, rfl⟩
    · exact counted _

theorem State.raise_xlat (s : State) (code : Byte) (i : EvInfo) : (s.raise code i).xlat = s.xlat :=
  (State.raise_frame (List.Subset.refl _) s code i).xlat (by decide) (by decide) (by decide)

theorem State.noteRead_sameWork (s : State) (h c va len : Nat) (answer : Byte) :
    SameWork s (s.noteRead h c va len answer) := by
  have pages : SameWork s (forEach (pagesOf va len) (fun x u => u.readPage h c x.1 x.2) s) :=
    forEach_preserves (P := SameWork s) _ (fun x t ht => ht.trans (t.readPage_sameWork _ _ _ _)) ⟨rfl, rfl⟩
  unfold State.noteRead
  split
  · exact ⟨rfl, rfl⟩
  · dsimp only
    split
    · exact pages.trans (sameWork_of_xlat (State.raise_xlat _ _ _))
    · exact pages

theorem State.noteRanges_sameWork (s : State) (o : CollOp) (l : List (Nat × Nat)) (answer : Byte) :
    SameWork s (s.noteRanges o l answer) :=
  forEach_preserves (P := SameWork s) _ (fun _ t ht => ht.trans (t.noteRead_sameWork _ _ _ _ _)) ⟨rfl, rfl⟩

/-- A read that is answered OK counts, and moves translations up; it raises nothing (R144, R200). -/
theorem State.noteRead_frame_of_ok {answer : Byte} (hok : Status.ofRead answer = .ok) (s : State) (h c va len : Nat) :
    Frame [.halls, .xlatRest] s (s.noteRead h c va len answer) := by
  unfold State.noteRead
  rw [hok]
  refine ite_frame (Frame.refl s) ?_
  simp [Frame]

theorem State.noteRanges_frame_of_ok {o : CollOp} {l : List (Nat × Nat)} {answer : Byte}
    (h : s.rangesStatus o l answer = .ok) : Frame [.halls, .xlatRest] s (s.noteRanges o l answer) := by
  rcases State.answer_of_rangesStatus h with rfl | hok
  · exact Frame.refl s
  · exact forEach_frame _ _ s fun _ t => State.noteRead_frame_of_ok hok t _ _ _ _

variable {a : Nat → Hall}

theorem Steady.readPage {h c va len} (hs : Steady a s) : Steady a (s.readPage h c va len) := by
  unfold State.readPage
  split
  · exact .ite hs hs.countHall
  · split
    · exact hs
    · exact hs.countHall

theorem Steady.noteRead {h c va len answer} (hs : Steady a s) : Steady a (s.noteRead h c va len answer) := by
  have pages : Steady a (Machine.forEach (pagesOf va len) (fun x u => u.readPage h c x.1 x.2) s) :=
    .forEach .readPage hs
  exact .ite hs (.ite (.of_frame (State.raise_frame (List.Subset.refl _) ..) pages) pages)

theorem Steady.noteRanges {o l answer} (hs : Steady a s) : Steady a (s.noteRanges o l answer) := .forEach .noteRead hs
end

/-! ### A chunk leaves under the group key -/

section
variable {s : State} {r : GroupRec} {o : CollOp} {k total : Nat} {w : WorkItem} {l : List (List Byte × Nat)}

theorem State.queueFrame_group (s : State) (n h vc : Nat) (hdr : BitVec 512) (body : List Byte) (g : Nat) :
    (s.queueFrame n h vc hdr body).group g = s.group g :=
  group_of_frame (State.queueFrame_frame (List.Subset.refl _) ..) (by decide) g

/-- All frames of a chunk are sealed where the inner counter does not come to its end (R298). -/
theorem sealFrames_all (h : (Tab.get 0 (s.group r.group).innerCtr k).toNat + l.length < 2 ^ 64) :
    (sealFrames r o k w total l s).2 = true := by
  induction l generalizing s with
  | nil => rfl
  | cons x l ih =>
    obtain ⟨body, i⟩ := x
    rw [List.length_cons] at h
    have more : Tab.get 0 (s.group r.group).innerCtr k ≠ BitVec.allOnes 64 := fun e => by
      rw [e, BitVec.toNat_allOnes] at h
      omega
    unfold sealFrames
    simp only [if_neg more]
    have one : (1 : BitVec 64).toNat = 1 := rfl
    apply ih
    rw [State.queueFrame_group, State.modGroup_group, if_pos rfl, Tab.get_set, if_pos rfl, BitVec.toNat_add, one]
    omega

/-- Sealing moves the group's inner counter on, and touches no operation (R298). -/
theorem sealFrames_group : let t := (sealFrames r o k w total l s).1
    (∀ g kind, t.opOf g kind = s.opOf g kind) ∧ SameBut State.group r.group s t := by
  induction l generalizing s with
  | nil => exact ⟨fun _ _ => rfl, fun _ _ => rfl⟩
  | cons x l ih =>
    obtain ⟨body, i⟩ := x
    unfold sealFrames
    dsimp only
    split
    · exact ⟨fun _ _ => rfl, fun _ _ => rfl⟩
    · obtain ⟨ops, others⟩ := ih (s := _)
      refine ⟨fun g kind => (ops g kind).trans ?_, SameBut.trans (fun j hj => ?_) others⟩
      · unfold State.opOf
        rw [State.queueFrame_group, State.modGroup_group]
        split
        · next e => rw [e]
        · rfl
      · rw [State.queueFrame_group, State.modGroup_group, if_neg hj]

theorem State.need_of_not_mem {e : VaultEntry} (h : e ∉ s.vault.rederiving) : s.need e = s := if_neg h

variable {body : List Byte}

/-- A chunk that leaves whole moves on the inner counter and the queue of its port (R298). -/
theorem State.sendChunk_leaves (hkey : .groupKey (Fin.ofNat 2048 r.group) ∉ s.vault.rederiving)
    (hctr : (Tab.get 0 (s.group r.group).innerCtr k).toNat + (fragments body).length < 2 ^ 64) :
    let x := s.sendChunk r o k w body
    x.2 = true ∧ (∀ g kind, x.1.opOf g kind = s.opOf g kind) ∧ SameBut State.group r.group s x.1 ∧
      Frame [.links, .groups] s x.1 := by
  unfold State.sendChunk
  rw [State.need_of_not_mem hkey]
  obtain ⟨ops, others⟩ := sealFrames_group (r := r) (o := o) (k := k) (w := w) (s := s)
    (total := (fragments body).length) (l := (fragments body).zip (List.range (fragments body).length))
  exact ⟨sealFrames_all (by simpa using hctr), ops, others, sealFrames_frame (List.Subset.refl _) ..⟩
end
end Sys2Proof.Machine
end

section
/-! CHUNK_DRAIN: an item is sent, kept or copied (R316 to R320, R331, R336, R351). -/

namespace Sys2Proof.Machine
open Sys2Proof Sys2Proof.Safety

/-! ### An item that may drain -/

theorem State.hopBody_congr {s t : State} {r : GroupRec} (h : t.group r.group = s.group r.group) (o : CollOp) (k : Nat)
    (w : WorkItem) (v : List F32 × List F32) : hopBody t r o k w v = hopBody s r o k w v := by
  simp only [hopBody, hopRounder, h]

theorem itemCost_eq_zero {r : GroupRec} {o : CollOp} (h : o.kind ≠ 0) (k : Nat) (w : WorkItem) : itemCost r o k w = 0 :=
  if_pos h

/-- The next item `w` of ring `k` of an operation may drain, what the core read for it came back OK, the operation goes on
after it, and nothing else of the core's own is due (R316 to R320, R324). -/
structure ItemReady (g kind k : Nat) (src : ReadBytes) (r : GroupRec) (o : CollOp) (w : WorkItem) (s : State) :
    Prop where
  record : s.groupRec g = some r
  op : s.opOf g kind = some o
  flight : k ∈ r.flights
  ring : k < o.rings.length
  accepted : o.accepted = true
  notLap : kind ≠ 2
  item : workItem r o k (o.ring k).sent = some w
  may : s.mayDrain r o k (o.ring k).sent w = true
  read : s.rangesStatus o (dataRanges r o k w) src.status = .ok
  noTransfer : ∀ e ∈ s.engines, e.2.redWait = none
  goesOn : (o.drained k (o.ring k).sent w).over r = false
  keyed : .groupKey (Fin.ofNat 2048 g) ∉ s.vault.rederiving
  settled : Settled s

section
variable {g kind k : Nat} {src : ReadBytes} {r : GroupRec} {o : CollOp} {w : WorkItem} {s : State}

/-- The state in which the item's reads have been counted (R144). -/
abbrev State.itemRead (s : State) (r : GroupRec) (o : CollOp) (k : Nat) (w : WorkItem) (src : ReadBytes) : State :=
  s.noteRanges o (dataRanges r o k w) src.status

/-- The state in which the item has been taken: its adder operations are spent, its tile is released if it was the last to
use it, and its operation stands behind it (R331, R352). -/
def State.itemTaken (s : State) (r : GroupRec) (o : CollOp) (k : Nat) (w : WorkItem) : State :=
  let t := if o.kind = 0 then s.spendAdders o.hall (itemCost r o k w) else s
  (t.freeTile r o k (o.ring k).sent).putOp r.group (o.drained k (o.ring k).sent w)

/-- The bytes of a chunk that leaves: the sum so far, or the piece itself (R317, R319). -/
def State.itemBody (s : State) (r : GroupRec) (o : CollOp) (k : Nat) (w : WorkItem) (b : List Byte) : List Byte :=
  if o.kind = 0 then hopBody s r o k w (itemSums r o k (o.ring k).sent w b)
  else match o.chunks.find? fun c => c.flight == k && some c.seqNo == w.recv with
    | some c => c.raw
    | none => b

/-- The state once the item has drained. -/
abbrev State.itemDrained (s : State) (r : GroupRec) (o : CollOp) (k : Nat) (w : WorkItem) (b : List Byte) : State :=
  if o.kind = 0 then s.drainReduce r o k (o.ring k).sent w b else s.drainGather r o k (o.ring k).sent w b

/-- A chunk that leaves whole is all that an item does that is sent. -/
theorem State.itemDrained_send {b : List Byte} (hcopy : w.copy = false) (hsend : w.send = true)
    (hall : ((s.itemTaken r o k w).sendChunk r o k w (s.itemBody r o k w b)).2 = true) :
    s.itemDrained r o k w b = ((s.itemTaken r o k w).sendChunk r o k w (s.itemBody r o k w b)).1 := by
  by_cases hkind : o.kind = 0
  · rw [State.itemDrained, if_pos hkind, State.drainReduce, if_pos hsend]
    rw [State.itemBody, State.itemTaken, if_pos hkind, if_pos hkind] at hall ⊢
    exact if_pos hall
  · rw [State.itemDrained, if_neg hkind, State.drainGather, if_neg (by simp [hcopy])]
    rw [State.itemBody, State.itemTaken, if_neg hkind, if_neg hkind] at hall ⊢
    exact if_pos hall

theorem State.itemDrained_keep {b : List Byte} (hkind : o.kind = 0) (hsend : w.send = false) :
    s.itemDrained r o k w b = (s.itemTaken r o k w).keepResult r o k w (itemSums r o k (o.ring k).sent w b) := by
  rw [State.itemDrained, if_pos hkind, State.drainReduce, State.itemTaken, if_pos hkind]
  exact if_neg (by simp [hsend])

theorem State.itemDrained_copy {b : List Byte} (hkind : o.kind ≠ 0) (hcopy : w.copy = true) :
    s.itemDrained r o k w b = ((s.itemTaken r o k w).gatherWrite r o w.first w.len b).chunkDone r.group 1 := by
  rw [State.itemDrained, if_neg hkind, State.drainGather, State.itemTaken, if_neg hkind]
  exact if_pos hcopy

/-! ### What the taking of an item changes -/

theorem State.itemTaken_frame (s : State) (r : GroupRec) (o : CollOp) (k : Nat) (w : WorkItem) :
    Frame [.halls, .groups, .reduce] s (s.itemTaken r o k w) := by
  simp [Frame, State.itemTaken]

theorem State.itemTaken_opOf (h : s.opOf r.group kind = some o) :
    (s.itemTaken r o k w).opOf r.group kind = some (o.drained k (o.ring k).sent w) := by
  refine State.putOp_opOf (x := o) ?_ (show o.kind = kind from State.opOf_kind h)
  rw [opOf_of_frame (State.freeTile_frame (List.Subset.refl _) ..) (by decide)]
  split
  · rwa [opOf_of_frame (State.spendAdders_frame (List.Subset.refl _) ..) (by decide)]
  · exact h

theorem State.itemTaken_group (s : State) (r : GroupRec) (o : CollOp) (k : Nat) (w : WorkItem) (j : Nat) :
    { (s.itemTaken r o k w).group j with ops := [] } = { s.group j with ops := [] } ∧
      (j ≠ r.group → (s.itemTaken r o k w).group j = s.group j) := by
  have before : Frame [.halls, .reduce] s
      ((if o.kind = 0 then s.spendAdders o.hall (itemCost r o k w) else s).freeTile r o k (o.ring k).sent) := by
    simp [Frame]
  simp only [State.itemTaken, State.putOp, State.modGroup_group, group_of_frame before (by decide)]
  refine ⟨?_, fun hj => if_neg hj⟩
  split
  · next e => rw [e]
  · rfl

theorem State.itemTaken_adderOps (s : State) (r : GroupRec) (o : CollOp) (k : Nat) (w : WorkItem) :
    ((s.itemTaken r o k w).hall o.hall).adderOps = (s.hall o.hall).adderOps + itemCost r o k w := by
  have after (t : State) : ((t.freeTile r o k (o.ring k).sent).putOp r.group (o.drained k (o.ring k).sent w)).hall o.hall =
      t.hall o.hall := by
    refine hall_of_frame (l := [.groups, .reduce]) ?_ (by decide) _
    simp [Frame]
  unfold State.itemTaken
  rw [after]
  split
  · simp [State.spendAdders, State.hall, State.modHall]
  · next e => rw [itemCost_eq_zero e, Nat.add_zero]

/-! ### What follows an item -/

/-- The GRANTs that follow an item, and the core's own work after it. -/
def State.afterItem (s : State) (r : GroupRec) (kind k : Nat) : State := (s.grantMore r kind k).drainServed

theorem State.afterItem_opOf (h : s.opOf r.group kind = some o) : ∃ o',
    (s.afterItem r kind k).opOf r.group kind = some o' ∧ (o' = o ∨ ∃ n, o' = o.offer k n) := by
  obtain ⟨o', hop, hoffer⟩ := State.grantMore_opOf (k := k) h
  exact ⟨o', (opOf_of_frame (State.drainServed_frame (List.Subset.refl _) _) (by decide) _ _).trans hop, hoffer⟩

theorem State.afterItem_sameGroups (s : State) (r : GroupRec) (kind k : Nat) :
    SameBut State.group r.group s (s.afterItem r kind k) :=
  SameBut.trans (s.grantMore_sameGroups r kind k)
    (sameGroups_of_frame (State.drainServed_frame (List.Subset.refl _) _) (by decide) _)

theorem State.afterItem_frame (s : State) (r : GroupRec) (kind k : Nat) : Frame [.planRest, .halls, .queues, .fences,
    .engines, .ports, .protect, .xlatRest, .hallKeys, .vaultRest, .links, .groups, .commit, .faultsRest, .out] s
    (s.afterItem r kind k) :=
  Frame.trans (State.grantMore_frame (by decide) s r kind k) (State.drainServed_frame (by decide) _)

theorem Quiet.grantMore {ws : List DmaWait} (h : Quiet ws s) : Quiet ws (s.grantMore r kind k) :=
  h.of_frame (State.grantMore_frame (List.Subset.refl _) ..) (by decide)

theorem State.afterItem_adderOps {ws : List DmaWait} (h : Quiet ws s) (r : GroupRec) (kind k j : Nat) :
    ((s.afterItem r kind k).hall j).adderOps = (s.hall j).adderOps := by
  rw [State.afterItem, State.drainServed_adderOps (Quiet.grantMore h),
    hall_of_frame (State.grantMore_frame (List.Subset.refl _) s r kind k) (by decide)]

theorem State.afterItem_fence {ws : List DmaWait} (h : Quiet ws s) (r : GroupRec) (kind k j n : Nat) :
    (s.afterItem r kind k).fence j n = s.fence j n := by
  rw [State.afterItem, State.drainServed_fence (Quiet.grantMore h),
    fence_of_frame (State.grantMore_frame (List.Subset.refl _) s r kind k) (by decide)]

/-! ### Completed chunks -/

/-- A completed chunk: the operation counts it, and its chunk fence follows (R162, R320). -/
theorem State.chunkDone_eq (h : s.opOf g kind = some o) : s.chunkDone g kind =
    (s.putOp g { o with completed := o.completed + 1 }).setFence o.hall o.chunkFence
      (BitVec.ofNat 64 (o.step.toNat * 2 ^ 24 + (o.completed + 1))) := by
  rw [State.chunkDone, h]

theorem State.chunkDone_opOf (h : s.opOf g kind = some o) :
    (s.chunkDone g kind).opOf g kind = some { o with completed := o.completed + 1 } := by
  rw [State.chunkDone_eq h, opOf_of_frame (State.setFence_frame (List.Subset.refl _) ..) (by decide)]
  exact State.putOp_opOf h (show o.kind = kind from State.opOf_kind h)

theorem State.chunkDone_sameGroups (h : s.opOf g kind = some o) : SameBut State.group g s (s.chunkDone g kind) := by
  rw [State.chunkDone_eq h]
  exact SameBut.trans (s.modGroup_sameGroups g _)
    (sameGroups_of_frame (State.setFence_frame (List.Subset.refl _) ..) (by decide) g)

theorem State.chunkDone_fence (h : s.opOf g kind = some o) : (s.chunkDone g kind).fence o.hall o.chunkFence =
    BitVec.ofNat 64 (o.step.toNat * 2 ^ 24 + (o.completed + 1)) := by
  rw [State.chunkDone_eq h, State.setFence_fence, if_pos rfl]

/-- A kept result is written; at the top flight it completes a chunk (R317, R318, R320). -/
theorem State.keepResult_group {v : List F32 × List F32} {o' : CollOp} (h : s.opOf r.group o.kind = some o') :
    (s.keepResult r o k w v).opOf r.group o.kind =
        some { o' with completed := o'.completed + if k = r.top then 1 else 0 } ∧
      SameBut State.group r.group s (s.keepResult r o k w v) := by
  have written {va : Nat} {b : List Byte} : Frame [.xlatRest] s (s.collWrite o va b) :=
    State.collWrite_frame (List.Subset.refl _) ..
  have op {va : Nat} {b : List Byte} : (s.collWrite o va b).opOf r.group o.kind = some o' :=
    (opOf_of_frame written (by decide) _ _).trans h
  have others {va : Nat} {b : List Byte} := sameGroups_of_frame (written (va := va) (b := b)) (by decide) r.group
  unfold State.keepResult
  dsimp only
  by_cases hk : k = r.top
  · rw [if_pos hk, if_pos hk]
    exact ⟨State.chunkDone_opOf op, SameBut.trans others (State.chunkDone_sameGroups op)⟩
  · rw [if_neg hk, if_neg hk]
    exact ⟨op, others⟩

/-- A copied piece is written and completes a chunk (R319, R320). -/
theorem State.copied_group {b : List Byte} {o' : CollOp} (h : s.opOf g kind = some o') :
    let t := (s.gatherWrite r o w.first w.len b).chunkDone g kind
    t.opOf g kind = some { o' with completed := o'.completed + 1 } ∧ SameBut State.group g s t ∧
      t.fence o'.hall o'.chunkFence = BitVec.ofNat 64 (o'.step.toNat * 2 ^ 24 + (o'.completed + 1)) := by
  have written : Frame [.xlatRest] s (s.gatherWrite r o w.first w.len b) :=
    State.gatherWrite_frame (List.Subset.refl _) ..
  have op : (s.gatherWrite r o w.first w.len b).opOf g kind = some o' :=
    (opOf_of_frame written (by decide) _ _).trans h
  exact ⟨State.chunkDone_opOf op,
    SameBut.trans (sameGroups_of_frame written (by decide) g) (State.chunkDone_sameGroups op), State.chunkDone_fence op⟩
end

/-! ### CHUNK_DRAIN -/

section
variable {g : Fin 2048} {op k : Fin 3} {src : ReadBytes} {r : GroupRec} {o : CollOp} {w : WorkItem} {s : State}
  (h : ItemReady g op k src r o w s)
include h

/-- A row that drains the item ends once the GRANTs have gone out and the core's own work is done. -/
theorem ItemReady.exec {u : State} {o' : CollOp} (hu : (s.itemRead r o k w src).itemDrained r o k w src.bytes = u)
    (hop : u.opOf r.group op = some o') (hover : o'.over r = false) (hengines : u.engines = s.engines) :
    exec (.chunkDrain g op k src .none) s = .next (u.afterItem r op k) := by
  have hkind : (o.kind = 0) = (op.val = 0) := by rw [State.opOf_kind h.op]
  have drained : s.chunkDrain g op k src = ((u.grantMore r op k).tryFinish r op).retryRed := by
    simp only [State.chunkDrain, h.record, h.op, h.flight, h.accepted, h.notLap, h.item, h.may, h.read, ← hu,
      State.itemDrained, hkind]
    simp
  show Host.Outcome.next (s.chunkDrain g op k src).drainServed = _
  rw [drained, State.itemFollowed hop hover (hengines ▸ h.noTransfer)]
  rfl

/-- The item's reads, and its taking, from the state before the row. -/
theorem ItemReady.taken : let t := (s.itemRead r o k w src).itemTaken r o k w
    t.opOf r.group op = some (o.drained k (o.ring k).sent w) ∧ SameBut State.group g s t ∧
      (t.hall o.hall).adderOps = (s.hall o.hall).adderOps + itemCost r o k w ∧ SameWork s t ∧
      Frame [.halls, .xlatRest, .groups, .reduce] s t := by
  have hgroup : r.group = g := State.groupRec_group h.record
  have read := State.noteRanges_frame_of_ok h.read
  have spent : ((s.itemRead r o k w src).hall o.hall).adderOps = (s.hall o.hall).adderOps :=
    adderOps_of_uncounted ((Steady.noteRanges (steady_of_quiet (quiet_lock_of_settled h.settled))).1 o.hall)
  have take := (s.itemRead r o k w src).itemTaken_frame r o k w
  refine ⟨State.itemTaken_opOf ?_, fun j hj => ?_, ?_, ?_, ?_⟩
  · rw [opOf_of_frame read (by decide), hgroup, h.op]
  · rw [(State.itemTaken_group _ r o k w j).2 (hgroup ▸ hj), group_of_frame read (by decide)]
  · rw [State.itemTaken_adderOps, spent]
  · exact (s.noteRanges_sameWork _ _ _).trans (sameWork_of_xlat (take.xlat (by decide) (by decide) (by decide)))
  · exact (read.mono (by decide)).trans (take.mono (by decide))

theorem ItemReady.quiet {l : List Part} {t : State} (f : Frame l s t) (n : .engines ∉ l := by decide) : Quiet [.lock] t :=
  (quiet_lock_of_settled h.settled).of_frame f n

/-- A chunk that leaves whole (R298, R316 to R319, R331). -/
theorem ItemReady.leaves (hcopy : w.copy = false) (hsend : w.send = true)
    (hctr : (Tab.get 0 (s.group g).innerCtr k).toNat + (fragments (s.itemBody r o k w src.bytes)).length < 2 ^ 64) :
    ∃ u, (s.itemRead r o k w src).itemDrained r o k w src.bytes = u ∧
      u.opOf r.group op = some (o.drained k (o.ring k).sent w) ∧ SameBut State.group g s u ∧
      (u.hall o.hall).adderOps = (s.hall o.hall).adderOps + itemCost r o k w ∧ SameWork s u ∧
      Frame [.halls, .xlatRest, .links, .groups, .reduce] s u := by
  have hgroup : r.group = g := State.groupRec_group h.record
  have read := group_of_frame (State.noteRanges_frame_of_ok h.read) (by decide) r.group
  have body : (s.itemRead r o k w src).itemBody r o k w src.bytes = s.itemBody r o k w src.bytes := by
    simp only [State.itemBody, State.hopBody_congr read]
  obtain ⟨opTaken, groupsTaken, spent, workTaken, frameTaken⟩ := h.taken
  have ctr : (((s.itemRead r o k w src).itemTaken r o k w).group r.group).innerCtr = (s.group g).innerCtr := by
    have kept := congrArg Group.innerCtr (State.itemTaken_group (s.itemRead r o k w src) r o k w r.group).1
    rw [← hgroup, ← read]
    exact kept
  have send := State.itemDrained_send (b := src.bytes) (r := r) (o := o) (k := k) (s := s.itemRead r o k w src) hcopy hsend
  rw [body] at send
  generalize (s.itemRead r o k w src).itemTaken r o k w = t at *
  have key : .groupKey (Fin.ofNat 2048 r.group) ∉ t.vault.rederiving := by
    rw [frameTaken.vault (by decide) (by decide) (by decide), hgroup]
    exact h.keyed
  obtain ⟨all, ops, groups, frame⟩ := State.sendChunk_leaves (s := t) (r := r) (o := o) (k := k) (w := w)
    (body := s.itemBody r o k w src.bytes) key (by rwa [ctr])
  refine ⟨_, send all, (ops r.group op).trans opTaken, SameBut.trans groupsTaken (hgroup ▸ groups), ?_,
    workTaken.trans (sameWork_of_xlat (frame.xlat (by decide) (by decide) (by decide))),
    (frameTaken.mono (by decide)).trans (frame.mono (by decide))⟩
  rw [hall_of_frame frame (by decide), spent]

/-- An item that is sent (R316 to R319, R331). -/
theorem ItemReady.sends (hcopy : w.copy = false) (hsend : w.send = true)
    (hctr : (Tab.get 0 (s.group g).innerCtr k).toNat + (fragments (s.itemBody r o k w src.bytes)).length < 2 ^ 64) :
    Answers (.chunkDrain g op k src .none) s fun t =>
      (∃ o', t.opOf g op = some o' ∧ o'.Past k (o.ring k).sent w) ∧
      (t.hall o.hall).adderOps = (s.hall o.hall).adderOps + itemCost r o k w ∧ t.out = s.out ∧
      SameBut State.group g s t ∧ Frame [.halls, .xlatRest, .links, .groups, .reduce] s t := by
  have hgroup : r.group = g := State.groupRec_group h.record
  obtain ⟨u, hu, hop, groups, spent, work, frame⟩ := h.leaves hcopy hsend hctr
  obtain ⟨o', hopEnd, hoffer⟩ := State.grantMore_opOf (k := k) hop
  have granted := State.grantMore_frame (List.Subset.refl _) u r op k
  have frameEnd := frame.trans (granted.mono (m := [.halls, .xlatRest, .links, .groups, .reduce]) (by decide))
  have rest : u.afterItem r op k = u.grantMore r op k :=
    State.drainServed_of_quiet h.settled
      (work.trans (sameWork_of_xlat (granted.xlat (by decide) (by decide) (by decide)))) (h.quiet frameEnd)
  refine ⟨_, h.exec hu hop h.goesOn (frame.engines (by decide)), ?_⟩
  rw [rest]
  refine ⟨⟨o', hgroup ▸ hopEnd, ?_⟩, ?_, frameEnd.out (by decide), ?_, frameEnd⟩
  · exact ((CollOp.drained_past h.ring _ w).offered hoffer).1
  · rw [hall_of_frame granted (by decide), spent]
  · exact SameBut.trans groups (hgroup ▸ u.grantMore_sameGroups r op k)

/-- What an item that stays here leaves, once the row is over. -/
theorem ItemReady.stays {u : State} (hu : (s.itemRead r o k w src).itemDrained r o k w src.bytes = u) {n : Nat}
    (hop : u.opOf r.group op = some { o.drained k (o.ring k).sent w with completed := n })
    (groups : SameBut State.group g s u)
    (frame : Frame [.halls, .queues, .fences, .xlatRest, .groups, .reduce] s u) :
    Answers (.chunkDrain g op k src .none) s fun t =>
      (∃ o', t.opOf g op = some o' ∧ o'.Past k (o.ring k).sent w ∧ o'.completed = n) ∧
      (t.hall o.hall).adderOps = (u.hall o.hall).adderOps ∧ (∀ j m, t.fence j m = u.fence j m) ∧
      SameBut State.group g s t ∧
      Frame [.planRest, .halls, .queues, .fences, .engines, .ports, .protect, .xlatRest, .hallKeys, .vaultRest, .links,
        .groups, .reduce, .commit, .units, .faultsRest, .out] s t := by
  have hgroup : r.group = g := State.groupRec_group h.record
  have quiet := h.quiet frame
  obtain ⟨o', hopEnd, hoffer⟩ := State.afterItem_opOf (k := k) hop
  have past : ({ o.drained k (o.ring k).sent w with completed := n } : CollOp).Past k (o.ring k).sent w :=
    CollOp.drained_past h.ring _ _
  exact ⟨_, h.exec hu hop h.goesOn (frame.engines (by decide)), ⟨o', hgroup ▸ hopEnd, past.offered hoffer⟩,
    State.afterItem_adderOps quiet r op k _, State.afterItem_fence quiet r op k,
    SameBut.trans groups (hgroup ▸ u.afterItem_sameGroups r op k),
    (frame.mono (by decide)).trans ((u.afterItem_frame r op k).mono (by decide))⟩

/-- A result of a reduce-scatter that is kept (R317, R318, R320, R331). -/
theorem ItemReady.keeps (hkind : o.kind = 0) (hsend : w.send = false) :
    Answers (.chunkDrain g op k src .none) s fun t =>
      (∃ o', t.opOf g op = some o' ∧ o'.Past k (o.ring k).sent w ∧
        o'.completed = o.completed + if k = r.top then 1 else 0) ∧
      (t.hall o.hall).adderOps = (s.hall o.hall).adderOps + itemCost r o k w ∧ SameBut State.group g s t ∧
      Frame [.planRest, .halls, .queues, .fences, .engines, .ports, .protect, .xlatRest, .hallKeys, .vaultRest, .links,
        .groups, .reduce, .commit, .units, .faultsRest, .out] s t := by
  have hgroup : r.group = g := State.groupRec_group h.record
  obtain ⟨opTaken, groupsTaken, spent, -, frameTaken⟩ := h.taken
  have hu := State.itemDrained_keep (s := s.itemRead r o k w src) (r := r) (k := k) (b := src.bytes) hkind hsend
  generalize (s.itemRead r o k w src).itemTaken r o k w = t at *
  rw [← State.opOf_kind h.op] at opTaken
  obtain ⟨opKept, groups⟩ := State.keepResult_group (w := w) (k := k)
    (v := itemSums r o k (o.ring k).sent w src.bytes) opTaken
  have kept := State.keepResult_frame (List.Subset.refl _) t r o k w (itemSums r o k (o.ring k).sent w src.bytes)
  rw [State.opOf_kind h.op] at opKept
  obtain ⟨t', run, op', spent', -, groups', frame'⟩ := h.stays hu opKept (SameBut.trans groupsTaken (hgroup ▸ groups))
    ((frameTaken.mono (by decide)).trans (kept.mono (by decide)))
  refine ⟨t', run, op', ?_, groups', frame'⟩
  rw [spent', hall_of_frame kept (by decide), spent]

/-- A copied piece of an all-gather (R319, R320). -/
theorem ItemReady.copies (hkind : op = 1) (hcopy : w.copy = true) :
    Answers (.chunkDrain g op k src .none) s fun t =>
      (∃ o', t.opOf g op = some o' ∧ (o'.ring k).sent = (o.ring k).sent + 1 ∧ o'.completed = o.completed + 1) ∧
      t.fence o.hall o.chunkFence = BitVec.ofNat 64 (o.step.toNat * 2 ^ 24 + (o.completed + 1)) ∧
      SameBut State.group g s t ∧
      Frame [.planRest, .halls, .queues, .fences, .engines, .ports, .protect, .xlatRest, .hallKeys, .vaultRest, .links,
        .groups, .reduce, .commit, .units, .faultsRest, .out] s t := by
  subst hkind
  have hgroup : r.group = g := State.groupRec_group h.record
  have hne : o.kind ≠ 0 := by simp [State.opOf_kind h.op]
  obtain ⟨opTaken, groupsTaken, -, -, frameTaken⟩ := h.taken
  have hu := State.itemDrained_copy (s := s.itemRead r o k w src) (r := r) (k := k) (b := src.bytes) hne hcopy
  generalize (s.itemRead r o k w src).itemTaken r o k w = t at *
  obtain ⟨opDone, groups, fence⟩ := State.copied_group (r := r) (o := o) (w := w) (b := src.bytes) opTaken
  have done : Frame [.queues, .fences, .xlatRest, .groups] t
      ((t.gatherWrite r o w.first w.len src.bytes).chunkDone r.group 1) := by
    simp [Frame]
  obtain ⟨t', run, ⟨o', op', past, completed⟩, -, fence', groups', frame'⟩ := h.stays hu opDone
    (SameBut.trans groupsTaken (hgroup ▸ groups)) ((frameTaken.mono (by decide)).trans (done.mono (by decide)))
  exact ⟨t', run, ⟨o', op', past.1, completed⟩, (fence' _ _).trans fence, groups', frame'⟩
end
end Sys2Proof.Machine
end

section
/-! RED_TRANSFER: an engine's partial joins an open item, comes late, or waits for an item still to come (R337, R339). -/

namespace Sys2Proof.Machine
open Sys2Proof Sys2Proof.Safety

/-! ### RED_TRANSFER -/

/-- An engine that serves a begun tile of hall `e.hall` brings one beat to an operation of that hall which takes partials
from contributor `c` of `n` (R36, R337, R339). -/
structure PartialOffered (p : Nat) (hdr : BitVec 64) (e : TileEntry) (g c n : Nat) (r : GroupRec) (o : CollOp)
    (s : State) : Prop where
  present : (s.engine p).present = true
  service : s.inService 3 p = true
  free : (s.engine p).redWait = none
  begun : (s.engine p).begun = some e
  gen : e.hallGen = (parseRed hdr).hallGen
  hallGen : (s.hall e.hall).gen = e.hallGen
  group : (parseRed hdr).handle % 2048 = g
  contributor : (parseRed hdr).handle / 2048 % 8 = c
  count : contributorCount ((parseRed hdr).handle / 16384) = n
  record : s.groupRec g = some r
  op : s.opOf g 0 = some o
  format : (parseRed hdr).format = 0
  mode : r.partialMode = true
  accepted : o.accepted = true
  hall : o.hall = e.hall
  low : 1 ≤ c
  high : c ≤ n
  counted : o.contributors = none ∨ o.contributors = some n

/-- What becomes of a beat of contributor `c` of `n`, by the place of its elements among the items (R337, R339). -/
def State.placeBeat (s : State) (p : Nat) (hdr : BitVec 64) (l : Line) (g c n : Nat) (r : GroupRec) (o : CollOp) :
    PartialAt → State
  | .none => s.dropRed p
  | .drained => (s.countLate 1).modEngine p fun x => { x with redWait := none }
  | .future => s.modEngine p fun x => { x with redWait := some { hdr := hdr, beats := [l] } }
  | .open_ v el => feedBeats r p c v hdr [l] el (s.putOp g { o with contributors := some n })

/-- A beat of an item that lacks it, for which its FIFO has room, is taken (R339). -/
theorem feedBeats_takes {u : State} {r : GroupRec} {o : CollOp} {p c v e : Nat} {hdr : BitVec 64} {l : Line}
    (hop : u.opOf r.group 0 = some o) (hnew : supplied o v c e = false) (hroom : u.fifoFull r o v c = false) :
    feedBeats r p c v hdr [l] e u =
      (u.putOp r.group { o with partials := o.partials ++ [(v, c, e, beatValues l)] }).modEngine p fun x =>
        { x with redWait := none } := by
  simp [feedBeats, hop, hnew, hroom]

section
variable {p : Nat} {hdr : BitVec 64} {e : TileEntry} {g c n : Nat} {r : GroupRec} {o : CollOp} {s : State} {l : Line}
  (h : PartialOffered p hdr e g c n r o s)
include h

/-- The beat passes its checks, so it goes where the chunk of its elements stands (R337, R339). -/
theorem PartialOffered.redTransfer_eq : s.redTransfer p hdr [l] = s.offerRed p e hdr [l] := by
  have hup : s.engineUp p = true := by simp [State.engineUp, h.present, h.service]
  have hgate : s.gate p (parseRed hdr).hallGen = .tile e := State.gate_of_begun h.begun h.gen h.hallGen
  simp [State.redTransfer, hup, h.free, hgate]

theorem PartialOffered.fits : ¬((parseRed hdr).format ≠ 0 ∨ !r.partialMode ∨ !o.accepted ∨ o.hall ≠ e.hall ∨ c = 0 ∨
    n < c ∨ [l] = [] ∨ (o.contributors.isSome ∧ o.contributors ≠ some n)) := by
  have := h.low
  have := h.high
  rcases h.counted with hc | hc <;> simp [h.format, h.mode, h.accepted, h.hall, hc] <;> omega

/-- The beat meets its operation at the place of its elements. -/
theorem PartialOffered.offered :
    s.redTransfer p hdr [l] = s.placeBeat p hdr l g c n r o (resolvePartial r o (parseRed hdr).element 1) := by
  rw [h.redTransfer_eq, State.offerRed]
  simp only [h.group, h.contributor, h.count, h.record, h.op]
  rw [if_neg h.fits, List.length_singleton]
  generalize resolvePartial r o (parseRed hdr).element 1 = x
  cases x <;> rfl

/-- A beat for an item already drained is late (R339). -/
theorem PartialOffered.dropsLate (hat : resolvePartial r o (parseRed hdr).element 1 = .drained) :
    let t := s.redTransfer p hdr [l]
    t.reduce = { s.reduce with late := satAdd s.reduce.late 1 } ∧ (∀ j, t.engine j = s.engine j) ∧
      Frame [.engines, .reduce] s t := by
  intro t
  have run : t = (s.countLate 1).modEngine p fun x => { x with redWait := none } :=
    h.offered.trans (congrArg (s.placeBeat p hdr l g c n r o) hat)
  have late (j : Nat) : (s.countLate 1).engine j = s.engine j := rfl
  rw [run]
  refine ⟨by simp [State.countLate], fun j => ?_, by simp [Frame]⟩
  rw [State.modEngine_engine, late, late]
  split
  · next e =>
    subst e
    rw [← h.free]
  · rfl

/-- A beat for an item still to come waits at its port (R339). -/
theorem PartialOffered.waits (hat : resolvePartial r o (parseRed hdr).element 1 = .future) :
    let t := s.redTransfer p hdr [l]
    t.engine p = { s.engine p with redWait := some { hdr := hdr, beats := [l] } } ∧ SameBut State.engine p s t ∧
      Frame [.engines] s t := by
  intro t
  have run : t = s.modEngine p fun x => { x with redWait := some { hdr := hdr, beats := [l] } } :=
    h.offered.trans (congrArg (s.placeBeat p hdr l g c n r o) hat)
  rw [run]
  exact ⟨by simp, fun j hj => by simp [hj], State.modEngine_frame (List.Subset.refl _) ..⟩

/-- A beat for an open item joins the item's partials (R337 to R339). -/
theorem PartialOffered.joins {v el : Nat} (hat : resolvePartial r o (parseRed hdr).element 1 = .open_ v el)
    (hnew : supplied { o with contributors := some n } v c el = false)
    (hroom : (s.putOp g { o with contributors := some n }).fifoFull r { o with contributors := some n } v c = false) :
    let t := s.redTransfer p hdr [l]
    t.opOf g 0 = some { o with contributors := some n, partials := o.partials ++ [(v, c, el, beatValues l)] } ∧
      (t.engine p).redWait = none ∧ SameBut State.group g s t ∧ SameBut State.engine p s t ∧
      Frame [.engines, .groups] s t := by
  intro t
  have hkind : o.kind = 0 := State.opOf_kind h.op
  have counted : (s.putOp g { o with contributors := some n }).opOf g 0 = some { o with contributors := some n } :=
    State.putOp_opOf h.op hkind
  have run : t = ((s.putOp g { o with contributors := some n }).putOp g
      { o with contributors := some n, partials := o.partials ++ [(v, c, el, beatValues l)] }).modEngine p fun x =>
        { x with redWait := none } := by
    obtain rfl : r.group = g := State.groupRec_group h.record
    rw [← feedBeats_takes (p := p) (hdr := hdr) (l := l) counted hnew hroom]
    exact h.offered.trans (congrArg (s.placeBeat p hdr l r.group c n r o) hat)
  have idle (u : State) : Frame [.engines] u (u.modEngine p fun x => { x with redWait := none }) :=
    State.modEngine_frame (List.Subset.refl _) ..
  rw [run]
  refine ⟨?_, by simp, ?_, fun j hj => ?_, by simp [Frame]⟩
  · rw [opOf_of_frame (idle _) (by decide)]
    exact State.putOp_opOf counted hkind
  · exact SameBut.trans (SameBut.trans (s.modGroup_sameGroups g _) (State.modGroup_sameGroups _ g _))
      (sameGroups_of_frame (idle _) (by decide) g)
  · rw [State.modEngine_engine, if_neg hj]
    rfl
end

/-- Settles O27: an item is sent, kept or copied, and a partial joins, comes late or waits, by the lemmas above. -/
theorem itemsDrainAndPartialsEnter : Obligations.ItemsDrainAndPartialsEnter := by
  refine ⟨fun g op k src s r o w hrec hop hflight hring hacc hlap hitem hmay hread hred hover hkey hs => ?drain,
    fun p hdr l s e r o => ?partials⟩
  case drain =>
    have hne : op.val ≠ 2 := fun h2 => hlap (Fin.ext h2)
    have h : ItemReady g op k src r o w s :=
      ⟨hrec, hop, hflight, hring, hacc, hne, hitem, hmay, hread, hred, hover, by simpa using hkey, hs⟩
    have hkind : o.kind = op.val := State.opOf_kind hop
    refine ⟨fun hcopy hsend hctr => h.sends hcopy hsend ?_, fun hzero hsend => h.keeps (by simp [hkind, hzero]) hsend,
      fun hone hcopy => h.copies hone hcopy⟩
    rw [State.itemBody]
    by_cases hzero : op = 0
    · rw [if_pos (by simp [hkind, hzero])]
      rwa [if_pos hzero] at hctr
    · rw [if_neg (by simpa [hkind] using hzero)]
      rw [if_neg hzero] at hctr
      exact hctr
  case partials =>
    intro f g c n hpresent hservice hfree hbegun hgen hhall hrec hop hformat hmode hacc howner hlow hhigh hcount
    have h : PartialOffered p hdr e g c n r o s :=
      ⟨hpresent, hservice, hfree, hbegun, hgen, hhall, rfl, rfl, rfl, hrec, hop, hformat, hmode, hacc, howner, hlow, hhigh,
        hcount⟩
    exact ⟨fun v el hat hnew hroom => ⟨_, rfl, h.joins hat hnew hroom⟩, fun hat => ⟨_, rfl, h.dropsLate hat⟩,
      fun hat => ⟨_, rfl, h.waits hat⟩⟩

end Sys2Proof.Machine
end

section
/-! The two resets and the fault unit: CORE_RST_N returns every unit to service, and MGMT_RST_N leaves the units alone
(R34, R383, R422, R424, R425). -/

namespace Sys2Proof.Machine
open Sys2Proof Sys2Proof.Safety

/-! ### An empty unit table -/

/-- A unit without an entry in the unit table has its reset record: IN_SERVICE, no cause, no return (R383). -/
theorem State.unit_of_units_nil {s : State} (h : s.faults.units = []) (u : BitVec 16) : s.unit u = {} := by
  rw [State.unit, h, Tab.get_nil]

section
variable {s : State} (h : ∀ type n, s.inService type n = true)
include h

/-! With every unit in service, everything that counts units has its full capacity. -/

theorem State.fencedPipes_of_inService (m : Nat) : s.fencedPipes m = 0 := by
  simp [State.fencedPipes, h]

theorem State.egressCapacity_of_inService : s.egressCapacity = 256 * 2000000000 := by
  simp [State.egressCapacity, h]

theorem State.clusters_of_inService : s.clusters = List.range 16 := by
  simp [State.clusters, h]
end

/-! ### CORE_RST_N -/

/-- The responses that end the engines' requests touch no pin and no reset line. -/
@[simp] theorem State.retireAll_core (s : State) : s.retireAll.core = s.core :=
  (State.retireAll_frame (List.Subset.refl _) s).core (by decide)

/-- An assertion of CORE_RST_N on a core that is out of reset empties the unit table (R383). -/
theorem State.coreReset_unit {s : State} (h : s.core.coreRstLow = false) (u : BitVec 16) : s.coreReset.unit u = {} :=
  State.unit_of_units_nil (by simp [State.coreReset, h, State.fabricReset]) u

/-- After CORE_RST_N every unit of every type is IN_SERVICE and so counts toward capacity (R383). -/
theorem State.coreReset_inService {s : State} (h : s.core.coreRstLow = false) (type n : Nat) :
    s.coreReset.inService type n = true := by
  simp [State.inService, State.coreReset_unit h]

/-- CORE_RST_N holds the fabric and forgets the sample of ENG_PRESENT; power, MGMT_RST_N and the firmware's request for a
release are as they were (R425). -/
theorem State.coreReset_core {s : State} (h : s.core.coreRstLow = false) :
    s.coreReset.core = { s.core with
      released := false, engPresent := 0, coreRstLow := true, coreResets := satAdd s.core.coreResets 1 } := by
  simp [State.coreReset, h, State.fabricReset]

/-! ### The release of the fabric -/

/-- A table with one entry for each number of a list that passes a test reads as that entry there. -/
theorem Tab.get_map_filter {α : Type} (d : α) (v : Nat → α) (p : Nat → Bool) (l : List Nat) (k : Nat) :
    Tab.get d ((l.filter p).map fun n => (n, v n)) k = if k ∈ l ∧ p k = true then v k else d := by
  induction l with
  | nil => simp
  | cons a l ih =>
    by_cases hp : p a
    · by_cases hk : a = k
      · subst hk
        simp [hp, Tab.get]
      · simp [hp, hk, Ne.symm hk, Tab.get, ih]
    · have skip : ¬(k = a ∧ p k = true) := by
        rintro ⟨rfl, hpk⟩
        exact hp hpk
      simp [hp, ih, or_and_right, skip]

/-- Each of the 256 ports is present as its bit of the sample says (R34). -/
theorem presentPorts_present (present : BitVec 256) {n : Nat} (hn : n < 256) :
    (Tab.get {} (presentPorts present) n).present = bit present n := by
  rw [presentPorts, Tab.get_map_filter ({} : Engine) (fun _ => { present := true })]
  cases hb : bit present n <;> simp [hn]

/-- A release that the firmware asked for, with power good, MGMT_RST_N high and the fabric held, samples ENG_PRESENT; the
plan that the firmware then loads touches neither the pins nor the ports (R34, R394, R422). -/
theorem State.fabricRelease_samples {s : State} (hfw : s.core.fwRelease = true) (hheld : s.core.released = false)
    (hpower : s.core.pwrGood = true) (hmgmt : s.core.mgmtRstLow = false) (present : BitVec 256) :
    (s.fabricRelease present).core.engPresent = present ∧
      (s.fabricRelease present).engines = presentPorts present := by
  have run : s.fabricRelease present =
      ({ s with core := { s.core with released := true, coreRstLow := false, engPresent := present },
                engines := presentPorts present } : State).loadHeaderPlan := by
    simp [State.fabricRelease, hfw, hheld, hpower, hmgmt]
  have load (t : State) : Frame [.planRest, .out] t t.loadHeaderPlan :=
    State.loadHeaderPlan_frame (List.Subset.refl _) t
  rw [run, (load _).core (by decide), (load _).engines (by decide)]
  exact ⟨rfl, rfl⟩

/-! ### MGMT_RST_N -/

/-- The fault history that MGMT_RST_N clears holds no unit (R383, R424). -/
theorem State.mgmtReset_unit (s : State) (u : BitVec 16) : s.mgmtReset.unit u = s.unit u :=
  unit_of_frame (State.mgmtReset_frame (List.Subset.refl _) s) (by decide) u

/-- Settles O13: CORE_RST_N empties the unit table, the next release samples ENG_PRESENT, and the unit table is no part of
what MGMT_RST_N touches. -/
theorem resetsReturnTheUnits : Obligations.ResetsReturnTheUnits := by
  refine fun s => ⟨fun hhigh => ⟨s.coreReset, rfl, ?units, ?pipes, ?egress, ?clusters, ?service, ?release⟩,
    fun _ => ⟨s.mgmtReset, rfl, s.mgmtReset_unit⟩⟩
  case units => exact fun u => by simp [State.coreReset_unit hhigh]
  case pipes => exact State.fencedPipes_of_inService (State.coreReset_inService hhigh)
  case egress => exact State.egressCapacity_of_inService (State.coreReset_inService hhigh)
  case clusters => exact State.clusters_of_inService (State.coreReset_inService hhigh)
  case service => exact State.coreReset_inService hhigh
  case release =>
    intro hfw hpower hmgmt present
    obtain ⟨sampled, ports⟩ : (s.coreReset.fabricRelease present).core.engPresent = present ∧
        (s.coreReset.fabricRelease present).engines = presentPorts present := by
      apply State.fabricRelease_samples <;> simp [State.coreReset_core hhigh, hfw, hpower, hmgmt]
    exact ⟨_, rfl, sampled, fun n hn => by rw [State.engine, ports, presentPorts_present present hn]⟩

end Sys2Proof.Machine
end

section
/-! LC_OTP_CMD, and the OTP_BIT_PROGRAMMED that carry it out: the 1 bits of its data go into a word one at a time (R397). -/

namespace Sys2Proof.Machine
open Sys2Proof Sys2Proof.Safety

/-! ### A command run several times over -/

theorem runs_succ {c : Instr} {s t : State} (h : exec c s = .next t) (n : Nat) : runs c (n + 1) s = runs c n t := by
  simp [runs, h]

theorem runs_add (c : Instr) (m n : Nat) (s : State) : runs c (m + n) s = (runs c m s).bind (runs c n) := by
  induction m generalizing s with
  | zero => simp [runs]
  | succ m ih =>
    rw [Nat.succ_add, runs, runs]
    split
    · exact ih _
    · rfl

/-- A run that is one command longer ends one command later. -/
theorem runs_snoc {c : Instr} {n : Nat} {s t u : State} (h : runs c n s = some t) (hc : exec c t = .next u) :
    runs c (n + 1) s = some u := by
  rw [runs_add, h, Option.bind_some, runs_succ hc, runs]

/-! ### The bits of a word -/

/-- The word whose 1 bits are those of a list. -/
def wordOfBits (bs : List Nat) : BitVec 32 := bs.foldr (fun b x => 1#32 <<< b ||| x) 0

@[simp] theorem wordOfBits_nil : wordOfBits [] = 0 := rfl

@[simp] theorem wordOfBits_cons (b : Nat) (bs : List Nat) : wordOfBits (b :: bs) = 1#32 <<< b ||| wordOfBits bs := rfl

theorem getLsbD_wordOfBits (bs : List Nat) {i : Nat} (hi : i < 32) :
    (wordOfBits bs).getLsbD i = decide (i ∈ bs) := by
  induction bs with
  | nil => simp
  | cons b bs ih =>
    have one : (1#32 <<< b).getLsbD i = decide (i = b) := by
      rw [← BitVec.twoPow_eq, BitVec.getLsbD_twoPow]
      by_cases h : i = b
      · simp [← h, hi]
      · simp [h, Ne.symm h]
    simp [ih, one]

/-- The numbers of the 1 bits of a word, from the lowest. -/
abbrev onesOf (x : BitVec 32) : List Nat := (List.range 32).filter fun b => bit x b

theorem wordOfBits_onesOf (x : BitVec 32) : wordOfBits (onesOf x) = x := by
  refine BitVec.eq_of_getLsbD_eq fun i hi => ?_
  rw [getLsbD_wordOfBits _ hi, BitVec.getLsbD]
  simp [hi, bit]

/-! ### The job of LC_OTP_CMD -/

/-- What is under way while bits `bs` of word `w` are still to be programmed for LC_OTP_CMD. -/
def otpCmdJob (w : Nat) : List Nat → Option OtpJob
  | [] => none
  | b :: bs => some { bits := (b :: bs).map fun b => (w, b), target := none }

/-- From `s` to `t` the bits `bs` of OTP word `w` have been programmed, and nothing else of OTP. -/
structure Programmed (w : Nat) (bs : List Nat) (s t : State) : Prop where
  word : t.lc.word w = s.lc.word w ||| wordOfBits bs
  others : ∀ v, v ≠ w → t.lc.word v = s.lc.word v
  frame : Frame [.otp, .lcRest, .out] s t

theorem Programmed.refl (w : Nat) (s : State) : Programmed w [] s s := ⟨by simp, fun _ _ => rfl, Frame.refl s⟩

theorem Programmed.cons {w b : Nat} {bs : List Nat} {s t u : State} (first : Programmed w [b] s t)
    (rest : Programmed w bs t u) : Programmed w (b :: bs) s u where
  word := by rw [rest.word, first.word]; simp [BitVec.or_assoc]
  others v hv := (rest.others v hv).trans (first.others v hv)
  frame := first.frame.trans rest.frame

/-- Beside the output, the start of the bits of LC_OTP_CMD only sets the job. -/
theorem State.startOtp_lc (s : State) (w : Nat) (bs : List Nat) :
    (s.startOtp (bs.map fun b => (w, b)) none).lc = { s.lc with job := otpCmdJob w bs } := by
  cases bs with
  | nil => simp [State.startOtp, State.otpJobDone, otpCmdJob]
  | cons b bs => rfl

/-- The state with bit `b` of OTP word `w` set. -/
def State.setOtpBit (s : State) (w b : Nat) : State :=
  { s with lc := { s.lc with otp := s.lc.otp.mod 0 w fun x => x ||| (1#32 <<< b) } }

theorem State.setOtpBit_programmed (s : State) (w b : Nat) : Programmed w [b] s (s.setOtpBit w b) where
  word := by simp [State.setOtpBit, LifeCycle.word]
  others v hv := by simp [State.setOtpBit, LifeCycle.word, hv]
  frame := by simp [State.setOtpBit, Frame]

/-- To start the bits of LC_OTP_CMD programs none of OTP. -/
theorem State.startOtp_programmed (s : State) (w : Nat) (bs : List Nat) :
    Programmed w [] s (s.startOtp (bs.map fun b => (w, b)) none) where
  word := by rw [State.startOtp_lc]; simp [LifeCycle.word]
  others v _ := by rw [State.startOtp_lc]; rfl
  frame := State.startOtp_frame (by decide) s _ _

theorem State.otpBitDone_of_cmd {w b : Nat} {bs : List Nat} {s : State} (h : s.lc.job = otpCmdJob w (b :: bs)) :
    s.otpBitDone = (s.setOtpBit w b).startOtp (bs.map fun b => (w, b)) none := by
  simp [State.otpBitDone, h, otpCmdJob, State.setOtpBit]

/-- OTP_BIT_PROGRAMMED sets the next bit of LC_OTP_CMD, and the bits after it stay to be programmed. -/
theorem exec_otpBitProgrammed_of_cmd {w b : Nat} {bs : List Nat} {s : State} (h : s.lc.job = otpCmdJob w (b :: bs)) :
    ∃ t, exec .otpBitProgrammed s = .next t ∧ t.lc.job = otpCmdJob w bs ∧ Programmed w [b] s t := by
  refine ⟨s.otpBitDone, rfl, ?_⟩
  rw [State.otpBitDone_of_cmd h]
  exact ⟨by rw [State.startOtp_lc], (s.setOtpBit_programmed w b).cons (State.startOtp_programmed _ w bs)⟩

/-- As many OTP_BIT_PROGRAMMED as `bs` has bits program these, and the job goes on with the bits after them. -/
theorem runs_otpBitProgrammed (w : Nat) (bs rest : List Nat) {s : State} (h : s.lc.job = otpCmdJob w (bs ++ rest)) :
    ∃ t, runs .otpBitProgrammed bs.length s = some t ∧ t.lc.job = otpCmdJob w rest ∧ Programmed w bs s t := by
  induction bs generalizing s with
  | nil => exact ⟨s, rfl, h, .refl w s⟩
  | cons b bs ih =>
    obtain ⟨t, first, job, bit⟩ := exec_otpBitProgrammed_of_cmd h
    obtain ⟨u, run, left, bits⟩ := ih job
    exact ⟨u, (runs_succ first _).trans run, left, bit.cons bits⟩

/-- Each OTP_BIT_PROGRAMMED of a job of LC_OTP_CMD sets one of its bits. -/
theorem runs_otpBitProgrammed_bit (w : Nat) (bs : List Nat) {s : State} (h : s.lc.job = otpCmdJob w bs) {k : Nat}
    (hk : k < bs.length) :
    ∃ t u, runs .otpBitProgrammed k s = some t ∧ runs .otpBitProgrammed (k + 1) s = some u ∧
      Programmed w [bs[k]] t u := by
  have parts : bs = bs.take k ++ bs[k] :: bs.drop (k + 1) := by simp
  rw [parts] at h
  obtain ⟨t, run, job, -⟩ := runs_otpBitProgrammed w _ _ h
  rw [List.length_take_of_le hk.le] at run
  obtain ⟨u, next, -, bit⟩ := exec_otpBitProgrammed_of_cmd job
  exact ⟨t, u, run, runs_snoc run next, bit⟩

/-! ### LC_OTP_CMD -/

section
variable {r : Requester} {word : Byte} {data : BitVec 32} {s : State}

/-- A command that its port takes is carried out, and answered where the port answers (R435). -/
theorem exec_lcOtpCmd_of_writable (h : Writable r 0xD00048 s) (word : Byte) (data : BitVec 32) :
    ∃ t, exec (.lcOtpCmd r word data) s = .next t ∧ t.lc = (s.otpCmd word.toNat data).lc ∧
      t.out = (s.otpCmd word.toNat data).out ++ rspOf r ∧ Frame [.lcRest, .out] s t := by
  obtain ⟨hvf, ha, hright⟩ := h
  have port : r = .mp ∨ r = .pf ∨ r = .fabric ∨ r = .test := by
    cases r with
    | vf n => exact absurd rfl (hvf n)
    | reserved n => simp [rightOf] at hright
    | mp | pf | fabric | test => simp
  have write := State.writeBy_permitted (fun t => t.otpCmd word.toNat data) port ha hright
  refine ⟨_, congrArg Host.Outcome.next write, rfl, rfl, ?_⟩
  simp [Frame]

/-- The state and the words in which R397 accepts LC_OTP_CMD. -/
abbrev OtpCmdAllowed (w : Nat) (s : State) : Prop := s.lc.state = .test ∧ (w ≤ 1 ∨ (12 ≤ w ∧ w ≤ 47))

theorem otpWordOk_iff {w : Nat} : otpWordOk w = true ↔ w ≤ 1 ∨ (12 ≤ w ∧ w ≤ 47) := decide_eq_true_iff

theorem State.otpCmd_refused {w : Nat} (hmp : s.lc.mp ≠ .reset) (h : ¬OtpCmdAllowed w s) :
    s.otpCmd w data = { s with lc := { s.lc with result := 1 } } := by
  have refused : s.lc.state ≠ .test ∨ !otpWordOk w := by
    by_cases state : s.lc.state = .test
    · exact .inr (by simpa using fun word => h ⟨state, otpWordOk_iff.mp word⟩)
    · exact .inl state
  simp only [State.otpCmd, hmp, refused, if_true, if_false]

theorem State.otpCmd_accepted {w : Nat} (hmp : s.lc.mp ≠ .reset) (h : OtpCmdAllowed w s) (hjob : s.lc.job = none)
    (hpending : s.lc.pending = false) :
    s.otpCmd w data =
      ({ s with lc := { s.lc with result := 0 } } : State).startOtp ((onesOf data).map fun b => (w, b)) none := by
  have word : otpWordOk w = true := otpWordOk_iff.mpr h.2
  simp [State.otpCmd, hmp, h.1, word, hjob, hpending]

/-- Elsewhere LC_OTP_CMD only sets the result NOT_ALLOWED. -/
theorem answers_lcOtpCmd_refused (hw : Writable r 0xD00048 s) (hmp : s.lc.mp ≠ .reset)
    (h : ¬OtpCmdAllowed word.toNat s) :
    Answers (.lcOtpCmd r word data) s fun t =>
      t.lc = { s.lc with result := 1 } ∧ t.out = s.out ++ rspOf r ∧ Frame [.lcRest, .out] s t := by
  obtain ⟨t, run, lc, out, frame⟩ := exec_lcOtpCmd_of_writable hw word data
  rw [State.otpCmd_refused hmp h] at lc out
  exact ⟨t, run, lc, out, frame⟩

/-- An accepted LC_OTP_CMD has all 1 bits of its data still to be programmed. -/
theorem answers_lcOtpCmd_accepted (hw : Writable r 0xD00048 s) (hmp : s.lc.mp ≠ .reset)
    (h : OtpCmdAllowed word.toNat s) (hjob : s.lc.job = none) (hpending : s.lc.pending = false) :
    Answers (.lcOtpCmd r word data) s fun t =>
      t.lc = { s.lc with result := 0, job := otpCmdJob word.toNat (onesOf data) } ∧ Frame [.lcRest, .out] s t := by
  obtain ⟨t, run, lc, -, frame⟩ := exec_lcOtpCmd_of_writable hw word data
  rw [State.otpCmd_accepted hmp h hjob hpending, State.startOtp_lc] at lc
  exact ⟨t, run, lc, frame⟩

end

/-- Settles O12: an accepted command's job holds the 1 bits of its data, and every OTP_BIT_PROGRAMMED takes the first of
those that are left. -/
theorem otpCommandsProgramTheSetBits : Obligations.OtpCommandsProgramTheSetBits := by
  intro r word data s hw hmp w allowed n
  refine ⟨fun h => answers_lcOtpCmd_refused hw hmp h, fun h hjob hpending => ?accepted⟩
  obtain ⟨t, run, lc, frame⟩ := answers_lcOtpCmd_accepted (data := data) hw hmp h hjob hpending
  have job : t.lc.job = otpCmdJob w (onesOf data) := by rw [lc]
  have words (v : Nat) : t.lc.word v = s.lc.word v := by rw [lc]; rfl
  refine ⟨t, run, by rw [lc], by rw [lc], frame, fun k hk => ?one, ?all⟩
  case one =>
    obtain ⟨u, v, before, after, programmed⟩ := runs_otpBitProgrammed_bit w _ job hk
    have chosen := List.getElem_mem hk
    rw [List.mem_filter, List.mem_range] at chosen
    obtain ⟨inWord, inData⟩ := chosen
    exact ⟨u, v, _, before, after, inWord, inData, by simpa using programmed.word⟩
  case all =>
    obtain ⟨u, done, ended, programmed⟩ := runs_otpBitProgrammed w (onesOf data) [] (by simpa using job)
    refine ⟨u, done, ?_, fun v hv => ?_, ended, (frame.mono (by decide)).trans programmed.frame⟩
    · rw [programmed.word, words, wordOfBits_onesOf]
    · rw [programmed.others v hv, words]

end Sys2Proof.Machine
end

section
/-! Register accesses while the fabric is held: the host interface is silent, and the management port answers the CORE, LC
and FLT blocks, with the MP block once the firmware has released the fabric (R392, R423, R425, R436, R447). -/

namespace Sys2Proof.Machine
open Sys2Proof Sys2Proof.Safety

theorem onHost_iff {r : Requester} : onHost r = true ↔ r = .pf ∨ ∃ n, r = .vf n := by
  cases r <;> simp [onHost]

section
variable {r : Requester} {addr : Nat} {be : Byte} {s : State} (held : s.core.released = false)
include held

/-! ### The host interface -/

theorem exec_read_host_of_held (hr : r = .pf ∨ ∃ n, r = .vf n) :
    exec (.deniedRead r { addr := addr, be := be }) s = .next { s with out := s.out ++ [.mgmtRsp r 0 0] } := by
  have read : s.readAccess r { addr := addr, be := be } = s.respondReg r 0 0 := by
    rcases hr with rfl | ⟨n, rfl⟩ <;> simp [State.readAccess, held]
  rw [exec_deniedRead (.inl (onHost_iff.mpr hr)), read]
  rfl

theorem exec_write_host_of_held (hr : r = .pf ∨ ∃ n, r = .vf n) (hs : Settled s) (data : Word) :
    exec (.registerWrite r addr be data) s = .next s := by
  have write : s.registerWrite r addr be data = s := by
    rcases hr with rfl | ⟨n, rfl⟩ <;> simp [State.registerWrite, held]
  exact exec_registerWrite_of_settled (.inl (onHost_iff.mpr hr)) hs write rfl rfl

/-! ### The management port -/

/-- Which blocks answer a source of the management port while the fabric is held (R392, R423, R425, R447). -/
theorem State.answers_of_held (hr : r = .fabric ∨ r = .test) (hrst : s.core.mgmtRstLow = false) (b : Nat) :
    s.answers r b = true ↔ (b = 0 ∨ b = 11 ∨ b = 12) ∨ s.core.fwRelease = true ∧ b = 14 := by
  rcases hr with rfl | rfl <;> simp [State.answers, answersHeld, held, hrst]
end

section
variable {r : Requester} {addr : Nat} {be : Byte} {s : State}

/-- The sources of the management port may read the blocks that answer while the fabric is held (R437). -/
theorem rightOf_held_ne_none {b : Nat} (hr : r = .fabric ∨ r = .test) (hb : b = 0 ∨ b = 11 ∨ b = 12) :
    rightOf r b ≠ .none := by
  rcases hr with rfl | rfl <;> rcases hb with rfl | rfl | rfl <;> decide

section
variable (hr : r = .fabric ∨ r = .test) (hrst : s.core.mgmtRstLow = false) (hin : addr < 0x1000000)
  (hbe : be = 0x0F ∨ be = 0xF0 ∨ be = 0xFF) (silent : s.answers r (blockOf addr) = false)
include hr hrst hin hbe silent

/-- A block that does not answer reads zero, without a check of the right (R436). -/
theorem exec_read_of_silent :
    exec (.deniedRead r { addr := addr, be := be }) s = .next { s with out := s.out ++ [.mgmtRsp r 0 0] } := by
  have ok : beOk be = true := beOk_iff.mpr hbe
  have read : s.readAccess r { addr := addr, be := be } = s.respondReg r 0 0 := by
    rcases hr with rfl | rfl <;> simp [State.readAccess, State.readBy, hrst, ok, silent]
  rw [exec_deniedRead (.inr hin), read]
  rfl

/-- A write of a block that does not answer is answered OK and changes nothing (R436). -/
theorem exec_write_of_silent (hs : Settled s) (data : Word) :
    exec (.registerWrite r addr be data) s = .next { s with out := s.out ++ [.mgmtRsp r 0 0] } := by
  have ok : beOk be = true := beOk_iff.mpr hbe
  have write : s.registerWrite r addr be data = s.respondReg r 0 0 := by
    rcases hr with rfl | rfl <;> simp [State.registerWrite, State.writeBy, hrst, ok, silent]
  exact exec_registerWrite_of_settled (.inr hin) hs write rfl rfl
end
end

/-- Settles O11: at the management port an access of a block that answers reaches the check of the right, which lets the
read of a held fabric's block pass, and one of any other block is silent. -/
theorem aHeldFabricReadsZero : Obligations.AHeldFabricReadsZero := by
  intro s held
  refine ⟨fun r addr be hr => ⟨exec_read_host_of_held held hr, exec_write_host_of_held held hr⟩,
    fun r addr be hr hrst hin hbe => ⟨fun hb => ?answers, fun hcore hflt hlc hmp => ?silent⟩⟩
  case answers =>
    have reach : Reaches r addr be s :=
      ⟨hr.elim (.inr ∘ .inr ∘ .inl) (.inr ∘ .inr ∘ .inr), hbe, hin, (State.answers_of_held held hr hrst _).mpr (.inl hb)⟩
    exact exec_read_permitted reach (rightOf_held_ne_none hr hb)
  case silent =>
    have silent : s.answers r (blockOf addr) = false := by
      rw [← Bool.not_eq_true, State.answers_of_held held hr hrst]
      rintro (block | ⟨released, block⟩)
      · exact block.elim hcore fun k => k.elim hflt hlc
      · exact hmp.elim (fun other => other block) fun unreleased => by simp [unreleased] at released
    exact ⟨exec_read_of_silent hr hrst hin hbe silent, exec_write_of_silent hr hrst hin hbe silent⟩

end Sys2Proof.Machine
end
